-- ==== Sys2Proof/Word.lean ====
section
/-! DEFINITION. Sys2Proof/Word.lean: the bytes the ring carries and the fixed index types of the RSL-D8
(spec/00_scope.md, "Conventions" and "Capacities"). -/

namespace Sys2Proof

/-- One byte of a telegram (section 9.1). -/
abbrev Byte := BitVec 8

/-- A string of ASCII characters, one byte each: digit strings, lot codes, descriptions, label rows
(section 9.1: "Digit strings and text are sent as ASCII characters, one byte each"). -/
abbrev Text := List Byte

/-- An infeed lane; lane n of the manual (1 to 8) is the index n - 1. -/
abbrev Lane := Fin 8

/-- A stretch wrapper; wrapper n of the manual (1 to 4) is the index n - 1. -/
abbrev WrapperNo := Fin 4

/-- A label line; label line k of the manual (1 or 2) is the index k - 1. -/
abbrev LineNo := Fin 2

/-- A slot of the context table, 0 to 63 (R39). -/
abbrev Slot := Fin 64

/-- A watch screen, 0 to 15 (R164). -/
abbrev ScreenNo := Fin 16

/-- A label template number, 0 to 15 (R115). -/
abbrev TemplateNo := Fin 16

end Sys2Proof
end

