-- ==== Sys2Proof/Syntax.lean ====
section
/-! DEFINITION. Sys2Proof/Syntax.lean: the commands of the RSL-D8, one constructor of `Instr` for each row of
spec/opcode_table.json, with the operands the manual gives each one.

A station telegram carries its destination and source address bytes and the bytes of its payload that its
kind does not fix (section 9.1), so that a payload that does not fit its kind (R153) can be written down too.
A management request carries its source address, its tag and its fields, each at the width the request's
layout gives it and before the owner's own checks: an enumerated field is its code byte, so that an unknown
code (BAD_FIELD) can be written down. An expiry names what its timer belongs to. -/

namespace Sys2Proof

/-- A telegram of the line ring without its check bytes (section 9.1, Frame): the length byte is the length
of the payload, and the check is computed from these bytes. -/
structure Telegram where
  dst     : Byte
  src     : Byte
  kind    : Byte
  payload : List Byte
  deriving DecidableEq, Repr

/-- The fields of ARTICLE_PUT (section 1.2). `dutiable` is 1 for yes, 2 for no. -/
structure ArticleFields where
  key           : Text
  description   : Text
  caseWeight    : Nat
  caseTol       : Nat
  casesPerLayer : Nat
  layerHeight   : Nat
  caseVolume    : Nat
  dutiable      : Byte
  deriving DecidableEq, Repr

/-- The fields of CONSIGNMENT_PUT (section 1.3). `dutyStatus` is 1 for BONDED, 2 for DUTY_PAID. -/
structure ConsignmentFields where
  number        : Text
  customer      : Text
  minShelfLife  : Nat
  maxLots       : Nat
  sightings     : Nat
  dutyStatus    : Byte
  labelTemplate : Nat
  bay           : Nat
  defaultRecipe : Nat
  deriving DecidableEq, Repr

/-- One plan line: an article key and a planned count (section 1.4). -/
structure PlanLine where
  article : Text
  count   : Nat
  deriving DecidableEq, Repr

/-- The fields of PLAN_PUT (R10). No recipe stands for "consignment default". -/
structure PlanFields where
  licence     : Text
  consignment : Text
  tare        : Nat
  baseHeight  : Nat
  recipe      : Option Nat
  lines       : List PlanLine
  deriving DecidableEq, Repr

/-- What PLAN_GET names (R15). -/
inductive PlanKey where
  | licence (l : Text)
  | slot (n : Nat)
  deriving DecidableEq, Repr

/-- What STATION_GET names (R19): an address, or a role code with an instance. -/
inductive StationKey where
  | address (a : Byte)
  | role (code inst : Byte)
  deriving DecidableEq, Repr

/-- What CONTEXT_GET, CASE_MAP_GET and LABEL_GET name (R53). -/
inductive ContextKey where
  | slot (n : Nat)
  | licence (l : Text)
  deriving DecidableEq, Repr

/-- The fields of HOLD_ADD (R25). `reason` is 1 QUALITY, 2 RECALL, 3 CUSTOMS, 4 OTHER. -/
structure HoldFields where
  article : Text
  lot     : Text
  reason  : Byte
  code    : Nat
  placed  : Nat
  deriving DecidableEq, Repr

/-- One item of TEMPLATE_ITEMS as carried, before it is checked (R115, R117). -/
inductive ItemFields where
  | text (t : Text)
  | field (code width align fill : Byte)
  | newline
  | linesBegin
  | linesEnd
  | ifBonded
  | endIf
  | barcode (what : Byte)
  | endItem
  | unknown (kind : Byte)
  deriving DecidableEq, Repr

/-- One field test of WATCH_PUT as carried (R164, R170). `kind` is 1 EQUAL, 2 NOT_EQUAL, 3 IN_RANGE,
4 CHANGED; EQUAL and NOT_EQUAL use `lo` as their value v, and `hi` is then 0. -/
structure TestFields where
  offset : Nat
  width  : Nat
  kind   : Byte
  lo     : Nat
  hi     : Nat
  deriving DecidableEq, Repr

/-- The fields of WATCH_PUT (R170). No source or no kind stands for ANY. `enabled` is 1 yes, 2 no; `combine`
is 1 ALL, 2 ANY; `action` is 1 ALERT, 2 ALERT_CAPTURE, 3 CONSUME, 4 CONSUME_ALERT. -/
structure WatchFields where
  screen  : Nat
  enabled : Byte
  source  : Option Nat
  kind    : Option Nat
  tests   : List TestFields
  combine : Byte
  action  : Byte
  deriving DecidableEq, Repr

/-- The commands of the part: one constructor for each row of spec/opcode_table.json, in its order. -/
inductive Instr where
  -- reset and the ring port
  | reset
  | resetRelease (strap : BitVec 5)
  | invalidTelegram (bytes : List Byte)
  | ringInTelegram (t : Telegram)
  | ringOutFree
  -- station telegrams
  | tagRead (dst src : Byte) (payload : List Byte)
  | tunnelStart (dst src : Byte) (payload : List Byte)
  | caseRead (dst src : Byte) (payload : List Byte)
  | tunnelEnd (dst src : Byte)
  | measure (dst src : Byte) (payload : List Byte)
  | scaleChecked (dst src : Byte)
  | moveDone (dst src : Byte)
  | moveFault (dst src : Byte)
  | carReady (dst src : Byte)
  | spurState (dst src occupancy : Byte)
  | wrapperReady (dst src : Byte)
  | standby (dst src : Byte)
  | wrapStarted (dst src : Byte)
  | wrapDone (dst src : Byte)
  | wrapFault (dst src : Byte)
  | jobTaken (dst src : Byte) (body : List Byte)
  | palletAtLabel (dst src : Byte)
  | applied (dst src : Byte) (body : List Byte)
  | applyFault (dst src : Byte)
  | rejectApplicatorApplied (dst src : Byte) (body : List Byte)
  | rejectApplicatorFault (dst src : Byte)
  | routed (dst src : Byte) (payload : List Byte)
  -- completions and expiries
  | compositionComplete
  | scanSilenceExpiry (slot : Slot)
  | measureLimitExpiry (slot : Slot)
  | decisionLimitExpiry (slot : Slot)
  | wrapWaitLimitExpiry (slot : Slot)
  | carMoveLimitExpiry (slot : Slot)
  | wrapLimitExpiry (slot : Slot)
  | warmUpEnd (w : WrapperNo)
  | labelLimitExpiry (slot : Slot)
  | exitLimitExpiry (slot : Slot)
  | currencyWindowExpiry
  | ringSilenceExpiry
  -- management requests
  | mgmtRequestPart (src code tag part count : Byte) (share : List Byte)
  | unknownRequestCode (src : Byte) (payload : List Byte)
  | articlePut (src tag : Byte) (f : ArticleFields)
  | articleDelete (src tag : Byte) (key : Text)
  | articleGet (src tag : Byte) (key : Text)
  | articleNext (src tag : Byte) (key : Text)
  | articleClear (src tag : Byte)
  | consignmentPut (src tag : Byte) (f : ConsignmentFields)
  | consignmentDelete (src tag : Byte) (number : Text)
  | consignmentGet (src tag : Byte) (number : Text)
  | consignmentNext (src tag : Byte) (number : Text)
  | consignmentClear (src tag : Byte)
  | planPut (src tag : Byte) (f : PlanFields)
  | planDelete (src tag : Byte) (licence : Text)
  | planGet (src tag : Byte) (key : PlanKey)
  | planNext (src tag : Byte) (start : Option Nat)
  | planClear (src tag : Byte)
  | stationPut (src tag : Byte) (address role inst : Byte)
  | stationGet (src tag : Byte) (key : StationKey)
  | holdAdd (src tag : Byte) (f : HoldFields)
  | holdRelease (src tag : Byte) (article lot : Text)
  | holdClear (src tag : Byte)
  | holdNext (src tag : Byte) (key : Option (Text × Text))
  | currency (src tag : Byte) (generation day : Nat)
  | laneClear (src tag : Byte) (lane : Nat)
  | contextGet (src tag : Byte) (key : ContextKey)
  | caseMapGet (src tag : Byte) (key : ContextKey) (start : Nat)
  | retryWaiting (src tag : Byte)
  | scaleClear (src tag : Byte) (lane : Nat)
  | wrapperConfig (src tag : Byte) (wrapper : Nat) (recipes : List Nat) (warmUp : Nat)
  | templateBegin (src tag : Byte) (target : Nat)
  | templateItems (src tag : Byte) (items : List ItemFields)
  | templateEnd (src tag : Byte)
  | templateGet (src tag : Byte) (template start : Nat)
  | labelGet (src tag : Byte) (key : ContextKey)
  | logGet (src tag : Byte) (age : Nat)
  | watchPut (src tag : Byte) (f : WatchFields)
  | watchGet (src tag : Byte) (screen : Nat) (part : Byte) (start : Nat)
  | watchAck (src tag : Byte) (screen : Nat)
  | go (src tag : Byte)
  | drain (src tag : Byte)
  | halt (src tag : Byte)
  | restart (src tag : Byte)
  | clearRejectAll (src tag : Byte)
  | paramSet (src tag : Byte) (pairs : List (Nat × Nat))
  | paramGet (src tag : Byte) (numbers : List Nat)
  | statusGet (src tag : Byte)
  -- the timebase
  | timebasePeriod
  deriving DecidableEq, Repr

end Sys2Proof
end

