-- ==== Sys2Proof/Decode.lean ====
section
/-! DEFINITION. Sys2Proof/Decode.lean: the command a word spells by the bits of spec/opcode_table.json. The
table gives no row any bits: the commands reach the part as telegrams, pins and expiries, whose bytes
Machine/Frame.lean and Machine/RequestCodec.lean read. -/

namespace Sys2Proof

/-- No row of the table has bits, so no word spells a command. -/
def decodeTableWord (_nbits _w : Nat) : Option Instr := none

end Sys2Proof
end

