-- ==== Sys2Proof/Config.lean ====
section
/-! DEFINITION. Sys2Proof/Config.lean: the capacities and fixed figures of the part (spec/00_scope.md,
"Capacities"), and the one value the manual leaves open. -/

namespace Sys2Proof.Config

/-- Contexts per lane queue (Capacities; R40). -/
def laneQueueMax : Nat := 5
/-- Article table entries (section 1.2). -/
def articleMax : Nat := 256
/-- Consignment table entries (section 1.3). -/
def consignmentMax : Nat := 64
/-- Plan table slots (section 1.4). -/
def planMax : Nat := 512
/-- Hold list entries (R22). -/
def holdMax : Nat := 128
/-- Tally lines per context (R55). -/
def tallyLineMax : Nat := 8
/-- Contexts per label line (R134). -/
def labelLineMax : Nat := 3
/-- Reject spur positions (R103, R104). -/
def spurMax : Nat := 6
/-- Items per template and per build (R115, R117). -/
def templateItemMax : Nat := 48
/-- Released log entries (R147). -/
def logMax : Nat := 256
/-- ESCAPE reports in the escape queue (R37). -/
def escapeMax : Nat := 256
/-- Telegrams in the forward queue (R154). -/
def forwardMax : Nat := 8
/-- Telegrams in the origin queue (R156). -/
def originMax : Nat := 32
/-- Replies in the reply list (R159). -/
def replyMax : Nat := 16
/-- Reports in the report list (R161). -/
def reportMax : Nat := 32
/-- Bytes of a telegram's payload (R150). -/
def payloadMax : Nat := 120
/-- The ceiling of the forward run (R157). -/
def forwardRunMax : Nat := 4
/-- The highest number of parts of a request or reply (R160). -/
def partMax : Nat := 8

/-- The ceiling of the decision clock and of the wide consignment totals, 2^48 - 1 (sections 1.3, 5). -/
def max48 : Nat := 281474976710655
/-- The last admission number and release sequence (R39, R147). -/
def max32 : Nat := 4294967295

/-- The highest gross weight, in grams (R39, R50). -/
def weightMax : Nat := 4000000
/-- The highest stack height, in millimetres (R39, R50). -/
def heightMax : Nat := 4000
/-- The last day number (section 2.3 of spec/00_scope.md). -/
def dayMax : Nat := 36524

/-- The causes a WRAPPER report can carry: the telegram, expiry or request whose taking made the change, or
HALT, RESTART or CONTEXT_LOST (R113). -/
inductive UnitCause where
  | tagRead | tunnelStart | tunnelEnd | measure | moveDone | moveFault | carReady | spurState
  | wrapperReady | standby | wrapStarted | wrapDone | wrapFault | applied | applyFault | ticketApplied
  | ticketFault | routed
  | scanSilence | measureLimit | decisionLimit | wrapWaitLimit | carMoveLimit | wrapLimit | warmUpEnd
  | labelLimit | exitLimit | ringSilence
  | planPut | holdAdd | currency | retryWaiting | laneClear | wrapperConfig
  | halt | restart | contextLost
  deriving DecidableEq, Repr

/-- FREE VALUE, UNVERIFIED, safe. The byte that stands for a cause in a WRAPPER report. Section 9.1 numbers an
enumerated value by its place "among the values of its field as first listed in this manual", and the manual
lists this field's values nowhere (notes/assumptions/3.md). -/
opaque unitCauseCode : UnitCause → Byte

end Sys2Proof.Config
end

