-- ==== Sys2Proof/Machine/State.lean ====
section
/-! DEFINITION. Sys2Proof/Machine/State.lean: every piece of state the manual gives the RSL-D8, block by block
(section 1.3 of spec/00_scope.md: "Each block owns its own state"), as plain data, and the state after reset.
Where an enumerated value is carried in a telegram, its code is its place in the declaration below, counting
from 1 (section 9.1), unless its docstring says otherwise. -/

namespace Sys2Proof.Machine

open Sys2Proof

/-! ### Outcomes -/

/-- The part has no fault that stops it: every telegram, request, expiry and pin event of the manual leaves it
in a next state (faults of the car and the wrappers are states of theirs, R98, R106). No meaning raises one. -/
inductive Fault
  deriving DecidableEq, Repr

/-- Why a command has no next state. -/
inductive Refusal where
  /-- Raised by `exec` alone, for a row of the table that has no meaning yet; safe. No arm raises it now. -/
  | notModelled (mnemonic : String)
  deriving DecidableEq, Repr

/-! ### Enumerated values -/

/-- The line modes (chapter 11). -/
inductive LineMode where
  | start | run | degraded | drain | stopped | isolated
  deriving DecidableEq, Repr

/-- The cause of a MODE report (R173). -/
inductive ModeCause where
  | go | drain | drainComplete | halt | restart | currency | ringSilent | ringReturn | clearRejectAll
  deriving DecidableEq, Repr

/-- The currency state (chapter 2). -/
inductive Currency where
  | current | stale
  deriving DecidableEq, Repr

/-- Verdicts, ranked PASS 0, PARK 1, REWORK 2, HOLD 3 (spec/00_scope.md); also the severities of R74. -/
inductive Verdict where
  | pass | park | rework | hold
  deriving DecidableEq, Repr

/-- The 38 reasons, in the order of their numbers (R74). -/
inductive Reason where
  | noLicence | duplicateLicence | licenceReused | trackSlip | trackMismatch | scanTruncated | noWeight
  | noHeight | draining | caseConflict | tallyOverflow | noPlan | unresolvedRef | holdsStale | noDay
  | foreignArticle | unsighted | overCount | mixedLots | noLot | lotHeld | noDate | expired | shortLife
  | underWeight | overWeight | scaleSuspect | height | unreadable | lotHeldLate | noWrapper | carFault
  | wrapFault | wrapTimeout | labelFault | labelReadback | labelTimeout | ringLost
  deriving DecidableEq, Repr

/-- The items of a waiting set (R77). -/
inductive WaitItem where
  | noPlan | unresolvedRef | holdsStale | noDay
  deriving DecidableEq, Repr

/-- The states of an open context (R46). -/
inductive Phase where
  | admitted | scanning | measuring | waiting | atHeadDecided | moving | wrapping | queuedLabel
  | labelling | exiting | ticketing
  deriving DecidableEq, Repr

/-- The outcomes of a closed context (spec/00_scope.md). -/
inductive Closure where
  | released | rejected | cleared | halted | unconfirmed | divertedByLine
  deriving DecidableEq, Repr

/-- The causes of a STRAY report (R51). -/
inductive StrayCause where
  | noCandidate | alreadyStarted | alreadyDecided | late | notStarted | outOfRange | empty
  deriving DecidableEq, Repr

/-- The events of a LANE report, in order of appearance (R41, R42, R94, R95). -/
inductive LaneEvent where
  | unexpectedPallet | laneOverflow | scaleSuspect | scaleNormal
  deriving DecidableEq, Repr

/-- The causes of the overload flag and of a RING report (R154, R159, R161). -/
inductive RingCause where
  | forwardFull | replyOverrun | badPayload
  deriving DecidableEq, Repr

/-- The states of a plan (section 1.4). -/
inductive PlanState where
  | loaded | inUse | used
  deriving DecidableEq, Repr

/-- The duty status of a consignment (section 1.3). -/
inductive Duty where
  | bonded | dutyPaid
  deriving DecidableEq, Repr

/-- The reason of a hold entry (R22). -/
inductive HoldReason where
  | quality | recall | customs | other
  deriving DecidableEq, Repr

/-- A role with its instance (section 1.5); NONE is the absence of any. -/
inductive RoleInst where
  | tagReader (l : Lane) | tunnel (l : Lane) | measure (l : Lane) | infeed (l : Lane)
  | wrapper (w : WrapperNo)
  | labelApplicator (k : LineNo) | exitSwitch (k : LineNo)
  | transferCar | rejectSpur | rejectApplicator | dispatchSystem | linePanel
  deriving DecidableEq, Repr

/-- An infeed command (R44); codes 1 GO, 2 STOP (section 9.1). -/
inductive InfeedCmd where
  | go | stop
  deriving DecidableEq, Repr

/-- The state of a lane's scale (R94). -/
inductive ScaleState where
  | normal | suspect
  deriving DecidableEq, Repr

/-- The states of the car (R98). -/
inductive CarState where
  | idle | moving | fault
  deriving DecidableEq, Repr

/-- The states of a wrapper (R106). -/
inductive WrapState where
  | offline | warming | idle | loaded | wrapping | doneHeld | fault
  deriving DecidableEq, Repr

/-- The progress of a pallet held by a wrapper (R106). -/
inductive Progress where
  | delivered | ordered | started | done | faulted
  deriving DecidableEq, Repr

/-- The state a DONE_HELD wrapper takes when its output is released (R106). -/
inductive AfterRelease where
  | idle | warming | offline | fault
  deriving DecidableEq, Repr

/-- A WRAPPER_OUTPUT command; codes 1 HOLD, 2 RELEASE (section 9.1). -/
inductive OutputCmd where
  | hold | release
  deriving DecidableEq, Repr

/-- The kinds of label record (R127); codes 1 DISPATCH_LABEL, 2 REJECT_TICKET (section 9.1). -/
inductive LabelKind where
  | dispatchLabel | rejectTicket
  deriving DecidableEq, Repr

/-- The composition status of a context (chapter 7). -/
inductive CompStatus where
  | none | queued | inFlight | composed
  deriving DecidableEq, Repr

/-- What a barcode shows (R126); codes 1 LICENCE, 2 SERIAL (section 9.1). -/
inductive BarcodeKind where
  | licence | serial
  deriving DecidableEq, Repr

/-- The field codes of a FIELD item, pallet-level (R120) and then line-level (R121). -/
inductive FieldCode where
  | licence | consignment | customer | bay | netKg | grossKg | cases | litres | bestBefore | dispatchDate
  | serial | duty | verdict | reasons
  | article | articleText | lineCount | lineLots | lineBb
  deriving DecidableEq, Repr

/-- The alignment of a FIELD (R115). -/
inductive Align where
  | left | right
  deriving DecidableEq, Repr

/-- The fill of a FIELD (R115). -/
inductive Fill where
  | space | zero
  deriving DecidableEq, Repr

/-- A template item (R115). -/
inductive Item where
  | text (t : Text)
  | field (code : FieldCode) (width : Nat) (align : Align) (fill : Fill)
  | newline
  | linesBegin
  | linesEnd
  | ifBonded
  | endIf
  | barcode (k : BarcodeKind)
  | endItem
  deriving DecidableEq, Repr

/-- How two field tests of a screen are combined (R166). -/
inductive Combine where
  | all | any
  deriving DecidableEq, Repr

/-- The action of a screen (R167). -/
inductive Action where
  | alert | alertCapture | consume | consumeAlert
  deriving DecidableEq, Repr

/-- The latch of a screen (R168). -/
inductive Latch where
  | clear | pending | overrun
  deriving DecidableEq, Repr

/-- A field test of a screen (R164). -/
inductive TestKind where
  | equal (v : Nat) | notEqual (v : Nat) | inRange (lo hi : Nat) | changed
  deriving DecidableEq, Repr

/-- The status of a reply (section 9.1). -/
inductive Status where
  | ok | okUnresolved | okClamped | full | inUse | notFound | badField | badTemplate | busy
  | notPermitted | badRequest | genMismatch | dayRange
  deriving DecidableEq, Repr

/-- The causes of a BAD_TEMPLATE reply (R118). -/
inductive TemplateFault where
  | empty | noEnd | nested | unopenedClose | unclosedSection | lineFieldOutside
  deriving DecidableEq, Repr

/-! ### Reference tables (chapter 1) -/

/-- An article table entry (section 1.2). -/
structure Article where
  key           : Text
  description   : Text
  caseWeight    : Nat
  caseTol       : Nat
  casesPerLayer : Nat
  layerHeight   : Nat
  caseVolume    : Nat
  dutiable      : Bool
  deriving DecidableEq, Repr

/-- The running totals of a consignment (section 1.3). -/
structure Totals where
  pallets    : Nat
  cases      : Nat
  netGrams   : Nat
  dutiableCl : Nat
  deriving DecidableEq, Repr

/-- A consignment table entry (section 1.3). -/
structure Consignment where
  number        : Text
  customer      : Text
  minShelfLife  : Nat
  maxLots       : Nat
  sightings     : Nat
  duty          : Duty
  labelTemplate : TemplateNo
  bay           : Nat
  defaultRecipe : Nat
  totals        : Totals
  deriving DecidableEq, Repr

/-- A plan (section 1.4), with the slot of the plan table that holds it. No recipe stands for "consignment
default". -/
structure Plan where
  slot        : Nat
  licence     : Text
  consignment : Text
  tare        : Nat
  baseHeight  : Nat
  recipe      : Option Nat
  lines       : List PlanLine
  state       : PlanState
  bound       : Option Slot
  deriving DecidableEq, Repr

/-- The Reference Tables block. Articles and consignments stand in ascending key order, plans in ascending
slot order, one entry a slot. -/
structure RefTables where
  articles     : List Article
  consignments : List Consignment
  plans        : List Plan
  stations     : Vector (List RoleInst) 32
  deriving DecidableEq, Repr

/-! ### Hold register (chapter 2) -/

/-- A hold list entry (R22). -/
structure Hold where
  article : Text
  lot     : Text
  reason  : HoldReason
  code    : Nat
  placed  : Nat
  deriving DecidableEq, Repr

/-- An ESCAPE report, complete when it is formed but for the queue-full mark, which it takes when it is placed
(R37). Its fields are those of R37's table and the placed day of the hold that matched, which R22 says such reports
carry beside its reason and code. -/
structure EscapeReport where
  licence     : Text
  consignment : Text
  bay         : Nat
  sequence    : Nat
  article     : Text
  lot         : Option Text
  reason      : HoldReason
  code        : Nat
  placed      : Nat
  unconfirmed : Bool
  generation  : Nat
  deriving DecidableEq, Repr

/-- The Hold Register block. -/
structure HoldRegister where
  list       : List Hold
  generation : Nat
  currency   : Currency
  window     : Option Nat
  day        : Option Nat
  escapes    : List EscapeReport
  escapeLost : Bool
  deriving DecidableEq, Repr

/-! ### Context records (chapters 3 to 8) -/

/-- A context named by slot and admission number (R73, R98, R127). -/
structure CtxId where
  slot : Slot
  adm  : Nat
  deriving DecidableEq, Repr

/-- The content of a tally line (R55). -/
structure Content where
  article : Text
  lot     : Option Text
  best    : Option Nat
  deriving DecidableEq, Repr

/-- A tally line (R55). -/
structure TallyLine where
  content : Content
  count   : Nat
  deriving DecidableEq, Repr

/-- A case map entry other than NOT_SEEN (R55); a counted case refers to its line by the line's content, which
no other line of the tally has. -/
inductive CaseEntry where
  | unknown
  | counted (c : Content)
  deriving DecidableEq, Repr

/-- A tally (R55). The case map lists its seen indices in ascending order; an index not listed is NOT_SEEN. -/
structure Tally where
  cases      : List (Nat × CaseEntry)
  lines      : List TallyLine
  unknowns   : Nat
  unindexed  : Nat
  duplicates : Nat
  deriving DecidableEq, Repr

/-- The weight figures of a decision that compared (R91). -/
structure WeightFigures where
  expected  : Nat
  tolerance : Nat
  measured  : Nat
  deviation : Int
  deriving DecidableEq, Repr

/-- The height figures of a decision that compared (R91). -/
structure HeightFigures where
  expected : Nat
  measured : Nat
  deriving DecidableEq, Repr

/-- The decision record of a context (R91), with the decision time (R90). -/
structure DecisionRecord where
  weight     : Option WeightFigures
  estimate   : Option Nat
  height     : Option HeightFigures
  sighted    : Option (List Nat)
  unknown    : Nat
  duplicates : Nat
  scale      : ScaleState
  streak     : Nat
  time       : Nat
  deriving DecidableEq, Repr

/-- A route's destination (R142). -/
inductive RouteDest where
  | bay (n : Nat)
  | lateReject
  deriving DecidableEq, Repr

/-- How far an outstanding label job has come (R135). -/
inductive JobStage where
  | placing | sent | taken
  deriving DecidableEq, Repr

/-- An outstanding label job (R135). A context with none has job state NONE. -/
structure Job where
  stage  : JobStage
  kind   : LabelKind
  serial : Nat
  deriving DecidableEq, Repr

/-- The content of a LABEL_JOB segment (R136, section 9.1). -/
inductive Segment where
  | rows (rs : List Text)
  | barcodes (bs : List (BarcodeKind × Text))
  deriving DecidableEq, Repr

/-- An order of a context's holder: its label-job and route emissions (R156), each with the role-instance it
is addressed to when it is placed (R19). -/
inductive Order where
  | cancel (dst : RoleInst) (serial : Nat)
  | segment (dst : RoleInst) (serial : Nat) (kind : LabelKind) (number count : Nat) (content : Segment)
  | route (dst : RoleInst) (licence : Option Text) (dest : RouteDest)
  deriving DecidableEq, Repr

/-- A label record (R129). -/
structure LabelRecord where
  ctx        : CtxId
  kind       : LabelKind
  template   : TemplateNo
  serial     : Nat
  verdict    : Option Verdict
  rows       : List Text
  barcodes   : List (BarcodeKind × Text)
  truncated  : Bool
  noTemplate : Bool
  deriving DecidableEq, Repr

/-- An open context: the record of R39, with the state each block keeps per context. `wrapStarted` records that
a WRAP_STARTED has been taken for it (R108: "the first WRAP_STARTED taken for the context"). -/
structure Context where
  adm           : Nat
  licence       : Option Text
  lane          : Lane
  planSlot      : Option Nat
  phase         : Phase
  tunnelStarted : Bool
  tunnelEnded   : Bool
  weight        : Option Nat
  height        : Option Nat
  tally         : Tally
  verdict       : Option Verdict
  reasons       : List Reason
  waiting       : List WaitItem
  record        : Option DecisionRecord
  wrapper       : Option WrapperNo
  wrapStarted   : Bool
  labelSerial   : Option Nat
  labelVoid     : Bool
  unconfirmed   : Bool
  diverted      : Bool
  timer         : Option Nat
  compStatus    : CompStatus
  label         : Option LabelRecord
  job           : Option Job
  voided        : Option Nat
  route         : Option RouteDest
  orders        : List Order
  deriving DecidableEq, Repr

/-! ### Pallet tracker (chapter 3) -/

/-- A lane of the Pallet Tracker: its queue of context slots, oldest first (R40), and its infeed (R44, R45). -/
structure LaneRecord where
  queue      : List Slot
  infeed     : InfeedCmd
  order      : Option InfeedCmd
  lastPlaced : Option InfeedCmd
  deriving DecidableEq, Repr

/-- The Pallet Tracker block. -/
structure Tracker where
  slots   : Vector (Option Context) 64
  lanes   : Vector LaneRecord 8
  nextAdm : Nat
  deriving DecidableEq, Repr

/-! ### Reconciler (chapter 5) -/

/-- A lane's scale (R94). -/
structure Scale where
  state  : ScaleState
  streak : Nat
  deriving DecidableEq, Repr

/-- The Reconciler's own state; its state per context is in the contexts. -/
structure Reconciler where
  clock  : Nat
  scales : Vector Scale 8
  deriving DecidableEq, Repr

/-! ### Transfer and wrap allocator (chapter 6) -/

/-- What the car carries or a wrapper holds (R98, R106). -/
inductive Load where
  | none
  | context (id : CtxId)
  | orphan
  deriving DecidableEq, Repr

/-- The destination of a move (R98). -/
inductive MoveDest where
  | wrapper (w : WrapperNo)
  | spur
  deriving DecidableEq, Repr

/-- A CAR_MOVE order (R99, R101); no lane stands for the source "car". -/
structure CarMove where
  source  : Option Lane
  dest    : MoveDest
  licence : Option Text
  deriving DecidableEq, Repr

/-- The car record (R98). -/
structure Car where
  state       : CarState
  cargo       : Load
  source      : Option Lane
  dest        : Option MoveDest
  recipe      : Option Nat
  order       : Option CarMove
  recoveryDue : Bool
  deriving DecidableEq, Repr

/-- A WRAP_ORDER (R108). -/
structure WrapOrder where
  recipe  : Nat
  licence : Option Text
  deriving DecidableEq, Repr

/-- A wrapper record (R106). -/
structure Wrapper where
  state        : WrapState
  pallet       : Load
  progress     : Option Progress
  recipe       : Option Nat
  afterRelease : AfterRelease
  lastOutput   : OutputCmd
  wrapOrder    : Option WrapOrder
  output       : Option OutputCmd
  caps         : List Nat
  warmUp       : Nat
  warmTimer    : Option Nat
  deriving DecidableEq, Repr

/-- The Transfer and Wrap Allocator block. `arbiterDue` is the MODEL's own field: an event of R103 has been
taken in this step and the arbiter has not been run for it yet; it is false between steps. -/
structure Allocator where
  car        : Car
  wrappers   : Vector Wrapper 4
  spur       : Nat
  held       : Vector (List WrapperNo) 2
  arbiterDue : Bool
  deriving DecidableEq, Repr

/-! ### Label composer (chapter 7) -/

/-- A queued composition request (R127). -/
structure CompRequest where
  ctx  : CtxId
  kind : LabelKind
  deriving DecidableEq, Repr

/-- The inputs a composition reads at its start (R128). -/
structure CompInputs where
  items       : List Item
  licence     : Option Text
  weight      : Option Nat
  verdict     : Option Verdict
  reasons     : List Reason
  plan        : Option Plan
  consignment : Option Consignment
  articles    : List (Option Article)
  lines       : List TallyLine
  day         : Option Nat
  deriving DecidableEq, Repr

/-- The composition in flight (R128, R129), with the milliseconds left to its completion. -/
structure Flight where
  ctx           : CtxId
  kind          : LabelKind
  template      : TemplateNo
  inputs        : CompInputs
  ticketWaiting : Bool
  remaining     : Nat
  deriving DecidableEq, Repr

/-- An open build (R116). -/
structure Build where
  target : TemplateNo
  items  : List Item
  deriving DecidableEq, Repr

/-- The Label Composer block. An empty template is the empty list. -/
structure Composer where
  templates  : Vector (List Item) 16
  build      : Option Build
  queue      : List CompRequest
  flight     : Option Flight
  nextSerial : Nat
  deriving DecidableEq, Repr

/-! ### Label and exit dispatcher (chapter 8) -/

/-- A released-log entry (R147). -/
structure LogEntry where
  sequence    : Nat
  licence     : Text
  consignment : Text
  bay         : Nat
  day         : Option Nat
  unconfirmed : Bool
  pairs       : List (Text × Option Text)
  deriving DecidableEq, Repr

/-- The Label and Exit Dispatcher block; the log stands oldest first. -/
structure Dispatcher where
  lines       : Vector (List Slot) 2
  tickets     : List Slot
  log         : List LogEntry
  nextRelease : Nat
  deriving DecidableEq, Repr

/-! ### Reports and replies (chapters 5, 6, 9, 10, 11) -/

/-- The cause of a VERDICT report (R91); LATER carries the previous verdict and the added reason. -/
inductive VerdictCause where
  | decided
  | parked
  | later (previous : Verdict) (added : Reason)
  deriving DecidableEq, Repr

/-- A VERDICT report (R91). -/
structure VerdictReport where
  slot     : Slot
  adm      : Nat
  licence  : Option Text
  lane     : Lane
  planSlot : Option Nat
  cause    : VerdictCause
  verdict  : Verdict
  reasons  : List Reason
  record   : Option DecisionRecord
  deriving DecidableEq, Repr

/-- A CLOSED report (R51). -/
structure ClosedReport where
  slot        : Slot
  adm         : Nat
  licence     : Option Text
  lane        : Lane
  planSlot    : Option Nat
  verdict     : Option Verdict
  reasons     : List Reason
  outcome     : Closure
  labelVoid   : Bool
  unconfirmed : Bool
  diverted    : Bool
  deriving DecidableEq, Repr

/-- A LANE report (R41, R42, R94, R95): the licence for the first two events, the streak for SCALE_SUSPECT,
the event's source address for SCALE_NORMAL. -/
inductive LaneReport where
  | unexpectedPallet (l : Lane) (licence : Option Text)
  | laneOverflow (l : Lane) (licence : Option Text)
  | scaleSuspect (l : Lane) (streak : Nat)
  | scaleNormal (l : Lane) (source : Byte)
  deriving DecidableEq, Repr

/-- A MODE report (R173). -/
structure ModeReport where
  before     : LineMode
  after      : LineMode
  held       : Option LineMode
  cause      : ModeCause
  currency   : Currency
  generation : Nat
  day        : Option Nat
  rejectAll  : Bool
  deriving DecidableEq, Repr

/-- What a WATCH_ALERT report tells of the matched telegram (R168); absent for OVERRUN_ACK. -/
structure WatchMatch where
  kind   : Byte
  src    : Byte
  dst    : Byte
  length : Nat
  fields : List (Option Nat)
  deriving DecidableEq, Repr

/-- A WATCH_ALERT report (R168), with the number of the screen's tests; no match stands for the cause
OVERRUN_ACK. -/
structure WatchAlert where
  screen   : ScreenNo
  hit      : Option WatchMatch
  action   : Action
  tests    : Nat
  captured : Bool
  count    : Nat
  deriving DecidableEq, Repr

/-- The unit of a WRAPPER report with its previous and new state (R113). -/
inductive UnitChange where
  | car (before after : CarState)
  | wrapper (w : WrapperNo) (before after : WrapState)
  deriving DecidableEq, Repr

/-- What a WRAPPER report shows of the pallet held (R113). -/
inductive LoadView where
  | none
  | context (slot : Slot) (licence : Option Text)
  | orphan
  deriving DecidableEq, Repr

/-- A WRAPPER report (R113). -/
structure UnitReport where
  change : UnitChange
  cause  : Config.UnitCause
  load   : LoadView
  deriving DecidableEq, Repr

/-- A RING report (R161): the kind, source, length, request code and tag that R153, R154 and R159 give for its
cause. -/
inductive RingReport where
  | forwardFull (kind src : Byte)
  | replyOverrun (code tag src : Byte)
  | badPayload (kind src : Byte) (length : Nat)
  deriving DecidableEq, Repr

/-- A STRAY report (R51). The lane is absent where the telegram has none. -/
structure StrayReport where
  kind    : Byte
  src     : Byte
  lane    : Option Lane
  licence : Option Text
  cause   : StrayCause
  deriving DecidableEq, Repr

/-- The reports of the report list (section 9.1); ESCAPE reports wait in the escape queue instead (R161). -/
inductive Report where
  | verdict (r : VerdictReport)
  | closed (r : ClosedReport)
  | lane (r : LaneReport)
  | mode (r : ModeReport)
  | watchAlert (r : WatchAlert)
  | unit (r : UnitReport)
  | ring (r : RingReport)
  | stray (r : StrayReport)
  deriving DecidableEq, Repr

/-- A field test of a screen with its last value (R164, R165). -/
structure ScreenTest where
  offset : Nat
  width  : Nat
  test   : TestKind
  last   : Option Nat
  deriving DecidableEq, Repr

/-- A watch screen (R164); no source or kind stands for ANY. -/
structure Screen where
  enabled : Bool
  source  : Option Nat
  kind    : Option Nat
  tests   : List ScreenTest
  combine : Combine
  action  : Action
  latch   : Latch
  capture : List Byte
  count   : Nat
  deriving DecidableEq, Repr

/-- What STATUS_GET shows of a lane (R183). -/
structure LaneView where
  count  : Nat
  infeed : InfeedCmd
  scale  : ScaleState
  streak : Nat
  deriving DecidableEq, Repr

/-- What STATUS_GET shows of a wrapper (R183). -/
structure WrapperView where
  state        : WrapState
  pallet       : Load
  progress     : Option Progress
  caps         : List Nat
  warmUp       : Nat
  afterRelease : AfterRelease
  deriving DecidableEq, Repr

/-- The line status of STATUS_GET (R183), in the order the rule lists it. -/
structure StatusView where
  mode       : LineMode
  rejectAll  : Bool
  address    : Nat
  currency   : Currency
  generation : Nat
  day        : Option Nat
  window     : Option Nat
  contexts   : Nat
  lanes      : List LaneView
  car        : CarState
  cargo      : Load
  dest       : Option MoveDest
  wrappers   : List WrapperView
  held       : List (List WrapperNo)
  lineCounts : List Nat
  spur       : Nat
  ticketing  : Nat
  overload   : Option RingCause
  reportSeq  : Nat
  lostReport : Bool
  deriving DecidableEq, Repr

/-- What CONTEXT_GET shows of a context (R53, R71): the record, its place in its lane queue, and, by licence, the
number of other open contexts with it. -/
structure ContextView where
  slot       : Slot
  context    : Context
  place      : Option Nat
  duplicates : Option Nat
  deriving DecidableEq, Repr

/-- What LABEL_GET shows (R132). -/
structure LabelView where
  status     : CompStatus
  place      : Option Nat
  kind       : Option LabelKind
  template   : Option TemplateNo
  waiting    : Bool
  record     : Option LabelRecord
  nextSerial : Nat
  queued     : Nat
  deriving DecidableEq, Repr

/-- The result fields of a reply, as the owning chapter gives them for each request. -/
inductive Result where
  | none
  | article (a : Article)
  | removed (n : Nat)
  | consignmentsRemoved (n : Nat)
  | consignment (c : Consignment)
  | totals (t : Totals)
  | planPut (slot : Nat) (state : PlanState) (bound : Option Slot)
  | plan (p : Plan)
  | stationPut (before : List RoleInst) (loser : Nat)
  | stationEntry (roles : List RoleInst)
  | stationHolder (address : Nat)
  | holdAdd (inserted : Bool) (generation entries late matched queued : Nat)
  | holdCount (generation entries : Nat)
  | holdCleared (removed generation : Nat)
  | holdEntry (generation : Nat) (h : Hold)
  | generation (g : Nat)
  | currency (generation : Nat) (day : Option Nat) (state : Currency) (dayRefused : Bool)
  | laneCleared (n : Nat) (keptHead : Bool)
  | context (v : ContextView)
  | caseMap (entries : List (Nat × Option Nat)) (next : Option Nat)
  | retried (attempted decided waiting : Nat)
  | scale (state : ScaleState) (streak : Nat)
  | wrapperConfig (caps : List Nat) (warmUp : Nat)
  | discardedBuild (b : Option (TemplateNo × Nat))
  | itemCount (n : Nat)
  | itemPosition (n : Nat)
  | templateFault (f : TemplateFault) (position : Nat)
  | templateItems (count : Nat) (items : List Item) (next : Option Nat)
  | label (v : LabelView)
  | log (held next : Nat) (e : Option LogEntry)
  | watchPut (latch : Latch) (count : Nat)
  | watchAck (before after : Latch) (count : Nat)
  | watchSettings (s : Screen)
  | watchCapture (bytes : List Byte) (next : Option Nat)
  | mode (before after : LineMode) (rejectBefore rejectAfter : Bool) (closed : Option Nat)
  | params (ps : List (Nat × Nat))
  | status (v : StatusView)
  deriving DecidableEq, Repr

/-- A reply of the reply list (R159); `sent` counts the parts already placed (R160). -/
structure Reply where
  dst    : Byte
  code   : Byte
  tag    : Byte
  status : Status
  result : Result
  sent   : Nat
  deriving DecidableEq, Repr

/-- A gathering of request parts for one source (R160); `next` is the part number awaited. -/
structure Gathering where
  src   : Byte
  code  : Byte
  tag   : Byte
  count : Nat
  next  : Nat
  bytes : List Byte
  deriving DecidableEq, Repr

/-- The Management Responder block. -/
structure Responder where
  replies    : List Reply
  reports    : List Report
  lostReport : Bool
  reportSeq  : Nat
  gatherings : List Gathering
  deriving DecidableEq, Repr

/-! ### Ring port (chapter 9) -/

/-- The holders of pending emissions (R156); a holder of a closure is named by the closed context. -/
inductive Holder where
  | context (slot : Slot)
  | closure (id : CtxId)
  | infeed (l : Lane)
  | car
  | wrapOrder (w : WrapperNo)
  | wrapOutput (w : WrapperNo)
  | replies
  | reports
  | escapes
  deriving DecidableEq, Repr

/-- The Ring Port block. `waiting` is the pending list; `closures` holds the emissions of the holders of
closures (R156); `ringOut` is the telegram whose transmission began last, if Ring Out has not since been found
free with nothing to send (R157); no `silence` stands for an expired timer. -/
structure RingPort where
  forward  : List Telegram
  origin   : List Telegram
  waiting  : List Holder
  closures : List (CtxId × List Order)
  run      : Nat
  overload : Option RingCause
  silence  : Option Nat
  ringOut  : Option Telegram
  deriving DecidableEq, Repr

/-! ### Mode controller (chapter 11) -/

/-- The line parameters (R182), in the order of their numbers. -/
structure Params where
  scanSilence      : Nat
  measureLimit     : Nat
  decisionLimit    : Nat
  carMoveLimit     : Nat
  wrapWaitLimit    : Nat
  wrapLimit        : Nat
  labelLimit       : Nat
  exitLimit        : Nat
  ringSilence      : Nat
  currencyWindow   : Nat
  baseWeightTol    : Nat
  weightTolCap     : Nat
  heightTol        : Nat
  unknownAllowance : Nat
  scaleStreak      : Nat
  reportAddress    : Nat
  rejectTemplate   : TemplateNo
  deriving DecidableEq, Repr

/-- The Mode Controller block. `held` is the held mode while ISOLATED. `inReset` says that the reset pin is
asserted (or power-on has not ended), so that the timebase does not run (R181). -/
structure ModeControl where
  inReset   : Bool
  mode      : LineMode
  held      : Option LineMode
  rejectAll : Bool
  address   : Fin 32
  params    : Params
  deriving DecidableEq, Repr

/-- The state of the part, block by block, and the commands that wait for it. -/
structure State where
  refs     : RefTables
  holds    : HoldRegister
  tracker  : Tracker
  recon    : Reconciler
  alloc    : Allocator
  composer : Composer
  labels   : Dispatcher
  ring     : RingPort
  mgmt     : Responder
  watch    : Vector Screen 16
  ctl      : ModeControl
  pending  : List Instr
  deriving DecidableEq, Repr

/-! ### The state after reset -/

/-- The default line parameters (R182). -/
def Params.default : Params where
  scanSilence      := 4000
  measureLimit     := 20000
  decisionLimit    := 30000
  carMoveLimit     := 60000
  wrapWaitLimit    := 120000
  wrapLimit        := 180000
  labelLimit       := 60000
  exitLimit        := 30000
  ringSilence      := 200
  currencyWindow   := 60000
  baseWeightTol    := 2000
  weightTolCap     := 25000
  heightTol        := 40
  unknownAllowance := 2
  scaleStreak      := 3
  reportAddress    := 0
  rejectTemplate   := 15

/-- A lane after reset (R54). -/
def LaneRecord.reset : LaneRecord where
  queue      := []
  infeed     := .stop
  order      := none
  lastPlaced := none

/-- A wrapper after reset (R106, R114). -/
def Wrapper.reset : Wrapper where
  state        := .offline
  pallet       := .none
  progress     := none
  recipe       := none
  afterRelease := .idle
  lastOutput   := .release
  wrapOrder    := none
  output       := none
  caps         := [0, 1, 2, 3, 4, 5, 6, 7]
  warmUp       := 45000
  warmTimer    := none

/-- The car after reset (R98, R114). -/
def Car.reset : Car where
  state       := .idle
  cargo       := .none
  source      := none
  dest        := none
  recipe      := none
  order       := none
  recoveryDue := false

/-- A screen after reset (R164). -/
def Screen.reset : Screen where
  enabled := false
  source  := none
  kind    := none
  tests   := []
  combine := .all
  action  := .alert
  latch   := .clear
  capture := []
  count   := 0

/-- The part while its reset pin is asserted, or at power-on: every block at its reset values (R21, R38, R54,
R72, R97, R114, R133, R149, R163, R172, R180, R182), the timebase and the ring-silence timer not started and the
strap not sampled until RESET_RELEASE (R181). The node address before the strap is sampled is the model's, as is
the queue of commands. DESIGN CHOICE, unsafe (notes/assumptions/1.md). -/
def State.reset : State where
  refs :=
    { articles := [], consignments := [], plans := [], stations := Vector.replicate 32 [] }
  holds :=
    { list := [], generation := 0, currency := .stale, window := none, day := none, escapes := [],
      escapeLost := false }
  tracker :=
    { slots := Vector.replicate 64 none, lanes := Vector.replicate 8 LaneRecord.reset, nextAdm := 1 }
  recon := { clock := 0, scales := Vector.replicate 8 ⟨.normal, 0⟩ }
  alloc :=
    { car := Car.reset, wrappers := Vector.replicate 4 Wrapper.reset, spur := 0,
      held := Vector.replicate 2 [], arbiterDue := false }
  composer :=
    { templates := Vector.replicate 16 [], build := none, queue := [], flight := none, nextSerial := 1 }
  labels := { lines := Vector.replicate 2 [], tickets := [], log := [], nextRelease := 1 }
  ring :=
    { forward := [], origin := [], waiting := [], closures := [], run := 0, overload := none,
      silence := none, ringOut := none }
  mgmt := { replies := [], reports := [], lostReport := false, reportSeq := 0, gatherings := [] }
  watch := Vector.replicate 16 Screen.reset
  ctl :=
    { inReset := true, mode := .start, held := none, rejectAll := true, address := 0,
      params := Params.default }
  pending := []

end Sys2Proof.Machine
end

