-- ==== Sys2Proof/Machine/Text.lean ====
section
/-! DEFINITION. Sys2Proof/Machine/Text.lean: digit strings, lot codes, dates and numbers as characters and as
bytes (spec/00_scope.md "Conventions"; R22, R57 to R59, R122; section 9.1). -/

namespace Sys2Proof.Machine

open Sys2Proof

/-! ### Characters -/

/-- The ASCII bytes of a Lean string, for the fixed words the part prints. -/
def ascii (s : String) : Text := s.toList.map fun c => BitVec.ofNat 8 c.toNat

/-- A decimal digit 0 to 9. -/
def isDigit (b : Byte) : Bool := 0x30 ≤ b.toNat && b.toNat ≤ 0x39

/-- A capital letter A to Z. -/
def isCapital (b : Byte) : Bool := 0x41 ≤ b.toNat && b.toNat ≤ 0x5A

/-- A printable ASCII character, space to tilde (section 1.2). -/
def isPrintable (b : Byte) : Bool := 0x20 ≤ b.toNat && b.toNat ≤ 0x7E

/-- The value of a digit character. -/
def digitValue (b : Byte) : Nat := b.toNat - 0x30

/-- A digit string of the given length (section 2.1 of spec/00_scope.md). -/
def isDigits (n : Nat) (t : Text) : Bool := t.length == n && t.all isDigit

/-- A text field of at most n printable characters (section 1.2). -/
def isTextUpTo (n : Nat) (t : Text) : Bool := t.length ≤ n && t.all isPrintable

/-- A present lot code: 1 to 10 digits and capital letters (section 2.2 of spec/00_scope.md). -/
def isLot (t : Text) : Bool := 1 ≤ t.length && t.length ≤ 10 && t.all fun b => isDigit b || isCapital b

/-- Character by character comparison, a shorter string before its extensions. -/
def ltText : Text → Text → Bool
  | [], [] => false
  | [], _ :: _ => true
  | _ :: _, [] => false
  | a :: as, b :: bs => a.toNat < b.toNat || (a == b && ltText as bs)

/-- A lot padded on the right with spaces to 10 characters (R22). -/
def padLot (t : Text) : Text := t ++ List.replicate (10 - t.length) 0x20

/-- Lots compared as if padded with spaces to 10 characters (R22). -/
def lotEq (a b : Text) : Bool := padLot a == padLot b

/-- The key "any article" of the hold list, and the reserved article key (section 2.2 of spec/00_scope.md). -/
def anyArticle : Text := List.replicate 14 0x30

/-- The reserved consignment number 00000000 (section 1.3). -/
def noConsignment : Text := List.replicate 8 0x30

/-- An article key that the article table and plan lines accept. -/
def isArticleKey (t : Text) : Bool := isDigits 14 t && t != anyArticle

/-- A consignment number that the consignment table accepts. -/
def isConsignmentNumber (t : Text) : Bool := isDigits 8 t && t != noConsignment

/-- A licence number. -/
def isLicence (t : Text) : Bool := isDigits 18 t

/-- The article key a scanned code gives, if it gives one (R57). -/
def normaliseArticle (code : Text) : Option Text :=
  if (code.length == 8 || code.length == 12 || code.length == 13 || code.length == 14)
      && code.all isDigit then
    let key := List.replicate (14 - code.length) 0x30 ++ code
    if key == anyArticle then none else some key
  else none

/-- The lot of a read (R58). -/
def readLot (t : Text) : Option Text := if isLot t then some t else none

/-! ### Dates (sections 2.3 of spec/00_scope.md; R59, R122) -/

/-- 2000 + yy is a leap year. -/
def isLeap (yy : Nat) : Bool := yy % 4 == 0

/-- The days before each month (R59). -/
def daysBefore (leap : Bool) (month : Nat) : Nat :=
  if leap then [0, 31, 60, 91, 121, 152, 182, 213, 244, 274, 305, 335].getD (month - 1) 0
  else [0, 31, 59, 90, 120, 151, 181, 212, 243, 273, 304, 334].getD (month - 1) 0

/-- The length of a month (R59). -/
def monthLength (leap : Bool) (month : Nat) : Nat :=
  [31, if leap then 29 else 28, 31, 30, 31, 30, 31, 31, 30, 31, 30, 31].getD (month - 1) 0

/-- The day number of 1 January 2000 + yy (section 2.3). -/
def yearStart (yy : Nat) : Nat := 365 * yy + (yy + 3) / 4

/-- The day number of a date (section 2.3). -/
def dayNumber (yy mm dd : Nat) : Nat := yearStart yy + daysBefore (isLeap yy) mm + dd - 1

/-- The value of two digit characters. -/
def twoDigits (a b : Byte) : Nat := 10 * digitValue a + digitValue b

/-- The best-before of a YYMMDD field (R59). -/
def readBest : Text → Option Nat
  | [y1, y2, m1, m2, d1, d2] =>
    if [y1, y2, m1, m2, d1, d2].all isDigit then
      let yy := twoDigits y1 y2
      let mm := twoDigits m1 m2
      let dd := twoDigits d1 d2
      if 1 ≤ mm && mm ≤ 12 && 1 ≤ dd && dd ≤ monthLength (isLeap yy) mm then
        some (dayNumber yy mm dd)
      else none
    else none
  | _ => none

/-! ### Numbers in decimal -/

/-- The decimal digits of n, least significant first, at least one, at most `fuel`. -/
def digitsRev : Nat → Nat → List Nat
  | 0, _ => []
  | fuel + 1, n => (n % 10) :: (if n / 10 = 0 then [] else digitsRev fuel (n / 10))

/-- The character of a digit. -/
def digitChar (d : Nat) : Byte := BitVec.ofNat 8 (0x30 + d)

/-- n in decimal with no leading zeros (section 7.2); twenty digits hold every figure of the part. -/
def decimal (n : Nat) : Text := (digitsRev 20 n).reverse.map digitChar

/-- n as exactly `width` digits, with leading zeros. -/
def digitString : Nat → Nat → Text
  | 0, _ => []
  | width + 1, n => digitString width (n / 10) ++ [digitChar (n % 10)]

/-- The largest year whose 1 January is day d or before, searched downwards from `top` (R122). -/
def yearOf : Nat → Nat → Nat
  | 0, _ => 0
  | top + 1, d => if yearStart (top + 1) ≤ d then top + 1 else yearOf top d

/-- The last month whose "days before" figure is not above r (R122). -/
def monthOf (leap : Bool) : Nat → Nat → Nat
  | 0, _ => 1
  | top + 1, r => if daysBefore leap (top + 1) ≤ r then top + 1 else monthOf leap top r

/-- A day number written DD.MM.YY (R122). -/
def dateText (d : Nat) : Text :=
  let yy := yearOf 99 d
  let r := d - yearStart yy
  let mm := monthOf (isLeap yy) 12 r
  let dd := r - daysBefore (isLeap yy) mm + 1
  digitString 2 dd ++ [0x2E] ++ digitString 2 mm ++ [0x2E] ++ digitString 2 yy

/-- A weight in kilograms with one decimal place, rounded half up (R122). -/
def kgText (g : Nat) : Text :=
  let t := (g + 50) / 100
  decimal (t / 10) ++ [0x2E, digitChar (t % 10)]

/-- A volume in litres with two decimal places (R122). -/
def litreText (c : Nat) : Text := decimal (c / 100) ++ [0x2E] ++ digitString 2 (c % 100)

/-! ### Numbers as bytes (section 9.1: unsigned, high byte first) -/

/-- The last k bytes of n, high byte first. -/
def beBytes : Nat → Nat → List Byte
  | 0, _ => []
  | k + 1, n => beBytes k (n / 256) ++ [BitVec.ofNat 8 n]

/-- The unsigned number of some bytes, high byte first. -/
def ofBytes (bs : List Byte) : Nat := bs.foldl (fun n b => 256 * n + b.toNat) 0

/-- A list joined with a separator. -/
def joinWith (sep : Text) : List Text → Text
  | [] => []
  | [t] => t
  | t :: ts => t ++ sep ++ joinWith sep ts

end Sys2Proof.Machine
end

