-- ==== Sys2Proof/Machine/Codes.lean ====
section
/-! DEFINITION. Sys2Proof/Machine/Codes.lean: the numbers, severities and short codes of the enumerated values
(R74, section 9.1), and the field encodings of section 9.1. -/

namespace Sys2Proof.Machine

open Sys2Proof

/-! ### Verdicts and reasons -/

/-- The rank of a verdict or severity (R74). -/
def Verdict.rank : Verdict → Nat
  | .pass => 0
  | .park => 1
  | .rework => 2
  | .hold => 3

/-- The higher of two verdicts. -/
def Verdict.max (a b : Verdict) : Verdict := if a.rank < b.rank then b else a

/-- The reasons in the order of their numbers (R74). -/
def Reason.all : List Reason :=
  [.noLicence, .duplicateLicence, .licenceReused, .trackSlip, .trackMismatch, .scanTruncated, .noWeight,
   .noHeight, .draining, .caseConflict, .tallyOverflow, .noPlan, .unresolvedRef, .holdsStale, .noDay,
   .foreignArticle, .unsighted, .overCount, .mixedLots, .noLot, .lotHeld, .noDate, .expired, .shortLife,
   .underWeight, .overWeight, .scaleSuspect, .height, .unreadable, .lotHeldLate, .noWrapper, .carFault,
   .wrapFault, .wrapTimeout, .labelFault, .labelReadback, .labelTimeout, .ringLost]

/-- The number of a reason (R74). -/
def Reason.number (r : Reason) : Nat := Reason.all.idxOf r + 1

/-- The severity of a reason (R74). -/
def Reason.severity : Reason → Verdict
  | .lotHeld | .expired | .lotHeldLate => .hold
  | .noPlan | .unresolvedRef | .holdsStale | .noDay => .park
  | _ => .rework

/-- The short code of a reason (R74). -/
def Reason.code (r : Reason) : Text :=
  (["NLIC", "DUP", "REUS", "SLIP", "MISM", "TRNC", "NWT", "NHT", "DRN", "CONF", "TOVF", "NPLN", "UREF",
    "STAL", "NDAY", "FOR", "USGT", "OVC", "MIXL", "NLOT", "HELD", "NDAT", "EXP", "SHRT", "UWT", "OWT",
    "SCAL", "HGT", "UNRD", "LATE", "NWRP", "CARF", "WRPF", "WRPT", "LBLF", "LBLR", "LBLT", "RNGL"].map
      ascii).getD (Reason.all.idxOf r) []

/-- The severity of a set of reasons, PASS for the empty set (R74). -/
def severityOf (rs : List Reason) : Verdict := rs.foldl (fun v r => v.max r.severity) .pass

/-- A reason set is kept in ascending reason number; a reason already in it is not added twice (R73). -/
def insertReason (r : Reason) : List Reason → List Reason
  | [] => [r]
  | x :: xs => if r.number < x.number then r :: x :: xs else if r = x then x :: xs else x :: insertReason r xs

/-- Several reasons added to a set. -/
def insertReasons (rs : List Reason) (set : List Reason) : List Reason :=
  rs.foldl (fun s r => insertReason r s) set

/-- A waiting item as the reason of severity PARK it becomes (R80). -/
def WaitItem.reason : WaitItem → Reason
  | .noPlan => .noPlan
  | .unresolvedRef => .unresolvedRef
  | .holdsStale => .holdsStale
  | .noDay => .noDay

/-! ### Codes of section 9.1 -/

/-- Verdicts carry their rank plus 1, no verdict 0. -/
def verdictCode : Option Verdict → Nat
  | some v => v.rank + 1
  | none => 0

/-- Reasons carry their reason numbers, no reason 0. -/
def reasonCode : Option Reason → Nat
  | some r => r.number
  | none => 0

def LineMode.code : LineMode → Nat
  | .start => 1
  | .run => 2
  | .degraded => 3
  | .drain => 4
  | .stopped => 5
  | .isolated => 6

def ModeCause.code : ModeCause → Nat
  | .go => 1
  | .drain => 2
  | .drainComplete => 3
  | .halt => 4
  | .restart => 5
  | .currency => 6
  | .ringSilent => 7
  | .ringReturn => 8
  | .clearRejectAll => 9

def Currency.code : Currency → Nat
  | .current => 1
  | .stale => 2

def Phase.code : Phase → Nat
  | .admitted => 1
  | .scanning => 2
  | .measuring => 3
  | .waiting => 4
  | .atHeadDecided => 5
  | .moving => 6
  | .wrapping => 7
  | .queuedLabel => 8
  | .labelling => 9
  | .exiting => 10
  | .ticketing => 11

def Closure.code : Closure → Nat
  | .released => 1
  | .rejected => 2
  | .cleared => 3
  | .halted => 4
  | .unconfirmed => 5
  | .divertedByLine => 6

def StrayCause.code : StrayCause → Nat
  | .noCandidate => 1
  | .alreadyStarted => 2
  | .alreadyDecided => 3
  | .late => 4
  | .notStarted => 5
  | .outOfRange => 6
  | .empty => 7

def PlanState.code : PlanState → Nat
  | .loaded => 1
  | .inUse => 2
  | .used => 3

def Duty.code : Duty → Nat
  | .bonded => 1
  | .dutyPaid => 2

/-- The duty status of a code, none for an unknown one. -/
def Duty.ofCode (b : Byte) : Option Duty := if b = 1 then some .bonded else if b = 2 then some .dutyPaid else none

def HoldReason.code : HoldReason → Nat
  | .quality => 1
  | .recall => 2
  | .customs => 3
  | .other => 4

/-- The hold reason of a code, none for an unknown one (R25). -/
def HoldReason.ofCode (b : Byte) : Option HoldReason :=
  if b = 1 then some .quality else if b = 2 then some .recall else if b = 3 then some .customs
  else if b = 4 then some .other else none

def InfeedCmd.code : InfeedCmd → Nat
  | .go => 1
  | .stop => 2

def ScaleState.code : ScaleState → Nat
  | .normal => 1
  | .suspect => 2

def CarState.code : CarState → Nat
  | .idle => 1
  | .moving => 2
  | .fault => 3

def WrapState.code : WrapState → Nat
  | .offline => 1
  | .warming => 2
  | .idle => 3
  | .loaded => 4
  | .wrapping => 5
  | .doneHeld => 6
  | .fault => 7

def Progress.code : Progress → Nat
  | .delivered => 1
  | .ordered => 2
  | .started => 3
  | .done => 4
  | .faulted => 5

def AfterRelease.code : AfterRelease → Nat
  | .idle => 1
  | .warming => 2
  | .offline => 3
  | .fault => 4

def OutputCmd.code : OutputCmd → Nat
  | .hold => 1
  | .release => 2

def LabelKind.code : LabelKind → Nat
  | .dispatchLabel => 1
  | .rejectTicket => 2

def CompStatus.code : CompStatus → Nat
  | .none => 1
  | .queued => 2
  | .inFlight => 3
  | .composed => 4

def BarcodeKind.code : BarcodeKind → Nat
  | .licence => 1
  | .serial => 2

/-- The barcode kind of a code, none for an unknown one (R117). -/
def BarcodeKind.ofCode (b : Byte) : Option BarcodeKind :=
  if b = 1 then some .licence else if b = 2 then some .serial else none

/-- The field codes, pallet-level first (R120, R121). -/
def FieldCode.all : List FieldCode :=
  [.licence, .consignment, .customer, .bay, .netKg, .grossKg, .cases, .litres, .bestBefore, .dispatchDate,
   .serial, .duty, .verdict, .reasons, .article, .articleText, .lineCount, .lineLots, .lineBb]

def FieldCode.code (f : FieldCode) : Nat := FieldCode.all.idxOf f + 1

/-- The field code of a byte, none for an unknown one (R117). -/
def FieldCode.ofCode (b : Byte) : Option FieldCode := if b = 0 then none else FieldCode.all[b.toNat - 1]?

/-- The line-level field codes (R121). -/
def FieldCode.isLine : FieldCode → Bool
  | .article | .articleText | .lineCount | .lineLots | .lineBb => true
  | _ => false

def Align.code : Align → Nat
  | .left => 1
  | .right => 2

def Align.ofCode (b : Byte) : Option Align := if b = 1 then some .left else if b = 2 then some .right else none

def Fill.code : Fill → Nat
  | .space => 1
  | .zero => 2

def Fill.ofCode (b : Byte) : Option Fill := if b = 1 then some .space else if b = 2 then some .zero else none

def Combine.code : Combine → Nat
  | .all => 1
  | .any => 2

def Combine.ofCode (b : Byte) : Option Combine := if b = 1 then some .all else if b = 2 then some .any else none

def Action.code : Action → Nat
  | .alert => 1
  | .alertCapture => 2
  | .consume => 3
  | .consumeAlert => 4

def Action.ofCode (b : Byte) : Option Action :=
  if b = 1 then some .alert else if b = 2 then some .alertCapture else if b = 3 then some .consume
  else if b = 4 then some .consumeAlert else none

def Latch.code : Latch → Nat
  | .clear => 1
  | .pending => 2
  | .overrun => 3

/-- The yes or no of a code byte: 1 yes, 2 no. -/
def boolOfCode (b : Byte) : Option Bool := if b = 1 then some true else if b = 2 then some false else none

/-- Status codes (section 9.1). -/
def Status.code : Status → Nat
  | .ok => 0x00
  | .okUnresolved => 0x01
  | .okClamped => 0x02
  | .full => 0x10
  | .inUse => 0x11
  | .notFound => 0x12
  | .badField => 0x13
  | .badTemplate => 0x14
  | .busy => 0x15
  | .notPermitted => 0x16
  | .badRequest => 0x17
  | .genMismatch => 0x18
  | .dayRange => 0x19

def TemplateFault.code : TemplateFault → Nat
  | .empty => 1
  | .noEnd => 2
  | .nested => 3
  | .unopenedClose => 4
  | .unclosedSection => 5
  | .lineFieldOutside => 6

def RingCause.code : RingCause → Nat
  | .forwardFull => 1
  | .replyOverrun => 2
  | .badPayload => 3

/-- The role code and instance of a role-instance, by its place in the table of section 1.5. -/
def RoleInst.code : RoleInst → Nat × Nat
  | .tagReader l => (1, l.val + 1)
  | .tunnel l => (2, l.val + 1)
  | .measure l => (3, l.val + 1)
  | .infeed l => (4, l.val + 1)
  | .wrapper w => (5, w.val + 1)
  | .labelApplicator k => (6, k.val + 1)
  | .exitSwitch k => (7, k.val + 1)
  | .transferCar => (8, 0)
  | .rejectSpur => (9, 0)
  | .rejectApplicator => (10, 0)
  | .dispatchSystem => (11, 0)
  | .linePanel => (12, 0)

/-- An index below n from an instance number counting from 1. -/
def instIndex (n : Nat) (i : Nat) : Option (Fin n) := if h : 1 ≤ i ∧ i - 1 < n then some ⟨i - 1, h.2⟩ else none

/-- The role-instance of a role code and an instance, none where either lies outside the table of section 1.5;
the role NONE is no role-instance. -/
def RoleInst.ofCode (role inst : Nat) : Option RoleInst :=
  match role with
  | 1 => (instIndex 8 inst).map .tagReader
  | 2 => (instIndex 8 inst).map .tunnel
  | 3 => (instIndex 8 inst).map .measure
  | 4 => (instIndex 8 inst).map .infeed
  | 5 => (instIndex 4 inst).map .wrapper
  | 6 => (instIndex 2 inst).map .labelApplicator
  | 7 => (instIndex 2 inst).map .exitSwitch
  | 8 => if inst = 0 then some .transferCar else none
  | 9 => if inst = 0 then some .rejectSpur else none
  | 10 => if inst = 0 then some .rejectApplicator else none
  | 11 => if inst = 0 then some .dispatchSystem else none
  | 12 => if inst = 0 then some .linePanel else none
  | _ => none

/-! ### Field encodings (section 9.1) -/

/-- One byte. -/
def u8 (n : Nat) : List Byte := [BitVec.ofNat 8 n]

/-- A number of k bytes, absent with every bit set. -/
def optBytes (k : Nat) : Option Nat → List Byte
  | some n => beBytes k n
  | none => List.replicate k 0xFF

/-- A text: its length and its characters. -/
def textField (t : Text) : List Byte := BitVec.ofNat 8 t.length :: t

/-- A licence: length 0 for absent, or 18 and its digits. -/
def licenceField : Option Text → List Byte
  | some t => 0x12 :: t
  | none => [0]

/-- A yes or no field: 1 yes, 2 no. -/
def yesNo (b : Bool) : List Byte := u8 (if b then 1 else 2)

/-- A mark: 0 clear, 1 set. -/
def mark (b : Bool) : List Byte := u8 (if b then 1 else 0)

/-- A reason set of 5 bytes, bit n - 1 for reason number n. -/
def reasonsField (rs : List Reason) : List Byte := beBytes 5 (rs.foldl (fun n r => n + 2 ^ (r.number - 1)) 0)

/-- A deviation: 4 bytes in two's complement, 80000000h for absent. -/
def deviationField : Option Int → List Byte
  | some d => beBytes 4 (BitVec.ofInt 32 d).toNat
  | none => beBytes 4 0x80000000

/-- A REJECT_ALL level: 1 asserted, 2 deasserted. -/
def levelField (b : Bool) : List Byte := yesNo b

end Sys2Proof.Machine
end

