-- ==== Sys2Proof/Machine/Ops.lean ====
section
/-! DEFINITION. Sys2Proof/Machine/Ops.lean: the named reads and writes of the state that every block uses: one
for each block, and those of contexts, lanes, wrappers, stations and plans. -/

namespace Sys2Proof.Machine

open Sys2Proof

/-! ### One update for each block -/

def State.onRefs (f : RefTables → RefTables) (s : State) : State := { s with refs := f s.refs }
def State.onHolds (f : HoldRegister → HoldRegister) (s : State) : State := { s with holds := f s.holds }
def State.onTracker (f : Tracker → Tracker) (s : State) : State := { s with tracker := f s.tracker }
def State.onRecon (f : Reconciler → Reconciler) (s : State) : State := { s with recon := f s.recon }
def State.onAlloc (f : Allocator → Allocator) (s : State) : State := { s with alloc := f s.alloc }
def State.onComposer (f : Composer → Composer) (s : State) : State := { s with composer := f s.composer }
def State.onLabels (f : Dispatcher → Dispatcher) (s : State) : State := { s with labels := f s.labels }
def State.onRing (f : RingPort → RingPort) (s : State) : State := { s with ring := f s.ring }
def State.onMgmt (f : Responder → Responder) (s : State) : State := { s with mgmt := f s.mgmt }
def State.onScreen (n : ScreenNo) (f : Screen → Screen) (s : State) : State :=
  { s with watch := s.watch.set n (f s.watch[n]) }
def State.onCtl (f : ModeControl → ModeControl) (s : State) : State := { s with ctl := f s.ctl }

/-! ### Contexts and lanes -/

/-- The open context in a slot. -/
def State.ctx (s : State) (i : Slot) : Option Context := s.tracker.slots[i]

/-- A slot filled or freed. -/
def State.putCtx (i : Slot) (c : Option Context) (s : State) : State :=
  s.onTracker fun t => { t with slots := t.slots.set i c }

/-- A change of the open context in a slot; a free slot stays free. -/
def State.modCtx (i : Slot) (f : Context → Context) (s : State) : State := s.putCtx i ((s.ctx i).map f)

/-- The slots, in ascending order. -/
def allSlots : List Slot := List.finRange 64

/-- The lanes, in ascending order. -/
def allLanes : List Lane := List.finRange 8

/-- The wrappers, in ascending order. -/
def allWrappers : List WrapperNo := List.finRange 4

/-- The slots of the open contexts, in ascending order. -/
def State.openSlots (s : State) : List Slot := allSlots.filter fun i => (s.ctx i).isSome

/-- The open contexts a test picks, by slot in ascending order. -/
def State.slotsWhere (s : State) (p : Context → Bool) : List Slot :=
  allSlots.filter fun i => (s.ctx i).any p

/-- The name of the open context in a slot (R73). -/
def State.idOf (s : State) (i : Slot) : Option CtxId := (s.ctx i).map fun c => ⟨i, c.adm⟩

/-- The context a slot and admission number name, none for a free slot or another admission number (R73). -/
def State.named (s : State) (id : CtxId) : Option Context :=
  (s.ctx id.slot).filter fun c => c.adm == id.adm

/-- A lane's queue, oldest first (R40). -/
def State.queue (s : State) (l : Lane) : List Slot := s.tracker.lanes[l].queue

/-- A change of a lane's record. -/
def State.modLane (l : Lane) (f : LaneRecord → LaneRecord) (s : State) : State :=
  s.onTracker fun t => { t with lanes := t.lanes.set l (f t.lanes[l]) }

/-- The count of a lane (R40). -/
def State.laneCount (s : State) (l : Lane) : Nat := (s.queue l).length

/-- The head of a lane (R40). -/
def State.laneHead (s : State) (l : Lane) : Option Slot := (s.queue l).head?

/-- The slots and contexts of a lane queue, in lane order. -/
def State.laneContexts (s : State) (l : Lane) : List (Slot × Context) :=
  (s.queue l).filterMap fun i => (s.ctx i).map fun c => (i, c)

/-- A context enters a state and its phase timer is set (R46, R48). -/
def State.enter (i : Slot) (p : Phase) (timer : Option Nat) (s : State) : State :=
  s.modCtx i fun c => { c with phase := p, timer := timer }

/-- A context's phase timer is stopped (R48). -/
def State.stopTimer (i : Slot) (s : State) : State := s.modCtx i fun c => { c with timer := none }

/-- The context has not had a weight attached nor its absence recorded (R50). -/
def Context.lacksWeight (c : Context) : Bool := c.weight.isNone && !c.reasons.contains .noWeight

/-- The context has not had a height attached nor its absence recorded (R50). -/
def Context.lacksHeight (c : Context) : Bool := c.height.isNone && !c.reasons.contains .noHeight

/-! ### Wrappers, scales, parameters -/

/-- A wrapper's record. -/
def State.wrapper (s : State) (w : WrapperNo) : Wrapper := s.alloc.wrappers[w]

/-- A change of a wrapper's record. -/
def State.modWrapper (w : WrapperNo) (f : Wrapper → Wrapper) (s : State) : State :=
  s.onAlloc fun a => { a with wrappers := a.wrappers.set w (f a.wrappers[w]) }

/-- A change of the car record. -/
def State.modCar (f : Car → Car) (s : State) : State := s.onAlloc fun a => { a with car := f a.car }

/-- An event of R103 has been taken: the arbiter is due. -/
def State.callArbiter (s : State) : State := s.onAlloc fun a => { a with arbiterDue := true }

/-- A lane's scale. -/
def State.scale (s : State) (l : Lane) : Scale := s.recon.scales[l]

/-- A lane's scale replaced. -/
def State.putScale (l : Lane) (x : Scale) (s : State) : State :=
  s.onRecon fun r => { r with scales := r.scales.set l x }

/-- The line parameters (R182). -/
def State.params (s : State) : Params := s.ctl.params

/-- The mode that governs a lane's wanted infeed command: in ISOLATED, the held mode (R44). -/
def State.actingMode (s : State) : LineMode :=
  match s.ctl.mode with
  | .isolated => s.ctl.held.getD .isolated
  | m => m

/-- Contexts in TICKETING (R104). -/
def State.ticketing (s : State) : Nat := (s.slotsWhere fun c => c.phase == .ticketing).length

/-- The spur account: the reported occupancy plus the TICKETING count (R104). -/
def State.spurAccount (s : State) : Nat := s.alloc.spur + s.ticketing

/-! ### Stations (section 1.5) -/

/-- The addresses, in ascending order. -/
def allAddresses : List (Fin 32) := List.finRange 32

/-- The role-instances of an address byte; a byte above 31 is no address of the table. -/
def State.rolesAt (s : State) (a : Byte) : List RoleInst :=
  if h : a.toNat < 32 then s.refs.stations[a.toNat] else []

/-- The address that holds a role-instance (R19). -/
def State.holderOf (s : State) (r : RoleInst) : Option (Fin 32) :=
  allAddresses.find? fun a => s.refs.stations[a].contains r

/-- The byte of an address. -/
def addressByte (a : Fin 32) : Byte := BitVec.ofNat 8 a.val

/-- The part's own address byte. -/
def State.ownAddress (s : State) : Byte := addressByte s.ctl.address

/-- The part is strapped to address 0 or 31 (R181). -/
def State.passive (s : State) : Bool := s.ctl.address.val == 0 || s.ctl.address.val == 31

/-- Some address holds the dispatch system role (R18). -/
def State.dispatchHeld (s : State) : Bool := (s.holderOf .dispatchSystem).isSome

/-! ### Tables (chapter 1) -/

/-- The article of a key. -/
def State.article (s : State) (key : Text) : Option Article := s.refs.articles.find? fun a => a.key == key

/-- The consignment of a number. -/
def State.consignment (s : State) (number : Text) : Option Consignment :=
  s.refs.consignments.find? fun c => c.number == number

/-- The plan in a slot of the plan table. -/
def State.planAt (s : State) (n : Nat) : Option Plan := s.refs.plans.find? fun p => p.slot == n

/-- The plan with a licence. -/
def State.planOf (s : State) (licence : Text) : Option Plan := s.refs.plans.find? fun p => p.licence == licence

/-- A change of the plan in a slot. -/
def State.modPlan (n : Nat) (f : Plan → Plan) (s : State) : State :=
  s.onRefs fun r => { r with plans := r.plans.map fun p => if p.slot == n then f p else p }

/-- The plan bound to a context. -/
def State.boundPlan (s : State) (c : Context) : Option Plan := c.planSlot.bind s.planAt

/-- The consignment of a context's plan. -/
def State.boundConsignment (s : State) (c : Context) : Option Consignment :=
  (s.boundPlan c).bind fun p => s.consignment p.consignment

/-! ### Timers -/

/-- One millisecond off a running timer. -/
def tick (t : Option Nat) : Option Nat := t.map (· - 1)

end Sys2Proof.Machine
end

