-- ==== Sys2Proof/Machine/Frame.lean ====
section
/-! DEFINITION. Sys2Proof/Machine/Frame.lean: the telegram frame, its check and its validity (section 9.1,
R150), and the readers of payload fields (section 9.1, Field encodings). -/

namespace Sys2Proof.Machine

open Sys2Proof

/-- One bit of the CRC register: shift left, and subtract the polynomial 1021h when a one falls out. -/
def crcBit (r : BitVec 16) : BitVec 16 :=
  if r.msb then (r <<< 1) ^^^ 0x1021#16 else r <<< 1

/-- One byte of the CRC, most significant bit first. -/
def crcByte (r : BitVec 16) (b : Byte) : BitVec 16 :=
  crcBit (crcBit (crcBit (crcBit (crcBit (crcBit (crcBit (crcBit
    (r ^^^ (b.setWidth 16 <<< 8)))))))))

/-- The CRC-16 of section 9.1, from FFFFh, with no reflection and no final inversion. -/
def crc16 (bs : List Byte) : BitVec 16 := bs.foldl crcByte 0xFFFF#16

/-- Bytes 0 to 3 + L of the frame: the header and the payload. -/
def frameBody (t : Telegram) : List Byte :=
  [t.dst, t.src, t.kind, BitVec.ofNat 8 t.payload.length] ++ t.payload

/-- The frame of a telegram, its check last, high byte first (section 9.1). -/
def frameBytes (t : Telegram) : List Byte := frameBody t ++ beBytes 2 (crc16 (frameBody t)).toNat

/-- The telegram of a valid frame, none for bytes that fail a check of R150. -/
def telegramOf (bytes : List Byte) : Option Telegram :=
  match bytes with
  | d :: s :: k :: l :: rest =>
    if l.toNat ≤ Config.payloadMax && bytes.length == 6 + l.toNat
        && rest.drop l.toNat == beBytes 2 (crc16 (bytes.take (4 + l.toNat))).toNat then
      some ⟨d, s, k, rest.take l.toNat⟩
    else none
  | _ => none

/-! ### Kind codes (section 9.1) -/

def kTagRead : Byte := 0x01
def kTunnelStart : Byte := 0x02
def kCaseRead : Byte := 0x03
def kTunnelEnd : Byte := 0x04
def kMeasure : Byte := 0x05
def kScaleChecked : Byte := 0x06
def kCarEvent : Byte := 0x07
def kWrapperEvent : Byte := 0x08
def kLabelEvent : Byte := 0x09
def kRouted : Byte := 0x0A
def kSpurState : Byte := 0x0B
def kInfeed : Byte := 0x20
def kCarMove : Byte := 0x21
def kWrapOrder : Byte := 0x22
def kWrapperOutput : Byte := 0x23
def kLabelJob : Byte := 0x24
def kLabelCancel : Byte := 0x25
def kRoute : Byte := 0x26
def kMgmtRequest : Byte := 0x30
def kMgmtReply : Byte := 0x31
def kReport : Byte := 0x32

/-! ### Reading fields -/

/-- A reader takes a field off the front of a payload: the value and the bytes after it, or none where the
bytes disagree with the layout. -/
abbrev Reader (α : Type) := StateT (List Byte) Option α

/-- Exactly n bytes. -/
def takeBytes (n : Nat) : Reader (List Byte) := fun bs =>
  if n ≤ bs.length then some (bs.take n, bs.drop n) else none

/-- One byte. -/
def takeByte : Reader Byte := fun bs =>
  match bs with
  | [] => none
  | b :: rest => some (b, rest)

/-- A number of k bytes. -/
def takeNat (k : Nat) : Reader Nat := do
  let v ← takeBytes k
  return ofBytes v

/-- A number of k bytes, absent with every bit set (section 9.1). -/
def takeOpt (k : Nat) : Reader (Option Nat) := do
  let v ← takeBytes k
  return if v == List.replicate k 0xFF then none else some (ofBytes v)

/-- A text: one length byte, then that many characters, at most `most` of them. -/
def takeText (most : Nat) : Reader Text := do
  let n ← takeByte
  if n.toNat ≤ most then takeBytes n.toNat else failure

/-- A licence: a length byte 0 (absent) or 18, and the digit bytes of length 18. DEDUCED, unsafe
(notes/assumptions/18.md). -/
def takeLicence : Reader (Option Text) := do
  let n ← takeByte
  if n.toNat = 0 then return none
  else if n.toNat = 18 then
    let t ← takeBytes 18
    return some t
  else failure

/-- The same field read n times. -/
def takeMany {α : Type} (r : Reader α) : Nat → Reader (List α)
  | 0 => return []
  | n + 1 => do
    let a ← r
    let as ← takeMany r n
    return a :: as

/-- A payload that is one reader's fields and nothing else. -/
def whole {α : Type} (r : Reader α) (bs : List Byte) : Option α :=
  match r.run bs with
  | some (a, []) => some a
  | _ => none

/-- A licence field that is not an 18-digit string is taken as absent (section 3.2, R153). -/
def presentLicence : Option Text → Option Text
  | some t => if isLicence t then some t else none
  | none => none

end Sys2Proof.Machine
end

