-- ==== Sys2Proof/Machine/Tally.lean ====
section
/-! DEFINITION. Sys2Proof/Machine/Tally.lean: the Tally Unit: how a read changes a tally (R55 to R69). -/

namespace Sys2Proof.Machine

open Sys2Proof

/-- An empty tally (R55). -/
def Tally.empty : Tally := ⟨[], [], 0, 0, 0⟩

/-- A read as its three fields give it (R57 to R59), with its case index. -/
structure CaseRead where
  index   : Nat
  article : Option Text
  lot     : Option Text
  best    : Option Nat

/-- The read of a CASE_READ's fields (R57 to R59). -/
def CaseRead.ofFields (index : Nat) (article lot best : Text) : CaseRead :=
  ⟨index, normaliseArticle article, readLot lot, readBest best⟩

/-- Lots both absent, or both present and equal (R55). -/
def sameLot : Option Text → Option Text → Bool
  | some a, some b => lotEq a b
  | none, none => true
  | _, _ => false

/-- Contents are equal (R55). -/
def sameContent (a b : Content) : Bool := a.article == b.article && sameLot a.lot b.lot && a.best == b.best

/-- The content of the line that matches, as the line holds it (R61). -/
def Tally.matching (t : Tally) (c : Content) : Option Content :=
  (t.lines.find? fun l => sameContent l.content c).map (·.content)

/-- The case map entry of an index; none is NOT_SEEN. -/
def Tally.entry (t : Tally) (i : Nat) : Option CaseEntry := (t.cases.find? fun p => p.1 == i).map (·.2)

/-- A case map entry set, the map kept in ascending index order. -/
def setCase (i : Nat) (e : CaseEntry) : List (Nat × CaseEntry) → List (Nat × CaseEntry)
  | [] => [(i, e)]
  | p :: rest =>
    if i < p.1 then (i, e) :: p :: rest
    else if i = p.1 then (i, e) :: rest
    else p :: setCase i e rest

/-- A line's count raised by 1. -/
def raiseLine (c : Content) (ls : List TallyLine) : List TallyLine :=
  ls.map fun l => if l.content = c then { l with count := l.count + 1 } else l

/-- A line's count lowered by 1, and the line removed where it would become 0 (R55). -/
def lowerLine (c : Content) (ls : List TallyLine) : List TallyLine :=
  ls.filterMap fun l =>
    if l.content = c then if l.count ≤ 1 then none else some { l with count := l.count - 1 } else some l

/-- A case counted as R61 says; none where no line matches and the tally holds 8. -/
def Tally.countIn (i : Nat) (c : Content) (t : Tally) : Option Tally :=
  match t.matching c with
  | some m => some { t with cases := setCase i (.counted m) t.cases, lines := raiseLine m t.lines }
  | none =>
    if t.lines.length < Config.tallyLineMax then
      some { t with cases := setCase i (.counted c) t.cases, lines := t.lines ++ [⟨c, 1⟩] }
    else none

/-- A duplicate read (R65, R68). -/
def Tally.duplicate (t : Tally) : Tally := { t with duplicates := min 255 (t.duplicates + 1) }

/-- An unindexed read (R64). -/
def Tally.unindexedRead (t : Tally) : Tally := { t with unindexed := min 255 (t.unindexed + 1) }

/-- An index becomes UNKNOWN (R62, R63). -/
def Tally.makeUnknown (i : Nat) (t : Tally) : Tally :=
  { t with cases := setCase i .unknown t.cases, unknowns := t.unknowns + 1 }

/-- The read contradicts the content in some field (R65). -/
def contradicts (c r : Content) : Bool :=
  c.article != r.article
    || (c.lot.isSome && r.lot.isSome && !sameLot c.lot r.lot)
    || (c.best.isSome && r.best.isSome && c.best != r.best)

/-- The content with what the read supplies filled in (R66). -/
def filled (c r : Content) : Content :=
  ⟨c.article, if c.lot.isSome then c.lot else r.lot, if c.best.isSome then c.best else r.best⟩

/-- A fill moves the case of index i out of the line of content c into that of content n (R66). -/
def Tally.fill (i : Nat) (c n : Content) (t : Tally) : Tally × Option Reason :=
  match ({ t with lines := lowerLine c t.lines } : Tally).countIn i n with
  | some t' => (t', none)
  | none => (t, some .tallyOverflow)

/-- A readable read of a case already counted in the line of content c (R65 to R67). -/
def Tally.repeated (i : Nat) (c r : Content) (t : Tally) : Tally × Option Reason :=
  if contradicts c r then (t, some .caseConflict)
  else
    let n := filled c r
    if n = c then (t.duplicate, none) else t.fill i c n

/-- A CASE_READ applied to a tally, and the reason it hands to the Reconciler (R56, R60 to R68). -/
def Tally.read (r : CaseRead) (t : Tally) : Tally × Option Reason :=
  if r.index = 0 then (t.unindexedRead, none)
  else
    match r.article, t.entry r.index with
    | none, none => (t.makeUnknown r.index, none)
    | none, some _ => (t.duplicate, none)
    | some a, none =>
      match t.countIn r.index ⟨a, r.lot, r.best⟩ with
      | some t' => (t', none)
      | none => (t.makeUnknown r.index, some .tallyOverflow)
    | some a, some .unknown =>
      match t.countIn r.index ⟨a, r.lot, r.best⟩ with
      | some t' => ({ t' with unknowns := t'.unknowns - 1 }, none)
      | none => (t, some .tallyOverflow)
    | some a, some (.counted c) => t.repeated r.index c ⟨a, r.lot, r.best⟩

/-- The unknown count (R55): the capped sum, which does not fall with an unknown index resolved while the sum stays at
255 or above. DESIGN CHOICE, unsafe (notes/assumptions/40.md). -/
def Tally.unknownCount (t : Tally) : Nat := min 255 (t.unknowns + t.unindexed)

/-- The (article, lot) pairs of a tally, in line order, each once (R70). -/
def Tally.pairs (t : Tally) : List (Text × Option Text) :=
  t.lines.foldl
    (fun acc l =>
      if acc.any fun p => p.1 == l.content.article && sameLot p.2 l.content.lot then acc
      else acc ++ [(l.content.article, l.content.lot)])
    []

end Sys2Proof.Machine
end

