-- ==== Sys2Proof/Machine/ReportCodec.lean ====
section
/-! DEFINITION. Sys2Proof/Machine/ReportCodec.lean: the bytes of what the part sends: orders, reports and the
result fields of replies (section 9.1; the order of the fields is the owning chapter's). Choices of layout the
manual leaves open are in notes/assumptions/2.md. -/

namespace Sys2Proof.Machine

open Sys2Proof

/-! ### Orders (section 9.1, Central payloads) -/

/-- The destination byte of a ROUTE: a bay, or 0 for LATE_REJECT. -/
def routeByte : RouteDest → List Byte
  | .bay n => u8 n
  | .lateReject => u8 0

/-- The content of a LABEL_JOB segment. -/
def segmentField : Segment → List Byte
  | .rows rs => [1] ++ u8 rs.length ++ rs.flatMap textField
  | .barcodes bs => [2] ++ u8 bs.length ++ bs.flatMap fun b => u8 b.1.code ++ textField b.2

/-- The role-instance an order of a context is addressed to. -/
def Order.dst : Order → RoleInst
  | .cancel d _ => d
  | .segment d .. => d
  | .route d .. => d

/-- The kind of an order of a context. -/
def Order.kind : Order → Byte
  | .cancel .. => kLabelCancel
  | .segment .. => kLabelJob
  | .route .. => kRoute

/-- The payload of an order of a context. -/
def Order.payload : Order → List Byte
  | .cancel _ n => beBytes 3 n
  | .segment _ n k i c seg => beBytes 3 n ++ u8 k.code ++ u8 i ++ u8 c ++ segmentField seg
  | .route _ l d => licenceField l ++ routeByte d

/-- The payload of a CAR_MOVE: a lane, or 0 for the car; a wrapper, or 0 for the reject spur; the licence. -/
def CarMove.payload (m : CarMove) : List Byte :=
  (match m.source with
    | some l => u8 (l.val + 1)
    | none => u8 0)
  ++ (match m.dest with
    | .wrapper w => u8 (w.val + 1)
    | .spur => u8 0)
  ++ licenceField m.licence

/-- The payload of a WRAP_ORDER. -/
def WrapOrder.payload (o : WrapOrder) : List Byte := u8 o.recipe ++ licenceField o.licence

/-! ### Reports -/

/-- The report kinds (section 9.1). -/
def Report.kind : Report → Nat
  | .verdict _ => 1
  | .closed _ => 2
  | .lane _ => 4
  | .mode _ => 5
  | .watchAlert _ => 6
  | .unit _ => 7
  | .ring _ => 8
  | .stray _ => 9

/-- The weight figures, absent when check 8 did not compare. -/
def weightField : Option WeightFigures → List (List Byte)
  | some w => [beBytes 4 w.expected, beBytes 4 w.tolerance, beBytes 4 w.measured, deviationField (some w.deviation)]
  | none => [optBytes 4 none, optBytes 4 none, optBytes 4 none, deviationField none]

/-- The height figures, absent when check 9 did not compare. -/
def heightField : Option HeightFigures → List (List Byte)
  | some h => [beBytes 2 h.expected, beBytes 2 h.measured]
  | none => [optBytes 2 none, optBytes 2 none]

/-- The sighted counts, one per plan line, after their number; the byte FFh in place of the number when the checks did
not run. DESIGN CHOICE, unsafe (notes/assumptions/2.md). -/
def sightedField : Option (List Nat) → List (List Byte)
  | some ns => u8 ns.length :: ns.map u8
  | none => [optBytes 1 none]

/-- A decision record as a VERDICT report and CONTEXT_GET carry it (R91). A context not yet decided has none: CONTEXT_GET
then carries every field of it as absent, the number of sighted counts, the unknown count and the duplicate reads as FFh
(for the last two the byte of 255 too) and the scale state as 0. DESIGN CHOICE, unsafe (notes/assumptions/2.md). -/
def recordFields (r : Option DecisionRecord) : List (List Byte) :=
  weightField (r.bind (·.weight)) ++ [optBytes 2 (r.bind (·.estimate))]
    ++ heightField (r.bind (·.height)) ++ sightedField (r.bind (·.sighted))
    ++ [optBytes 1 (r.map (·.unknown)), optBytes 1 (r.map (·.duplicates)),
        u8 ((r.map (·.scale.code)).getD 0), optBytes 1 (r.map (·.streak)), optBytes 6 (r.map (·.time))]

/-- The cause of a VERDICT report with the verdict, the previous verdict and the added reason. A DECIDED or PARKED report
carries the last two, which R91 lists for LATER reports only, as absent: a byte 0 each. DESIGN CHOICE, unsafe
(notes/assumptions/2.md). -/
def verdictCauseFields (c : VerdictCause) (v : Verdict) : List (List Byte) :=
  match c with
  | .decided => [u8 1, u8 (verdictCode (some v)), u8 0, u8 0]
  | .parked => [u8 2, u8 (verdictCode (some v)), u8 0, u8 0]
  | .later p a => [u8 3, u8 (verdictCode (some v)), u8 (verdictCode (some p)), u8 (reasonCode (some a))]

/-- What a WATCH_ALERT report shows of the matched telegram: its kind, source, destination, payload length and the
field each test read, all absent for OVERRUN_ACK (R168), an absent kind being 0 as an enumerated value is (section
9.1). A field read is carried in five bytes whatever the width of its test. DESIGN CHOICE, unsafe
(notes/assumptions/2.md). -/
def watchMatchFields (tests : Nat) : Option WatchMatch → List (List Byte)
  | some m => [[m.kind], [m.src], [m.dst], u8 m.length, u8 m.fields.length] ++ m.fields.map (optBytes 5)
  | none => [[0], [0xFF], [0xFF], [0xFF], u8 tests] ++ List.replicate tests (optBytes 5 none)

/-- The pallet held, in a WRAPPER report: a slot and a licence, FFh for none, FEh for an orphan. -/
def loadViewFields : LoadView → List (List Byte)
  | .none => [[0xFF], licenceField none]
  | .context s l => [u8 s.val, licenceField l]
  | .orphan => [[0xFE], licenceField none]

/-- The fields of a report, in the order the owning chapter lists them. DEDUCED and PRESUMED, unsafe
(notes/assumptions/2.md). DESIGN CHOICE, unsafe, for a MODE report whose mode after is not ISOLATED: the held mode is
carried as absent, a byte 0 (R173; the same log). -/
def Report.fields : Report → List (List Byte)
  | .verdict r =>
    [u8 r.slot.val, beBytes 4 r.adm, licenceField r.licence, u8 (r.lane.val + 1), optBytes 2 r.planSlot]
      ++ verdictCauseFields r.cause r.verdict ++ [reasonsField r.reasons] ++ recordFields r.record
  | .closed r =>
    [u8 r.slot.val, beBytes 4 r.adm, licenceField r.licence, u8 (r.lane.val + 1), optBytes 2 r.planSlot,
     u8 (verdictCode r.verdict), reasonsField r.reasons, u8 r.outcome.code, mark r.labelVoid,
     mark r.unconfirmed, mark r.diverted]
  | .lane (.unexpectedPallet l t) => [u8 1, u8 (l.val + 1), licenceField t]
  | .lane (.laneOverflow l t) => [u8 2, u8 (l.val + 1), licenceField t]
  | .lane (.scaleSuspect l n) => [u8 3, u8 (l.val + 1), u8 n]
  | .lane (.scaleNormal l a) => [u8 4, u8 (l.val + 1), [a]]
  | .mode r =>
    [u8 r.before.code, u8 r.after.code, u8 ((r.held.map LineMode.code).getD 0), u8 r.cause.code,
     u8 r.currency.code, beBytes 2 r.generation, optBytes 2 r.day, levelField r.rejectAll]
  | .watchAlert r =>
    [u8 r.screen.val, u8 (if r.hit.isSome then 1 else 2), u8 r.action.code] ++ watchMatchFields r.tests r.hit
      ++ [yesNo r.captured, beBytes 2 r.count]
  | .unit r =>
    (match r.change with
      | .car b a => [u8 0, u8 b.code, u8 a.code]
      | .wrapper w b a => [u8 (w.val + 1), u8 b.code, u8 a.code])
      ++ [[Config.unitCauseCode r.cause]] ++ loadViewFields r.load
  | .ring (.forwardFull k s) => [u8 RingCause.forwardFull.code, [k], [s]]
  | .ring (.replyOverrun c t s) => [u8 RingCause.replyOverrun.code, [s], [c], [t]]
  | .ring (.badPayload k s n) => [u8 RingCause.badPayload.code, [k], [s], u8 n]
  | .stray r =>
    [[r.kind], [r.src], optBytes 1 (r.lane.map fun l => l.val + 1), licenceField r.licence, u8 r.cause.code]

/-- The fields of an ESCAPE report with its queue-full mark (R22, R37). The placed day stands after the code, as R22 lists
it; R37's table gives it no place. DESIGN CHOICE for that place, unsafe (notes/assumptions/39.md). -/
def EscapeReport.fields (r : EscapeReport) (full : Bool) : List (List Byte) :=
  [licenceField (some r.licence), r.consignment, u8 r.bay, beBytes 4 r.sequence, r.article,
   textField (r.lot.getD []), u8 r.reason.code, u8 r.code, beBytes 2 r.placed, mark r.unconfirmed,
   beBytes 2 r.generation, mark full]

/-- The payload of a REPORT: kind, sequence, lost-report mark, fields (section 9.1). -/
def reportPayload (kind seq : Nat) (lost : Bool) (fields : List (List Byte)) : List Byte :=
  u8 kind ++ beBytes 2 seq ++ mark lost ++ fields.flatten

/-! ### Result fields -/

/-- A role-instance: its role code and its instance; NONE is 0 and 0. -/
def roleField (r : RoleInst) : List Byte := u8 r.code.1 ++ u8 r.code.2

/-- The role-instances of a station entry after their number; an empty entry reads NONE with instance 0
(R19). -/
def rolesFields : List RoleInst → List (List Byte)
  | [] => [u8 1, [0, 0]]
  | rs => u8 rs.length :: rs.map roleField

def Article.fields (a : Article) : List (List Byte) :=
  [a.key, textField a.description, beBytes 4 a.caseWeight, beBytes 4 a.caseTol, u8 a.casesPerLayer,
   beBytes 2 a.layerHeight, beBytes 2 a.caseVolume, yesNo a.dutiable]

def Totals.fields (t : Totals) : List (List Byte) :=
  [beBytes 2 t.pallets, beBytes 6 t.cases, beBytes 6 t.netGrams, beBytes 6 t.dutiableCl]

def Consignment.fields (c : Consignment) : List (List Byte) :=
  [c.number, textField c.customer, beBytes 2 c.minShelfLife, u8 c.maxLots, u8 c.sightings, u8 c.duty.code,
   u8 c.labelTemplate.val, u8 c.bay, u8 c.defaultRecipe] ++ c.totals.fields

/-- A bound context's slot, absent when there is none. -/
def boundField (b : Option Slot) : List Byte := optBytes 1 (b.map (·.val))

def Plan.fields (p : Plan) : List (List Byte) :=
  [licenceField (some p.licence), p.consignment, beBytes 4 p.tare, beBytes 2 p.baseHeight, optBytes 1 p.recipe,
   u8 p.lines.length] ++ (p.lines.flatMap fun l => [l.article, u8 l.count])
    ++ [beBytes 2 p.slot, u8 p.state.code, boundField p.bound]

def Hold.fields (h : Hold) : List (List Byte) :=
  [h.article, textField h.lot, u8 h.reason.code, u8 h.code, beBytes 2 h.placed]

/-- The position, from 1, of a case entry's line (R55, R71). -/
def linePosition (t : Tally) (c : Content) : Nat := (t.lines.map (·.content)).idxOf c + 1

/-- The tally part of CONTEXT_GET (R71). -/
def Tally.fields (t : Tally) : List (List Byte) :=
  [u8 t.lines.length]
    ++ ((List.range t.lines.length).zip t.lines).flatMap (fun p =>
      [u8 (p.1 + 1), p.2.content.article, textField (p.2.content.lot.getD []), optBytes 2 p.2.content.best,
       u8 p.2.count])
    ++ [u8 t.unknownCount, u8 t.unknowns, u8 t.unindexed, u8 t.duplicates,
        u8 t.cases.length]

/-- The job record of R135; a context with no job outstanding, in a label line, TICKETING or elsewhere, has it with
job state NONE. DESIGN CHOICE, unsafe (notes/assumptions/2.md). -/
def jobFields (j : Option Job) (voided : Option Nat) : List (List Byte) :=
  (match j with
    | none => [u8 1, u8 0, optBytes 3 none]
    | some j =>
      [u8 (match j.stage with | .placing => 2 | .sent => 3 | .taken => 4), u8 j.kind.code, beBytes 3 j.serial])
    ++ [optBytes 3 voided]

/-- The waiting set: its number of items and their places in R77. -/
def waitingFields (ws : List WaitItem) : List (List Byte) :=
  u8 ws.length :: ws.map fun w => u8 (match w with | .noPlan => 1 | .unresolvedRef => 2 | .holdsStale => 3 | .noDay => 4)

/-- The fields of CONTEXT_GET (R53, R71, R78, R91): a reply by licence carries the number of the others first, and
the decision record stands after the waiting set. DESIGN CHOICE, unsafe (notes/assumptions/2.md). -/
def ContextView.fields (v : ContextView) : List (List Byte) :=
  let c := v.context
  ((v.duplicates.map fun n => [u8 n]).getD []) ++ [u8 v.slot.val, licenceField c.licence, u8 (c.lane.val + 1), beBytes 4 c.adm, optBytes 2 c.planSlot,
   u8 c.phase.code, yesNo c.tunnelStarted, yesNo c.tunnelEnded, optBytes 4 c.weight, optBytes 2 c.height,
   u8 (verdictCode c.verdict), reasonsField c.reasons]
    ++ waitingFields c.waiting ++ recordFields c.record
    ++ [optBytes 1 (c.wrapper.map fun w => w.val + 1), optBytes 3 c.labelSerial, mark c.labelVoid,
        mark c.unconfirmed, mark c.diverted, optBytes 1 v.place, optBytes 4 c.timer]
    ++ jobFields c.job c.voided
    ++ [(c.route.map routeByte).getD [0xFF]]
    ++ c.tally.fields

/-- A template item in a reply, as TEMPLATE_ITEMS carries it. -/
def Item.bytes : Item → List Byte
  | .text t => 1 :: textField t
  | .field c w a f => [2] ++ u8 c.code ++ u8 w ++ u8 a.code ++ u8 f.code
  | .newline => [3]
  | .linesBegin => [4]
  | .linesEnd => [5]
  | .ifBonded => [6]
  | .endIf => [7]
  | .barcode k => [8] ++ u8 k.code
  | .endItem => [9]

/-- A label record (R129, R132), after a byte that says whether there is one. -/
def labelRecordFields : Option LabelRecord → List (List Byte)
  | none => [u8 0]
  | some r =>
    [u8 1, u8 r.ctx.slot.val, beBytes 4 r.ctx.adm, u8 r.kind.code, u8 r.template.val, beBytes 3 r.serial,
     u8 (verdictCode r.verdict), u8 r.rows.length] ++ r.rows.map textField
      ++ [u8 r.barcodes.length] ++ (r.barcodes.flatMap fun b => [u8 b.1.code, textField b.2])
      ++ [mark r.truncated, mark r.noTemplate]

/-- The fields of LABEL_GET (R132): the kind, the place, the template number and the waiting mark stand there in every
status, absent or 0 where the status has none. DESIGN CHOICE, unsafe (notes/assumptions/2.md). -/
def LabelView.fields (v : LabelView) : List (List Byte) :=
  [u8 v.status.code, u8 ((v.kind.map LabelKind.code).getD 0), optBytes 1 v.place,
   optBytes 1 (v.template.map (·.val)), mark v.waiting]
    ++ labelRecordFields v.record ++ [beBytes 3 v.nextSerial, u8 v.queued]

def LogEntry.fields (e : LogEntry) : List (List Byte) :=
  [beBytes 4 e.sequence, licenceField (some e.licence), e.consignment, u8 e.bay, optBytes 2 e.day,
   mark e.unconfirmed, u8 e.pairs.length] ++ e.pairs.flatMap fun p => [p.1, textField (p.2.getD [])]

/-- A field test in a reply, its values in four bytes whatever its width. DESIGN CHOICE, unsafe
(notes/assumptions/2.md). -/
def ScreenTest.fields (t : ScreenTest) : List (List Byte) :=
  [u8 t.offset, u8 t.width]
    ++ (match t.test with
      | .equal v => [u8 1, beBytes 4 v]
      | .notEqual v => [u8 2, beBytes 4 v]
      | .inRange lo hi => [u8 3, beBytes 4 lo, beBytes 4 hi]
      | .changed => [u8 4])

/-- The settings of a screen in a reply (R171). The last values of its tests have no count of their own: they are as
many as the tests, whose number stands before those. DESIGN CHOICE, unsafe (notes/assumptions/2.md). -/
def Screen.fields (s : Screen) : List (List Byte) :=
  [yesNo s.enabled, optBytes 1 s.source, optBytes 2 s.kind, u8 s.tests.length]
    ++ s.tests.flatMap ScreenTest.fields ++ [u8 s.combine.code, u8 s.action.code, u8 s.latch.code]
    ++ (s.tests.map fun t => optBytes 5 t.last) ++ [beBytes 2 s.count, u8 s.capture.length]

/-- A load in STATUS_GET: a slot, FFh for none, FEh for an orphan. -/
def loadField : Load → List Byte
  | .none => [0xFF]
  | .context id => u8 id.slot.val
  | .orphan => [0xFE]

/-- A capability set: the number of recipes and the recipes, in the order in which State holds them, which is ascending.
DESIGN CHOICE, unsafe (notes/assumptions/2.md). -/
def capsFields (rs : List Nat) : List (List Byte) := u8 rs.length :: rs.map u8

def StatusView.fields (v : StatusView) : List (List Byte) :=
  [u8 v.mode.code, levelField v.rejectAll, u8 v.address, u8 v.currency.code, beBytes 2 v.generation,
   optBytes 2 v.day, optBytes 4 v.window, u8 v.contexts]
    ++ (v.lanes.flatMap fun l => [u8 l.count, u8 l.infeed.code, u8 l.scale.code, u8 l.streak])
    ++ [u8 v.car.code, loadField v.cargo,
        (match v.dest with
          | some (.wrapper w) => u8 (w.val + 1)
          | some .spur => u8 0
          | none => [0xFF])]
    ++ (v.wrappers.flatMap fun w =>
      [u8 w.state.code, loadField w.pallet, u8 ((w.progress.map Progress.code).getD 0)] ++ capsFields w.caps
        ++ [beBytes 4 w.warmUp, u8 w.afterRelease.code])
    ++ (v.held.flatMap fun ws => u8 ws.length :: ws.map fun w => u8 (w.val + 1))
    ++ v.lineCounts.map u8 ++ [u8 v.spur, u8 v.ticketing, u8 ((v.overload.map RingCause.code).getD 0),
        beBytes 2 v.reportSeq, mark v.lostReport]

/-- The result fields of a reply, in the order the owning chapter lists them (R160). A number of consignments fits
one byte, of articles or plans two. DEDUCED and PRESUMED, unsafe (notes/assumptions/2.md). DESIGN CHOICE, unsafe, for
TEMPLATE_BEGIN: with no build discarded its target and item count are carried as absent (R116; the same log); and for
PARAM_SET and PARAM_GET: a count, then each parameter's number and its value in four bytes (R182; the same log). -/
def Result.fields : Result → List (List Byte)
  | .none => []
  | .article a => a.fields
  | .removed n => [beBytes 2 n]
  | .consignmentsRemoved n => [u8 n]
  | .consignment c => c.fields
  | .totals t => t.fields
  | .planPut s st b => [beBytes 2 s, u8 st.code, boundField b]
  | .plan p => p.fields
  | .stationPut b l => rolesFields b ++ [u8 l]
  | .stationEntry rs => rolesFields rs
  | .stationHolder a => [u8 a]
  | .holdAdd i g e l m q => [u8 (if i then 1 else 2), beBytes 2 g, u8 e, u8 l, beBytes 2 m, beBytes 2 q]
  | .holdCount g e => [beBytes 2 g, u8 e]
  | .holdCleared r g => [u8 r, beBytes 2 g]
  | .holdEntry g h => h.fields ++ [beBytes 2 g]
  | .generation g => [beBytes 2 g]
  | .currency g d st r => [beBytes 2 g, optBytes 2 d, u8 st.code, mark r]
  | .laneCleared n k => [u8 n, yesNo k]
  | .context v => v.fields
  | .caseMap es n =>
    [u8 es.length] ++ (es.flatMap fun e => [u8 e.1, u8 (e.2.getD 0)]) ++ [optBytes 2 n]
  | .retried a d w => [u8 a, u8 d, u8 w]
  | .scale st n => [u8 st.code, u8 n]
  | .wrapperConfig cs t => capsFields cs ++ [beBytes 4 t]
  | .discardedBuild b => [optBytes 1 (b.map (·.1.val)), optBytes 1 (b.map (·.2))]
  | .itemCount n => [u8 n]
  | .itemPosition n => [u8 n]
  | .templateFault f p => [u8 f.code, u8 p]
  | .templateItems c is n => [u8 c, u8 is.length] ++ is.map Item.bytes ++ [optBytes 1 n]
  | .label v => v.fields
  | .log h n e => ((e.map LogEntry.fields).getD []) ++ [beBytes 2 h, beBytes 4 n]
  | .watchPut l n => [u8 l.code, beBytes 2 n]
  | .watchAck b a n => [u8 b.code, u8 a.code, beBytes 2 n]
  | .watchSettings s => s.fields
  | .watchCapture bs n => [u8 bs.length, bs, optBytes 1 n]
  | .mode b a rb ra c =>
    [u8 b.code, u8 a.code, levelField rb, levelField ra] ++ ((c.map fun n => [u8 n]).getD [])
  | .params ps => u8 ps.length :: ps.flatMap fun p => [u8 p.1, beBytes 4 p.2]
  | .status v => v.fields

end Sys2Proof.Machine
end

