-- ==== Sys2Proof/Machine/RequestCodec.lean ====
section
/-! DEFINITION. Sys2Proof/Machine/RequestCodec.lean: the management requests on the wire: their codes, which
roles may make them (section 9.1, Request codes; R158), the layout of their fields, and the division of fields
into parts (R160). The order of the fields is the owning chapter's; where a request names one of several things
a selector byte stands before them (notes/assumptions/2.md). -/

namespace Sys2Proof.Machine

open Sys2Proof

/-- The request code of a management request (section 9.1); no other command has one. -/
def requestCode : Instr → Option Byte
  | .articlePut .. => some 0x01
  | .articleDelete .. => some 0x02
  | .articleGet .. => some 0x03
  | .articleNext .. => some 0x04
  | .articleClear .. => some 0x05
  | .consignmentPut .. => some 0x06
  | .consignmentDelete .. => some 0x07
  | .consignmentGet .. => some 0x08
  | .consignmentNext .. => some 0x09
  | .consignmentClear .. => some 0x0A
  | .planPut .. => some 0x0B
  | .planDelete .. => some 0x0C
  | .planGet .. => some 0x0D
  | .planNext .. => some 0x0E
  | .planClear .. => some 0x0F
  | .stationPut .. => some 0x10
  | .stationGet .. => some 0x11
  | .holdAdd .. => some 0x20
  | .holdRelease .. => some 0x21
  | .holdClear .. => some 0x22
  | .holdNext .. => some 0x23
  | .currency .. => some 0x24
  | .laneClear .. => some 0x30
  | .contextGet .. => some 0x31
  | .caseMapGet .. => some 0x32
  | .retryWaiting .. => some 0x33
  | .scaleClear .. => some 0x34
  | .wrapperConfig .. => some 0x35
  | .templateBegin .. => some 0x40
  | .templateItems .. => some 0x41
  | .templateEnd .. => some 0x42
  | .templateGet .. => some 0x43
  | .labelGet .. => some 0x44
  | .logGet .. => some 0x45
  | .watchPut .. => some 0x50
  | .watchGet .. => some 0x51
  | .watchAck .. => some 0x52
  | .go .. => some 0x60
  | .drain .. => some 0x61
  | .halt .. => some 0x62
  | .restart .. => some 0x63
  | .clearRejectAll .. => some 0x64
  | .paramSet .. => some 0x65
  | .paramGet .. => some 0x66
  | .statusGet .. => some 0x67
  | _ => none

/-- The request codes of the table of section 9.1. -/
def knownCodes : List Byte :=
  [0x01, 0x02, 0x03, 0x04, 0x05, 0x06, 0x07, 0x08, 0x09, 0x0A, 0x0B, 0x0C, 0x0D, 0x0E, 0x0F, 0x10, 0x11,
   0x20, 0x21, 0x22, 0x23, 0x24, 0x30, 0x31, 0x32, 0x33, 0x34, 0x35, 0x40, 0x41, 0x42, 0x43, 0x44, 0x45,
   0x50, 0x51, 0x52, 0x60, 0x61, 0x62, 0x63, 0x64, 0x65, 0x66, 0x67]

/-- The requests a LINE_PANEL requester may make: those marked "permitted" or "reading" in section 9.1. -/
def panelCodes : List Byte :=
  [0x03, 0x04, 0x08, 0x09, 0x0D, 0x0E, 0x11, 0x23, 0x30, 0x31, 0x32, 0x34, 0x43, 0x44, 0x45, 0x51, 0x52,
   0x60, 0x61, 0x62, 0x64, 0x66, 0x67]

/-! ### Layouts, as written -/

/-- A licence field of a request, an empty one being absent. -/
def licenceText (t : Text) : List Byte := if t = [] then [0] else 0x12 :: t

/-- The key of CONTEXT_GET and its like: 1 and a slot, or 2 and a licence. -/
def contextKeyField : ContextKey → List (List Byte)
  | .slot n => [[1], u8 n]
  | .licence t => [[2], licenceText t]

/-- An item of TEMPLATE_ITEMS: its kind, and its contents. -/
def itemField : ItemFields → List Byte
  | .text t => 1 :: textField t
  | .field c w a f => [2, c, w, a, f]
  | .newline => [3]
  | .linesBegin => [4]
  | .linesEnd => [5]
  | .ifBonded => [6]
  | .endIf => [7]
  | .barcode k => [8, k]
  | .endItem => [9]
  | .unknown k => [k]

/-- A field test of WATCH_PUT: offset, width, kind, and the values its kind has. -/
def testField (t : TestFields) : List Byte :=
  u8 t.offset ++ u8 t.width ++ [t.kind] ++
    (if t.kind = 1 ∨ t.kind = 2 then beBytes 4 t.lo
     else if t.kind = 3 then beBytes 4 t.lo ++ beBytes 4 t.hi else [])

/-- The fields of a request, in the order the owning chapter lists them (R160). DEDUCED and PRESUMED, unsafe
(notes/assumptions/2.md). -/
def requestFields : Instr → List (List Byte)
  | .articlePut _ _ f =>
    [f.key, textField f.description, beBytes 4 f.caseWeight, beBytes 4 f.caseTol, u8 f.casesPerLayer,
     beBytes 2 f.layerHeight, beBytes 2 f.caseVolume, [f.dutiable]]
  | .articleDelete _ _ k => [k]
  | .articleGet _ _ k => [k]
  | .articleNext _ _ k => [k]
  | .consignmentPut _ _ f =>
    [f.number, textField f.customer, beBytes 2 f.minShelfLife, u8 f.maxLots, u8 f.sightings, [f.dutyStatus],
     u8 f.labelTemplate, u8 f.bay, u8 f.defaultRecipe]
  | .consignmentDelete _ _ n => [n]
  | .consignmentGet _ _ n => [n]
  | .consignmentNext _ _ n => [n]
  | .planPut _ _ f =>
    [licenceText f.licence, f.consignment, beBytes 4 f.tare, beBytes 2 f.baseHeight, optBytes 1 f.recipe,
     u8 f.lines.length] ++ f.lines.flatMap fun l => [l.article, u8 l.count]
  | .planDelete _ _ t => [licenceText t]
  | .planGet _ _ (.licence t) => [[1], licenceText t]
  | .planGet _ _ (.slot n) => [[2], beBytes 2 n]
  | .planNext _ _ n => [optBytes 2 n]
  | .stationPut _ _ a r i => [[a], [r], [i]]
  | .stationGet _ _ (.address a) => [[1], [a]]
  | .stationGet _ _ (.role r i) => [[2], [r], [i]]
  | .holdAdd _ _ f => [f.article, textField f.lot, [f.reason], u8 f.code, beBytes 2 f.placed]
  | .holdRelease _ _ a l => [a, textField l]
  | .holdNext _ _ (some (a, l)) => [[1], a, textField l]
  | .holdNext _ _ none => [[2]]
  | .currency _ _ g d => [beBytes 2 g, beBytes 2 d]
  | .laneClear _ _ l => [u8 l]
  | .contextGet _ _ k => contextKeyField k
  | .caseMapGet _ _ k n => contextKeyField k ++ [u8 n]
  | .scaleClear _ _ l => [u8 l]
  | .wrapperConfig _ _ w rs t => [u8 w, u8 rs.length] ++ rs.map u8 ++ [beBytes 4 t]
  | .templateBegin _ _ n => [u8 n]
  | .templateItems _ _ is => u8 is.length :: is.map itemField
  | .templateGet _ _ n p => [u8 n, u8 p]
  | .labelGet _ _ k => contextKeyField k
  | .logGet _ _ n => [beBytes 2 n]
  | .watchPut _ _ f =>
    [u8 f.screen, [f.enabled], optBytes 1 f.source, optBytes 2 f.kind, u8 f.tests.length]
      ++ f.tests.map testField ++ [[f.combine], [f.action]]
  | .watchGet _ _ n p st => if p = 2 then [u8 n, [p], u8 st] else [u8 n, [p]]
  | .watchAck _ _ n => [u8 n]
  | .paramSet _ _ ps => u8 ps.length :: ps.flatMap fun p => [u8 p.1, beBytes 4 p.2]
  | .paramGet _ _ ns => u8 ns.length :: ns.map u8
  | _ => []

/-! ### Layouts, as read -/

/-- A licence field of a request; an absent one is the empty string, which no owner takes as a licence. -/
def takeLicenceText : Reader Text := do
  let l ← takeLicence
  return l.getD []

/-- A context key; with a selector byte other than 1 and 2 the layout does not fit (BAD_REQUEST). DESIGN CHOICE, unsafe
(notes/assumptions/2.md). -/
def takeContextKey : Reader ContextKey := do
  let sel ← takeByte
  if sel = 1 then
    let n ← takeNat 1
    return .slot n
  else if sel = 2 then
    let t ← takeLicenceText
    return .licence t
  else failure

/-- A plan line. -/
def takePlanLine : Reader PlanLine := do
  let a ← takeBytes 14
  let c ← takeNat 1
  return ⟨a, c⟩

/-- An item of TEMPLATE_ITEMS; one of unknown kind is its kind byte alone. DESIGN CHOICE, unsafe
(notes/assumptions/35.md). -/
def takeItem : Reader ItemFields := do
  let k ← takeByte
  if k = 1 then
    let t ← takeText 255
    return .text t
  else if k = 2 then
    let c ← takeByte
    let w ← takeByte
    let a ← takeByte
    let f ← takeByte
    return .field c w a f
  else if k = 3 then return .newline
  else if k = 4 then return .linesBegin
  else if k = 5 then return .linesEnd
  else if k = 6 then return .ifBonded
  else if k = 7 then return .endIf
  else if k = 8 then
    let b ← takeByte
    return .barcode b
  else if k = 9 then return .endItem
  else return .unknown k

/-- A field test of WATCH_PUT; its values are carried in four bytes whatever its width, and one of unknown kind has
none. DESIGN CHOICE, unsafe (notes/assumptions/2.md and 35.md). -/
def takeTest : Reader TestFields := do
  let o ← takeNat 1
  let w ← takeNat 1
  let k ← takeByte
  if k = 1 ∨ k = 2 then
    let v ← takeNat 4
    return ⟨o, w, k, v, 0⟩
  else if k = 3 then
    let lo ← takeNat 4
    let hi ← takeNat 4
    return ⟨o, w, k, lo, hi⟩
  else return ⟨o, w, k, 0, 0⟩

/-- A pair of PARAM_SET. -/
def takePair : Reader (Nat × Nat) := do
  let n ← takeNat 1
  let v ← takeNat 4
  return (n, v)

/-- The fields of ARTICLE_PUT. -/
def takeArticle : Reader ArticleFields := do
  let key ← takeBytes 14
  let description ← takeText 255
  let caseWeight ← takeNat 4
  let caseTol ← takeNat 4
  let casesPerLayer ← takeNat 1
  let layerHeight ← takeNat 2
  let caseVolume ← takeNat 2
  let dutiable ← takeByte
  return ⟨key, description, caseWeight, caseTol, casesPerLayer, layerHeight, caseVolume, dutiable⟩

/-- The fields of CONSIGNMENT_PUT. -/
def takeConsignment : Reader ConsignmentFields := do
  let number ← takeBytes 8
  let customer ← takeText 255
  let minShelfLife ← takeNat 2
  let maxLots ← takeNat 1
  let sightings ← takeNat 1
  let duty ← takeByte
  let labelTemplate ← takeNat 1
  let bay ← takeNat 1
  let recipe ← takeNat 1
  return ⟨number, customer, minShelfLife, maxLots, sightings, duty, labelTemplate, bay, recipe⟩

/-- The fields of PLAN_PUT. -/
def takePlan : Reader PlanFields := do
  let licence ← takeLicenceText
  let consignment ← takeBytes 8
  let tare ← takeNat 4
  let baseHeight ← takeNat 2
  let recipe ← takeOpt 1
  let n ← takeNat 1
  let lines ← takeMany takePlanLine n
  return ⟨licence, consignment, tare, baseHeight, recipe, lines⟩

/-- The fields of HOLD_ADD. -/
def takeHold : Reader HoldFields := do
  let article ← takeBytes 14
  let lot ← takeText 255
  let reason ← takeByte
  let code ← takeNat 1
  let placed ← takeNat 2
  return ⟨article, lot, reason, code, placed⟩

/-- The fields of WATCH_PUT. -/
def takeWatch : Reader WatchFields := do
  let screen ← takeNat 1
  let enabled ← takeByte
  let source ← takeOpt 1
  let kind ← takeOpt 2
  let n ← takeNat 1
  let tests ← takeMany takeTest n
  let combine ← takeByte
  let action ← takeByte
  return ⟨screen, enabled, source, kind, tests, combine, action⟩

/-- The command a request code's fields spell, from a source and with a tag; no reading for an unknown code, nor for a
selector byte other than 1 and 2 (BAD_REQUEST). DESIGN CHOICE for the selectors, unsafe (notes/assumptions/2.md). -/
def takeRequest (code src tag : Byte) : Reader Instr :=
  match code.toNat with
  | 0x01 => do return .articlePut src tag (← takeArticle)
  | 0x02 => do return .articleDelete src tag (← takeBytes 14)
  | 0x03 => do return .articleGet src tag (← takeBytes 14)
  | 0x04 => do return .articleNext src tag (← takeBytes 14)
  | 0x05 => do return .articleClear src tag
  | 0x06 => do return .consignmentPut src tag (← takeConsignment)
  | 0x07 => do return .consignmentDelete src tag (← takeBytes 8)
  | 0x08 => do return .consignmentGet src tag (← takeBytes 8)
  | 0x09 => do return .consignmentNext src tag (← takeBytes 8)
  | 0x0A => do return .consignmentClear src tag
  | 0x0B => do return .planPut src tag (← takePlan)
  | 0x0C => do return .planDelete src tag (← takeLicenceText)
  | 0x0D => do
    let sel ← takeByte
    if sel = 1 then return .planGet src tag (.licence (← takeLicenceText))
    else if sel = 2 then return .planGet src tag (.slot (← takeNat 2))
    else failure
  | 0x0E => do return .planNext src tag (← takeOpt 2)
  | 0x0F => do return .planClear src tag
  | 0x10 => do
    let a ← takeByte
    let r ← takeByte
    let i ← takeByte
    return .stationPut src tag a r i
  | 0x11 => do
    let sel ← takeByte
    if sel = 1 then return .stationGet src tag (.address (← takeByte))
    else if sel = 2 then
      let r ← takeByte
      let i ← takeByte
      return .stationGet src tag (.role r i)
    else failure
  | 0x20 => do return .holdAdd src tag (← takeHold)
  | 0x21 => do
    let a ← takeBytes 14
    let l ← takeText 255
    return .holdRelease src tag a l
  | 0x22 => do return .holdClear src tag
  | 0x23 => do
    let sel ← takeByte
    if sel = 1 then
      let a ← takeBytes 14
      let l ← takeText 255
      return .holdNext src tag (some (a, l))
    else if sel = 2 then return .holdNext src tag none
    else failure
  | 0x24 => do
    let g ← takeNat 2
    let d ← takeNat 2
    return .currency src tag g d
  | 0x30 => do return .laneClear src tag (← takeNat 1)
  | 0x31 => do return .contextGet src tag (← takeContextKey)
  | 0x32 => do
    let k ← takeContextKey
    let n ← takeNat 1
    return .caseMapGet src tag k n
  | 0x33 => do return .retryWaiting src tag
  | 0x34 => do return .scaleClear src tag (← takeNat 1)
  | 0x35 => do
    let w ← takeNat 1
    let n ← takeNat 1
    let rs ← takeMany (takeNat 1) n
    let t ← takeNat 4
    return .wrapperConfig src tag w rs t
  | 0x40 => do return .templateBegin src tag (← takeNat 1)
  | 0x41 => do
    let n ← takeNat 1
    let is ← takeMany takeItem n
    return .templateItems src tag is
  | 0x42 => do return .templateEnd src tag
  | 0x43 => do
    let n ← takeNat 1
    let p ← takeNat 1
    return .templateGet src tag n p
  | 0x44 => do return .labelGet src tag (← takeContextKey)
  | 0x45 => do return .logGet src tag (← takeNat 2)
  | 0x50 => do return .watchPut src tag (← takeWatch)
  | 0x51 => do
    let n ← takeNat 1
    let p ← takeByte
    if p = 2 then return .watchGet src tag n p (← takeNat 1)
    else return .watchGet src tag n p 0
  | 0x52 => do return .watchAck src tag (← takeNat 1)
  | 0x60 => do return .go src tag
  | 0x61 => do return .drain src tag
  | 0x62 => do return .halt src tag
  | 0x63 => do return .restart src tag
  | 0x64 => do return .clearRejectAll src tag
  | 0x65 => do
    let n ← takeNat 1
    let ps ← takeMany takePair n
    return .paramSet src tag ps
  | 0x66 => do
    let n ← takeNat 1
    let ns ← takeMany (takeNat 1) n
    return .paramGet src tag ns
  | 0x67 => do return .statusGet src tag
  | _ => failure

/-! ### Division into parts (R160) -/

/-- The number of parts, at least one, of `room` bytes each, that carry n bytes of fields. -/
def partsFor (room n : Nat) : Nat := max 1 ((n + room - 1) / room)

/-- The share of part k (counting from 0): the fields' bytes in order, as many to a part as it has room for.
DEDUCED, unsafe (notes/assumptions/4.md). -/
def shareOf (room k : Nat) (bs : List Byte) : List Byte := (bs.drop (room * k)).take room

/-- The field bytes a MGMT_REPLY part has room for: its head takes 5 of the 120 bytes (section 9.1). -/
def replyRoom : Nat := Config.payloadMax - 5

/-- The field bytes a MGMT_REQUEST part has room for: its head takes 4 of the 120 bytes (section 9.1). -/
def requestRoom : Nat := Config.payloadMax - 4

/-- The last telegram that brings a request to address `dst`: the whole request, or the last of its parts. -/
def lastRequestPart (dst src code tag : Byte) (fields : List Byte) : Telegram :=
  let n := partsFor requestRoom fields.length
  ⟨dst, src, kMgmtRequest, [code, tag] ++ u8 n ++ u8 n ++ shareOf requestRoom (n - 1) fields⟩

end Sys2Proof.Machine
end

