-- ==== Sys2Proof/Machine/Emit.lean ====
section
/-! DEFINITION. Sys2Proof/Machine/Emit.lean: what the part sends: the origin queue, the holders of pending
emissions and the pending list (R156), the choice of Ring Out (R157), replies (R159, R160), reports (R161),
escapes (R37) and the orders each block sends (R19, R45, R113). -/

namespace Sys2Proof.Machine

open Sys2Proof

/-! ### Telegrams of the part -/

/-- A telegram to the address that holds a role-instance now, none when no address does (R19). -/
def State.toRole (s : State) (r : RoleInst) (kind : Byte) (payload : List Byte) : Option Telegram :=
  (s.holderOf r).map fun a => ⟨addressByte a, s.ownAddress, kind, payload⟩

/-- The address reports go to: report_address, or the holder of DISPATCH_SYSTEM when it is 0 (R161). -/
def State.reportAddress (s : State) : Option Byte :=
  if s.params.reportAddress = 0 then (s.holderOf .dispatchSystem).map addressByte
  else some (BitVec.ofNat 8 s.params.reportAddress)

/-- The destination a report is placed with: none when there is no address or it is the part's own (R161). -/
def State.reportDest (s : State) : Option Byte := s.reportAddress.filter fun a => a != s.ownAddress

/-- A report placed now: its telegram, the sequence advanced and the lost-report mark cleared; or, with no
destination, nothing but the mark set (R161). -/
def State.takeReport (s : State) (kind : Nat) (fields : List (List Byte)) : Option Telegram × State :=
  match s.reportDest with
  | some d =>
    (some ⟨d, s.ownAddress, kReport, reportPayload kind s.mgmt.reportSeq s.mgmt.lostReport fields⟩,
     s.onMgmt fun m => { m with reportSeq := (m.reportSeq + 1) % 65536, lostReport := false })
  | none => (none, s.onMgmt fun m => { m with lostReport := true })

/-- The number of parts of a reply (R160). -/
def Reply.parts (r : Reply) : Nat := partsFor replyRoom r.result.fields.flatten.length

/-- The telegram of a reply's next part (R159, R160). -/
def Reply.telegram (r : Reply) (own : Byte) : Telegram :=
  ⟨r.dst, own, kMgmtReply,
   [r.code, r.tag] ++ u8 r.status.code ++ u8 (r.sent + 1) ++ u8 r.parts
     ++ shareOf replyRoom r.sent r.result.fields.flatten⟩

/-! ### Holders (R156) -/

/-- The emissions of a closure's holder. -/
def State.closureOrders (s : State) (id : CtxId) : List Order :=
  ((s.ring.closures.find? fun p => p.1 == id).map (·.2)).getD []

/-- A bound on the telegrams a holder has to place; 0 when it has none. -/
def State.heldCount (s : State) : Holder → Nat
  | .context i => ((s.ctx i).map fun c => c.orders.length).getD 0
  | .closure id => (s.closureOrders id).length
  | .infeed l => if s.tracker.lanes[l].order.isSome then 1 else 0
  | .car => if s.alloc.car.order.isSome then 1 else 0
  | .wrapOrder w => if (s.wrapper w).wrapOrder.isSome then 1 else 0
  | .wrapOutput w => if (s.wrapper w).output.isSome then 1 else 0
  | .replies => (s.mgmt.replies.map Reply.parts).sum
  | .reports => s.mgmt.reports.length
  | .escapes => s.holds.escapes.length

/-- The holder has something to place. -/
def State.hasMore (s : State) (h : Holder) : Bool := s.heldCount h != 0

/-- A LABEL_JOB segment with a serial. -/
def Order.isSegmentOf (n : Nat) : Order → Bool
  | .segment _ m .. => m == n
  | _ => false

/-- Segment 1 of a LABEL_JOB with a serial. -/
def Order.isFirstOf (n : Nat) : Order → Bool
  | .segment _ m _ i _ _ => m == n && i == 1
  | _ => false

/-- The orders that wait without the segments of the job started last with a serial: a segment behind which another
segment 1 of that serial waits is of a job that has ended (R138). DEDUCED, unsafe (notes/assumptions/29.md). -/
def dropJob (n : Nat) : List Order → List Order
  | [] => []
  | o :: os => if o.isSegmentOf n && !os.any (Order.isFirstOf n) then dropJob n os else o :: dropJob n os

/-- A segment has been placed: a PLACING job none of whose segments waits any longer is SENT (R136). -/
def Context.segmentPlaced (c : Context) : Order → Context
  | .segment _ n .. =>
    if c.orders.any (Order.isSegmentOf n) then c
    else
      { c with job := c.job.map fun j => if j.stage = .placing ∧ j.serial = n then { j with stage := .sent } else j }
  | _ => c

/-- What a holder gives next and the state with it given: no telegram where no address holds the role-instance
it is for, since it is then not sent (R19). -/
def State.take (s : State) : Holder → Option Telegram × State
  | .context i =>
    match (s.ctx i).map (·.orders) with
    | some (o :: rest) =>
      (s.toRole o.dst o.kind o.payload, s.modCtx i fun c => { c with orders := rest }.segmentPlaced o)
    | _ => (none, s)
  | .closure id =>
    match s.closureOrders id with
    | o :: rest =>
      (s.toRole o.dst o.kind o.payload,
       s.onRing fun r => { r with
         closures := if rest = [] then r.closures.filter fun p => p.1 != id
           else r.closures.map fun p => if p.1 == id then (p.1, rest) else p })
    | [] => (none, s)
  | .infeed l =>
    match s.tracker.lanes[l].order with
    | some c =>
      match s.toRole (.infeed l) kInfeed (u8 c.code) with
      | some t => (some t, s.modLane l fun r => { r with order := none, lastPlaced := some c })
      | none => (none, s.modLane l fun r => { r with order := none })
    | none => (none, s)
  | .car =>
    match s.alloc.car.order with
    | some m => (s.toRole .transferCar kCarMove m.payload, s.modCar fun c => { c with order := none })
    | none => (none, s)
  | .wrapOrder w =>
    match (s.wrapper w).wrapOrder with
    | some o => (s.toRole (.wrapper w) kWrapOrder o.payload, s.modWrapper w fun x => { x with wrapOrder := none })
    | none => (none, s)
  | .wrapOutput w =>
    match (s.wrapper w).output with
    | some c =>
      match s.toRole (.wrapper w) kWrapperOutput (u8 c.code) with
      | some t => (some t, s.modWrapper w fun x => { x with output := none, lastOutput := c })
      | none => (none, s.modWrapper w fun x => { x with output := none })
    | none => (none, s)
  | .replies =>
    match s.mgmt.replies with
    | r :: rest =>
      (some (r.telegram s.ownAddress),
       s.onMgmt fun m => { m with
         replies := if r.sent + 1 < r.parts then { r with sent := r.sent + 1 } :: rest else rest })
    | [] => (none, s)
  | .reports =>
    match s.mgmt.reports with
    | r :: rest => (s.onMgmt fun m => { m with reports := rest }).takeReport r.kind r.fields
    | [] => (none, s)
  | .escapes =>
    match s.holds.escapes with
    | e :: rest =>
      let full := s.holds.escapeLost
      let out := (s.onHolds fun h => { h with escapes := rest }).takeReport 3 (e.fields full)
      (out.1, if out.1.isSome then out.2.onHolds fun h => { h with escapeLost := false } else out.2)
    | [] => (none, s)

/-- The origin queue has room for a telegram (R156). -/
def State.room (s : State) : Bool := s.ring.origin.length < Config.originMax

/-- A telegram joins the tail of the origin queue (R156). -/
def State.place (t : Telegram) (s : State) : State := s.onRing fun r => { r with origin := r.origin ++ [t] }

/-- A holder gives one telegram. -/
def State.giveOne (h : Holder) (s : State) : State :=
  match s.take h with
  | (some t, s') => s'.place t
  | (none, s') => s'

/-- A holder places telegrams while there is room and it has any, at most n. -/
def State.giveMany : Nat → Holder → State → State
  | 0, _, s => s
  | n + 1, h, s => if s.room && s.hasMore h then State.giveMany n h (s.giveOne h) else s

/-- The holder joins the tail of the pending list. -/
def State.joinPending (h : Holder) (s : State) : State := s.onRing fun r => { r with waiting := r.waiting ++ [h] }

/-- A holder with something newly formed: it places at once while there is room and no other holder waits,
and what is left waits on the pending list, on which a holder stands at most once (R156). -/
def State.offer (h : Holder) (s : State) : State :=
  if s.ring.waiting.contains h then s
  else
    let s' := if s.ring.waiting.isEmpty then s.giveMany (s.heldCount h) h else s
    if s'.hasMore h then s'.joinPending h else s'

/-- A holder left with nothing to place leaves the pending list (R156). -/
def State.prune (h : Holder) (s : State) : State :=
  if s.hasMore h then s else s.onRing fun r => { r with waiting := r.waiting.erase h }

/-- Room in the origin queue is given to the holders of the pending list in turn, one telegram each, a holder
with more to place going to the tail (R156). A holder whose emission is not placed (R19, R161) has had its turn.
DESIGN CHOICE, unsafe (notes/assumptions/36.md). -/
def State.grantRoom : Nat → State → State
  | 0, s => s
  | n + 1, s =>
    match s.ring.waiting with
    | [] => s
    | h :: rest =>
      if s.room then
        let s' := (s.onRing fun r => { r with waiting := rest }).giveOne h
        State.grantRoom n (if s'.hasMore h then s'.joinPending h else s')
      else s

/-- A bound on the turns the pending list can take. -/
def State.pendingTurns (s : State) : Nat := (s.ring.waiting.map fun h => s.heldCount h + 1).sum

/-- Ring Out is free: the next telegram is chosen by the forward run, and the room an originated one frees is
given to the pending list (R156, R157). With both queues empty nothing is sent. DESIGN CHOICE, safe
(notes/assumptions/11.md). -/
def State.chooseNext (s : State) : State :=
  match s.ring.forward, s.ring.origin with
  | [], [] => s.onRing fun r => { r with ringOut := none }
  | f :: fs, [] =>
    s.onRing fun r => { r with forward := fs, ringOut := some f, run := min Config.forwardRunMax (r.run + 1) }
  | [], o :: os =>
    let s' := s.onRing fun r => { r with origin := os, ringOut := some o, run := 0 }
    s'.grantRoom s'.pendingTurns
  | f :: fs, o :: os =>
    if s.ring.run < Config.forwardRunMax then
      s.onRing fun r => { r with forward := fs, ringOut := some f, run := r.run + 1 }
    else
      let s' := s.onRing fun r => { r with origin := os, ringOut := some o, run := 0 }
      s'.grantRoom s'.pendingTurns

/-! ### Reports, replies and escapes -/

/-- A report joins the report list and is placed or waits; with the list full it is dropped and the lost-report
mark set (R161). -/
def State.report (r : Report) (s : State) : State :=
  if s.mgmt.reports.length < Config.reportMax then
    (s.onMgmt fun m => { m with reports := m.reports ++ [r] }).offer .reports
  else s.onMgmt fun m => { m with lostReport := true }

/-- A reply joins the reply list (R159). -/
def State.reply (r : Reply) (s : State) : State :=
  (s.onMgmt fun m => { m with replies := m.replies ++ [r] }).offer .replies

/-- A formed ESCAPE report is placed in the escape queue, or lost with the escape-lost mark set when the queue
is full (R37). -/
def State.escape (e : EscapeReport) (s : State) : State :=
  if s.holds.escapes.length < Config.escapeMax then
    (s.onHolds fun h => { h with escapes := h.escapes ++ [e] }).offer .escapes
  else s.onHolds fun h => { h with escapeLost := true }

/-- The overload flag is set with a cause and one RING report formed, if the flag is clear (R154). -/
def State.overload (c : RingCause) (r : RingReport) (s : State) : State :=
  if s.ring.overload.isNone then
    (s.onRing fun x => { x with overload := some c }).report (.ring r)
  else s

/-- A STRAY report (R51). -/
def State.stray (kind src : Byte) (lane : Option Lane) (licence : Option Text) (cause : StrayCause)
    (s : State) : State :=
  s.report (.stray ⟨kind, src, lane, licence, cause⟩)

/-! ### Orders -/

/-- Orders of a context's holder (R156). -/
def State.sendOrders (i : Slot) (os : List Order) (s : State) : State :=
  (s.modCtx i fun c => { c with orders := c.orders ++ os }).offer (.context i)

/-- An infeed command: the infeed state is set at once, a newer command replaces a pending one, and is dropped
with it where it equals the last placed one (R44, R45). -/
def State.sendInfeed (l : Lane) (c : InfeedCmd) (s : State) : State :=
  let r := s.tracker.lanes[l]
  if r.order.isSome && r.lastPlaced == some c then
    (s.modLane l fun r => { r with infeed := c, order := none }).prune (.infeed l)
  else (s.modLane l fun r => { r with infeed := c, order := some c }).offer (.infeed l)

/-- A CAR_MOVE (R99, R113). DEDUCED, unsafe (notes/assumptions/24.md). -/
def State.sendCarMove (m : CarMove) (s : State) : State :=
  (s.modCar fun c => { c with order := some m }).offer .car

/-- A WRAP_ORDER (R108, R113); it replaces one still pending. DESIGN CHOICE, unsafe (notes/assumptions/24.md). -/
def State.sendWrapOrder (w : WrapperNo) (o : WrapOrder) (s : State) : State :=
  (s.modWrapper w fun x => { x with wrapOrder := some o }).offer (.wrapOrder w)

/-- A pending WRAP_ORDER is dropped (R107, R111). -/
def State.dropWrapOrder (w : WrapperNo) (s : State) : State :=
  (s.modWrapper w fun x => { x with wrapOrder := none }).prune (.wrapOrder w)

/-- A WRAPPER_OUTPUT: a newer one replaces a pending one, and is dropped with it where it equals the last output
order (R113). -/
def State.sendOutput (w : WrapperNo) (c : OutputCmd) (s : State) : State :=
  let x := s.wrapper w
  if x.output.isSome && x.lastOutput == c then
    (s.modWrapper w fun x => { x with output := none }).prune (.wrapOutput w)
  else (s.modWrapper w fun x => { x with output := some c }).offer (.wrapOutput w)

/-! ### Forwarding (R154) -/

/-- A telegram joins the forward queue, or is dropped with the overload flag set when the queue is full; a
passive part forms no report (R154, R162). -/
def State.forward (t : Telegram) (s : State) : State :=
  if s.ring.forward.length < Config.forwardMax then
    s.onRing fun r => { r with forward := r.forward ++ [t] }
  else if s.passive then
    s.onRing fun r => { r with overload := some (r.overload.getD .forwardFull) }
  else s.overload .forwardFull (.forwardFull t.kind t.src)

end Sys2Proof.Machine
end

