-- ==== Sys2Proof/Machine/Infeed.lean ====
section
/-! DEFINITION. Sys2Proof/Machine/Infeed.lean: the infeed decision of each lane (R44). -/

namespace Sys2Proof.Machine

open Sys2Proof

/-- The wanted command of a lane: GO while its count is below 5 and the acting mode is RUN or DEGRADED
(R44). -/
def State.wanted (s : State) (l : Lane) : InfeedCmd :=
  if s.laneCount l < Config.laneQueueMax ∧ (s.actingMode = .run ∨ s.actingMode = .degraded) then .go else .stop

/-- A lane's count has changed: its wanted command is sent if it differs from its infeed state (R44). -/
def State.infeedDecision (l : Lane) (s : State) : State :=
  if s.wanted l ≠ s.tracker.lanes[l].infeed then s.sendInfeed l (s.wanted l) else s

/-- The line mode has changed: every lane is sent its wanted command (R44). -/
def State.infeedAll (s : State) : State := allLanes.foldl (fun s l => s.sendInfeed l (s.wanted l)) s

/-- A context leaves its lane queue (R40). -/
def State.leaveLane (i : Slot) (l : Lane) (s : State) : State :=
  s.modLane l fun r => { r with queue := r.queue.erase i }

end Sys2Proof.Machine
end

