-- ==== Sys2Proof/Machine/Compose.lean ====
section
/-! DEFINITION. Sys2Proof/Machine/Compose.lean: the Label Composer: the values of fields (R120 to R123), the
building of a record (R124 to R126), and the composition queue (R127, R128). -/

namespace Sys2Proof.Machine

open Sys2Proof

/-! ### Resolution (R14) -/

/-- The consignment and article entries of a plan, in plan-line order; none when any is absent (R14). -/
def State.resolve (s : State) (p : Plan) : Option (Consignment × List Article) :=
  match s.consignment p.consignment, p.lines.mapM fun l => s.article l.article with
  | some c, some as => some (c, as)
  | _, _ => none

/-! ### Values of fields -/

/-- A plan line of a LINES repetition with its article entry. -/
structure LineInput where
  line    : PlanLine
  article : Option Article

/-- The plan lines of a composition with their article entries, in load order; none without a plan (R125). -/
def CompInputs.lineInputs (c : CompInputs) : List LineInput :=
  match c.plan with
  | some p => (p.lines.zip c.articles).map fun x => ⟨x.1, x.2⟩
  | none => []

/-- The earliest present best-before of some tally lines. -/
def earliest (ls : List TallyLine) : Option Nat := (ls.filterMap fun l => l.content.best).min?

/-- The distinct present lots of some tally lines, in order of first appearance (R121). -/
def distinctLots (ls : List TallyLine) : List Text :=
  (ls.filterMap fun l => l.content.lot).foldl (fun acc t => if acc.any (lotEq t) then acc else acc ++ [t]) []

/-- The tally lines of an article. -/
def linesOf (a : Text) (ls : List TallyLine) : List TallyLine := ls.filter fun l => l.content.article == a

/-- Net weight: gross minus tare, 0 when gross is below tare (R7, R120). -/
def netWeight (gross tare : Nat) : Nat := gross - tare

/-- The dutiable volume of plan lines with their articles, in centilitres (R7, R120). -/
def dutiableVolume (ls : List (PlanLine × Article)) : Nat :=
  (ls.map fun x => if x.2.dutiable then x.1.count * x.2.caseVolume else 0).sum

/-- The name of a verdict as VERDICT prints it (R120). -/
def verdictText : Verdict → Text
  | .pass => ascii "PASS"
  | .park => ascii "PARK"
  | .rework => ascii "REWORK"
  | .hold => ascii "HOLD"

/-- The value of a field code for a composition, absent as R120 and R121 say. -/
def fieldValue (c : CompInputs) (serial : Nat) (line : Option LineInput) : FieldCode → Option Text
  | .licence => c.licence
  | .consignment => c.plan.map (·.consignment)
  | .customer => c.consignment.map (·.customer)
  | .bay => c.consignment.map fun x => decimal x.bay
  | .netKg =>
    match c.plan, c.weight with
    | some p, some w => some (kgText (netWeight w p.tare))
    | _, _ => none
  | .grossKg => c.weight.map kgText
  | .cases => c.plan.map fun p => decimal (p.lines.map (·.count)).sum
  | .litres =>
    match c.plan, c.articles.mapM id with
    | some p, some as => some (litreText (dutiableVolume (p.lines.zip as)))
    | _, _ => none
  | .bestBefore => (earliest c.lines).map dateText
  | .dispatchDate => c.day.map dateText
  | .serial => some (decimal serial)
  | .duty => c.consignment.map fun x =>
    match x.duty with
    | .bonded => ascii "BONDED"
    | .dutyPaid => ascii "DUTY PAID"
  | .verdict => c.verdict.map verdictText
  | .reasons => some (joinWith [0x2C] (c.reasons.map Reason.code))
  | .article => line.map (·.line.article)
  | .articleText => line.bind fun l => l.article.map (·.description)
  | .lineCount => line.map fun l => decimal l.line.count
  | .lineLots => line.bind fun l =>
    let lots := distinctLots (linesOf l.line.article c.lines)
    if lots = [] then none else some (joinWith [0x2F] lots)
  | .lineBb => line.bind fun l => (earliest (linesOf l.line.article c.lines)).map dateText

/-- A value placed in a field of its width, and whether it was too long (R122, R123). -/
def fieldText (value : Option Text) (width : Nat) (align : Align) (fill : Fill) : Text × Bool :=
  match value with
  | none => (List.replicate width 0x2D, false)
  | some v =>
    let pad : Text := List.replicate (width - v.length) (match fill with | .space => 0x20 | .zero => 0x30)
    if v.length ≤ width then
      ((match align with | .left => v ++ pad | .right => pad ++ v), false)
    else (List.replicate width 0x2A, true)

/-! ### Building the record -/

/-- The items worked through, each with its plan line inside a LINES section, up to END (R125, R128). `fuel`
bounds the items by their number. -/
def workItems (bonded : Bool) (ls : List LineInput) : Nat → List Item → List (Item × Option LineInput)
  | 0, _ => []
  | _, [] => []
  | n + 1, .linesBegin :: rest =>
    let body := rest.takeWhile (· != .linesEnd)
    let after := (rest.dropWhile (· != .linesEnd)).drop 1
    (.linesBegin, none) :: (ls.flatMap fun l => body.map fun i => (i, some l))
      ++ (.linesEnd, none) :: workItems bonded ls n after
  | n + 1, .ifBonded :: rest =>
    let body := rest.takeWhile (· != .endIf)
    let after := (rest.dropWhile (· != .endIf)).drop 1
    if bonded then
      (.ifBonded, none) :: (body.map fun i => (i, none)) ++ (.endIf, none) :: workItems bonded ls n after
    else workItems bonded ls n after
  | _ + 1, .endItem :: _ => [(.endItem, none)]
  | n + 1, i :: rest => (i, none) :: workItems bonded ls n rest

/-- The items a composition works through (R125). -/
def CompInputs.work (c : CompInputs) : List (Item × Option LineInput) :=
  workItems (c.consignment.any fun x => x.duty == .bonded) c.lineInputs c.items.length c.items

/-- The time of a composition, in milliseconds (R128). -/
def CompInputs.time (c : CompInputs) : Nat := 10 + 2 * c.work.length

/-- A record being built: the rows ended, the open row, the barcodes and the mark (R124, R126). -/
structure Canvas where
  rows      : List Text
  row       : Text
  barcodes  : List (BarcodeKind × Text)
  truncated : Bool

/-- Characters placed from the next column on; those past column 40 or row 16 are dropped with the mark set
(R124). -/
def Canvas.put (t : Text) (c : Canvas) : Canvas :=
  if c.rows.length < 16 then
    { c with row := (c.row ++ t).take 40, truncated := c.truncated || decide (40 < c.row.length + t.length) }
  else { c with truncated := c.truncated || !t.isEmpty }

/-- The open row ended by NEWLINE (R124). -/
def Canvas.newline (c : Canvas) : Canvas :=
  if c.rows.length < 16 then { c with rows := c.rows ++ [c.row], row := [] } else c

/-- The open row at END counts only if it holds a character (R124). -/
def Canvas.finish (c : Canvas) : Canvas := if c.row = [] then c else c.newline

/-- A barcode added, the third being dropped with the mark set (R126). -/
def Canvas.barcode (k : BarcodeKind) (t : Text) (c : Canvas) : Canvas :=
  if c.barcodes.length < 2 then { c with barcodes := c.barcodes ++ [(k, t)] } else { c with truncated := true }

/-- One item worked through. -/
def drawItem (inp : CompInputs) (serial : Nat) (c : Canvas) (x : Item × Option LineInput) : Canvas :=
  match x.1 with
  | .text t => c.put t
  | .field code width align fill =>
    let f := fieldText (fieldValue inp serial x.2 code) width align fill
    let c' := c.put f.1
    { c' with truncated := c'.truncated || f.2 }
  | .newline => c.newline
  | .barcode .licence =>
    match inp.licence with
    | some l => c.barcode .licence l
    | none => c
  | .barcode .serial => c.barcode .serial (digitString 6 serial)
  | .endItem => c.finish
  | .linesBegin | .linesEnd | .ifBonded | .endIf => c

/-- The label record of a composition with its serial (R124 to R129). An empty template gives no rows and no
barcodes and sets NO_TEMPLATE (R128). -/
def Flight.record (f : Flight) (serial : Nat) : LabelRecord :=
  let c := f.inputs.work.foldl (drawItem f.inputs serial) ⟨[], [], [], false⟩
  { ctx := f.ctx, kind := f.kind, template := f.template, serial := serial, verdict := f.inputs.verdict,
    rows := c.rows, barcodes := c.barcodes, truncated := c.truncated, noTemplate := f.inputs.items.isEmpty }

/-! ### The composition queue -/

/-- The template number of a composition (R128). A DISPATCH_LABEL whose consignment is missing does not arise;
it would take the reject template. -/
def State.templateFor (s : State) (c : Context) : LabelKind → TemplateNo
  | .dispatchLabel => ((s.boundConsignment c).map (·.labelTemplate)).getD s.params.rejectTemplate
  | .rejectTicket => s.params.rejectTemplate

/-- The inputs a composition reads at its start (R128). -/
def State.compInputs (s : State) (c : Context) (t : TemplateNo) : CompInputs :=
  let p := s.boundPlan c
  { items := s.composer.templates[t], licence := c.licence, weight := c.weight, verdict := c.verdict,
    reasons := c.reasons, plan := p, consignment := s.boundConsignment c,
    articles := (p.map fun p => p.lines.map fun l => s.article l.article).getD [],
    lines := c.tally.lines, day := s.holds.day }

/-- A composition starts: the request leaves the queue and its inputs are read (R128). -/
def State.startComposition (r : CompRequest) (c : Context) (s : State) : State :=
  let t := s.templateFor c r.kind
  let inp := s.compInputs c t
  (s.onComposer fun x => { x with
      queue := x.queue.drop 1
      flight := some ⟨r.ctx, r.kind, t, inp, false, inp.time⟩ }).modCtx r.ctx.slot
    fun c => { c with compStatus := .inFlight }

/-- With none in flight, the request at the head of the queue is started; one that names no open context is
dropped (R127). -/
def State.startQueued (s : State) : List CompRequest → State
  | [] => s.onComposer fun x => { x with queue := [] }
  | r :: rest =>
    match s.named r.ctx with
    | some c => (s.onComposer fun x => { x with queue := r :: rest }).startComposition r c
    | none => State.startQueued s rest

/-- The next composition is started when none is in flight (R127). -/
def State.startNext (s : State) : State :=
  if s.composer.flight.isSome then s else s.startQueued s.composer.queue

/-- A request joins the tail of the queue (R127). -/
def State.queueComposition (id : CtxId) (k : LabelKind) (s : State) : State :=
  (s.onComposer fun x => { x with queue := x.queue ++ [⟨id, k⟩] }).modCtx id.slot
    fun c => { c with compStatus := .queued }

/-- A dispatch label or a reject ticket is requested for a context (R127); the cells the rule marks as not
arising change nothing. DEDUCED, unsafe (notes/assumptions/29.md). -/
def State.requestLabel (id : CtxId) (k : LabelKind) (s : State) : State :=
  match s.named id with
  | none => s
  | some c =>
    match c.compStatus, k with
    | .none, _ => (s.queueComposition id k).startNext
    | .queued, .rejectTicket =>
      s.onComposer fun x => { x with
        queue := x.queue.map fun r => if r.ctx = id then { r with kind := .rejectTicket } else r }
    | .inFlight, .rejectTicket =>
      s.onComposer fun x => { x with
        flight := x.flight.map fun f =>
          if f.ctx = id ∧ f.kind = .dispatchLabel then { f with ticketWaiting := true } else f }
    | .composed, .rejectTicket =>
      if c.label.any fun l => l.kind == .dispatchLabel then (s.queueComposition id .rejectTicket).startNext else s
    | _, .dispatchLabel => s

end Sys2Proof.Machine
end

