-- ==== Sys2Proof/Machine/Label.lean ====
section
/-! DEFINITION. Sys2Proof/Machine/Label.lean: the label jobs of the Label and Exit Dispatcher: their start
(R136, R146) and their withdrawal (R138), and the completion of a composition (R129). -/

namespace Sys2Proof.Machine

open Sys2Proof

/-! ### Label lines -/

/-- The label lines. -/
def allLines : List LineNo := [0, 1]

/-- The contexts of a label line, in line order (R134). -/
def State.line (s : State) (k : LineNo) : List Slot := s.labels.lines[k]

/-- A change of a label line. -/
def State.modLine (k : LineNo) (f : List Slot → List Slot) (s : State) : State :=
  s.onLabels fun d => { d with lines := d.lines.set k (f d.lines[k]) }

/-- The label line that holds a context. -/
def State.lineOf (s : State) (i : Slot) : Option LineNo := allLines.find? fun k => (s.line k).contains i

/-- The contexts of a line that are QUEUED_LABEL or LABELLING (R134). -/
def State.unlabelled (s : State) (k : LineNo) : List Slot :=
  (s.line k).filter fun i => (s.ctx i).any fun c => c.phase == .queuedLabel || c.phase == .labelling

/-- The context's record may be sent (R135). -/
def Context.sendable (c : Context) : Bool :=
  c.label.any fun l => l.kind == .rejectTicket || c.verdict == some .pass

/-! ### Starting a job -/

/-- Rows two to a segment (R136). -/
def pairRows : List Text → List (List Text)
  | [] => []
  | [a] => [[a]]
  | a :: b :: rest => [a, b] :: pairRows rest

/-- The segments of a record: its rows two by two, then its barcodes (R136). -/
def segmentsOf (r : LabelRecord) : List Segment := (pairRows r.rows).map .rows ++ [.barcodes r.barcodes]

/-- The LABEL_JOB orders of a record for an applicator (R136). -/
def jobOrders (dst : RoleInst) (r : LabelRecord) : List Order :=
  let segs := segmentsOf r
  ((List.range segs.length).zip segs).map fun p => .segment dst r.serial r.kind (p.1 + 1) segs.length p.2

/-- A job is started: it is PLACING with the record's kind and serial, and its segments are placed in order
(R136). -/
def State.startJob (dst : RoleInst) (i : Slot) (s : State) : State :=
  match (s.ctx i).bind (·.label) with
  | some r =>
    (s.modCtx i fun c => { c with job := some ⟨.placing, r.kind, r.serial⟩ }).sendOrders i (jobOrders dst r)
  | none => s

/-- The context has no job outstanding and its record is sendable. -/
def Context.startable (c : Context) : Bool := c.job.isNone && c.sendable

/-- The jobs of label line k that R136 allows are started: the first unlabelled context's, and the second's when
the first has a job outstanding. DEDUCED, unsafe (notes/assumptions/29.md). -/
def State.startJobs (k : LineNo) (s : State) : State :=
  match s.unlabelled k with
  | [] => s
  | i :: rest =>
    let s' := if (s.ctx i).any Context.startable then s.startJob (.labelApplicator k) i else s
    match rest with
    | j :: _ =>
      if (s'.ctx i).any (fun c => c.job.isSome) && (s'.ctx j).any Context.startable then
        s'.startJob (.labelApplicator k) j
      else s'
    | [] => s'

/-- The job of the first context of the ticket order is started when it has a REJECT_TICKET record and no job
(R146). -/
def State.startTicket (s : State) : State :=
  match s.labels.tickets with
  | i :: _ =>
    if (s.ctx i).any fun c => c.job.isNone && (c.label.any fun l => l.kind == .rejectTicket) then
      s.startJob .rejectApplicator i
    else s
  | [] => s

/-- The Dispatcher is told that a context has a new record (R129, R136, R146). -/
def State.recordReported (i : Slot) (s : State) : State :=
  match s.lineOf i with
  | some k => s.startJobs k
  | none => if s.labels.tickets.contains i then s.startTicket else s

/-! ### Withdrawing a job (R138) -/

/-- An order that is a LABEL_CANCEL. -/
def Order.isCancel : Order → Bool
  | .cancel .. => true
  | _ => false

/-- No segment of the job with a serial has been placed: its segment 1 still waits. DEDUCED, unsafe
(notes/assumptions/29.md). -/
def nonePlaced (n : Nat) (os : List Order) : Bool := os.any (Order.isFirstOf n)

/-- A context's orders and job after its job is withdrawn: its segments still waiting are dropped, a LABEL_CANCEL
follows unless none had been placed, and a DISPATCH_LABEL serial is kept as voided where `keep` says so
(R138). DEDUCED, unsafe (notes/assumptions/29.md). -/
def Context.withdrawn (dst : RoleInst) (keep : Bool) (c : Context) : Context :=
  match c.job with
  | none => c
  | some j =>
    let rest := dropJob j.serial c.orders
    { c with
      orders := if j.stage = .placing ∧ nonePlaced j.serial c.orders then rest else rest ++ [.cancel dst j.serial]
      job := none
      voided := if keep ∧ j.kind = .dispatchLabel then some j.serial else c.voided }

/-- A context's outstanding job is withdrawn (R138). -/
def State.withdraw (dst : RoleInst) (keep : Bool) (i : Slot) (s : State) : State :=
  if (s.ctx i).any fun c => c.job.isSome then
    ((s.modCtx i (Context.withdrawn dst keep)).offer (.context i)).prune (.context i)
  else s

/-- The second unlabelled context of a line, if the given one is the first. -/
def State.behindFirst (s : State) (k : LineNo) (i : Slot) : Option Slot :=
  match s.unlabelled k with
  | a :: b :: _ => if a = i then some b else none
  | _ => none

/-- A raise from PASS is told to the Dispatcher for a QUEUED_LABEL or LABELLING context: its outstanding
dispatch-label job is withdrawn, and the job of the context behind it too, so that the applicator's slots stay in
line order (R138, Raise and Reorder). -/
def State.raiseInLine (i : Slot) (s : State) : State :=
  match s.lineOf i with
  | none => s
  | some k =>
    if (s.ctx i).any fun c => c.job.any fun j => j.kind == .dispatchLabel then
      let s1 := s.withdraw (.labelApplicator k) true i
      let s2 :=
        match s.behindFirst k i with
        | some j => s1.withdraw (.labelApplicator k) false j
        | none => s1
      s2.startJobs k
    else s

/-! ### Completion of a composition (R129, R131) -/

/-- The result is kept: a ticket always, a dispatch label while no ticket waits and the verdict is PASS. -/
def Flight.kept (f : Flight) (c : Context) : Bool :=
  f.kind == .rejectTicket || (!f.ticketWaiting && c.verdict == some .pass)

/-- The label serial after n (R129). -/
def serialAfter (n : Nat) : Nat := if n < 999999 then n + 1 else 1

/-- A kept result becomes the context's label record with the next serial (R129). -/
def State.keepRecord (f : Flight) (s : State) : State :=
  let n := s.composer.nextSerial
  (s.onComposer fun x => { x with nextSerial := serialAfter n }).modCtx f.ctx.slot fun c =>
    { c with label := some (f.record n), labelSerial := some n, compStatus := .composed }

/-- The composition in flight completes (R129, R131). -/
def State.completeComposition (s : State) : State :=
  match s.composer.flight with
  | none => s
  | some f =>
    let s := s.onComposer fun x => { x with flight := none }
    match s.named f.ctx with
    | none => s.startNext
    | some c =>
      if f.kept c then ((s.keepRecord f).recordReported f.ctx.slot).startNext
      else (s.queueComposition f.ctx .rejectTicket).startNext

end Sys2Proof.Machine
end

