-- ==== Sys2Proof/Machine/Reasons.lean ====
section
/-! DEFINITION. Sys2Proof/Machine/Reasons.lean: the handing of a reason to the Reconciler (R73, R78), the
upward-only rule (R92) and what a raise from PASS tells the other blocks (R93). -/

namespace Sys2Proof.Machine

open Sys2Proof

/-- The VERDICT report of a context (R91). -/
def verdictReport (i : Slot) (c : Context) (cause : VerdictCause) (v : Verdict) : Report :=
  .verdict ⟨i, c.adm, c.licence, c.lane, c.planSlot, cause, v, c.reasons, c.record⟩

/-- A raise from PASS is told to the blocks that act on the pallet's phase (R93). -/
def State.tellRaise (id : CtxId) (p : Phase) (s : State) : State :=
  match p with
  | .atHeadDecided => (s.stopTimer id.slot).requestLabel id .rejectTicket
  | .moving | .wrapping => s.requestLabel id .rejectTicket
  | .queuedLabel | .labelling => (s.requestLabel id .rejectTicket).raiseInLine id.slot
  | _ => s

/-- A reason is handed for a context that has a verdict: it is added, the verdict only rises, and a VERDICT
report with cause LATER is sent (R92). A rise of a context in AT_HEAD_DECIDED is an event of R103. The report is
formed before what the raise makes the other blocks do (R93, R138). DESIGN CHOICE, unsafe
(notes/assumptions/33.md). -/
def State.addLater (id : CtxId) (c : Context) (v : Verdict) (r : Reason) (s : State) : State :=
  let v' := v.max r.severity
  let c' := { c with reasons := insertReason r c.reasons, verdict := some v' }
  let s := (s.putCtx id.slot (some c')).report (verdictReport id.slot c' (.later v r) v')
  let s := if v' ≠ v ∧ c.phase = .atHeadDecided then s.callArbiter else s
  if v = .pass ∧ v' ≠ .pass then s.tellRaise id c.phase else s

/-- A reason is handed to the Reconciler for a context named by slot and admission number (R73): dropped where
no such context is open, without effect where the set holds it, recorded for a context with no verdict. -/
def State.handReason (id : CtxId) (r : Reason) (s : State) : State :=
  match s.named id with
  | none => s
  | some c =>
    if c.reasons.contains r then s
    else
      match c.verdict with
      | none => s.modCtx id.slot fun c => { c with reasons := insertReason r c.reasons }
      | some v => s.addLater id c v r

/-- A reason handed for the open context in a slot, if there is one. -/
def State.handSlot (i : Slot) (r : Reason) (s : State) : State :=
  match s.idOf i with
  | some id => s.handReason id r
  | none => s

/-- A reason handed for each of some slots, in the order given. -/
def State.handAll (is : List Slot) (r : Reason) (s : State) : State := is.foldl (fun s i => s.handSlot i r) s

end Sys2Proof.Machine
end

