-- ==== Sys2Proof/Machine/Alloc.lean ====
section
/-! DEFINITION. Sys2Proof/Machine/Alloc.lean: the Transfer and Wrap Allocator (chapter 6): the car, its arbiter,
the wrappers and the held outputs. Each operation takes the cause its WRAPPER reports carry (R113). -/

namespace Sys2Proof.Machine

open Sys2Proof

/-! ### WRAPPER reports (R113) -/

/-- The pallet a WRAPPER report shows. -/
def State.loadView (s : State) : Load → LoadView
  | .none => .none
  | .context id => .context id.slot ((s.named id).bind (·.licence))
  | .orphan => .orphan

/-- The WRAPPER report of a change of the car's state, if the state has changed. -/
def State.reportCar (before : CarState) (cause : Config.UnitCause) (s : State) : State :=
  let x := s.alloc.car
  if before = x.state then s else s.report (.unit ⟨.car before x.state, cause, s.loadView x.cargo⟩)

/-- A change of the car record, with its report. -/
def State.setCar (cause : Config.UnitCause) (f : Car → Car) (s : State) : State :=
  (s.modCar f).reportCar s.alloc.car.state cause

/-- A change of a wrapper's record, with the report of a change of its state. DEDUCED, unsafe
(notes/assumptions/25.md). -/
def State.setWrapper (w : WrapperNo) (cause : Config.UnitCause) (f : Wrapper → Wrapper) (s : State) : State :=
  let before := (s.wrapper w).state
  let s := s.modWrapper w f
  let x := s.wrapper w
  if before = x.state then s else s.report (.unit ⟨.wrapper w before x.state, cause, s.loadView x.pallet⟩)

/-! ### The arbiter (R103) -/

/-- A lane head the arbiter may serve, with its destination, its recipe and its decision time. -/
structure Candidate where
  lane   : Lane
  slot   : Slot
  id     : CtxId
  dest   : MoveDest
  recipe : Option Nat
  time   : Nat

/-- The recipe of a pallet: the plan's, or its consignment's default (R103). -/
def State.recipeOf (s : State) (c : Context) : Option Nat :=
  (s.boundPlan c).bind fun p =>
    match p.recipe with
    | some r => some r
    | none => (s.consignment p.consignment).map (·.defaultRecipe)

/-- The lowest-numbered IDLE wrapper whose capability set contains a recipe (R103). -/
def State.idleWrapperFor (s : State) (r : Nat) : Option WrapperNo :=
  allWrappers.find? fun w => (s.wrapper w).state == .idle && (s.wrapper w).caps.contains r

/-- The eligible candidate of a lane (R103). -/
def State.candidate (s : State) (l : Lane) : Option Candidate :=
  match s.laneHead l with
  | none => none
  | some i =>
    match s.ctx i with
    | none => none
    | some c =>
      let time := (c.record.map (·.time)).getD 0
      if c.phase = .atHeadDecided then
        match c.verdict with
        | none => none
        | some .pass =>
          (s.recipeOf c).bind fun r =>
            (s.idleWrapperFor r).map fun w => ⟨l, i, ⟨i, c.adm⟩, .wrapper w, some r, time⟩
        | some _ =>
          if s.spurAccount < Config.spurMax then some ⟨l, i, ⟨i, c.adm⟩, .spur, none, time⟩ else none
      else none

/-- The earliest decided of some candidates, the first of equals (R103). -/
def earliestOf : List Candidate → Option Candidate
  | [] => none
  | a :: as =>
    match earliestOf as with
    | some b => if b.time < a.time then some b else some a
    | none => some a

/-- The candidate the arbiter chooses (R103). -/
def State.chosen (s : State) : Option Candidate := earliestOf (allLanes.filterMap s.candidate)

/-- A move from a lane head starts (R99). -/
def State.startMove (cause : Config.UnitCause) (x : Candidate) (s : State) : State :=
  let s := s.setCar cause fun c =>
    { c with state := .moving, cargo := .context x.id, source := some x.lane, dest := some x.dest,
             recipe := x.recipe }
  let s := s.enter x.slot .moving (some s.params.carMoveLimit)
  s.sendCarMove ⟨some x.lane, x.dest, (s.ctx x.slot).bind (·.licence)⟩

/-- The arbiter, run when the car is IDLE (R103). -/
def State.arbitrate (cause : Config.UnitCause) (s : State) : State :=
  if s.alloc.car.state = .idle then
    match s.chosen with
    | some x => s.startMove cause x
    | none => s
  else s

/-- The arbiter is run if an event of R103 has been taken since it was run last. DESIGN CHOICE, unsafe
(notes/assumptions/26.md). -/
def State.settle (cause : Config.UnitCause) (s : State) : State :=
  if s.alloc.arbiterDue then (s.onAlloc fun a => { a with arbiterDue := false }).arbitrate cause else s

/-! ### The car -/

/-- A context carried by the car. -/
def Car.carries (c : Car) (i : Slot) : Bool :=
  match c.cargo with
  | .context id => id.slot == i
  | _ => false

/-- A recovery move that is due starts when the spur account is below 6 (R101). -/
def State.recover (cause : Config.UnitCause) (s : State) : State :=
  let x := s.alloc.car
  if x.recoveryDue ∧ s.spurAccount < Config.spurMax then
    let s := s.setCar cause fun c =>
      { c with state := .moving, dest := some .spur, recipe := none, recoveryDue := false }
    match x.cargo with
    | .context id =>
      let s := s.sendCarMove ⟨none, .spur, (s.named id).bind (·.licence)⟩
      s.modCtx id.slot fun c => { c with timer := some s.params.carMoveLimit }
    | _ => s.sendCarMove ⟨none, .spur, none⟩
  else s

/-- The spur account has fallen: the arbiter is due and a recovery move may start (R104). -/
def State.spurFell (cause : Config.UnitCause) (s : State) : State := s.callArbiter.recover cause

/-- The reported spur occupancy of a SPUR_STATE (R104). -/
def State.setSpur (n : Nat) (s : State) : State :=
  let n := min Config.spurMax n
  let old := s.alloc.spur
  let s := s.onAlloc fun a => { a with spur := n }
  if n < old then s.spurFell .spurState else if old < n then s.callArbiter else s

/-- The move fails: the car becomes FAULT, a context carried receives CAR_FAULT with its timer stopped, and a
WRAPPER report follows (R101). DEDUCED, unsafe (notes/assumptions/25.md). -/
def State.failMove (cause : Config.UnitCause) (s : State) : State :=
  let before := s.alloc.car.state
  let s := s.modCar fun c => { c with state := .fault }
  let s :=
    match s.alloc.car.cargo with
    | .context id => (s.handReason id .carFault).stopTimer id.slot
    | _ => s
  s.reportCar before cause

/-- A READY of the car while FAULT (R101). -/
def State.readyCar (s : State) : State :=
  match s.alloc.car.cargo with
  | .none => (s.setCar .carReady fun c => { c with state := .idle }).callArbiter
  | _ => (s.modCar fun c => { c with recoveryDue := true }).recover .carReady

/-! ### The wrappers -/

/-- The label line a wrapper feeds: 1 for wrappers 1 and 2, 2 for wrappers 3 and 4 (R109). -/
def lineOfWrapper (w : WrapperNo) : LineNo := if w.val < 2 then 0 else 1

/-- A change of a line's held-output order. -/
def State.modHeld (k : LineNo) (f : List WrapperNo → List WrapperNo) (s : State) : State :=
  s.onAlloc fun a => { a with held := a.held.set k (f a.held[k]) }

/-- The WRAP_ORDER of the context a wrapper holds is formed, and its timer starts with wrap_limit (R108). -/
def State.orderWrap (w : WrapperNo) (s : State) : State :=
  match (s.wrapper w).pallet with
  | .context id =>
    (s.modCtx id.slot fun c => { c with timer := some s.params.wrapLimit }).sendWrapOrder w
      ⟨((s.wrapper w).recipe).getD 0, (s.named id).bind (·.licence)⟩
  | _ => s

/-- The end of a warm-up (R107). The WRAPPER report of LOADED is formed before the WRAP_ORDER. DESIGN CHOICE, unsafe
(notes/assumptions/25.md). -/
def State.endWarmUp (w : WrapperNo) (s : State) : State :=
  match (s.wrapper w).pallet with
  | .none => (s.setWrapper w .warmUpEnd fun x => { x with state := .idle, warmTimer := none }).callArbiter
  | .context _ =>
    if (s.wrapper w).progress = some .delivered then
      (s.setWrapper w .warmUpEnd fun x =>
        { x with state := .loaded, progress := some .ordered, warmTimer := none }).orderWrap w
    else s.modWrapper w fun x => { x with warmTimer := none }
  | .orphan => s.modWrapper w fun x => { x with warmTimer := none }

/-- A wrapper enters WARMING, opening an output left held when it comes from a fault; a warm_up of 0 ends the
warm-up at once (R107, R110). The WRAPPER report is formed before the WRAPPER_OUTPUT. DESIGN CHOICE, unsafe
(notes/assumptions/25.md). -/
def State.warm (w : WrapperNo) (cause : Config.UnitCause) (fromFault : Bool) (f : Wrapper → Wrapper) (s : State) :
    State :=
  let s := s.setWrapper w cause fun x => { f x with state := .warming, warmTimer := some x.warmUp }
  let s := if fromFault && (s.wrapper w).lastOutput == .hold then s.sendOutput w .release else s
  if (s.wrapper w).warmUp = 0 then s.endWarmUp w else s

/-- A wrapper record with no pallet. -/
def Wrapper.emptied (x : Wrapper) : Wrapper :=
  { x with pallet := .none, progress := none, recipe := none, afterRelease := .idle }

/-- A wrapper gives up its pallet and takes the state in after release, which is set back to IDLE (R109). -/
def State.giveUp (w : WrapperNo) (cause : Config.UnitCause) (fromFault : Bool) (s : State) : State :=
  match (s.wrapper w).afterRelease with
  | .idle => (s.setWrapper w cause fun x => { x.emptied with state := .idle }).callArbiter
  | .warming => s.warm w cause fromFault Wrapper.emptied
  | .offline => s.setWrapper w cause fun x => { x.emptied with state := .offline }
  | .fault => s.setWrapper w cause fun x => { x.emptied with state := .fault }

/-- The context a wrapper holds joins its label line and becomes QUEUED_LABEL, and the wrapper gives it up
(R109 step 3, R134). The jobs R136 then allows are started before the wrapper's report. DESIGN CHOICE, unsafe
(notes/assumptions/25.md). -/
def State.joinLine (w : WrapperNo) (cause : Config.UnitCause) (fromFault : Bool) (s : State) : State :=
  match (s.wrapper w).pallet with
  | .context id =>
    let k := lineOfWrapper w
    ((((s.modLine k fun l => l ++ [id.slot]).enter id.slot .queuedLabel none).startJobs k).giveUp w cause
      fromFault)
  | _ => s

/-- A wrapped pallet joins its label line, or is held behind a full line (R109 steps 2 to 4). The WRAPPER report of
DONE_HELD is formed before the WRAPPER_OUTPUT HOLD. DESIGN CHOICE, unsafe (notes/assumptions/25.md). -/
def State.finishWrap (w : WrapperNo) (cause : Config.UnitCause) (fromFault : Bool) (s : State) : State :=
  let k := lineOfWrapper w
  if (s.line k).length < Config.labelLineMax ∧ s.alloc.held[k] = [] then s.joinLine w cause fromFault
  else
    ((s.setWrapper w cause fun x => { x with state := .doneHeld, progress := some .done }).modHeld k
      fun l => l ++ [w]).sendOutput w .hold

/-- The first wrappers of a line's held-output order are released while the line has room (R109); `n` bounds
their number. -/
def State.releaseHeld : Nat → LineNo → Config.UnitCause → State → State
  | 0, _, _, s => s
  | n + 1, k, cause, s =>
    match s.alloc.held[k] with
    | [] => s
    | w :: rest =>
      if (s.line k).length < Config.labelLineMax then
        State.releaseHeld n k cause
          (((s.modHeld k fun _ => rest).sendOutput w .release).joinLine w cause false)
      else s

/-- A context has left a label line (R109). -/
def State.lineRoom (k : LineNo) (cause : Config.UnitCause) (s : State) : State :=
  s.releaseHeld (s.alloc.held[k]).length k cause

/-- The dispatch label of the context a wrapper holds is requested at its first WRAP_STARTED, if its verdict is
PASS (R108). -/
def State.firstStart (id : CtxId) (s : State) : State :=
  match s.named id with
  | none => s
  | some c =>
    if c.wrapStarted then s
    else
      let s := s.modCtx id.slot fun c => { c with wrapStarted := true }
      if c.verdict = some .pass then s.requestLabel id .dispatchLabel else s

/-- WRAP_STARTED in LOADED (R108). -/
def State.startWrap (w : WrapperNo) (s : State) : State :=
  let s' := s.setWrapper w .wrapStarted fun x => { x with state := .wrapping, progress := some .started }
  match (s.wrapper w).pallet with
  | .context id => s'.firstStart id
  | _ => s'

/-- WRAP_DONE in LOADED or WRAPPING (R109). -/
def State.endWrap (w : WrapperNo) (s : State) : State :=
  match (s.wrapper w).pallet with
  | .context id =>
    let s := if (s.wrapper w).state = .loaded then s.firstStart id else s
    ((s.stopTimer id.slot).modWrapper w fun x => { x with progress := some .done }).finishWrap w .wrapDone false
  | _ => s

/-- WRAP_FAULT, or the expiry of wrap_limit, at a wrapper, with the reason it gives a context being wrapped
(R110). -/
def State.failWrap (w : WrapperNo) (cause : Config.UnitCause) (r : Reason) (s : State) : State :=
  match (s.wrapper w).state with
  | .loaded | .wrapping =>
    let s :=
      match (s.wrapper w).pallet with
      | .context id => (s.handReason id r).stopTimer id.slot
      | _ => s
    s.setWrapper w cause fun x => { x with state := .fault, progress := some .faulted }
  | .offline | .warming | .idle =>
    s.setWrapper w cause fun x => { x with state := .fault, warmTimer := none }
  | .doneHeld => s.modWrapper w fun x => { x with afterRelease := .fault }
  | .fault => s

/-- READY ends a fault, according to the pallet (R110). DEDUCED, unsafe (notes/assumptions/24.md). -/
def State.endFault (w : WrapperNo) (s : State) : State :=
  match (s.wrapper w).pallet, (s.wrapper w).progress with
  | .context _, some .faulted =>
    (s.modWrapper w fun x => { x with afterRelease := .warming }).finishWrap w .wrapperReady true
  | .orphan, _ => s.warm w .wrapperReady true fun x => { x with pallet := .none }
  | _, _ => s.warm w .wrapperReady true id

/-- READY at a wrapper (R107, R110). -/
def State.readyWrapper (w : WrapperNo) (s : State) : State :=
  let x := s.wrapper w
  match x.state with
  | .offline =>
    if x.pallet = .orphan ∨ x.progress = some .faulted then s.endFault w else s.warm w .wrapperReady false id
  | .fault => s.endFault w
  | .doneHeld =>
    if x.afterRelease = .offline ∨ x.afterRelease = .fault then
      s.modWrapper w fun x => { x with afterRelease := .warming }
    else s
  | .warming | .idle | .loaded | .wrapping => s

/-- STANDBY at a wrapper (R107). -/
def State.standbyWrapper (w : WrapperNo) (s : State) : State :=
  match (s.wrapper w).state with
  | .idle | .fault => s.setWrapper w .standby fun x => { x with state := .offline }
  | .warming => s.setWrapper w .standby fun x => { x with state := .offline, warmTimer := none }
  | .loaded | .wrapping =>
    let s :=
      match (s.wrapper w).pallet with
      | .context id => s.stopTimer id.slot
      | _ => s
    (s.setWrapper w .standby fun x => { x with state := .offline, progress := some .delivered }).dropWrapOrder w
  | .doneHeld => s.modWrapper w fun x => { x with afterRelease := .offline }
  | .offline => s

/-- A wrapper is left with, or takes, an orphan: FAULT, out of the held-output order, its warm-up timer stopped,
a pending WRAP_ORDER dropped and after release IDLE (R111). -/
def State.orphanWrapper (w : WrapperNo) (cause : Config.UnitCause) (s : State) : State :=
  ((s.modHeld (lineOfWrapper w) fun l => l.erase w).dropWrapOrder w).setWrapper w cause fun x =>
    { x.emptied with state := .fault, pallet := .orphan, warmTimer := none }

/-- The context of a closure is no longer what the car carries or a wrapper holds: an orphan is (R102, R111). -/
def State.orphan (id : CtxId) (cause : Config.UnitCause) (s : State) : State :=
  let s :=
    if s.alloc.car.cargo = .context id then s.modCar fun c => { c with cargo := .orphan } else s
  allWrappers.foldl
    (fun s w => if (s.wrapper w).pallet = .context id then s.orphanWrapper w cause else s) s

/-! ### MOVE_DONE (R100) -/

/-- A context is set down at a wrapper. DEDUCED, unsafe (notes/assumptions/24.md). The WRAPPER report of LOADED is formed
before the WRAP_ORDER. DESIGN CHOICE, unsafe (notes/assumptions/25.md). -/
def State.deliver (id : CtxId) (w : WrapperNo) (recipe : Option Nat) (s : State) : State :=
  let s := s.modCtx id.slot fun c => { c with wrapper := some w }
  let load (p : Progress) (x : Wrapper) : Wrapper :=
    { x with pallet := .context id, progress := some p, recipe := recipe }
  match (s.wrapper w).state with
  | .idle =>
    ((s.setWrapper w .moveDone fun x => { load .ordered x with state := .loaded }).enter id.slot .wrapping
      none).orderWrap w
  | .offline | .warming | .fault | .loaded | .wrapping | .doneHeld =>
    (s.modWrapper w (load .delivered)).enter id.slot .wrapping none

/-- A context is set down at the reject spur: it enters TICKETING and takes its place in the ticket order. -/
def State.toSpur (id : CtxId) (s : State) : State :=
  ((s.enter id.slot .ticketing none).onLabels fun d => { d with tickets := d.tickets ++ [id.slot] }).startTicket

/-- The car becomes IDLE with no cargo. -/
def State.carIdle (s : State) : State :=
  (s.setCar .moveDone fun c =>
    { c with state := .idle, cargo := .none, source := none, dest := none, recipe := none }).callArbiter

/-- MOVE_DONE while the car is MOVING (R100). -/
def State.endMove (s : State) : State :=
  let x := s.alloc.car
  match x.cargo with
  | .context id =>
    match s.named id with
    | none => s.carIdle.settle .moveDone
    | some c =>
      let s := s.leaveLane id.slot c.lane
      let s :=
        match x.dest with
        | some (.wrapper w) => s.deliver id w x.recipe
        | _ => s.toSpur id
      (s.carIdle.settle .moveDone).infeedDecision c.lane
  | _ =>
    let s :=
      match x.dest with
      | some (.wrapper w) => s.orphanWrapper w .moveDone
      | _ => s
    s.carIdle.settle .moveDone

end Sys2Proof.Machine
end

