-- ==== Sys2Proof/Machine/Modes.lean ====
section
/-! DEFINITION. Sys2Proof/Machine/Modes.lean: the changes of line mode and of REJECT_ALL, and their MODE
reports (R173 to R180). -/

namespace Sys2Proof.Machine

open Sys2Proof

/-- The MODE report of a change, from the mode before it (R173). -/
def State.modeReport (cause : ModeCause) (before : LineMode) (s : State) : State :=
  s.report (.mode
    { before := before, after := s.ctl.mode,
      held := if s.ctl.mode = .isolated then s.ctl.held else none,
      cause := cause, currency := s.holds.currency, generation := s.holds.generation, day := s.holds.day,
      rejectAll := s.ctl.rejectAll })

/-- RUN with a CURRENT hold list, DEGRADED with a STALE one (R174). -/
def State.runMode (s : State) : LineMode := if s.holds.currency = .current then .run else .degraded

/-- The mode and the REJECT_ALL level set together. -/
def State.setMode (m : LineMode) (reject : Bool) (s : State) : State :=
  s.onCtl fun c => { c with mode := m, rejectAll := reject }

/-- The line enters STOPPED: REJECT_ALL is asserted and every infeed receives STOP (R175, R176). DESIGN CHOICE,
unsafe (notes/assumptions/21.md). -/
def State.enterStopped (cause : ModeCause) (s : State) : State :=
  ((s.setMode .stopped true).infeedAll).modeReport cause s.ctl.mode

/-- GO taken in START, STOPPED or DRAIN (R174). DESIGN CHOICE, unsafe (notes/assumptions/21.md). -/
def State.enterRun (s : State) : State :=
  ((s.setMode s.runMode false).infeedAll).modeReport .go s.ctl.mode

/-- DRAIN taken with a context open (R175). -/
def State.enterDrain (s : State) : State :=
  ((s.setMode .drain s.ctl.rejectAll).infeedAll).modeReport .drain s.ctl.mode

/-- REJECT_ALL deasserted by CLEAR_REJECT_ALL (R180). -/
def State.clearReject (s : State) : State :=
  (s.onCtl fun c => { c with rejectAll := false }).modeReport .clearRejectAll s.ctl.mode

/-- The last open context has closed (R51 step 5, R175). The MODE report of a held mode DRAIN that ends has the cause
DRAIN_COMPLETE. DESIGN CHOICE, unsafe (notes/assumptions/38.md). -/
def State.drained (s : State) : State :=
  match s.ctl.mode, s.ctl.held with
  | .drain, _ => s.enterStopped .drainComplete
  | .isolated, some .drain =>
    (s.onCtl fun c => { c with held := some .stopped }).modeReport .drainComplete .isolated
  | _, _ => s

/-- A mode as a change of the currency state leaves it (R179). -/
def followCurrency (c : Currency) : LineMode → LineMode
  | .run | .degraded => if c = .current then .run else .degraded
  | m => m

/-- The currency state takes a value; a change of it is followed by the mode and forms one MODE report (R31,
R179). -/
def State.setCurrency (x : Currency) (s : State) : State :=
  if s.holds.currency = x then s
  else
    ((s.onHolds fun h => { h with currency := x }).onCtl fun c =>
      { c with mode := followCurrency x c.mode, held := c.held.map (followCurrency x) }).modeReport .currency
        s.ctl.mode

/-- The ring has returned: the mode becomes the held mode (R178). -/
def State.ringReturned (s : State) : State :=
  match s.ctl.mode, s.ctl.held with
  | .isolated, some m => (s.onCtl fun c => { c with mode := m, held := none }).modeReport .ringReturn .isolated
  | _, _ => s

end Sys2Proof.Machine
end

