-- ==== Sys2Proof/Machine/Close.lean ====
section
/-! DEFINITION. Sys2Proof/Machine/Close.lean: the closing of a context (R51): what each block does when it
learns of it (R12, R102, R109, R111, R131, R134, R138, R146, R156). The order of the steps the manual does not
order is in notes/assumptions/9.md. -/

namespace Sys2Proof.Machine

open Sys2Proof

/-- The plan of a closed context (R12): USED after RELEASED or UNCONFIRMED, LOADED after any other outcome. -/
def planAfter (o : Closure) (p : Plan) : Plan :=
  match o with
  | .released | .unconfirmed => { p with state := .used, bound := none }
  | .rejected | .cleared | .halted | .divertedByLine => { p with state := .loaded, bound := none }

/-- The applicator that has a context's job: its label line's, or the reject applicator. -/
def State.applicatorOf (s : State) (i : Slot) : RoleInst :=
  match s.lineOf i with
  | some k => .labelApplicator k
  | none => .rejectApplicator

/-- The CLOSED report of a context (R51). -/
def closedReport (i : Slot) (c : Context) (o : Closure) : Report :=
  .closed
    { slot := i, adm := c.adm, licence := c.licence, lane := c.lane, planSlot := c.planSlot,
      verdict := c.verdict, reasons := c.reasons, outcome := o, labelVoid := c.labelVoid,
      unconfirmed := c.unconfirmed, diverted := c.diverted }

/-- Step 1 of R51: the phase timer stops and the context leaves its lane queue, with the infeed decision of its
lane; the context behind it may become a lane head (R103). -/
def State.closeLane (i : Slot) (c : Context) (s : State) : State :=
  let s := s.stopTimer i
  if (s.queue c.lane).contains i then
    let wasHead := s.laneHead c.lane = some i
    let s := (s.leaveLane i c.lane).infeedDecision c.lane
    if wasHead ∧ s.queue c.lane ≠ [] then s.callArbiter else s
  else s

/-- Step 2 of R51. -/
def State.closePlan (c : Context) (o : Closure) (s : State) : State :=
  match c.planSlot with
  | some n => s.modPlan n (planAfter o)
  | none => s

/-- The Composer removes the request of a closed context (R131). -/
def State.closeComposer (id : CtxId) (s : State) : State :=
  s.onComposer fun x => { x with queue := x.queue.filter fun r => r.ctx ≠ id }

/-- A closed context leaves the label line or the ticket order (R134, R146). -/
def State.closeQueues (i : Slot) (s : State) : State :=
  s.onLabels fun d => { d with
    lines := d.lines.map fun l => l.erase i
    tickets := d.tickets.erase i }

/-- The emissions of a closing context: its pending LABEL_CANCEL orders pass to a holder of the closure, which
takes the context's place in the pending list (R156). -/
def State.closeHolder (id : CtxId) (os : List Order) (s : State) : State :=
  let cancels := os.filter Order.isCancel
  s.onRing fun r =>
    if cancels = [] then { r with waiting := r.waiting.erase (.context id.slot) }
    else { r with
      waiting := r.waiting.map fun h => if h = .context id.slot then .closure id else h
      closures := r.closures ++ [(id, cancels)] }

/-- The cause of the WRAPPER reports a closure's orphan gives (R113). -/
def orphanCause (o : Closure) : Config.UnitCause := if o = .halted then .halt else .contextLost

/-- What follows a departure from label line k: room for a held wrapper (R109) and the jobs R136 allows. -/
def State.leftLine (k : LineNo) (cause : Config.UnitCause) (s : State) : State := (s.lineRoom k cause).startJobs k

/-- What follows a departure from the ticket order: the next job (R146) and the fall of the spur account
(R104). -/
def State.leftTickets (cause : Config.UnitCause) (s : State) : State := s.startTicket.spurFell cause

/-- No context is open. -/
def State.noneOpen (s : State) : Bool := s.openSlots.isEmpty

/-- The open context in a slot closes (R51). DESIGN CHOICE, unsafe (notes/assumptions/9.md). -/
def State.closeContext (o : Closure) (cause : Config.UnitCause) (i : Slot) (s : State) : State :=
  match s.ctx i with
  | none => s
  | some c =>
    let id : CtxId := ⟨i, c.adm⟩
    let line := s.lineOf i
    let ticket := s.labels.tickets.contains i
    let s := s.withdraw (s.applicatorOf i) true i
    let s := (((s.closeLane i c).closePlan c o).report (closedReport i c o)).closeComposer id
    let s := s.closeQueues i
    let s := s.closeHolder id (((s.ctx i).map (·.orders)).getD [])
    let s := (s.putCtx i none).orphan id (orphanCause o)
    let s :=
      match line with
      | some k => s.leftLine k cause
      | none => if ticket then s.leftTickets cause else s
    let s := if s.noneOpen then s.drained else s
    s.settle cause

/-- Several closures, one after another. -/
def State.closeAll (o : Closure) (cause : Config.UnitCause) (is : List Slot) (s : State) : State :=
  is.foldl (fun s i => s.closeContext o cause i) s

end Sys2Proof.Machine
end

