-- ==== Sys2Proof/Machine/Holds.lean ====
section
/-! DEFINITION. Sys2Proof/Machine/Holds.lean: the Hold Register's matching (R24), its late-hold and escape
searches (R33, R35, R36), and the released log (R144, R147). -/

namespace Sys2Proof.Machine

open Sys2Proof

/-! ### The list (R22) -/

/-- The order of hold keys (R22). -/
def ltHoldKey (a b : Text × Text) : Bool :=
  ltText a.1 b.1 || (a.1 == b.1 && ltText (padLot a.2) (padLot b.2))

/-- The key of a hold. -/
def Hold.key (h : Hold) : Text × Text := (h.article, h.lot)

/-- Keys are equal (R22). -/
def sameHoldKey (a b : Text × Text) : Bool := a.1 == b.1 && lotEq a.2 b.2

/-- The hold of a key. -/
def State.hold (s : State) (k : Text × Text) : Option Hold := s.holds.list.find? fun h => sameHoldKey h.key k

/-- A hold put in the list, replacing the one of its key or standing at its place in key order (R25). -/
def putHold (h : Hold) : List Hold → List Hold
  | [] => [h]
  | x :: xs =>
    if sameHoldKey h.key x.key then h :: xs
    else if ltHoldKey h.key x.key then h :: x :: xs
    else x :: putHold h xs

/-- A hold matches an (article, lot) pair (R24). -/
def Hold.hits (h : Hold) (p : Text × Option Text) : Bool :=
  match p.2 with
  | some l => lotEq h.lot l && (h.article == p.1 || h.article == anyArticle)
  | none => false

/-- The matching hold of a pair: the one of its article before the "any article" one (R24). -/
def State.matchingHold (s : State) (p : Text × Option Text) : Option Hold :=
  match p.2 with
  | some l => (s.hold (p.1, l)).or (s.hold (anyArticle, l))
  | none => none

/-- The pair of a tally line. -/
def TallyLine.pair (l : TallyLine) : Text × Option Text := (l.content.article, l.content.lot)

/-! ### Late holds (R33) -/

/-- The context of a slot gains LOT_HELD_LATE from a hold. -/
def gainsLateHold (h : Hold) (c : Context) : Bool :=
  c.verdict.isSome && c.tally.lines.any (fun l => h.hits l.pair) && !c.reasons.contains .lotHeldLate

/-- The late-hold search, with the number of contexts to which LOT_HELD_LATE was added (R33); they are handed the
reason in ascending slot order. DESIGN CHOICE, unsafe (notes/assumptions/33.md). -/
def State.lateHolds (h : Hold) (s : State) : Nat × State :=
  let is := s.slotsWhere (gainsLateHold h)
  (is.length, s.handAll is .lotHeldLate)

/-! ### Escapes (R35 to R37) -/

/-- The ESCAPE report of a log entry, a pair of it and the hold that matched (R22, R37). -/
def State.escapeOf (s : State) (e : LogEntry) (p : Text × Option Text) (h : Hold) : EscapeReport :=
  { licence := e.licence, consignment := e.consignment, bay := e.bay, sequence := e.sequence,
    article := p.1, lot := p.2, reason := h.reason, code := h.code, placed := h.placed,
    unconfirmed := e.unconfirmed, generation := s.holds.generation }

/-- The escape search for one hold over some log entries, oldest first: how many matched and how many reports
were queued (R35, R148). -/
def State.escapeSearch (h : Hold) : List LogEntry → State → (Nat × Nat) × State
  | [], s => ((0, 0), s)
  | e :: rest, s =>
    match e.pairs.find? h.hits with
    | some p =>
      let queued := if s.holds.escapes.length < Config.escapeMax then 1 else 0
      let out := State.escapeSearch h rest (s.escape (s.escapeOf e p h))
      ((out.1.1 + 1, out.1.2 + queued), out.2)
    | none => State.escapeSearch h rest s

/-- A newly written log entry is compared with the whole hold list (R36). -/
def State.escapeOfEntry (e : LogEntry) (s : State) : State :=
  match e.pairs.findSome? fun p => (s.matchingHold p).map fun h => (p, h) with
  | some (p, h) => s.escape (s.escapeOf e p h)
  | none => s

/-! ### The released log (R147) -/

/-- The release sequence after n (R147). -/
def sequenceAfter (n : Nat) : Nat := if n < Config.max32 then n + 1 else 1

/-- The entry of a context that leaves for a bay (R147). -/
def State.entryOf (s : State) (c : Context) (bay : Nat) (unconfirmed : Bool) : LogEntry :=
  { sequence := s.labels.nextRelease, licence := c.licence.getD [],
    consignment := ((s.boundPlan c).map (·.consignment)).getD [], bay := bay, day := s.holds.day,
    unconfirmed := unconfirmed, pairs := c.tally.pairs }

/-- An entry appended to the log, the oldest of 256 being removed, and the sequence advanced (R147). -/
def State.writeEntry (e : LogEntry) (s : State) : State :=
  s.onLabels fun d => { d with
    log := (if d.log.length < Config.logMax then d.log else d.log.drop 1) ++ [e]
    nextRelease := sequenceAfter d.nextRelease }

end Sys2Proof.Machine
end

