-- ==== Sys2Proof/Machine/Exit.lean ====
section
/-! DEFINITION. Sys2Proof/Machine/Exit.lean: the Label and Exit Dispatcher at the applicators, the exit switches
and the release (R137 to R147, R7). -/

namespace Sys2Proof.Machine

open Sys2Proof

/-! ### Jobs and the applicator (R137, R139) -/

/-- A context with an outstanding job of a serial. -/
def Context.hasJob (n : Nat) (c : Context) : Bool := c.job.any fun j => j.serial == n

/-- A job record set to TAKEN. -/
def State.jobTaken (i : Slot) (s : State) : State :=
  s.modCtx i fun c => { c with job := c.job.map fun j => { j with stage := .taken } }

/-- A job in PLACING or SENT with a serial. -/
def Context.awaitsTaken (n : Nat) (c : Context) : Bool :=
  c.job.any fun j => j.serial == n && j.stage != .taken

/-- JOB_TAKEN from label applicator k (R137). -/
def State.lineJobTaken (k : LineNo) (n : Nat) (src : Byte) (s : State) : State :=
  match (s.line k).find? fun i => (s.ctx i).any (Context.awaitsTaken n) with
  | some i => s.jobTaken i
  | none => s.stray kLabelEvent src none none .noCandidate

/-- The LABELLING context of line k. -/
def State.labelling (s : State) (k : LineNo) : Option Slot :=
  (s.line k).find? fun i => (s.ctx i).any fun c => c.phase == .labelling

/-- PALLET_AT_LABEL from label applicator k (R139). -/
def State.palletAtLabel (k : LineNo) (src : Byte) (s : State) : State :=
  match s.labelling k with
  | some _ => s.stray kLabelEvent src none none .alreadyStarted
  | none =>
    match (s.line k).find? fun i => (s.ctx i).any fun c => c.phase == .queuedLabel with
    | some i => s.enter i .labelling (some s.params.labelLimit)
    | none => s.stray kLabelEvent src none none .noCandidate

/-! ### The route (R142) -/

/-- The destination read when the route is formed: the bay with the verdict PASS, unless LATE_REJECT is asked
for. -/
def State.routeDest (s : State) (c : Context) (late : Bool) : RouteDest :=
  if !late && c.verdict == some .pass then ((s.boundConsignment c).map fun x => .bay x.bay).getD .lateReject
  else .lateReject

/-- The ROUTE of a context of line k is formed, and the context becomes EXITING (R142). -/
def State.formRoute (k : LineNo) (i : Slot) (late : Bool) (s : State) : State :=
  match s.ctx i with
  | none => s
  | some c =>
    let d := s.routeDest c late
    let s := (s.modCtx i fun c => { c with route := some d }).enter i .exiting (some s.params.exitLimit)
    (s.sendOrders i [.route (.exitSwitch k) c.licence d]).startJobs k

/-! ### APPLIED and the faults (R140, R141) -/

/-- The job state of a context becomes NONE. -/
def State.endJob (i : Slot) (s : State) : State := s.modCtx i fun c => { c with job := none }

/-- The other context of line k whose outstanding job has a serial. -/
def State.otherJob (s : State) (k : LineNo) (i : Slot) (n : Nat) : Option Slot :=
  (s.line k).find? fun j => j ≠ i && (s.ctx j).any (Context.hasJob n)

/-- The label of another context went on this pallet (R140). DEDUCED, unsafe (notes/assumptions/17.md). R136 is not
applied between the withdrawal and the ROUTE. DESIGN CHOICE, unsafe (notes/assumptions/29.md). -/
def State.swapped (k : LineNo) (i j : Slot) (s : State) : State :=
  ((((s.endJob j).handSlot i .labelReadback).handSlot j .labelReadback).withdraw (.labelApplicator k) true
    i).formRoute k i true

/-- APPLIED from label applicator k, with its serial and readback (R140); a STRAY report carries the readback as the
licence the telegram carried (R51). With a voided serial R136 is not applied between the withdrawal and the ROUTE. DESIGN
CHOICE, unsafe (notes/assumptions/29.md). -/
def State.applied (k : LineNo) (n : Nat) (readback : Option Text) (src : Byte) (s : State) : State :=
  match s.labelling k with
  | none => s.stray kLabelEvent src none readback .noCandidate
  | some i =>
    match s.ctx i with
    | none => s
    | some c =>
      if c.hasJob n then
        if c.job.any fun j => j.kind == .rejectTicket then (s.endJob i).formRoute k i false
        else if readback.isSome && readback == c.licence then (s.endJob i).formRoute k i false
        else ((s.endJob i).handSlot i .labelReadback).formRoute k i true
      else if c.voided = some n then
        ((s.modCtx i fun c => { c with labelVoid := true }).withdraw (.labelApplicator k) true i).formRoute k i
          true
      else
        match s.otherJob k i n with
        | some j => s.swapped k i j
        | none => s.stray kLabelEvent src none readback .noCandidate

/-- A fault or timeout of the LABELLING context: the reason is handed, its job withdrawn and its ROUTE formed
(R141). R136 is applied once, after step 3, and not at the withdrawal of step 2, when the context is still unlabelled
and a withdrawn reject ticket could be started again. DESIGN CHOICE, unsafe (notes/assumptions/29.md). -/
def State.failLabel (k : LineNo) (i : Slot) (r : Reason) (s : State) : State :=
  ((s.handSlot i r).withdraw (.labelApplicator k) true i).formRoute k i true

/-- APPLY_FAULT from label applicator k (R141). -/
def State.applyFault (k : LineNo) (src : Byte) (s : State) : State :=
  match s.labelling k with
  | some i => s.failLabel k i .labelFault
  | none => s.stray kLabelEvent src none none .noCandidate

/-! ### Release (R7, R144, R145) -/

/-- An addition that saturates (section 1.3). -/
def saturate (most a b : Nat) : Nat := min most (a + b)

/-- What a release of a pallet with a plan and a gross weight adds to a consignment's totals (R7). -/
def State.totalsAfter (s : State) (p : Plan) (gross : Nat) (t : Totals) : Totals :=
  { pallets := saturate 65535 t.pallets 1
    cases := saturate Config.max48 t.cases (p.lines.map (·.count)).sum
    netGrams := saturate Config.max48 t.netGrams (netWeight gross p.tare)
    dutiableCl := saturate Config.max48 t.dutiableCl
      (dutiableVolume (p.lines.filterMap fun l => (s.article l.article).map fun a => (l, a))) }

/-- A release is added to the totals of its plan's consignment, and the plan becomes USED (R7, R12). -/
def State.addRelease (c : Context) (s : State) : State :=
  match s.boundPlan c with
  | none => s
  | some p =>
    let add (x : Consignment) : Consignment :=
      if x.number = p.consignment then { x with totals := s.totalsAfter p (c.weight.getD 0) x.totals } else x
    (s.onRefs fun r => { r with consignments := r.consignments.map add }).modPlan p.slot (planAfter .released)

/-- The release of a pallet confirmed at a bay, and its closure (R144). -/
def State.release (i : Slot) (c : Context) (bay : Nat) (s : State) : State :=
  let e := s.entryOf c bay false
  (((s.writeEntry e).addRelease c).escapeOfEntry e).closeContext .released .routed i

/-- ROUTED from exit switch k, with a licence and the actual destination, none for REJECT (R143). DEDUCED,
unsafe (notes/assumptions/17.md). -/
def State.routed (k : LineNo) (licence : Option Text) (bay : Option Nat) (src : Byte) (s : State) : State :=
  let isMatch (c : Context) : Bool := c.phase == .exiting && licence.isSome && c.licence == licence
  match (s.line k).find? fun i => (s.ctx i).any isMatch with
  | none => s.stray kRouted src none licence .noCandidate
  | some i =>
    match s.ctx i with
    | none => s
    | some c =>
      match bay, c.route with
      | some b, _ => s.release i c b
      | none, some (.bay _) =>
        (s.modCtx i fun c => { c with diverted := true }).closeContext .divertedByLine .routed i
      | none, _ => s.closeContext .rejected .routed i

/-- The expiry of exit_limit for an EXITING context (R145). -/
def State.exitExpired (i : Slot) (s : State) : State :=
  match s.ctx i with
  | none => s
  | some c =>
    let s := s.modCtx i fun c => { c with unconfirmed := true }
    match c.route with
    | some (.bay b) =>
      let e := s.entryOf c b true
      ((s.writeEntry e).escapeOfEntry e).closeContext .unconfirmed .exitLimit i
    | _ => s.closeContext .rejected .exitLimit i

/-! ### The reject applicator (R146) -/

/-- The first context of the ticket order, if its outstanding job passes a test. -/
def State.ticketWith (s : State) (p : Job → Bool) : Option Slot :=
  match s.labels.tickets with
  | i :: _ => if (s.ctx i).any fun c => c.job.any p then some i else none
  | [] => none

/-- JOB_TAKEN from the reject applicator (R137, R146). -/
def State.ticketTaken (n : Nat) (src : Byte) (s : State) : State :=
  match s.ticketWith fun j => j.serial == n && j.stage != .taken with
  | some i => s.jobTaken i
  | none => s.stray kLabelEvent src none none .noCandidate

/-- APPLIED from the reject applicator, with its serial and readback: the job is done, and the context closes (R146);
the readback is only shown, in a STRAY report, as the licence carried (R51). DEDUCED, unsafe
(notes/assumptions/16.md). -/
def State.ticketApplied (n : Nat) (readback : Option Text) (src : Byte) (s : State) : State :=
  match s.ticketWith fun j => j.serial == n with
  | some i => (s.endJob i).closeContext .rejected .ticketApplied i
  | none => s.stray kLabelEvent src none readback .noCandidate

/-- APPLY_FAULT from the reject applicator, against the outstanding job of the first context (R146). DEDUCED,
unsafe (notes/assumptions/16.md). -/
def State.ticketFault (src : Byte) (s : State) : State :=
  match s.ticketWith fun _ => true with
  | some i => (s.handSlot i .labelFault).closeContext .rejected .ticketFault i
  | none => s.stray kLabelEvent src none none .noCandidate

end Sys2Proof.Machine
end

