-- ==== Sys2Proof/Machine/Decide.lean ====
section
/-! DEFINITION. Sys2Proof/Machine/Decide.lean: the Reconciler's decision attempts (R75 to R80), its checks (R81
to R89), the verdict and record (R90, R91), and the lane scales (R94, R95). -/

namespace Sys2Proof.Machine

open Sys2Proof

/-! ### Prerequisites (R76, R77) -/

/-- The reasons that decide a context at once (R76). -/
def Context.shortcut (c : Context) : Bool :=
  [Reason.noLicence, .duplicateLicence, .licenceReused, .draining].any fun r => c.reasons.contains r

/-- The waiting items of the prerequisites not met, in the order of R77. -/
def State.waitingItems (s : State) (c : Context) : List WaitItem :=
  (match s.boundPlan c with
    | none => [.noPlan]
    | some p => if (s.resolve p).isNone then [.unresolvedRef] else [])
  ++ (if s.holds.currency = .current then [] else [.holdsStale])
  ++ (if s.holds.day.isSome then [] else [.noDay])

/-! ### The checks (R81 to R89) -/

/-- What a decision reads (R81): the context, its plan and the resolved entries, the dispatch day, the
parameters and the scale of the lane. -/
structure Inputs where
  ctx         : Context
  plan        : Plan
  consignment : Consignment
  articles    : List Article
  day         : Nat
  params      : Params
  scale       : Scale

/-- The plan lines with their article entries. -/
def Inputs.pairs (x : Inputs) : List (PlanLine × Article) := x.plan.lines.zip x.articles

/-- The sum of the counts of some tally lines. -/
def countSum (ls : List TallyLine) : Nat := (ls.map (·.count)).sum

/-- The sighted count of an article (R81). -/
def Inputs.sighted (x : Inputs) (a : Text) : Nat := countSum (linesOf a x.ctx.tally.lines)

/-- A reason where a condition holds. -/
def failing (r : Reason) (b : Bool) : List Reason := if b then [r] else []

/-- Check 2: a tally line's article equals no plan-line article (R82). -/
def Inputs.foreignArticle (x : Inputs) : Bool :=
  x.ctx.tally.lines.any fun t => !x.plan.lines.any fun l => l.article == t.content.article

/-- Check 3: a sighted count is below min(planned count, S) (R82). -/
def Inputs.unsighted (x : Inputs) : Bool :=
  x.plan.lines.any fun l => decide (x.sighted l.article < min l.count x.consignment.sightings)

/-- Check 4: a sighted count is above the planned count (R82). -/
def Inputs.overCount (x : Inputs) : Bool :=
  x.plan.lines.any fun l => decide (l.count < x.sighted l.article)

/-- Check 5: an article has too many distinct present lots (R83). -/
def Inputs.mixedLots (x : Inputs) : Bool :=
  x.ctx.tally.lines.any fun t =>
    decide (x.consignment.maxLots < (distinctLots (linesOf t.content.article x.ctx.tally.lines)).length)

/-- Check 5: a tally line has no lot (R83). -/
def Inputs.noLot (x : Inputs) : Bool := x.ctx.tally.lines.any fun t => t.content.lot.isNone

/-- Check 7 for one plan line (R85). -/
def Inputs.shelfLife (x : Inputs) (l : PlanLine) : List Reason :=
  if x.sighted l.article = 0 then []
  else
    match earliest (linesOf l.article x.ctx.tally.lines) with
    | none => [.noDate]
    | some b =>
      if b < x.day then [.expired]
      else if b - x.day < x.consignment.minShelfLife then [.shortLife]
      else []

/-- Expected weight (R86). -/
def Inputs.expectedWeight (x : Inputs) : Nat :=
  x.plan.tare + (x.pairs.map fun p => p.1.count * p.2.caseWeight).sum

/-- Weight tolerance (R86). -/
def Inputs.weightTolerance (x : Inputs) : Nat :=
  min x.params.weightTolCap (x.params.baseWeightTol + (x.pairs.map fun p => p.1.count * p.2.caseTol).sum)

/-- The figures of check 8 when it compares: the weight is present and the scale NORMAL (R86). -/
def Inputs.weightFigures (x : Inputs) : Option WeightFigures :=
  match x.ctx.weight, x.scale.state with
  | some w, .normal =>
    some ⟨x.expectedWeight, x.weightTolerance, w, (w : Int) - (x.expectedWeight : Int)⟩
  | _, _ => none

/-- The deviation is above the tolerance (R86). -/
def WeightFigures.fails (f : WeightFigures) : Bool := decide (f.tolerance < f.deviation.natAbs)

/-- The reasons of check 8 (R86). -/
def Inputs.weightReasons (x : Inputs) : List Reason :=
  match x.ctx.weight, x.scale.state with
  | none, _ => []
  | some _, .suspect => [.scaleSuspect]
  | some _, .normal =>
    match x.weightFigures with
    | some f => failing (if f.deviation < 0 then .underWeight else .overWeight) f.fails
    | none => []

/-- The case estimate of a failed check 8 (R87). -/
def Inputs.caseEstimate (x : Inputs) : Option Nat :=
  match x.weightFigures, (x.articles.map (·.caseWeight)).min? with
  | some f, some w => if f.fails then some (min 255 ((2 * f.deviation.natAbs + w) / (2 * w))) else none
  | _, _ => none

/-- Expected height (R88). -/
def Inputs.expectedHeight (x : Inputs) : Nat :=
  x.plan.baseHeight
    + (x.pairs.map fun p => (p.1.count * p.2.layerHeight + p.2.casesPerLayer - 1) / p.2.casesPerLayer).sum

/-- The figures of check 9 when it compares (R88). -/
def Inputs.heightFigures (x : Inputs) : Option HeightFigures :=
  x.ctx.height.map fun h => ⟨x.expectedHeight, h⟩

/-- Check 9 fails (R88). -/
def Inputs.heightFails (x : Inputs) : Bool :=
  x.heightFigures.any fun f =>
    decide (x.params.heightTol < ((f.measured : Int) - (f.expected : Int)).natAbs)

/-- The reasons the checks add; `held` says that a tally line matches the hold list (R84). -/
def Inputs.checks (x : Inputs) (held : Bool) : List Reason :=
  failing .foreignArticle x.foreignArticle ++ failing .unsighted x.unsighted
    ++ failing .overCount x.overCount ++ failing .mixedLots x.mixedLots ++ failing .noLot x.noLot
    ++ failing .lotHeld held ++ x.plan.lines.flatMap x.shelfLife ++ x.weightReasons
    ++ failing .height x.heightFails
    ++ failing .unreadable (decide (x.params.unknownAllowance < x.ctx.tally.unknownCount))

/-! ### The scales (R94, R95) -/

/-- A lane's scale after the result of check 8 (R94). -/
def scaleAfter (streakLimit : Nat) (f : Option WeightFigures) (x : Scale) : Scale :=
  match f with
  | none => x
  | some f =>
    if f.fails then
      let n := min 8 (x.streak + 1)
      ⟨if streakLimit ≤ n then .suspect else x.state, n⟩
    else { x with streak := 0 }

/-- The streak is updated, with a LANE report when the scale becomes SUSPECT (R94). -/
def State.updateScale (l : Lane) (f : Option WeightFigures) (s : State) : State :=
  let old := s.scale l
  let new := scaleAfter s.params.scaleStreak f old
  let s := s.putScale l new
  if old.state = .normal ∧ new.state = .suspect then s.report (.lane (.scaleSuspect l new.streak)) else s

/-- A lane's scale is cleared, with a LANE report if it was SUSPECT (R95). -/
def State.clearScale (l : Lane) (source : Byte) (s : State) : State :=
  let old := s.scale l
  let s := s.putScale l ⟨.normal, 0⟩
  if old.state = .suspect then s.report (.lane (.scaleNormal l source)) else s

/-! ### Forming the verdict (R90) -/

/-- The timer of a context that has just been decided (R47). -/
def State.decidedTimer (s : State) (v : Verdict) : Option Nat :=
  if v = .pass then some s.params.wrapWaitLimit else none

/-- A decision is completed with a reason set, a verdict and the figures of the checks that ran; the record's
tally counts, scale and time are filled in here (R90, R91). DESIGN CHOICE, unsafe (notes/assumptions/21.md). -/
def State.conclude (i : Slot) (c : Context) (cause : VerdictCause) (reasons : List Reason) (v : Verdict)
    (weight : Option WeightFigures) (estimate : Option Nat) (height : Option HeightFigures)
    (sighted : Option (List Nat)) (s : State) : State :=
  let s := s.updateScale c.lane weight
  let record : DecisionRecord :=
    { weight := weight, estimate := estimate, height := height, sighted := sighted,
      unknown := c.tally.unknownCount, duplicates := c.tally.duplicates,
      scale := (s.scale c.lane).state, streak := (s.scale c.lane).streak, time := s.recon.clock }
  let c' : Context :=
    { c with verdict := some v, reasons := reasons, waiting := [], record := some record,
             phase := .atHeadDecided, timer := s.decidedTimer v }
  let s := ((s.putCtx i (some c')).report (verdictReport i c' cause v)).callArbiter
  if v = .pass then s else s.requestLabel ⟨i, c.adm⟩ .rejectTicket

/-- A context is decided by the identity shortcut (R76). -/
def State.decideAtOnce (i : Slot) (c : Context) (s : State) : State :=
  s.conclude i c .decided c.reasons (Verdict.rework.max (severityOf c.reasons)) none none none none

/-- A context is decided by the checks (R81 to R90). -/
def State.decideByChecks (i : Slot) (x : Inputs) (s : State) : State :=
  let held := x.ctx.tally.lines.any fun t => (s.matchingHold t.pair).isSome
  let reasons := insertReasons (x.checks held) x.ctx.reasons
  s.conclude i x.ctx .decided reasons (severityOf reasons) x.weightFigures x.caseEstimate x.heightFigures
    (some (x.plan.lines.map fun l => x.sighted l.article))

/-- A context is parked: its waiting items become reasons (R80). -/
def State.park (i : Slot) (s : State) : State :=
  match s.ctx i with
  | none => s
  | some c =>
    let reasons := insertReasons (c.waiting.map WaitItem.reason) c.reasons
    s.conclude i c .parked reasons (Verdict.park.max (severityOf reasons)) none none none none

/-- A context waits with the items that are missing; a decision_limit of 0 parks it on entry (R48, R77, R80). -/
def State.wait (i : Slot) (c : Context) (items : List WaitItem) (s : State) : State :=
  if c.phase = .waiting then s.putCtx i (some { c with waiting := items })
  else
    let n := s.params.decisionLimit
    let s := s.putCtx i (some { c with waiting := items, phase := .waiting, timer := some n })
    if n = 0 then s.park i else s

/-- The inputs of a decision whose prerequisites are met (R81). -/
def State.inputs (s : State) (c : Context) : Option Inputs :=
  match s.boundPlan c, s.holds.day with
  | some p, some d =>
    (s.resolve p).map fun r => ⟨c, p, r.1, r.2, d, s.params, s.scale c.lane⟩
  | _, _ => none

/-- A decision attempt for a context without a verdict (R75 to R77). -/
def State.attempt (i : Slot) (s : State) : State :=
  match s.ctx i with
  | none => s
  | some c =>
    if c.verdict.isSome then s
    else if c.shortcut then s.decideAtOnce i c
    else
      match s.waitingItems c, s.inputs c with
      | [], some x => s.decideByChecks i x
      | items, _ => s.wait i c items

/-- The slots of the WAITING contexts. -/
def State.waitingSlots (s : State) : List Slot := s.slotsWhere fun c => c.phase == .waiting

/-- Every context WAITING at this moment is attempted, lowest slot first (R32, R79). DEDUCED, unsafe
(notes/assumptions/22.md). -/
def State.retryWaiting (s : State) : State := s.waitingSlots.foldl (fun s i => s.attempt i) s

end Sys2Proof.Machine
end

