-- ==== Sys2Proof/Machine/Track.lean ====
section
/-! DEFINITION. Sys2Proof/Machine/Track.lean: the Pallet Tracker's own events: admission (R39 to R43), the plan
offer (R44), the attachment of station readings (R48 to R50), the end of a scan (R47) and the infeed of LANE
reports. -/

namespace Sys2Proof.Machine

open Sys2Proof

/-! ### Admission (R39 to R43) -/

/-- The lowest-numbered free slot (R39). -/
def State.freeSlot (s : State) : Option Slot := allSlots.find? fun i => (s.ctx i).isNone

/-- The admission number after n (R39). -/
def admissionAfter (n : Nat) : Nat := if n < Config.max32 then n + 1 else 1

/-- The record of a context at its admission (R39). -/
def Context.atAdmission (adm : Nat) (licence : Option Text) (l : Lane) : Context where
  adm           := adm
  licence       := licence
  lane          := l
  planSlot      := none
  phase         := .admitted
  tunnelStarted := false
  tunnelEnded   := false
  weight        := none
  height        := none
  tally         := Tally.empty
  verdict       := none
  reasons       := []
  waiting       := []
  record        := none
  wrapper       := none
  wrapStarted   := false
  labelSerial   := none
  labelVoid     := false
  unconfirmed   := false
  diverted      := false
  timer         := none
  compStatus    := .none
  label         := none
  job           := none
  voided        := none
  route         := none
  orders        := []

/-- The other open contexts with a licence (R43). -/
def State.sharers (s : State) (i : Slot) (t : Text) : List Slot :=
  (s.slotsWhere fun c => c.licence == some t).filter fun j => j ≠ i

/-- A LOADED plan is bound to the open context in a slot (R12). -/
def State.bindPlan (p : Plan) (i : Slot) (s : State) : State :=
  (s.modPlan p.slot fun p => { p with state := .inUse, bound := some i }).modCtx i
    fun c => { c with planSlot := some p.slot }

/-- The binding request of R13 and its answer's result (R43). -/
def State.askPlan (i : Slot) (t : Text) (s : State) : State :=
  match s.planOf t with
  | none => s
  | some p =>
    match p.state with
    | .loaded => s.bindPlan p i
    | .used => s.handSlot i .licenceReused
    | .inUse => s

/-- The identity of a context just admitted is settled; in DRAIN no plan is asked for (R41, R43). -/
def State.identify (i : Slot) (licence : Option Text) (draining : Bool) (s : State) : State :=
  match licence with
  | none => s.handSlot i .noLicence
  | some t =>
    let others := s.sharers i t
    if others ≠ [] then (s.handSlot i .duplicateLicence).handAll others .duplicateLicence
    else if draining then s
    else s.askPlan i t

/-- A context that has just joined an empty lane queue is its lane head (R40): an event of R103. -/
def State.joinedAsHead (wasEmpty : Bool) (s : State) : State := if wasEmpty then s.callArbiter else s

/-- A context is admitted to a lane (R39 to R41). DEDUCED, unsafe (notes/assumptions/20.md). -/
def State.admitPallet (l : Lane) (licence : Option Text) (draining : Bool) (s : State) : State :=
  match s.freeSlot with
  | none => s
  | some i =>
    let n := s.tracker.nextAdm
    let s := (s.putCtx i (some (Context.atAdmission n licence l))).onTracker fun t =>
      { t with nextAdm := admissionAfter n }
    let s := ((s.modLane l fun r => { r with queue := r.queue ++ [i] }).infeedDecision l).joinedAsHead
      (s.queue l).isEmpty
    let s := if draining then s.handSlot i .draining else s
    s.identify i licence draining

/-- A sixth pallet on a lane (R42): TRACK_SLIP is handed in lane order, the head first. DESIGN CHOICE, unsafe
(notes/assumptions/23.md). -/
def State.laneOverflow (l : Lane) (licence : Option Text) (s : State) : State :=
  (s.report (.lane (.laneOverflow l licence))).handAll (s.queue l) .trackSlip

/-- A TAG_READ on a lane (R41). -/
def State.readTag (l : Lane) (licence : Option Text) (s : State) : State :=
  match s.actingMode with
  | .run | .degraded | .drain =>
    if s.laneCount l < Config.laneQueueMax then s.admitPallet l licence (s.actingMode == .drain)
    else s.laneOverflow l licence
  | .start | .stopped | .isolated => s.report (.lane (.unexpectedPallet l licence))

/-! ### The plan offer (R11, R44) -/

/-- The open context that qualifies for a plan (R44). -/
def State.qualifier (s : State) (t : Text) : Option Slot :=
  (s.slotsWhere fun c =>
    c.licence == some t && c.planSlot.isNone && c.verdict.isNone && !c.shortcut).head?

/-- A LOADED plan is offered to the Tracker; a WAITING context it binds is retried at once (R44). -/
def State.offerPlan (p : Plan) (s : State) : State :=
  match s.qualifier p.licence with
  | none => s
  | some i =>
    let s := s.bindPlan p i
    if (s.ctx i).any fun c => c.phase == .waiting then s.attempt i else s

/-! ### The scan (R47 to R49) -/

/-- The SCANNING context of a lane. -/
def State.scanning (s : State) (l : Lane) : Option Slot :=
  ((s.laneContexts l).find? fun p => p.2.phase == .scanning).map (·.1)

/-- The scan of a context has ended: MEASURING with a measurement lacking, else a decision attempt (R47). -/
def State.endScan (i : Slot) (s : State) : State :=
  let s := s.modCtx i fun c => { c with tunnelEnded := true, timer := none }
  if (s.ctx i).any fun c => c.lacksWeight || c.lacksHeight then s.enter i .measuring (some s.params.measureLimit)
  else s.attempt i

/-- A scan ends with SCAN_TRUNCATED (R48, R49). -/
def State.truncateScan (i : Slot) (s : State) : State := (s.handSlot i .scanTruncated).endScan i

/-- A TUNNEL_START is attached to a context (R48). -/
def State.startScan (i : Slot) (s : State) : State :=
  s.modCtx i fun c =>
    { c with tunnelStarted := true, phase := .scanning, timer := some s.params.scanSilence }

/-- The first context of a lane with a licence (R48). -/
def State.namedInLane (s : State) (l : Lane) (licence : Option Text) : Option (Slot × Context) :=
  match licence with
  | some t => (s.laneContexts l).find? fun p => p.2.licence == some t
  | none => none

/-- The contexts of a lane ahead of one that pass a test, in lane order. -/
def State.aheadWhere (s : State) (l : Lane) (i : Slot) (p : Context → Bool) : List Slot :=
  (((s.laneContexts l).takeWhile fun x => x.1 ≠ i).filter fun x => p x.2).map (·.1)

/-- Step 2 of R48: the attachment of a TUNNEL_START. DEDUCED, unsafe (notes/assumptions/23.md). -/
def State.attachStart (l : Lane) (licence : Option Text) (src : Byte) (s : State) : State :=
  let isAdmitted (c : Context) : Bool := c.phase == .admitted
  let candidate := (s.laneContexts l).find? fun p => isAdmitted p.2
  match s.namedInLane l licence with
  | some (i, c) =>
    if isAdmitted c then (s.handAll (s.aheadWhere l i isAdmitted) .trackSlip).startScan i
    else s.stray kTunnelStart src (some l) licence .alreadyStarted
  | none =>
    match candidate with
    | some (i, _) => (if licence.isSome then s.handSlot i .trackMismatch else s).startScan i
    | none => s.stray kTunnelStart src (some l) licence .noCandidate

/-- A TUNNEL_START on a lane (R48). -/
def State.tunnelStart (l : Lane) (licence : Option Text) (src : Byte) (s : State) : State :=
  (match s.scanning l with
    | some i => s.truncateScan i
    | none => s).attachStart l licence src

/-- A CASE_READ on a lane (R49, R56). -/
def State.caseRead (l : Lane) (r : CaseRead) (src : Byte) (s : State) : State :=
  match s.scanning l with
  | none => s.stray kCaseRead src (some l) none .noCandidate
  | some i =>
    let out := ((s.ctx i).map fun c => c.tally.read r).getD (Tally.empty, none)
    let s := s.modCtx i fun c => { c with timer := some s.params.scanSilence, tally := out.1 }
    match out.2 with
    | some r => s.handSlot i r
    | none => s

/-- A TUNNEL_END on a lane (R49). -/
def State.tunnelEnd (l : Lane) (src : Byte) (s : State) : State :=
  match s.scanning l with
  | none => s.stray kTunnelEnd src (some l) none .noCandidate
  | some i => s.endScan i

/-! ### The measurements (R50) -/

/-- The two measurements of a MEASURE. -/
inductive Measurand where
  | weight | height

/-- The highest value in range (R50). -/
def Measurand.most : Measurand → Nat
  | .weight => Config.weightMax
  | .height => Config.heightMax

/-- The context lacks the measurement (R50). -/
def Measurand.lacking (k : Measurand) (c : Context) : Bool :=
  match k with
  | .weight => c.lacksWeight
  | .height => c.lacksHeight

/-- The context has the measurement. -/
def Measurand.present (k : Measurand) (c : Context) : Bool :=
  match k with
  | .weight => c.weight.isSome
  | .height => c.height.isSome

/-- The measurement stored in a context. -/
def Measurand.store (k : Measurand) (v : Nat) (c : Context) : Context :=
  match k with
  | .weight => { c with weight := some v }
  | .height => { c with height := some v }

/-- A measurement is attached to a context; a MEASURING context that lacks nothing now is attempted (R50). -/
def State.attach (k : Measurand) (v : Nat) (i : Slot) (s : State) : State :=
  let s := s.modCtx i (k.store v)
  if (s.ctx i).any fun c => c.phase == .measuring && !c.lacksWeight && !c.lacksHeight then s.attempt i else s

/-- One measurement is taken on a lane, with the cause for which it is stray, if it is (R50). -/
def State.takeMeasurement (l : Lane) (k : Measurand) (v : Nat) (licence : Option Text) (s : State) :
    State × Option StrayCause :=
  if k.most < v then (s, some .outOfRange)
  else
    match s.namedInLane l licence with
    | some (i, c) =>
      if k.lacking c then
        if c.tunnelStarted then ((s.handAll (s.aheadWhere l i k.lacking) .trackSlip).attach k v i, none)
        else (s, some .notStarted)
      else if k.present c then
        if c.verdict.isNone then (s.modCtx i (k.store v), none) else (s, some .alreadyDecided)
      else (s, some .late)
    | none =>
      match (s.laneContexts l).find? fun p => p.2.tunnelStarted && k.lacking p.2 with
      | some (i, _) => ((if licence.isSome then s.handSlot i .trackMismatch else s).attach k v i, none)
      | none => (s, some .noCandidate)

/-- One measurement of a MEASURE, if it carries it. -/
def State.takeOptional (l : Lane) (k : Measurand) (v : Option Nat) (licence : Option Text) (s : State) :
    State × Option StrayCause :=
  match v with
  | some v => s.takeMeasurement l k v licence
  | none => (s, none)

/-- A MEASURE on a lane: the weight first, then the height, and one STRAY report for what is stray (R50, R51), formed
last, after the reports of a decision that either measurement brought. DEDUCED, and DESIGN CHOICE for the place of the
STRAY report, unsafe (notes/assumptions/23.md). -/
def State.measure (l : Lane) (weight height : Option Nat) (licence : Option Text) (src : Byte) (s : State) :
    State :=
  if weight.isNone && height.isNone then s.stray kMeasure src (some l) licence .empty
  else
    let w := s.takeOptional l .weight weight licence
    let h := w.1.takeOptional l .height height licence
    match w.2.or h.2 with
    | some cause => h.1.stray kMeasure src (some l) licence cause
    | none => h.1

/-- The lacking measurements of a context are recorded as missing, and a decision is attempted (R49). -/
def State.measureExpired (i : Slot) (s : State) : State :=
  let s := if (s.ctx i).any Context.lacksWeight then s.handSlot i .noWeight else s
  let s := if (s.ctx i).any Context.lacksHeight then s.handSlot i .noHeight else s
  s.attempt i

end Sys2Proof.Machine
end

