-- ==== Sys2Proof/Machine/Refs.lean ====
section
/-! DEFINITION. Sys2Proof/Machine/Refs.lean: the requests of the Reference Tables (R1 to R19). Every owner's
operation gives an answer: the state after the request, the status and the result fields of its reply. -/

namespace Sys2Proof.Machine

open Sys2Proof

/-- An owner's answer to a request (R158). -/
structure Answer where
  state  : State
  status : Status
  result : Result

/-- A request refused with a status, changing nothing. -/
def State.refuse (x : Status) (s : State) : Answer := ⟨s, x, .none⟩

/-- The line mode is START or STOPPED (R1). -/
def State.standing (s : State) : Bool := s.ctl.mode == .start || s.ctl.mode == .stopped

/-- A number lies in a range. -/
def inRange (lo hi n : Nat) : Bool := decide (lo ≤ n) && decide (n ≤ hi)

/-! ### Articles (R3 to R5) -/

/-- The article entry of ARTICLE_PUT, none where a field is out of range (section 1.2). -/
def articleEntry (f : ArticleFields) : Option Article :=
  match boolOfCode f.dutiable with
  | some d =>
    if isArticleKey f.key && isTextUpTo 24 f.description && inRange 1 100000 f.caseWeight
        && inRange 0 5000 f.caseTol && inRange 1 120 f.casesPerLayer && inRange 1 1000 f.layerHeight
        && inRange 0 10000 f.caseVolume then
      some ⟨f.key, f.description, f.caseWeight, f.caseTol, f.casesPerLayer, f.layerHeight, f.caseVolume, d⟩
    else none
  | none => none

/-- An article entry put in the table, replacing the one of its key or standing at its place in key order. -/
def putArticle (a : Article) : List Article → List Article
  | [] => [a]
  | x :: xs =>
    if a.key = x.key then a :: xs
    else if ltText a.key x.key then a :: x :: xs
    else x :: putArticle a xs

/-- ARTICLE_PUT (R3). -/
def State.articlePut (f : ArticleFields) (s : State) : Answer :=
  match articleEntry f with
  | none => s.refuse .badField
  | some a =>
    if (s.article a.key).isNone ∧ Config.articleMax ≤ s.refs.articles.length then s.refuse .full
    else ⟨s.onRefs fun r => { r with articles := putArticle a r.articles }, .ok, .none⟩

/-- A plan is LOADED or IN_USE (R4). -/
def Plan.live (p : Plan) : Bool := p.state != .used

/-- A plan line of a plan names an article. -/
def Plan.names (p : Plan) (k : Text) : Bool := p.lines.any fun l => l.article == k

/-- ARTICLE_DELETE (R4). DEDUCED, unsafe (notes/assumptions/19.md). -/
def State.articleDelete (k : Text) (s : State) : Answer :=
  if !isArticleKey k then s.refuse .badField
  else if (s.article k).isNone then s.refuse .notFound
  else if s.refs.plans.any fun p => p.live && p.names k then s.refuse .inUse
  else ⟨s.onRefs fun r => { r with articles := r.articles.filter fun a => a.key != k }, .ok, .none⟩

/-- ARTICLE_CLEAR (R4). -/
def State.articleClear (s : State) : Answer :=
  if !s.standing then s.refuse .busy
  else if s.refs.plans.any fun p => p.live && p.lines.any fun l => (s.article l.article).isSome then
    s.refuse .inUse
  else ⟨s.onRefs fun r => { r with articles := [] }, .ok, .removed s.refs.articles.length⟩

/-- ARTICLE_GET (R5). -/
def State.articleGet (k : Text) (s : State) : Answer :=
  if !isArticleKey k then s.refuse .badField
  else
    match s.article k with
    | some a => ⟨s, .ok, .article a⟩
    | none => s.refuse .notFound

/-- ARTICLE_NEXT (R5). -/
def State.articleNext (k : Text) (s : State) : Answer :=
  if !isDigits 14 k then s.refuse .badField
  else
    match s.refs.articles.find? fun a => ltText k a.key with
    | some a => ⟨s, .ok, .article a⟩
    | none => s.refuse .notFound

/-! ### Consignments (R6, R8, R9) -/

/-- The consignment entry of CONSIGNMENT_PUT with clamped fields brought into range and its totals zero, none
where a field that is not clamped is out of range (R6). -/
def consignmentEntry (f : ConsignmentFields) : Option Consignment :=
  let duty : Option Duty :=
    if f.dutyStatus = 1 then some .bonded else if f.dutyStatus = 2 then some .dutyPaid else none
  match duty with
  | none => none
  | some d =>
    if h : f.labelTemplate < 16 then
      if isConsignmentNumber f.number && isTextUpTo 24 f.customer && inRange 1 4 f.maxLots
          && inRange 1 24 f.bay && inRange 0 7 f.defaultRecipe then
        some ⟨f.number, f.customer, min 730 f.minShelfLife, f.maxLots, max 1 (min 8 f.sightings), d,
          ⟨f.labelTemplate, h⟩, f.bay, f.defaultRecipe, ⟨0, 0, 0, 0⟩⟩
      else none
    else none

/-- A field was clamped (R6). -/
def consignmentClamped (f : ConsignmentFields) : Bool :=
  decide (730 < f.minShelfLife) || decide (f.sightings < 1) || decide (8 < f.sightings)

/-- A consignment entry put in the table: one that replaces keeps the totals, a new one stands at its place in
number order (R6). -/
def putConsignment (c : Consignment) : List Consignment → List Consignment
  | [] => [c]
  | x :: xs =>
    if c.number = x.number then { c with totals := x.totals } :: xs
    else if ltText c.number x.number then c :: x :: xs
    else x :: putConsignment c xs

/-- CONSIGNMENT_PUT (R6). DEDUCED, unsafe (notes/assumptions/18.md). -/
def State.consignmentPut (f : ConsignmentFields) (s : State) : Answer :=
  match consignmentEntry f with
  | none => s.refuse .badField
  | some c =>
    if (s.consignment c.number).isNone ∧ Config.consignmentMax ≤ s.refs.consignments.length then s.refuse .full
    else
      let s := s.onRefs fun r => { r with consignments := putConsignment c r.consignments }
      if consignmentClamped f then ⟨s, .okClamped, ((s.consignment c.number).map Result.consignment).getD .none⟩
      else ⟨s, .ok, .none⟩

/-- CONSIGNMENT_DELETE (R8). DEDUCED, unsafe (notes/assumptions/19.md). -/
def State.consignmentDelete (n : Text) (s : State) : Answer :=
  if !isConsignmentNumber n then s.refuse .badField
  else
    match s.consignment n with
    | none => s.refuse .notFound
    | some c =>
      if s.refs.plans.any fun p => p.live && p.consignment == n then s.refuse .inUse
      else
        ⟨s.onRefs fun r => { r with consignments := r.consignments.filter fun x => x.number != n }, .ok,
          .totals c.totals⟩

/-- CONSIGNMENT_CLEAR (R8). -/
def State.consignmentClear (s : State) : Answer :=
  if !s.standing then s.refuse .busy
  else if s.refs.plans.any fun p => p.live && (s.consignment p.consignment).isSome then s.refuse .inUse
  else ⟨s.onRefs fun r => { r with consignments := [] }, .ok, .consignmentsRemoved s.refs.consignments.length⟩

/-- CONSIGNMENT_GET (R9). -/
def State.consignmentGet (n : Text) (s : State) : Answer :=
  if !isConsignmentNumber n then s.refuse .badField
  else
    match s.consignment n with
    | some c => ⟨s, .ok, .consignment c⟩
    | none => s.refuse .notFound

/-- CONSIGNMENT_NEXT (R9). -/
def State.consignmentNext (n : Text) (s : State) : Answer :=
  if !isDigits 8 n then s.refuse .badField
  else
    match s.refs.consignments.find? fun c => ltText n c.number with
    | some c => ⟨s, .ok, .consignment c⟩
    | none => s.refuse .notFound

/-! ### Plans (R10, R11, R15) -/

/-- No two plan lines name the same article. -/
def distinctArticles : List PlanLine → Bool
  | [] => true
  | l :: ls => !(ls.any fun x => x.article == l.article) && distinctArticles ls

/-- The fields of PLAN_PUT are in range (R10). -/
def planValid (f : PlanFields) : Bool :=
  isLicence f.licence && isConsignmentNumber f.consignment && inRange 5000 60000 f.tare
    && inRange 100 200 f.baseHeight && (f.recipe.all fun r => decide (r ≤ 7))
    && inRange 1 8 f.lines.length
    && (f.lines.all fun l => isArticleKey l.article && inRange 1 240 l.count) && distinctArticles f.lines

/-- A LOADED plan of PLAN_PUT's fields in a slot. -/
def planIn (f : PlanFields) (n : Nat) : Plan :=
  ⟨n, f.licence, f.consignment, f.tare, f.baseHeight, f.recipe, f.lines, .loaded, none⟩

/-- A plan put in the table at its slot, the table kept in ascending slot order. -/
def putPlan (p : Plan) : List Plan → List Plan
  | [] => [p]
  | x :: xs =>
    if p.slot = x.slot then p :: xs
    else if p.slot < x.slot then p :: x :: xs
    else x :: putPlan p xs

/-- The lowest-numbered free slot from n on of plans in ascending slot order (R10). -/
def lowestFreePlan (n : Nat) : List Plan → Nat
  | [] => n
  | p :: ps => if p.slot = n then lowestFreePlan (n + 1) ps else n

/-- A plan is stored in a slot and offered to the Tracker, and the PUT is answered (R10, R11). -/
def State.storePlan (p : Plan) (s : State) : Answer :=
  let unresolved := (s.resolve p).isNone
  let s := (s.onRefs fun r => { r with plans := putPlan p r.plans }).offerPlan p
  let s := s.settle .planPut
  let q := (s.planAt p.slot).getD p
  ⟨s, if unresolved then .okUnresolved else .ok, .planPut q.slot q.state q.bound⟩

/-- PLAN_PUT (R10, R11). -/
def State.planPut (f : PlanFields) (s : State) : Answer :=
  if !planValid f then s.refuse .badField
  else
    match s.planOf f.licence with
    | some p => if p.state = .inUse then s.refuse .inUse else s.storePlan (planIn f p.slot)
    | none =>
      if Config.planMax ≤ s.refs.plans.length then s.refuse .full
      else s.storePlan (planIn f (lowestFreePlan 0 s.refs.plans))

/-- PLAN_DELETE (R15). -/
def State.planDelete (t : Text) (s : State) : Answer :=
  if !isLicence t then s.refuse .badField
  else
    match s.planOf t with
    | none => s.refuse .notFound
    | some p =>
      if p.state = .inUse then s.refuse .inUse
      else ⟨s.onRefs fun r => { r with plans := r.plans.filter fun q => q.slot != p.slot }, .ok, .none⟩

/-- PLAN_CLEAR (R15). -/
def State.planClear (s : State) : Answer :=
  if !s.standing then s.refuse .busy
  else ⟨s.onRefs fun r => { r with plans := [] }, .ok, .removed s.refs.plans.length⟩

/-- The reply of a reading of a plan. -/
def State.showPlan (p : Option Plan) (s : State) : Answer :=
  match p with
  | some p => ⟨s, .ok, .plan p⟩
  | none => s.refuse .notFound

/-- PLAN_GET (R15). -/
def State.planGet (k : PlanKey) (s : State) : Answer :=
  match k with
  | .licence t => if isLicence t then s.showPlan (s.planOf t) else s.refuse .badField
  | .slot n => if n < Config.planMax then s.showPlan (s.planAt n) else s.refuse .badField

/-- PLAN_NEXT (R15). -/
def State.planNext (k : Option Nat) (s : State) : Answer :=
  match k with
  | none => s.showPlan s.refs.plans.head?
  | some n =>
    if n < Config.planMax then s.showPlan (s.refs.plans.find? fun p => decide (n < p.slot))
    else s.refuse .badField

/-! ### Stations (R16 to R19) -/

/-- One address may hold both role-instances (section 1.5). -/
def mayStandBeside (a b : RoleInst) : Bool :=
  let sole (r : RoleInst) : Bool := r == .dispatchSystem || r == .linePanel
  let label (r : RoleInst) : Bool := r.code.1 == 6
  a.code.1 != b.code.1 && !sole a && !sole b
    && !(label a && b == .rejectApplicator) && !(label b && a == .rejectApplicator)

/-- The role-instance added to an address's entry, with those it may not stand beside removed (R17). The replies
of R17 and R19 list an entry's role-instances in this order, the newest last. DESIGN CHOICE, unsafe
(notes/assumptions/32.md). -/
def addRole (r : RoleInst) (old : List RoleInst) : List RoleInst :=
  old.filter (fun x => mayStandBeside x r) ++ [r]

/-- The address of STATION_PUT when it may be edited (R16). -/
def State.editable (s : State) (a : Byte) : Option (Fin 32) :=
  if h : a.toNat < 32 then
    if a.toNat = 0 ∨ a.toNat = 31 ∨ a = s.ownAddress then none else some ⟨a.toNat, h⟩
  else none

/-- An entry of the station table set. -/
def State.setStation (a : Fin 32) (rs : List RoleInst) (s : State) : State :=
  s.onRefs fun r => { r with stations := r.stations.set a rs }

/-- A role-instance is given to an address (R17). -/
def State.giveRole (a : Fin 32) (r : RoleInst) (s : State) : Answer :=
  let old := s.refs.stations[a]
  if old.contains r then ⟨s, .ok, .stationPut old 0⟩
  else
    match s.holderOf r with
    | some b =>
      ⟨(s.setStation b ((s.refs.stations[b]).filter fun x => x != r)).setStation a (addRole r old), .ok,
        .stationPut old b.val⟩
    | none => ⟨s.setStation a (addRole r old), .ok, .stationPut old 0⟩

/-- STATION_PUT (R16, R17). -/
def State.stationPut (address role inst : Byte) (s : State) : Answer :=
  if !s.standing then s.refuse .busy
  else
    match s.editable address with
    | none => s.refuse .badField
    | some a =>
      if role = 0 ∧ inst = 0 then ⟨s.setStation a [], .ok, .stationPut (s.refs.stations[a]) 0⟩
      else
        match RoleInst.ofCode role.toNat inst.toNat with
        | some r => s.giveRole a r
        | none => s.refuse .badField

/-- STATION_GET (R19). -/
def State.stationGet (k : StationKey) (s : State) : Answer :=
  match k with
  | .address a => if a.toNat < 32 then ⟨s, .ok, .stationEntry (s.rolesAt a)⟩ else s.refuse .badField
  | .role role inst =>
    if role = 0 ∧ inst = 0 then s.refuse .notFound
    else
      match RoleInst.ofCode role.toNat inst.toNat with
      | none => s.refuse .badField
      | some r =>
        match s.holderOf r with
        | some a => ⟨s, .ok, .stationHolder a.val⟩
        | none => s.refuse .notFound

end Sys2Proof.Machine
end

