-- ==== Sys2Proof/Machine/Templates.lean ====
section
/-! DEFINITION. Sys2Proof/Machine/Templates.lean: the requests of the Label Composer (R115 to R119, R132) and
the lookup of a context a request names (R53). -/

namespace Sys2Proof.Machine

open Sys2Proof

/-! ### Items (R115, R117) -/

/-- The item of a carried item, none where it is malformed (R117). -/
def itemOf : ItemFields → Option Item
  | .text t => if 1 ≤ t.length ∧ t.length ≤ 20 ∧ t.all isPrintable then some (.text t) else none
  | .field c w a f =>
    match FieldCode.ofCode c, Align.ofCode a, Fill.ofCode f with
    | some code, some align, some fill =>
      if 1 ≤ w.toNat ∧ w.toNat ≤ 20 ∧ ¬ (fill = .zero ∧ align = .left) then
        some (.field code w.toNat align fill)
      else none
    | _, _, _ => none
  | .newline => some .newline
  | .linesBegin => some .linesBegin
  | .linesEnd => some .linesEnd
  | .ifBonded => some .ifBonded
  | .endIf => some .endIf
  | .barcode k => (BarcodeKind.ofCode k).map .barcode
  | .endItem => some .endItem
  | .unknown _ => none

/-- The position, counting from 1, of the first malformed item; 0 when none is. -/
def firstMalformed (is : List ItemFields) : Nat :=
  match is.findIdx? fun i => (itemOf i).isNone with
  | some n => n + 1
  | none => 0

/-! ### Building (R116 to R119) -/

/-- TEMPLATE_BEGIN (R116). -/
def State.templateBegin (n : Nat) (s : State) : Answer :=
  if h : n < 16 then
    ⟨s.onComposer fun x => { x with build := some ⟨⟨n, h⟩, []⟩ }, .ok,
      .discardedBuild (s.composer.build.map fun b => (b.target, b.items.length))⟩
  else s.refuse .badField

/-- TEMPLATE_ITEMS (R117). DEDUCED, unsafe (notes/assumptions/18.md). -/
def State.templateItems (fs : List ItemFields) (s : State) : Answer :=
  match s.composer.build with
  | none => s.refuse .badRequest
  | some b =>
    match fs.mapM itemOf with
    | some (i :: is) =>
      let items := b.items ++ i :: is
      if Config.templateItemMax < items.length then s.refuse .full
      else
        ⟨s.onComposer fun x => { x with build := some ⟨b.target, items⟩ }, .ok, .itemCount items.length⟩
    | _ => ⟨s, .badField, .itemPosition (firstMalformed fs)⟩

/-- A section open during the structural checks. -/
inductive Section where
  | lines | bonded
  deriving DecidableEq, Repr

/-- The structural checks of R118 item by item, from a position with the section open there: the first fault and
its position, or none. DEDUCED, unsafe (notes/assumptions/27.md). -/
def structuralFault : Nat → Option Section → List Item → Option (TemplateFault × Nat)
  | n, _, [] => some (.empty, n)
  | n, o, [i] =>
    if i = .endItem then if o.isSome then some (.unclosedSection, n + 1) else none
    else some (.noEnd, n + 1)
  | n, o, i :: rest =>
    let n := n + 1
    match i, o with
    | .endItem, _ => some (.noEnd, n)
    | .linesBegin, none => structuralFault n (some .lines) rest
    | .ifBonded, none => structuralFault n (some .bonded) rest
    | .linesBegin, some _ => some (.nested, n)
    | .ifBonded, some _ => some (.nested, n)
    | .linesEnd, some .lines => structuralFault n none rest
    | .endIf, some .bonded => structuralFault n none rest
    | .linesEnd, _ => some (.unopenedClose, n)
    | .endIf, _ => some (.unopenedClose, n)
    | .field code _ _ _, o =>
      if code.isLine ∧ o ≠ some .lines then some (.lineFieldOutside, n) else structuralFault n o rest
    | _, o => structuralFault n o rest

/-- TEMPLATE_END (R118). -/
def State.templateEnd (s : State) : Answer :=
  match s.composer.build with
  | none => s.refuse .badRequest
  | some b =>
    match structuralFault 0 none b.items with
    | some (f, n) => ⟨s.onComposer fun x => { x with build := none }, .badTemplate, .templateFault f n⟩
    | none =>
      if s.composer.flight.any fun f => f.template == b.target then s.refuse .busy
      else
        ⟨s.onComposer fun x => { x with build := none, templates := x.templates.set b.target b.items }, .ok,
          .none⟩

/-- TEMPLATE_GET (R119). -/
def State.templateGet (n start : Nat) (s : State) : Answer :=
  if h : n < 16 then
    if inRange 1 48 start then
      let items := s.composer.templates[n]
      ⟨s, .ok, .templateItems items.length ((items.drop (start - 1)).take 12)
        (if start + 11 < items.length then some (start + 12) else none)⟩
    else s.refuse .badField
  else s.refuse .badField

/-! ### The context a request names (R53) -/

/-- What a context key names. -/
inductive Lookup where
  | badField | notFound
  | found (i : Slot) (c : Context)

/-- The order of admission of an admission number, the oldest first, across the return of the counter to 1 (R39,
R53). DEDUCED, unsafe (notes/assumptions/28.md). -/
def State.admissionOrder (s : State) (n : Nat) : Nat :=
  if n < s.tracker.nextAdm then n + Config.max32 else n

/-- The first admitted of some contexts. -/
def State.firstAdmitted (s : State) : List (Slot × Context) → Option (Slot × Context)
  | [] => none
  | x :: xs =>
    match s.firstAdmitted xs with
    | some y => if s.admissionOrder y.2.adm < s.admissionOrder x.2.adm then some y else some x
    | none => some x

/-- The open contexts with a licence. -/
def State.withLicence (s : State) (t : Text) : List (Slot × Context) :=
  (s.slotsWhere fun c => c.licence == some t).filterMap fun i => (s.ctx i).map fun c => (i, c)

/-- The context a slot or a licence names (R53). -/
def State.lookup (s : State) : ContextKey → Lookup
  | .slot n =>
    if h : n < 64 then
      match s.ctx ⟨n, h⟩ with
      | some c => .found ⟨n, h⟩ c
      | none => .notFound
    else .badField
  | .licence t =>
    if isLicence t then
      match s.firstAdmitted (s.withLicence t) with
      | some (i, c) => .found i c
      | none => .notFound
    else .badField

/-- The place, counting from 1, of a context in the composition queue. -/
def State.compPlace (s : State) (id : CtxId) : Option Nat :=
  (s.composer.queue.findIdx? fun r => r.ctx == id).map (· + 1)

/-- What LABEL_GET shows of a context (R132). -/
def State.labelView (s : State) (i : Slot) (c : Context) : LabelView :=
  let id : CtxId := ⟨i, c.adm⟩
  let flight := s.composer.flight.filter fun f => f.ctx == id
  { status := c.compStatus
    place := if c.compStatus = .queued then s.compPlace id else none
    kind :=
      if c.compStatus = .queued then (s.composer.queue.find? fun r => r.ctx == id).map (·.kind)
      else if c.compStatus = .inFlight then flight.map (·.kind) else none
    template := if c.compStatus = .inFlight then flight.map (·.template) else none
    waiting := c.compStatus == .inFlight && flight.any fun f => f.ticketWaiting
    record := c.label
    nextSerial := s.composer.nextSerial
    queued := s.composer.queue.length }

/-- LABEL_GET (R132). -/
def State.labelGet (k : ContextKey) (s : State) : Answer :=
  match s.lookup k with
  | .badField => s.refuse .badField
  | .notFound => s.refuse .notFound
  | .found i c => ⟨s, .ok, .label (s.labelView i c)⟩

end Sys2Proof.Machine
end

