-- ==== Sys2Proof/Machine/Watch.lean ====
section
/-! DEFINITION. Sys2Proof/Machine/Watch.lean: the Watch Screens: judging an offered telegram (R165, R166) and
acting on it (R167, R168). -/

namespace Sys2Proof.Machine

open Sys2Proof

/-- The field a test reads, none where the payload is too short (R165). -/
def ScreenTest.field (payload : List Byte) (t : ScreenTest) : Option Nat :=
  if t.offset + t.width ≤ payload.length then some (ofBytes ((payload.drop t.offset).take t.width)) else none

/-- A test judged on the field it read (R165). -/
def ScreenTest.holds (payload : List Byte) (t : ScreenTest) : Bool :=
  match t.field payload with
  | none => false
  | some n =>
    match t.test with
    | .equal v => n == v
    | .notEqual v => n != v
    | .inRange lo hi => decide (lo ≤ n) && decide (n ≤ hi)
    | .changed => t.last.any fun x => x != n

/-- A test stores the field it read as its last value (R165). -/
def ScreenTest.remember (payload : List Byte) (t : ScreenTest) : ScreenTest :=
  match t.field payload with
  | some n => { t with last := some n }
  | none => t

/-- An enabled screen whose filters pass a telegram judges it (R165). -/
def Screen.judges (t : Telegram) (x : Screen) : Bool :=
  x.enabled && (x.source.all fun a => a == t.src.toNat) && (x.kind.all fun k => k == t.kind.toNat)

/-- A screen matches a telegram (R166). -/
def Screen.hits (t : Telegram) (x : Screen) : Bool :=
  x.judges t &&
    (match x.tests, x.combine with
      | [], _ => true
      | ts, .all => ts.all fun y => y.holds t.payload
      | ts, .any => ts.any fun y => y.holds t.payload)

/-- A screen after judging (R165). -/
def Screen.remember (t : Telegram) (x : Screen) : Screen :=
  if x.judges t then { x with tests := x.tests.map fun y => y.remember t.payload } else x

/-- The screens, in ascending number. -/
def allScreens : List ScreenNo := List.finRange 16

/-- The screen that acts on a telegram: the lowest-numbered that matches (R166). -/
def State.acting (t : Telegram) (s : State) : Option ScreenNo :=
  allScreens.find? fun n => (s.watch[n]).hits t

/-- The action consumes the telegram (R167). -/
def Action.consumes : Action → Bool
  | .consume | .consumeAlert => true
  | .alert | .alertCapture => false

/-- The action moves the latch (R167). -/
def Action.alerts : Action → Bool
  | .consume => false
  | .alert | .alertCapture | .consumeAlert => true

/-- The WATCH_ALERT report of a screen (R168). -/
def watchAlert (n : ScreenNo) (x : Screen) (hit : Option WatchMatch) : Report :=
  .watchAlert ⟨n, hit, x.action, x.tests.length, !x.capture.isEmpty, x.count⟩

/-- What a WATCH_ALERT report tells of a telegram (R168). -/
def Screen.hitOf (t : Telegram) (x : Screen) : WatchMatch :=
  ⟨t.kind, t.src, t.dst, t.payload.length, x.tests.map fun y => y.field t.payload⟩

/-- A matched screen's record after it acts: the count rises and the latch moves, capturing at the move from
CLEAR (R167, R168). -/
def Screen.acted (t : Telegram) (x : Screen) : Screen :=
  let x := { x with count := min 65535 (x.count + 1) }
  if x.action.alerts then
    match x.latch with
    | .clear =>
      { x with latch := .pending, capture := if x.action = .alertCapture then frameBody t else x.capture }
    | .pending => { x with latch := .overrun }
    | .overrun => x
  else x

/-- A telegram is offered to the screens: every judging screen stores its last values, and the lowest-numbered
that matches acts (R165 to R168). -/
def State.offerScreens (t : Telegram) (s : State) : State :=
  let acting := s.acting t
  let s := { s with watch := s.watch.map (Screen.remember t) }
  match acting with
  | none => s
  | some n =>
    let old := s.watch[n]
    let s := s.onScreen n (Screen.acted t)
    if old.action.alerts ∧ old.latch = .clear then
      s.report (watchAlert n s.watch[n] (some (old.hitOf t)))
    else s

/-- The screens consume a telegram (R167). -/
def State.consumed (t : Telegram) (s : State) : Bool :=
  (s.acting t).any fun n => (s.watch[n]).action.consumes

end Sys2Proof.Machine
end

