-- ==== Sys2Proof/Machine/Requests.lean ====
section
/-! DEFINITION. Sys2Proof/Machine/Requests.lean: the requests of the Hold Register, the Pallet Tracker, the
Reconciler, the Allocator, the Dispatcher, the Watch Screens and the Mode Controller, but for RESTART. -/

namespace Sys2Proof.Machine

open Sys2Proof

/-! ### Hold Register (R25 to R32) -/

/-- The hold of HOLD_ADD's fields, none where one is out of range (R25). -/
def holdOf (f : HoldFields) : Option Hold :=
  let reason : Option HoldReason :=
    match f.reason.toNat with
    | 1 => some .quality
    | 2 => some .recall
    | 3 => some .customs
    | 4 => some .other
    | _ => none
  match reason with
  | some r =>
    if isDigits 14 f.article && isLot f.lot && (if r = .other then decide (f.code ≤ 15) else f.code == 0)
        && decide (f.placed ≤ Config.dayMax) then
      some ⟨f.article, f.lot, r, f.code, f.placed⟩
    else none
  | none => none

/-- A hold request refused with a status; its reply carries the generation (R23). -/
def State.refuseHold (x : Status) (s : State) : Answer := ⟨s, x, .generation s.holds.generation⟩

/-- The generation after an accepted change (R23). -/
def generationAfter (n : Nat) : Nat := (n + 1) % 65536

/-- HOLD_ADD (R25, R33, R35). -/
def State.holdAdd (f : HoldFields) (s : State) : Answer :=
  match holdOf f with
  | none => s.refuseHold .badField
  | some h =>
    let isNew := (s.hold h.key).isNone
    if isNew ∧ Config.holdMax ≤ s.holds.list.length then s.refuseHold .full
    else
      let s := s.onHolds fun x => { x with list := putHold h x.list, generation := generationAfter x.generation }
      let late := s.lateHolds h
      let search := late.2.escapeSearch h late.2.labels.log
      let s := search.2.settle .holdAdd
      ⟨s, .ok, .holdAdd isNew s.holds.generation s.holds.list.length late.1 search.1.1 search.1.2⟩

/-- HOLD_RELEASE (R26). -/
def State.holdRelease (article lot : Text) (s : State) : Answer :=
  if !(isDigits 14 article && isLot lot) then s.refuseHold .badField
  else if (s.hold (article, lot)).isNone then s.refuseHold .notFound
  else
    let s := s.onHolds fun x => { x with
      list := x.list.filter fun h => !sameHoldKey h.key (article, lot)
      generation := generationAfter x.generation }
    ⟨s, .ok, .holdCount s.holds.generation s.holds.list.length⟩

/-- HOLD_CLEAR (R27). -/
def State.holdClear (s : State) : Answer :=
  let n := s.holds.list.length
  let s := (s.onHolds fun x => { x with list := [], generation := 0, window := none }).setCurrency .stale
  ⟨s, .ok, .holdCleared n s.holds.generation⟩

/-- HOLD_NEXT (R28). -/
def State.holdNext (k : Option (Text × Text)) (s : State) : Answer :=
  let show' (h : Option Hold) : Answer :=
    match h with
    | some h => ⟨s, .ok, .holdEntry s.holds.generation h⟩
    | none => s.refuseHold .notFound
  match k with
  | none => show' s.holds.list.head?
  | some (a, l) =>
    if isDigits 14 a && (l.isEmpty || isLot l) then show' (s.holds.list.find? fun h => ltHoldKey (a, l) h.key)
    else s.refuseHold .badField

/-- The status of CURRENCY (R30). -/
def currencyStatus (equal inRange : Bool) : Status :=
  if !equal then .genMismatch else if inRange then .ok else .dayRange

/-- CURRENCY (R30 to R32): the day and the state are taken, a change of state is handed on, and the WAITING
contexts are retried where R32 says. DEDUCED, unsafe (notes/assumptions/22.md). -/
def State.takeCurrency (g d : Nat) (s : State) : Answer :=
  let equal := g == s.holds.generation
  let dayOk := decide (d ≤ Config.dayMax)
  let wasCurrent := s.holds.currency == .current
  let wasKnown := s.holds.day.isSome
  let s := s.onHolds fun h => { h with
    day := if dayOk then some d else h.day
    window := if equal then some s.params.currencyWindow else none }
  let s := s.setCurrency (if equal then .current else .stale)
  let s := if equal && (!wasCurrent || (!wasKnown && s.holds.day.isSome)) then s.retryWaiting else s
  let s := s.settle .currency
  ⟨s, currencyStatus equal dayOk,
    .currency s.holds.generation s.holds.day s.holds.currency (!dayOk)⟩

/-! ### Pallet Tracker and Tally Unit (R52, R53, R71) -/

/-- The lane a request names. -/
def laneOf (n : Nat) : Option Lane := instIndex 8 n

/-- LANE_CLEAR (R52). -/
def State.laneClear (n : Nat) (s : State) : Answer :=
  match laneOf n with
  | none => s.refuse .badField
  | some l =>
    let kept := (s.laneHead l).any fun i => (s.ctx i).any fun c => c.phase == .moving
    let is := ((s.laneContexts l).filter fun p => p.2.phase != .moving).map (·.1)
    ⟨s.closeAll .cleared .laneClear is.reverse, .ok, .laneCleared is.length kept⟩

/-- CONTEXT_GET (R53); a reply by licence carries the number of other open contexts with it. -/
def State.contextGet (k : ContextKey) (s : State) : Answer :=
  match s.lookup k with
  | .badField => s.refuse .badField
  | .notFound => s.refuse .notFound
  | .found i c =>
    let others : Option Nat :=
      match k with
      | .slot _ => none
      | .licence t => some (s.sharers i t).length
    ⟨s, .ok, .context ⟨i, c, ((s.queue c.lane).findIdx? fun j => j == i).map (· + 1), others⟩⟩

/-- A case map entry as CASE_MAP_GET shows it: the position of its line, or none for UNKNOWN (R71). -/
def caseView (t : Tally) (p : Nat × CaseEntry) : Nat × Option Nat :=
  match p.2 with
  | .unknown => (p.1, none)
  | .counted c => (p.1, some (linePosition t c))

/-- CASE_MAP_GET (R71): the next start is the index of the next seen entry, and a starting index out of range is
found before a context that is not open. DESIGN CHOICE, unsafe (notes/assumptions/34.md). -/
def State.caseMapGet (k : ContextKey) (start : Nat) (s : State) : Answer :=
  if !inRange 1 255 start then s.refuse .badField
  else
    match s.lookup k with
    | .badField => s.refuse .badField
    | .notFound => s.refuse .notFound
    | .found _ c =>
      let seen := c.tally.cases.filter fun p => Nat.ble start p.1
      ⟨s, .ok, .caseMap ((seen.take 32).map (caseView c.tally)) (((seen.drop 32).head?).map (·.1))⟩

/-! ### Reconciler (R79, R95) -/

/-- RETRY_WAITING (R79). -/
def State.retryRequest (s : State) : Answer :=
  let n := s.waitingSlots.length
  let s := s.retryWaiting
  let w := s.waitingSlots.length
  ⟨s.settle .retryWaiting, .ok, .retried n (n - w) w⟩

/-- SCALE_CLEAR (R95). -/
def State.scaleClear (n : Nat) (src : Byte) (s : State) : Answer :=
  match laneOf n with
  | none => s.refuse .badField
  | some l => ⟨s.clearScale l src, .ok, .scale (s.scale l).state (s.scale l).streak⟩

/-! ### Allocator (R112) -/

/-- The new set lacks the recipe of the context a wrapper holds, or of the one the car takes to it (R112). -/
def State.setLacks (w : WrapperNo) (caps : List Nat) (s : State) : Bool :=
  let lacks (r : Option Nat) : Bool := r.any fun n => !caps.contains n
  let holds : Bool :=
    match (s.wrapper w).pallet with
    | .context _ => lacks (s.wrapper w).recipe
    | _ => false
  holds || (s.alloc.car.state == .moving && s.alloc.car.dest == some (.wrapper w) && lacks s.alloc.car.recipe)

/-- WRAPPER_CONFIG (R112). The set is stored, and shown, in ascending recipe number, each recipe once however often the
request names it. DESIGN CHOICE, unsafe (notes/assumptions/2.md). -/
def State.wrapperConfig (n : Nat) (recipes : List Nat) (warmUp : Nat) (s : State) : Answer :=
  match instIndex 4 n with
  | none => s.refuse .badField
  | some w =>
    if !recipes.all fun r => Nat.ble r 7 then s.refuse .badField
    else
      let caps := (List.range 8).filter fun r => recipes.contains r
      let t := min 600000 warmUp
      if s.setLacks w caps then s.refuse .busy
      else
        let s := (s.modWrapper w fun x => { x with caps := caps, warmUp := t }).callArbiter.settle .wrapperConfig
        ⟨s, if t < warmUp then .okClamped else .ok, .wrapperConfig caps t⟩

/-! ### Dispatcher (R147) -/

/-- LOG_GET (R147). -/
def State.logGet (age : Nat) (s : State) : Answer :=
  let n := s.labels.log.length
  let next := s.labels.nextRelease
  if !inRange 1 256 age then ⟨s, .badField, .log n next none⟩
  else if age ≤ n then ⟨s, .ok, .log n next s.labels.log[n - age]?⟩
  else ⟨s, .notFound, .log n next none⟩

/-! ### Watch Screens (R169 to R171) -/

/-- A field test as carried, none where it is out of range (R170). -/
def testOf (f : TestFields) : Option ScreenTest :=
  let fits (v : Nat) : Bool := Nat.blt v (256 ^ f.width)
  let kind : Option TestKind :=
    match f.kind.toNat with
    | 1 => if fits f.lo then some (.equal f.lo) else none
    | 2 => if fits f.lo then some (.notEqual f.lo) else none
    | 3 => if fits f.lo ∧ fits f.hi ∧ f.lo ≤ f.hi then some (.inRange f.lo f.hi) else none
    | 4 => some .changed
    | _ => none
  if f.offset ≤ 119 ∧ (f.width = 1 ∨ f.width = 2 ∨ f.width = 4) then
    kind.map fun k => ⟨f.offset, f.width, k, none⟩
  else none

/-- The screen of WATCH_PUT's fields, none where one is out of range (R170). The two bytes of the kind can carry
256 to 65534, which is out of range. DESIGN CHOICE, unsafe (notes/assumptions/35.md). -/
def screenOf (f : WatchFields) : Option Screen :=
  match boolOfCode f.enabled, f.tests.mapM testOf, Combine.ofCode f.combine, Action.ofCode f.action with
  | some e, some ts, some c, some a =>
    if (f.source.all fun n => Nat.ble n 31) && (f.kind.all fun n => Nat.ble n 255) && Nat.ble ts.length 2 then
      some { Screen.reset with
        enabled := e, source := f.source, kind := f.kind, tests := ts, combine := c, action := a }
    else none
  | _, _, _, _ => none

/-- WATCH_PUT (R170). -/
def State.watchPut (f : WatchFields) (s : State) : Answer :=
  if h : f.screen < 16 then
    match screenOf f with
    | some x =>
      let old := s.watch[f.screen]
      ⟨s.onScreen ⟨f.screen, h⟩ fun _ => x, .ok, .watchPut old.latch old.count⟩
    | none => s.refuse .badField
  else s.refuse .badField

/-- WATCH_GET (R171): part 1 is SETTINGS, part 2 CAPTURE. -/
def State.watchGet (n : Nat) (part : Byte) (start : Nat) (s : State) : Answer :=
  if h : n < 16 then
    let x := s.watch[n]
    if part = 1 then ⟨s, .ok, .watchSettings x⟩
    else if part = 2 ∧ start ≤ 123 then
      ⟨s, .ok, .watchCapture ((x.capture.drop start).take 100)
        (if start + 100 < x.capture.length then some (start + 100) else none)⟩
    else s.refuse .badField
  else s.refuse .badField

/-- The latch after an acknowledgement (R169). -/
def Latch.acknowledged : Latch → Latch
  | .clear => .clear
  | .pending => .clear
  | .overrun => .pending

/-- WATCH_ACK (R169). -/
def State.watchAck (n : Nat) (s : State) : Answer :=
  if h : n < 16 then
    let k : ScreenNo := ⟨n, h⟩
    let x := s.watch[k]
    let y := { x with latch := x.latch.acknowledged }
    let s := s.onScreen k fun _ => y
    ⟨if x.latch = .overrun then s.report (watchAlert k y none) else s, .ok,
      .watchAck x.latch y.latch x.count⟩
  else s.refuse .badField

/-! ### Mode Controller (R173 to R183) -/

/-- The answer of a mode request: the mode and the REJECT_ALL level before and after, and the number of contexts
closed where the request has one (R173). DESIGN CHOICE, unsafe (notes/assumptions/13.md). -/
def State.modeAnswer (s before : State) (x : Status) (closed : Option Nat) : Answer :=
  ⟨s, x, .mode before.ctl.mode s.ctl.mode before.ctl.rejectAll s.ctl.rejectAll closed⟩

/-- GO (R174). -/
def State.goRequest (s : State) : Answer :=
  match s.ctl.mode with
  | .start | .stopped | .drain => s.enterRun.modeAnswer s .ok none
  | .run | .degraded => s.modeAnswer s .ok none
  | .isolated => s.modeAnswer s .busy none

/-- DRAIN (R175). -/
def State.drainRequest (s : State) : Answer :=
  match s.ctl.mode with
  | .run | .degraded => (if s.noneOpen then s.enterStopped .drain else s.enterDrain).modeAnswer s .ok none
  | .start | .drain | .stopped | .isolated => s.modeAnswer s .busy none

/-- HALT (R176). -/
def State.haltRequest (s : State) : Answer :=
  match s.ctl.mode with
  | .run | .degraded | .drain =>
    ((s.enterStopped .halt).closeAll .halted .halt s.openSlots).modeAnswer s .ok (some s.openSlots.length)
  | .start | .stopped | .isolated => s.modeAnswer s .busy (some 0)

/-- CLEAR_REJECT_ALL (R180). -/
def State.clearRejectRequest (s : State) : Answer :=
  match s.ctl.mode with
  | .run | .degraded | .drain => (if s.ctl.rejectAll then s.clearReject else s).modeAnswer s .ok none
  | .start | .stopped | .isolated => s.modeAnswer s .busy none

/-- A line parameter's value by number (R182). -/
def Params.get (p : Params) : Nat → Option Nat
  | 1 => some p.scanSilence
  | 2 => some p.measureLimit
  | 3 => some p.decisionLimit
  | 4 => some p.carMoveLimit
  | 5 => some p.wrapWaitLimit
  | 6 => some p.wrapLimit
  | 7 => some p.labelLimit
  | 8 => some p.exitLimit
  | 9 => some p.ringSilence
  | 10 => some p.currencyWindow
  | 11 => some p.baseWeightTol
  | 12 => some p.weightTolCap
  | 13 => some p.heightTol
  | 14 => some p.unknownAllowance
  | 15 => some p.scaleStreak
  | 16 => some p.reportAddress
  | 17 => some p.rejectTemplate.val
  | _ => none

/-- A line parameter's range by number (R182). -/
def paramRange : Nat → Nat × Nat
  | 1 => (500, 30000)
  | 2 => (2000, 120000)
  | 3 => (0, 600000)
  | 4 => (5000, 300000)
  | 5 => (10000, 1800000)
  | 6 => (30000, 900000)
  | 7 => (5000, 300000)
  | 8 => (2000, 300000)
  | 9 => (20, 2000)
  | 10 => (10000, 600000)
  | 11 => (0, 20000)
  | 12 => (1000, 100000)
  | 13 => (5, 200)
  | 14 => (0, 16)
  | 15 => (1, 8)
  | 16 => (0, 30)
  | _ => (0, 15)

/-- A value brought into a parameter's range (R182). -/
def paramClamp (n v : Nat) : Nat := max (paramRange n).1 (min (paramRange n).2 v)

/-- A line parameter set to a value in its range. -/
def Params.set (p : Params) (n v : Nat) : Params :=
  match n with
  | 1 => { p with scanSilence := v }
  | 2 => { p with measureLimit := v }
  | 3 => { p with decisionLimit := v }
  | 4 => { p with carMoveLimit := v }
  | 5 => { p with wrapWaitLimit := v }
  | 6 => { p with wrapLimit := v }
  | 7 => { p with labelLimit := v }
  | 8 => { p with exitLimit := v }
  | 9 => { p with ringSilence := v }
  | 10 => { p with currencyWindow := v }
  | 11 => { p with baseWeightTol := v }
  | 12 => { p with weightTolCap := v }
  | 13 => { p with heightTol := v }
  | 14 => { p with unknownAllowance := v }
  | 15 => { p with scaleStreak := v }
  | 16 => { p with reportAddress := v }
  | 17 => { p with rejectTemplate := Fin.ofNat 16 v }
  | _ => p

/-- No number appears twice. -/
def distinctNumbers : List (Nat × Nat) → Bool
  | [] => true
  | p :: ps => !(ps.any fun q => q.1 == p.1) && distinctNumbers ps

/-- PARAM_SET (R182). The reply shows the parameters in the order of the request's pairs. DESIGN CHOICE, unsafe
(notes/assumptions/2.md). -/
def State.paramSet (ps : List (Nat × Nat)) (s : State) : Answer :=
  if ps = [] ∨ (ps.any fun p => !inRange 1 17 p.1) ∨ !distinctNumbers ps then s.refuse .badField
  else
    let stored := ps.map fun p => (p.1, paramClamp p.1 p.2)
    let s := s.onCtl fun c => { c with params := stored.foldl (fun q p => q.set p.1 p.2) c.params }
    ⟨s, if stored = ps then .ok else .okClamped, .params stored⟩

/-- PARAM_GET (R182). The reply shows the parameters in the order in which the request names them, one named twice twice,
and all 17 in ascending number where it names none. DESIGN CHOICE, unsafe (notes/assumptions/2.md). -/
def State.paramGet (ns : List Nat) (s : State) : Answer :=
  if ns.length ≤ 17 then
    let ns := if ns = [] then (List.range 17).map (· + 1) else ns
    match ns.mapM fun n => (s.params.get n).map fun v => (n, v) with
    | some ps => ⟨s, .ok, .params ps⟩
    | none => s.refuse .badField
  else s.refuse .badField

/-- The line status (R183). -/
def State.statusView (s : State) : StatusView where
  mode       := s.ctl.mode
  rejectAll  := s.ctl.rejectAll
  address    := s.ctl.address.val
  currency   := s.holds.currency
  generation := s.holds.generation
  day        := s.holds.day
  window     := s.holds.window
  contexts   := s.openSlots.length
  lanes      := allLanes.map fun l =>
    ⟨s.laneCount l, s.tracker.lanes[l].infeed, (s.scale l).state, (s.scale l).streak⟩
  car        := s.alloc.car.state
  cargo      := s.alloc.car.cargo
  dest       := s.alloc.car.dest
  wrappers   := allWrappers.map fun w =>
    let x := s.wrapper w
    ⟨x.state, x.pallet, x.progress, x.caps, x.warmUp, x.afterRelease⟩
  held       := s.alloc.held.toList
  lineCounts := allLines.map fun k => (s.line k).length
  spur       := s.alloc.spur
  ticketing  := s.ticketing
  overload   := s.ring.overload
  reportSeq  := s.mgmt.reportSeq
  lostReport := s.mgmt.lostReport

/-- STATUS_GET (R183); the overload flag is cleared after its reply is formed. -/
def State.statusGet (s : State) : Answer := ⟨s, .ok, .status s.statusView⟩

end Sys2Proof.Machine
end

