-- ==== Sys2Proof/Machine/Restart.lean ====
section
/-! DEFINITION. Sys2Proof/Machine/Restart.lean: RESTART (R177): what each block clears and keeps, and the order
of what the part sends. -/

namespace Sys2Proof.Machine

open Sys2Proof

/-- A plan after RESTART (R21). -/
def Plan.restarted (p : Plan) : Plan := if p.state = .inUse then { p with state := .loaded, bound := none } else p

/-- What the car carries after RESTART: a context becomes an orphan (R114). -/
def Load.orphaned : Load → Load
  | .context _ => .orphan
  | l => l

/-- The blocks cleared by RESTART (R21, R38, R54, R72, R97, R114, R133, R149, R163, R172, R177), but for the
wrappers that held a context, whose reports follow the MODE report. -/
def State.restartBlocks (s : State) : State :=
  { s with
    refs := { s.refs with plans := s.refs.plans.map Plan.restarted }
    holds := { s.holds with currency := .stale, window := none }
    tracker :=
      { slots := Vector.replicate 64 none,
        lanes := s.tracker.lanes.map fun r => { r with queue := [], order := none, lastPlaced := none },
        nextAdm := 1 }
    recon := { s.recon with clock := 0 }
    alloc := { s.alloc with
      car := { s.alloc.car with order := none, cargo := s.alloc.car.cargo.orphaned }
      wrappers := s.alloc.wrappers.map fun w => { w with wrapOrder := none, output := none } }
    composer := { s.composer with build := none, queue := [], flight := none }
    labels := { s.labels with lines := Vector.replicate 2 [], tickets := [] }
    ring := { s.ring with forward := [], origin := [], waiting := [], closures := [], run := 0, overload := none }
    mgmt := { s.mgmt with
      replies := [], reports := [], lostReport := s.mgmt.lostReport || !s.mgmt.reports.isEmpty }
    ctl := { s.ctl with mode := .start, held := none, rejectAll := true } }

/-- Each wrapper that held a context takes the effects of R111 (R114), in ascending wrapper number, so that their
WRAPPER reports come in that order. DESIGN CHOICE, unsafe (notes/assumptions/12.md). -/
def State.orphanWrappers (s : State) : State :=
  allWrappers.foldl
    (fun s w =>
      match (s.wrapper w).pallet with
      | .context _ => s.orphanWrapper w .restart
      | _ => s)
    s

/-- The TICKETING count has become 0: a fall of the spur account may start a recovery move (R104). -/
def State.restartRecovery (ticketing : Nat) (s : State) : State := if 0 < ticketing then s.recover .restart else s

/-- RESTART taken: the reply goes first, then INFEED STOP to every lane, the MODE report, the WRAPPER reports,
and the escape queue (R177). DEDUCED, unsafe (notes/assumptions/12.md). -/
def State.restart (src tag : Byte) (s : State) : State :=
  let old := s.ctl
  let ticketing := s.ticketing
  let s := s.restartBlocks
  let s := s.reply
    { dst := src, code := 0x63, tag := tag, status := .ok,
      result := .mode old.mode s.ctl.mode old.rejectAll s.ctl.rejectAll none, sent := 0 }
  let s := (s.infeedAll).modeReport .restart old.mode
  (s.orphanWrappers.restartRecovery ticketing).offer .escapes

end Sys2Proof.Machine
end

