-- ==== Sys2Proof/Machine/Ring.lean ====
section
/-! DEFINITION. Sys2Proof/Machine/Ring.lean: Ring In: what the Ring Port does with a valid telegram (R151 to
R155, R162), the station telegrams (R152, R153), and the taking of requests (R158 to R160). -/

namespace Sys2Proof.Machine

open Sys2Proof

/-! ### Requests (R158, R159) -/

/-- The owner's answer to a request other than RESTART (R158). -/
def State.serve (i : Instr) (s : State) : Answer :=
  match i with
  | .articlePut _ _ f => s.articlePut f
  | .articleDelete _ _ k => s.articleDelete k
  | .articleGet _ _ k => s.articleGet k
  | .articleNext _ _ k => s.articleNext k
  | .articleClear _ _ => s.articleClear
  | .consignmentPut _ _ f => s.consignmentPut f
  | .consignmentDelete _ _ n => s.consignmentDelete n
  | .consignmentGet _ _ n => s.consignmentGet n
  | .consignmentNext _ _ n => s.consignmentNext n
  | .consignmentClear _ _ => s.consignmentClear
  | .planPut _ _ f => s.planPut f
  | .planDelete _ _ t => s.planDelete t
  | .planGet _ _ k => s.planGet k
  | .planNext _ _ n => s.planNext n
  | .planClear _ _ => s.planClear
  | .stationPut _ _ a r n => s.stationPut a r n
  | .stationGet _ _ k => s.stationGet k
  | .holdAdd _ _ f => s.holdAdd f
  | .holdRelease _ _ a l => s.holdRelease a l
  | .holdClear _ _ => s.holdClear
  | .holdNext _ _ k => s.holdNext k
  | .currency _ _ g d => s.takeCurrency g d
  | .laneClear _ _ l => s.laneClear l
  | .contextGet _ _ k => s.contextGet k
  | .caseMapGet _ _ k n => s.caseMapGet k n
  | .retryWaiting _ _ => s.retryRequest
  | .scaleClear src _ l => s.scaleClear l src
  | .wrapperConfig _ _ w rs t => s.wrapperConfig w rs t
  | .templateBegin _ _ n => s.templateBegin n
  | .templateItems _ _ is => s.templateItems is
  | .templateEnd _ _ => s.templateEnd
  | .templateGet _ _ n p => s.templateGet n p
  | .labelGet _ _ k => s.labelGet k
  | .logGet _ _ n => s.logGet n
  | .watchPut _ _ f => s.watchPut f
  | .watchGet _ _ n p st => s.watchGet n p st
  | .watchAck _ _ n => s.watchAck n
  | .go _ _ => s.goRequest
  | .drain _ _ => s.drainRequest
  | .halt _ _ => s.haltRequest
  | .clearRejectAll _ _ => s.clearRejectRequest
  | .paramSet _ _ ps => s.paramSet ps
  | .paramGet _ _ ns => s.paramGet ns
  | .statusGet _ _ => s.statusGet
  | _ => s.refuse .badRequest

/-- A permitted request is passed to its owner and its reply formed; RESTART places its own reply, and
STATUS_GET clears the overload flag after its reply is formed (R158, R159, R177, R183). DEDUCED, unsafe
(notes/assumptions/12.md). -/
def State.answer (i : Instr) (src code tag : Byte) (s : State) : State :=
  match i with
  | .restart _ _ => s.restart src tag
  | .statusGet _ _ =>
    (s.reply ⟨src, code, tag, .ok, .status s.statusView, 0⟩).onRing fun r => { r with overload := none }
  | _ =>
    let a := s.serve i
    a.state.reply ⟨src, code, tag, a.status, a.result, 0⟩

/-- What the reply to a request that the Responder refuses carries: for a hold request the generation (R23), for
CURRENCY what its reply always carries (R23, R30), for LOG_GET the two numbers (R147), for a mode request the mode and
the level (R173), and for any other nothing. DESIGN CHOICE, unsafe, for the marks and numbers a refusal leaves open
(notes/assumptions/13.md). -/
def State.refusalResult (code : Byte) (s : State) : Result :=
  let mode := Result.mode s.ctl.mode s.ctl.mode s.ctl.rejectAll s.ctl.rejectAll
  match code.toNat with
  | 0x20 | 0x21 | 0x22 | 0x23 => .generation s.holds.generation
  | 0x24 => .currency s.holds.generation s.holds.day s.holds.currency false
  | 0x45 => .log s.labels.log.length s.labels.nextRelease none
  | 0x60 | 0x61 | 0x63 | 0x64 => mode none
  | 0x62 => mode (some 0)
  | _ => .none

/-- A request is refused with a status by the Responder (R158). -/
def State.refuseRequest (src code tag : Byte) (x : Status) (s : State) : State :=
  s.reply ⟨src, code, tag, x, s.refusalResult code, 0⟩

/-- The reply list is full (R159). -/
def State.repliesFull (s : State) : Bool := decide (Config.replyMax ≤ s.mgmt.replies.length)

/-- A request is not taken because the reply list is full (R159). -/
def State.overrun (src code tag : Byte) (s : State) : State :=
  s.overload .replyOverrun (.replyOverrun code tag src)

/-- A STATION_PUT that claims the dispatch system role for its requester while the claim is open (R18): any other
instance than 0 is the owner's to refuse (R17). -/
def State.isClaim (i : Instr) (s : State) : Bool :=
  match i with
  | .stationPut src _ a r _ => !s.dispatchHeld && a == src && r == 0x0B
  | _ => false

/-- The requester may make the request (R158). -/
def State.permits (src code : Byte) (claim : Bool) (s : State) : Bool :=
  let roles := s.rolesAt src
  roles.contains .dispatchSystem || (roles.contains .linePanel && panelCodes.contains code) || claim

/-- A request whose fields are known is taken (R158, R159). -/
def State.admitRequest (i : Instr) (src code tag : Byte) (s : State) : State :=
  if s.repliesFull then s.overrun src code tag
  else if s.permits src code (s.isClaim i) then s.answer i src code tag
  else s.refuseRequest src code tag .notPermitted

/-- A request whose bytes are gathered is taken: its code, then the permission, then its layout are checked
(R158). One whose fields do not fit is no claim of the dispatch system role. DESIGN CHOICE, unsafe
(notes/assumptions/37.md). -/
def State.takeBytesOf (src code tag : Byte) (fields : List Byte) (s : State) : State :=
  if s.repliesFull then s.overrun src code tag
  else if !knownCodes.contains code then s.refuseRequest src code tag .badRequest
  else
    match whole (takeRequest code src tag) fields with
    | some i => s.admitRequest i src code tag
    | none =>
      s.refuseRequest src code tag (if s.permits src code false then .badRequest else .notPermitted)

/-! ### Parts (R160) -/

/-- The open gathering of a source (R160). -/
def State.gathering (src : Byte) (s : State) : Option Gathering := s.mgmt.gatherings.find? fun g => g.src == src

/-- A source's gathering is ended. -/
def State.endGathering (src : Byte) (s : State) : State :=
  s.onMgmt fun m => { m with gatherings := m.gatherings.filter fun g => g.src != src }

/-- A source's gathering is opened or goes on. -/
def State.putGathering (g : Gathering) (s : State) : State :=
  (s.endGathering g.src).onMgmt fun m => { m with gatherings := m.gatherings ++ [g] }

/-- A part that cannot be taken is refused BAD_REQUEST, or not taken with the reply list full. DEDUCED, unsafe
(notes/assumptions/15.md). -/
def State.badPart (src code tag : Byte) (s : State) : State :=
  if s.repliesFull then s.overrun src code tag else s.refuseRequest src code tag .badRequest

/-- A part of a request with its share of the fields (R160). DESIGN CHOICE, unsafe (notes/assumptions/14.md). -/
def State.takePart (src code tag : Byte) (part count : Nat) (share : List Byte) (s : State) : State :=
  if part = 1 then
    let s := s.endGathering src
    if count = 1 then s.takeBytesOf src code tag share
    else if 2 ≤ count ∧ count ≤ Config.partMax then s.putGathering ⟨src, code, tag, count, 2, share⟩
    else s.badPart src code tag
  else
    match s.gathering src with
    | some g =>
      if g.code = code ∧ g.tag = tag ∧ g.count = count ∧ g.next = part ∧ part ≤ count then
        if part = count then (s.endGathering src).takeBytesOf src code tag (g.bytes ++ share)
        else s.putGathering { g with next := part + 1, bytes := g.bytes ++ share }
      else (s.endGathering src).badPart src code tag
    | none => s.badPart src code tag

/-- The RING report of a payload that does not fit (R153). -/
def State.badPayload (t : Telegram) (s : State) : State :=
  s.report (.ring (.badPayload t.kind t.src t.payload.length))

/-- A MGMT_REQUEST consumed by the part (R158, R160). -/
def State.takeMgmt (t : Telegram) (s : State) : State :=
  match t.payload with
  | code :: tag :: part :: count :: share => s.takePart t.src code tag part.toNat count.toNat share
  | code :: tag :: _ => s.badPart t.src code tag
  | _ => s.badPayload t

/-! ### Station telegrams (R152, R153) -/

/-- The lane, wrapper or line of the role of an address that a choice of roles picks. -/
def State.roleOf {α : Type} (src : Byte) (pick : RoleInst → Option α) (s : State) : Option α :=
  (s.rolesAt src).findSome? pick

def laneOfReader : RoleInst → Option Lane
  | .tagReader l => some l
  | _ => none

def laneOfTunnel : RoleInst → Option Lane
  | .tunnel l => some l
  | _ => none

def laneOfMeasure : RoleInst → Option Lane
  | .measure l => some l
  | _ => none

def wrapperOf : RoleInst → Option WrapperNo
  | .wrapper w => some w
  | _ => none

def lineOfSwitch : RoleInst → Option LineNo
  | .exitSwitch k => some k
  | _ => none

/-- The applicator of a LABEL_EVENT: a label line's, or the reject applicator. -/
def applicatorRole : RoleInst → Option (Option LineNo)
  | .labelApplicator k => some (some k)
  | .rejectApplicator => some none
  | _ => none

/-- A payload read by a layout and handed on, or a BAD_PAYLOAD report (R153). -/
def State.fitting {α : Type} (t : Telegram) (r : Reader α) (use : α → State → State) (s : State) : State :=
  match whole r t.payload with
  | some a => use a s
  | none => s.badPayload t

/-- An event byte among 1 to n (section 9.1). -/
def takeEvent (n : Nat) : Reader Nat := do
  let b ← takeByte
  if 1 ≤ b.toNat ∧ b.toNat ≤ n then return b.toNat else failure

/-- The fields of CASE_READ: only the total length can disagree (R153). -/
def takeCase : Reader CaseRead := do
  let i ← takeNat 1
  let a ← takeText 255
  let l ← takeText 255
  let b ← takeText 255
  return CaseRead.ofFields i a l b

/-- The fields of MEASURE. -/
def takeMeasure : Reader (Option Nat × Option Nat × Option Text) := do
  let w ← takeOpt 4
  let h ← takeOpt 2
  let l ← takeLicence
  return (w, h, presentLicence l)

/-- A LABEL_EVENT. -/
inductive LabelEvent where
  | jobTaken (serial : Nat)
  | palletAtLabel
  | applied (serial : Nat) (readback : Option Text)
  | applyFault

/-- The fields of LABEL_EVENT. -/
def takeLabelEvent : Reader LabelEvent := do
  let e ← takeEvent 4
  match e with
  | 1 => return .jobTaken (← takeNat 3)
  | 2 => return .palletAtLabel
  | 3 =>
    let n ← takeNat 3
    let l ← takeLicence
    return .applied n (presentLicence l)
  | _ => return .applyFault

/-- The fields of ROUTED. -/
def takeRouted : Reader (Option Text × Nat) := do
  let l ← takeLicence
  let d ← takeNat 1
  return (presentLicence l, d)

/-- A CAR_EVENT by the car's state (R100 to R102): 1 MOVE_DONE, 2 MOVE_FAULT, 3 READY. -/
def State.carEvent (src : Byte) (e : Nat) (s : State) : State :=
  match e, s.alloc.car.state with
  | 1, .moving => s.endMove
  | 1, _ => s.stray kCarEvent src none none .noCandidate
  | 2, .moving => s.failMove .moveFault
  | 2, .idle => s.stray kCarEvent src none none .noCandidate
  | 3, .fault => s.readyCar.settle .carReady
  | _, _ => s

/-- A WRAPPER_EVENT by the wrapper's state (R107 to R110): 1 READY, 2 STANDBY, 3 WRAP_STARTED, 4 WRAP_DONE,
5 WRAP_FAULT. -/
def State.wrapperEvent (src : Byte) (w : WrapperNo) (e : Nat) (s : State) : State :=
  match e, (s.wrapper w).state with
  | 1, _ => (s.readyWrapper w).settle .wrapperReady
  | 2, _ => s.standbyWrapper w
  | 3, .loaded => s.startWrap w
  | 3, _ => s.stray kWrapperEvent src none none .noCandidate
  | 4, .loaded => (s.endWrap w).settle .wrapDone
  | 4, .wrapping => (s.endWrap w).settle .wrapDone
  | 4, _ => s.stray kWrapperEvent src none none .noCandidate
  | 5, _ => (s.failWrap w .wrapFault .wrapFault).settle .wrapFault
  | _, _ => s

/-- A LABEL_EVENT of a line's applicator or of the reject applicator (R137 to R141, R146). -/
def State.labelEvent (src : Byte) (a : Option LineNo) (e : LabelEvent) (s : State) : State :=
  match a, e with
  | some k, .jobTaken n => s.lineJobTaken k n src
  | some k, .palletAtLabel => s.palletAtLabel k src
  | some k, .applied n l => s.applied k n l src
  | some k, .applyFault => s.applyFault k src
  | none, .jobTaken n => s.ticketTaken n src
  | none, .palletAtLabel => s
  | none, .applied n l => s.ticketApplied n l src
  | none, .applyFault => s.ticketFault src

/-- A ROUTED destination: a bay, 0 for REJECT; a byte above 24 names no destination and is STRAY. DEDUCED,
unsafe (notes/assumptions/8.md). -/
def State.routedEvent (src : Byte) (k : LineNo) (l : Option Text) (d : Nat) (s : State) : State :=
  if d = 0 then s.routed k l none src
  else if d ≤ 24 then s.routed k l (some d) src
  else s.stray kRouted src none l .noCandidate

/-- A station telegram is handed to its block if its source fits its kind and its payload fits (R152, R153). -/
def State.hand (t : Telegram) (s : State) : State :=
  match t.kind.toNat with
  | 0x01 =>
    match s.roleOf t.src laneOfReader with
    | some l => s.fitting t takeLicence fun x s => (s.readTag l (presentLicence x)).settle .tagRead
    | none => s
  | 0x02 =>
    match s.roleOf t.src laneOfTunnel with
    | some l => s.fitting t takeLicence fun x s => (s.tunnelStart l (presentLicence x) t.src).settle .tunnelStart
    | none => s
  | 0x03 =>
    match s.roleOf t.src laneOfTunnel with
    | some l => s.fitting t takeCase fun r s => s.caseRead l r t.src
    | none => s
  | 0x04 =>
    match s.roleOf t.src laneOfTunnel with
    | some l => s.fitting t (pure ()) fun _ s => (s.tunnelEnd l t.src).settle .tunnelEnd
    | none => s
  | 0x05 =>
    match s.roleOf t.src laneOfMeasure with
    | some l => s.fitting t takeMeasure fun x s => (s.measure l x.1 x.2.1 x.2.2 t.src).settle .measure
    | none => s
  | 0x06 =>
    match s.roleOf t.src laneOfMeasure with
    | some l => s.fitting t (pure ()) fun _ s => s.clearScale l t.src
    | none => s
  | 0x07 =>
    if (s.rolesAt t.src).contains .transferCar then s.fitting t (takeEvent 3) fun e s => s.carEvent t.src e
    else s
  | 0x08 =>
    match s.roleOf t.src wrapperOf with
    | some w => s.fitting t (takeEvent 5) fun e s => s.wrapperEvent t.src w e
    | none => s
  | 0x09 =>
    match s.roleOf t.src applicatorRole with
    | some a => s.fitting t takeLabelEvent fun e s => s.labelEvent t.src a e
    | none => s
  | 0x0A =>
    match s.roleOf t.src lineOfSwitch with
    | some k => s.fitting t takeRouted fun x s => s.routedEvent t.src k x.1 x.2
    | none => s
  | 0x0B =>
    if (s.rolesAt t.src).contains .rejectSpur then
      s.fitting t (takeNat 1) fun n s => (s.setSpur n).settle .spurState
    else s
  | _ => s

/-! ### Ring In (R151, R155, R162) -/

/-- A valid telegram has arrived: the ring-silence timer restarts, and an expired one tells the Mode Controller
that the ring has returned (R155, R178). -/
def State.heard (s : State) : State :=
  let silent := s.ring.silence.isNone
  let s := s.onRing fun r => { r with silence := some s.params.ringSilence }
  if silent then s.ringReturned else s

/-- A telegram that is not for the part is offered to the screens and, unless they consume it, forwarded
(R151, R167). -/
def State.passOn (t : Telegram) (s : State) : State :=
  if t.dst = s.ownAddress then s
  else
    let gone := s.consumed t
    let s := s.offerScreens t
    if gone then s else s.forward t

/-- A valid telegram as the Ring Port takes it (R151, R162): the screens, then the forward queue, then its block, so
that their reports are formed in that order. DESIGN CHOICE, unsafe (notes/assumptions/21.md). -/
def State.handle (t : Telegram) (s : State) : State :=
  if s.passive then s.forward t
  else if t.src = s.ownAddress then s
  else if t.dst = s.ownAddress ∧ t.kind = kMgmtRequest then s.takeMgmt t
  else (s.passOn t).hand t

/-- A telegram arrives on Ring In; a payload above 120 bytes makes it invalid (R150), and nothing arrives while
the part is in reset. -/
def State.arrive (t : Telegram) (s : State) : State :=
  if s.ctl.inReset || decide (Config.payloadMax < t.payload.length) then s else s.heard.handle t

/-- The telegram that completes a request arrives and the request is taken (R151, R158, R160). DESIGN CHOICE,
safe (notes/assumptions/10.md). -/
def State.request (i : Instr) (src code tag : Byte) (s : State) : State :=
  if s.ctl.inReset then s
  else
    let s := s.heard
    if s.passive then s.forward (lastRequestPart s.ownAddress src code tag (requestFields i).flatten)
    else if src = s.ownAddress then s
    else (s.endGathering src).admitRequest i src code tag

end Sys2Proof.Machine
end

