-- ==== Sys2Proof/Machine/Expiry.lean ====
section
/-! DEFINITION. Sys2Proof/Machine/Expiry.lean: what each expiry and completion does, the loss of the ring, the
timebase and the reset (R48, R80, R101, R105, R107, R110, R129, R141, R145, R178, R181). An expiry is taken
once its timer has counted all the periods of its limit; a command that names a timer that is stopped, or that has
periods left, is no event of the part and has no effect (notes/assumptions/5.md). -/

namespace Sys2Proof.Machine

open Sys2Proof

/-- Something happens to the part outside reset; while the reset pin is asserted nothing does (R181). DESIGN
CHOICE, unsafe (notes/assumptions/1.md). -/
def State.awake (f : State → State) (s : State) : State := if s.ctl.inReset then s else f s

/-- The open context in a slot stands in a state whose phase timer has counted its limit (R48, R181). -/
def State.timed (i : Slot) (p : Phase) (s : State) : Bool :=
  (s.ctx i).any fun c => c.phase == p && c.timer == some 0

/-- Something done at the expiry of a context's phase timer in a state. DESIGN CHOICE, unsafe for claims of time
(notes/assumptions/5.md). -/
def State.onExpiry (i : Slot) (p : Phase) (f : State → State) (s : State) : State :=
  if s.timed i p then f s else s

/-- scan_silence expires (R49). -/
def State.scanSilence (i : Slot) (s : State) : State :=
  s.onExpiry i .scanning fun s => (s.truncateScan i).settle .scanSilence

/-- measure_limit expires (R49). -/
def State.measureLimit (i : Slot) (s : State) : State :=
  s.onExpiry i .measuring fun s => (s.measureExpired i).settle .measureLimit

/-- decision_limit expires (R80). -/
def State.decisionLimit (i : Slot) (s : State) : State :=
  s.onExpiry i .waiting fun s => (s.park i).settle .decisionLimit

/-- wrap_wait_limit expires (R105). -/
def State.wrapWaitLimit (i : Slot) (s : State) : State :=
  s.onExpiry i .atHeadDecided fun s => ((s.stopTimer i).handSlot i .noWrapper).settle .wrapWaitLimit

/-- car_move_limit expires for the context the car carries (R101). -/
def State.carMoveLimit (i : Slot) (s : State) : State :=
  s.onExpiry i .moving fun s =>
    if s.alloc.car.state = .moving ∧ s.alloc.car.carries i then s.failMove .carMoveLimit else s

/-- A wrapper that is LOADED or WRAPPING with the context in a slot. -/
def State.wrapping (i : Slot) (s : State) : Option WrapperNo :=
  allWrappers.find? fun w =>
    ((s.wrapper w).state == .loaded || (s.wrapper w).state == .wrapping)
      && (match (s.wrapper w).pallet with
        | .context id => id.slot == i
        | _ => false)

/-- wrap_limit expires for the context a wrapper holds (R110). -/
def State.wrapLimit (i : Slot) (s : State) : State :=
  s.onExpiry i .wrapping fun s =>
    match s.wrapping i with
    | some w => (s.failWrap w .wrapLimit .wrapTimeout).settle .wrapLimit
    | none => s

/-- A warm-up ends (R107). -/
def State.warmUpEnds (w : WrapperNo) (s : State) : State :=
  if (s.wrapper w).state = .warming ∧ (s.wrapper w).warmTimer = some 0 then (s.endWarmUp w).settle .warmUpEnd
  else s

/-- label_limit expires (R141). -/
def State.labelLimit (i : Slot) (s : State) : State :=
  s.onExpiry i .labelling fun s =>
    match s.lineOf i with
    | some k => s.failLabel k i .labelTimeout
    | none => s

/-- exit_limit expires (R145). -/
def State.exitLimit (i : Slot) (s : State) : State := s.onExpiry i .exiting fun s => s.exitExpired i

/-- The composition in flight completes when its time has passed (R128, R129). -/
def State.compositionDone (s : State) : State :=
  if s.composer.flight.any fun f => f.remaining == 0 then s.completeComposition else s

/-- The currency window expires (R31). -/
def State.windowExpires (s : State) : State :=
  if s.holds.window = some 0 then (s.onHolds fun h => { h with window := none }).setCurrency .stale else s

/-- A context receives RING_LOST: it is in any state but LABELLING and EXITING (R178). -/
def Context.losesRing (c : Context) : Bool := c.phase != .labelling && c.phase != .exiting

/-- The line is taken ISOLATED (R178). DESIGN CHOICE, unsafe (notes/assumptions/21.md). -/
def State.isolate (s : State) : State :=
  let before := s.ctl.mode
  let s := s.onCtl fun c =>
    { c with mode := .isolated, held := if c.mode = .isolated then c.held else some c.mode, rejectAll := true }
  ((s.handAll (s.slotsWhere Context.losesRing) .ringLost).modeReport .ringSilent before).settle .ringSilence

/-- The ring-silence timer expires (R155, R162, R178). -/
def State.ringSilent (s : State) : State :=
  if s.ring.silence = some 0 then
    let s := s.onRing fun r => { r with silence := none }
    if s.passive then s else s.isolate
  else s

/-- A period of the timebase: every running timer counts it, and so do the composition in flight and the
decision clock (R90, R128, R181). DESIGN CHOICE, unsafe for claims of time (notes/assumptions/5.md). -/
def State.period (s : State) : State :=
  { s with
    tracker := { s.tracker with
      slots := s.tracker.slots.map fun c => c.map fun c => { c with timer := tick c.timer } }
    holds := { s.holds with window := tick s.holds.window }
    alloc := { s.alloc with
      wrappers := s.alloc.wrappers.map fun w => { w with warmTimer := tick w.warmTimer } }
    composer := { s.composer with
      flight := s.composer.flight.map fun f => { f with remaining := f.remaining - 1 } }
    ring := { s.ring with silence := tick s.ring.silence }
    recon := { s.recon with clock := min Config.max48 (s.recon.clock + 1) } }

/-- The reset pin: everything but the queue of commands goes back to its reset value (R181). -/
def State.assertReset (s : State) : State := { State.reset with pending := s.pending }

/-- The reset ends: the strap is sampled, and the timebase and the ring-silence timer start (R155, R181). -/
def State.releaseReset (strap : BitVec 5) (s : State) : State :=
  if s.ctl.inReset then
    (s.onCtl fun c => { c with inReset := false, address := ⟨strap.toNat, strap.isLt⟩ }).onRing
      fun r => { r with silence := some s.params.ringSilence }
  else s

end Sys2Proof.Machine
end

