-- ==== Sys2Proof/Machine/ExpiryCommands.lean ====
section
/-! DEFINITION. Sys2Proof/Machine/ExpiryCommands.lean: the completion of a composition and the expiries. -/

namespace Sys2Proof.Machine

open Sys2Proof

/-- COMPOSITION_COMPLETE (R129). -/
def execCompositionComplete (s : State) : Host.Outcome State Fault Refusal :=
  .next (s.awake State.compositionDone)

/-- SCAN_SILENCE_EXPIRY (R49). -/
def execScanSilenceExpiry (slot : Slot) (s : State) : Host.Outcome State Fault Refusal :=
  .next (s.awake (State.scanSilence slot))

/-- MEASURE_LIMIT_EXPIRY (R49). -/
def execMeasureLimitExpiry (slot : Slot) (s : State) : Host.Outcome State Fault Refusal :=
  .next (s.awake (State.measureLimit slot))

/-- DECISION_LIMIT_EXPIRY (R50, R80). -/
def execDecisionLimitExpiry (slot : Slot) (s : State) : Host.Outcome State Fault Refusal :=
  .next (s.awake (State.decisionLimit slot))

/-- WRAP_WAIT_LIMIT_EXPIRY (R105). -/
def execWrapWaitLimitExpiry (slot : Slot) (s : State) : Host.Outcome State Fault Refusal :=
  .next (s.awake (State.wrapWaitLimit slot))

/-- CAR_MOVE_LIMIT_EXPIRY (R101). -/
def execCarMoveLimitExpiry (slot : Slot) (s : State) : Host.Outcome State Fault Refusal :=
  .next (s.awake (State.carMoveLimit slot))

/-- WRAP_LIMIT_EXPIRY (R110). -/
def execWrapLimitExpiry (slot : Slot) (s : State) : Host.Outcome State Fault Refusal :=
  .next (s.awake (State.wrapLimit slot))

/-- WARM_UP_END (R107). -/
def execWarmUpEnd (w : WrapperNo) (s : State) : Host.Outcome State Fault Refusal :=
  .next (s.awake (State.warmUpEnds w))

/-- LABEL_LIMIT_EXPIRY (R141). -/
def execLabelLimitExpiry (slot : Slot) (s : State) : Host.Outcome State Fault Refusal :=
  .next (s.awake (State.labelLimit slot))

/-- EXIT_LIMIT_EXPIRY (R145). -/
def execExitLimitExpiry (slot : Slot) (s : State) : Host.Outcome State Fault Refusal :=
  .next (s.awake (State.exitLimit slot))

/-- CURRENCY_WINDOW_EXPIRY (R31). -/
def execCurrencyWindowExpiry (s : State) : Host.Outcome State Fault Refusal :=
  .next (s.awake State.windowExpires)

/-- RING_SILENCE_EXPIRY (R155, R178). -/
def execRingSilenceExpiry (s : State) : Host.Outcome State Fault Refusal :=
  .next (s.awake State.ringSilent)

end Sys2Proof.Machine
end

