-- ==== Sys2Proof/Machine/PortCommands.lean ====
section
/-! DEFINITION. Sys2Proof/Machine/PortCommands.lean: the reset, the ring port and the timebase. -/

namespace Sys2Proof.Machine

open Sys2Proof

/-- RESET: the reset pin is asserted (R181). -/
def execReset (s : State) : Host.Outcome State Fault Refusal :=
  .next (s.assertReset)

/-- RESET_RELEASE: the reset ends (R155, R181). -/
def execResetRelease (strap : BitVec 5) (s : State) : Host.Outcome State Fault Refusal :=
  .next (s.releaseReset strap)

/-- INVALID_TELEGRAM: bytes that fail R150 are dropped; bytes that pass it are the telegram they frame. -/
def execInvalidTelegram (bytes : List Byte) (s : State) : Host.Outcome State Fault Refusal :=
  .next (match telegramOf bytes with
    | none => s
    | some t => s.arrive t)

/-- RING_IN_TELEGRAM: a valid telegram (R150, R151). -/
def execRingInTelegram (t : Telegram) (s : State) : Host.Outcome State Fault Refusal :=
  .next (s.arrive t)

/-- RING_OUT_FREE (R156, R157). -/
def execRingOutFree (s : State) : Host.Outcome State Fault Refusal :=
  .next (s.awake State.chooseNext)

/-- TIMEBASE_PERIOD (R90, R181). -/
def execTimebasePeriod (s : State) : Host.Outcome State Fault Refusal :=
  .next (s.awake State.period)

end Sys2Proof.Machine
end

