-- ==== Sys2Proof/Machine/RequestCommands.lean ====
section
/-! DEFINITION. Sys2Proof/Machine/RequestCommands.lean: the management requests, one meaning each: the telegram
that completes the request arrives on Ring In, and the owner's answer is its reply (R151, R158 to R160). -/

namespace Sys2Proof.Machine

open Sys2Proof

/-- MGMT_REQUEST_PART: a request telegram addressed to the part (R151, R158, R160). -/
def execMgmtRequestPart (src code tag part count : Byte) (share : List Byte) (s : State) :
    Host.Outcome State Fault Refusal :=
  .next (s.arrive ⟨s.ownAddress, src, kMgmtRequest, code :: tag :: part :: count :: share⟩)

/-- UNKNOWN_REQUEST_CODE: a request telegram addressed to the part, its code first in the payload (R158). -/
def execUnknownRequestCode (src : Byte) (payload : List Byte) (s : State) : Host.Outcome State Fault Refusal :=
  .next (s.arrive ⟨s.ownAddress, src, kMgmtRequest, payload⟩)

/-- ARTICLE_PUT (R3). -/
def execArticlePut (src tag : Byte) (f : ArticleFields) (s : State) : Host.Outcome State Fault Refusal :=
  .next (s.request (.articlePut src tag f) src 0x01 tag)

/-- ARTICLE_DELETE (R4). -/
def execArticleDelete (src tag : Byte) (key : Text) (s : State) : Host.Outcome State Fault Refusal :=
  .next (s.request (.articleDelete src tag key) src 0x02 tag)

/-- ARTICLE_GET (R5). -/
def execArticleGet (src tag : Byte) (key : Text) (s : State) : Host.Outcome State Fault Refusal :=
  .next (s.request (.articleGet src tag key) src 0x03 tag)

/-- ARTICLE_NEXT (R5). -/
def execArticleNext (src tag : Byte) (key : Text) (s : State) : Host.Outcome State Fault Refusal :=
  .next (s.request (.articleNext src tag key) src 0x04 tag)

/-- ARTICLE_CLEAR (R4). -/
def execArticleClear (src tag : Byte) (s : State) : Host.Outcome State Fault Refusal :=
  .next (s.request (.articleClear src tag) src 0x05 tag)

/-- CONSIGNMENT_PUT (R6). -/
def execConsignmentPut (src tag : Byte) (f : ConsignmentFields) (s : State) :
    Host.Outcome State Fault Refusal :=
  .next (s.request (.consignmentPut src tag f) src 0x06 tag)

/-- CONSIGNMENT_DELETE (R8). -/
def execConsignmentDelete (src tag : Byte) (number : Text) (s : State) : Host.Outcome State Fault Refusal :=
  .next (s.request (.consignmentDelete src tag number) src 0x07 tag)

/-- CONSIGNMENT_GET (R9). -/
def execConsignmentGet (src tag : Byte) (number : Text) (s : State) : Host.Outcome State Fault Refusal :=
  .next (s.request (.consignmentGet src tag number) src 0x08 tag)

/-- CONSIGNMENT_NEXT (R9). -/
def execConsignmentNext (src tag : Byte) (number : Text) (s : State) : Host.Outcome State Fault Refusal :=
  .next (s.request (.consignmentNext src tag number) src 0x09 tag)

/-- CONSIGNMENT_CLEAR (R8). -/
def execConsignmentClear (src tag : Byte) (s : State) : Host.Outcome State Fault Refusal :=
  .next (s.request (.consignmentClear src tag) src 0x0A tag)

/-- PLAN_PUT (R10, R11). -/
def execPlanPut (src tag : Byte) (f : PlanFields) (s : State) : Host.Outcome State Fault Refusal :=
  .next (s.request (.planPut src tag f) src 0x0B tag)

/-- PLAN_DELETE (R15). -/
def execPlanDelete (src tag : Byte) (licence : Text) (s : State) : Host.Outcome State Fault Refusal :=
  .next (s.request (.planDelete src tag licence) src 0x0C tag)

/-- PLAN_GET (R15). -/
def execPlanGet (src tag : Byte) (key : PlanKey) (s : State) : Host.Outcome State Fault Refusal :=
  .next (s.request (.planGet src tag key) src 0x0D tag)

/-- PLAN_NEXT (R15). -/
def execPlanNext (src tag : Byte) (start : Option Nat) (s : State) : Host.Outcome State Fault Refusal :=
  .next (s.request (.planNext src tag start) src 0x0E tag)

/-- PLAN_CLEAR (R15). -/
def execPlanClear (src tag : Byte) (s : State) : Host.Outcome State Fault Refusal :=
  .next (s.request (.planClear src tag) src 0x0F tag)

/-- STATION_PUT (R16 to R18). -/
def execStationPut (src tag : Byte) (address role inst : Byte) (s : State) : Host.Outcome State Fault Refusal :=
  .next (s.request (.stationPut src tag address role inst) src 0x10 tag)

/-- STATION_GET (R19). -/
def execStationGet (src tag : Byte) (key : StationKey) (s : State) : Host.Outcome State Fault Refusal :=
  .next (s.request (.stationGet src tag key) src 0x11 tag)

/-- HOLD_ADD (R25, R33, R35). -/
def execHoldAdd (src tag : Byte) (f : HoldFields) (s : State) : Host.Outcome State Fault Refusal :=
  .next (s.request (.holdAdd src tag f) src 0x20 tag)

/-- HOLD_RELEASE (R26). -/
def execHoldRelease (src tag : Byte) (article lot : Text) (s : State) : Host.Outcome State Fault Refusal :=
  .next (s.request (.holdRelease src tag article lot) src 0x21 tag)

/-- HOLD_CLEAR (R27). -/
def execHoldClear (src tag : Byte) (s : State) : Host.Outcome State Fault Refusal :=
  .next (s.request (.holdClear src tag) src 0x22 tag)

/-- HOLD_NEXT (R28). -/
def execHoldNext (src tag : Byte) (key : Option (Text × Text)) (s : State) : Host.Outcome State Fault Refusal :=
  .next (s.request (.holdNext src tag key) src 0x23 tag)

/-- CURRENCY (R30 to R32). -/
def execCurrency (src tag : Byte) (generation day : Nat) (s : State) : Host.Outcome State Fault Refusal :=
  .next (s.request (.currency src tag generation day) src 0x24 tag)

/-- LANE_CLEAR (R52). -/
def execLaneClear (src tag : Byte) (lane : Nat) (s : State) : Host.Outcome State Fault Refusal :=
  .next (s.request (.laneClear src tag lane) src 0x30 tag)

/-- CONTEXT_GET (R53). -/
def execContextGet (src tag : Byte) (key : ContextKey) (s : State) : Host.Outcome State Fault Refusal :=
  .next (s.request (.contextGet src tag key) src 0x31 tag)

/-- CASE_MAP_GET (R71). -/
def execCaseMapGet (src tag : Byte) (key : ContextKey) (start : Nat) (s : State) :
    Host.Outcome State Fault Refusal :=
  .next (s.request (.caseMapGet src tag key start) src 0x32 tag)

/-- RETRY_WAITING (R79). -/
def execRetryWaiting (src tag : Byte) (s : State) : Host.Outcome State Fault Refusal :=
  .next (s.request (.retryWaiting src tag) src 0x33 tag)

/-- SCALE_CLEAR (R95). -/
def execScaleClear (src tag : Byte) (lane : Nat) (s : State) : Host.Outcome State Fault Refusal :=
  .next (s.request (.scaleClear src tag lane) src 0x34 tag)

/-- WRAPPER_CONFIG (R112). -/
def execWrapperConfig (src tag : Byte) (wrapper : Nat) (recipes : List Nat) (warmUp : Nat) (s : State) :
    Host.Outcome State Fault Refusal :=
  .next (s.request (.wrapperConfig src tag wrapper recipes warmUp) src 0x35 tag)

/-- TEMPLATE_BEGIN (R116). -/
def execTemplateBegin (src tag : Byte) (target : Nat) (s : State) : Host.Outcome State Fault Refusal :=
  .next (s.request (.templateBegin src tag target) src 0x40 tag)

/-- TEMPLATE_ITEMS (R117). -/
def execTemplateItems (src tag : Byte) (items : List ItemFields) (s : State) :
    Host.Outcome State Fault Refusal :=
  .next (s.request (.templateItems src tag items) src 0x41 tag)

/-- TEMPLATE_END (R118). -/
def execTemplateEnd (src tag : Byte) (s : State) : Host.Outcome State Fault Refusal :=
  .next (s.request (.templateEnd src tag) src 0x42 tag)

/-- TEMPLATE_GET (R119). -/
def execTemplateGet (src tag : Byte) (template start : Nat) (s : State) : Host.Outcome State Fault Refusal :=
  .next (s.request (.templateGet src tag template start) src 0x43 tag)

/-- LABEL_GET (R132). -/
def execLabelGet (src tag : Byte) (key : ContextKey) (s : State) : Host.Outcome State Fault Refusal :=
  .next (s.request (.labelGet src tag key) src 0x44 tag)

/-- LOG_GET (R147). -/
def execLogGet (src tag : Byte) (age : Nat) (s : State) : Host.Outcome State Fault Refusal :=
  .next (s.request (.logGet src tag age) src 0x45 tag)

/-- WATCH_PUT (R170). -/
def execWatchPut (src tag : Byte) (f : WatchFields) (s : State) : Host.Outcome State Fault Refusal :=
  .next (s.request (.watchPut src tag f) src 0x50 tag)

/-- WATCH_GET (R171). -/
def execWatchGet (src tag : Byte) (screen : Nat) (part : Byte) (start : Nat) (s : State) :
    Host.Outcome State Fault Refusal :=
  .next (s.request (.watchGet src tag screen part start) src 0x51 tag)

/-- WATCH_ACK (R169). -/
def execWatchAck (src tag : Byte) (screen : Nat) (s : State) : Host.Outcome State Fault Refusal :=
  .next (s.request (.watchAck src tag screen) src 0x52 tag)

/-- GO (R174). -/
def execGo (src tag : Byte) (s : State) : Host.Outcome State Fault Refusal :=
  .next (s.request (.go src tag) src 0x60 tag)

/-- DRAIN (R175). -/
def execDrain (src tag : Byte) (s : State) : Host.Outcome State Fault Refusal :=
  .next (s.request (.drain src tag) src 0x61 tag)

/-- HALT (R176). -/
def execHalt (src tag : Byte) (s : State) : Host.Outcome State Fault Refusal :=
  .next (s.request (.halt src tag) src 0x62 tag)

/-- RESTART (R177). -/
def execRestart (src tag : Byte) (s : State) : Host.Outcome State Fault Refusal :=
  .next (s.request (.restart src tag) src 0x63 tag)

/-- CLEAR_REJECT_ALL (R180). -/
def execClearRejectAll (src tag : Byte) (s : State) : Host.Outcome State Fault Refusal :=
  .next (s.request (.clearRejectAll src tag) src 0x64 tag)

/-- PARAM_SET (R182). -/
def execParamSet (src tag : Byte) (pairs : List (Nat × Nat)) (s : State) : Host.Outcome State Fault Refusal :=
  .next (s.request (.paramSet src tag pairs) src 0x65 tag)

/-- PARAM_GET (R182). -/
def execParamGet (src tag : Byte) (numbers : List Nat) (s : State) : Host.Outcome State Fault Refusal :=
  .next (s.request (.paramGet src tag numbers) src 0x66 tag)

/-- STATUS_GET (R183). -/
def execStatusGet (src tag : Byte) (s : State) : Host.Outcome State Fault Refusal :=
  .next (s.request (.statusGet src tag) src 0x67 tag)

end Sys2Proof.Machine
end

