-- ==== Sys2Proof/Machine/StationCommands.lean ====
section
/-! DEFINITION. Sys2Proof/Machine/StationCommands.lean: the station telegrams, one meaning each: the telegram of
its kind and event arrives on Ring In, and the role of its source decides the block it reaches (R151, R152). -/

namespace Sys2Proof.Machine

open Sys2Proof

/-- TAG_READ (R41 to R43, R151 to R153). -/
def execTagRead (dst src : Byte) (payload : List Byte) (s : State) : Host.Outcome State Fault Refusal :=
  .next (s.arrive ⟨dst, src, kTagRead, payload⟩)

/-- TUNNEL_START (R48, R151 to R153). -/
def execTunnelStart (dst src : Byte) (payload : List Byte) (s : State) : Host.Outcome State Fault Refusal :=
  .next (s.arrive ⟨dst, src, kTunnelStart, payload⟩)

/-- CASE_READ (R49, R56 to R68, R151 to R153). -/
def execCaseRead (dst src : Byte) (payload : List Byte) (s : State) : Host.Outcome State Fault Refusal :=
  .next (s.arrive ⟨dst, src, kCaseRead, payload⟩)

/-- TUNNEL_END (R47, R49, R151, R152). -/
def execTunnelEnd (dst src : Byte) (s : State) : Host.Outcome State Fault Refusal :=
  .next (s.arrive ⟨dst, src, kTunnelEnd, []⟩)

/-- MEASURE (R50, R151 to R153). -/
def execMeasure (dst src : Byte) (payload : List Byte) (s : State) : Host.Outcome State Fault Refusal :=
  .next (s.arrive ⟨dst, src, kMeasure, payload⟩)

/-- SCALE_CHECKED (R20, R95, R151, R152). -/
def execScaleChecked (dst src : Byte) (s : State) : Host.Outcome State Fault Refusal :=
  .next (s.arrive ⟨dst, src, kScaleChecked, []⟩)

/-- CAR_EVENT MOVE_DONE (R100, R102). -/
def execMoveDone (dst src : Byte) (s : State) : Host.Outcome State Fault Refusal :=
  .next (s.arrive ⟨dst, src, kCarEvent, [1]⟩)

/-- CAR_EVENT MOVE_FAULT (R101, R102). -/
def execMoveFault (dst src : Byte) (s : State) : Host.Outcome State Fault Refusal :=
  .next (s.arrive ⟨dst, src, kCarEvent, [2]⟩)

/-- CAR_EVENT READY (R101, R102). -/
def execCarReady (dst src : Byte) (s : State) : Host.Outcome State Fault Refusal :=
  .next (s.arrive ⟨dst, src, kCarEvent, [3]⟩)

/-- SPUR_STATE (R104). -/
def execSpurState (dst src occupancy : Byte) (s : State) : Host.Outcome State Fault Refusal :=
  .next (s.arrive ⟨dst, src, kSpurState, [occupancy]⟩)

/-- WRAPPER_EVENT READY (R107, R110). -/
def execWrapperReady (dst src : Byte) (s : State) : Host.Outcome State Fault Refusal :=
  .next (s.arrive ⟨dst, src, kWrapperEvent, [1]⟩)

/-- WRAPPER_EVENT STANDBY (R107). -/
def execStandby (dst src : Byte) (s : State) : Host.Outcome State Fault Refusal :=
  .next (s.arrive ⟨dst, src, kWrapperEvent, [2]⟩)

/-- WRAPPER_EVENT WRAP_STARTED (R108). -/
def execWrapStarted (dst src : Byte) (s : State) : Host.Outcome State Fault Refusal :=
  .next (s.arrive ⟨dst, src, kWrapperEvent, [3]⟩)

/-- WRAPPER_EVENT WRAP_DONE (R109). -/
def execWrapDone (dst src : Byte) (s : State) : Host.Outcome State Fault Refusal :=
  .next (s.arrive ⟨dst, src, kWrapperEvent, [4]⟩)

/-- WRAPPER_EVENT WRAP_FAULT (R110). -/
def execWrapFault (dst src : Byte) (s : State) : Host.Outcome State Fault Refusal :=
  .next (s.arrive ⟨dst, src, kWrapperEvent, [5]⟩)

/-- LABEL_EVENT JOB_TAKEN (R137, R146). -/
def execJobTaken (dst src : Byte) (body : List Byte) (s : State) : Host.Outcome State Fault Refusal :=
  .next (s.arrive ⟨dst, src, kLabelEvent, 1 :: body⟩)

/-- LABEL_EVENT PALLET_AT_LABEL (R139). -/
def execPalletAtLabel (dst src : Byte) (s : State) : Host.Outcome State Fault Refusal :=
  .next (s.arrive ⟨dst, src, kLabelEvent, [2]⟩)

/-- LABEL_EVENT APPLIED (R140). -/
def execApplied (dst src : Byte) (body : List Byte) (s : State) : Host.Outcome State Fault Refusal :=
  .next (s.arrive ⟨dst, src, kLabelEvent, 3 :: body⟩)

/-- LABEL_EVENT APPLY_FAULT (R141). -/
def execApplyFault (dst src : Byte) (s : State) : Host.Outcome State Fault Refusal :=
  .next (s.arrive ⟨dst, src, kLabelEvent, [4]⟩)

/-- LABEL_EVENT APPLIED of the reject applicator (R146). -/
def execRejectApplicatorApplied (dst src : Byte) (body : List Byte) (s : State) :
    Host.Outcome State Fault Refusal :=
  .next (s.arrive ⟨dst, src, kLabelEvent, 3 :: body⟩)

/-- LABEL_EVENT APPLY_FAULT of the reject applicator (R146). -/
def execRejectApplicatorFault (dst src : Byte) (s : State) : Host.Outcome State Fault Refusal :=
  .next (s.arrive ⟨dst, src, kLabelEvent, [4]⟩)

/-- ROUTED (R143, R144). -/
def execRouted (dst src : Byte) (payload : List Byte) (s : State) : Host.Outcome State Fault Refusal :=
  .next (s.arrive ⟨dst, src, kRouted, payload⟩)

end Sys2Proof.Machine
end

