-- ==== Sys2Proof/Machine/Dispatch.lean ====
section
/-! DEFINITION. Sys2Proof/Machine/Dispatch.lean: the meaning of each command. -/

namespace Sys2Proof.Machine

open Sys2Proof

/-- The effect of a command on everything but the queue of commands. -/
def exec (i : Instr) (s : State) : Host.Outcome State Fault Refusal :=
  match i with
  | .reset => Sys2Proof.Machine.execReset s
  | .resetRelease strap => Sys2Proof.Machine.execResetRelease strap s
  | .invalidTelegram bytes => Sys2Proof.Machine.execInvalidTelegram bytes s
  | .ringInTelegram t => Sys2Proof.Machine.execRingInTelegram t s
  | .ringOutFree => Sys2Proof.Machine.execRingOutFree s
  | .tagRead dst src payload => Sys2Proof.Machine.execTagRead dst src payload s
  | .tunnelStart dst src payload => Sys2Proof.Machine.execTunnelStart dst src payload s
  | .caseRead dst src payload => Sys2Proof.Machine.execCaseRead dst src payload s
  | .tunnelEnd dst src => Sys2Proof.Machine.execTunnelEnd dst src s
  | .measure dst src payload => Sys2Proof.Machine.execMeasure dst src payload s
  | .scaleChecked dst src => Sys2Proof.Machine.execScaleChecked dst src s
  | .moveDone dst src => Sys2Proof.Machine.execMoveDone dst src s
  | .moveFault dst src => Sys2Proof.Machine.execMoveFault dst src s
  | .carReady dst src => Sys2Proof.Machine.execCarReady dst src s
  | .spurState dst src occupancy => Sys2Proof.Machine.execSpurState dst src occupancy s
  | .wrapperReady dst src => Sys2Proof.Machine.execWrapperReady dst src s
  | .standby dst src => Sys2Proof.Machine.execStandby dst src s
  | .wrapStarted dst src => Sys2Proof.Machine.execWrapStarted dst src s
  | .wrapDone dst src => Sys2Proof.Machine.execWrapDone dst src s
  | .wrapFault dst src => Sys2Proof.Machine.execWrapFault dst src s
  | .jobTaken dst src body => Sys2Proof.Machine.execJobTaken dst src body s
  | .palletAtLabel dst src => Sys2Proof.Machine.execPalletAtLabel dst src s
  | .applied dst src body => Sys2Proof.Machine.execApplied dst src body s
  | .applyFault dst src => Sys2Proof.Machine.execApplyFault dst src s
  | .rejectApplicatorApplied dst src body => Sys2Proof.Machine.execRejectApplicatorApplied dst src body s
  | .rejectApplicatorFault dst src => Sys2Proof.Machine.execRejectApplicatorFault dst src s
  | .routed dst src payload => Sys2Proof.Machine.execRouted dst src payload s
  | .compositionComplete => Sys2Proof.Machine.execCompositionComplete s
  | .scanSilenceExpiry slot => Sys2Proof.Machine.execScanSilenceExpiry slot s
  | .measureLimitExpiry slot => Sys2Proof.Machine.execMeasureLimitExpiry slot s
  | .decisionLimitExpiry slot => Sys2Proof.Machine.execDecisionLimitExpiry slot s
  | .wrapWaitLimitExpiry slot => Sys2Proof.Machine.execWrapWaitLimitExpiry slot s
  | .carMoveLimitExpiry slot => Sys2Proof.Machine.execCarMoveLimitExpiry slot s
  | .wrapLimitExpiry slot => Sys2Proof.Machine.execWrapLimitExpiry slot s
  | .warmUpEnd w => Sys2Proof.Machine.execWarmUpEnd w s
  | .labelLimitExpiry slot => Sys2Proof.Machine.execLabelLimitExpiry slot s
  | .exitLimitExpiry slot => Sys2Proof.Machine.execExitLimitExpiry slot s
  | .currencyWindowExpiry => Sys2Proof.Machine.execCurrencyWindowExpiry s
  | .ringSilenceExpiry => Sys2Proof.Machine.execRingSilenceExpiry s
  | .mgmtRequestPart src code tag part count share => Sys2Proof.Machine.execMgmtRequestPart src code tag part count share s
  | .unknownRequestCode src payload => Sys2Proof.Machine.execUnknownRequestCode src payload s
  | .articlePut src tag f => Sys2Proof.Machine.execArticlePut src tag f s
  | .articleDelete src tag key => Sys2Proof.Machine.execArticleDelete src tag key s
  | .articleGet src tag key => Sys2Proof.Machine.execArticleGet src tag key s
  | .articleNext src tag key => Sys2Proof.Machine.execArticleNext src tag key s
  | .articleClear src tag => Sys2Proof.Machine.execArticleClear src tag s
  | .consignmentPut src tag f => Sys2Proof.Machine.execConsignmentPut src tag f s
  | .consignmentDelete src tag number => Sys2Proof.Machine.execConsignmentDelete src tag number s
  | .consignmentGet src tag number => Sys2Proof.Machine.execConsignmentGet src tag number s
  | .consignmentNext src tag number => Sys2Proof.Machine.execConsignmentNext src tag number s
  | .consignmentClear src tag => Sys2Proof.Machine.execConsignmentClear src tag s
  | .planPut src tag f => Sys2Proof.Machine.execPlanPut src tag f s
  | .planDelete src tag licence => Sys2Proof.Machine.execPlanDelete src tag licence s
  | .planGet src tag key => Sys2Proof.Machine.execPlanGet src tag key s
  | .planNext src tag start => Sys2Proof.Machine.execPlanNext src tag start s
  | .planClear src tag => Sys2Proof.Machine.execPlanClear src tag s
  | .stationPut src tag address role inst => Sys2Proof.Machine.execStationPut src tag address role inst s
  | .stationGet src tag key => Sys2Proof.Machine.execStationGet src tag key s
  | .holdAdd src tag f => Sys2Proof.Machine.execHoldAdd src tag f s
  | .holdRelease src tag article lot => Sys2Proof.Machine.execHoldRelease src tag article lot s
  | .holdClear src tag => Sys2Proof.Machine.execHoldClear src tag s
  | .holdNext src tag key => Sys2Proof.Machine.execHoldNext src tag key s
  | .currency src tag generation day => Sys2Proof.Machine.execCurrency src tag generation day s
  | .laneClear src tag lane => Sys2Proof.Machine.execLaneClear src tag lane s
  | .contextGet src tag key => Sys2Proof.Machine.execContextGet src tag key s
  | .caseMapGet src tag key start => Sys2Proof.Machine.execCaseMapGet src tag key start s
  | .retryWaiting src tag => Sys2Proof.Machine.execRetryWaiting src tag s
  | .scaleClear src tag lane => Sys2Proof.Machine.execScaleClear src tag lane s
  | .wrapperConfig src tag wrapper recipes warmUp => Sys2Proof.Machine.execWrapperConfig src tag wrapper recipes warmUp s
  | .templateBegin src tag target => Sys2Proof.Machine.execTemplateBegin src tag target s
  | .templateItems src tag items => Sys2Proof.Machine.execTemplateItems src tag items s
  | .templateEnd src tag => Sys2Proof.Machine.execTemplateEnd src tag s
  | .templateGet src tag template start => Sys2Proof.Machine.execTemplateGet src tag template start s
  | .labelGet src tag key => Sys2Proof.Machine.execLabelGet src tag key s
  | .logGet src tag age => Sys2Proof.Machine.execLogGet src tag age s
  | .watchPut src tag f => Sys2Proof.Machine.execWatchPut src tag f s
  | .watchGet src tag screen part start => Sys2Proof.Machine.execWatchGet src tag screen part start s
  | .watchAck src tag screen => Sys2Proof.Machine.execWatchAck src tag screen s
  | .go src tag => Sys2Proof.Machine.execGo src tag s
  | .drain src tag => Sys2Proof.Machine.execDrain src tag s
  | .halt src tag => Sys2Proof.Machine.execHalt src tag s
  | .restart src tag => Sys2Proof.Machine.execRestart src tag s
  | .clearRejectAll src tag => Sys2Proof.Machine.execClearRejectAll src tag s
  | .paramSet src tag pairs => Sys2Proof.Machine.execParamSet src tag pairs s
  | .paramGet src tag numbers => Sys2Proof.Machine.execParamGet src tag numbers s
  | .statusGet src tag => Sys2Proof.Machine.execStatusGet src tag s
  | .timebasePeriod => Sys2Proof.Machine.execTimebasePeriod s

end Sys2Proof.Machine
end

