-- ==== Sys2Proof/Machine/Step.lean ====
section
/-! DEFINITION. Sys2Proof/Machine/Step.lean: one step of the part, and the command placed first in its queue. -/

namespace Sys2Proof.Machine

open Sys2Proof

/-- The first waiting command is taken from the queue and run on the state with the queue's rest; with no
command waiting the part idles. DESIGN CHOICE, safe (notes/assumptions/6.md). -/
def step (s : State) : Host.Outcome State Fault Refusal :=
  match s.pending with
  | [] => .next s
  | c :: rest => exec c { s with pending := rest }

/-- The command a word spells put first in the queue; the table gives no row bits, so no word spells one. DESIGN
CHOICE, safe (notes/assumptions/7.md). -/
def State.withFetchWord (s : State) (nbits w : Nat) : State :=
  match decodeTableWord nbits w with
  | some c => { s with pending := c :: s.pending }
  | none => s

end Sys2Proof.Machine
end

