-- ==== Sys2Proof/WellFormed.lean ====
section
/-! DEFINITION. Sys2Proof/WellFormed.lean: the commands that can be written down on the ring or given to the
part: telegrams that fit a frame (R150), and requests whose fields fit the widths of their layout and at most 8
parts (section 9.1, R160). The checks an owner makes of a request's fields (BAD_FIELD) are not made here. -/

namespace Sys2Proof

open Machine

/-- A number fits k bytes. -/
def fitsBytes (k n : Nat) : Bool := decide (n < 256 ^ k)

/-- A number fits k bytes and is not the one that stands for absent. -/
def fitsOpt (k : Nat) : Option Nat → Bool
  | some n => decide (n + 1 < 256 ^ k)
  | none => true

/-- A text has at most 255 characters. -/
def fitsText (t : Text) : Bool := decide (t.length ≤ 255)

/-- A licence field is empty or has 18 characters. -/
def fitsLicence (t : Text) : Bool := t.length == 0 || t.length == 18

/-- A list has at most 255 elements. -/
def fitsCount {α : Type} (l : List α) : Bool := decide (l.length ≤ 255)

/-- A payload fits a frame (R150). -/
def fitsPayload (bs : List Byte) : Bool := decide (bs.length ≤ Config.payloadMax)

/-- The key of CONTEXT_GET and its like fits its layout. -/
def fitsKey : ContextKey → Bool
  | .slot n => fitsBytes 1 n
  | .licence t => fitsLicence t

/-- An item of TEMPLATE_ITEMS fits its layout; an unknown kind is none of the nine kinds. -/
def fitsItem : ItemFields → Bool
  | .text t => fitsText t
  | .unknown k => k == 0 || decide (9 < k.toNat)
  | _ => true

/-- A field test of WATCH_PUT fits its layout. -/
def fitsTest (t : TestFields) : Bool :=
  fitsBytes 1 t.offset && fitsBytes 1 t.width && fitsBytes 4 t.lo && fitsBytes 4 t.hi
    && (t.kind == 3 || t.hi == 0) && (t.kind == 1 || t.kind == 2 || t.kind == 3 || t.lo == 0)

/-- The fields of a command fit the widths their layout gives them. -/
def fitsFields : Instr → Bool
  | .articlePut _ _ f =>
    f.key.length == 14 && fitsText f.description && fitsBytes 4 f.caseWeight && fitsBytes 4 f.caseTol
      && fitsBytes 1 f.casesPerLayer && fitsBytes 2 f.layerHeight && fitsBytes 2 f.caseVolume
  | .articleDelete _ _ k => k.length == 14
  | .articleGet _ _ k => k.length == 14
  | .articleNext _ _ k => k.length == 14
  | .consignmentPut _ _ f =>
    f.number.length == 8 && fitsText f.customer && fitsBytes 2 f.minShelfLife && fitsBytes 1 f.maxLots
      && fitsBytes 1 f.sightings && fitsBytes 1 f.labelTemplate && fitsBytes 1 f.bay
      && fitsBytes 1 f.defaultRecipe
  | .consignmentDelete _ _ n => n.length == 8
  | .consignmentGet _ _ n => n.length == 8
  | .consignmentNext _ _ n => n.length == 8
  | .planPut _ _ f =>
    fitsLicence f.licence && f.consignment.length == 8 && fitsBytes 4 f.tare && fitsBytes 2 f.baseHeight
      && fitsOpt 1 f.recipe && fitsCount f.lines
      && f.lines.all fun l => l.article.length == 14 && fitsBytes 1 l.count
  | .planDelete _ _ t => fitsLicence t
  | .planGet _ _ (.licence t) => fitsLicence t
  | .planGet _ _ (.slot n) => fitsBytes 2 n
  | .planNext _ _ n => fitsOpt 2 n
  | .holdAdd _ _ f =>
    f.article.length == 14 && fitsText f.lot && fitsBytes 1 f.code && fitsBytes 2 f.placed
  | .holdRelease _ _ a l => a.length == 14 && fitsText l
  | .holdNext _ _ (some (a, l)) => a.length == 14 && fitsText l
  | .currency _ _ g d => fitsBytes 2 g && fitsBytes 2 d
  | .laneClear _ _ l => fitsBytes 1 l
  | .contextGet _ _ k => fitsKey k
  | .caseMapGet _ _ k n => fitsKey k && fitsBytes 1 n
  | .scaleClear _ _ l => fitsBytes 1 l
  | .wrapperConfig _ _ w rs t => fitsBytes 1 w && fitsCount rs && rs.all (fitsBytes 1) && fitsBytes 4 t
  | .templateBegin _ _ n => fitsBytes 1 n
  | .templateItems _ _ is => fitsCount is && is.all fitsItem
  | .templateGet _ _ n p => fitsBytes 1 n && fitsBytes 1 p
  | .labelGet _ _ k => fitsKey k
  | .logGet _ _ n => fitsBytes 2 n
  | .watchPut _ _ f =>
    fitsBytes 1 f.screen && fitsOpt 1 f.source && fitsOpt 2 f.kind && fitsCount f.tests
      && f.tests.all fitsTest
  | .watchGet _ _ n p st => fitsBytes 1 n && fitsBytes 1 st && (p == 2 || st == 0)
  | .watchAck _ _ n => fitsBytes 1 n
  | .paramSet _ _ ps => fitsCount ps && ps.all fun p => fitsBytes 1 p.1 && fitsBytes 4 p.2
  | .paramGet _ _ ns => fitsCount ns && ns.all (fitsBytes 1)
  | _ => true

/-- A request fits 8 parts (R160). -/
def fitsParts (i : Instr) : Bool :=
  decide ((requestFields i).flatten.length ≤ Config.partMax * requestRoom)

/-- A command that can be given to the part: a telegram whose payload fits a frame, bytes that are no valid
telegram, a request telegram with a tag or without one whose code is not of the table, or a request whose fields
fit. -/
def wellFormed : Instr → Bool
  | .invalidTelegram bytes => (telegramOf bytes).isNone
  | .ringInTelegram t => fitsPayload t.payload
  | .tagRead _ _ p => fitsPayload p
  | .tunnelStart _ _ p => fitsPayload p
  | .caseRead _ _ p => fitsPayload p
  | .measure _ _ p => fitsPayload p
  | .jobTaken _ _ b => fitsPayload (1 :: b)
  | .applied _ _ b => fitsPayload (3 :: b)
  | .rejectApplicatorApplied _ _ b => fitsPayload (3 :: b)
  | .routed _ _ p => fitsPayload p
  | .mgmtRequestPart _ _ _ _ _ share => decide (share.length ≤ requestRoom)
  | .unknownRequestCode _ p => fitsPayload p && (p.head?.all fun c => !knownCodes.contains c)
  | i => fitsFields i && fitsParts i

end Sys2Proof
end

