-- ==== Sys2Proof/Safety.lean ====
section
/-! DEFINITION. Sys2Proof/Safety.lean: the terms in which statements about the part are made: which blocks a change
touches, when the part hears a telegram and takes a request, and the invariants the manual states of its tables,
queues, counters, modes and verdicts. -/

namespace Sys2Proof.Machine

open Sys2Proof

/-! ### Which blocks a change touches (section 1.3 of spec/00_scope.md) -/

/-- The blocks of the state, and the queue of commands. -/
inductive Block where
  | refs | holds | tracker | recon | alloc | composer | labels | ring | mgmt | watch | ctl | pending
  deriving DecidableEq, Repr

/-- Only the blocks listed may differ between two states. -/
structure State.Only (bs : List Block) (s t : State) : Prop where
  refs     : Block.refs ∈ bs ∨ t.refs = s.refs
  holds    : Block.holds ∈ bs ∨ t.holds = s.holds
  tracker  : Block.tracker ∈ bs ∨ t.tracker = s.tracker
  recon    : Block.recon ∈ bs ∨ t.recon = s.recon
  alloc    : Block.alloc ∈ bs ∨ t.alloc = s.alloc
  composer : Block.composer ∈ bs ∨ t.composer = s.composer
  labels   : Block.labels ∈ bs ∨ t.labels = s.labels
  ring     : Block.ring ∈ bs ∨ t.ring = s.ring
  mgmt     : Block.mgmt ∈ bs ∨ t.mgmt = s.mgmt
  watch    : Block.watch ∈ bs ∨ t.watch = s.watch
  ctl      : Block.ctl ∈ bs ∨ t.ctl = s.ctl
  pending  : Block.pending ∈ bs ∨ t.pending = s.pending

/-- Every open context but those of some slots is the same in both states. -/
def State.SameContexts (except : List Slot) (s t : State) : Prop := ∀ j, j ∉ except → t.ctx j = s.ctx j

/-! ### Hearing a telegram and taking a request (R151, R155, R158) -/

/-- The part is out of reset, not passive, and its ring-silence timer runs. -/
def State.Listening (s : State) : Prop :=
  s.ctl.inReset = false ∧ s.passive = false ∧ s.ring.silence.isSome = true

/-- The part hears a telegram of a source that is not its own address. -/
def State.Hears (src : Byte) (s : State) : Prop := s.Listening ∧ src ≠ s.ownAddress

/-- The state once a valid telegram has restarted the ring-silence timer (R155). -/
def State.arrived (s : State) : State := s.onRing fun r => { r with silence := some s.params.ringSilence }

/-- The part takes a request of a source: it hears it, the reply list has room and the source may make it. -/
def State.Takes (src code : Byte) (s : State) : Prop :=
  s.Hears src ∧ s.mgmt.replies.length < Config.replyMax ∧ s.permits src code false = true

/-- The state in which an owner takes a request: the telegram has arrived, and the gathering of its source is
closed. -/
def State.taken (src : Byte) (s : State) : State := s.arrived.endGathering src

/-- A station telegram is screened and forwarded as R151 gives, before its block takes it. -/
def State.passed (t : Telegram) (s : State) : State := s.arrived.passOn t

/-- A reply is formed for a request of a source, on the state that its taking leaves (R159). -/
def State.answered (src code tag : Byte) (x : Status) (r : Result) (s : State) : State :=
  s.reply ⟨src, code, tag, x, r, 0⟩

/-- The part hears a station telegram, and its source fits its kind by holding a role that `pick` reads. -/
def State.Fits {α : Type} (src : Byte) (pick : RoleInst → Option α) (a : α) (s : State) : Prop :=
  s.Hears src ∧ s.roleOf src pick = some a

/-! ### Orders (R19, R45, R113, R156) -/

/-- The order of a unit, which stands in its slot in `held`, leaves as R156 gives, in `u`: a holder on the pending list
keeps its place there; with another holder waiting, or the origin queue full, it joins the list; else the telegram is
placed for the address that holds the role-instance, and the rest is as in `placed`, or, where no address holds it, it
is not sent, as in `unsent`. -/
structure State.OrderOut (h : Holder) (r : RoleInst) (kind : Byte) (payload : List Byte)
    (held placed unsent u : State) : Prop where
  keeps  : h ∈ held.ring.waiting → u = held
  joins  : h ∉ held.ring.waiting → held.ring.waiting ≠ [] ∨ 32 ≤ held.ring.origin.length →
    u = { held with ring := { held.ring with waiting := held.ring.waiting ++ [h] } }
  leaves : held.ring.waiting = [] → held.ring.origin.length < 32 → ∀ a, held.holderOf r = some a →
    u = { placed with ring := { held.ring with
      origin := held.ring.origin ++ [⟨addressByte a, held.ownAddress, kind, payload⟩] } }
  nobody : held.ring.waiting = [] → held.ring.origin.length < 32 → held.holderOf r = none → u = unsent

/-! ### Several commands one after another -/

/-- The state after some commands, each taken in the state the one before it leaves; none where one has no next
state. -/
def afterAll : List Instr → State → Option State
  | [], s => some s
  | c :: cs, s =>
    match exec c s with
    | .next t => afterAll cs t
    | _ => none

/-- The telegrams that carry the fields of a request from a source to the part, one command each (R160). -/
def requestParts (src code tag : Byte) (fields : List Byte) : List Instr :=
  let n := partsFor requestRoom fields.length
  (List.range n).map fun k =>
    .mgmtRequestPart src code tag (BitVec.ofNat 8 (k + 1)) (BitVec.ofNat 8 n) (shareOf requestRoom k fields)

/-! ### Invariants -/

/-- REJECT_ALL is asserted in START, STOPPED and ISOLATED, and a mode is held exactly while ISOLATED, which is
never itself ISOLATED (R178, R180). -/
def State.ModeInv (s : State) : Prop :=
  (s.ctl.mode = .start ∨ s.ctl.mode = .stopped ∨ s.ctl.mode = .isolated → s.ctl.rejectAll = true)
    ∧ (s.ctl.held.isSome = true ↔ s.ctl.mode = .isolated)
    ∧ s.ctl.held ≠ some .isolated

/-- The ceilings of the queues, lists and counts (Capacities; R40, R104, R134, R154 to R161). -/
structure State.CapacityInv (s : State) : Prop where
  forward : s.ring.forward.length ≤ Config.forwardMax
  origin  : s.ring.origin.length ≤ Config.originMax
  run     : s.ring.run ≤ Config.forwardRunMax
  replies : s.mgmt.replies.length ≤ Config.replyMax
  reports : s.mgmt.reports.length ≤ Config.reportMax
  escapes : s.holds.escapes.length ≤ Config.escapeMax
  log     : s.labels.log.length ≤ Config.logMax
  lanes   : ∀ l, (s.queue l).length ≤ Config.laneQueueMax
  lines   : ∀ k, (s.line k).length ≤ Config.labelLineMax
  spur    : s.alloc.spur ≤ Config.spurMax
  clock   : s.recon.clock ≤ Config.max48
  streaks : ∀ l, (s.scale l).streak ≤ 8
  matched : ∀ n : ScreenNo, s.watch[n].count ≤ 65535

/-- The wrapping numbers lie in their ranges (R23, R39, R129, R147, R161). -/
structure State.NumberInv (s : State) : Prop where
  generation  : s.holds.generation ≤ 65535
  reportSeq   : s.mgmt.reportSeq ≤ 65535
  nextAdm     : 1 ≤ s.tracker.nextAdm ∧ s.tracker.nextAdm ≤ Config.max32
  nextSerial  : 1 ≤ s.composer.nextSerial ∧ s.composer.nextSerial ≤ 999999
  nextRelease : 1 ≤ s.labels.nextRelease ∧ s.labels.nextRelease ≤ Config.max32

/-- The origin queue has room only while the pending list is empty (R156). -/
def State.PendingInv (s : State) : Prop :=
  s.ring.origin.length ≤ Config.originMax ∧ (s.ring.waiting ≠ [] → s.ring.origin.length = Config.originMax)

/-- The tables stand in their orders, hold no key twice and no more entries than they may (sections 1.2 to 1.4;
R22). -/
structure State.TableInv (s : State) : Prop where
  articles     : s.refs.articles.Pairwise (fun a b => ltText a.key b.key = true)
  consignments : s.refs.consignments.Pairwise (fun a b => ltText a.number b.number = true)
  plans        : s.refs.plans.Pairwise (fun a b => a.slot < b.slot)
  licences     : s.refs.plans.Pairwise (fun a b => a.licence ≠ b.licence)
  planSlots    : ∀ p ∈ s.refs.plans, p.slot < Config.planMax
  holdOrder    : s.holds.list.Pairwise (fun a b => ltHoldKey a.key b.key = true)
  articleRoom  : s.refs.articles.length ≤ Config.articleMax
  consignRoom  : s.refs.consignments.length ≤ Config.consignmentMax
  holdRoom     : s.holds.list.length ≤ Config.holdMax

/-- A WAITING context has no verdict (R46, R47). -/
def State.WaitingInv (s : State) : Prop := ∀ i c, s.ctx i = some c → c.phase = .waiting → c.verdict = none

/-- A verdict is no better than another (R92). -/
def Verdict.le (a b : Verdict) : Prop := a.rank ≤ b.rank

/-- The line parameters lie in their ranges (R182). -/
def Params.InRange (p : Params) : Prop :=
  ∀ n v, p.get n = some v → (paramRange n).1 ≤ v ∧ v ≤ (paramRange n).2

/-- What R55 and R69 say of a tally: indices once each in ascending order, at most 8 lines of different contents,
each line's count the number of indices counted in it and at least 1, every counted index's line there, the
unknown indices counted, and the saturating counts at most 255. -/
structure Tally.Ok (t : Tally) : Prop where
  order      : t.cases.Pairwise (fun a b => a.1 < b.1)
  indices    : ∀ p ∈ t.cases, 1 ≤ p.1 ∧ p.1 ≤ 255
  few        : t.lines.length ≤ Config.tallyLineMax
  distinct   : t.lines.Pairwise (fun a b => sameContent a.content b.content = false)
  counts     : ∀ l ∈ t.lines, 1 ≤ l.count ∧ l.count = t.cases.countP (fun p => p.2 == .counted l.content)
  lined      : ∀ p ∈ t.cases, ∀ c, p.2 = .counted c → ∃ l ∈ t.lines, l.content = c
  unknowns   : t.unknowns = t.cases.countP (fun p => p.2 == .unknown)
  unindexed  : t.unindexed ≤ 255
  duplicates : t.duplicates ≤ 255

end Sys2Proof.Machine

namespace Sys2Proof

open Machine

/-! ### The ranges of the fields of requests (sections 1.2 to 1.4; R22, R25) -/

/-- The fields of ARTICLE_PUT lie in the ranges of section 1.2. -/
def ArticleFields.InRange (f : ArticleFields) : Prop :=
  isDigits 14 f.key = true ∧ f.key ≠ anyArticle ∧ isTextUpTo 24 f.description = true
    ∧ 1 ≤ f.caseWeight ∧ f.caseWeight ≤ 100000 ∧ f.caseTol ≤ 5000
    ∧ 1 ≤ f.casesPerLayer ∧ f.casesPerLayer ≤ 120 ∧ 1 ≤ f.layerHeight ∧ f.layerHeight ≤ 1000
    ∧ f.caseVolume ≤ 10000 ∧ (f.dutiable = 1 ∨ f.dutiable = 2)

/-- The entry that the fields of ARTICLE_PUT give. -/
def ArticleFields.entry (f : ArticleFields) : Article :=
  ⟨f.key, f.description, f.caseWeight, f.caseTol, f.casesPerLayer, f.layerHeight, f.caseVolume, f.dutiable == 1⟩

/-- The fields of CONSIGNMENT_PUT that are not clamped lie in the ranges of section 1.3. -/
def ConsignmentFields.InRange (f : ConsignmentFields) : Prop :=
  isDigits 8 f.number = true ∧ f.number ≠ noConsignment ∧ isTextUpTo 24 f.customer = true
    ∧ 1 ≤ f.maxLots ∧ f.maxLots ≤ 4 ∧ (f.dutyStatus = 1 ∨ f.dutyStatus = 2) ∧ f.labelTemplate ≤ 15
    ∧ 1 ≤ f.bay ∧ f.bay ≤ 24 ∧ f.defaultRecipe ≤ 7

/-- The clamped fields of CONSIGNMENT_PUT lie in their ranges already. -/
def ConsignmentFields.Unclamped (f : ConsignmentFields) : Prop :=
  f.minShelfLife ≤ 730 ∧ 1 ≤ f.sightings ∧ f.sightings ≤ 8

/-- The entry that the fields of CONSIGNMENT_PUT and some totals give. -/
def ConsignmentFields.entry (f : ConsignmentFields) (t : Totals) : Consignment where
  number        := f.number
  customer      := f.customer
  minShelfLife  := if 730 < f.minShelfLife then 730 else f.minShelfLife
  maxLots       := f.maxLots
  sightings     := if f.sightings = 0 then 1 else if 8 < f.sightings then 8 else f.sightings
  duty          := if f.dutyStatus = 1 then .bonded else .dutyPaid
  labelTemplate := Fin.ofNat 16 f.labelTemplate
  bay           := f.bay
  defaultRecipe := f.defaultRecipe
  totals        := t

/-- The fields of PLAN_PUT lie in the ranges of section 1.4. -/
def PlanFields.InRange (f : PlanFields) : Prop :=
  isDigits 18 f.licence = true ∧ isDigits 8 f.consignment = true ∧ f.consignment ≠ noConsignment
    ∧ 5000 ≤ f.tare ∧ f.tare ≤ 60000 ∧ 100 ≤ f.baseHeight ∧ f.baseHeight ≤ 200
    ∧ (∀ r, f.recipe = some r → r ≤ 7) ∧ 1 ≤ f.lines.length ∧ f.lines.length ≤ 8
    ∧ (∀ l ∈ f.lines, isDigits 14 l.article = true ∧ l.article ≠ anyArticle ∧ 1 ≤ l.count ∧ l.count ≤ 240)
    ∧ f.lines.Pairwise fun a b => a.article ≠ b.article

/-- A LOADED plan with the fields of PLAN_PUT. -/
def PlanFields.Stored (f : PlanFields) (p : Plan) : Prop :=
  p.licence = f.licence ∧ p.consignment = f.consignment ∧ p.tare = f.tare ∧ p.baseHeight = f.baseHeight
    ∧ p.recipe = f.recipe ∧ p.lines = f.lines

/-- The fields of HOLD_ADD lie in the ranges of R22 and R25. -/
def HoldFields.InRange (f : HoldFields) : Prop :=
  isDigits 14 f.article = true ∧ isLot f.lot = true
    ∧ ((1 ≤ f.reason.toNat ∧ f.reason.toNat ≤ 3 ∧ f.code = 0) ∨ (f.reason = 4 ∧ f.code ≤ 15)) ∧ f.placed ≤ 36524

/-- The fields of a test lie in the ranges of R170: an offset up to 119, a width of 1, 2 or 4, and one or two values
that the width holds, in order. -/
def TestFields.InRange (f : TestFields) : Prop :=
  f.offset ≤ 119 ∧ (f.width = 1 ∨ f.width = 2 ∨ f.width = 4)
    ∧ (((f.kind = 1 ∨ f.kind = 2) ∧ f.lo < 256 ^ f.width)
      ∨ (f.kind = 3 ∧ f.lo ≤ f.hi ∧ f.hi < 256 ^ f.width) ∨ f.kind = 4)

/-- The settings of WATCH_PUT lie in the ranges of R170; enabled is 1 or 2, and the kind at most 255
(notes/assumptions/18.md and 35.md). -/
def WatchFields.InRange (f : WatchFields) : Prop :=
  (f.enabled = 1 ∨ f.enabled = 2) ∧ (∀ a, f.source = some a → a ≤ 31) ∧ (∀ k, f.kind = some k → k ≤ 255)
    ∧ f.tests.length ≤ 2 ∧ (∀ t ∈ f.tests, t.InRange) ∧ (f.combine = 1 ∨ f.combine = 2)
    ∧ 1 ≤ f.action.toNat ∧ f.action.toNat ≤ 4

/-- A screen's test with the settings of a test of WATCH_PUT, and no last value. -/
def TestFields.Stored (f : TestFields) (x : ScreenTest) : Prop :=
  x.offset = f.offset ∧ x.width = f.width ∧ x.last = none ∧ (f.kind = 1 → x.test = .equal f.lo)
    ∧ (f.kind = 2 → x.test = .notEqual f.lo) ∧ (f.kind = 3 → x.test = .inRange f.lo f.hi)
    ∧ (f.kind = 4 → x.test = .changed)

/-- A screen with the settings of WATCH_PUT (R164, R170). -/
def WatchFields.Stored (f : WatchFields) (x : Screen) : Prop :=
  (x.enabled = true ↔ f.enabled = 1) ∧ x.source = f.source ∧ x.kind = f.kind
    ∧ List.Forall₂ TestFields.Stored f.tests x.tests ∧ (x.combine = .all ↔ f.combine = 1)
    ∧ (x.action = .alert ↔ f.action = 1) ∧ (x.action = .alertCapture ↔ f.action = 2)
    ∧ (x.action = .consume ↔ f.action = 3) ∧ (x.action = .consumeAlert ↔ f.action = 4)

end Sys2Proof
end

