-- ==== Sys2Proof/Certificates/Slice0/Obligations.lean ====
section
/-! DEFINITION. Sys2Proof/Certificates/Slice0/Obligations.lean: the statements for the provers. Each is a Prop about
the block's commands, its step or its parts; OBLIGATIONS.json lists them. A docstring names the rules it rests on and,
where a clause is the model's choice, the log entry. -/

open Sys2Proof Sys2Proof.Machine

/-- The block's one step: the command at the front of the queue is run on the state with the queue's rest; with no
command waiting the part idles (the model's choice, notes/assumptions/6.md). -/
def Obligations.StepRunsFront : Prop :=
  (∀ (c : Instr) (rest : List Instr) (s : State), s.pending = c :: rest → step s = exec c { s with pending := rest })
    ∧ ∀ s : State, s.pending = [] → step s = .next s

/-- Every command has a next state in every state, and none touches the queue of commands. The queue is the model's own,
and that RESET leaves it as it was is the model's choice (notes/assumptions/1.md); so is what a command that is no event
of the part does, which is nothing (notes/assumptions/1.md and 5.md). -/
def Obligations.EveryCommandGoesOn : Prop :=
  ∀ (c : Instr) (s : State), ∃ t, exec c s = .next t ∧ t.pending = s.pending

/-- R181 and each block's reset rule: RESET leaves every block at its reset values, and the queue of commands as it
was (the model's choice, notes/assumptions/1.md).
R181, R155. RESET_RELEASE ends the reset: the strap is sampled as the node address, and the timebase and the
ring-silence timer start; nothing else changes. A part that is not in reset keeps its address.
R181. While the reset pin is asserted no period is counted, no timer runs and the part hears nothing: no command
but RESET and RESET_RELEASE changes anything (for all but the timebase, the model's reading,
notes/assumptions/1.md). -/
def Obligations.ResetAndRelease : Prop :=
  (∀ s : State, ∃ t, exec .reset s = .next t ∧ t = { State.reset with pending := s.pending }
      ∧ t.ctl.mode = .start ∧ t.ctl.rejectAll = true ∧ t.ctl.held = none ∧ t.ctl.params = Params.default
      ∧ t.refs.articles = [] ∧ t.refs.consignments = [] ∧ t.refs.plans = []
      ∧ (∀ a : Fin 32, t.refs.stations[a] = [])
      ∧ t.holds.list = [] ∧ t.holds.generation = 0 ∧ t.holds.currency = .stale ∧ t.holds.day = none
      ∧ (∀ i, t.ctx i = none) ∧ t.tracker.nextAdm = 1 ∧ (∀ l, t.queue l = [] ∧ t.tracker.lanes[l].infeed = .stop)
      ∧ t.recon.clock = 0 ∧ (∀ l, t.scale l = ⟨.normal, 0⟩)
      ∧ t.alloc.car = Car.reset ∧ (∀ w, t.wrapper w = Wrapper.reset) ∧ t.alloc.spur = 0
      ∧ (∀ n : TemplateNo, t.composer.templates[n] = []) ∧ t.composer.nextSerial = 1
      ∧ t.labels.log = [] ∧ t.labels.nextRelease = 1
      ∧ t.ring.forward = [] ∧ t.ring.origin = [] ∧ t.ring.overload = none
      ∧ t.mgmt.replies = [] ∧ t.mgmt.reports = [] ∧ t.mgmt.reportSeq = 0
      ∧ (∀ n : ScreenNo, t.watch[n] = Screen.reset))
  ∧ (∀ (s : State) (strap : BitVec 5),
       (s.ctl.inReset = true → ∃ t, exec (.resetRelease strap) s = .next t
         ∧ t.ctl = { s.ctl with inReset := false, address := strap.toFin }
         ∧ t.ring = { s.ring with silence := some s.ctl.params.ringSilence }
         ∧ State.Only [.ctl, .ring] s t)
       ∧ (s.ctl.inReset = false → exec (.resetRelease strap) s = .next s))
  ∧ (∀ (s : State) (c : Instr), s.ctl.inReset = true → c ≠ .reset → (∀ strap, c ≠ .resetRelease strap) →
       exec c s = .next s)

/-- R181, R90, R128. A period of the timebase is counted by every running timer, by the composition in flight and by
the decision clock, and by nothing else. That they count in a passive part too, that a timer stays at 0 once it is
there, and that a period takes no expiry by itself are the model's choice (notes/assumptions/5.md). -/
def Obligations.TimebaseCounts : Prop :=
  ∀ s : State, s.ctl.inReset = false → ∃ t, exec .timebasePeriod s = .next t
    ∧ (∀ i, t.ctx i = (s.ctx i).map fun c => { c with timer := c.timer.map (· - 1) })
    ∧ t.tracker.lanes = s.tracker.lanes ∧ t.tracker.nextAdm = s.tracker.nextAdm
    ∧ t.holds = { s.holds with window := s.holds.window.map (· - 1) }
    ∧ (∀ w, t.wrapper w = { s.wrapper w with warmTimer := (s.wrapper w).warmTimer.map (· - 1) })
    ∧ t.alloc.car = s.alloc.car ∧ t.alloc.spur = s.alloc.spur ∧ t.alloc.held = s.alloc.held
    ∧ t.alloc.arbiterDue = s.alloc.arbiterDue
    ∧ t.composer = { s.composer with
        flight := s.composer.flight.map fun f => { f with remaining := f.remaining - 1 } }
    ∧ t.ring = { s.ring with silence := s.ring.silence.map (· - 1) }
    ∧ t.recon = { s.recon with clock := min 281474976710655 (s.recon.clock + 1) }
    ∧ State.Only [.tracker, .holds, .alloc, .composer, .ring, .recon] s t

/-- R150. Bytes on Ring In are a valid telegram exactly when they are at least 6, byte 3 is at most 120, their number is
6 plus byte 3, and the last two are the CRC-16 of those before them. Bytes that are not are dropped, with no effect
and no restart of the ring-silence timer; a valid telegram is taken whatever its kind and addresses. -/
def Obligations.InvalidTelegramsAreDropped : Prop :=
  ∀ bytes : List Byte,
    ((telegramOf bytes).isSome = true ↔
      6 ≤ bytes.length ∧ (bytes.getD 3 0).toNat ≤ 120 ∧ bytes.length = 6 + (bytes.getD 3 0).toNat
        ∧ bytes.drop (bytes.length - 2) = beBytes 2 (crc16 (bytes.take (bytes.length - 2))).toNat)
    ∧ (telegramOf bytes = none → ∀ s : State, exec (.invalidTelegram bytes) s = .next s)
    ∧ (∀ t, telegramOf bytes = some t → ∀ s : State,
        exec (.invalidTelegram bytes) s = exec (.ringInTelegram t) s
          ∧ (s.ctl.inReset = false → ∃ u, exec (.ringInTelegram t) s = .next u
            ∧ u.ring.silence = some s.ctl.params.ringSilence))

/-- Section 9.1, Frame. Framing a telegram whose payload has at most 120 bytes and reading the frame gives the telegram
back, and what is read from some bytes frames to those bytes. -/
def Obligations.FrameRoundTrip : Prop :=
  (∀ t : Telegram, t.payload.length ≤ 120 → telegramOf (frameBytes t) = some t)
    ∧ ∀ (bytes : List Byte) (t : Telegram), telegramOf bytes = some t →
        t.payload.length ≤ 120 ∧ frameBytes t = bytes

/-- R151. A valid telegram that the part hears restarts the ring-silence timer, and the first case that applies decides:
one of the part's own source is removed; one to the part is consumed, a MGMT_REQUEST by the Responder and a station
telegram by its block; any other is offered to the screens, forwarded unless they consume it, and handed to its block
in either case. A kind that is no station telegram's has no further effect.
R154, R162, R181. A passive part forwards every valid telegram while its forward queue holds fewer than 8, drops it
with the overload flag set when it holds 8, and does nothing else but restart its ring-silence timer. -/
def Obligations.RingInCases : Prop :=
  (∀ (s : State) (t : Telegram), s.Listening → t.payload.length ≤ 120 →
      (t.src = s.ownAddress → exec (.ringInTelegram t) s = .next s.arrived)
      ∧ (t.src ≠ s.ownAddress → t.dst = s.ownAddress → t.kind = 0x30 →
          exec (.ringInTelegram t) s = .next (s.arrived.takeMgmt t))
      ∧ (t.src ≠ s.ownAddress → t.dst = s.ownAddress → t.kind ≠ 0x30 →
          exec (.ringInTelegram t) s = .next (s.arrived.hand t))
      ∧ (t.src ≠ s.ownAddress → t.dst ≠ s.ownAddress → s.arrived.consumed t = true →
          exec (.ringInTelegram t) s = .next ((s.arrived.offerScreens t).hand t))
      ∧ (t.src ≠ s.ownAddress → t.dst ≠ s.ownAddress → s.arrived.consumed t = false →
          exec (.ringInTelegram t) s = .next (((s.arrived.offerScreens t).forward t).hand t))
      ∧ (∀ u : State, t.kind.toNat = 0 ∨ 0x0B < t.kind.toNat → u.hand t = u))
  ∧ (∀ (s : State) (t : Telegram), s.ctl.inReset = false → s.passive = true → s.ctl.mode = .start →
       t.payload.length ≤ 120 → ∃ u, exec (.ringInTelegram t) s = .next u
         ∧ (s.ring.forward.length < 8 →
             u.ring = { s.ring with forward := s.ring.forward ++ [t], silence := some s.ctl.params.ringSilence })
         ∧ (8 ≤ s.ring.forward.length →
             u.ring = { s.ring with
               overload := some (s.ring.overload.getD .forwardFull), silence := some s.ctl.params.ringSilence })
         ∧ State.Only [.ring] s u)

/-- R157, R156. The choice of Ring Out by the two queues and the forward run, and what each choice leaves of them: with
an originated telegram sent and no holder waiting, the rest of the origin queue; with holders waiting, that rest with
what they place behind it. With both queues empty nothing is begun (the model's choice, notes/assumptions/11.md).
R156. The room that an originated telegram leaves in a full origin queue goes to the first holder of the pending list,
whichever it is: it places one telegram at the tail, and goes to the tail of the list if it has more to place, else
leaves it. An emission that is not placed gives its holder no second turn (the model's choice, notes/assumptions/36.md).
Two holders, the report list with two reports and a lane's infeed, take two rooms in turn, one telegram each, and the
report list waits again. -/
def Obligations.RingOutChoice : Prop :=
  ∀ s : State, s.ctl.inReset = false →
    (∀ f fs, s.ring.forward = f :: fs → s.ring.origin = [] →
      ∃ u, exec .ringOutFree s = .next u ∧ State.Only [.ring] s u
        ∧ u.ring = { s.ring with forward := fs, ringOut := some f, run := min 4 (s.ring.run + 1) })
    ∧ (∀ f fs, s.ring.forward = f :: fs → s.ring.origin ≠ [] → s.ring.run < 4 →
      ∃ u, exec .ringOutFree s = .next u ∧ State.Only [.ring] s u
        ∧ u.ring = { s.ring with forward := fs, ringOut := some f, run := s.ring.run + 1 })
    ∧ (∀ o os, s.ring.origin = o :: os → s.ring.forward = [] ∨ 4 ≤ s.ring.run →
      ∃ u, exec .ringOutFree s = .next u ∧ u.ring.ringOut = some o ∧ u.ring.run = 0
        ∧ u.ring.forward = s.ring.forward ∧ os <+: u.ring.origin
        ∧ State.Only [.ring, .tracker, .alloc, .mgmt, .holds] s u
        ∧ (s.ring.waiting = [] → u.ring.origin = os ∧ State.Only [.ring] s u))
    ∧ (s.ring.forward = [] → s.ring.origin = [] →
      ∃ u, exec .ringOutFree s = .next u ∧ State.Only [.ring] s u
        ∧ u.ring = { s.ring with ringOut := none })
    ∧ (∀ o os h rest v v', s.ring.origin = o :: os → os.length = 31 → s.ring.forward = [] ∨ 4 ≤ s.ring.run →
      s.ring.waiting = h :: rest →
      v = { s with ring := { s.ring with origin := os, ringOut := some o, run := 0, waiting := rest } } →
      (∀ t, v.take h = (some t, v') → ∃ u, exec .ringOutFree s = .next u
        ∧ u.ring = { v'.ring with
            origin := os ++ [t], waiting := if v'.hasMore h then rest ++ [h] else rest }
        ∧ u = { v' with ring := u.ring })
      ∧ (v.take h = (none, v') → v'.hasMore h = false → rest = [] → exec .ringOutFree s = .next v'))
    ∧ ∀ o o' os (l : Lane) c (a : Fin 32) (d : Byte) r₁ r₂ rs, s.ring.forward = [] → s.ring.origin = o :: o' :: os →
      os.length = 30 → s.ring.waiting = [.reports, .infeed l] → s.mgmt.reports = r₁ :: r₂ :: rs →
      s.reportDest = some d → s.tracker.lanes[l].order = some c → s.holderOf (.infeed l) = some a →
      ∃ u, afterAll [.ringOutFree, .ringOutFree] s = some u
        ∧ u.ring = { s.ring with
            origin := os ++
              [⟨d, s.ownAddress, 0x32, [BitVec.ofNat 8 r₁.kind] ++ beBytes 2 s.mgmt.reportSeq
                  ++ [if s.mgmt.lostReport then 1 else 0] ++ r₁.fields.flatten⟩,
               ⟨addressByte a, s.ownAddress, 0x20, [if c = .go then 1 else 2]⟩]
            ringOut := some o', run := 0, waiting := [.reports] }
        ∧ u.mgmt = { s.mgmt with
            reports := r₂ :: rs, reportSeq := (s.mgmt.reportSeq + 1) % 65536, lostReport := false }
        ∧ u.tracker.lanes[l] = { s.tracker.lanes[l] with order := none, lastPlaced := some c }
        ∧ (∀ m : Lane, m ≠ l → u.tracker.lanes[m] = s.tracker.lanes[m]) ∧ State.SameContexts [] s u
        ∧ State.Only [.ring, .mgmt, .tracker] s u

/-- R157: "one originated telegram goes out after every 4 consecutive forwarded ones". Whatever waits to be forwarded, the
oldest originated telegram is begun within 5 choices of Ring Out. -/
def Obligations.OriginatedGoesOutWithinFive : Prop :=
  ∀ (s : State) (o : Telegram) (os : List Telegram), s.ctl.inReset = false → s.ring.origin = o :: os →
    ∃ n u, 1 ≤ n ∧ n ≤ 5 ∧ afterAll (List.replicate n .ringOutFree) s = some u ∧ u.ring.ringOut = some o

/-- R156, R159, R160. A reply of one part formed while nothing waits and the origin queue has room is placed at its tail,
to the requester, with the request code, the tag, the status, part 1 of 1 and the result fields. One whose fields take
more bytes than the 115 a part has room for is divided into as few parts as carry them (where the fields are cut is the
model's choice, notes/assumptions/4.md), each with the code, the tag and the status; its parts are placed in part order
while there is room. One with a part left, with the origin queue full, or with a holder waiting, waits as one reply of
the reply list, whose holder waits on the pending list; one formed while that holder waits joins the tail of the list.
R156, R160. Each room given to the reply list's holder takes the next part of its oldest reply, which leaves the list when
its last part is placed; the holder waits again while the list has a part to place.
R161. A report formed while 32 wait is dropped and sets the lost-report mark. With fewer waiting, and the origin queue
full or a holder waiting, it joins the tail of the report list, whose holder waits on the pending list, once. With
nothing waiting and room in the origin queue it is placed at its tail, to report_address or, where that is 0, to the
holder of DISPATCH_SYSTEM, with the report sequence and the lost-report mark; the sequence then advances, 65535 being
followed by 0, and the mark is cleared. With no destination, or the part's own, it is not placed, takes no number and
sets the mark. -/
def Obligations.RepliesAndReportsLeave : Prop :=
  (∀ (s : State) (dst code tag : Byte) (x : Status) (r : Result), s.mgmt.replies = [] →
      Holder.replies ∉ s.ring.waiting →
      (r.fields.flatten.length ≤ 115 → s.ring.waiting = [] → s.ring.origin.length < 32 →
        (s.answered dst code tag x r).ring = { s.ring with
          origin := s.ring.origin ++
            [⟨dst, s.ownAddress, 0x31, [code, tag, BitVec.ofNat 8 x.code, 1, 1] ++ r.fields.flatten⟩] }
        ∧ State.Only [.ring] s (s.answered dst code tag x r))
      ∧ (s.ring.waiting ≠ [] ∨ 32 ≤ s.ring.origin.length →
        (s.answered dst code tag x r).mgmt = { s.mgmt with replies := [⟨dst, code, tag, x, r, 0⟩] }
        ∧ (s.answered dst code tag x r).ring = { s.ring with waiting := s.ring.waiting ++ [.replies] }
        ∧ State.Only [.ring, .mgmt] s (s.answered dst code tag x r))
      ∧ ∀ (bs : List Byte) (n : Nat) (part : Nat → Telegram), bs = r.fields.flatten → 115 < bs.length →
        n = (bs.length + 114) / 115 →
        (∀ k, part k = ⟨dst, s.ownAddress, 0x31, [code, tag, BitVec.ofNat 8 x.code, BitVec.ofNat 8 (k + 1),
          BitVec.ofNat 8 n] ++ (bs.drop (115 * k)).take 115⟩) → s.ring.waiting = [] →
        (s.ring.origin.length + n ≤ 32 →
          (s.answered dst code tag x r).ring = { s.ring with origin := s.ring.origin ++ (List.range n).map part }
          ∧ State.Only [.ring] s (s.answered dst code tag x r))
        ∧ ∀ m, m < n → s.ring.origin.length + m = 32 →
          (s.answered dst code tag x r).ring = { s.ring with
            origin := s.ring.origin ++ (List.range m).map part, waiting := [.replies] }
          ∧ (s.answered dst code tag x r).mgmt = { s.mgmt with replies := [⟨dst, code, tag, x, r, m⟩] }
          ∧ State.Only [.ring, .mgmt] s (s.answered dst code tag x r))
  ∧ (∀ (s : State) (dst code tag : Byte) (x : Status) (r : Result), Holder.replies ∈ s.ring.waiting →
       s.answered dst code tag x r = s.onMgmt fun m => { m with replies := m.replies ++ [⟨dst, code, tag, x, r, 0⟩] })
  ∧ (∀ (s : State) (y : Reply) (more : List Reply) (rest : List Holder) (o : Telegram) (os : List Telegram)
       (bs : List Byte) (n : Nat), s.ctl.inReset = false → s.ring.forward = [] ∨ 4 ≤ s.ring.run →
       s.ring.origin = o :: os → os.length = 31 → s.ring.waiting = .replies :: rest → s.mgmt.replies = y :: more →
       bs = y.result.fields.flatten → n = max 1 ((bs.length + 114) / 115) →
       ∃ u, exec .ringOutFree s = .next u
         ∧ u.ring = { s.ring with
             origin := os ++ [⟨y.dst, s.ownAddress, 0x31, [y.code, y.tag, BitVec.ofNat 8 y.status.code,
               BitVec.ofNat 8 (y.sent + 1), BitVec.ofNat 8 n] ++ (bs.drop (115 * y.sent)).take 115⟩]
             ringOut := some o, run := 0
             waiting := if n ≤ y.sent + 1 ∧ more = [] then rest else rest ++ [.replies] }
         ∧ u.mgmt = { s.mgmt with
             replies := if n ≤ y.sent + 1 then more else { y with sent := y.sent + 1 } :: more }
         ∧ State.Only [.ring, .mgmt] s u)
  ∧ (∀ (s : State) (r : Report),
       (32 ≤ s.mgmt.reports.length → s.report r = s.onMgmt fun m => { m with lostReport := true })
       ∧ (s.mgmt.reports.length < 32 → s.ring.waiting ≠ [] ∨ 32 ≤ s.ring.origin.length →
           (s.report r).mgmt = { s.mgmt with reports := s.mgmt.reports ++ [r] }
           ∧ (s.report r).ring = { s.ring with waiting :=
               if Holder.reports ∈ s.ring.waiting then s.ring.waiting else s.ring.waiting ++ [.reports] }
           ∧ State.Only [.ring, .mgmt] s (s.report r))
       ∧ (s.mgmt.reports = [] → s.ring.waiting = [] → s.ring.origin.length < 32 → ∀ d : Byte,
           (s.ctl.params.reportAddress = 0 → (s.holderOf .dispatchSystem).map addressByte = some d) →
           (s.ctl.params.reportAddress ≠ 0 → d = BitVec.ofNat 8 s.ctl.params.reportAddress) →
           (d ≠ s.ownAddress →
             (s.report r).ring = { s.ring with
               origin := s.ring.origin ++ [⟨d, s.ownAddress, 0x32,
                 [BitVec.ofNat 8 r.kind] ++ beBytes 2 s.mgmt.reportSeq ++ [if s.mgmt.lostReport then 1 else 0]
                   ++ r.fields.flatten⟩] }
             ∧ (s.report r).mgmt = { s.mgmt with
               reportSeq := (s.mgmt.reportSeq + 1) % 65536, lostReport := false }
             ∧ State.Only [.ring, .mgmt] s (s.report r))
           ∧ (d = s.ownAddress → s.report r = s.onMgmt fun m => { m with lostReport := true }))
       ∧ (s.mgmt.reports = [] → s.ring.waiting = [] → s.ring.origin.length < 32 →
           s.ctl.params.reportAddress = 0 → s.holderOf .dispatchSystem = none →
           s.report r = s.onMgmt fun m => { m with lostReport := true }))

/-- R165, R166. A screen matches a telegram exactly when it is enabled, its source and kind are ANY or the telegram's,
and its tests, by their combine setting, are true of the payload's fields, a test whose field does not lie in the
payload being false and CHANGED needing a last value.
R165. A screen that judges a telegram stores in each test the field it reads as its last value, where the field lies in
the payload, and nothing else.
R165 to R168. A telegram offered to the screens: every enabled screen whose filters pass stores the fields it read
and no other screen's record changes, but that of the lowest-numbered matching screen, which acts: its match count
rises by 1 up to 65,535; an action other than CONSUME moves its latch, from CLEAR to PENDING and from PENDING to
OVERRUN, ALERT_CAPTURE capturing the telegram at the move from CLEAR. A report is formed at the move from CLEAR only,
and the telegram is consumed by CONSUME and CONSUME_ALERT only. -/
def Obligations.ScreensJudgeAndAct : Prop :=
  (∀ (x : Screen) (t : Telegram),
      (x.hits t = true ↔ x.enabled = true ∧ (x.source = none ∨ x.source = some t.src.toNat)
        ∧ (x.kind = none ∨ x.kind = some t.kind.toNat)
        ∧ (x.tests = [] ∨ (x.combine = .all ∧ ∀ y ∈ x.tests, y.holds t.payload = true)
          ∨ (x.combine = .any ∧ ∃ y ∈ x.tests, y.holds t.payload = true)))
      ∧ (x.judges t = true ↔ x.enabled = true ∧ (x.source = none ∨ x.source = some t.src.toNat)
        ∧ (x.kind = none ∨ x.kind = some t.kind.toNat))
      ∧ (x.judges t = true → x.remember t = { x with tests := x.tests.map fun y =>
          if y.offset + y.width ≤ t.payload.length then
            { y with last := some (ofBytes ((t.payload.drop y.offset).take y.width)) }
          else y })
      ∧ ∀ y : ScreenTest,
          (t.payload.length < y.offset + y.width → y.holds t.payload = false)
          ∧ (y.offset + y.width ≤ t.payload.length → ∀ n, n = ofBytes ((t.payload.drop y.offset).take y.width) →
            (∀ v, y.test = .equal v → (y.holds t.payload = true ↔ n = v))
            ∧ (∀ v, y.test = .notEqual v → (y.holds t.payload = true ↔ n ≠ v))
            ∧ (∀ lo hi, y.test = .inRange lo hi → (y.holds t.payload = true ↔ lo ≤ n ∧ n ≤ hi))
            ∧ (y.test = .changed → (y.holds t.payload = true ↔ ∃ v, y.last = some v ∧ v ≠ n))))
  ∧ (∀ (s : State) (t : Telegram),
       (∀ m : ScreenNo, (s.watch[m]).judges t = false → (s.watch[m]).remember t = s.watch[m])
       ∧ ((∀ m : ScreenNo, (s.watch[m]).hits t = false) →
           s.consumed t = false ∧ (∀ m : ScreenNo, (s.offerScreens t).watch[m] = (s.watch[m]).remember t)
           ∧ State.Only [.watch] s (s.offerScreens t))
       ∧ ∀ n : ScreenNo, (s.watch[n]).hits t = true → (∀ m < n, (s.watch[m]).hits t = false) →
           ∃ x u, x = s.watch[n] ∧ u = s.offerScreens t
             ∧ (s.consumed t = true ↔ x.action = .consume ∨ x.action = .consumeAlert)
             ∧ (u.watch[n]).count = min 65535 (x.count + 1) ∧ (u.watch[n]).tests = (x.remember t).tests
             ∧ (x.action = .consume → (u.watch[n]).latch = x.latch ∧ (u.watch[n]).capture = x.capture)
             ∧ (x.action ≠ .consume →
                 (u.watch[n]).latch = (if x.latch = .clear then .pending else .overrun)
                   ∧ (u.watch[n]).capture =
                     if x.latch = .clear ∧ x.action = .alertCapture then frameBody t else x.capture)
             ∧ (∀ m : ScreenNo, m ≠ n → u.watch[m] = (s.watch[m]).remember t)
             ∧ State.Only [.watch, .ring, .mgmt] s u
             ∧ (x.action = .consume ∨ x.latch ≠ .clear → State.Only [.watch] s u)
             ∧ (x.action ≠ .consume → x.latch = .clear →
                 u = State.report (watchAlert n u.watch[n] (some (x.hitOf t))) { s with watch := u.watch }))

/-- R158, R160. Sending a request's fields to the part in the telegrams that R160 divides them into, one after another,
leaves the state that the request, taken whole, leaves. Where the fields are cut, and that a request command stands for
the telegram that completes it, are the model's choices (notes/assumptions/4.md and 10.md). -/
def Obligations.PartsMakeTheRequest : Prop :=
  ∀ (s t : State) (src code tag : Byte) (fields : List Byte) (i : Instr), s.Hears src → code ∈ knownCodes →
    fields.length ≤ 8 * 116 → whole (takeRequest code src tag) fields = some i → exec i s = .next t →
    afterAll (requestParts src code tag fields) s = some t

/-- Section 9.1, R160. The fields of every well-formed request, written out in order, are read back as that request.
The layout of the fields that is read back is in part the model's choice (notes/assumptions/2.md). -/
def Obligations.RequestRoundTrip : Prop :=
  ∀ (i : Instr) (code : Byte), wellFormed i = true → requestCode i = some code →
    ∃ src tag, whole (takeRequest code src tag) (requestFields i).flatten = some i

/-- R158, R159, R160. A whole request telegram that the part hears is checked in the order of R158: with 16 replies
waiting it is not taken and the overload flag is set with cause REPLY_OVERRUN; an unknown code gives BAD_REQUEST; a
requester without permission gets NOT_PERMITTED, for a STATION_PUT unless it is the claim of the dispatch system role
while no address holds that role; fields that do not fit the layout give BAD_REQUEST (a STATION_PUT's never the claim:
the model's choice, notes/assumptions/37.md); a permitted request that fits is taken by its owner. A payload without a
tag forms a RING report and no reply.
R23, R30, R147, R173. A refusal of a hold request carries the generation, of CURRENCY also the day and the state, of
LOG_GET the two numbers, of a mode request the mode and the level, and of any other request nothing (the fields of a
refusal are in part the model's choice, notes/assumptions/13.md).
R160. A part 1 of 2 to 8 opens a gathering for its source, discarding an open one; a part that follows is added; a part
other than 1 that does not follow, part 0 included (for which R160 says nothing: the model's choice,
notes/assumptions/14.md, as are the end of the gathering and the BAD_REQUEST), ends the gathering and is refused
BAD_REQUEST. No other source's gathering changes. -/
def Obligations.RequestsAreScreened : Prop :=
  (∀ (s : State) (src code tag : Byte) (share : List Byte), s.Hears src → share.length ≤ 116 →
      (16 ≤ s.mgmt.replies.length → s.ring.overload = none →
        exec (.mgmtRequestPart src code tag 1 1 share) s =
          .next (((s.taken src).onRing fun r => { r with overload := some .replyOverrun }).report
            (.ring (.replyOverrun code tag src))))
      ∧ (16 ≤ s.mgmt.replies.length → s.ring.overload.isSome = true →
        exec (.mgmtRequestPart src code tag 1 1 share) s = .next (s.taken src))
      ∧ (s.mgmt.replies.length < 16 → code ∉ knownCodes →
        exec (.mgmtRequestPart src code tag 1 1 share) s =
            .next ((s.taken src).answered src code tag .badRequest .none)
          ∧ exec (.unknownRequestCode src (code :: tag :: 1 :: 1 :: share)) s =
            .next ((s.taken src).answered src code tag .badRequest .none))
      ∧ (s.mgmt.replies.length < 16 → code ∈ knownCodes → code ≠ 0x10 → s.permits src code false = false →
        exec (.mgmtRequestPart src code tag 1 1 share) s =
          .next ((s.taken src).answered src code tag .notPermitted (s.refusalResult code)))
      ∧ (s.mgmt.replies.length < 16 → code = 0x10 → s.permits src 0x10 false = false →
        (share.length ≠ 3 ∨ share[0]? ≠ some src ∨ share[1]? ≠ some 0x0B
          ∨ (∃ b : Fin 32, RoleInst.dispatchSystem ∈ s.refs.stations[b]) →
          exec (.mgmtRequestPart src code tag 1 1 share) s =
            .next ((s.taken src).answered src 0x10 tag .notPermitted .none))
        ∧ ∀ a r n, a ≠ src ∨ r ≠ 0x0B ∨ (∃ b : Fin 32, RoleInst.dispatchSystem ∈ s.refs.stations[b]) →
          exec (.stationPut src tag a r n) s =
            .next ((s.taken src).answered src 0x10 tag .notPermitted .none))
      ∧ (s.mgmt.replies.length < 16 → code ∈ knownCodes → s.permits src code false = true →
        whole (takeRequest code src tag) share = none →
        exec (.mgmtRequestPart src code tag 1 1 share) s =
          .next ((s.taken src).answered src code tag .badRequest (s.refusalResult code)))
      ∧ (∀ i, s.Takes src code → code ∈ knownCodes → whole (takeRequest code src tag) share = some i →
        exec (.mgmtRequestPart src code tag 1 1 share) s = exec i s)
      ∧ exec (.unknownRequestCode src [code]) s = .next (s.arrived.report (.ring (.badPayload 0x30 src 1))))
  ∧ (∀ (s : State) (src code tag part count : Byte) (share : List Byte), s.Hears src → share.length ≤ 116 →
       s.mgmt.replies.length < 16 → 2 ≤ count.toNat → count.toNat ≤ 8 →
       (part = 1 → ∃ u, exec (.mgmtRequestPart src code tag part count share) s = .next u
           ∧ u.gathering src = some ⟨src, code, tag, count.toNat, 2, share⟩
           ∧ (∀ a, a ≠ src → u.gathering a = s.gathering a) ∧ u.mgmt.replies = s.mgmt.replies
           ∧ State.Only [.ring, .mgmt] s u)
         ∧ (∀ g, s.gathering src = some g → part.toNat = g.next → code = g.code → tag = g.tag →
             count.toNat = g.count → part ≠ 1 → part.toNat < count.toNat →
             ∃ u, exec (.mgmtRequestPart src code tag part count share) s = .next u
               ∧ u.gathering src = some { g with next := part.toNat + 1, bytes := g.bytes ++ share }
               ∧ (∀ a, a ≠ src → u.gathering a = s.gathering a) ∧ u.mgmt.replies = s.mgmt.replies
               ∧ State.Only [.ring, .mgmt] s u)
         ∧ (part ≠ 1 → (∀ g, s.gathering src = some g → part.toNat ≠ g.next ∨ code ≠ g.code ∨ tag ≠ g.tag
               ∨ count.toNat ≠ g.count ∨ count.toNat < part.toNat) →
             exec (.mgmtRequestPart src code tag part count share) s =
               .next ((s.taken src).answered src code tag .badRequest (s.refusalResult code))
             ∧ (s.taken src).gathering src = none ∧ ∀ a, a ≠ src → (s.taken src).gathering a = s.gathering a))
  ∧ ∀ (s : State) (code : Byte),
      (0x20 ≤ code.toNat → code.toNat ≤ 0x23 → s.refusalResult code = .generation s.holds.generation)
      ∧ (code = 0x24 → s.refusalResult code = .currency s.holds.generation s.holds.day s.holds.currency false)
      ∧ (code = 0x45 → s.refusalResult code = .log s.labels.log.length s.labels.nextRelease none)
      ∧ (0x60 ≤ code.toNat → code.toNat ≤ 0x64 → s.refusalResult code =
          .mode s.ctl.mode s.ctl.mode s.ctl.rejectAll s.ctl.rejectAll (if code = 0x62 then some 0 else none))
      ∧ (code.toNat < 0x20 ∨ (0x24 < code.toNat ∧ code.toNat < 0x60 ∧ code ≠ 0x45) ∨ 0x64 < code.toNat →
          s.refusalResult code = .none)

/-- R152. A station telegram whose source holds no role that fits its kind is screened and forwarded, or consumed, as R151
gives, and nothing acts on it.
R153. A station telegram whose source fits and whose payload does not fit its layout is not handed on: a RING report
with cause BAD_PAYLOAD carries its kind, source and payload length. So for each row that carries its payload, APPLIED
from the reject applicator among them, and for every telegram of the kinds whose rows carry none: TUNNEL_END and
SCALE_CHECKED with a payload, CAR_EVENT, WRAPPER_EVENT and SPUR_STATE of another length than 1, an event byte that
names no event of its kind, a LABEL_EVENT without an event, and PALLET_AT_LABEL and APPLY_FAULT with further bytes. -/
def Obligations.SourceAndPayloadMustFit : Prop :=
  (∀ (s : State) (dst src : Byte) (p : List Byte), s.Hears src → p.length ≤ 119 →
      (s.roleOf src laneOfReader = none → exec (.tagRead dst src p) s = .next (s.passed ⟨dst, src, 0x01, p⟩))
      ∧ (s.roleOf src laneOfTunnel = none →
        exec (.tunnelStart dst src p) s = .next (s.passed ⟨dst, src, 0x02, p⟩)
          ∧ exec (.caseRead dst src p) s = .next (s.passed ⟨dst, src, 0x03, p⟩)
          ∧ exec (.tunnelEnd dst src) s = .next (s.passed ⟨dst, src, 0x04, []⟩))
      ∧ (s.roleOf src laneOfMeasure = none →
        exec (.measure dst src p) s = .next (s.passed ⟨dst, src, 0x05, p⟩)
          ∧ exec (.scaleChecked dst src) s = .next (s.passed ⟨dst, src, 0x06, []⟩))
      ∧ (RoleInst.transferCar ∉ s.rolesAt src →
        exec (.moveDone dst src) s = .next (s.passed ⟨dst, src, 0x07, [1]⟩)
          ∧ exec (.moveFault dst src) s = .next (s.passed ⟨dst, src, 0x07, [2]⟩)
          ∧ exec (.carReady dst src) s = .next (s.passed ⟨dst, src, 0x07, [3]⟩))
      ∧ (s.roleOf src wrapperOf = none →
        exec (.wrapperReady dst src) s = .next (s.passed ⟨dst, src, 0x08, [1]⟩)
          ∧ exec (.standby dst src) s = .next (s.passed ⟨dst, src, 0x08, [2]⟩)
          ∧ exec (.wrapStarted dst src) s = .next (s.passed ⟨dst, src, 0x08, [3]⟩)
          ∧ exec (.wrapDone dst src) s = .next (s.passed ⟨dst, src, 0x08, [4]⟩)
          ∧ exec (.wrapFault dst src) s = .next (s.passed ⟨dst, src, 0x08, [5]⟩))
      ∧ (s.roleOf src applicatorRole = none →
        exec (.jobTaken dst src p) s = .next (s.passed ⟨dst, src, 0x09, 1 :: p⟩)
          ∧ exec (.palletAtLabel dst src) s = .next (s.passed ⟨dst, src, 0x09, [2]⟩)
          ∧ exec (.applied dst src p) s = .next (s.passed ⟨dst, src, 0x09, 3 :: p⟩)
          ∧ exec (.applyFault dst src) s = .next (s.passed ⟨dst, src, 0x09, [4]⟩)
          ∧ exec (.rejectApplicatorApplied dst src p) s = .next (s.passed ⟨dst, src, 0x09, 3 :: p⟩)
          ∧ exec (.rejectApplicatorFault dst src) s = .next (s.passed ⟨dst, src, 0x09, [4]⟩))
      ∧ (s.roleOf src lineOfSwitch = none → exec (.routed dst src p) s = .next (s.passed ⟨dst, src, 0x0A, p⟩))
      ∧ (RoleInst.rejectSpur ∉ s.rolesAt src → ∀ n,
        exec (.spurState dst src n) s = .next (s.passed ⟨dst, src, 0x0B, [n]⟩)))
  ∧ (∀ (s : State) (dst src : Byte) (p : List Byte), s.Hears src → p.length ≤ 119 →
       (∀ l, s.roleOf src laneOfReader = some l → whole takeLicence p = none →
         exec (.tagRead dst src p) s =
           .next ((s.passed ⟨dst, src, 0x01, p⟩).report (.ring (.badPayload 0x01 src p.length))))
       ∧ (∀ l, s.roleOf src laneOfTunnel = some l → whole takeLicence p = none →
         exec (.tunnelStart dst src p) s =
           .next ((s.passed ⟨dst, src, 0x02, p⟩).report (.ring (.badPayload 0x02 src p.length))))
       ∧ (∀ l, s.roleOf src laneOfTunnel = some l → (whole takeCase p).isNone = true →
         exec (.caseRead dst src p) s =
           .next ((s.passed ⟨dst, src, 0x03, p⟩).report (.ring (.badPayload 0x03 src p.length))))
       ∧ (∀ l, s.roleOf src laneOfMeasure = some l → whole takeMeasure p = none →
         exec (.measure dst src p) s =
           .next ((s.passed ⟨dst, src, 0x05, p⟩).report (.ring (.badPayload 0x05 src p.length))))
       ∧ (∀ a, s.roleOf src applicatorRole = some a → p.length ≠ 3 →
         exec (.jobTaken dst src p) s =
           .next ((s.passed ⟨dst, src, 0x09, 1 :: p⟩).report (.ring (.badPayload 0x09 src (p.length + 1)))))
       ∧ (∀ a, s.roleOf src applicatorRole = some a → (whole takeLabelEvent (3 :: p)).isNone = true →
         exec (.applied dst src p) s =
           .next ((s.passed ⟨dst, src, 0x09, 3 :: p⟩).report (.ring (.badPayload 0x09 src (p.length + 1))))
         ∧ exec (.rejectApplicatorApplied dst src p) s =
           .next ((s.passed ⟨dst, src, 0x09, 3 :: p⟩).report (.ring (.badPayload 0x09 src (p.length + 1)))))
       ∧ (∀ k, s.roleOf src lineOfSwitch = some k → whole takeRouted p = none →
         exec (.routed dst src p) s =
           .next ((s.passed ⟨dst, src, 0x0A, p⟩).report (.ring (.badPayload 0x0A src p.length)))))
  ∧ ∀ (s : State) (t : Telegram) (p : List Byte), s.Hears t.src → t.payload = p → p.length ≤ 120 →
      ((t.kind = 0x04 ∧ (s.roleOf t.src laneOfTunnel).isSome = true ∧ p ≠ [])
        ∨ (t.kind = 0x06 ∧ (s.roleOf t.src laneOfMeasure).isSome = true ∧ p ≠ [])
        ∨ (t.kind = 0x07 ∧ RoleInst.transferCar ∈ s.rolesAt t.src
            ∧ (p.length ≠ 1 ∨ ∃ e : Byte, p = [e] ∧ (e.toNat = 0 ∨ 3 < e.toNat)))
        ∨ (t.kind = 0x08 ∧ (s.roleOf t.src wrapperOf).isSome = true
            ∧ (p.length ≠ 1 ∨ ∃ e : Byte, p = [e] ∧ (e.toNat = 0 ∨ 5 < e.toNat)))
        ∨ (t.kind = 0x09 ∧ (s.roleOf t.src applicatorRole).isSome = true
            ∧ (p = [] ∨ ∃ e b, p = e :: b ∧ (e.toNat = 0 ∨ 4 < e.toNat ∨ ((e = 2 ∨ e = 4) ∧ b ≠ []))))
        ∨ (t.kind = 0x0B ∧ RoleInst.rejectSpur ∈ s.rolesAt t.src ∧ p.length ≠ 1)) →
      exec (.ringInTelegram t) s = .next ((s.passed t).report (.ring (.badPayload t.kind t.src p.length)))

/-- R178, R180. REJECT_ALL stays asserted in START, STOPPED and ISOLATED, and a mode is held exactly while the line is
ISOLATED, after every step. -/
def Obligations.ModeKept : Prop := ∀ s t : State, s.ModeInv → step s = .next t → t.ModeInv

/-- Capacities, R40, R104, R134, R154 to R161. The forward and origin queues and the forward run, the replies, reports
and escape reports waiting, the released log, the eight lane queues and the two label lines, the reported spur occupancy,
the stamp clock, the scale streaks and the match counts of the screens stay within their ceilings after every step.
R156: "The origin queue therefore has room only while the pending list is empty". It does after every step. -/
def Obligations.CapacitiesKept : Prop :=
  (∀ s t : State, s.CapacityInv → step s = .next t → t.CapacityInv)
  ∧ (∀ s t : State, s.PendingInv → step s = .next t → t.PendingInv)

/-- R23, R39, R129, R147, R161. The list generation, the admission counter, the label serial, the release sequence and the
report sequence stay in their ranges after every step.
R182. Every line parameter stays in its range after every step. -/
def Obligations.NumbersAndParametersKept : Prop :=
  (∀ s t : State, s.NumberInv → step s = .next t → t.NumberInv)
  ∧ (∀ s t : State, s.ctl.params.InRange → step s = .next t → t.ctl.params.InRange)

/-- Sections 1.2 to 1.4, R22. The tables and the hold list stay in their key orders, hold no key twice and no more entries
than they may, after every step. -/
def Obligations.TablesKept : Prop := ∀ s t : State, s.TableInv → step s = .next t → t.TableInv

/-- R46, R47. A context in WAITING has no verdict, after every step.
R92: a verdict only rises. A context that is open before and after a step and had a verdict before it has one after it
that is no better, and keeps every reason it had. -/
def Obligations.VerdictsOnlyRise : Prop :=
  (∀ s t : State, s.WaitingInv → step s = .next t → t.WaitingInv)
  ∧ (∀ (s t : State) (i : Slot) (c d : Context) (v : Verdict), s.WaitingInv → step s = .next t →
       s.ctx i = some c → t.ctx i = some d → d.adm = c.adm → c.verdict = some v →
       ∃ w, d.verdict = some w ∧ v.le w ∧ ∀ r ∈ c.reasons, r ∈ d.reasons)

/-- The invariants hold of the state after reset, and the parameters have their default values, in their ranges. -/
def Obligations.InvariantsAtReset : Prop :=
  State.reset.ModeInv ∧ State.reset.CapacityInv ∧ State.reset.NumberInv ∧ State.reset.PendingInv
    ∧ State.reset.TableInv ∧ State.reset.WaitingInv ∧ State.reset.ctl.params = Params.default
    ∧ State.reset.ctl.params.InRange

/-- R55 to R69. A CASE_READ keeps a tally consistent: each line's count is the number of indices counted in it, every
counted index has its line, the unknown indices are counted, no two lines have equal contents, and the saturating
counts keep their ceilings. R60 to R68. What one read does to a tally: an unindexed read counts as unindexed; an
unreadable code makes a new index UNKNOWN and is a duplicate of a seen one; a readable code is counted for a new or
UNKNOWN index in the line of its content, made if the tally has room, else TALLY_OVERFLOW is handed; a read that
contradicts a counted case changes nothing and hands CASE_CONFLICT; one that adds nothing is a duplicate. No read
changes another index.
R66. A read that fills an absent lot or best-before of a counted case moves the case to the line of the filled content,
made if none matches: that line gains one and the old one loses one, or goes where it held that case alone. With no
such line, 8 lines and other cases in the old one, nothing changes and TALLY_OVERFLOW is handed. -/
def Obligations.CaseReadsAreTallied : Prop :=
  (∀ (t : Tally) (r : CaseRead), t.Ok → r.index ≤ 255 → (t.read r).1.Ok)
  ∧ (∀ (t : Tally) (r : CaseRead), t.Ok →
       (r.index = 0 → t.read r = ({ t with unindexed := min 255 (t.unindexed + 1) }, none))
       ∧ (∀ j, j ≠ r.index → (t.read r).1.entry j = t.entry j)
       ∧ (r.index ≠ 0 → r.article = none → t.entry r.index = none →
           (t.read r).1.entry r.index = some .unknown ∧ (t.read r).1.unknowns = t.unknowns + 1
             ∧ (t.read r).1.lines = t.lines ∧ (t.read r).2 = none)
       ∧ (r.index ≠ 0 → r.article = none → (t.entry r.index).isSome = true →
           t.read r = ({ t with duplicates := min 255 (t.duplicates + 1) }, none))
       ∧ (∀ a, r.index ≠ 0 → r.article = some a → (t.entry r.index = none ∨ t.entry r.index = some .unknown) →
           ((∃ l ∈ t.lines, sameContent l.content ⟨a, r.lot, r.best⟩ = true) ∨ t.lines.length < 8 →
             (t.read r).2 = none ∧ ∃ c, (t.read r).1.entry r.index = some (.counted c)
               ∧ sameContent c ⟨a, r.lot, r.best⟩ = true)
           ∧ ((∀ l ∈ t.lines, sameContent l.content ⟨a, r.lot, r.best⟩ = false) → 8 ≤ t.lines.length →
             (t.read r).2 = some .tallyOverflow ∧ (t.read r).1.entry r.index = some .unknown
               ∧ (t.read r).1.lines = t.lines))
       ∧ (∀ a c, r.index ≠ 0 → r.article = some a → t.entry r.index = some (.counted c) →
           (contradicts c ⟨a, r.lot, r.best⟩ = true → t.read r = (t, some .caseConflict))
           ∧ (contradicts c ⟨a, r.lot, r.best⟩ = false → filled c ⟨a, r.lot, r.best⟩ = c →
             t.read r = ({ t with duplicates := min 255 (t.duplicates + 1) }, none))
           ∧ ∀ n, n = filled c ⟨a, r.lot, r.best⟩ → n ≠ c → contradicts c ⟨a, r.lot, r.best⟩ = false →
             ((∀ l ∈ t.lines, sameContent l.content n = false) → 8 ≤ t.lines.length →
               (∀ l ∈ t.lines, l.content = c → 1 < l.count) → t.read r = (t, some .tallyOverflow))
             ∧ ((∃ l ∈ t.lines, sameContent l.content n = true) ∨ t.lines.length < 8
                 ∨ (∃ l ∈ t.lines, l.content = c ∧ l.count = 1) → ∃ u m, t.read r = (u, none)
               ∧ u.entry r.index = some (.counted m) ∧ m ≠ c
               ∧ ((∀ l ∈ t.lines, sameContent l.content n = false) → m = n ∧ u.lines.getLast? = some ⟨n, 1⟩)
               ∧ (∀ l ∈ t.lines, sameContent l.content n = true →
                   m = l.content ∧ { l with count := l.count + 1 } ∈ u.lines)
               ∧ (∀ l ∈ t.lines, l.content = c → 1 < l.count → { l with count := l.count - 1 } ∈ u.lines)
               ∧ (∀ l ∈ t.lines, l.content = c → l.count = 1 → ∀ x ∈ u.lines, x.content ≠ c)
               ∧ (∀ l ∈ t.lines, l.content ≠ c → l.content ≠ m → l ∈ u.lines)
               ∧ u.unknowns = t.unknowns ∧ u.unindexed = t.unindexed ∧ u.duplicates = t.duplicates)))

/-- R82 to R89. The reasons the checks add are exactly those whose check fails: foreign, unsighted and over-counted
articles, mixed and missing lots, a held lot, the three shelf-life reasons, the weight beyond its tolerance or on a
suspect scale, the height, and the unknown cases above their allowance.
R75, R76, R81, R90, R91, R94. The decision of a context whose prerequisites are met: its reasons are those it had and
those the checks add, its verdict is the highest severity among them, its waiting set is empty, it enters
AT_HEAD_DECIDED with wrap_wait_limit started for PASS alone, its record takes the figures of the checks and the decision
time, and its lane's scale counts the result of check 8. A verdict other than PASS asks for a reject ticket.
R86, R94. Check 8 compares where the weight is present and the scale NORMAL. A check that compared and passed sets the
lane's streak to 0; one that failed raises it by 1, to 8 at most, and makes the scale SUSPECT where the streak is then at
or above scale_streak, with a LANE report where it was NORMAL; one that did not compare leaves both. -/
def Obligations.DecisionOfTheChecks : Prop :=
  (∀ (x : Inputs) (held : Bool) (r : Reason), r ∈ x.checks held ↔
      (r = .foreignArticle ∧ ∃ t ∈ x.ctx.tally.lines, ∀ l ∈ x.plan.lines, l.article ≠ t.content.article)
      ∨ (r = .unsighted ∧ ∃ l ∈ x.plan.lines, x.sighted l.article < min l.count x.consignment.sightings)
      ∨ (r = .overCount ∧ ∃ l ∈ x.plan.lines, l.count < x.sighted l.article)
      ∨ (r = .mixedLots ∧ ∃ t ∈ x.ctx.tally.lines,
          x.consignment.maxLots < (distinctLots (linesOf t.content.article x.ctx.tally.lines)).length)
      ∨ (r = .noLot ∧ ∃ t ∈ x.ctx.tally.lines, t.content.lot = none)
      ∨ (r = .lotHeld ∧ held = true)
      ∨ (∃ l ∈ x.plan.lines, x.sighted l.article ≠ 0 ∧
          ((r = .noDate ∧ earliest (linesOf l.article x.ctx.tally.lines) = none)
            ∨ ∃ b, earliest (linesOf l.article x.ctx.tally.lines) = some b ∧
              ((r = .expired ∧ b < x.day) ∨ (r = .shortLife ∧ x.day ≤ b ∧ b - x.day < x.consignment.minShelfLife))))
      ∨ (r = .scaleSuspect ∧ x.ctx.weight.isSome = true ∧ x.scale.state = .suspect)
      ∨ (∃ w, x.ctx.weight = some w ∧ x.scale.state = .normal ∧
          ((r = .underWeight ∧ w + x.weightTolerance < x.expectedWeight)
            ∨ (r = .overWeight ∧ x.expectedWeight + x.weightTolerance < w)))
      ∨ (∃ h, r = .height ∧ x.ctx.height = some h ∧
          (h + x.params.heightTol < x.expectedHeight ∨ x.expectedHeight + x.params.heightTol < h))
      ∨ (r = .unreadable ∧ x.params.unknownAllowance < x.ctx.tally.unknownCount))
  ∧ (∀ (s : State) (i : Slot) (c : Context) (x : Inputs), s.ctx i = some c → c.verdict = none →
       c.shortcut = false → s.waitingItems c = [] → s.inputs c = some x →
       ∃ u d held, State.attempt i s = u ∧ u.ctx i = some d
         ∧ (held = true ↔ ∃ t ∈ c.tally.lines, (s.matchingHold t.pair).isSome = true)
         ∧ (∀ r, r ∈ d.reasons ↔ r ∈ c.reasons ∨ r ∈ x.checks held)
         ∧ d.verdict = some (severityOf d.reasons)
         ∧ (∀ r ∈ d.reasons, r.severity.le (severityOf d.reasons))
         ∧ d.waiting = [] ∧ d.phase = .atHeadDecided
         ∧ d.timer = (if severityOf d.reasons = .pass then some s.ctl.params.wrapWaitLimit else none)
         ∧ u.scale c.lane = scaleAfter s.ctl.params.scaleStreak x.weightFigures (s.scale c.lane)
         ∧ (∃ k, d.record = some k ∧ k.weight = x.weightFigures ∧ k.height = x.heightFigures
             ∧ k.estimate = x.caseEstimate ∧ k.time = s.recon.clock ∧ k.unknown = c.tally.unknownCount
             ∧ k.duplicates = c.tally.duplicates ∧ k.scale = (u.scale c.lane).state
             ∧ k.streak = (u.scale c.lane).streak)
         ∧ u.alloc.arbiterDue = true
         ∧ (c.compStatus = .none → (d.compStatus = .none ↔ severityOf d.reasons = .pass))
         ∧ State.Only [.tracker, .recon, .alloc, .composer, .ring, .mgmt] s u)
  ∧ (∀ x : Inputs, (x.ctx.weight = none ∨ x.scale.state = .suspect → x.weightFigures = none)
      ∧ ∀ w, x.ctx.weight = some w → x.scale.state = .normal →
          x.weightFigures = some ⟨x.expectedWeight, x.weightTolerance, w, (w : Int) - x.expectedWeight⟩)
  ∧ (∀ (limit : Nat) (x : Scale), scaleAfter limit none x = x
      ∧ ∀ f : WeightFigures,
          (f.deviation.natAbs ≤ f.tolerance → scaleAfter limit (some f) x = ⟨x.state, 0⟩)
          ∧ (f.tolerance < f.deviation.natAbs → ∀ n, n = min 8 (x.streak + 1) →
              (limit ≤ n → scaleAfter limit (some f) x = ⟨.suspect, n⟩)
              ∧ (n < limit → scaleAfter limit (some f) x = ⟨x.state, n⟩)))
  ∧ ∀ (s : State) (l : Lane) (f : Option WeightFigures) (x : Scale),
      x = scaleAfter s.ctl.params.scaleStreak f (s.scale l) →
      ((s.scale l).state = .normal → x.state = .suspect →
        s.updateScale l f = (s.putScale l x).report (.lane (.scaleSuspect l x.streak)))
      ∧ ((s.scale l).state = .suspect ∨ x.state = .normal → s.updateScale l f = s.putScale l x)

/-- R76, R77. A decision attempt without the prerequisites: a context with NO_LICENCE, DUPLICATE_LICENCE,
LICENCE_REUSED or DRAINING is decided at once, at REWORK or higher, with no figures; any other takes the items that
are missing and stands in WAITING, decision_limit started on entry. R80. With a decision_limit of 0 it is parked in
the same step: its missing items become reasons, its verdict is PARK or higher by its reasons, its record has no
figures and its lane's scale stays, and the arbiter is due. R73, R78, R92. A reason handed for an open context:
without effect where it is in the set; recorded, and no more, for a context with no verdict; for one with a verdict it
is added and the verdict becomes the higher of the two. -/
def Obligations.DecisionsWithoutChecks : Prop :=
  (∀ (s : State) (i : Slot) (c : Context), s.ctx i = some c → c.verdict = none →
      (c.shortcut = true → ∃ d, (State.attempt i s).ctx i = some d ∧ d.reasons = c.reasons
        ∧ d.verdict = some (Verdict.rework.max (severityOf c.reasons)) ∧ d.phase = .atHeadDecided ∧ d.timer = none
        ∧ ∃ k, d.record = some k ∧ k.weight = none ∧ k.height = none ∧ k.sighted = none)
      ∧ (c.shortcut = false → s.waitingItems c ≠ [] → c.phase = .waiting ∨ s.ctl.params.decisionLimit ≠ 0 →
        State.attempt i s = s.putCtx i (some { c with
          waiting := s.waitingItems c, phase := .waiting,
          timer := if c.phase = .waiting then c.timer else some s.ctl.params.decisionLimit }))
      ∧ (c.shortcut = false → s.waitingItems c ≠ [] → c.phase ≠ .waiting → s.ctl.params.decisionLimit = 0 →
        ∃ u d k, State.attempt i s = u ∧ u.ctx i = some d ∧ d.phase = .atHeadDecided ∧ d.timer = none
          ∧ d.waiting = [] ∧ (∀ r, r ∈ d.reasons ↔ r ∈ c.reasons ∨ ∃ x ∈ s.waitingItems c, r = x.reason)
          ∧ d.verdict = some (Verdict.park.max (severityOf d.reasons)) ∧ d.record = some k
          ∧ k.weight = none ∧ k.height = none ∧ k.sighted = none ∧ k.estimate = none ∧ k.time = s.recon.clock
          ∧ u.recon = s.recon ∧ u.alloc.arbiterDue = true ∧ (c.compStatus = .none → d.compStatus ≠ .none)
          ∧ State.Only [.tracker, .alloc, .composer, .ring, .mgmt] s u)
      ∧ (WaitItem.noPlan ∈ s.waitingItems c ↔ s.boundPlan c = none)
      ∧ (WaitItem.unresolvedRef ∈ s.waitingItems c ↔ ∃ p, s.boundPlan c = some p ∧ s.resolve p = none)
      ∧ (WaitItem.holdsStale ∈ s.waitingItems c ↔ s.holds.currency = .stale)
      ∧ (WaitItem.noDay ∈ s.waitingItems c ↔ s.holds.day = none))
  ∧ (∀ (s : State) (i : Slot) (c : Context) (r : Reason), s.ctx i = some c →
       (r ∈ c.reasons → s.handSlot i r = s)
       ∧ (r ∉ c.reasons → c.verdict = none →
           s.handSlot i r = s.putCtx i (some { c with reasons := insertReason r c.reasons }))
       ∧ (∀ v, r ∉ c.reasons → c.verdict = some v → ∃ d, (s.handSlot i r).ctx i = some d
           ∧ d.verdict = some (v.max r.severity) ∧ d.reasons = insertReason r c.reasons ∧ d.adm = c.adm
           ∧ d.licence = c.licence ∧ d.tally = c.tally ∧ d.phase = c.phase ∧ d.record = c.record)
       ∧ (∀ q, q ∈ insertReason r c.reasons ↔ q = r ∨ q ∈ c.reasons)
       ∧ ∀ id : CtxId, s.named id = none → s.handReason id r = s)

/-- R103, R99. The arbiter, due and with the car IDLE: it serves the candidate decided earliest, the lowest lane of
equals; the car becomes MOVING with the context as its cargo, the context MOVING with car_move_limit, and a CAR_MOVE
with the lane, the destination and the licence is sent, after the WRAPPER report of the car's change (that order is
the model's, notes/assumptions/25.md). With no candidate, or the car not IDLE, nothing moves. R113, R156. A CAR_MOVE
goes to the address that holds TRANSFER_CAR, or waits in the car's slot (where one waits already, it is replaced: the
model's choice, notes/assumptions/24.md). -/
def Obligations.ArbiterServesTheEarliest : Prop :=
  (∀ (s : State) (m : CarMove), State.OrderOut .car .transferCar 0x21
      ((match m.source with | some l => BitVec.ofNat 8 (l.val + 1) | none => 0)
        :: (match m.dest with | .wrapper w => BitVec.ofNat 8 (w.val + 1) | .spur => 0) :: licenceField m.licence)
      (s.modCar fun c => { c with order := some m }) (s.modCar fun c => { c with order := none })
      (s.modCar fun c => { c with order := none }) (s.sendCarMove m))
  ∧ ∀ (s : State) (cause : Config.UnitCause),
    (s.alloc.arbiterDue = false → s.settle cause = s)
    ∧ (s.alloc.arbiterDue = true → s.alloc.car.state ≠ .idle ∨ s.chosen = none →
        s.settle cause = s.onAlloc fun a => { a with arbiterDue := false })
    ∧ (∀ x c, s.alloc.arbiterDue = true → s.alloc.car.state = .idle → s.chosen = some x →
        s.ctx x.slot = some c →
        s.candidate x.lane = some x ∧ s.laneHead x.lane = some x.slot ∧ c.phase = .atHeadDecided
        ∧ (∀ l y, s.candidate l = some y → x.time < y.time ∨ (x.time = y.time ∧ x.lane ≤ l))
        ∧ (x.dest = .spur → s.spurAccount < 6)
        ∧ (∀ w, x.dest = .wrapper w → (s.wrapper w).state = .idle
            ∧ ∃ r, x.recipe = some r ∧ r ∈ (s.wrapper w).caps)
        ∧ ∃ u d, s.settle cause = u ∧ u.alloc.car.state = .moving ∧ u.alloc.car.cargo = .context ⟨x.slot, c.adm⟩
          ∧ u.alloc.car.dest = some x.dest ∧ u.alloc.car.source = some x.lane
          ∧ u.ctx x.slot = some d ∧ d = { c with phase := .moving, timer := some s.ctl.params.carMoveLimit }
          ∧ State.SameContexts [x.slot] s u ∧ State.Only [.tracker, .alloc, .ring, .mgmt] s u
          ∧ ∃ v, v.alloc = { s.alloc with
                arbiterDue := false
                car := { s.alloc.car with
                  state := .moving, cargo := .context ⟨x.slot, c.adm⟩, source := some x.lane, dest := some x.dest,
                  recipe := x.recipe } }
            ∧ State.Only [.alloc] s v
            ∧ u = State.sendCarMove ⟨some x.lane, x.dest, c.licence⟩ (State.putCtx x.slot (some d)
                (v.report (.unit ⟨.car .idle .moving, cause, .context x.slot c.licence⟩))))

/-- R52. LANE_CLEAR for a lane 1 to 8 closes its contexts, the last of the queue first, but for a MOVING one; the
reply carries their number and whether a MOVING head was kept. Their slots are free, and nothing joins the log.
Another lane number gives BAD_FIELD. R51, R134. A closure frees the slot, takes the context from its lane queue, its
label line and the ticket order, and from what the car carries and a wrapper holds, which become orphans; its plan is
USED after RELEASED or UNCONFIRMED and LOADED after any other outcome, bound to nothing. No other context's verdict or
reasons change. R109, R134. When a context closes on a label line of three, the first wrapper of the line's
held-output order leaves that order, is sent a WRAPPER_OUTPUT RELEASE and gives up its context, which joins the line
as QUEUED_LABEL; while the origin queue has no room the RELEASE waits. A line without room, or with no wrapper held,
releases none. -/
def Obligations.ClosureFreesEverything : Prop :=
  (∀ (s : State) (src tag : Byte) (n : Nat), s.Takes src 0x30 →
      (n = 0 ∨ 8 < n → exec (.laneClear src tag n) s = .next ((s.taken src).answered src 0x30 tag .badField .none))
      ∧ ∀ l : Lane, n = l.val + 1 → ∃ u is, is = ((s.laneContexts l).filter fun p => p.2.phase != .moving).map (·.1)
        ∧ u = is.reverse.foldl (fun t i => t.closeContext .cleared .laneClear i) (s.taken src)
        ∧ exec (.laneClear src tag n) s = .next (u.answered src 0x30 tag .ok (.laneCleared is.length
            ((s.laneHead l).any fun i => (s.ctx i).any fun c => c.phase == .moving)))
        ∧ (∀ i ∈ is, u.ctx i = none) ∧ (∀ i ∈ s.queue l, ∀ c, s.ctx i = some c → c.phase = .moving → i ∉ is)
        ∧ u.labels.log = s.labels.log ∧ u.refs.consignments = s.refs.consignments)
  ∧ (∀ (s : State) (i : Slot) (c : Context) (o : Closure) (cause : Config.UnitCause) (u : State), s.ctx i = some c →
       u = s.closeContext o cause i →
       u.ctx i = none
       ∧ ((s.queue c.lane).Nodup → i ∉ u.queue c.lane)
       ∧ (s.labels.tickets.Nodup → i ∉ u.labels.tickets)
       ∧ ((∀ w id, (s.wrapper w).pallet = .context id → id.slot = i → id.adm = c.adm) →
           ∀ k, (s.line k).Nodup → i ∉ u.line k)
       ∧ (s.alloc.car.cargo = .context ⟨i, c.adm⟩ → s.alloc.car.state ≠ .idle → u.alloc.car.cargo = .orphan)
       ∧ (∀ w, (s.wrapper w).pallet = .context ⟨i, c.adm⟩ → (u.wrapper w).pallet = .orphan
           ∧ (u.wrapper w).state = .fault)
       ∧ (∀ m q, c.planSlot = some m → s.planAt m = some q → u.planAt m = some { q with
           bound := none
           state := if o = .released ∨ o = .unconfirmed then .used else .loaded })
       ∧ (∀ m, c.planSlot ≠ some m → u.planAt m = s.planAt m)
       ∧ (∀ r ∈ u.composer.queue, r.ctx ≠ ⟨i, c.adm⟩)
       ∧ (∀ j d, j ≠ i → s.ctx j = some d → ∃ e, u.ctx j = some e ∧ e.verdict = d.verdict ∧ e.reasons = d.reasons
           ∧ e.adm = d.adm ∧ e.licence = d.licence ∧ e.planSlot = d.planSlot ∧ e.tally = d.tally)
       ∧ ∀ (k : LineNo) (w : WrapperNo) (rest : List WrapperNo) (j : Slot) (d : Context), s.lineOf i = some k →
           (s.line k).length = 3 → s.alloc.held[k] = w :: rest → lineOfWrapper w = k → j ≠ i → s.ctx j = some d →
           (s.wrapper w).pallet = .context ⟨j, d.adm⟩ →
           (∀ v, (s.wrapper v).pallet ≠ .context ⟨i, c.adm⟩) →
           ∃ e, u.line k = (s.line k).erase i ++ [j] ∧ u.alloc.held[k] = rest ∧ (u.wrapper w).pallet = .none
             ∧ u.ctx j = some e ∧ e.phase = .queuedLabel ∧ e.timer = none)
  ∧ ∀ (s : State) (k : LineNo) (cause : Config.UnitCause),
      (s.alloc.held[k] = [] ∨ 3 ≤ (s.line k).length → s.lineRoom k cause = s)
      ∧ (∀ w rest i c, s.alloc.held[k] = w :: rest → (s.line k).length = 2 → lineOfWrapper w = k → s.ctx i = some c →
          (s.wrapper w).pallet = .context ⟨i, c.adm⟩ →
          ∃ v, v.alloc = { s.alloc with held := s.alloc.held.set k rest } ∧ State.Only [.alloc] s v
            ∧ s.lineRoom k cause = State.joinLine w cause false (v.sendOutput w .release))
      ∧ ∀ w rest i c, s.alloc.held[k] = w :: rest → (s.line k).length = 2 → lineOfWrapper w = k → s.ctx i = some c →
          (s.wrapper w).pallet = .context ⟨i, c.adm⟩ → (s.wrapper w).output = none → 32 ≤ s.ring.origin.length →
          ∃ u, s.lineRoom k cause = u ∧ (u.wrapper w).output = some .release ∧ u.line k = s.line k ++ [i]
            ∧ u.alloc.held[k] = rest ∧ (u.wrapper w).pallet = .none ∧ ∀ v, v ≠ w → u.wrapper v = s.wrapper v

/-- R39, R41, R43. A TAG_READ in RUN or DEGRADED on a lane with fewer than 5 contexts admits one to the lowest free
slot, at the tail of the lane queue, with the next admission number. Without a licence it carries NO_LICENCE; with one
that another open context has, both carry DUPLICATE_LICENCE; else a LOADED plan of that licence is bound, a USED one
gives LICENCE_REUSED, and with none or one in use it has no plan and no reason. R41, R42. A TAG_READ in DRAIN admits a
context with the reason DRAINING and no plan. In START and STOPPED, with no admission, an UNEXPECTED_PALLET report is
formed; a sixth pallet on a lane gives a LANE_OVERFLOW report and hands TRACK_SLIP for every context of the lane queue
(head first: notes/assumptions/23.md). R40, R103. A context admitted to an empty lane queue is its lane head, and the
arbiter is due before the TAG_READ ends. -/
def Obligations.TagReadAdmits : Prop :=
  (∀ (s : State) (dst src : Byte) (p : List Byte) (l : Lane) (x : Option Text) (i : Slot),
      s.Fits src laneOfReader l → p.length ≤ 120 → whole takeLicence p = some x →
      s.ctl.mode = .run ∨ s.ctl.mode = .degraded → (s.queue l).length < 5 → s.freeSlot = some i →
      ∃ u d, exec (.tagRead dst src p) s = .next (State.settle .tagRead u) ∧ u.ctx i = some d
        ∧ (∀ j, j < i → s.ctx j ≠ none) ∧ s.ctx i = none
        ∧ d.adm = s.tracker.nextAdm ∧ d.licence = presentLicence x ∧ d.lane = l ∧ d.phase = .admitted
        ∧ d.verdict = none ∧ d.weight = none ∧ d.height = none ∧ d.tally = Tally.empty ∧ d.timer = none
        ∧ u.queue l = s.queue l ++ [i] ∧ (∀ m, m ≠ l → u.queue m = s.queue m)
        ∧ (s.queue l = [] → u.laneHead l = some i ∧ u.alloc.arbiterDue = true)
        ∧ u.tracker.nextAdm = (if s.tracker.nextAdm < 4294967295 then s.tracker.nextAdm + 1 else 1)
        ∧ (presentLicence x = none → d.reasons = [.noLicence] ∧ d.planSlot = none ∧ u.refs = s.refs
            ∧ State.SameContexts [i] s u)
        ∧ (∀ t, presentLicence x = some t →
            ((∃ j c, s.ctx j = some c ∧ c.licence = some t) →
              d.reasons = [.duplicateLicence] ∧ d.planSlot = none ∧ u.refs = s.refs
                ∧ ∀ j c, s.ctx j = some c → c.licence = some t →
                    ∃ e, u.ctx j = some e ∧ Reason.duplicateLicence ∈ e.reasons)
            ∧ ((∀ j c, s.ctx j = some c → c.licence ≠ some t) → State.SameContexts [i] s u
              ∧ ((∀ q, s.planOf t = some q → q.state = .inUse) →
                  d.reasons = [] ∧ d.planSlot = none ∧ u.refs = s.refs)
              ∧ (∀ q, s.planOf t = some q → q.state = .used →
                  d.reasons = [.licenceReused] ∧ d.planSlot = none ∧ u.refs = s.refs)
              ∧ (∀ q, s.planOf t = some q → q.state = .loaded → s.planAt q.slot = some q →
                  d.reasons = [] ∧ d.planSlot = some q.slot
                    ∧ u.planAt q.slot = some { q with state := .inUse, bound := some i }
                    ∧ ∀ n, n ≠ q.slot → u.planAt n = s.planAt n))))
  ∧ (∀ (s : State) (dst src : Byte) (p : List Byte) (l : Lane) (x : Option Text),
       s.Fits src laneOfReader l → p.length ≤ 120 → whole takeLicence p = some x →
       (s.ctl.mode = .start ∨ s.ctl.mode = .stopped →
         exec (.tagRead dst src p) s = .next (State.settle .tagRead
           ((s.passed ⟨dst, src, 0x01, p⟩).report (.lane (.unexpectedPallet l (presentLicence x))))))
       ∧ (s.ctl.mode = .run ∨ s.ctl.mode = .degraded ∨ s.ctl.mode = .drain → 5 ≤ (s.queue l).length →
         ∃ u, exec (.tagRead dst src p) s = .next (State.settle .tagRead u)
           ∧ u = State.handAll (s.queue l) .trackSlip
             ((s.passed ⟨dst, src, 0x01, p⟩).report (.lane (.laneOverflow l (presentLicence x))))
           ∧ u.tracker.nextAdm = s.tracker.nextAdm ∧ u.queue l = s.queue l
           ∧ (∀ i ∈ s.queue l, ∀ c, s.ctx i = some c → ∃ d, u.ctx i = some d ∧ Reason.trackSlip ∈ d.reasons)
           ∧ ∀ i, i ∉ s.queue l → (u.ctx i).map (·.reasons) = (s.ctx i).map (·.reasons))
       ∧ (∀ i, s.ctl.mode = .drain → (s.queue l).length < 5 → s.freeSlot = some i →
         ∃ u d, exec (.tagRead dst src p) s = .next (State.settle .tagRead u) ∧ u.ctx i = some d
           ∧ d.adm = s.tracker.nextAdm ∧ d.licence = presentLicence x ∧ d.lane = l ∧ d.phase = .admitted
           ∧ d.verdict = none ∧ d.planSlot = none ∧ u.refs = s.refs ∧ u.queue l = s.queue l ++ [i]
           ∧ (s.queue l = [] → u.laneHead l = some i ∧ u.alloc.arbiterDue = true)
           ∧ Reason.draining ∈ d.reasons ∧ (Reason.noLicence ∈ d.reasons ↔ presentLicence x = none)
           ∧ (Reason.duplicateLicence ∈ d.reasons ↔
               ∃ t j c, presentLicence x = some t ∧ s.ctx j = some c ∧ c.licence = some t)))

/-- R48. A TUNNEL_START on a lane with no SCANNING context: without a licence, or with one no context of the lane has, it
is attached to the first ADMITTED context, with TRACK_MISMATCH in the second case; with the licence of an ADMITTED
context it is attached to that one, the ADMITTED ones ahead taking TRACK_SLIP. The context enters SCANNING with
scan_silence. A started context with the licence, or no ADMITTED context, makes the telegram stray, the first with
ALREADY_STARTED even where no context is ADMITTED (the model's choice, notes/assumptions/23.md: R48 gives NO_CANDIDATE
there too). With a SCANNING context, its scan first ends with SCAN_TRUNCATED. -/
def Obligations.TunnelStartAttaches : Prop :=
  ∀ (s : State) (dst src : Byte) (p : List Byte) (l : Lane) (x : Option Text),
    s.Fits src laneOfTunnel l → p.length ≤ 120 → whole takeLicence p = some x →
    (∀ j, s.scanning l = some j →
      exec (.tunnelStart dst src p) s = .next (State.settle .tunnelStart (State.attachStart l (presentLicence x) src
        ((s.passed ⟨dst, src, 0x02, p⟩).truncateScan j))))
    ∧ (s.scanning l = none →
      (∀ i c, s.namedInLane l (presentLicence x) = none →
        (s.laneContexts l).find? (fun q => q.2.phase == .admitted) = some (i, c) → c.verdict = none →
        Reason.trackMismatch ∉ c.reasons →
        ∃ u, exec (.tunnelStart dst src p) s = .next (State.settle .tunnelStart u)
          ∧ u.ctx i = some { c with
              tunnelStarted := true, phase := .scanning, timer := some s.ctl.params.scanSilence,
              reasons := if (presentLicence x).isSome then insertReason .trackMismatch c.reasons else c.reasons }
          ∧ State.SameContexts [i] s u ∧ State.Only [.tracker] (s.passed ⟨dst, src, 0x02, p⟩) u)
      ∧ (∀ i c, s.namedInLane l (presentLicence x) = some (i, c) → c.phase = .admitted →
        ∃ u, exec (.tunnelStart dst src p) s = .next (State.settle .tunnelStart u)
          ∧ u.ctx i = some { c with
              tunnelStarted := true, phase := .scanning, timer := some s.ctl.params.scanSilence }
          ∧ (∀ j ∈ s.aheadWhere l i (fun d => d.phase == .admitted), ∀ d, s.ctx j = some d →
              ∃ e, u.ctx j = some e ∧ Reason.trackSlip ∈ e.reasons ∧ e.phase = d.phase)
          ∧ State.SameContexts (i :: s.aheadWhere l i (fun d => d.phase == .admitted)) s u)
      ∧ (∀ i c, s.namedInLane l (presentLicence x) = some (i, c) → c.phase ≠ .admitted →
        exec (.tunnelStart dst src p) s = .next (State.settle .tunnelStart
          ((s.passed ⟨dst, src, 0x02, p⟩).stray 0x02 src (some l) (presentLicence x) .alreadyStarted)))
      ∧ (s.namedInLane l (presentLicence x) = none →
        (s.laneContexts l).find? (fun q => q.2.phase == .admitted) = none →
        exec (.tunnelStart dst src p) s = .next (State.settle .tunnelStart
          ((s.passed ⟨dst, src, 0x02, p⟩).stray 0x02 src (some l) (presentLicence x) .noCandidate))))

/-- R47, R49, R56. A CASE_READ is attached to the SCANNING context of its lane, whose tally takes the read, whose timer
restarts with scan_silence and which takes the reason the read hands; with none it is stray. A TUNNEL_END ends that
context's scan: with a measurement lacking it enters MEASURING with measure_limit, else a decision is attempted. -/
def Obligations.CaseReadAndTunnelEnd : Prop :=
  ∀ (s : State) (dst src : Byte) (l : Lane), s.Fits src laneOfTunnel l →
    (∀ p r, p.length ≤ 120 → whole takeCase p = some r →
      (s.scanning l = none → exec (.caseRead dst src p) s =
        .next ((s.passed ⟨dst, src, 0x03, p⟩).stray 0x03 src (some l) none .noCandidate))
      ∧ ∀ i c, s.scanning l = some i → s.ctx i = some c → c.verdict = none →
        exec (.caseRead dst src p) s = .next ((s.passed ⟨dst, src, 0x03, p⟩).putCtx i (some { c with
          timer := some s.ctl.params.scanSilence
          tally := (c.tally.read r).1
          reasons := match (c.tally.read r).2 with
            | none => c.reasons
            | some q => if q ∈ c.reasons then c.reasons else insertReason q c.reasons })))
    ∧ (s.scanning l = none → exec (.tunnelEnd dst src) s = .next (State.settle .tunnelEnd
        ((s.passed ⟨dst, src, 0x04, []⟩).stray 0x04 src (some l) none .noCandidate)))
    ∧ ∀ i c, s.scanning l = some i → s.ctx i = some c →
      (c.lacksWeight = true ∨ c.lacksHeight = true →
        exec (.tunnelEnd dst src) s = .next (State.settle .tunnelEnd ((s.passed ⟨dst, src, 0x04, []⟩).putCtx i
          (some { c with tunnelEnded := true, phase := .measuring, timer := some s.ctl.params.measureLimit }))))
      ∧ (c.lacksWeight = false → c.lacksHeight = false →
        exec (.tunnelEnd dst src) s = .next (State.settle .tunnelEnd (State.attempt i
          ((s.passed ⟨dst, src, 0x04, []⟩).putCtx i (some { c with tunnelEnded := true, timer := none })))))

/-- R50, R51. A MEASURE with one measurement: a value out of range, a licensed context that has not started, has recorded
the absence or is decided, and a lane with no candidate make it stray with its cause; a licensed context with the
measurement and no verdict has it replaced; otherwise it is attached to the licensed context, those ahead that lack it
taking TRACK_SLIP, or to the first started one that lacks it, with TRACK_MISMATCH for a licence the lane has not. The
last lacking measurement of a MEASURING context brings a decision attempt. One with neither measurement is stray.
One with both takes the weight and then the height (the order is the model's choice, notes/assumptions/23.md), each by
that rule, whatever the licence: on one context, with one decision attempt where it is MEASURING, or on two. One of them
that is stray gives one STRAY report with its cause, formed last (the model's choice, notes/assumptions/23.md), and the
other is attached all the same; so for one in range and the other out of range. Two that are stray give one STRAY report,
with the cause of the weight. -/
def Obligations.MeasureAttaches : Prop :=
  (∀ (k : Measurand) (v : Nat) (l : Lane) (lic : Option Text) (t : State),
      (k.most < v → t.takeMeasurement l k v lic = (t, some .outOfRange))
      ∧ (v ≤ k.most →
        (∀ i c, t.namedInLane l lic = some (i, c) →
          (k.present c = true → c.verdict = none →
            t.takeMeasurement l k v lic = (t.putCtx i (some (k.store v c)), none))
          ∧ (k.present c = true → c.verdict.isSome = true →
            t.takeMeasurement l k v lic = (t, some .alreadyDecided))
          ∧ (k.present c = false → k.lacking c = false → t.takeMeasurement l k v lic = (t, some .late))
          ∧ (k.lacking c = true → c.tunnelStarted = false → t.takeMeasurement l k v lic = (t, some .notStarted))
          ∧ (k.lacking c = true → c.tunnelStarted = true → t.takeMeasurement l k v lic =
            (State.attach k v i (State.handAll (t.aheadWhere l i k.lacking) .trackSlip t), none)))
        ∧ (t.namedInLane l lic = none →
          (∀ i c, (t.laneContexts l).find? (fun q => q.2.tunnelStarted && k.lacking q.2) = some (i, c) →
            t.takeMeasurement l k v lic =
              (State.attach k v i (if lic.isSome then t.handSlot i .trackMismatch else t), none))
          ∧ ((t.laneContexts l).find? (fun q => q.2.tunnelStarted && k.lacking q.2) = none →
            t.takeMeasurement l k v lic = (t, some .noCandidate))))
      ∧ ∀ i c u, t.ctx i = some c → u = t.putCtx i (some (k.store v c)) →
        State.attach k v i t =
          if c.phase = .measuring ∧ (k.store v c).lacksWeight = false ∧ (k.store v c).lacksHeight = false
            then State.attempt i u else u)
  ∧ (∀ (s : State) (dst src : Byte) (p : List Byte) (l : Lane) (w h : Nat) (lic : Option Text) (t : State),
      s.Fits src laneOfMeasure l → p.length ≤ 120 → whole takeMeasure p = some (some w, some h, lic) →
      t = s.passed ⟨dst, src, 0x05, p⟩ → ∀ a b, a = t.takeMeasurement l .weight w lic →
      b = a.1.takeMeasurement l .height h lic →
      (a.2 = none → b.2 = none → exec (.measure dst src p) s = .next (State.settle .measure b.1))
      ∧ (∀ y, a.2 = some y ∨ (a.2 = none ∧ b.2 = some y) → exec (.measure dst src p) s =
          .next (State.settle .measure (b.1.stray 0x05 src (some l) lic y)))
      ∧ (Measurand.weight.most < w → h ≤ Measurand.height.most → exec (.measure dst src p) s =
          .next (State.settle .measure
            ((t.takeMeasurement l .height h lic).1.stray 0x05 src (some l) lic .outOfRange)))
      ∧ (w ≤ Measurand.weight.most → Measurand.height.most < h → a.2 = none → exec (.measure dst src p) s =
          .next (State.settle .measure (a.1.stray 0x05 src (some l) lic .outOfRange))))
  ∧ ∀ (s : State) (dst src : Byte) (p : List Byte) (l : Lane) (x : Option Nat × Option Nat × Option Text) (k : Measurand)
    (v : Nat) (t : State), s.Fits src laneOfMeasure l → p.length ≤ 120 → whole takeMeasure p = some x →
    t = s.passed ⟨dst, src, 0x05, p⟩ →
    (x.1 = none → x.2.1 = none → exec (.measure dst src p) s =
      .next (State.settle .measure (t.stray 0x05 src (some l) x.2.2 .empty)))
    ∧ ((k = .weight ∧ x.1 = some v ∧ x.2.1 = none) ∨ (k = .height ∧ x.1 = none ∧ x.2.1 = some v) →
      (k.most < v → exec (.measure dst src p) s =
        .next (State.settle .measure (t.stray 0x05 src (some l) x.2.2 .outOfRange)))
      ∧ (v ≤ k.most →
        (∀ i c, s.namedInLane l x.2.2 = some (i, c) →
          (k.present c = true → c.verdict = none →
            exec (.measure dst src p) s = .next (State.settle .measure (t.putCtx i (some (k.store v c)))))
          ∧ (k.present c = true → c.verdict.isSome = true → exec (.measure dst src p) s =
            .next (State.settle .measure (t.stray 0x05 src (some l) x.2.2 .alreadyDecided)))
          ∧ (k.present c = false → k.lacking c = false → exec (.measure dst src p) s =
            .next (State.settle .measure (t.stray 0x05 src (some l) x.2.2 .late)))
          ∧ (k.lacking c = true → c.tunnelStarted = false → exec (.measure dst src p) s =
            .next (State.settle .measure (t.stray 0x05 src (some l) x.2.2 .notStarted)))
          ∧ (k.lacking c = true → c.tunnelStarted = true →
            (∀ j ∈ s.aheadWhere l i k.lacking, ∀ d, s.ctx j = some d → d.verdict = none) →
            ∃ u, exec (.measure dst src p) s = .next (State.settle .measure
                (if c.phase = .measuring ∧ (k.store v c).lacksWeight = false ∧ (k.store v c).lacksHeight = false
                  then State.attempt i u else u))
              ∧ u.ctx i = some (k.store v c)
              ∧ (∀ j ∈ s.aheadWhere l i k.lacking, ∀ d, s.ctx j = some d →
                  ∃ e, u.ctx j = some e ∧ Reason.trackSlip ∈ e.reasons)
              ∧ State.SameContexts (i :: s.aheadWhere l i k.lacking) s u))
        ∧ (∀ i c, s.namedInLane l x.2.2 = none →
          (s.laneContexts l).find? (fun q => q.2.tunnelStarted && k.lacking q.2) = some (i, c) →
          c.verdict = none → Reason.trackMismatch ∉ c.reasons → ∀ d : Context,
          d = { k.store v c with
            reasons := if x.2.2.isSome then insertReason .trackMismatch c.reasons else c.reasons } →
          (d.phase = .measuring ∧ d.lacksWeight = false ∧ d.lacksHeight = false →
            exec (.measure dst src p) s =
              .next (State.settle .measure (State.attempt i (t.putCtx i (some d)))))
          ∧ (¬ (d.phase = .measuring ∧ d.lacksWeight = false ∧ d.lacksHeight = false) →
            exec (.measure dst src p) s = .next (State.settle .measure (t.putCtx i (some d)))))
        ∧ (s.namedInLane l x.2.2 = none →
          (s.laneContexts l).find? (fun q => q.2.tunnelStarted && k.lacking q.2) = none →
          exec (.measure dst src p) s =
            .next (State.settle .measure (t.stray 0x05 src (some l) x.2.2 .noCandidate)))))
    ∧ ∀ w h, x.1 = some w → x.2.1 = some h →
      (Measurand.weight.most < w → Measurand.height.most < h → exec (.measure dst src p) s =
        .next (State.settle .measure (t.stray 0x05 src (some l) x.2.2 .outOfRange)))
      ∧ (w ≤ Measurand.weight.most → h ≤ Measurand.height.most →
        (∀ i c d, d = { c with weight := some w, height := some h } →
          s.namedInLane l x.2.2 = some (i, c) → c.lacksWeight = true → c.lacksHeight = true →
          c.tunnelStarted = true → s.aheadWhere l i Context.lacksWeight = [] →
          s.aheadWhere l i Context.lacksHeight = [] → exec (.measure dst src p) s = .next (State.settle .measure
            (if c.phase = .measuring then State.attempt i (t.putCtx i (some d)) else t.putCtx i (some d))))
        ∧ (∀ i c d, s.namedInLane l x.2.2 = none →
          (s.laneContexts l).find? (fun q => q.2.tunnelStarted && q.2.lacksWeight) = some (i, c) →
          (s.laneContexts l).find? (fun q => q.2.tunnelStarted && q.2.lacksHeight) = some (i, c) →
          c.verdict = none → Reason.trackMismatch ∉ c.reasons →
          d = { c with
            weight := some w, height := some h
            reasons := if x.2.2.isSome then insertReason .trackMismatch c.reasons else c.reasons } →
          exec (.measure dst src p) s = .next (State.settle .measure
            (if c.phase = .measuring then State.attempt i (t.putCtx i (some d)) else t.putCtx i (some d))))
        ∧ (∀ i c j d, i ≠ j → x.2.2 = none →
          (s.laneContexts l).find? (fun q => q.2.tunnelStarted && q.2.lacksWeight) = some (i, c) →
          (s.laneContexts l).find? (fun q => q.2.tunnelStarted && q.2.lacksHeight) = some (j, d) →
          c.phase ≠ .measuring → ∃ u, exec (.measure dst src p) s = .next (State.settle .measure
              (if d.phase = .measuring ∧ d.lacksWeight = false then State.attempt j u else u))
            ∧ u = (t.putCtx i (some { c with weight := some w })).putCtx j (some { d with height := some h })))

/-- R95. SCALE_CHECKED from a lane's measuring station, and SCALE_CLEAR for a lane, set its scale NORMAL with streak
0; a LANE report tells of it when the scale was SUSPECT. SCALE_CLEAR replies with the state and streak before it. -/
def Obligations.ScaleIsCleared : Prop :=
  ∀ (s : State) (src : Byte) (l : Lane),
    (∀ dst, s.Fits src laneOfMeasure l →
      ∃ u, exec (.scaleChecked dst src) s = .next u ∧ u.scale l = ⟨.normal, 0⟩
        ∧ (∀ m, m ≠ l → u.scale m = s.scale m) ∧ u.recon.clock = s.recon.clock
        ∧ ((s.scale l).state = .normal → State.Only [.recon] (s.passed ⟨dst, src, 0x06, []⟩) u)
        ∧ ((s.scale l).state = .suspect → ∃ v, State.Only [.recon] (s.passed ⟨dst, src, 0x06, []⟩) v
            ∧ u = v.report (.lane (.scaleNormal l src))))
    ∧ ∀ tag n, s.Takes src 0x34 →
      (n = l.val + 1 → ∃ u, exec (.scaleClear src tag n) s =
          .next (u.answered src 0x34 tag .ok (.scale (s.scale l).state (s.scale l).streak))
        ∧ u.scale l = ⟨.normal, 0⟩ ∧ (∀ m, m ≠ l → u.scale m = s.scale m)
        ∧ ((s.scale l).state = .normal → State.Only [.recon] (s.taken src) u)
        ∧ ((s.scale l).state = .suspect → ∃ v, State.Only [.recon] (s.taken src) v
            ∧ u = v.report (.lane (.scaleNormal l src))))
      ∧ (n = 0 ∨ 8 < n → exec (.scaleClear src tag n) s =
          .next ((s.taken src).answered src 0x34 tag .badField .none))

/-- R100, R102, R40. MOVE_DONE while the car is MOVING with a context: the context leaves its lane; at an IDLE wrapper
it enters WRAPPING, the wrapper LOADED with it and ORDERED, with wrap_limit started, and a WRAP_ORDER with the recipe
of the move and the licence is sent before the car is IDLE; at any other wrapper the wrapper keeps its state with it
DELIVERED and no timer runs (R100 has no row for LOADED, WRAPPING and DONE_HELD; keeping the state there is the
model's choice, notes/assumptions/24.md); at the spur the context enters TICKETING at the tail of the ticket order. An
orphan set down at a wrapper leaves that in FAULT with it. The car is IDLE with no cargo, and the arbiter is due.
MOVE_DONE in another state of the car is stray. -/
def Obligations.MoveDone : Prop :=
  ∀ (s : State) (dst src : Byte), s.Hears src → RoleInst.transferCar ∈ s.rolesAt src →
    (s.alloc.car.state ≠ .moving → exec (.moveDone dst src) s =
      .next ((s.passed ⟨dst, src, 0x07, [1]⟩).stray 0x07 src none none .noCandidate))
    ∧ (∀ i c, s.alloc.car.state = .moving → s.alloc.car.cargo = .context ⟨i, c.adm⟩ → s.ctx i = some c →
      ∃ u d, exec (.moveDone dst src) s = .next ((State.settle .moveDone u).infeedDecision c.lane)
        ∧ u.alloc.car = { s.alloc.car with
            state := .idle, cargo := .none, source := none, dest := none, recipe := none }
        ∧ u.alloc.arbiterDue = true ∧ u.queue c.lane = (s.queue c.lane).erase i
        ∧ (∀ m, m ≠ c.lane → u.queue m = s.queue m) ∧ u.ctx i = some d
        ∧ (∀ w, s.alloc.car.dest = some (.wrapper w) → (s.wrapper w).state = .idle →
            d = { c with wrapper := some w, phase := .wrapping, timer := some s.ctl.params.wrapLimit }
              ∧ (u.wrapper w).state = .loaded ∧ (u.wrapper w).pallet = .context ⟨i, c.adm⟩
              ∧ (u.wrapper w).progress = some .ordered ∧ (u.wrapper w).recipe = s.alloc.car.recipe
              ∧ (∀ v, v ≠ w → u.wrapper v = s.wrapper v) ∧ State.SameContexts [i] s u
              ∧ ∀ r, s.alloc.car.recipe = some r →
                  ∃ v, u = State.carIdle (v.sendWrapOrder w ⟨r, c.licence⟩) ∧ v.ctx i = some d
                    ∧ v.alloc.car = s.alloc.car
                    ∧ v.wrapper w = { s.wrapper w with
                        state := .loaded, pallet := .context ⟨i, c.adm⟩, progress := some .ordered, recipe := some r }
                    ∧ State.Only [.tracker, .alloc, .ring, .mgmt] (s.passed ⟨dst, src, 0x07, [1]⟩) v)
        ∧ (∀ w, s.alloc.car.dest = some (.wrapper w) → (s.wrapper w).state ≠ .idle →
            d = { c with wrapper := some w, phase := .wrapping, timer := none }
              ∧ u.wrapper w = { s.wrapper w with
                  pallet := .context ⟨i, c.adm⟩, progress := some .delivered, recipe := s.alloc.car.recipe }
              ∧ (∀ v, v ≠ w → u.wrapper v = s.wrapper v) ∧ State.SameContexts [i] s u)
        ∧ (s.alloc.car.dest = some .spur → d.phase = .ticketing ∧ d.timer = none ∧ d.verdict = c.verdict
              ∧ u.labels.tickets = s.labels.tickets ++ [i] ∧ ∀ v, u.wrapper v = s.wrapper v))
    ∧ (s.alloc.car.state = .moving → s.alloc.car.cargo = .orphan →
      ∃ u, exec (.moveDone dst src) s = .next (State.settle .moveDone u)
        ∧ u.alloc.car = { s.alloc.car with
            state := .idle, cargo := .none, source := none, dest := none, recipe := none }
        ∧ u.alloc.arbiterDue = true ∧ u.tracker = s.tracker
        ∧ (s.alloc.car.dest = some .spur → ∀ v, u.wrapper v = s.wrapper v)
        ∧ ∀ w, s.alloc.car.dest = some (.wrapper w) → (u.wrapper w).state = .fault
            ∧ (u.wrapper w).pallet = .orphan ∧ (u.wrapper w).progress = none
            ∧ (u.wrapper w).warmTimer = none ∧ (u.wrapper w).afterRelease = .idle
            ∧ ∀ v, v ≠ w → u.wrapper v = s.wrapper v)

/-- R101, R102. A move that fails, by MOVE_FAULT or at the expiry of car_move_limit for the context the car carries,
leaves the car in FAULT with its cargo; a context carried takes CAR_FAULT, with a verdict of REWORK at least, and its
timer stops. MOVE_FAULT with the car IDLE is stray, and in FAULT has no effect. R101, R102. READY with the car in
FAULT: empty, it becomes IDLE and the arbiter is due; with a cargo, it makes the recovery move to the spur when the
spur account is below 6, a context's car_move_limit starting again and a CAR_MOVE from the car to the spur, with a
context's licence, being sent, and else waits for it. READY in another state has no effect. R104, R101. SPUR_STATE
sets the reported occupancy, at most 6. A rise or a fall of the account makes the arbiter due, and a fall that leaves
the account below 6 starts a recovery move that is due, with its CAR_MOVE. -/
def Obligations.MoveFaultAndRecovery : Prop :=
  (∀ (s : State) (dst src : Byte),
      (s.Hears src → RoleInst.transferCar ∈ s.rolesAt src →
        (s.alloc.car.state = .idle → exec (.moveFault dst src) s =
          .next ((s.passed ⟨dst, src, 0x07, [2]⟩).stray 0x07 src none none .noCandidate))
        ∧ (s.alloc.car.state = .fault →
            exec (.moveFault dst src) s = .next (s.passed ⟨dst, src, 0x07, [2]⟩))
        ∧ (s.alloc.car.state = .moving → ∃ u, exec (.moveFault dst src) s = .next u
            ∧ u.alloc.car = { s.alloc.car with state := .fault }
            ∧ (∀ i c, s.alloc.car.cargo = .context ⟨i, c.adm⟩ → s.ctx i = some c → ∃ d, u.ctx i = some d
                ∧ Reason.carFault ∈ d.reasons ∧ d.timer = none ∧ d.phase = c.phase
                ∧ (Reason.carFault ∉ c.reasons → ∀ v, c.verdict = some v → d.verdict = some (v.max .rework)))
            ∧ (s.alloc.car.cargo = .orphan → u.tracker = s.tracker)))
      ∧ ∀ (i : Slot) (c : Context), s.ctl.inReset = false → s.ctx i = some c →
        (c.phase = .moving → c.timer = some 0 → s.alloc.car.state = .moving →
          s.alloc.car.cargo = .context ⟨i, c.adm⟩ → Reason.carFault ∉ c.reasons → ∀ v, c.verdict = some v →
          ∃ u d, exec (.carMoveLimitExpiry i) s = .next u ∧ u.alloc.car = { s.alloc.car with state := .fault }
            ∧ u.ctx i = some d ∧ d.verdict = some (v.max .rework) ∧ Reason.carFault ∈ d.reasons
            ∧ d.timer = none ∧ d.phase = .moving)
        ∧ (c.phase ≠ .moving ∨ c.timer ≠ some 0 → exec (.carMoveLimitExpiry i) s = .next s))
  ∧ (∀ (s : State) (dst src : Byte), s.Hears src → RoleInst.transferCar ∈ s.rolesAt src →
       (s.alloc.car.state ≠ .fault →
         exec (.carReady dst src) s = .next (s.passed ⟨dst, src, 0x07, [3]⟩))
       ∧ (s.alloc.car.state = .fault → ∃ u, exec (.carReady dst src) s = .next (State.settle .carReady u)
         ∧ (s.alloc.car.cargo = .none →
             u.alloc.car = { s.alloc.car with state := .idle } ∧ u.alloc.arbiterDue = true ∧ u.tracker = s.tracker)
         ∧ (s.alloc.car.cargo ≠ .none → s.spurAccount < 6 →
             u.alloc.car.state = .moving ∧ u.alloc.car.dest = some .spur ∧ u.alloc.car.recipe = none
               ∧ u.alloc.car.cargo = s.alloc.car.cargo ∧ u.alloc.car.recoveryDue = false
               ∧ (s.alloc.car.cargo = .orphan → ∃ v, u = v.sendCarMove ⟨none, .spur, none⟩
                   ∧ State.Only [.alloc, .ring, .mgmt] (s.passed ⟨dst, src, 0x07, [3]⟩) v)
               ∧ ∀ i c, s.alloc.car.cargo = .context ⟨i, c.adm⟩ → s.ctx i = some c →
                   u.ctx i = some { c with timer := some s.ctl.params.carMoveLimit }
                     ∧ State.SameContexts [i] s u
                     ∧ ∃ v, State.Only [.alloc, .ring, .mgmt] (s.passed ⟨dst, src, 0x07, [3]⟩) v
                       ∧ u = State.putCtx i (some { c with timer := some s.ctl.params.carMoveLimit })
                           (v.sendCarMove ⟨none, .spur, c.licence⟩))
         ∧ (s.alloc.car.cargo ≠ .none → 6 ≤ s.spurAccount →
             u = (s.passed ⟨dst, src, 0x07, [3]⟩).modCar fun c => { c with recoveryDue := true })))
  ∧ (∀ (s : State) (dst src n : Byte), s.Hears src → RoleInst.rejectSpur ∈ s.rolesAt src →
       ∃ u m, m = min 6 n.toNat ∧ exec (.spurState dst src n) s = .next (State.settle .spurState u)
         ∧ u.alloc.spur = m
         ∧ (m = s.alloc.spur → u = s.passed ⟨dst, src, 0x0B, [n]⟩)
         ∧ (m ≠ s.alloc.spur → u.alloc.arbiterDue = true)
         ∧ (s.alloc.spur < m ∨ s.alloc.car.recoveryDue = false ∨ 6 ≤ m + s.ticketing →
             u.alloc.car = s.alloc.car ∧ State.Only [.alloc] (s.passed ⟨dst, src, 0x0B, [n]⟩) u)
         ∧ (m < s.alloc.spur → s.alloc.car.recoveryDue = true → m + s.ticketing < 6 →
             u.alloc.car.state = .moving ∧ u.alloc.car.dest = some .spur ∧ u.alloc.car.recoveryDue = false
               ∧ u.alloc.car.cargo = s.alloc.car.cargo
               ∧ (s.alloc.car.cargo = .orphan → ∃ v, u = v.sendCarMove ⟨none, .spur, none⟩
                   ∧ State.Only [.alloc, .ring, .mgmt] (s.passed ⟨dst, src, 0x0B, [n]⟩) v)
               ∧ ∀ i c, s.alloc.car.cargo = .context ⟨i, c.adm⟩ → s.ctx i = some c →
                   ∃ v, State.Only [.alloc, .ring, .mgmt] (s.passed ⟨dst, src, 0x0B, [n]⟩) v
                     ∧ u = State.putCtx i (some { c with timer := some s.ctl.params.carMoveLimit })
                         (v.sendCarMove ⟨none, .spur, c.licence⟩)))

/-- R107, R110. READY at an OFFLINE or FAULT wrapper that holds no orphan and no faulted wrap, empty or with a
delivered context, starts the warm-up; with an orphan it does so too, the wrapper then holding none; a warm_up of 0
ends it at once. With a faulted wrap the context joins its label line as QUEUED_LABEL and the wrapper warms up, or,
where the line has no room or a wrapper is held for it, the wrapper is DONE_HELD, to be WARMING after the release. At
a DONE_HELD one that would be OFFLINE or FAULT afterwards READY makes that WARMING; at a WARMING, IDLE, LOADED or
WRAPPING one it does nothing. The end of a warm-up makes an empty wrapper IDLE, with the arbiter due, and one with a
delivered context LOADED, its wrap ordered and wrap_limit started, a WRAP_ORDER with the recipe held and the licence
being sent. R109, R110. A WRAPPER_OUTPUT RELEASE is sent at the entry to WARMING from FAULT, or from an OFFLINE that
has a faulted wrap or an orphan (the model's choice, notes/assumptions/24.md), where the last output order is HOLD,
before a warm_up of 0 ends the warm-up; where it is RELEASE, and from another OFFLINE, none is. A wrapper that becomes
DONE_HELD is sent a HOLD. R108, R113, R156. A WRAP_ORDER goes to the address that holds WRAPPER for its wrapper, or
waits in the wrapper's slot, where a newer one replaces it (the model's choice, notes/assumptions/24.md). R107.
STANDBY at an IDLE, FAULT or WARMING wrapper makes it OFFLINE, its warm-up stopped; at a LOADED or WRAPPING one too,
its context's timer stopped, the wrap DELIVERED again and an order not yet sent dropped; at a DONE_HELD one it is
noted for after the release; at an OFFLINE one it does nothing. -/
def Obligations.WrapperReadyAndStandby : Prop :=
  (∀ (s : State) (w : WrapperNo),
      (∀ dst src, s.Fits src wrapperOf w →
        ∃ u, exec (.wrapperReady dst src) s = .next (State.settle .wrapperReady u)
          ∧ (∀ v, v ≠ w → u.wrapper v = s.wrapper v)
          ∧ ((s.wrapper w).state = .warming ∨ (s.wrapper w).state = .idle ∨ (s.wrapper w).state = .loaded
              ∨ (s.wrapper w).state = .wrapping → u = s.passed ⟨dst, src, 0x08, [1]⟩)
          ∧ ((s.wrapper w).state = .doneHeld →
              (s.wrapper w).afterRelease = .offline ∨ (s.wrapper w).afterRelease = .fault →
              u = (s.passed ⟨dst, src, 0x08, [1]⟩).modWrapper w fun x => { x with afterRelease := .warming })
          ∧ ((s.wrapper w).state = .doneHeld →
              (s.wrapper w).afterRelease = .idle ∨ (s.wrapper w).afterRelease = .warming →
              u = s.passed ⟨dst, src, 0x08, [1]⟩)
          ∧ ((s.wrapper w).state = .offline ∨ (s.wrapper w).state = .fault →
            ((s.wrapper w).pallet ≠ .orphan → (s.wrapper w).progress ≠ some .faulted →
              ((s.wrapper w).warmUp ≠ 0 → (u.wrapper w).state = .warming
                ∧ (u.wrapper w).warmTimer = some (s.wrapper w).warmUp ∧ (u.wrapper w).pallet = (s.wrapper w).pallet
                ∧ (u.wrapper w).progress = (s.wrapper w).progress ∧ u.tracker = s.tracker)
              ∧ ((s.wrapper w).warmUp = 0 → (s.wrapper w).pallet = .none → (u.wrapper w).state = .idle
                ∧ (u.wrapper w).warmTimer = none ∧ (u.wrapper w).pallet = .none ∧ u.alloc.arbiterDue = true
                ∧ u.tracker = s.tracker)
              ∧ (∀ i c, (s.wrapper w).warmUp = 0 → (s.wrapper w).pallet = .context ⟨i, c.adm⟩ →
                (s.wrapper w).progress = some .delivered → s.ctx i = some c → (u.wrapper w).state = .loaded
                ∧ (u.wrapper w).warmTimer = none ∧ (u.wrapper w).progress = some .ordered
                ∧ (u.wrapper w).pallet = (s.wrapper w).pallet
                ∧ u.ctx i = some { c with timer := some s.ctl.params.wrapLimit } ∧ State.SameContexts [i] s u
                ∧ ∀ r, (s.wrapper w).recipe = some r → ∃ v, u = v.sendWrapOrder w ⟨r, c.licence⟩
                  ∧ State.Only [.tracker, .alloc, .ring, .mgmt] (s.passed ⟨dst, src, 0x08, [1]⟩) v))
            ∧ ((s.wrapper w).state = .offline → (s.wrapper w).pallet ≠ .orphan →
              (s.wrapper w).progress ≠ some .faulted → (u.wrapper w).output = (s.wrapper w).output)
            ∧ ((s.wrapper w).state = .fault ∧ (s.wrapper w).progress ≠ some .faulted
                ∨ (s.wrapper w).pallet = .orphan →
              ((s.wrapper w).lastOutput = .release → (u.wrapper w).output = (s.wrapper w).output)
              ∧ ((s.wrapper w).lastOutput = .hold → ∃ v, v.wrapper w = { s.wrapper w with
                    state := .warming, warmTimer := some (s.wrapper w).warmUp
                    pallet := if (s.wrapper w).pallet = .orphan then .none else (s.wrapper w).pallet }
                ∧ State.Only [.alloc, .ring, .mgmt] (s.passed ⟨dst, src, 0x08, [1]⟩) v
                ∧ u = if (s.wrapper w).warmUp = 0 then State.endWarmUp w (v.sendOutput w .release)
                    else v.sendOutput w .release))
            ∧ ((s.wrapper w).pallet = .orphan → (u.wrapper w).pallet = .none ∧ u.tracker = s.tracker
              ∧ ((s.wrapper w).warmUp ≠ 0 → (u.wrapper w).state = .warming
                ∧ (u.wrapper w).warmTimer = some (s.wrapper w).warmUp)
              ∧ ((s.wrapper w).warmUp = 0 → (u.wrapper w).state = .idle ∧ (u.wrapper w).warmTimer = none
                ∧ u.alloc.arbiterDue = true))
            ∧ (∀ i c k, (s.wrapper w).pallet = .context ⟨i, c.adm⟩ → (s.wrapper w).progress = some .faulted →
              s.ctx i = some c → k = lineOfWrapper w →
              ((s.line k).length < 3 → s.alloc.held[k] = [] →
                u.line k = s.line k ++ [i] ∧ (u.wrapper w).pallet = .none ∧ (u.wrapper w).progress = none
                ∧ (u.wrapper w).afterRelease = .idle
                ∧ ((s.wrapper w).warmUp ≠ 0 → (u.wrapper w).state = .warming
                  ∧ (u.wrapper w).warmTimer = some (s.wrapper w).warmUp)
                ∧ ((s.wrapper w).warmUp = 0 → (u.wrapper w).state = .idle ∧ (u.wrapper w).warmTimer = none
                  ∧ u.alloc.arbiterDue = true)
                ∧ ((s.wrapper w).lastOutput = .release → (u.wrapper w).output = (s.wrapper w).output)
                ∧ ((s.wrapper w).lastOutput = .hold → ∃ v, v.wrapper w = { s.wrapper w with
                      state := .warming, warmTimer := some (s.wrapper w).warmUp, pallet := .none, progress := none
                      recipe := none, afterRelease := .idle }
                  ∧ State.Only [.tracker, .alloc, .labels, .ring, .mgmt] (s.passed ⟨dst, src, 0x08, [1]⟩) v
                  ∧ u = if (s.wrapper w).warmUp = 0 then State.endWarmUp w (v.sendOutput w .release)
                      else v.sendOutput w .release)
                ∧ ∃ d, u.ctx i = some d ∧ d.phase = .queuedLabel ∧ d.timer = none ∧ d.verdict = c.verdict)
              ∧ (3 ≤ (s.line k).length ∨ s.alloc.held[k] ≠ [] →
                (u.wrapper w).state = .doneHeld ∧ (u.wrapper w).progress = some .done
                ∧ (u.wrapper w).afterRelease = .warming ∧ (u.wrapper w).pallet = (s.wrapper w).pallet
                ∧ u.alloc.held[k] = s.alloc.held[k] ++ [w] ∧ u.labels = s.labels ∧ u.tracker = s.tracker
                ∧ ∃ v, u = v.sendOutput w .hold ∧ v.wrapper w = { s.wrapper w with
                      state := .doneHeld, progress := some .done, afterRelease := .warming }
                  ∧ State.Only [.alloc, .ring, .mgmt] (s.passed ⟨dst, src, 0x08, [1]⟩) v))))
      ∧ (s.ctl.inReset = false →
        ((s.wrapper w).state ≠ .warming ∨ (s.wrapper w).warmTimer ≠ some 0 → exec (.warmUpEnd w) s = .next s)
        ∧ ((s.wrapper w).state = .warming → (s.wrapper w).warmTimer = some 0 →
          ∃ u, exec (.warmUpEnd w) s = .next (State.settle .warmUpEnd u) ∧ (u.wrapper w).warmTimer = none
            ∧ (∀ v, v ≠ w → u.wrapper v = s.wrapper v)
            ∧ ((s.wrapper w).pallet = .none →
                (u.wrapper w).state = .idle ∧ u.alloc.arbiterDue = true ∧ u.tracker = s.tracker)
            ∧ ∀ i c, (s.wrapper w).pallet = .context ⟨i, c.adm⟩ → (s.wrapper w).progress = some .delivered →
                s.ctx i = some c →
                (u.wrapper w).state = .loaded ∧ (u.wrapper w).progress = some .ordered
                  ∧ (u.wrapper w).pallet = (s.wrapper w).pallet
                  ∧ u.ctx i = some { c with timer := some s.ctl.params.wrapLimit } ∧ State.SameContexts [i] s u
                  ∧ ∀ r, (s.wrapper w).recipe = some r → ∃ v, u = v.sendWrapOrder w ⟨r, c.licence⟩
                    ∧ State.Only [.tracker, .alloc, .ring, .mgmt] s v)))
  ∧ (∀ (s : State) (w : WrapperNo) (o : WrapOrder), State.OrderOut (.wrapOrder w) (.wrapper w) 0x22
       (BitVec.ofNat 8 o.recipe :: licenceField o.licence)
       (s.modWrapper w fun x => { x with wrapOrder := some o }) (s.modWrapper w fun x => { x with wrapOrder := none })
       (s.modWrapper w fun x => { x with wrapOrder := none }) (s.sendWrapOrder w o))
  ∧ (∀ (s : State) (dst src : Byte) (w : WrapperNo), s.Fits src wrapperOf w →
       ((s.wrapper w).state = .offline → exec (.standby dst src) s = .next (s.passed ⟨dst, src, 0x08, [2]⟩))
       ∧ ((s.wrapper w).state = .doneHeld → exec (.standby dst src) s =
           .next ((s.passed ⟨dst, src, 0x08, [2]⟩).modWrapper w fun x => { x with afterRelease := .offline }))
       ∧ ((s.wrapper w).state ≠ .offline → (s.wrapper w).state ≠ .doneHeld →
         ∃ u, exec (.standby dst src) s = .next u ∧ (u.wrapper w).state = .offline
           ∧ (u.wrapper w).pallet = (s.wrapper w).pallet ∧ (∀ v, v ≠ w → u.wrapper v = s.wrapper v)
           ∧ u.alloc.car = s.alloc.car
           ∧ ((s.wrapper w).state = .warming → (u.wrapper w).warmTimer = none)
           ∧ ((s.wrapper w).state = .idle ∨ (s.wrapper w).state = .fault ∨ (s.wrapper w).state = .warming →
               (u.wrapper w).progress = (s.wrapper w).progress ∧ u.tracker = s.tracker)
           ∧ ((s.wrapper w).state = .loaded ∨ (s.wrapper w).state = .wrapping →
               (u.wrapper w).progress = some .delivered ∧ (u.wrapper w).wrapOrder = none
                 ∧ ∀ i c, (s.wrapper w).pallet = .context ⟨i, c.adm⟩ → s.ctx i = some c →
                     u.ctx i = some { c with timer := none } ∧ State.SameContexts [i] s u)))

/-- R108. WRAP_STARTED at a LOADED wrapper: it is WRAPPING, the wrap STARTED; at the first one for its context the
dispatch label is asked for, if the verdict is PASS. In another state of the wrapper it is stray. R109, R134.
WRAP_DONE at a LOADED or WRAPPING wrapper stops its context's timer. With room on its label line and no wrapper held
for it, the context joins the line as QUEUED_LABEL and the wrapper gives it up and takes the state in after release,
with no RELEASE sent where that is WARMING; else the wrapper is DONE_HELD, the wrap DONE, at the tail of the line's
held-output order, and WRAPPER_OUTPUT HOLD is sent. In another state of the wrapper it is stray. R113, R156. A
WRAPPER_OUTPUT goes to the address that holds WRAPPER for its wrapper, and is the last output order once placed; or it
waits in the wrapper's slot, where a newer one replaces it, or, where that equals the last output order, both are
dropped, the holder leaving the pending list. -/
def Obligations.WrapRuns : Prop :=
  (∀ (s : State) (dst src : Byte) (w : WrapperNo), s.Fits src wrapperOf w →
      ((s.wrapper w).state ≠ .loaded → exec (.wrapStarted dst src) s =
        .next ((s.passed ⟨dst, src, 0x08, [3]⟩).stray 0x08 src none none .noCandidate))
      ∧ ((s.wrapper w).state = .loaded → ∃ u, exec (.wrapStarted dst src) s = .next u
        ∧ (u.wrapper w).state = .wrapping ∧ (u.wrapper w).progress = some .started
        ∧ (u.wrapper w).pallet = (s.wrapper w).pallet ∧ (∀ v, v ≠ w → u.wrapper v = s.wrapper v)
        ∧ ∀ i c, (s.wrapper w).pallet = .context ⟨i, c.adm⟩ → s.ctx i = some c →
            ∃ d, u.ctx i = some d ∧ d.wrapStarted = true ∧ d.phase = c.phase ∧ d.timer = c.timer
              ∧ d.verdict = c.verdict
              ∧ (c.wrapStarted = false → c.verdict = some .pass → c.compStatus = .none → d.compStatus ≠ .none)
              ∧ (c.wrapStarted = true ∨ c.verdict ≠ some .pass → d.compStatus = c.compStatus)))
  ∧ (∀ (s : State) (dst src : Byte) (w : WrapperNo), s.Fits src wrapperOf w →
       ((s.wrapper w).state ≠ .loaded → (s.wrapper w).state ≠ .wrapping → exec (.wrapDone dst src) s =
         .next ((s.passed ⟨dst, src, 0x08, [4]⟩).stray 0x08 src none none .noCandidate))
       ∧ (∀ (i : Slot) (c : Context) (k : LineNo),
         (s.wrapper w).state = .loaded ∨ (s.wrapper w).state = .wrapping →
         (s.wrapper w).pallet = .context ⟨i, c.adm⟩ → s.ctx i = some c → k = lineOfWrapper w →
         ∃ u d, exec (.wrapDone dst src) s = .next (State.settle .wrapDone u) ∧ u.ctx i = some d
           ∧ d.timer = none ∧ d.verdict = c.verdict ∧ (∀ v, v ≠ w → u.wrapper v = s.wrapper v)
           ∧ ((s.line k).length < 3 → s.alloc.held[k] = [] →
               d.phase = .queuedLabel ∧ u.line k = s.line k ++ [i] ∧ (u.wrapper w).pallet = .none
                 ∧ (u.wrapper w).progress = none
                 ∧ ((s.wrapper w).afterRelease = .idle →
                     (u.wrapper w).state = .idle ∧ u.alloc.arbiterDue = true)
                 ∧ (u.wrapper w).output = (s.wrapper w).output
                 ∧ ((s.wrapper w).afterRelease = .offline →
                     (u.wrapper w).state = .offline ∧ (u.wrapper w).afterRelease = .idle)
                 ∧ ((s.wrapper w).afterRelease = .fault →
                     (u.wrapper w).state = .fault ∧ (u.wrapper w).afterRelease = .idle)
                 ∧ ((s.wrapper w).afterRelease = .warming → (u.wrapper w).afterRelease = .idle
                   ∧ ((s.wrapper w).warmUp ≠ 0 → (u.wrapper w).state = .warming
                     ∧ (u.wrapper w).warmTimer = some (s.wrapper w).warmUp)
                   ∧ ((s.wrapper w).warmUp = 0 → (u.wrapper w).state = .idle ∧ (u.wrapper w).warmTimer = none
                     ∧ u.alloc.arbiterDue = true)))
           ∧ (3 ≤ (s.line k).length ∨ s.alloc.held[k] ≠ [] →
               d.phase = c.phase ∧ u.labels = s.labels ∧ (u.wrapper w).state = .doneHeld
                 ∧ (u.wrapper w).progress = some .done
                 ∧ (u.wrapper w).pallet = .context ⟨i, c.adm⟩ ∧ u.alloc.held[k] = s.alloc.held[k] ++ [w]
                 ∧ ∃ v, u = v.sendOutput w .hold
                   ∧ v.wrapper w = { s.wrapper w with state := .doneHeld, progress := some .done }
                   ∧ State.Only [.tracker, .alloc, .composer, .ring, .mgmt] (s.passed ⟨dst, src, 0x08, [4]⟩) v)))
  ∧ ∀ (s : State) (w : WrapperNo) (c : OutputCmd),
      ((s.wrapper w).output.isSome = true → (s.wrapper w).lastOutput = c → s.sendOutput w c =
        (s.modWrapper w fun x => { x with output := none }).onRing fun r => { r with
          waiting := r.waiting.erase (.wrapOutput w) })
      ∧ ((s.wrapper w).output = none ∨ (s.wrapper w).lastOutput ≠ c → State.OrderOut (.wrapOutput w) (.wrapper w) 0x23
        [if c = .hold then 1 else 2] (s.modWrapper w fun x => { x with output := some c })
        (s.modWrapper w fun x => { x with output := none, lastOutput := c })
        (s.modWrapper w fun x => { x with output := none }) (s.sendOutput w c))

/-- R110. WRAP_FAULT, and the expiry of wrap_limit, at a LOADED or WRAPPING wrapper: it is FAULT with the wrap
FAULTED, and its context takes WRAP_FAULT or WRAP_TIMEOUT with its timer stopped. WRAP_FAULT at an OFFLINE, WARMING or
IDLE wrapper makes it FAULT, its warm-up stopped; at a DONE_HELD one it is noted for after the release; in FAULT it
does nothing. -/
def Obligations.WrapFails : Prop :=
  ∀ (s : State) (w : WrapperNo),
    (∀ dst src, s.Fits src wrapperOf w →
      ∃ u, exec (.wrapFault dst src) s = .next (State.settle .wrapFault u)
        ∧ ((s.wrapper w).state = .fault → u = s.passed ⟨dst, src, 0x08, [5]⟩)
        ∧ ((s.wrapper w).state = .doneHeld →
            u = (s.passed ⟨dst, src, 0x08, [5]⟩).modWrapper w fun x => { x with afterRelease := .fault })
        ∧ ((s.wrapper w).state = .offline ∨ (s.wrapper w).state = .warming ∨ (s.wrapper w).state = .idle →
            u.wrapper w = { s.wrapper w with state := .fault, warmTimer := none } ∧ u.tracker = s.tracker)
        ∧ ((s.wrapper w).state = .loaded ∨ (s.wrapper w).state = .wrapping →
            u.wrapper w = { s.wrapper w with state := .fault, progress := some .faulted }
              ∧ ∀ i c, (s.wrapper w).pallet = .context ⟨i, c.adm⟩ → s.ctx i = some c →
                  ∃ d, u.ctx i = some d ∧ Reason.wrapFault ∈ d.reasons ∧ d.timer = none ∧ d.phase = c.phase)
        ∧ ∀ v, v ≠ w → u.wrapper v = s.wrapper v)
    ∧ ∀ (i : Slot) (c : Context), s.ctl.inReset = false → s.ctx i = some c →
      (c.phase ≠ .wrapping ∨ c.timer ≠ some 0 → exec (.wrapLimitExpiry i) s = .next s)
      ∧ (c.phase = .wrapping → c.timer = some 0 → s.wrapping i = some w →
          (s.wrapper w).pallet = .context ⟨i, c.adm⟩ →
          ∃ u d, exec (.wrapLimitExpiry i) s = .next (State.settle .wrapLimit u)
            ∧ u.wrapper w = { s.wrapper w with state := .fault, progress := some .faulted }
            ∧ u.ctx i = some d ∧ Reason.wrapTimeout ∈ d.reasons ∧ d.timer = none ∧ d.phase = .wrapping
            ∧ ∀ v, v ≠ w → u.wrapper v = s.wrapper v)

/-- R137, R146. JOB_TAKEN with the serial of a job that waits for it sets that job TAKEN: on a label line the first
context with such a job, at the reject applicator the first of the ticket order if it has it. With no such job it is
stray. -/
def Obligations.JobTaken : Prop :=
  ∀ (s : State) (dst src : Byte) (b : List Byte) (n : Nat), s.Hears src → b.length ≤ 119 →
    (∃ e, whole takeLabelEvent (1 :: b) = some e ∧ e = .jobTaken n) →
    (∀ k, s.roleOf src applicatorRole = some (some k) →
      (∀ i c j, (s.line k).find? (fun i => (s.ctx i).any fun c => c.awaitsTaken n) = some i → s.ctx i = some c →
        c.job = some j →
        exec (.jobTaken dst src b) s = .next ((s.passed ⟨dst, src, 0x09, 1 :: b⟩).putCtx i
          (some { c with job := some { j with stage := .taken } })))
      ∧ ((s.line k).find? (fun i => (s.ctx i).any fun c => c.awaitsTaken n) = none →
        exec (.jobTaken dst src b) s =
          .next ((s.passed ⟨dst, src, 0x09, 1 :: b⟩).stray 0x09 src none none .noCandidate)))
    ∧ (s.roleOf src applicatorRole = some none →
      (∀ i rest c j, s.labels.tickets = i :: rest → s.ctx i = some c → c.job = some j → j.serial = n →
        j.stage ≠ .taken →
        exec (.jobTaken dst src b) s = .next ((s.passed ⟨dst, src, 0x09, 1 :: b⟩).putCtx i
          (some { c with job := some { j with stage := .taken } })))
      ∧ (s.labels.tickets = [] ∨ (∃ i rest c, s.labels.tickets = i :: rest ∧ s.ctx i = some c
            ∧ c.awaitsTaken n = false) → exec (.jobTaken dst src b) s =
          .next ((s.passed ⟨dst, src, 0x09, 1 :: b⟩).stray 0x09 src none none .noCandidate)))

/-- R139, R146. PALLET_AT_LABEL makes the first QUEUED_LABEL context of the line LABELLING, with label_limit; with one
LABELLING already, or none queued, it is stray. From the reject applicator it has no effect. -/
def Obligations.PalletAtLabel : Prop :=
  ∀ (s : State) (dst src : Byte) (t : State), s.Hears src → t = s.passed ⟨dst, src, 0x09, [2]⟩ →
    (s.roleOf src applicatorRole = some none → exec (.palletAtLabel dst src) s = .next t)
    ∧ ∀ k, s.roleOf src applicatorRole = some (some k) →
      (∀ i, s.labelling k = some i →
        exec (.palletAtLabel dst src) s = .next (t.stray 0x09 src none none .alreadyStarted))
      ∧ (s.labelling k = none →
        (∀ i c, (s.line k).find? (fun i => (s.ctx i).any fun c => c.phase == .queuedLabel) = some i →
          s.ctx i = some c → exec (.palletAtLabel dst src) s =
            .next (t.putCtx i (some { c with phase := .labelling, timer := some s.ctl.params.labelLimit })))
        ∧ ((s.line k).find? (fun i => (s.ctx i).any fun c => c.phase == .queuedLabel) = none →
          exec (.palletAtLabel dst src) s = .next (t.stray 0x09 src none none .noCandidate)))

/-- R140, R142. APPLIED on a label line, against its LABELLING context: with the serial of its job the label is on; a
dispatch label whose readback is the licence leaves by the route of the verdict, its bay for PASS; one that reads back
otherwise takes LABEL_READBACK and goes to LATE_REJECT, and a ticket goes by the verdict; with a voided serial the
label is marked void and the pallet goes to LATE_REJECT; with the serial of another context's job both take
LABEL_READBACK. In each case the context is EXITING with exit_limit and no job. With no LABELLING context, or another
serial, it is stray, the readback being the licence of the STRAY report (R51). R136. A job takes the kind and the
serial of its record, PLACING while its segments wait and SENT once all are placed: a segment for each two rows and
one for the barcodes, numbered from 1, in order. It is started for the first unlabelled context of a line when its
record is sendable, and for the second when the first has a job. R138. A withdrawn job leaves no job; its segments not
yet placed are dropped, those of a SENT or TAKEN job too (R138 does not say so: the model's choice,
notes/assumptions/29.md); a LABEL_CANCEL with its serial follows unless it was PLACING with no segment placed; the
serial of a dispatch label is kept as voided where it is not a reorder. -/
def Obligations.LabelJobsAndApplied : Prop :=
  (∀ (s : State) (dst src : Byte) (b : List Byte) (n : Nat) (r : Option Text) (k : LineNo), s.Hears src →
    b.length ≤ 119 → (∃ e, whole takeLabelEvent (3 :: b) = some e ∧ e = .applied n r) →
    s.roleOf src applicatorRole = some (some k) →
    (s.labelling k = none → exec (.applied dst src b) s = .next
      ((s.passed ⟨dst, src, 0x09, 3 :: b⟩).stray 0x09 src none r .noCandidate))
    ∧ ∀ i c, s.labelling k = some i → s.ctx i = some c →
      (∀ j, c.job = some j → j.serial = n → ∃ u d, exec (.applied dst src b) s = .next u ∧ u.ctx i = some d
        ∧ d.phase = .exiting ∧ d.timer = some s.ctl.params.exitLimit ∧ d.job = none ∧ d.labelVoid = c.labelVoid
        ∧ (j.kind = .rejectTicket ∨ (r.isSome = true ∧ r = c.licence) →
            d.verdict = c.verdict ∧ d.reasons = c.reasons
              ∧ (∀ x, c.verdict = some .pass → s.boundConsignment c = some x → d.route = some (.bay x.bay))
              ∧ (c.verdict ≠ some .pass → d.route = some .lateReject))
        ∧ (j.kind = .dispatchLabel → r = none ∨ r ≠ c.licence →
            Reason.labelReadback ∈ d.reasons ∧ d.route = some .lateReject))
      ∧ (c.hasJob n = false → c.voided = some n → ∃ u d, exec (.applied dst src b) s = .next u
        ∧ u.ctx i = some d ∧ d.phase = .exiting ∧ d.timer = some s.ctl.params.exitLimit ∧ d.labelVoid = true
        ∧ d.job = none ∧ d.route = some .lateReject ∧ d.verdict = c.verdict)
      ∧ (c.hasJob n = false → c.voided ≠ some n → s.otherJob k i n = none → exec (.applied dst src b) s =
          .next ((s.passed ⟨dst, src, 0x09, 3 :: b⟩).stray 0x09 src none r .noCandidate))
      ∧ (∀ j o, c.hasJob n = false → c.voided ≠ some n → s.otherJob k i n = some j → s.ctx j = some o →
        ∃ u d e, exec (.applied dst src b) s = .next u ∧ u.ctx i = some d ∧ u.ctx j = some e
          ∧ d.phase = .exiting ∧ d.timer = some s.ctl.params.exitLimit ∧ d.route = some .lateReject ∧ d.job = none
          ∧ Reason.labelReadback ∈ d.reasons ∧ Reason.labelReadback ∈ e.reasons))
  ∧ (∀ (dst : RoleInst) (r : LabelRecord) (m : Nat), m = (r.rows.length + 1) / 2 →
      (∀ n < m, (jobOrders dst r)[n]? =
        some (.segment dst r.serial r.kind (n + 1) (m + 1) (.rows ((r.rows.drop (2 * n)).take 2))))
      ∧ (jobOrders dst r)[m]? = some (.segment dst r.serial r.kind (m + 1) (m + 1) (.barcodes r.barcodes))
      ∧ (jobOrders dst r).length = m + 1)
  ∧ (∀ (s : State) (dst : RoleInst) (i : Slot) (c : Context) (r : LabelRecord), s.ctx i = some c → c.label = some r →
      (32 ≤ s.ring.origin.length → ∃ u, s.startJob dst i = u
        ∧ u.ctx i = some { c with
            job := some ⟨.placing, r.kind, r.serial⟩, orders := c.orders ++ jobOrders dst r }
        ∧ State.SameContexts [i] s u ∧ State.Only [.tracker, .ring] s u)
      ∧ (∀ a, s.ring.waiting = [] → c.orders = [] → s.holderOf dst = some a →
          s.ring.origin.length + (jobOrders dst r).length ≤ 32 → ∃ u, s.startJob dst i = u
        ∧ u.ctx i = some { c with job := some ⟨.sent, r.kind, r.serial⟩ }
        ∧ u.ring.origin = s.ring.origin
            ++ (jobOrders dst r).map (fun o => ⟨addressByte a, s.ownAddress, o.kind, o.payload⟩)
        ∧ u.ring.waiting = [] ∧ State.SameContexts [i] s u ∧ State.Only [.tracker, .ring] s u))
  ∧ (∀ (s : State) (k : LineNo) (i : Slot) (c : Context), s.ctx i = some c →
      (s.unlabelled k = [i] →
        (c.job = none → c.sendable = true → s.startJobs k = s.startJob (.labelApplicator k) i)
        ∧ (c.job.isSome = true ∨ c.sendable = false → s.startJobs k = s))
      ∧ ∀ j rest d, s.unlabelled k = i :: j :: rest → s.ctx j = some d →
        (c.job.isSome = true → d.job = none → d.sendable = true →
          s.startJobs k = s.startJob (.labelApplicator k) j)
        ∧ (c.job = none → c.sendable = false → s.startJobs k = s))
  ∧ (∀ (s : State) (dst : RoleInst) (keep : Bool) (i : Slot) (c : Context), s.ctx i = some c →
      (c.job = none → s.withdraw dst keep i = s)
      ∧ ∀ (j : Job) (r : LabelRecord) (n : Nat) (os : List Order), c.job = some j → 32 ≤ s.ring.origin.length →
        r.serial = j.serial → (∀ o ∈ os, o.isSegmentOf j.serial = false) → c.orders = os ++ (jobOrders dst r).drop n →
        ∃ u, s.withdraw dst keep i = u ∧ State.SameContexts [i] s u ∧ State.Only [.tracker, .ring] s u
          ∧ u.ctx i = some { c with
              job := none
              voided := if keep = true ∧ j.kind = .dispatchLabel then some j.serial else c.voided
              orders := if j.stage = .placing ∧ n = 0 then os else os ++ [.cancel dst j.serial] })

/-- R141. APPLY_FAULT on a label line, and the expiry of label_limit, give the LABELLING context LABEL_FAULT or
LABEL_TIMEOUT, withdraw its job, and send it to LATE_REJECT, EXITING with exit_limit. With no LABELLING context
APPLY_FAULT is stray.
R146, R51, R12. APPLIED from the reject applicator with the serial of the first ticket's job, and APPLY_FAULT from it,
close that context (the telegram APPLY_FAULT carries no serial: that it is taken against any outstanding job is the
model's choice, notes/assumptions/16.md): its slot is free, it has left the ticket order, and a plan it had is LOADED and
unbound. With another serial, or no outstanding job, they are stray, the readback of an APPLIED being the licence of its
STRAY report. -/
def Obligations.LabelsFailAndTicketsEnd : Prop :=
  ((∀ (s : State) (dst src : Byte) (k : LineNo), s.Hears src → s.roleOf src applicatorRole = some (some k) →
      (s.labelling k = none → exec (.applyFault dst src) s =
        .next ((s.passed ⟨dst, src, 0x09, [4]⟩).stray 0x09 src none none .noCandidate))
      ∧ ∀ i, s.labelling k = some i → ∃ u d, exec (.applyFault dst src) s = .next u ∧ u.ctx i = some d
        ∧ d.phase = .exiting ∧ d.timer = some s.ctl.params.exitLimit ∧ d.job = none ∧ d.route = some .lateReject
        ∧ Reason.labelFault ∈ d.reasons)
    ∧ ∀ (s : State) (i : Slot) (c : Context), s.ctl.inReset = false → s.ctx i = some c →
      (c.phase ≠ .labelling ∨ c.timer ≠ some 0 → exec (.labelLimitExpiry i) s = .next s)
      ∧ ∀ k, c.phase = .labelling → c.timer = some 0 → s.lineOf i = some k →
        ∃ u d, exec (.labelLimitExpiry i) s = .next u ∧ u.ctx i = some d ∧ d.phase = .exiting
          ∧ d.timer = some s.ctl.params.exitLimit ∧ d.job = none ∧ d.route = some .lateReject
          ∧ Reason.labelTimeout ∈ d.reasons)
  ∧ (∀ (s : State) (dst src : Byte) (b : List Byte) (n : Nat) (r : Option Text), s.Hears src → b.length ≤ 119 →
       (∃ e, whole takeLabelEvent (3 :: b) = some e ∧ e = .applied n r) → s.roleOf src applicatorRole = some none →
       (∀ i rest c j, s.labels.tickets = i :: rest → s.ctx i = some c → c.job = some j →
         (∃ u, exec (.rejectApplicatorFault dst src) s = .next u ∧ u.ctx i = none ∧ u.labels.tickets = rest
           ∧ u.labels.log = s.labels.log
           ∧ ∀ m q, c.planSlot = some m → s.planAt m = some q →
               u.planAt m = some { q with state := .loaded, bound := none })
         ∧ (j.serial = n → ∃ u, exec (.rejectApplicatorApplied dst src b) s = .next u ∧ u.ctx i = none
           ∧ u.labels.tickets = rest ∧ u.labels.log = s.labels.log
           ∧ ∀ m q, c.planSlot = some m → s.planAt m = some q →
               u.planAt m = some { q with state := .loaded, bound := none })
         ∧ (j.serial ≠ n → exec (.rejectApplicatorApplied dst src b) s =
             .next ((s.passed ⟨dst, src, 0x09, 3 :: b⟩).stray 0x09 src none r .noCandidate)))
       ∧ ((s.labels.tickets = [] ∨ ∃ i rest c, s.labels.tickets = i :: rest ∧ s.ctx i = some c ∧ c.job = none) →
         exec (.rejectApplicatorFault dst src) s =
             .next ((s.passed ⟨dst, src, 0x09, [4]⟩).stray 0x09 src none none .noCandidate)
           ∧ exec (.rejectApplicatorApplied dst src b) s =
             .next ((s.passed ⟨dst, src, 0x09, 3 :: b⟩).stray 0x09 src none r .noCandidate)))

/-- R7, R12, R143, R144, R147. ROUTED to a bay for the EXITING context of the line with its licence releases it
whatever its route: an entry with that bay, the next release sequence and the context's pairs joins the log, whose
oldest of 256 leaves; the totals of its plan's consignment take the pallet, its cases, net weight and dutiable volume;
the plan is USED; and the slot is free.
R36, R24. After each entry so written, and before the context closes, the entry is compared with the hold list as it
stands: the first of its pairs that a hold matches, by its own article before "any article", forms one ESCAPE report
with that hold's reason, code and placed day and the list's generation; with no pair matched none is formed, and a
pair with no lot matches none. The hold list itself stays.
R143, R145, R12. ROUTED to REJECT closes the EXITING context with nothing logged and its plan LOADED again; a licence
that no EXITING context of the line has makes it stray, and so does no licence whatever the line holds
(notes/assumptions/17.md), for any destination byte (one above 24 names none: notes/assumptions/8.md). The expiry of
exit_limit closes it unconfirmed: with a bay as its route an entry marked so joins the log and the plan is USED, no
totals being added; with LATE_REJECT nothing is logged and the plan is LOADED. -/
def Obligations.ExitsReleaseOrReject : Prop :=
  (∀ (s : State) (dst src : Byte) (p : List Byte) (k : LineNo) (lic : Text) (b : Nat) (i : Slot) (c : Context),
      s.Fits src lineOfSwitch k → p.length ≤ 120 → whole takeRouted p = some (some lic, b) → 1 ≤ b → b ≤ 24 →
      (s.line k).find? (fun i => (s.ctx i).any fun c => c.phase == .exiting && c.licence == some lic) = some i →
      s.ctx i = some c →
      ∃ u e v, exec (.routed dst src p) s = .next u ∧ u.ctx i = none
        ∧ v = State.addRelease c (State.writeEntry e (s.passed ⟨dst, src, 0x0A, p⟩)) ∧ v.holds = s.holds
        ∧ u = (v.escapeOfEntry e).closeContext .released .routed i ∧ u.holds = (v.escapeOfEntry e).holds
        ∧ u.labels.log = (if s.labels.log.length < 256 then s.labels.log else s.labels.log.drop 1) ++ [e]
        ∧ e.sequence = s.labels.nextRelease ∧ e.licence = lic ∧ e.bay = b ∧ e.unconfirmed = false
        ∧ e.day = s.holds.day ∧ e.pairs = c.tally.pairs
        ∧ u.labels.nextRelease = (if s.labels.nextRelease < 4294967295 then s.labels.nextRelease + 1 else 1)
        ∧ ∀ q, s.boundPlan c = some q → e.consignment = q.consignment
            ∧ u.planAt q.slot = some { q with state := .used, bound := none }
            ∧ ∀ x w, s.consignment q.consignment = some x → c.weight = some w →
                u.consignment q.consignment = some { x with totals :=
                  { pallets := min 65535 (x.totals.pallets + 1)
                    cases := min 281474976710655 (x.totals.cases + (q.lines.map (·.count)).sum)
                    netGrams := min 281474976710655 (x.totals.netGrams + (w - q.tare))
                    dutiableCl := min 281474976710655 (x.totals.dutiableCl
                      + (q.lines.map fun l => match s.article l.article with
                          | some a => if a.dutiable then l.count * a.caseVolume else 0
                          | none => 0).sum) } })
  ∧ ((∀ (s : State) (dst src : Byte) (p : List Byte) (k : LineNo) (lic : Option Text) (b : Nat),
       s.Fits src lineOfSwitch k → p.length ≤ 120 → whole takeRouted p = some (lic, b) →
       ((s.line k).find? (fun i => (s.ctx i).any fun c =>
           c.phase == .exiting && lic.isSome && c.licence == lic) = none →
         exec (.routed dst src p) s =
           .next ((s.passed ⟨dst, src, 0x0A, p⟩).stray 0x0A src none lic .noCandidate))
       ∧ ∀ i c, b = 0 → s.ctx i = some c →
         (s.line k).find? (fun i => (s.ctx i).any fun c =>
           c.phase == .exiting && lic.isSome && c.licence == lic) = some i →
         ∃ u, exec (.routed dst src p) s = .next u ∧ u.ctx i = none ∧ u.labels.log = s.labels.log
           ∧ u.refs.consignments = s.refs.consignments
           ∧ ∀ m q, c.planSlot = some m → s.planAt m = some q →
               u.planAt m = some { q with state := .loaded, bound := none })
     ∧ ∀ (s : State) (i : Slot) (c : Context), s.ctl.inReset = false → s.ctx i = some c →
       (c.phase ≠ .exiting ∨ c.timer ≠ some 0 → exec (.exitLimitExpiry i) s = .next s)
       ∧ (∀ b, c.phase = .exiting → c.timer = some 0 → c.route = some (.bay b) →
         ∃ u e v, exec (.exitLimitExpiry i) s = .next u ∧ u.ctx i = none
           ∧ v = State.writeEntry e (s.putCtx i (some { c with unconfirmed := true })) ∧ v.holds = s.holds
           ∧ u = (v.escapeOfEntry e).closeContext .unconfirmed .exitLimit i ∧ u.holds = (v.escapeOfEntry e).holds
           ∧ u.labels.log = (if s.labels.log.length < 256 then s.labels.log else s.labels.log.drop 1) ++ [e]
           ∧ e.sequence = s.labels.nextRelease ∧ e.bay = b ∧ e.unconfirmed = true ∧ e.pairs = c.tally.pairs
           ∧ u.refs.consignments = s.refs.consignments
           ∧ ∀ m q, c.planSlot = some m → s.planAt m = some q →
               u.planAt m = some { q with state := .used, bound := none })
       ∧ (c.phase = .exiting → c.timer = some 0 → c.route = some .lateReject →
         ∃ u, exec (.exitLimitExpiry i) s = .next u ∧ u.ctx i = none ∧ u.labels.log = s.labels.log
           ∧ u.refs.consignments = s.refs.consignments
           ∧ ∀ m q, c.planSlot = some m → s.planAt m = some q →
               u.planAt m = some { q with state := .loaded, bound := none }))
  ∧ ∀ (s : State) (e : LogEntry),
      ((∀ q ∈ e.pairs, s.matchingHold q = none) → s.escapeOfEntry e = s)
      ∧ (∀ before p after h, e.pairs = before ++ p :: after → (∀ q ∈ before, s.matchingHold q = none) →
          s.matchingHold p = some h → ∃ r : EscapeReport, s.escapeOfEntry e = s.escape r
            ∧ r.licence = e.licence ∧ r.consignment = e.consignment ∧ r.bay = e.bay ∧ r.sequence = e.sequence
            ∧ r.article = p.1 ∧ r.lot = p.2 ∧ r.reason = h.reason ∧ r.code = h.code ∧ r.placed = h.placed
            ∧ r.unconfirmed = e.unconfirmed ∧ r.generation = s.holds.generation)
      ∧ (∀ a, s.matchingHold (a, none) = none)
      ∧ ∀ a l, s.matchingHold (a, some l) = (s.hold (a, l)).or (s.hold (anyArticle, l))

/-- R128, R129, R131. A composition whose time has passed completes: a ticket, or a dispatch label with no ticket waiting
and the verdict PASS, becomes the context's record with the next serial, which advances, 999999 being followed by 1;
any other result is dropped and a ticket is asked for. For a closed context nothing is kept and no serial taken. One
with time left does not complete. -/
def Obligations.CompositionCompletes : Prop :=
  ∀ s : State, s.ctl.inReset = false →
    ((∀ f, s.composer.flight = some f → f.remaining ≠ 0) → exec .compositionComplete s = .next s)
    ∧ ∀ f, s.composer.flight = some f → f.remaining = 0 →
      (s.named f.ctx = none → ∃ u, exec .compositionComplete s = .next u
        ∧ u.composer.nextSerial = s.composer.nextSerial ∧ u.composer.flight ≠ some f)
      ∧ ∀ c, s.named f.ctx = some c →
        (f.kind = .rejectTicket ∨ (f.ticketWaiting = false ∧ c.verdict = some .pass) →
          ∃ u d, exec .compositionComplete s = .next u ∧ u.ctx f.ctx.slot = some d
            ∧ d.label = some (f.record s.composer.nextSerial) ∧ d.labelSerial = some s.composer.nextSerial
            ∧ d.verdict = c.verdict ∧ d.phase = c.phase
            ∧ u.composer.nextSerial = if s.composer.nextSerial < 999999 then s.composer.nextSerial + 1 else 1)
        ∧ (f.kind = .dispatchLabel → f.ticketWaiting = true ∨ c.verdict ≠ some .pass →
          ∃ u d, exec .compositionComplete s = .next u ∧ u.ctx f.ctx.slot = some d ∧ d.label = c.label
            ∧ u.composer.nextSerial = s.composer.nextSerial
            ∧ (d.compStatus = .queued ∨ d.compStatus = .inFlight))

/-- R124, R126, R128, R129. A label record has at most 16 rows of at most 40 characters and at most 2 barcodes, with the
serial, the context, the kind and the template of its composition, and carries NO_TEMPLATE exactly for an empty
template.
R122, R123. A value placed in a field fills its width exactly: an absent one as dashes, one too long as asterisks with
the TRUNCATED mark, any other whole and unmarked, with fill characters after it at LEFT and before it at RIGHT. -/
def Obligations.RecordsFitTheLabel : Prop :=
  (∀ (f : Flight) (n : Nat), (f.record n).rows.length ≤ 16 ∧ (∀ t ∈ (f.record n).rows, t.length ≤ 40)
      ∧ (f.record n).barcodes.length ≤ 2 ∧ (f.record n).serial = n ∧ (f.record n).ctx = f.ctx
      ∧ (f.record n).kind = f.kind ∧ (f.record n).template = f.template
      ∧ ((f.record n).noTemplate = true ↔ f.inputs.items = [])
      ∧ (f.inputs.items = [] → (f.record n).rows = [] ∧ (f.record n).barcodes = []))
  ∧ (∀ (width : Nat) (align : Align) (fill : Fill),
       (∀ value, (fieldText value width align fill).1.length = width)
       ∧ fieldText none width align fill = (List.replicate width 0x2D, false)
       ∧ ∀ (v pad : Text), pad = List.replicate (width - v.length) (if fill = .space then 0x20 else 0x30) →
         (width < v.length → fieldText (some v) width align fill = (List.replicate width 0x2A, true))
         ∧ (v.length ≤ width → align = .left → fieldText (some v) width align fill = (v ++ pad, false))
         ∧ (v.length ≤ width → align = .right → fieldText (some v) width align fill = (pad ++ v, false)))

/-- R47, R49, R80, R105. The expiries of scan_silence, measure_limit, decision_limit and wrap_wait_limit, each for a
context in its state whose timer has counted the limit: the scan ends with SCAN_TRUNCATED, in MEASURING with a
measurement lacking; the lacking measurements are recorded as missing and a decision is attempted; a WAITING context
is parked, its items as reasons and PARK at least; and a PASS lane head takes NO_WRAPPER, REWORK at least. For any
other context an expiry is no event. -/
def Obligations.PhaseTimersExpire : Prop :=
  ∀ (s : State) (i : Slot) (c : Context), s.ctl.inReset = false → s.ctx i = some c →
    (c.phase ≠ .scanning ∨ c.timer ≠ some 0 → exec (.scanSilenceExpiry i) s = .next s)
    ∧ (c.phase ≠ .measuring ∨ c.timer ≠ some 0 → exec (.measureLimitExpiry i) s = .next s)
    ∧ (c.phase ≠ .waiting ∨ c.timer ≠ some 0 → exec (.decisionLimitExpiry i) s = .next s)
    ∧ (c.phase ≠ .atHeadDecided ∨ c.timer ≠ some 0 → exec (.wrapWaitLimitExpiry i) s = .next s)
    ∧ (c.phase = .scanning → c.timer = some 0 → c.verdict = none → Reason.scanTruncated ∉ c.reasons →
        ∀ d : Context, d = { c with reasons := insertReason .scanTruncated c.reasons, tunnelEnded := true } →
        (c.lacksWeight = true ∨ c.lacksHeight = true → exec (.scanSilenceExpiry i) s =
          .next (State.settle .scanSilence (s.putCtx i
            (some { d with phase := .measuring, timer := some s.ctl.params.measureLimit }))))
        ∧ (c.lacksWeight = false → c.lacksHeight = false → exec (.scanSilenceExpiry i) s =
          .next (State.settle .scanSilence (State.attempt i (s.putCtx i (some { d with timer := none }))))))
    ∧ (c.phase = .measuring → c.timer = some 0 → c.verdict = none → ∃ d : Context,
        exec (.measureLimitExpiry i) s = .next (State.settle .measureLimit (State.attempt i (s.putCtx i (some d))))
        ∧ d = { c with reasons := d.reasons } ∧ d.lacksWeight = false ∧ d.lacksHeight = false
        ∧ ∀ r, r ∈ d.reasons ↔ r ∈ c.reasons ∨ (r = .noWeight ∧ c.lacksWeight = true)
            ∨ (r = .noHeight ∧ c.lacksHeight = true))
    ∧ (c.phase = .waiting → c.timer = some 0 → ∃ u d, exec (.decisionLimitExpiry i) s =
          .next (State.settle .decisionLimit u) ∧ u.ctx i = some d ∧ d.phase = .atHeadDecided ∧ d.timer = none
        ∧ d.waiting = [] ∧ (∀ r, r ∈ d.reasons ↔ r ∈ c.reasons ∨ ∃ x ∈ c.waiting, r = x.reason)
        ∧ d.verdict = some (Verdict.park.max (severityOf d.reasons)) ∧ u.alloc.arbiterDue = true
        ∧ u.scale c.lane = s.scale c.lane)
    ∧ (c.phase = .atHeadDecided → c.timer = some 0 → c.verdict = some .pass → Reason.noWrapper ∉ c.reasons →
        ∃ u d, exec (.wrapWaitLimitExpiry i) s = .next (State.settle .wrapWaitLimit u) ∧ u.ctx i = some d
          ∧ d.phase = .atHeadDecided ∧ d.timer = none ∧ d.verdict = some .rework
          ∧ d.reasons = insertReason .noWrapper c.reasons ∧ u.alloc.arbiterDue = true)

/-- R31, R179. The currency window expires: the list becomes STALE, and where it was CURRENT the mode moves from RUN
to DEGRADED, held mode included, with one MODE report of cause CURRENCY. With the window stopped, or periods left, it
is no event. R155, R178. The ring-silence timer expires: the timer stays expired, the line is ISOLATED with the mode
it had as the held mode, REJECT_ALL is asserted, and every open context not in LABELLING or EXITING takes RING_LOST;
no infeed is commanded. A passive part only stops its timer. Without an expiry the command is no event. R155, R178.
The first valid telegram after a silence, of any kind and any addresses, or the telegram of a request, restarts the
timer; the mode becomes the held mode and the held mode absent, with a MODE report of cause RING_RETURN, and
REJECT_ALL stays. The telegram is then taken as in a part that hears the ring; one of the part's own source has no
further effect. -/
def Obligations.CurrencyAndRingTimersExpire : Prop :=
  (∀ s : State, s.ctl.inReset = false →
      (s.holds.window ≠ some 0 → exec .currencyWindowExpiry s = .next s)
      ∧ (s.holds.window = some 0 → ∃ u, exec .currencyWindowExpiry s = .next u
        ∧ u.holds = { s.holds with window := none, currency := .stale }
        ∧ (s.holds.currency = .stale → State.Only [.holds] s u)
        ∧ (s.holds.currency = .current →
            u.ctl.mode = (if s.ctl.mode = .run then .degraded else s.ctl.mode)
              ∧ u.ctl.held = s.ctl.held.map (fun m => if m = .run then .degraded else m)
              ∧ u.ctl.rejectAll = s.ctl.rejectAll ∧ State.Only [.holds, .ctl, .ring, .mgmt] s u
              ∧ ∃ v, State.Only [.holds, .ctl] s v ∧ u = v.report (.mode ⟨s.ctl.mode, u.ctl.mode,
                  if u.ctl.mode = .isolated then u.ctl.held else none, .currency, .stale, s.holds.generation,
                  s.holds.day, s.ctl.rejectAll⟩))))
  ∧ (∀ s : State, s.ctl.inReset = false →
       (s.ring.silence ≠ some 0 → exec .ringSilenceExpiry s = .next s)
       ∧ (s.ring.silence = some 0 → s.passive = true →
           exec .ringSilenceExpiry s = .next (s.onRing fun r => { r with silence := none }))
       ∧ (s.ring.silence = some 0 → s.passive = false →
           ∃ u, exec .ringSilenceExpiry s = .next (State.settle .ringSilence u)
             ∧ u.ring.silence = none ∧ u.ctl.mode = .isolated ∧ u.ctl.rejectAll = true
             ∧ (s.ctl.mode ≠ .isolated → u.ctl.held = some s.ctl.mode)
             ∧ (∀ l : Lane, u.tracker.lanes[l].infeed = s.tracker.lanes[l].infeed)
             ∧ (∀ i c, s.ctx i = some c → c.phase ≠ .labelling → c.phase ≠ .exiting →
                 ∃ d, u.ctx i = some d ∧ Reason.ringLost ∈ d.reasons)
             ∧ ∀ i c, s.ctx i = some c → c.phase = .labelling ∨ c.phase = .exiting →
                 ∃ d, u.ctx i = some d ∧ d.reasons = c.reasons ∧ d.verdict = c.verdict))
  ∧ (∀ (s : State) (m : LineMode), s.ctl.inReset = false → s.passive = false → s.ring.silence = none →
       s.ctl.mode = .isolated → s.ctl.held = some m →
       ∃ u v, v.ctl = { s.ctl with mode := m, held := none }
         ∧ v.ring = { s.ring with silence := some s.ctl.params.ringSilence } ∧ State.Only [.ctl, .ring] s v
         ∧ u = v.report (.mode ⟨.isolated, m, none, .ringReturn, s.holds.currency, s.holds.generation, s.holds.day,
             s.ctl.rejectAll⟩)
         ∧ u.ring.silence = some s.ctl.params.ringSilence ∧ u.ctl = v.ctl
         ∧ (∀ t : Telegram, t.payload.length ≤ 120 →
             exec (.ringInTelegram t) s = exec (.ringInTelegram t) u ∧ s.arrive t = u.arrive t
             ∧ (t.src = s.ownAddress → exec (.ringInTelegram t) s = .next u))
         ∧ ∀ (i : Instr) (src code tag : Byte), s.request i src code tag = u.request i src code tag)

/-- R3, ARTICLE_PUT. Fields in range are stored whole under their key, a new key needing room; every other article and
every other table stay, and the reply is OK. A new key in a full table gives FULL; a field out of range gives
BAD_FIELD, and neither changes a table.
R6, CONSIGNMENT_PUT. Fields in range are stored under their number, min_shelf_life and sightings clamped; an entry that
is replaced keeps its totals and a new one, which needs room, has zero totals. The reply is OK, or OK_CLAMPED with the
values stored, for which the whole entry with its totals is carried (R6 says only the values stored: the model's
choice, notes/assumptions/18.md, as is BAD_FIELD for an unknown dutiable or duty status in both requests). A new number
in a full table gives FULL; another field out of range gives BAD_FIELD. -/
def Obligations.ArticleAndConsignmentPut : Prop :=
  (∀ (s : State) (src tag : Byte) (f : ArticleFields), s.Takes src 0x01 →
      (f.InRange → (s.article f.key).isSome ∨ s.refs.articles.length < 256 →
        ∃ u, exec (.articlePut src tag f) s = .next (u.answered src 0x01 tag .ok .none)
          ∧ u.article f.key = some f.entry ∧ (∀ k, k ≠ f.key → u.article k = s.article k)
          ∧ u.refs.consignments = s.refs.consignments ∧ u.refs.plans = s.refs.plans
          ∧ u.refs.stations = s.refs.stations ∧ State.Only [.refs] (s.taken src) u)
      ∧ (f.InRange → s.article f.key = none → 256 ≤ s.refs.articles.length →
        exec (.articlePut src tag f) s = .next ((s.taken src).answered src 0x01 tag .full .none))
      ∧ (¬ f.InRange →
        exec (.articlePut src tag f) s = .next ((s.taken src).answered src 0x01 tag .badField .none)))
  ∧ (∀ (s : State) (src tag : Byte) (f : ConsignmentFields), s.Takes src 0x06 → s.TableInv →
       (f.InRange → (s.consignment f.number).isSome ∨ s.refs.consignments.length < 64 →
         ∃ u c, c = f.entry (((s.consignment f.number).map (·.totals)).getD ⟨0, 0, 0, 0⟩)
           ∧ (f.Unclamped → exec (.consignmentPut src tag f) s = .next (u.answered src 0x06 tag .ok .none))
           ∧ (¬ f.Unclamped →
             exec (.consignmentPut src tag f) s = .next (u.answered src 0x06 tag .okClamped (.consignment c)))
           ∧ u.consignment f.number = some c ∧ (∀ n, n ≠ f.number → u.consignment n = s.consignment n)
           ∧ u.refs.articles = s.refs.articles ∧ u.refs.plans = s.refs.plans
           ∧ u.refs.stations = s.refs.stations ∧ State.Only [.refs] (s.taken src) u)
       ∧ (f.InRange → s.consignment f.number = none → 64 ≤ s.refs.consignments.length →
         exec (.consignmentPut src tag f) s = .next ((s.taken src).answered src 0x06 tag .full .none))
       ∧ (¬ f.InRange →
         exec (.consignmentPut src tag f) s = .next ((s.taken src).answered src 0x06 tag .badField .none)))

/-- R1, R5, R9, R15. The readings of the tables: GET answers OK with the whole entry of its key, or NOT_FOUND; NEXT the
entry with the smallest greater key (or slot), or NOT_FOUND; a key out of its form BAD_FIELD, a reserved article key or
consignment number too (R1; the model's choice, notes/assumptions/19.md). No reading changes a table. -/
def Obligations.TableReadings : Prop :=
  ∀ (s : State) (src tag : Byte),
    (∀ k, s.Takes src 0x03 →
      (∀ a, isDigits 14 k = true → k ≠ anyArticle → s.article k = some a →
        exec (.articleGet src tag k) s = .next ((s.taken src).answered src 0x03 tag .ok (.article a)))
      ∧ (isDigits 14 k = true → k ≠ anyArticle → s.article k = none →
        exec (.articleGet src tag k) s = .next ((s.taken src).answered src 0x03 tag .notFound .none))
      ∧ (isDigits 14 k = false ∨ k = anyArticle →
        exec (.articleGet src tag k) s = .next ((s.taken src).answered src 0x03 tag .badField .none)))
    ∧ (∀ k, s.Takes src 0x04 → s.TableInv → isDigits 14 k = true →
      (∀ a ∈ s.refs.articles, ltText k a.key = true →
        (∀ b ∈ s.refs.articles, ltText k b.key = true → b = a ∨ ltText a.key b.key = true) →
        exec (.articleNext src tag k) s = .next ((s.taken src).answered src 0x04 tag .ok (.article a)))
      ∧ ((∀ a ∈ s.refs.articles, ltText k a.key = false) →
        exec (.articleNext src tag k) s = .next ((s.taken src).answered src 0x04 tag .notFound .none)))
    ∧ (∀ k, s.Takes src 0x04 → isDigits 14 k = false →
        exec (.articleNext src tag k) s = .next ((s.taken src).answered src 0x04 tag .badField .none))
    ∧ (∀ n, s.Takes src 0x08 →
      (∀ c, isDigits 8 n = true → n ≠ noConsignment → s.consignment n = some c →
        exec (.consignmentGet src tag n) s = .next ((s.taken src).answered src 0x08 tag .ok (.consignment c)))
      ∧ (isDigits 8 n = true → n ≠ noConsignment → s.consignment n = none →
        exec (.consignmentGet src tag n) s = .next ((s.taken src).answered src 0x08 tag .notFound .none))
      ∧ (isDigits 8 n = false ∨ n = noConsignment →
        exec (.consignmentGet src tag n) s = .next ((s.taken src).answered src 0x08 tag .badField .none)))
    ∧ (∀ n, s.Takes src 0x09 → s.TableInv → isDigits 8 n = true →
      (∀ c ∈ s.refs.consignments, ltText n c.number = true →
        (∀ b ∈ s.refs.consignments, ltText n b.number = true → b = c ∨ ltText c.number b.number = true) →
        exec (.consignmentNext src tag n) s =
          .next ((s.taken src).answered src 0x09 tag .ok (.consignment c)))
      ∧ ((∀ c ∈ s.refs.consignments, ltText n c.number = false) →
        exec (.consignmentNext src tag n) s = .next ((s.taken src).answered src 0x09 tag .notFound .none)))
    ∧ (∀ n, s.Takes src 0x09 → isDigits 8 n = false →
        exec (.consignmentNext src tag n) s = .next ((s.taken src).answered src 0x09 tag .badField .none))
    ∧ (s.Takes src 0x0D →
      (∀ t q, isDigits 18 t = true → s.planOf t = some q →
        exec (.planGet src tag (.licence t)) s = .next ((s.taken src).answered src 0x0D tag .ok (.plan q)))
      ∧ (∀ n q, n < 512 → s.planAt n = some q →
        exec (.planGet src tag (.slot n)) s = .next ((s.taken src).answered src 0x0D tag .ok (.plan q)))
      ∧ (∀ t, isDigits 18 t = true → s.planOf t = none →
        exec (.planGet src tag (.licence t)) s = .next ((s.taken src).answered src 0x0D tag .notFound .none))
      ∧ (∀ t, isDigits 18 t = false →
        exec (.planGet src tag (.licence t)) s = .next ((s.taken src).answered src 0x0D tag .badField .none))
      ∧ (∀ n, n < 512 → s.planAt n = none →
        exec (.planGet src tag (.slot n)) s = .next ((s.taken src).answered src 0x0D tag .notFound .none))
      ∧ (∀ n, 512 ≤ n →
        exec (.planGet src tag (.slot n)) s = .next ((s.taken src).answered src 0x0D tag .badField .none)))
    ∧ (s.Takes src 0x0E → s.TableInv →
      (∀ q, s.refs.plans.head? = some q →
        exec (.planNext src tag none) s = .next ((s.taken src).answered src 0x0E tag .ok (.plan q)))
      ∧ (∀ n q, n < 512 → q ∈ s.refs.plans → n < q.slot → (∀ r ∈ s.refs.plans, n < r.slot → q.slot ≤ r.slot) →
        exec (.planNext src tag (some n)) s = .next ((s.taken src).answered src 0x0E tag .ok (.plan q)))
      ∧ (∀ n, n < 512 → (∀ r ∈ s.refs.plans, r.slot ≤ n) →
        exec (.planNext src tag (some n)) s = .next ((s.taken src).answered src 0x0E tag .notFound .none))
      ∧ (s.refs.plans = [] →
        exec (.planNext src tag none) s = .next ((s.taken src).answered src 0x0E tag .notFound .none))
      ∧ (∀ n, 512 ≤ n →
        exec (.planNext src tag (some n)) s = .next ((s.taken src).answered src 0x0E tag .badField .none)))

/-- R1, R4, R8, R15. DELETE removes the entry of its key and no other: refused IN_USE for an article or a consignment that
a LOADED or IN_USE plan names and for an IN_USE plan; NOT_FOUND where no article, consignment or plan has the key, even
where a plan names the absent key (R1 puts IN_USE before NOT_FOUND: the model's choice, notes/assumptions/19.md);
BAD_FIELD for a key out of its form (R1), and for the reserved article key and consignment number (the model's choice,
notes/assumptions/19.md). CONSIGNMENT_DELETE replies with the totals.
R1, R4, R8, R15. The CLEAR requests empty their table in START and STOPPED and reply with the number removed; in any
other mode they are BUSY, and where a LOADED or IN_USE plan names an entry of the table, articles and consignments stay,
IN_USE (R4 and R8 say a LOADED plan; that an IN_USE one refuses too is the model's choice, notes/assumptions/19.md). -/
def Obligations.TableDeletesAndClears : Prop :=
  (∀ (s : State) (src tag : Byte), s.TableInv →
      (∀ k a, s.Takes src 0x02 → isDigits 14 k = true → k ≠ anyArticle → s.article k = some a →
        ((∃ q ∈ s.refs.plans, q.state ≠ .used ∧ ∃ l ∈ q.lines, l.article = k) →
          exec (.articleDelete src tag k) s = .next ((s.taken src).answered src 0x02 tag .inUse .none))
        ∧ ((∀ q ∈ s.refs.plans, q.state ≠ .used → ∀ l ∈ q.lines, l.article ≠ k) →
          ∃ u, exec (.articleDelete src tag k) s = .next (u.answered src 0x02 tag .ok .none)
            ∧ u.article k = none ∧ (∀ j, j ≠ k → u.article j = s.article j)
            ∧ u.refs.consignments = s.refs.consignments ∧ u.refs.plans = s.refs.plans
            ∧ u.refs.stations = s.refs.stations ∧ State.Only [.refs] (s.taken src) u))
      ∧ (∀ k, s.Takes src 0x02 → isDigits 14 k = true → k ≠ anyArticle → s.article k = none →
          exec (.articleDelete src tag k) s = .next ((s.taken src).answered src 0x02 tag .notFound .none))
      ∧ (∀ k, s.Takes src 0x02 → isDigits 14 k = false ∨ k = anyArticle →
          exec (.articleDelete src tag k) s = .next ((s.taken src).answered src 0x02 tag .badField .none))
      ∧ (∀ n, s.Takes src 0x07 → isDigits 8 n = true → n ≠ noConsignment → s.consignment n = none →
          exec (.consignmentDelete src tag n) s = .next ((s.taken src).answered src 0x07 tag .notFound .none))
      ∧ (∀ n, s.Takes src 0x07 → isDigits 8 n = false ∨ n = noConsignment →
          exec (.consignmentDelete src tag n) s = .next ((s.taken src).answered src 0x07 tag .badField .none))
      ∧ (∀ t, s.Takes src 0x0C → isDigits 18 t = false →
          exec (.planDelete src tag t) s = .next ((s.taken src).answered src 0x0C tag .badField .none))
      ∧ (∀ n c, s.Takes src 0x07 → isDigits 8 n = true → n ≠ noConsignment → s.consignment n = some c →
        ((∃ q ∈ s.refs.plans, q.state ≠ .used ∧ q.consignment = n) →
          exec (.consignmentDelete src tag n) s = .next ((s.taken src).answered src 0x07 tag .inUse .none))
        ∧ ((∀ q ∈ s.refs.plans, q.state ≠ .used → q.consignment ≠ n) →
          ∃ u, exec (.consignmentDelete src tag n) s = .next (u.answered src 0x07 tag .ok (.totals c.totals))
            ∧ u.consignment n = none ∧ (∀ m, m ≠ n → u.consignment m = s.consignment m)
            ∧ u.refs.articles = s.refs.articles ∧ u.refs.plans = s.refs.plans
            ∧ u.refs.stations = s.refs.stations ∧ State.Only [.refs] (s.taken src) u))
      ∧ (∀ t q, s.Takes src 0x0C → isDigits 18 t = true → s.planOf t = some q →
        (q.state = .inUse →
          exec (.planDelete src tag t) s = .next ((s.taken src).answered src 0x0C tag .inUse .none))
        ∧ (q.state ≠ .inUse → ∃ u, exec (.planDelete src tag t) s = .next (u.answered src 0x0C tag .ok .none)
            ∧ u.planOf t = none ∧ u.planAt q.slot = none ∧ (∀ n, n ≠ q.slot → u.planAt n = s.planAt n)
            ∧ u.refs.articles = s.refs.articles ∧ u.refs.consignments = s.refs.consignments
            ∧ u.refs.stations = s.refs.stations ∧ State.Only [.refs] (s.taken src) u))
      ∧ (∀ t, s.Takes src 0x0C → isDigits 18 t = true → s.planOf t = none →
          exec (.planDelete src tag t) s = .next ((s.taken src).answered src 0x0C tag .notFound .none)))
  ∧ (∀ (s : State) (src tag : Byte),
       (s.ctl.mode ≠ .start → s.ctl.mode ≠ .stopped →
         (s.Takes src 0x05 →
           exec (.articleClear src tag) s = .next ((s.taken src).answered src 0x05 tag .busy .none))
         ∧ (s.Takes src 0x0A →
           exec (.consignmentClear src tag) s = .next ((s.taken src).answered src 0x0A tag .busy .none))
         ∧ (s.Takes src 0x0F →
           exec (.planClear src tag) s = .next ((s.taken src).answered src 0x0F tag .busy .none)))
       ∧ (s.ctl.mode = .start ∨ s.ctl.mode = .stopped →
         (s.Takes src 0x05 →
           ((∃ q ∈ s.refs.plans, q.state ≠ .used ∧ ∃ l ∈ q.lines, (s.article l.article).isSome = true) →
             exec (.articleClear src tag) s = .next ((s.taken src).answered src 0x05 tag .inUse .none))
           ∧ ((∀ q ∈ s.refs.plans, q.state ≠ .used → ∀ l ∈ q.lines, s.article l.article = none) →
             ∃ u, exec (.articleClear src tag) s =
                 .next (u.answered src 0x05 tag .ok (.removed s.refs.articles.length))
               ∧ u.refs = { s.refs with articles := [] } ∧ State.Only [.refs] (s.taken src) u))
         ∧ (s.Takes src 0x0A →
           ((∃ q ∈ s.refs.plans, q.state ≠ .used ∧ (s.consignment q.consignment).isSome = true) →
             exec (.consignmentClear src tag) s = .next ((s.taken src).answered src 0x0A tag .inUse .none))
           ∧ ((∀ q ∈ s.refs.plans, q.state ≠ .used → s.consignment q.consignment = none) →
             ∃ u, exec (.consignmentClear src tag) s =
                 .next (u.answered src 0x0A tag .ok (.consignmentsRemoved s.refs.consignments.length))
               ∧ u.refs = { s.refs with consignments := [] } ∧ State.Only [.refs] (s.taken src) u))
         ∧ (s.Takes src 0x0F →
           ∃ u, exec (.planClear src tag) s = .next (u.answered src 0x0F tag .ok (.removed s.refs.plans.length))
             ∧ u.refs = { s.refs with plans := [] } ∧ State.Only [.refs] (s.taken src) u)))

/-- R10, R11, R44. PLAN_PUT stores a plan LOADED: one of its licence that is LOADED or USED is replaced in its slot, a
new one takes the lowest free slot, and with all 512 held is refused FULL; an IN_USE one is refused IN_USE; fields out
of range give BAD_FIELD. A plan no open context qualifies for stays LOADED; the context that qualifies binds it, and
where that context is WAITING a decision attempt follows at once. The status tells whether the plan is resolved. -/
def Obligations.PlanPut : Prop :=
  ∀ (s : State) (src tag : Byte) (f : PlanFields), s.Takes src 0x0B → s.TableInv →
    (¬ f.InRange → exec (.planPut src tag f) s = .next ((s.taken src).answered src 0x0B tag .badField .none))
    ∧ (f.InRange →
      (∀ q, s.planOf f.licence = some q → q.state = .inUse →
        exec (.planPut src tag f) s = .next ((s.taken src).answered src 0x0B tag .inUse .none))
      ∧ (s.planOf f.licence = none → 512 ≤ s.refs.plans.length →
        exec (.planPut src tag f) s = .next ((s.taken src).answered src 0x0B tag .full .none))
      ∧ (∀ (n : Nat) (x : Status),
        (∀ q, s.planOf f.licence = some q → q.state ≠ .inUse ∧ n = q.slot) →
        (s.planOf f.licence = none → n < 512 ∧ s.planAt n = none ∧ ∀ m < n, (s.planAt m).isSome = true) →
        (x = .ok ∧ (s.consignment f.consignment).isSome = true
            ∧ (∀ l ∈ f.lines, (s.article l.article).isSome = true)
          ∨ x = .okUnresolved ∧ ((s.consignment f.consignment) = none
            ∨ ∃ l ∈ f.lines, s.article l.article = none)) →
        (s.qualifier f.licence = none →
          ∃ u q, exec (.planPut src tag f) s =
              .next ((State.settle .planPut u).answered src 0x0B tag x (.planPut n .loaded none))
            ∧ u.planAt n = some q ∧ f.Stored q ∧ q.state = .loaded ∧ q.bound = none
            ∧ (∀ m, m ≠ n → u.planAt m = s.planAt m) ∧ State.Only [.refs] (s.taken src) u)
        ∧ (∀ i c, s.qualifier f.licence = some i → s.ctx i = some c → c.phase ≠ .waiting →
          ∃ u q, exec (.planPut src tag f) s =
              .next ((State.settle .planPut u).answered src 0x0B tag x (.planPut n .inUse (some i)))
            ∧ u.planAt n = some q ∧ f.Stored q ∧ q.state = .inUse ∧ q.bound = some i
            ∧ u.ctx i = some { c with planSlot := some n } ∧ State.SameContexts [i] s u
            ∧ (∀ m, m ≠ n → u.planAt m = s.planAt m) ∧ State.Only [.refs, .tracker] (s.taken src) u)
        ∧ (∀ i c, s.qualifier f.licence = some i → s.ctx i = some c → c.phase = .waiting →
          ∃ u q, exec (.planPut src tag f) s =
              .next ((State.settle .planPut (State.attempt i u)).answered src 0x0B tag x (.planPut n .inUse (some i)))
            ∧ u.planAt n = some q ∧ f.Stored q ∧ q.state = .inUse ∧ q.bound = some i
            ∧ u.ctx i = some { c with planSlot := some n } ∧ State.SameContexts [i] s u
            ∧ (∀ m, m ≠ n → u.planAt m = s.planAt m) ∧ State.Only [.refs, .tracker] (s.taken src) u)))

/-- R16, R17, R18. STATION_PUT: BUSY outside START and STOPPED, BAD_FIELD for a fixed entry, a role outside the table
or an instance outside its range. Otherwise the role-instance joins the named entry, those it may not stand beside
leave it, and another holder loses it; the reply carries what the entry held and the loser. Role NONE empties the
entry. The claim of the dispatch system role is open to any requester while none holds it. R19. STATION_GET by address
answers OK with the entry's role-instances, by role-instance with the address that holds it or NOT_FOUND; an address
above 31 and a role or instance outside the table give BAD_FIELD. Nothing changes. -/
def Obligations.StationRequests : Prop :=
  (∀ (s : State) (src tag a r n : Byte), s.Hears src → s.mgmt.replies.length < 16 →
      s.permits src 0x10 false = true
        ∨ ((∀ b : Fin 32, RoleInst.dispatchSystem ∉ s.refs.stations[b]) ∧ a = src ∧ r = 0x0B) →
      (s.ctl.mode ≠ .start → s.ctl.mode ≠ .stopped →
        exec (.stationPut src tag a r n) s = .next ((s.taken src).answered src 0x10 tag .busy .none))
      ∧ (s.ctl.mode = .start ∨ s.ctl.mode = .stopped →
        (a.toNat = 0 ∨ 31 ≤ a.toNat ∨ a = s.ownAddress →
          exec (.stationPut src tag a r n) s = .next ((s.taken src).answered src 0x10 tag .badField .none))
        ∧ ∀ k : Fin 32, a.toNat = k.val → 1 ≤ k.val → k.val ≤ 30 → a ≠ s.ownAddress →
          (¬ (r = 0 ∧ n = 0) → RoleInst.ofCode r.toNat n.toNat = none →
            exec (.stationPut src tag a r n) s = .next ((s.taken src).answered src 0x10 tag .badField .none))
          ∧ (r = 0 → n = 0 → ∃ u, exec (.stationPut src tag a r n) s =
                .next (u.answered src 0x10 tag .ok (.stationPut s.refs.stations[k] 0))
              ∧ u.refs.stations[k] = [] ∧ (∀ b : Fin 32, b ≠ k → u.refs.stations[b] = s.refs.stations[b])
              ∧ State.Only [.refs] (s.taken src) u)
          ∧ (∀ x, RoleInst.ofCode r.toNat n.toNat = some x →
            (x ∈ s.refs.stations[k] → exec (.stationPut src tag a r n) s =
                .next ((s.taken src).answered src 0x10 tag .ok (.stationPut s.refs.stations[k] 0)))
            ∧ (x ∉ s.refs.stations[k] → ∃ u loser, exec (.stationPut src tag a r n) s =
                  .next (u.answered src 0x10 tag .ok (.stationPut s.refs.stations[k] loser))
                ∧ loser = ((s.holderOf x).map (·.val)).getD 0
                ∧ (∀ y, y ∈ u.refs.stations[k] ↔ y = x ∨ (y ∈ s.refs.stations[k] ∧ mayStandBeside y x = true))
                ∧ (∀ b : Fin 32, b ≠ k → s.holderOf x = some b →
                    u.refs.stations[b] = (s.refs.stations[b]).filter fun y => y != x)
                ∧ (∀ b : Fin 32, b ≠ k → s.holderOf x ≠ some b → u.refs.stations[b] = s.refs.stations[b])
                ∧ u.refs.articles = s.refs.articles ∧ u.refs.consignments = s.refs.consignments
                ∧ u.refs.plans = s.refs.plans ∧ State.Only [.refs] (s.taken src) u))))
  ∧ (∀ (s : State) (src tag : Byte), s.Takes src 0x11 →
       (∀ k : Fin 32, ∀ a : Byte, a.toNat = k.val → exec (.stationGet src tag (.address a)) s =
           .next ((s.taken src).answered src 0x11 tag .ok (.stationEntry s.refs.stations[k])))
       ∧ (∀ a : Byte, 32 ≤ a.toNat → exec (.stationGet src tag (.address a)) s =
           .next ((s.taken src).answered src 0x11 tag .badField .none))
       ∧ (∀ r n : Byte, ¬ (r = 0 ∧ n = 0) → RoleInst.ofCode r.toNat n.toNat = none →
           exec (.stationGet src tag (.role r n)) s = .next ((s.taken src).answered src 0x11 tag .badField .none))
       ∧ ∀ (r n : Byte) (x : RoleInst), RoleInst.ofCode r.toNat n.toNat = some x →
         (∀ k : Fin 32, x ∈ s.refs.stations[k] → (∀ j < k, x ∉ s.refs.stations[j]) →
           exec (.stationGet src tag (.role r n)) s =
             .next ((s.taken src).answered src 0x11 tag .ok (.stationHolder k.val)))
         ∧ ((∀ k : Fin 32, x ∉ s.refs.stations[k]) → exec (.stationGet src tag (.role r n)) s =
             .next ((s.taken src).answered src 0x11 tag .notFound .none)))

/-- R23, R25, R33. HOLD_ADD: fields out of range give BAD_FIELD and a new key in a list of 128 gives FULL, with the
generation and no change. An accepted one stands in the list under its key, which replaces or inserts, and the
generation advances, 65535 being followed by 0. Every open context with a verdict and a tally line that the hold
matches carries LOT_HELD_LATE and the verdict HOLD; one without a verdict is not touched. R35, R37, R148. The escape
search of an accepted hold goes through the released log from its oldest entry on: each entry with a pair it matches
forms one ESCAPE report, with the entry's first matching pair, the hold's reason, code and placed day and the list's
generation; the reports are queued in that order while the queue has room, and one formed with 256 waiting is lost
with the mark set. R37, R156, R161. An ESCAPE report formed with nothing waiting and room in the origin queue leaves
at once (the place of the placed day among its bytes is the model's choice, notes/assumptions/39.md). The oldest that
waits leaves when room comes, with the next report sequence, the lost-report mark and the queue-full mark, which are
then cleared; without a destination it is not placed, and the lost-report mark is set. -/
def Obligations.HoldAddAndEscapes : Prop :=
  (∀ (s : State) (src tag : Byte) (f : HoldFields), s.Takes src 0x20 → s.TableInv →
      (¬ f.InRange → exec (.holdAdd src tag f) s = .next
        ((s.taken src).answered src 0x20 tag .badField (.generation s.holds.generation)))
      ∧ (f.InRange → s.hold (f.article, f.lot) = none → 128 ≤ s.holds.list.length → exec (.holdAdd src tag f) s =
          .next ((s.taken src).answered src 0x20 tag .full (.generation s.holds.generation)))
      ∧ (f.InRange → (s.hold (f.article, f.lot)).isSome = true ∨ s.holds.list.length < 128 →
        ∃ u v h late matched queued, exec (.holdAdd src tag f) s =
            .next ((State.settle .holdAdd u).answered src 0x20 tag .ok
              (.holdAdd (s.hold (f.article, f.lot)).isNone u.holds.generation u.holds.list.length late matched queued))
          ∧ State.escapeSearch h s.labels.log v = ((matched, queued), u)
          ∧ v.holds = { s.holds with list := u.holds.list, generation := u.holds.generation }
          ∧ u.holds.generation = (s.holds.generation + 1) % 65536
          ∧ u.holds.list.length = (if (s.hold (f.article, f.lot)).isSome then s.holds.list.length
              else s.holds.list.length + 1)
          ∧ h.article = f.article ∧ h.lot = f.lot ∧ h.code = f.code ∧ h.placed = f.placed
          ∧ h.reason.code = f.reason.toNat ∧ u.hold (f.article, f.lot) = some h
          ∧ (∀ k, sameHoldKey (f.article, f.lot) k = false → u.hold k = s.hold k)
          ∧ u.holds.currency = s.holds.currency ∧ u.holds.day = s.holds.day
          ∧ queued ≤ matched
          ∧ matched = (s.labels.log.filter fun e => e.pairs.any h.hits).length
          ∧ late = (s.slotsWhere (gainsLateHold h)).length
          ∧ (∀ i c, s.ctx i = some c → c.verdict.isSome = true →
              (∃ l ∈ c.tally.lines, h.hits l.pair = true) → Reason.lotHeldLate ∉ c.reasons →
              ∃ d, u.ctx i = some d ∧ Reason.lotHeldLate ∈ d.reasons ∧ d.verdict = some .hold)
          ∧ (∀ i c, s.ctx i = some c → c.verdict = none →
              ∃ d, u.ctx i = some d ∧ d.reasons = c.reasons ∧ d.verdict = none)))
  ∧ (∀ (s : State) (e : LogEntry) (rest : List LogEntry) (h : Hold) (p : Text × Option Text),
       State.escapeSearch h [] s = ((0, 0), s)
       ∧ (e.pairs.find? h.hits = none → State.escapeSearch h (e :: rest) s = State.escapeSearch h rest s)
       ∧ (e.pairs.find? h.hits = some p → ∃ r : EscapeReport, ∀ o, o = State.escapeSearch h rest (s.escape r) →
           State.escapeSearch h (e :: rest) s =
               ((o.1.1 + 1, o.1.2 + if s.holds.escapes.length < 256 then 1 else 0), o.2)
             ∧ r.licence = e.licence ∧ r.consignment = e.consignment ∧ r.bay = e.bay
             ∧ r.sequence = e.sequence ∧ r.article = p.1 ∧ r.lot = p.2 ∧ r.reason = h.reason ∧ r.code = h.code
             ∧ r.placed = h.placed ∧ r.unconfirmed = e.unconfirmed ∧ r.generation = s.holds.generation)
       ∧ (∀ l, p.2 = some l → (h.hits p = true ↔ lotEq h.lot l = true ∧ (h.article = p.1 ∨ h.article = anyArticle)))
       ∧ (p.2 = none → h.hits p = false))
  ∧ (∀ (s : State) (r : EscapeReport),
       (256 ≤ s.holds.escapes.length → s.escape r = s.onHolds fun x => { x with escapeLost := true })
       ∧ (s.holds.escapes.length < 256 → s.ring.waiting ≠ [] ∨ 32 ≤ s.ring.origin.length →
           ∃ u, s.escape r = u ∧ u.holds = { s.holds with escapes := s.holds.escapes ++ [r] }
             ∧ State.Only [.holds, .ring] s u ∧ u.ring.origin = s.ring.origin)
       ∧ (∀ a, s.holds.escapes = [] → s.ring.waiting = [] → s.ring.origin.length < 32 → s.reportDest = some a →
           ∃ u, s.escape r = u ∧ u.holds = { s.holds with escapeLost := false }
             ∧ u.ring = { s.ring with origin := s.ring.origin ++ [⟨a, s.ownAddress, 0x32, reportPayload 3
                 s.mgmt.reportSeq s.mgmt.lostReport (r.fields s.holds.escapeLost)⟩] }
             ∧ u.mgmt = { s.mgmt with reportSeq := (s.mgmt.reportSeq + 1) % 65536, lostReport := false }
             ∧ State.Only [.holds, .ring, .mgmt] s u)
       ∧ (s.holds.escapes = [] → s.ring.waiting = [] → s.ring.origin.length < 32 → s.reportDest = none →
           ∃ u, s.escape r = u ∧ u.holds = s.holds ∧ u.ring = s.ring
             ∧ u.mgmt = { s.mgmt with lostReport := true } ∧ State.Only [.mgmt] s u)
       ∧ ∀ (o : Telegram) (os : List Telegram) (rest : List EscapeReport) (a : Byte), s.ctl.inReset = false →
           s.ring.forward = [] → s.ring.origin = o :: os → os.length = 31 → s.ring.waiting = [.escapes] →
           s.holds.escapes = r :: rest → s.reportDest = some a →
           ∃ u, exec .ringOutFree s = .next u ∧ u.ring.ringOut = some o
             ∧ u.ring.origin = os ++ [⟨a, s.ownAddress, 0x32, reportPayload 3 s.mgmt.reportSeq s.mgmt.lostReport
                 (r.fields s.holds.escapeLost)⟩]
             ∧ u.holds = { s.holds with escapes := rest, escapeLost := false }
             ∧ u.mgmt = { s.mgmt with reportSeq := (s.mgmt.reportSeq + 1) % 65536, lostReport := false }
             ∧ u.ring.waiting = (if rest = [] then [] else [.escapes]) ∧ State.Only [.ring, .mgmt, .holds] s u)

/-- R26, R27, R28. HOLD_RELEASE removes the entry of its key, and the generation advances; HOLD_CLEAR removes all, the
generation becomes 0, the window stops and the list is STALE; HOLD_NEXT shows the entry of the smallest greater key, or
the first, NOT_FOUND past the last, and BAD_FIELD for an article or a lot out of form. Every reply carries the
generation. -/
def Obligations.HoldListRequests : Prop :=
  ∀ (s : State) (src tag : Byte), s.TableInv →
    (∀ a l, s.Takes src 0x21 →
      (isDigits 14 a = false ∨ isLot l = false → exec (.holdRelease src tag a l) s =
        .next ((s.taken src).answered src 0x21 tag .badField (.generation s.holds.generation)))
      ∧ (isDigits 14 a = true → isLot l = true → s.hold (a, l) = none → exec (.holdRelease src tag a l) s =
        .next ((s.taken src).answered src 0x21 tag .notFound (.generation s.holds.generation)))
      ∧ (∀ h, isDigits 14 a = true → isLot l = true → s.hold (a, l) = some h →
        ∃ u, exec (.holdRelease src tag a l) s = .next (u.answered src 0x21 tag .ok
            (.holdCount ((s.holds.generation + 1) % 65536) (s.holds.list.length - 1)))
          ∧ u.hold (a, l) = none ∧ (∀ k, sameHoldKey (a, l) k = false → u.hold k = s.hold k)
          ∧ u.holds.generation = (s.holds.generation + 1) % 65536 ∧ u.holds.list.length + 1 = s.holds.list.length
          ∧ u.holds.currency = s.holds.currency ∧ State.Only [.holds] (s.taken src) u))
    ∧ (s.Takes src 0x22 → ∃ u, exec (.holdClear src tag) s =
          .next (u.answered src 0x22 tag .ok (.holdCleared s.holds.list.length 0))
        ∧ u.holds = { s.holds with list := [], generation := 0, window := none, currency := .stale }
        ∧ (s.holds.currency = .stale → State.Only [.holds] (s.taken src) u)
        ∧ (s.holds.currency = .current → State.Only [.holds, .ctl, .ring, .mgmt] s u
            ∧ u.ctl.mode = (if s.ctl.mode = .run then .degraded else s.ctl.mode)))
    ∧ (s.Takes src 0x23 →
      (∀ h, s.holds.list.head? = some h → exec (.holdNext src tag none) s =
        .next ((s.taken src).answered src 0x23 tag .ok (.holdEntry s.holds.generation h)))
      ∧ (s.holds.list = [] → exec (.holdNext src tag none) s =
        .next ((s.taken src).answered src 0x23 tag .notFound (.generation s.holds.generation)))
      ∧ (∀ a l h, isDigits 14 a = true → l = [] ∨ isLot l = true → h ∈ s.holds.list →
        ltHoldKey (a, l) h.key = true →
        (∀ g ∈ s.holds.list, ltHoldKey (a, l) g.key = true → g = h ∨ ltHoldKey h.key g.key = true) →
        exec (.holdNext src tag (some (a, l))) s =
          .next ((s.taken src).answered src 0x23 tag .ok (.holdEntry s.holds.generation h)))
      ∧ (∀ a l, isDigits 14 a = true → l = [] ∨ isLot l = true →
        (∀ g ∈ s.holds.list, ltHoldKey (a, l) g.key = false) → exec (.holdNext src tag (some (a, l))) s =
          .next ((s.taken src).answered src 0x23 tag .notFound (.generation s.holds.generation)))
      ∧ ∀ a l, isDigits 14 a = false ∨ (l ≠ [] ∧ isLot l = false) → exec (.holdNext src tag (some (a, l))) s =
          .next ((s.taken src).answered src 0x23 tag .badField (.generation s.holds.generation)))

/-- R30, R31, R32, R179. CURRENCY with the part's generation makes the list CURRENT and starts the window, with
another makes it STALE and stops it; a day within 0 to 36524 becomes the dispatch day in either case. The mode follows
a change of the state between RUN and DEGRADED, the held mode too, with one MODE report of cause CURRENCY, and without
a change neither moves and no report is formed; REJECT_ALL and the parameters stay. The WAITING contexts are retried
when the list becomes CURRENT, or the day known with it CURRENT. The reply carries what then holds. -/
def Obligations.CurrencyRequest : Prop :=
  ∀ (s : State) (src tag : Byte) (g d : Nat), s.Takes src 0x24 → ∃ (u v : State) (f : LineMode → LineMode),
    exec (.currency src tag g d) s = .next ((State.settle .currency v).answered src 0x24 tag
      (if g ≠ s.holds.generation then .genMismatch else if d ≤ 36524 then .ok else .dayRange)
      (.currency s.holds.generation u.holds.day u.holds.currency (decide (36524 < d))))
    ∧ u.holds = { s.holds with
        day := if d ≤ 36524 then some d else s.holds.day
        currency := if g = s.holds.generation then .current else .stale
        window := if g = s.holds.generation then some s.ctl.params.currencyWindow else none }
    ∧ (∀ m, f m = if m = .run ∨ m = .degraded then
          (if g = s.holds.generation ∧ s.holds.currency = .stale then .run
            else if g ≠ s.holds.generation ∧ s.holds.currency = .current then .degraded else m)
        else m)
    ∧ u.ctl = { s.ctl with mode := f s.ctl.mode, held := s.ctl.held.map f }
    ∧ (u.holds.currency = s.holds.currency → u = { s.taken src with holds := u.holds })
    ∧ (u.holds.currency ≠ s.holds.currency →
        u = State.report (.mode ⟨s.ctl.mode, u.ctl.mode, if u.ctl.mode = .isolated then u.ctl.held else none, .currency,
            u.holds.currency, s.holds.generation, u.holds.day, s.ctl.rejectAll⟩)
          { s.taken src with holds := u.holds, ctl := u.ctl })
    ∧ (g = s.holds.generation → s.holds.currency = .stale ∨ (s.holds.day = none ∧ d ≤ 36524) →
        v = u.retryWaiting)
    ∧ (g ≠ s.holds.generation ∨ (s.holds.currency = .current ∧ (s.holds.day.isSome = true ∨ 36524 < d)) → v = u)

/-- R32, R79. A retry attempts every context that is WAITING at that moment, lowest slot first (the rules give no
order: the model's choice, notes/assumptions/22.md); RETRY_WAITING replies with how many were attempted, how many of
them are decided and how many still wait.
R112. WRAPPER_CONFIG for a wrapper 1 to 4 with recipes 0 to 7 sets its capability set and its warm-up, clamped to
600000, and makes the arbiter due (the set is stored and shown in ascending recipe number, which no rule gives: the
model's choice, notes/assumptions/2.md); it is BUSY when the new set lacks the recipe of the context the wrapper holds
or the car takes to it. Another wrapper or recipe gives BAD_FIELD. -/
def Obligations.RetriesAndWrapperConfig : Prop :=
  (∀ (s : State) (src tag : Byte), s.Takes src 0x33 → s.WaitingInv →
      (∀ i, i ∈ s.waitingSlots ↔ ∃ c, s.ctx i = some c ∧ c.phase = .waiting)
      ∧ s.waitingSlots.Pairwise (· < ·)
      ∧ ∃ u, u = s.waitingSlots.foldl (fun t i => t.attempt i) (s.taken src)
        ∧ exec (.retryWaiting src tag) s = .next ((State.settle .retryWaiting u).answered src 0x33 tag .ok
            (.retried s.waitingSlots.length (s.waitingSlots.length - u.waitingSlots.length) u.waitingSlots.length))
        ∧ (∀ i c, s.ctx i = some c → c.phase = .waiting → ∃ d, u.ctx i = some d
            ∧ ((d.phase = .waiting ∧ d.verdict = none ∧ d.timer = c.timer)
              ∨ (d.phase = .atHeadDecided ∧ d.verdict.isSome = true)))
        ∧ ∀ i c, s.ctx i = some c → c.phase ≠ .waiting → ∃ d, u.ctx i = some d ∧ d.phase = c.phase
            ∧ d.verdict = c.verdict ∧ d.reasons = c.reasons ∧ d.timer = c.timer)
  ∧ (∀ (s : State) (src tag : Byte) (n t : Nat) (rs : List Nat), s.Takes src 0x35 →
       (n = 0 ∨ 4 < n ∨ (∃ r ∈ rs, 7 < r) → exec (.wrapperConfig src tag n rs t) s =
         .next ((s.taken src).answered src 0x35 tag .badField .none))
       ∧ ∀ w : WrapperNo, n = w.val + 1 → (∀ r ∈ rs, r ≤ 7) →
         ((∃ r, r ∉ rs ∧ r ≤ 7 ∧ (((∃ id, (s.wrapper w).pallet = .context id) ∧ (s.wrapper w).recipe = some r)
             ∨ (s.alloc.car.state = .moving ∧ s.alloc.car.dest = some (.wrapper w)
                 ∧ s.alloc.car.recipe = some r))) →
           exec (.wrapperConfig src tag n rs t) s = .next ((s.taken src).answered src 0x35 tag .busy .none))
         ∧ ((∀ r, (((∃ id, (s.wrapper w).pallet = .context id) ∧ (s.wrapper w).recipe = some r)
             ∨ (s.alloc.car.state = .moving ∧ s.alloc.car.dest = some (.wrapper w)
                 ∧ s.alloc.car.recipe = some r)) → r ∈ rs) →
           ∃ u cs, exec (.wrapperConfig src tag n rs t) s =
               .next ((State.settle .wrapperConfig u).answered src 0x35 tag
                 (if 600000 < t then .okClamped else .ok) (.wrapperConfig cs (min 600000 t)))
             ∧ (∀ r, r ∈ cs ↔ r ∈ rs) ∧ cs.Pairwise (· < ·)
             ∧ u.wrapper w = { s.wrapper w with caps := cs, warmUp := min 600000 t }
             ∧ (∀ v, v ≠ w → u.wrapper v = s.wrapper v) ∧ u.alloc.arbiterDue = true
             ∧ State.Only [.alloc] (s.taken src) u))

/-- R53, R71, R132, R147. The readings of a context by slot or by licence, of its case map and its label, and of the
log: OK with what stands there; by licence the context admitted first of those that have it, with the number of the
others, which a reading by slot does not carry; BAD_FIELD for a slot above 63, an index out of range or a licence not
of 18 digits, an index out of range being refused before the context is looked for (the model's choice,
notes/assumptions/34.md, which names the next start of a case map too); NOT_FOUND for a free slot, a licence no open
context has, or an age above the entries held. Nothing changes. R154, R183. STATUS_GET replies with the line status,
the overload flag with its cause among it, and then clears the flag. -/
def Obligations.ContextLogAndStatusReadings : Prop :=
  (∀ (s : State) (src tag : Byte) (key : ContextKey),
      ((∃ n, key = .slot n ∧ 64 ≤ n) ∨ (∃ t, key = .licence t ∧ isDigits 18 t = false) →
        (s.Takes src 0x31 → exec (.contextGet src tag key) s =
          .next ((s.taken src).answered src 0x31 tag .badField .none))
        ∧ (∀ n, s.Takes src 0x32 → exec (.caseMapGet src tag key n) s =
          .next ((s.taken src).answered src 0x32 tag .badField .none))
        ∧ (s.Takes src 0x44 → exec (.labelGet src tag key) s =
          .next ((s.taken src).answered src 0x44 tag .badField .none)))
      ∧ (∀ n, s.Takes src 0x32 → n = 0 ∨ 255 < n → exec (.caseMapGet src tag key n) s =
          .next ((s.taken src).answered src 0x32 tag .badField .none))
      ∧ ((∃ i : Slot, key = .slot i.val ∧ s.ctx i = none) ∨ (∃ t, key = .licence t ∧ isDigits 18 t = true
            ∧ ∀ i c, s.ctx i = some c → c.licence ≠ some t) →
        (s.Takes src 0x31 → exec (.contextGet src tag key) s =
          .next ((s.taken src).answered src 0x31 tag .notFound .none))
        ∧ (∀ n, s.Takes src 0x32 → 1 ≤ n → n ≤ 255 → exec (.caseMapGet src tag key n) s =
          .next ((s.taken src).answered src 0x32 tag .notFound .none))
        ∧ (s.Takes src 0x44 → exec (.labelGet src tag key) s =
          .next ((s.taken src).answered src 0x44 tag .notFound .none)))
      ∧ ∀ (i : Slot) c, s.ctx i = some c → key = .slot i.val ∨ (∃ t, key = .licence t ∧ isDigits 18 t = true
            ∧ c.licence = some t ∧ ∀ j d, s.ctx j = some d → d.licence = some t →
              j = i ∨ (c.adm < d.adm ∧ d.adm < s.tracker.nextAdm)) →
        (s.Takes src 0x31 → ∃ v : ContextView, exec (.contextGet src tag key) s =
            .next ((s.taken src).answered src 0x31 tag .ok (.context v))
          ∧ v.slot = i ∧ v.context = c ∧ (v.place = none ↔ i ∉ s.queue c.lane)
          ∧ (key = .slot i.val → v.duplicates = none)
          ∧ (∀ t, key = .licence t → v.duplicates =
              some (allSlots.filter fun j => j ≠ i && ((s.ctx j).any fun d => d.licence == some t)).length))
        ∧ (∀ n, s.Takes src 0x32 → 1 ≤ n → n ≤ 255 → ∃ es next, exec (.caseMapGet src tag key n) s =
            .next ((s.taken src).answered src 0x32 tag .ok (.caseMap es next))
          ∧ es.map (·.1) = ((c.tally.cases.map (·.1)).filter fun k => decide (n ≤ k)).take 32
          ∧ next = (((c.tally.cases.map (·.1)).filter fun k => decide (n ≤ k)).drop 32).head?
          ∧ ∀ e ∈ es, ∃ x, (e.1, x) ∈ c.tally.cases ∧ (x = .unknown → e.2 = none)
              ∧ ∀ y, x = .counted y → e.2 = some (linePosition c.tally y))
        ∧ (s.Takes src 0x44 → ∃ v : LabelView, exec (.labelGet src tag key) s =
            .next ((s.taken src).answered src 0x44 tag .ok (.label v))
          ∧ v.status = c.compStatus ∧ v.record = c.label ∧ v.nextSerial = s.composer.nextSerial
          ∧ v.queued = s.composer.queue.length))
  ∧ (∀ (s : State) (src tag : Byte) (n : Nat), s.Takes src 0x45 →
       (n = 0 ∨ 256 < n → exec (.logGet src tag n) s = .next ((s.taken src).answered src 0x45 tag .badField
          (.log s.labels.log.length s.labels.nextRelease none)))
        ∧ (1 ≤ n → n ≤ 256 → s.labels.log.length < n → exec (.logGet src tag n) s =
          .next ((s.taken src).answered src 0x45 tag .notFound
            (.log s.labels.log.length s.labels.nextRelease none)))
        ∧ (∀ e, 1 ≤ n → n ≤ 256 → s.labels.log.reverse[n - 1]? = some e → exec (.logGet src tag n) s =
          .next ((s.taken src).answered src 0x45 tag .ok
            (.log s.labels.log.length s.labels.nextRelease (some e)))))
  ∧ (∀ (s : State) (src tag : Byte), s.Takes src 0x67 → ∃ (u : State) (v : StatusView),
       exec (.statusGet src tag) s = .next (u.onRing fun r => { r with overload := none })
       ∧ u = (s.taken src).answered src 0x67 tag .ok (.status v)
       ∧ v.mode = s.ctl.mode ∧ v.rejectAll = s.ctl.rejectAll ∧ v.address = s.ctl.address.val
       ∧ v.currency = s.holds.currency ∧ v.generation = s.holds.generation ∧ v.day = s.holds.day
       ∧ v.window = s.holds.window ∧ v.contexts = (allSlots.filter fun i => (s.ctx i).isSome).length
       ∧ v.lanes = (List.finRange 8).map (fun l =>
           ⟨(s.queue l).length, s.tracker.lanes[l].infeed, (s.scale l).state, (s.scale l).streak⟩)
       ∧ v.car = s.alloc.car.state ∧ v.cargo = s.alloc.car.cargo ∧ v.dest = s.alloc.car.dest
       ∧ v.wrappers = (List.finRange 4).map (fun w => ⟨(s.wrapper w).state, (s.wrapper w).pallet,
           (s.wrapper w).progress, (s.wrapper w).caps, (s.wrapper w).warmUp, (s.wrapper w).afterRelease⟩)
       ∧ v.held = [s.alloc.held[(0 : LineNo)], s.alloc.held[(1 : LineNo)]]
       ∧ v.lineCounts = [(s.line 0).length, (s.line 1).length] ∧ v.spur = s.alloc.spur
       ∧ v.ticketing = (allSlots.filter fun i => (s.ctx i).any fun c => c.phase == .ticketing).length
       ∧ v.overload = s.ring.overload ∧ v.reportSeq = s.mgmt.reportSeq ∧ v.lostReport = s.mgmt.lostReport)

/-- R116, R117, R118, R119. TEMPLATE_BEGIN opens a build, discarding one; TEMPLATE_ITEMS adds well-formed items to it,
FULL past 48; TEMPLATE_END stores a build that passes the structural checks, BUSY while a composition uses its target,
and discards one that fails; TEMPLATE_GET reads a template by twelves, with the next position while items remain, and
gives BAD_FIELD for a template above 15 and a position outside 1 to 48. Without a build ITEMS and END give BAD_REQUEST.
R118. A build passes the structural checks only if it is not empty, its last item is END and no other is, and no
section is left open; a passing build without sections has no line-level field. -/
def Obligations.TemplateRequests : Prop :=
  (∀ (s : State) (src tag : Byte),
      (s.Takes src 0x40 → (∀ n : TemplateNo, ∃ u, exec (.templateBegin src tag n.val) s =
            .next (u.answered src 0x40 tag .ok
              (.discardedBuild (s.composer.build.map fun b => (b.target, b.items.length))))
          ∧ u.composer = { s.composer with build := some ⟨n, []⟩ } ∧ State.Only [.composer] (s.taken src) u)
        ∧ ∀ n, 16 ≤ n → exec (.templateBegin src tag n) s =
            .next ((s.taken src).answered src 0x40 tag .badField .none))
      ∧ (s.Takes src 0x41 →
        (∀ fs, s.composer.build = none → exec (.templateItems src tag fs) s =
            .next ((s.taken src).answered src 0x41 tag .badRequest .none))
        ∧ ∀ b fs is, s.composer.build = some b → fs ≠ [] → fs.map itemOf = is.map some →
          (48 < b.items.length + is.length → exec (.templateItems src tag fs) s =
            .next ((s.taken src).answered src 0x41 tag .full .none))
          ∧ (b.items.length + is.length ≤ 48 → ∃ u, exec (.templateItems src tag fs) s =
              .next (u.answered src 0x41 tag .ok (.itemCount (b.items.length + is.length)))
            ∧ u.composer = { s.composer with build := some ⟨b.target, b.items ++ is⟩ }
            ∧ State.Only [.composer] (s.taken src) u))
      ∧ (s.Takes src 0x41 → ∀ b (fs : List ItemFields) (k : Nat) (x : ItemFields), s.composer.build = some b →
          fs[k]? = some x → itemOf x = none →
          (∀ j y, j < k → fs[j]? = some y → (itemOf y).isSome = true) →
          exec (.templateItems src tag fs) s =
            .next ((s.taken src).answered src 0x41 tag .badField (.itemPosition (k + 1))))
      ∧ (s.Takes src 0x42 →
        (s.composer.build = none → exec (.templateEnd src tag) s =
            .next ((s.taken src).answered src 0x42 tag .badRequest .none))
        ∧ ∀ b, s.composer.build = some b →
          (∀ x k, structuralFault 0 none b.items = some (x, k) → ∃ u, exec (.templateEnd src tag) s =
              .next (u.answered src 0x42 tag .badTemplate (.templateFault x k))
            ∧ u.composer = { s.composer with build := none } ∧ State.Only [.composer] (s.taken src) u)
          ∧ (structuralFault 0 none b.items = none → ∀ f, s.composer.flight = some f → f.template = b.target →
            exec (.templateEnd src tag) s = .next ((s.taken src).answered src 0x42 tag .busy .none))
          ∧ (structuralFault 0 none b.items = none → (∀ f, s.composer.flight = some f → f.template ≠ b.target) →
            ∃ u, exec (.templateEnd src tag) s = .next (u.answered src 0x42 tag .ok .none)
              ∧ u.composer.build = none ∧ u.composer.templates[b.target] = b.items
              ∧ (∀ n : TemplateNo, n ≠ b.target → u.composer.templates[n] = s.composer.templates[n])
              ∧ u.composer.queue = s.composer.queue ∧ u.composer.flight = s.composer.flight
              ∧ u.composer.nextSerial = s.composer.nextSerial ∧ State.Only [.composer] (s.taken src) u))
      ∧ (s.Takes src 0x43 → ∀ (n : TemplateNo) (p : Nat), 1 ≤ p → p ≤ 48 → ∃ is next,
          exec (.templateGet src tag n.val p) s = .next ((s.taken src).answered src 0x43 tag .ok
            (.templateItems s.composer.templates[n].length is next))
          ∧ is = (s.composer.templates[n].drop (p - 1)).take 12
          ∧ (next = none ↔ s.composer.templates[n].length ≤ p + 11) ∧ ∀ m, next = some m → m = p + 12)
      ∧ (s.Takes src 0x43 → ∀ n p, 16 ≤ n ∨ p = 0 ∨ 48 < p → exec (.templateGet src tag n p) s =
          .next ((s.taken src).answered src 0x43 tag .badField .none)))
  ∧ (∀ is : List Item, structuralFault 0 none is = none →
       is ≠ [] ∧ is.getLast? = some .endItem ∧ (∀ k, k + 1 < is.length → is[k]? ≠ some .endItem)
       ∧ is.count .linesBegin = is.count .linesEnd ∧ is.count .ifBonded = is.count .endIf
       ∧ (Item.linesBegin ∉ is → ∀ c w a f, Item.field c w a f ∈ is → c.isLine = false)
       ∧ structuralFault 0 none [] = some (.empty, 0))

/-- R169, R170, R171. WATCH_PUT with a screen and settings in range replaces the screen by one with just those
settings, its latch, last values, capture and count at their reset values, and replies with the latch and count
before; a screen number, source, kind, test, combine, action or enabled field out of range, and a third test, give
BAD_FIELD (for a kind above 255 and an unknown enabled the model's choice, notes/assumptions/35.md and 18.md).
WATCH_ACK moves PENDING to CLEAR, and OVERRUN to PENDING with a report; WATCH_GET reads the settings, or the capture
by hundreds. In both a number out of range gives BAD_FIELD. -/
def Obligations.WatchRequests : Prop :=
  ∀ (s : State) (src tag : Byte),
    (s.Takes src 0x50 → ∀ f : WatchFields,
      (16 ≤ f.screen ∨ ¬ f.InRange →
        exec (.watchPut src tag f) s = .next ((s.taken src).answered src 0x50 tag .badField .none))
      ∧ ∀ n : ScreenNo, f.screen = n.val → f.InRange →
        ∃ u, exec (.watchPut src tag f) s =
            .next (u.answered src 0x50 tag .ok (.watchPut (s.watch[n]).latch (s.watch[n]).count))
          ∧ f.Stored u.watch[n] ∧ (u.watch[n]).latch = .clear ∧ (u.watch[n]).capture = [] ∧ (u.watch[n]).count = 0
          ∧ (∀ y ∈ (u.watch[n]).tests, y.last = none) ∧ (∀ m : ScreenNo, m ≠ n → u.watch[m] = s.watch[m])
          ∧ State.Only [.watch] (s.taken src) u)
    ∧ (s.Takes src 0x52 →
      (∀ n, 16 ≤ n → exec (.watchAck src tag n) s = .next ((s.taken src).answered src 0x52 tag .badField .none))
      ∧ ∀ n : ScreenNo, ∃ u v, exec (.watchAck src tag n.val) s = .next (v.answered src 0x52 tag .ok
          (.watchAck (s.watch[n]).latch (u.watch[n]).latch (s.watch[n]).count))
        ∧ (u.watch[n]).latch = (if (s.watch[n]).latch = .overrun then .pending else .clear)
        ∧ u.watch[n] = { s.watch[n] with latch := (u.watch[n]).latch }
        ∧ (∀ m : ScreenNo, m ≠ n → u.watch[m] = s.watch[m]) ∧ State.Only [.watch] (s.taken src) u
        ∧ ((s.watch[n]).latch ≠ .overrun → v = u)
        ∧ ((s.watch[n]).latch = .overrun → v = u.report (.watchAlert ⟨n, none, (s.watch[n]).action,
            (s.watch[n]).tests.length, !(s.watch[n]).capture.isEmpty, (s.watch[n]).count⟩)))
    ∧ (s.Takes src 0x51 →
      (∀ (n : Nat) (p : Byte) (st : Nat), 16 ≤ n ∨ (p ≠ 1 ∧ p ≠ 2) ∨ (p = 2 ∧ 123 < st) →
        exec (.watchGet src tag n p st) s = .next ((s.taken src).answered src 0x51 tag .badField .none))
      ∧ ∀ n : ScreenNo,
        (∀ st, exec (.watchGet src tag n.val 1 st) s =
          .next ((s.taken src).answered src 0x51 tag .ok (.watchSettings s.watch[n])))
        ∧ (∀ st, st ≤ 123 → ∃ next, exec (.watchGet src tag n.val 2 st) s =
          .next ((s.taken src).answered src 0x51 tag .ok
            (.watchCapture (((s.watch[n]).capture.drop st).take 100) next))
          ∧ (next = none ↔ (s.watch[n]).capture.length ≤ st + 100)
          ∧ ∀ m, next = some m → m = st + 100))

/-- R173 to R176, R180. GO from START, STOPPED or DRAIN enters RUN with a CURRENT list, else DEGRADED, and deasserts
REJECT_ALL; DRAIN from RUN or DEGRADED enters DRAIN, or STOPPED with no context open; HALT from RUN, DEGRADED or DRAIN
enters STOPPED with REJECT_ALL asserted and closes every open context; CLEAR_REJECT_ALL deasserts REJECT_ALL there.
Elsewhere GO is OK without effect in RUN and DEGRADED, and the others, and GO in ISOLATED, are BUSY. Every reply shows the
mode and the level before and after, a refused HALT's with 0 closed (the model's choice, notes/assumptions/13.md).
R44, R173. GO and DRAIN send every lane, in lane order, its wanted command, whatever its infeed state, and then form one
MODE report (that order is the model's choice, notes/assumptions/21.md). A lane's wanted command is GO with fewer than 5
contexts in it and RUN or DEGRADED as the mode, in ISOLATED as the held mode; else STOP. A change of its count alone sends
it where it differs from the infeed state.
R44, R45, R156. An INFEED command sets the infeed state at once and goes to the address that holds INFEED for its lane,
then being the last placed command; or it waits as the lane's pending order, in the place of one that waits, or, where it
equals the last placed command, that order is dropped and the holder leaves the pending list. -/
def Obligations.ModeRequests : Prop :=
  (∀ (s : State) (l : Lane),
      (s.wanted l = .go ↔ (s.queue l).length < 5 ∧ (s.ctl.mode = .run ∨ s.ctl.mode = .degraded
        ∨ (s.ctl.mode = .isolated ∧ (s.ctl.held = some .run ∨ s.ctl.held = some .degraded))))
      ∧ (s.tracker.lanes[l].infeed = s.wanted l → s.infeedDecision l = s)
      ∧ (s.tracker.lanes[l].infeed ≠ s.wanted l → s.infeedDecision l = s.sendInfeed l (s.wanted l))
      ∧ ∀ c : InfeedCmd,
        (s.tracker.lanes[l].order.isSome = true → s.tracker.lanes[l].lastPlaced = some c → s.sendInfeed l c =
          (s.modLane l fun r => { r with infeed := c, order := none }).onRing fun r => { r with
            waiting := r.waiting.erase (.infeed l) })
        ∧ (s.tracker.lanes[l].order = none ∨ s.tracker.lanes[l].lastPlaced ≠ some c →
          State.OrderOut (.infeed l) (.infeed l) 0x20 [if c = .go then 1 else 2]
            (s.modLane l fun r => { r with infeed := c, order := some c })
            (s.modLane l fun r => { r with infeed := c, order := none, lastPlaced := some c })
            (s.modLane l fun r => { r with infeed := c, order := none }) (s.sendInfeed l c)))
  ∧ ∀ (s : State) (src tag : Byte) (m : LineMode) (b : Bool), s.ctl.mode = m → s.ctl.rejectAll = b →
    (s.Takes src 0x60 →
      (m = .run ∨ m = .degraded → exec (.go src tag) s =
        .next ((s.taken src).answered src 0x60 tag .ok (.mode m m b b none)))
      ∧ (m = .isolated → exec (.go src tag) s =
        .next ((s.taken src).answered src 0x60 tag .busy (.mode m m b b none)))
      ∧ (m = .start ∨ m = .stopped ∨ m = .drain → ∃ u n, n = (if s.holds.currency = .current then .run else .degraded)
        ∧ exec (.go src tag) s = .next (u.answered src 0x60 tag .ok (.mode m n b false none))
        ∧ u.ctl = { s.ctl with mode := n, rejectAll := false }
        ∧ (∀ l : Lane, u.tracker.lanes[l].infeed = if (s.queue l).length < 5 then .go else .stop)
        ∧ (∀ l, u.queue l = s.queue l) ∧ State.SameContexts [] s u
        ∧ State.Only [.ctl, .tracker, .ring, .mgmt] s u
        ∧ u = State.report (.mode ⟨m, n, none, .go, s.holds.currency, s.holds.generation, s.holds.day, false⟩)
          ((List.finRange 8).foldl (fun t l => t.sendInfeed l (t.wanted l)) { s.taken src with ctl := u.ctl })))
    ∧ (s.Takes src 0x61 →
      (m ≠ .run → m ≠ .degraded → exec (.drain src tag) s =
        .next ((s.taken src).answered src 0x61 tag .busy (.mode m m b b none)))
      ∧ (m = .run ∨ m = .degraded → (∀ i, s.ctx i = none) → ∃ u, exec (.drain src tag) s =
            .next (u.answered src 0x61 tag .ok (.mode m .stopped b true none))
          ∧ u.ctl = { s.ctl with mode := .stopped, rejectAll := true }
          ∧ (∀ l : Lane, u.tracker.lanes[l].infeed = .stop) ∧ State.Only [.ctl, .tracker, .ring, .mgmt] s u
          ∧ u = State.report (.mode ⟨m, .stopped, none, .drain, s.holds.currency, s.holds.generation, s.holds.day, true⟩)
            ((List.finRange 8).foldl (fun t l => t.sendInfeed l .stop) { s.taken src with ctl := u.ctl }))
      ∧ (∀ i, m = .run ∨ m = .degraded → s.ctx i ≠ none → ∃ u, exec (.drain src tag) s =
            .next (u.answered src 0x61 tag .ok (.mode m .drain b b none))
          ∧ u.ctl = { s.ctl with mode := .drain } ∧ (∀ l : Lane, u.tracker.lanes[l].infeed = .stop)
          ∧ State.SameContexts [] s u ∧ State.Only [.ctl, .tracker, .ring, .mgmt] s u
          ∧ u = State.report (.mode ⟨m, .drain, none, .drain, s.holds.currency, s.holds.generation, s.holds.day, b⟩)
            ((List.finRange 8).foldl (fun t l => t.sendInfeed l .stop) { s.taken src with ctl := u.ctl })))
    ∧ (s.Takes src 0x62 →
      (m = .start ∨ m = .stopped ∨ m = .isolated → exec (.halt src tag) s =
        .next ((s.taken src).answered src 0x62 tag .busy (.mode m m b b (some 0))))
      ∧ (m = .run ∨ m = .degraded ∨ m = .drain → ∃ u : State, exec (.halt src tag) s =
            .next (u.answered src 0x62 tag .ok (.mode m .stopped b true
              (some (allSlots.filter fun i => (s.ctx i).isSome).length)))
          ∧ u.ctl = { s.ctl with mode := .stopped, rejectAll := true } ∧ (∀ i, u.ctx i = none)
          ∧ u.labels.log = s.labels.log ∧ ∀ l : Lane, u.tracker.lanes[l].infeed = .stop))
    ∧ (s.Takes src 0x64 →
      (m = .start ∨ m = .stopped ∨ m = .isolated → exec (.clearRejectAll src tag) s =
        .next ((s.taken src).answered src 0x64 tag .busy (.mode m m b b none)))
      ∧ (m = .run ∨ m = .degraded ∨ m = .drain → b = false → exec (.clearRejectAll src tag) s =
        .next ((s.taken src).answered src 0x64 tag .ok (.mode m m false false none)))
      ∧ (m = .run ∨ m = .degraded ∨ m = .drain → b = true → ∃ u, exec (.clearRejectAll src tag) s =
            .next (u.answered src 0x64 tag .ok (.mode m m true false none))
          ∧ u.ctl = { s.ctl with rejectAll := false } ∧ State.Only [.ctl, .ring, .mgmt] s u))

/-- R21, R38, R54, R72, R97, R114, R133, R149, R163, R172, R177. RESTART, taken in every mode: no context is open,
IN_USE plans are LOADED, the lanes, label lines and queues are empty and every infeed STOP, the mode is START with
REJECT_ALL asserted and no held mode, the list is STALE, and a wrapper that held a context is in FAULT with an orphan.
The tables, the hold list and its generation and day, the scales, templates, log, serials, screens, parameters and
address are kept.
R163, R173, R177. The reply is the first telegram of the emptied origin queue; it carries the mode and the REJECT_ALL
level before and after, in an order and with codes that are the model's choice (notes/assumptions/2.md). -/
def Obligations.Restart : Prop :=
  ∀ (s : State) (src tag : Byte), s.Takes src 0x63 → ∃ u, exec (.restart src tag) s = .next u
    ∧ (∀ i, u.ctx i = none) ∧ u.tracker.nextAdm = 1
    ∧ (∀ l : Lane, u.queue l = [] ∧ u.tracker.lanes[l].infeed = .stop)
    ∧ u.ctl = { s.ctl with mode := .start, held := none, rejectAll := true }
    ∧ u.refs.articles = s.refs.articles ∧ u.refs.consignments = s.refs.consignments
    ∧ u.refs.stations = s.refs.stations
    ∧ u.refs.plans = s.refs.plans.map (fun p => if p.state = .inUse then { p with state := .loaded, bound := none } else p)
    ∧ u.holds.list = s.holds.list ∧ u.holds.generation = s.holds.generation ∧ u.holds.day = s.holds.day
    ∧ u.holds.currency = .stale ∧ u.holds.window = none
    ∧ u.recon.clock = 0 ∧ (∀ l, u.scale l = s.scale l)
    ∧ (s.alloc.car.cargo ≠ .none → u.alloc.car.cargo = .orphan) ∧ u.alloc.spur = s.alloc.spur
    ∧ (∀ w id, (s.wrapper w).pallet = .context id → (u.wrapper w).pallet = .orphan
        ∧ (u.wrapper w).state = .fault)
    ∧ (∀ w, (∀ id, (s.wrapper w).pallet ≠ .context id) →
        u.wrapper w = { s.wrapper w with wrapOrder := none, output := none })
    ∧ u.composer.templates = s.composer.templates ∧ u.composer.nextSerial = s.composer.nextSerial
    ∧ u.composer.build = none ∧ u.composer.queue = [] ∧ u.composer.flight = none
    ∧ (∀ k, u.line k = []) ∧ u.labels.tickets = [] ∧ u.labels.log = s.labels.log
    ∧ u.labels.nextRelease = s.labels.nextRelease
    ∧ u.ring.forward = [] ∧ u.ring.run = 0 ∧ u.ring.overload = none
    ∧ u.watch = s.watch
    ∧ u.ring.origin.head? = some ⟨src, s.ownAddress, 0x31, [0x63, tag, 0, 1, 1,
        BitVec.ofNat 8 s.ctl.mode.code, 1, if s.ctl.rejectAll then 1 else 2, 1]⟩

/-- R182. PARAM_SET: no number (R182 says 1 to 17 pairs and gives it no status: the model's choice,
notes/assumptions/18.md), a number outside 1 to 17 and one named twice give BAD_FIELD. Otherwise each named parameter
takes its value brought into its range, the others stay, and the reply carries what is stored, OK_CLAMPED where a value
was brought in. PARAM_GET reads the named ones, or all 17. The replies show the parameters in the request's order (the
model's choice, notes/assumptions/2.md). -/
def Obligations.ParameterRequests : Prop :=
  ∀ (s : State) (src tag : Byte),
    (s.Takes src 0x65 → ∀ ps : List (Nat × Nat),
      (ps = [] ∨ (∃ p ∈ ps, p.1 = 0 ∨ 17 < p.1) ∨ ¬ (ps.map (·.1)).Nodup →
        exec (.paramSet src tag ps) s = .next ((s.taken src).answered src 0x65 tag .badField .none))
      ∧ (ps ≠ [] → (∀ p ∈ ps, 1 ≤ p.1 ∧ p.1 ≤ 17) → (ps.map (·.1)).Nodup → ∃ u qs,
        qs = ps.map (fun p => (p.1, max (paramRange p.1).1 (min (paramRange p.1).2 p.2)))
        ∧ exec (.paramSet src tag ps) s =
            .next (u.answered src 0x65 tag (if qs = ps then .ok else .okClamped) (.params qs))
        ∧ (∀ q ∈ qs, u.ctl.params.get q.1 = some q.2)
        ∧ (∀ n, n ∉ ps.map (·.1) → u.ctl.params.get n = s.ctl.params.get n)
        ∧ u.ctl = { s.ctl with params := u.ctl.params } ∧ State.Only [.ctl] (s.taken src) u))
    ∧ (s.Takes src 0x66 → ∀ ns : List Nat,
      (ns.length ≤ 17 → (∀ n ∈ ns, 1 ≤ n ∧ n ≤ 17) → ∃ ps, exec (.paramGet src tag ns) s =
          .next ((s.taken src).answered src 0x66 tag .ok (.params ps))
        ∧ ps.map (·.1) = (if ns = [] then (List.range 17).map (· + 1) else ns)
        ∧ ∀ p ∈ ps, s.ctl.params.get p.1 = some p.2)
      ∧ ((∃ n ∈ ns, n = 0 ∨ 17 < n) →
        exec (.paramGet src tag ns) s = .next ((s.taken src).answered src 0x66 tag .badField .none)))
end

