-- ==== Sys2Proof/Laws/State.lean ====
section
/-! SUPPORT. Sys2Proof/Laws/State.lean: what each update of Machine/Ops.lean leaves in each block, so that no later
proof unfolds a record update. -/

namespace Sys2Proof.Machine

open Sys2Proof

/-! ### onRefs -/

@[simp] theorem State.onRefs_refs (f : RefTables → RefTables) (s : State) : (s.onRefs f).refs = f s.refs := rfl
@[simp] theorem State.onRefs_holds (f : RefTables → RefTables) (s : State) : (s.onRefs f).holds = s.holds := rfl
@[simp] theorem State.onRefs_tracker (f : RefTables → RefTables) (s : State) : (s.onRefs f).tracker = s.tracker := rfl
@[simp] theorem State.onRefs_recon (f : RefTables → RefTables) (s : State) : (s.onRefs f).recon = s.recon := rfl
@[simp] theorem State.onRefs_alloc (f : RefTables → RefTables) (s : State) : (s.onRefs f).alloc = s.alloc := rfl
@[simp] theorem State.onRefs_composer (f : RefTables → RefTables) (s : State) : (s.onRefs f).composer = s.composer := rfl
@[simp] theorem State.onRefs_labels (f : RefTables → RefTables) (s : State) : (s.onRefs f).labels = s.labels := rfl
@[simp] theorem State.onRefs_ring (f : RefTables → RefTables) (s : State) : (s.onRefs f).ring = s.ring := rfl
@[simp] theorem State.onRefs_mgmt (f : RefTables → RefTables) (s : State) : (s.onRefs f).mgmt = s.mgmt := rfl
@[simp] theorem State.onRefs_watch (f : RefTables → RefTables) (s : State) : (s.onRefs f).watch = s.watch := rfl
@[simp] theorem State.onRefs_ctl (f : RefTables → RefTables) (s : State) : (s.onRefs f).ctl = s.ctl := rfl
@[simp] theorem State.onRefs_pending (f : RefTables → RefTables) (s : State) : (s.onRefs f).pending = s.pending := rfl

/-! ### onHolds -/

@[simp] theorem State.onHolds_refs (f : HoldRegister → HoldRegister) (s : State) : (s.onHolds f).refs = s.refs := rfl
@[simp] theorem State.onHolds_holds (f : HoldRegister → HoldRegister) (s : State) : (s.onHolds f).holds = f s.holds := rfl
@[simp] theorem State.onHolds_tracker (f : HoldRegister → HoldRegister) (s : State) : (s.onHolds f).tracker = s.tracker := rfl
@[simp] theorem State.onHolds_recon (f : HoldRegister → HoldRegister) (s : State) : (s.onHolds f).recon = s.recon := rfl
@[simp] theorem State.onHolds_alloc (f : HoldRegister → HoldRegister) (s : State) : (s.onHolds f).alloc = s.alloc := rfl
@[simp] theorem State.onHolds_composer (f : HoldRegister → HoldRegister) (s : State) : (s.onHolds f).composer = s.composer := rfl
@[simp] theorem State.onHolds_labels (f : HoldRegister → HoldRegister) (s : State) : (s.onHolds f).labels = s.labels := rfl
@[simp] theorem State.onHolds_ring (f : HoldRegister → HoldRegister) (s : State) : (s.onHolds f).ring = s.ring := rfl
@[simp] theorem State.onHolds_mgmt (f : HoldRegister → HoldRegister) (s : State) : (s.onHolds f).mgmt = s.mgmt := rfl
@[simp] theorem State.onHolds_watch (f : HoldRegister → HoldRegister) (s : State) : (s.onHolds f).watch = s.watch := rfl
@[simp] theorem State.onHolds_ctl (f : HoldRegister → HoldRegister) (s : State) : (s.onHolds f).ctl = s.ctl := rfl
@[simp] theorem State.onHolds_pending (f : HoldRegister → HoldRegister) (s : State) : (s.onHolds f).pending = s.pending := rfl

/-! ### onTracker -/

@[simp] theorem State.onTracker_refs (f : Tracker → Tracker) (s : State) : (s.onTracker f).refs = s.refs := rfl
@[simp] theorem State.onTracker_holds (f : Tracker → Tracker) (s : State) : (s.onTracker f).holds = s.holds := rfl
@[simp] theorem State.onTracker_tracker (f : Tracker → Tracker) (s : State) : (s.onTracker f).tracker = f s.tracker := rfl
@[simp] theorem State.onTracker_recon (f : Tracker → Tracker) (s : State) : (s.onTracker f).recon = s.recon := rfl
@[simp] theorem State.onTracker_alloc (f : Tracker → Tracker) (s : State) : (s.onTracker f).alloc = s.alloc := rfl
@[simp] theorem State.onTracker_composer (f : Tracker → Tracker) (s : State) : (s.onTracker f).composer = s.composer := rfl
@[simp] theorem State.onTracker_labels (f : Tracker → Tracker) (s : State) : (s.onTracker f).labels = s.labels := rfl
@[simp] theorem State.onTracker_ring (f : Tracker → Tracker) (s : State) : (s.onTracker f).ring = s.ring := rfl
@[simp] theorem State.onTracker_mgmt (f : Tracker → Tracker) (s : State) : (s.onTracker f).mgmt = s.mgmt := rfl
@[simp] theorem State.onTracker_watch (f : Tracker → Tracker) (s : State) : (s.onTracker f).watch = s.watch := rfl
@[simp] theorem State.onTracker_ctl (f : Tracker → Tracker) (s : State) : (s.onTracker f).ctl = s.ctl := rfl
@[simp] theorem State.onTracker_pending (f : Tracker → Tracker) (s : State) : (s.onTracker f).pending = s.pending := rfl

/-! ### onRecon -/

@[simp] theorem State.onRecon_refs (f : Reconciler → Reconciler) (s : State) : (s.onRecon f).refs = s.refs := rfl
@[simp] theorem State.onRecon_holds (f : Reconciler → Reconciler) (s : State) : (s.onRecon f).holds = s.holds := rfl
@[simp] theorem State.onRecon_tracker (f : Reconciler → Reconciler) (s : State) : (s.onRecon f).tracker = s.tracker := rfl
@[simp] theorem State.onRecon_recon (f : Reconciler → Reconciler) (s : State) : (s.onRecon f).recon = f s.recon := rfl
@[simp] theorem State.onRecon_alloc (f : Reconciler → Reconciler) (s : State) : (s.onRecon f).alloc = s.alloc := rfl
@[simp] theorem State.onRecon_composer (f : Reconciler → Reconciler) (s : State) : (s.onRecon f).composer = s.composer := rfl
@[simp] theorem State.onRecon_labels (f : Reconciler → Reconciler) (s : State) : (s.onRecon f).labels = s.labels := rfl
@[simp] theorem State.onRecon_ring (f : Reconciler → Reconciler) (s : State) : (s.onRecon f).ring = s.ring := rfl
@[simp] theorem State.onRecon_mgmt (f : Reconciler → Reconciler) (s : State) : (s.onRecon f).mgmt = s.mgmt := rfl
@[simp] theorem State.onRecon_watch (f : Reconciler → Reconciler) (s : State) : (s.onRecon f).watch = s.watch := rfl
@[simp] theorem State.onRecon_ctl (f : Reconciler → Reconciler) (s : State) : (s.onRecon f).ctl = s.ctl := rfl
@[simp] theorem State.onRecon_pending (f : Reconciler → Reconciler) (s : State) : (s.onRecon f).pending = s.pending := rfl

/-! ### onAlloc -/

@[simp] theorem State.onAlloc_refs (f : Allocator → Allocator) (s : State) : (s.onAlloc f).refs = s.refs := rfl
@[simp] theorem State.onAlloc_holds (f : Allocator → Allocator) (s : State) : (s.onAlloc f).holds = s.holds := rfl
@[simp] theorem State.onAlloc_tracker (f : Allocator → Allocator) (s : State) : (s.onAlloc f).tracker = s.tracker := rfl
@[simp] theorem State.onAlloc_recon (f : Allocator → Allocator) (s : State) : (s.onAlloc f).recon = s.recon := rfl
@[simp] theorem State.onAlloc_alloc (f : Allocator → Allocator) (s : State) : (s.onAlloc f).alloc = f s.alloc := rfl
@[simp] theorem State.onAlloc_composer (f : Allocator → Allocator) (s : State) : (s.onAlloc f).composer = s.composer := rfl
@[simp] theorem State.onAlloc_labels (f : Allocator → Allocator) (s : State) : (s.onAlloc f).labels = s.labels := rfl
@[simp] theorem State.onAlloc_ring (f : Allocator → Allocator) (s : State) : (s.onAlloc f).ring = s.ring := rfl
@[simp] theorem State.onAlloc_mgmt (f : Allocator → Allocator) (s : State) : (s.onAlloc f).mgmt = s.mgmt := rfl
@[simp] theorem State.onAlloc_watch (f : Allocator → Allocator) (s : State) : (s.onAlloc f).watch = s.watch := rfl
@[simp] theorem State.onAlloc_ctl (f : Allocator → Allocator) (s : State) : (s.onAlloc f).ctl = s.ctl := rfl
@[simp] theorem State.onAlloc_pending (f : Allocator → Allocator) (s : State) : (s.onAlloc f).pending = s.pending := rfl

/-! ### onComposer -/

@[simp] theorem State.onComposer_refs (f : Composer → Composer) (s : State) : (s.onComposer f).refs = s.refs := rfl
@[simp] theorem State.onComposer_holds (f : Composer → Composer) (s : State) : (s.onComposer f).holds = s.holds := rfl
@[simp] theorem State.onComposer_tracker (f : Composer → Composer) (s : State) : (s.onComposer f).tracker = s.tracker := rfl
@[simp] theorem State.onComposer_recon (f : Composer → Composer) (s : State) : (s.onComposer f).recon = s.recon := rfl
@[simp] theorem State.onComposer_alloc (f : Composer → Composer) (s : State) : (s.onComposer f).alloc = s.alloc := rfl
@[simp] theorem State.onComposer_composer (f : Composer → Composer) (s : State) : (s.onComposer f).composer = f s.composer := rfl
@[simp] theorem State.onComposer_labels (f : Composer → Composer) (s : State) : (s.onComposer f).labels = s.labels := rfl
@[simp] theorem State.onComposer_ring (f : Composer → Composer) (s : State) : (s.onComposer f).ring = s.ring := rfl
@[simp] theorem State.onComposer_mgmt (f : Composer → Composer) (s : State) : (s.onComposer f).mgmt = s.mgmt := rfl
@[simp] theorem State.onComposer_watch (f : Composer → Composer) (s : State) : (s.onComposer f).watch = s.watch := rfl
@[simp] theorem State.onComposer_ctl (f : Composer → Composer) (s : State) : (s.onComposer f).ctl = s.ctl := rfl
@[simp] theorem State.onComposer_pending (f : Composer → Composer) (s : State) : (s.onComposer f).pending = s.pending := rfl

/-! ### onLabels -/

@[simp] theorem State.onLabels_refs (f : Dispatcher → Dispatcher) (s : State) : (s.onLabels f).refs = s.refs := rfl
@[simp] theorem State.onLabels_holds (f : Dispatcher → Dispatcher) (s : State) : (s.onLabels f).holds = s.holds := rfl
@[simp] theorem State.onLabels_tracker (f : Dispatcher → Dispatcher) (s : State) : (s.onLabels f).tracker = s.tracker := rfl
@[simp] theorem State.onLabels_recon (f : Dispatcher → Dispatcher) (s : State) : (s.onLabels f).recon = s.recon := rfl
@[simp] theorem State.onLabels_alloc (f : Dispatcher → Dispatcher) (s : State) : (s.onLabels f).alloc = s.alloc := rfl
@[simp] theorem State.onLabels_composer (f : Dispatcher → Dispatcher) (s : State) : (s.onLabels f).composer = s.composer := rfl
@[simp] theorem State.onLabels_labels (f : Dispatcher → Dispatcher) (s : State) : (s.onLabels f).labels = f s.labels := rfl
@[simp] theorem State.onLabels_ring (f : Dispatcher → Dispatcher) (s : State) : (s.onLabels f).ring = s.ring := rfl
@[simp] theorem State.onLabels_mgmt (f : Dispatcher → Dispatcher) (s : State) : (s.onLabels f).mgmt = s.mgmt := rfl
@[simp] theorem State.onLabels_watch (f : Dispatcher → Dispatcher) (s : State) : (s.onLabels f).watch = s.watch := rfl
@[simp] theorem State.onLabels_ctl (f : Dispatcher → Dispatcher) (s : State) : (s.onLabels f).ctl = s.ctl := rfl
@[simp] theorem State.onLabels_pending (f : Dispatcher → Dispatcher) (s : State) : (s.onLabels f).pending = s.pending := rfl

/-! ### onRing -/

@[simp] theorem State.onRing_refs (f : RingPort → RingPort) (s : State) : (s.onRing f).refs = s.refs := rfl
@[simp] theorem State.onRing_holds (f : RingPort → RingPort) (s : State) : (s.onRing f).holds = s.holds := rfl
@[simp] theorem State.onRing_tracker (f : RingPort → RingPort) (s : State) : (s.onRing f).tracker = s.tracker := rfl
@[simp] theorem State.onRing_recon (f : RingPort → RingPort) (s : State) : (s.onRing f).recon = s.recon := rfl
@[simp] theorem State.onRing_alloc (f : RingPort → RingPort) (s : State) : (s.onRing f).alloc = s.alloc := rfl
@[simp] theorem State.onRing_composer (f : RingPort → RingPort) (s : State) : (s.onRing f).composer = s.composer := rfl
@[simp] theorem State.onRing_labels (f : RingPort → RingPort) (s : State) : (s.onRing f).labels = s.labels := rfl
@[simp] theorem State.onRing_ring (f : RingPort → RingPort) (s : State) : (s.onRing f).ring = f s.ring := rfl
@[simp] theorem State.onRing_mgmt (f : RingPort → RingPort) (s : State) : (s.onRing f).mgmt = s.mgmt := rfl
@[simp] theorem State.onRing_watch (f : RingPort → RingPort) (s : State) : (s.onRing f).watch = s.watch := rfl
@[simp] theorem State.onRing_ctl (f : RingPort → RingPort) (s : State) : (s.onRing f).ctl = s.ctl := rfl
@[simp] theorem State.onRing_pending (f : RingPort → RingPort) (s : State) : (s.onRing f).pending = s.pending := rfl

/-! ### onMgmt -/

@[simp] theorem State.onMgmt_refs (f : Responder → Responder) (s : State) : (s.onMgmt f).refs = s.refs := rfl
@[simp] theorem State.onMgmt_holds (f : Responder → Responder) (s : State) : (s.onMgmt f).holds = s.holds := rfl
@[simp] theorem State.onMgmt_tracker (f : Responder → Responder) (s : State) : (s.onMgmt f).tracker = s.tracker := rfl
@[simp] theorem State.onMgmt_recon (f : Responder → Responder) (s : State) : (s.onMgmt f).recon = s.recon := rfl
@[simp] theorem State.onMgmt_alloc (f : Responder → Responder) (s : State) : (s.onMgmt f).alloc = s.alloc := rfl
@[simp] theorem State.onMgmt_composer (f : Responder → Responder) (s : State) : (s.onMgmt f).composer = s.composer := rfl
@[simp] theorem State.onMgmt_labels (f : Responder → Responder) (s : State) : (s.onMgmt f).labels = s.labels := rfl
@[simp] theorem State.onMgmt_ring (f : Responder → Responder) (s : State) : (s.onMgmt f).ring = s.ring := rfl
@[simp] theorem State.onMgmt_mgmt (f : Responder → Responder) (s : State) : (s.onMgmt f).mgmt = f s.mgmt := rfl
@[simp] theorem State.onMgmt_watch (f : Responder → Responder) (s : State) : (s.onMgmt f).watch = s.watch := rfl
@[simp] theorem State.onMgmt_ctl (f : Responder → Responder) (s : State) : (s.onMgmt f).ctl = s.ctl := rfl
@[simp] theorem State.onMgmt_pending (f : Responder → Responder) (s : State) : (s.onMgmt f).pending = s.pending := rfl

/-! ### onCtl -/

@[simp] theorem State.onCtl_refs (f : ModeControl → ModeControl) (s : State) : (s.onCtl f).refs = s.refs := rfl
@[simp] theorem State.onCtl_holds (f : ModeControl → ModeControl) (s : State) : (s.onCtl f).holds = s.holds := rfl
@[simp] theorem State.onCtl_tracker (f : ModeControl → ModeControl) (s : State) : (s.onCtl f).tracker = s.tracker := rfl
@[simp] theorem State.onCtl_recon (f : ModeControl → ModeControl) (s : State) : (s.onCtl f).recon = s.recon := rfl
@[simp] theorem State.onCtl_alloc (f : ModeControl → ModeControl) (s : State) : (s.onCtl f).alloc = s.alloc := rfl
@[simp] theorem State.onCtl_composer (f : ModeControl → ModeControl) (s : State) : (s.onCtl f).composer = s.composer := rfl
@[simp] theorem State.onCtl_labels (f : ModeControl → ModeControl) (s : State) : (s.onCtl f).labels = s.labels := rfl
@[simp] theorem State.onCtl_ring (f : ModeControl → ModeControl) (s : State) : (s.onCtl f).ring = s.ring := rfl
@[simp] theorem State.onCtl_mgmt (f : ModeControl → ModeControl) (s : State) : (s.onCtl f).mgmt = s.mgmt := rfl
@[simp] theorem State.onCtl_watch (f : ModeControl → ModeControl) (s : State) : (s.onCtl f).watch = s.watch := rfl
@[simp] theorem State.onCtl_ctl (f : ModeControl → ModeControl) (s : State) : (s.onCtl f).ctl = f s.ctl := rfl
@[simp] theorem State.onCtl_pending (f : ModeControl → ModeControl) (s : State) : (s.onCtl f).pending = s.pending := rfl

/-! ### onScreen -/

@[simp] theorem State.onScreen_refs (n : ScreenNo) (f : Screen → Screen) (s : State) :
    (s.onScreen n f).refs = s.refs := rfl
@[simp] theorem State.onScreen_holds (n : ScreenNo) (f : Screen → Screen) (s : State) :
    (s.onScreen n f).holds = s.holds := rfl
@[simp] theorem State.onScreen_tracker (n : ScreenNo) (f : Screen → Screen) (s : State) :
    (s.onScreen n f).tracker = s.tracker := rfl
@[simp] theorem State.onScreen_recon (n : ScreenNo) (f : Screen → Screen) (s : State) :
    (s.onScreen n f).recon = s.recon := rfl
@[simp] theorem State.onScreen_alloc (n : ScreenNo) (f : Screen → Screen) (s : State) :
    (s.onScreen n f).alloc = s.alloc := rfl
@[simp] theorem State.onScreen_composer (n : ScreenNo) (f : Screen → Screen) (s : State) :
    (s.onScreen n f).composer = s.composer := rfl
@[simp] theorem State.onScreen_labels (n : ScreenNo) (f : Screen → Screen) (s : State) :
    (s.onScreen n f).labels = s.labels := rfl
@[simp] theorem State.onScreen_ring (n : ScreenNo) (f : Screen → Screen) (s : State) :
    (s.onScreen n f).ring = s.ring := rfl
@[simp] theorem State.onScreen_mgmt (n : ScreenNo) (f : Screen → Screen) (s : State) :
    (s.onScreen n f).mgmt = s.mgmt := rfl
@[simp] theorem State.onScreen_watch (n : ScreenNo) (f : Screen → Screen) (s : State) :
    (s.onScreen n f).watch = s.watch.set n (f s.watch[n]) := rfl
@[simp] theorem State.onScreen_ctl (n : ScreenNo) (f : Screen → Screen) (s : State) :
    (s.onScreen n f).ctl = s.ctl := rfl
@[simp] theorem State.onScreen_pending (n : ScreenNo) (f : Screen → Screen) (s : State) :
    (s.onScreen n f).pending = s.pending := rfl

/-! ### Contexts, lanes, wrappers, the car and the scales: the other blocks -/

@[simp] theorem State.putCtx_refs (i : Slot) (c : Option Context) (s : State) : (s.putCtx i c).refs = s.refs := rfl
@[simp] theorem State.putCtx_holds (i : Slot) (c : Option Context) (s : State) : (s.putCtx i c).holds = s.holds := rfl
@[simp] theorem State.putCtx_recon (i : Slot) (c : Option Context) (s : State) : (s.putCtx i c).recon = s.recon := rfl
@[simp] theorem State.putCtx_alloc (i : Slot) (c : Option Context) (s : State) : (s.putCtx i c).alloc = s.alloc := rfl
@[simp] theorem State.putCtx_composer (i : Slot) (c : Option Context) (s : State) : (s.putCtx i c).composer = s.composer := rfl
@[simp] theorem State.putCtx_labels (i : Slot) (c : Option Context) (s : State) : (s.putCtx i c).labels = s.labels := rfl
@[simp] theorem State.putCtx_ring (i : Slot) (c : Option Context) (s : State) : (s.putCtx i c).ring = s.ring := rfl
@[simp] theorem State.putCtx_mgmt (i : Slot) (c : Option Context) (s : State) : (s.putCtx i c).mgmt = s.mgmt := rfl
@[simp] theorem State.putCtx_watch (i : Slot) (c : Option Context) (s : State) : (s.putCtx i c).watch = s.watch := rfl
@[simp] theorem State.putCtx_ctl (i : Slot) (c : Option Context) (s : State) : (s.putCtx i c).ctl = s.ctl := rfl
@[simp] theorem State.putCtx_pending (i : Slot) (c : Option Context) (s : State) : (s.putCtx i c).pending = s.pending := rfl
@[simp] theorem State.modCtx_refs (i : Slot) (f : Context → Context) (s : State) : (s.modCtx i f).refs = s.refs := rfl
@[simp] theorem State.modCtx_holds (i : Slot) (f : Context → Context) (s : State) : (s.modCtx i f).holds = s.holds := rfl
@[simp] theorem State.modCtx_recon (i : Slot) (f : Context → Context) (s : State) : (s.modCtx i f).recon = s.recon := rfl
@[simp] theorem State.modCtx_alloc (i : Slot) (f : Context → Context) (s : State) : (s.modCtx i f).alloc = s.alloc := rfl
@[simp] theorem State.modCtx_composer (i : Slot) (f : Context → Context) (s : State) : (s.modCtx i f).composer = s.composer := rfl
@[simp] theorem State.modCtx_labels (i : Slot) (f : Context → Context) (s : State) : (s.modCtx i f).labels = s.labels := rfl
@[simp] theorem State.modCtx_ring (i : Slot) (f : Context → Context) (s : State) : (s.modCtx i f).ring = s.ring := rfl
@[simp] theorem State.modCtx_mgmt (i : Slot) (f : Context → Context) (s : State) : (s.modCtx i f).mgmt = s.mgmt := rfl
@[simp] theorem State.modCtx_watch (i : Slot) (f : Context → Context) (s : State) : (s.modCtx i f).watch = s.watch := rfl
@[simp] theorem State.modCtx_ctl (i : Slot) (f : Context → Context) (s : State) : (s.modCtx i f).ctl = s.ctl := rfl
@[simp] theorem State.modCtx_pending (i : Slot) (f : Context → Context) (s : State) : (s.modCtx i f).pending = s.pending := rfl
@[simp] theorem State.modLane_refs (l : Lane) (f : LaneRecord → LaneRecord) (s : State) : (s.modLane l f).refs = s.refs := rfl
@[simp] theorem State.modLane_holds (l : Lane) (f : LaneRecord → LaneRecord) (s : State) : (s.modLane l f).holds = s.holds := rfl
@[simp] theorem State.modLane_recon (l : Lane) (f : LaneRecord → LaneRecord) (s : State) : (s.modLane l f).recon = s.recon := rfl
@[simp] theorem State.modLane_alloc (l : Lane) (f : LaneRecord → LaneRecord) (s : State) : (s.modLane l f).alloc = s.alloc := rfl
@[simp] theorem State.modLane_composer (l : Lane) (f : LaneRecord → LaneRecord) (s : State) : (s.modLane l f).composer = s.composer := rfl
@[simp] theorem State.modLane_labels (l : Lane) (f : LaneRecord → LaneRecord) (s : State) : (s.modLane l f).labels = s.labels := rfl
@[simp] theorem State.modLane_ring (l : Lane) (f : LaneRecord → LaneRecord) (s : State) : (s.modLane l f).ring = s.ring := rfl
@[simp] theorem State.modLane_mgmt (l : Lane) (f : LaneRecord → LaneRecord) (s : State) : (s.modLane l f).mgmt = s.mgmt := rfl
@[simp] theorem State.modLane_watch (l : Lane) (f : LaneRecord → LaneRecord) (s : State) : (s.modLane l f).watch = s.watch := rfl
@[simp] theorem State.modLane_ctl (l : Lane) (f : LaneRecord → LaneRecord) (s : State) : (s.modLane l f).ctl = s.ctl := rfl
@[simp] theorem State.modLane_pending (l : Lane) (f : LaneRecord → LaneRecord) (s : State) : (s.modLane l f).pending = s.pending := rfl
@[simp] theorem State.enter_refs (i : Slot) (p : Phase) (t : Option Nat) (s : State) : (s.enter i p t).refs = s.refs := rfl
@[simp] theorem State.enter_holds (i : Slot) (p : Phase) (t : Option Nat) (s : State) : (s.enter i p t).holds = s.holds := rfl
@[simp] theorem State.enter_recon (i : Slot) (p : Phase) (t : Option Nat) (s : State) : (s.enter i p t).recon = s.recon := rfl
@[simp] theorem State.enter_alloc (i : Slot) (p : Phase) (t : Option Nat) (s : State) : (s.enter i p t).alloc = s.alloc := rfl
@[simp] theorem State.enter_composer (i : Slot) (p : Phase) (t : Option Nat) (s : State) : (s.enter i p t).composer = s.composer := rfl
@[simp] theorem State.enter_labels (i : Slot) (p : Phase) (t : Option Nat) (s : State) : (s.enter i p t).labels = s.labels := rfl
@[simp] theorem State.enter_ring (i : Slot) (p : Phase) (t : Option Nat) (s : State) : (s.enter i p t).ring = s.ring := rfl
@[simp] theorem State.enter_mgmt (i : Slot) (p : Phase) (t : Option Nat) (s : State) : (s.enter i p t).mgmt = s.mgmt := rfl
@[simp] theorem State.enter_watch (i : Slot) (p : Phase) (t : Option Nat) (s : State) : (s.enter i p t).watch = s.watch := rfl
@[simp] theorem State.enter_ctl (i : Slot) (p : Phase) (t : Option Nat) (s : State) : (s.enter i p t).ctl = s.ctl := rfl
@[simp] theorem State.enter_pending (i : Slot) (p : Phase) (t : Option Nat) (s : State) : (s.enter i p t).pending = s.pending := rfl
@[simp] theorem State.stopTimer_refs (i : Slot) (s : State) : (s.stopTimer i).refs = s.refs := rfl
@[simp] theorem State.stopTimer_holds (i : Slot) (s : State) : (s.stopTimer i).holds = s.holds := rfl
@[simp] theorem State.stopTimer_recon (i : Slot) (s : State) : (s.stopTimer i).recon = s.recon := rfl
@[simp] theorem State.stopTimer_alloc (i : Slot) (s : State) : (s.stopTimer i).alloc = s.alloc := rfl
@[simp] theorem State.stopTimer_composer (i : Slot) (s : State) : (s.stopTimer i).composer = s.composer := rfl
@[simp] theorem State.stopTimer_labels (i : Slot) (s : State) : (s.stopTimer i).labels = s.labels := rfl
@[simp] theorem State.stopTimer_ring (i : Slot) (s : State) : (s.stopTimer i).ring = s.ring := rfl
@[simp] theorem State.stopTimer_mgmt (i : Slot) (s : State) : (s.stopTimer i).mgmt = s.mgmt := rfl
@[simp] theorem State.stopTimer_watch (i : Slot) (s : State) : (s.stopTimer i).watch = s.watch := rfl
@[simp] theorem State.stopTimer_ctl (i : Slot) (s : State) : (s.stopTimer i).ctl = s.ctl := rfl
@[simp] theorem State.stopTimer_pending (i : Slot) (s : State) : (s.stopTimer i).pending = s.pending := rfl
@[simp] theorem State.modWrapper_refs (w : WrapperNo) (f : Wrapper → Wrapper) (s : State) : (s.modWrapper w f).refs = s.refs := rfl
@[simp] theorem State.modWrapper_holds (w : WrapperNo) (f : Wrapper → Wrapper) (s : State) : (s.modWrapper w f).holds = s.holds := rfl
@[simp] theorem State.modWrapper_tracker (w : WrapperNo) (f : Wrapper → Wrapper) (s : State) : (s.modWrapper w f).tracker = s.tracker := rfl
@[simp] theorem State.modWrapper_recon (w : WrapperNo) (f : Wrapper → Wrapper) (s : State) : (s.modWrapper w f).recon = s.recon := rfl
@[simp] theorem State.modWrapper_composer (w : WrapperNo) (f : Wrapper → Wrapper) (s : State) : (s.modWrapper w f).composer = s.composer := rfl
@[simp] theorem State.modWrapper_labels (w : WrapperNo) (f : Wrapper → Wrapper) (s : State) : (s.modWrapper w f).labels = s.labels := rfl
@[simp] theorem State.modWrapper_ring (w : WrapperNo) (f : Wrapper → Wrapper) (s : State) : (s.modWrapper w f).ring = s.ring := rfl
@[simp] theorem State.modWrapper_mgmt (w : WrapperNo) (f : Wrapper → Wrapper) (s : State) : (s.modWrapper w f).mgmt = s.mgmt := rfl
@[simp] theorem State.modWrapper_watch (w : WrapperNo) (f : Wrapper → Wrapper) (s : State) : (s.modWrapper w f).watch = s.watch := rfl
@[simp] theorem State.modWrapper_ctl (w : WrapperNo) (f : Wrapper → Wrapper) (s : State) : (s.modWrapper w f).ctl = s.ctl := rfl
@[simp] theorem State.modWrapper_pending (w : WrapperNo) (f : Wrapper → Wrapper) (s : State) : (s.modWrapper w f).pending = s.pending := rfl
@[simp] theorem State.modCar_refs (f : Car → Car) (s : State) : (s.modCar f).refs = s.refs := rfl
@[simp] theorem State.modCar_holds (f : Car → Car) (s : State) : (s.modCar f).holds = s.holds := rfl
@[simp] theorem State.modCar_tracker (f : Car → Car) (s : State) : (s.modCar f).tracker = s.tracker := rfl
@[simp] theorem State.modCar_recon (f : Car → Car) (s : State) : (s.modCar f).recon = s.recon := rfl
@[simp] theorem State.modCar_composer (f : Car → Car) (s : State) : (s.modCar f).composer = s.composer := rfl
@[simp] theorem State.modCar_labels (f : Car → Car) (s : State) : (s.modCar f).labels = s.labels := rfl
@[simp] theorem State.modCar_ring (f : Car → Car) (s : State) : (s.modCar f).ring = s.ring := rfl
@[simp] theorem State.modCar_mgmt (f : Car → Car) (s : State) : (s.modCar f).mgmt = s.mgmt := rfl
@[simp] theorem State.modCar_watch (f : Car → Car) (s : State) : (s.modCar f).watch = s.watch := rfl
@[simp] theorem State.modCar_ctl (f : Car → Car) (s : State) : (s.modCar f).ctl = s.ctl := rfl
@[simp] theorem State.modCar_pending (f : Car → Car) (s : State) : (s.modCar f).pending = s.pending := rfl
@[simp] theorem State.putScale_refs (l : Lane) (x : Scale) (s : State) : (s.putScale l x).refs = s.refs := rfl
@[simp] theorem State.putScale_holds (l : Lane) (x : Scale) (s : State) : (s.putScale l x).holds = s.holds := rfl
@[simp] theorem State.putScale_tracker (l : Lane) (x : Scale) (s : State) : (s.putScale l x).tracker = s.tracker := rfl
@[simp] theorem State.putScale_alloc (l : Lane) (x : Scale) (s : State) : (s.putScale l x).alloc = s.alloc := rfl
@[simp] theorem State.putScale_composer (l : Lane) (x : Scale) (s : State) : (s.putScale l x).composer = s.composer := rfl
@[simp] theorem State.putScale_labels (l : Lane) (x : Scale) (s : State) : (s.putScale l x).labels = s.labels := rfl
@[simp] theorem State.putScale_ring (l : Lane) (x : Scale) (s : State) : (s.putScale l x).ring = s.ring := rfl
@[simp] theorem State.putScale_mgmt (l : Lane) (x : Scale) (s : State) : (s.putScale l x).mgmt = s.mgmt := rfl
@[simp] theorem State.putScale_watch (l : Lane) (x : Scale) (s : State) : (s.putScale l x).watch = s.watch := rfl
@[simp] theorem State.putScale_ctl (l : Lane) (x : Scale) (s : State) : (s.putScale l x).ctl = s.ctl := rfl
@[simp] theorem State.putScale_pending (l : Lane) (x : Scale) (s : State) : (s.putScale l x).pending = s.pending := rfl
@[simp] theorem State.callArbiter_refs (s : State) : s.callArbiter.refs = s.refs := rfl
@[simp] theorem State.callArbiter_holds (s : State) : s.callArbiter.holds = s.holds := rfl
@[simp] theorem State.callArbiter_tracker (s : State) : s.callArbiter.tracker = s.tracker := rfl
@[simp] theorem State.callArbiter_recon (s : State) : s.callArbiter.recon = s.recon := rfl
@[simp] theorem State.callArbiter_composer (s : State) : s.callArbiter.composer = s.composer := rfl
@[simp] theorem State.callArbiter_labels (s : State) : s.callArbiter.labels = s.labels := rfl
@[simp] theorem State.callArbiter_ring (s : State) : s.callArbiter.ring = s.ring := rfl
@[simp] theorem State.callArbiter_mgmt (s : State) : s.callArbiter.mgmt = s.mgmt := rfl
@[simp] theorem State.callArbiter_watch (s : State) : s.callArbiter.watch = s.watch := rfl
@[simp] theorem State.callArbiter_ctl (s : State) : s.callArbiter.ctl = s.ctl := rfl
@[simp] theorem State.callArbiter_pending (s : State) : s.callArbiter.pending = s.pending := rfl
@[simp] theorem State.modPlan_holds (n : Nat) (f : Plan → Plan) (s : State) : (s.modPlan n f).holds = s.holds := rfl
@[simp] theorem State.modPlan_tracker (n : Nat) (f : Plan → Plan) (s : State) : (s.modPlan n f).tracker = s.tracker := rfl
@[simp] theorem State.modPlan_recon (n : Nat) (f : Plan → Plan) (s : State) : (s.modPlan n f).recon = s.recon := rfl
@[simp] theorem State.modPlan_alloc (n : Nat) (f : Plan → Plan) (s : State) : (s.modPlan n f).alloc = s.alloc := rfl
@[simp] theorem State.modPlan_composer (n : Nat) (f : Plan → Plan) (s : State) : (s.modPlan n f).composer = s.composer := rfl
@[simp] theorem State.modPlan_labels (n : Nat) (f : Plan → Plan) (s : State) : (s.modPlan n f).labels = s.labels := rfl
@[simp] theorem State.modPlan_ring (n : Nat) (f : Plan → Plan) (s : State) : (s.modPlan n f).ring = s.ring := rfl
@[simp] theorem State.modPlan_mgmt (n : Nat) (f : Plan → Plan) (s : State) : (s.modPlan n f).mgmt = s.mgmt := rfl
@[simp] theorem State.modPlan_watch (n : Nat) (f : Plan → Plan) (s : State) : (s.modPlan n f).watch = s.watch := rfl
@[simp] theorem State.modPlan_ctl (n : Nat) (f : Plan → Plan) (s : State) : (s.modPlan n f).ctl = s.ctl := rfl
@[simp] theorem State.modPlan_pending (n : Nat) (f : Plan → Plan) (s : State) : (s.modPlan n f).pending = s.pending := rfl

/-! ### Contexts: what a slot holds after an update -/

theorem State.ctx_putCtx (i j : Slot) (c : Option Context) (s : State) :
    (s.putCtx i c).ctx j = if i = j then c else s.ctx j := by
  simp only [State.ctx, State.putCtx, State.onTracker, Fin.getElem_fin, Vector.getElem_set, Fin.val_inj]

@[simp] theorem State.ctx_putCtx_self (i : Slot) (c : Option Context) (s : State) : (s.putCtx i c).ctx i = c := by
  rw [State.ctx_putCtx, if_pos rfl]

theorem State.ctx_putCtx_of_ne {i j : Slot} (h : i ≠ j) (c : Option Context) (s : State) :
    (s.putCtx i c).ctx j = s.ctx j := by
  rw [State.ctx_putCtx, if_neg h]

theorem State.ctx_modCtx (i j : Slot) (f : Context → Context) (s : State) :
    (s.modCtx i f).ctx j = if i = j then (s.ctx i).map f else s.ctx j := State.ctx_putCtx i j _ s

@[simp] theorem State.ctx_modCtx_self (i : Slot) (f : Context → Context) (s : State) :
    (s.modCtx i f).ctx i = (s.ctx i).map f := State.ctx_putCtx_self i _ s

theorem State.ctx_modCtx_of_ne {i j : Slot} (h : i ≠ j) (f : Context → Context) (s : State) :
    (s.modCtx i f).ctx j = s.ctx j := State.ctx_putCtx_of_ne h _ s

@[simp] theorem State.putCtx_lanes (i : Slot) (c : Option Context) (s : State) :
    (s.putCtx i c).tracker.lanes = s.tracker.lanes := rfl

@[simp] theorem State.modCtx_lanes (i : Slot) (f : Context → Context) (s : State) :
    (s.modCtx i f).tracker.lanes = s.tracker.lanes := rfl

@[simp] theorem State.modLane_ctx (l : Lane) (f : LaneRecord → LaneRecord) (s : State) (i : Slot) :
    (s.modLane l f).ctx i = s.ctx i := rfl

theorem State.queue_modLane (l m : Lane) (f : LaneRecord → LaneRecord) (s : State) :
    (s.modLane l f).queue m = if l = m then (f s.tracker.lanes[l]).queue else s.queue m := by
  simp only [State.queue, State.modLane, State.onTracker, Fin.getElem_fin, Vector.getElem_set, Fin.val_inj]
  split <;> rfl

theorem State.wrapper_modWrapper (w v : WrapperNo) (f : Wrapper → Wrapper) (s : State) :
    (s.modWrapper w f).wrapper v = if w = v then f (s.wrapper w) else s.wrapper v := by
  simp only [State.wrapper, State.modWrapper, State.onAlloc, Fin.getElem_fin, Vector.getElem_set, Fin.val_inj]

@[simp] theorem State.modWrapper_car (w : WrapperNo) (f : Wrapper → Wrapper) (s : State) :
    (s.modWrapper w f).alloc.car = s.alloc.car := rfl

@[simp] theorem State.modCar_car (f : Car → Car) (s : State) : (s.modCar f).alloc.car = f s.alloc.car := rfl

@[simp] theorem State.modCar_wrapper (f : Car → Car) (s : State) (w : WrapperNo) :
    (s.modCar f).wrapper w = s.wrapper w := rfl

theorem State.scale_putScale (l m : Lane) (x : Scale) (s : State) :
    (s.putScale l x).scale m = if l = m then x else s.scale m := by
  simp only [State.scale, State.putScale, State.onRecon, Fin.getElem_fin, Vector.getElem_set, Fin.val_inj]

end Sys2Proof.Machine
end

