-- ==== Sys2Proof/Laws/Only.lean ====
section
/-! SUPPORT. Sys2Proof/Laws/Only.lean: the relation "only these blocks may differ" composes, and what each update of
Machine/Ops.lean gives of it. -/

namespace Sys2Proof.Machine

open Sys2Proof

theorem State.Only.refl (bs : List Block) (s : State) : State.Only bs s s :=
  ⟨.inr rfl, .inr rfl, .inr rfl, .inr rfl, .inr rfl, .inr rfl, .inr rfl, .inr rfl, .inr rfl, .inr rfl, .inr rfl,
    .inr rfl⟩

theorem State.Only.trans {bs : List Block} {s t u : State} (h : State.Only bs s t) (k : State.Only bs t u) :
    State.Only bs s u where
  refs := k.refs.elim .inl fun e => h.refs.imp id e.trans
  holds := k.holds.elim .inl fun e => h.holds.imp id e.trans
  tracker := k.tracker.elim .inl fun e => h.tracker.imp id e.trans
  recon := k.recon.elim .inl fun e => h.recon.imp id e.trans
  alloc := k.alloc.elim .inl fun e => h.alloc.imp id e.trans
  composer := k.composer.elim .inl fun e => h.composer.imp id e.trans
  labels := k.labels.elim .inl fun e => h.labels.imp id e.trans
  ring := k.ring.elim .inl fun e => h.ring.imp id e.trans
  mgmt := k.mgmt.elim .inl fun e => h.mgmt.imp id e.trans
  watch := k.watch.elim .inl fun e => h.watch.imp id e.trans
  ctl := k.ctl.elim .inl fun e => h.ctl.imp id e.trans
  pending := k.pending.elim .inl fun e => h.pending.imp id e.trans

theorem State.Only.mono {bs cs : List Block} {s t : State} (h : State.Only bs s t) (sub : bs ⊆ cs) :
    State.Only cs s t where
  refs := h.refs.imp (fun m => sub m) id
  holds := h.holds.imp (fun m => sub m) id
  tracker := h.tracker.imp (fun m => sub m) id
  recon := h.recon.imp (fun m => sub m) id
  alloc := h.alloc.imp (fun m => sub m) id
  composer := h.composer.imp (fun m => sub m) id
  labels := h.labels.imp (fun m => sub m) id
  ring := h.ring.imp (fun m => sub m) id
  mgmt := h.mgmt.imp (fun m => sub m) id
  watch := h.watch.imp (fun m => sub m) id
  ctl := h.ctl.imp (fun m => sub m) id
  pending := h.pending.imp (fun m => sub m) id

theorem State.Only.ite {bs : List Block} {s t u : State} {p : Prop} [Decidable p] (h : State.Only bs s t)
    (k : State.Only bs s u) : State.Only bs s (if p then t else u) := by
  split <;> assumption

theorem State.onRefs_only (f : RefTables → RefTables) (s : State) : State.Only [.refs] s (s.onRefs f) := by
  constructor <;> simp
theorem State.onHolds_only (f : HoldRegister → HoldRegister) (s : State) : State.Only [.holds] s (s.onHolds f) := by
  constructor <;> simp
theorem State.onTracker_only (f : Tracker → Tracker) (s : State) : State.Only [.tracker] s (s.onTracker f) := by
  constructor <;> simp
theorem State.onRecon_only (f : Reconciler → Reconciler) (s : State) : State.Only [.recon] s (s.onRecon f) := by
  constructor <;> simp
theorem State.onAlloc_only (f : Allocator → Allocator) (s : State) : State.Only [.alloc] s (s.onAlloc f) := by
  constructor <;> simp
theorem State.onComposer_only (f : Composer → Composer) (s : State) :
    State.Only [.composer] s (s.onComposer f) := by
  constructor <;> simp
theorem State.onLabels_only (f : Dispatcher → Dispatcher) (s : State) : State.Only [.labels] s (s.onLabels f) := by
  constructor <;> simp
theorem State.onRing_only (f : RingPort → RingPort) (s : State) : State.Only [.ring] s (s.onRing f) := by
  constructor <;> simp
theorem State.onMgmt_only (f : Responder → Responder) (s : State) : State.Only [.mgmt] s (s.onMgmt f) := by
  constructor <;> simp
theorem State.onScreen_only (n : ScreenNo) (f : Screen → Screen) (s : State) :
    State.Only [.watch] s (s.onScreen n f) := by
  constructor <;> simp
theorem State.onCtl_only (f : ModeControl → ModeControl) (s : State) : State.Only [.ctl] s (s.onCtl f) := by
  constructor <;> simp
theorem State.putCtx_only (i : Slot) (c : Option Context) (s : State) : State.Only [.tracker] s (s.putCtx i c) := by
  constructor <;> simp
theorem State.modCtx_only (i : Slot) (f : Context → Context) (s : State) :
    State.Only [.tracker] s (s.modCtx i f) := by
  constructor <;> simp
theorem State.modLane_only (l : Lane) (f : LaneRecord → LaneRecord) (s : State) :
    State.Only [.tracker] s (s.modLane l f) := by
  constructor <;> simp
theorem State.modWrapper_only (w : WrapperNo) (f : Wrapper → Wrapper) (s : State) :
    State.Only [.alloc] s (s.modWrapper w f) := by
  constructor <;> simp
theorem State.modCar_only (f : Car → Car) (s : State) : State.Only [.alloc] s (s.modCar f) := by
  constructor <;> simp

end Sys2Proof.Machine
end

