-- ==== Sys2Proof/Laws/Emit.lean ====
section
/-! SUPPORT. Sys2Proof/Laws/Emit.lean: what the emissions of Machine/Emit.lean may change: a holder's own record, the
origin queue and the pending list, and for reports and replies the Responder; nothing else. -/

namespace Sys2Proof.Machine

open Sys2Proof

/-- The blocks a holder's placing may change. -/
def Holder.blocks : Holder → List Block
  | .context _ => [.ring, .tracker]
  | .closure _ => [.ring]
  | .infeed _ => [.ring, .tracker]
  | .car => [.ring, .alloc]
  | .wrapOrder _ => [.ring, .alloc]
  | .wrapOutput _ => [.ring, .alloc]
  | .replies => [.ring, .mgmt]
  | .reports => [.ring, .mgmt]
  | .escapes => [.ring, .mgmt, .holds]

theorem Holder.ring_mem (h : Holder) : [Block.ring] ⊆ h.blocks := by cases h <;> simp [Holder.blocks]

theorem State.takeReport_only (k : Nat) (fs : List (List Byte)) (s : State) :
    State.Only [.mgmt] s (s.takeReport k fs).2 := by
  unfold State.takeReport; split <;> dsimp only <;> exact State.onMgmt_only _ _

theorem State.take_only (h : Holder) (s : State) : State.Only h.blocks s (s.take h).2 := by
  have tr : ∀ {u : State} {bs : List Block}, State.Only [.tracker] s u → State.Only (.ring :: .tracker :: bs) s u :=
    fun k => k.mono (by simp)
  have al : ∀ {u : State} {bs : List Block}, State.Only [.alloc] s u → State.Only (.ring :: .alloc :: bs) s u :=
    fun k => k.mono (by simp)
  have mg : ∀ {u : State} {bs : List Block}, State.Only [.mgmt] s u → State.Only (.ring :: .mgmt :: bs) s u :=
    fun k => k.mono (by simp)
  cases h with
  | context i => simp only [State.take]; split <;> dsimp only
                 · exact tr (State.modCtx_only _ _ _)
                 · exact .refl _ _
  | closure id => simp only [State.take]; split <;> dsimp only
                  · exact State.onRing_only _ _
                  · exact .refl _ _
  | infeed l => simp only [State.take]; repeat' split
                all_goals dsimp only
                all_goals first | exact .refl _ _ | exact tr (State.modLane_only _ _ _)
  | car => simp only [State.take]; split <;> dsimp only
           · exact al (State.modCar_only _ _)
           · exact .refl _ _
  | wrapOrder w => simp only [State.take]; split <;> dsimp only
                   · exact al (State.modWrapper_only _ _ _)
                   · exact .refl _ _
  | wrapOutput w => simp only [State.take]; repeat' split
                    all_goals dsimp only
                    all_goals first | exact .refl _ _ | exact al (State.modWrapper_only _ _ _)
  | replies => simp only [State.take]; split <;> dsimp only
               · exact mg (State.onMgmt_only _ _)
               · exact .refl _ _
  | reports => simp only [State.take]; split
               · exact mg ((State.onMgmt_only _ _).trans (State.takeReport_only _ _ _))
               · exact .refl _ _
  | escapes =>
    simp only [State.take]
    split
    · have up : ∀ {t u : State}, State.Only [.mgmt] t u → State.Only [.ring, .mgmt, .holds] t u :=
        fun k => k.mono (by simp)
      have uh : ∀ {t u : State}, State.Only [.holds] t u → State.Only [.ring, .mgmt, .holds] t u :=
        fun k => k.mono (by simp)
      have k := fun f n fs => (uh (State.onHolds_only f s)).trans (up (State.takeReport_only n fs _))
      dsimp only
      split
      · exact (k _ _ _).trans (uh (State.onHolds_only _ _))
      · exact k _ _ _
    · exact .refl _ _

theorem State.place_only (t : Telegram) (s : State) : State.Only [.ring] s (s.place t) := State.onRing_only _ _

theorem State.giveOne_only (h : Holder) (s : State) : State.Only h.blocks s (s.giveOne h) := by
  have k := State.take_only h s
  unfold State.giveOne
  split <;> rename_i e <;> rw [e] at k
  · exact k.trans ((State.place_only _ _).mono h.ring_mem)
  · exact k

theorem State.giveMany_only (n : Nat) (h : Holder) (s : State) : State.Only h.blocks s (State.giveMany n h s) := by
  induction n generalizing s with
  | zero => exact .refl _ _
  | succ n ih => simp only [State.giveMany]; split
                 · exact (State.giveOne_only h s).trans (ih _)
                 · exact .refl _ _

theorem State.joinPending_only (h : Holder) (s : State) : State.Only [.ring] s (s.joinPending h) :=
  State.onRing_only _ _

/-- A holder with something newly formed changes only its own record, the queues and, for reports, the
Responder. -/
theorem State.offer_only (h : Holder) (s : State) : State.Only h.blocks s (s.offer h) := by
  have k : State.Only h.blocks s (if s.ring.waiting.isEmpty then s.giveMany (s.heldCount h) h else s) :=
    (State.giveMany_only _ _ _).ite (.refl _ _)
  unfold State.offer
  split
  · exact .refl _ _
  · exact State.Only.ite (k.trans ((State.joinPending_only _ _).mono h.ring_mem)) k

/-- What a holder with one telegram does with it (R156): on the pending list it stays; with nothing waiting and room it
gives the telegram; else it joins the pending list. -/
theorem State.offer_one {h : Holder} {s : State} (one : s.heldCount h = 1) :
    s.offer h =
      if h ∈ s.ring.waiting then s
      else if s.ring.waiting = [] ∧ s.ring.origin.length < Config.originMax then
        if (s.giveOne h).hasMore h then (s.giveOne h).joinPending h else s.giveOne h
      else s.joinPending h := by
  have more : s.hasMore h = true := by simp [State.hasMore, one]
  unfold State.offer
  by_cases hw : s.ring.waiting = []
  · by_cases room : s.ring.origin.length < Config.originMax <;>
      simp [hw, one, more, State.giveMany, State.room, room]
  · simp [hw, more]

theorem State.prune_only (h : Holder) (s : State) : State.Only [.ring] s (s.prune h) := by
  unfold State.prune; exact State.Only.ite (.refl _ _) (State.onRing_only _ _)

/-- A report changes only the Ring Port and the Responder. -/
theorem State.report_only (r : Report) (s : State) : State.Only [.ring, .mgmt] s (s.report r) := by
  unfold State.report
  split
  · exact ((State.onMgmt_only _ _).mono (by simp)).trans (State.offer_only .reports _)
  · exact (State.onMgmt_only _ _).mono (by simp)

/-- A reply changes only the Ring Port and the Responder. -/
theorem State.reply_only (r : Reply) (s : State) : State.Only [.ring, .mgmt] s (s.reply r) :=
  ((State.onMgmt_only _ _).mono (by simp)).trans (State.offer_only .replies _)

theorem State.stray_only (k src : Byte) (l : Option Lane) (t : Option Text) (c : StrayCause) (s : State) :
    State.Only [.ring, .mgmt] s (s.stray k src l t c) := State.report_only _ _

theorem State.overload_only (c : RingCause) (r : RingReport) (s : State) :
    State.Only [.ring, .mgmt] s (s.overload c r) := by
  unfold State.overload
  split
  · exact ((State.onRing_only _ _).mono (by simp)).trans (State.report_only _ _)
  · exact .refl _ _

/-- An ESCAPE report changes only the escape queue, the Ring Port and the Responder. -/
theorem State.escape_only (e : EscapeReport) (s : State) : State.Only [.ring, .mgmt, .holds] s (s.escape e) := by
  unfold State.escape
  split
  · exact ((State.onHolds_only _ _).mono (by simp)).trans (State.offer_only .escapes _)
  · exact (State.onHolds_only _ _).mono (by simp)

theorem State.sendOrders_only (i : Slot) (os : List Order) (s : State) :
    State.Only [.ring, .tracker] s (s.sendOrders i os) :=
  ((State.modCtx_only _ _ _).mono (by simp)).trans (State.offer_only (.context i) _)

theorem State.sendInfeed_only (l : Lane) (c : InfeedCmd) (s : State) :
    State.Only [.ring, .tracker] s (s.sendInfeed l c) := by
  simp only [State.sendInfeed]
  split
  · exact ((State.modLane_only _ _ _).mono (by simp)).trans ((State.prune_only _ _).mono (by simp))
  · exact ((State.modLane_only _ _ _).mono (by simp)).trans (State.offer_only (.infeed l) _)

theorem State.sendCarMove_only (m : CarMove) (s : State) : State.Only [.ring, .alloc] s (s.sendCarMove m) :=
  ((State.modCar_only _ _).mono (by simp)).trans (State.offer_only .car _)

theorem State.sendWrapOrder_only (w : WrapperNo) (o : WrapOrder) (s : State) :
    State.Only [.ring, .alloc] s (s.sendWrapOrder w o) :=
  ((State.modWrapper_only _ _ _).mono (by simp)).trans (State.offer_only (.wrapOrder w) _)

theorem State.sendOutput_only (w : WrapperNo) (c : OutputCmd) (s : State) :
    State.Only [.ring, .alloc] s (s.sendOutput w c) := by
  simp only [State.sendOutput]
  split
  · exact ((State.modWrapper_only _ _ _).mono (by simp)).trans ((State.prune_only _ _).mono (by simp))
  · exact ((State.modWrapper_only _ _ _).mono (by simp)).trans (State.offer_only (.wrapOutput w) _)

theorem State.forward_only (t : Telegram) (s : State) : State.Only [.ring, .mgmt] s (s.forward t) := by
  unfold State.forward
  split
  · exact (State.onRing_only _ _).mono (by simp)
  · exact State.Only.ite ((State.onRing_only _ _).mono (by simp)) (State.overload_only _ _ _)

/-! ### The blocks that reports and replies leave, as rewriting rules -/

@[simp] theorem State.report_refs (r : Report) (s : State) : (s.report r).refs = s.refs := by
  simpa using (State.report_only r s).refs
@[simp] theorem State.report_holds (r : Report) (s : State) : (s.report r).holds = s.holds := by
  simpa using (State.report_only r s).holds
@[simp] theorem State.report_tracker (r : Report) (s : State) : (s.report r).tracker = s.tracker := by
  simpa using (State.report_only r s).tracker
@[simp] theorem State.report_recon (r : Report) (s : State) : (s.report r).recon = s.recon := by
  simpa using (State.report_only r s).recon
@[simp] theorem State.report_alloc (r : Report) (s : State) : (s.report r).alloc = s.alloc := by
  simpa using (State.report_only r s).alloc
@[simp] theorem State.report_composer (r : Report) (s : State) : (s.report r).composer = s.composer := by
  simpa using (State.report_only r s).composer
@[simp] theorem State.report_labels (r : Report) (s : State) : (s.report r).labels = s.labels := by
  simpa using (State.report_only r s).labels
@[simp] theorem State.report_watch (r : Report) (s : State) : (s.report r).watch = s.watch := by
  simpa using (State.report_only r s).watch
@[simp] theorem State.report_ctl (r : Report) (s : State) : (s.report r).ctl = s.ctl := by
  simpa using (State.report_only r s).ctl
@[simp] theorem State.report_pending (r : Report) (s : State) : (s.report r).pending = s.pending := by
  simpa using (State.report_only r s).pending
@[simp] theorem State.report_ctx (r : Report) (s : State) (i : Slot) : (s.report r).ctx i = s.ctx i := by
  simp [State.ctx]
@[simp] theorem State.reply_refs (r : Reply) (s : State) : (s.reply r).refs = s.refs := by
  simpa using (State.reply_only r s).refs
@[simp] theorem State.reply_holds (r : Reply) (s : State) : (s.reply r).holds = s.holds := by
  simpa using (State.reply_only r s).holds
@[simp] theorem State.reply_tracker (r : Reply) (s : State) : (s.reply r).tracker = s.tracker := by
  simpa using (State.reply_only r s).tracker
@[simp] theorem State.reply_recon (r : Reply) (s : State) : (s.reply r).recon = s.recon := by
  simpa using (State.reply_only r s).recon
@[simp] theorem State.reply_alloc (r : Reply) (s : State) : (s.reply r).alloc = s.alloc := by
  simpa using (State.reply_only r s).alloc
@[simp] theorem State.reply_composer (r : Reply) (s : State) : (s.reply r).composer = s.composer := by
  simpa using (State.reply_only r s).composer
@[simp] theorem State.reply_labels (r : Reply) (s : State) : (s.reply r).labels = s.labels := by
  simpa using (State.reply_only r s).labels
@[simp] theorem State.reply_watch (r : Reply) (s : State) : (s.reply r).watch = s.watch := by
  simpa using (State.reply_only r s).watch
@[simp] theorem State.reply_ctl (r : Reply) (s : State) : (s.reply r).ctl = s.ctl := by
  simpa using (State.reply_only r s).ctl
@[simp] theorem State.reply_pending (r : Reply) (s : State) : (s.reply r).pending = s.pending := by
  simpa using (State.reply_only r s).pending
@[simp] theorem State.reply_ctx (r : Reply) (s : State) (i : Slot) : (s.reply r).ctx i = s.ctx i := by
  simp [State.ctx]

/-! ### What an order of one holder leaves of the others' records -/

/-- Placing for a context's holder leaves every other context, every lane and the admission counter. -/
theorem State.sendOrders_ctx_of_ne {i j : Slot} (h : i ≠ j) (os : List Order) (s : State) :
    (s.sendOrders i os).ctx j = s.ctx j := by
  have tk : ∀ s : State, (s.take (.context i)).2.ctx j = s.ctx j := by
    intro s
    simp only [State.take]
    split
    · exact State.ctx_modCtx_of_ne h _ _
    · rfl
  have one : ∀ s : State, (s.giveOne (.context i)).ctx j = s.ctx j := by
    intro s
    have k := tk s
    unfold State.giveOne
    split <;> rename_i e <;> rw [e] at k <;> exact k
  have many : ∀ n s, (State.giveMany n (.context i) s).ctx j = s.ctx j := by
    intro n
    induction n with
    | zero => intro s; rfl
    | succ n ih => intro s; simp only [State.giveMany]; split
                   · rw [ih, one]
                   · rfl
  have jp : ∀ (s : State), (s.joinPending (.context i)).ctx j = s.ctx j := fun _ => rfl
  rw [State.sendOrders, State.offer]
  split
  · exact State.ctx_modCtx_of_ne h _ _
  · simp only []
    repeat' split
    all_goals simp only [jp, many, State.ctx_modCtx_of_ne h]

/-! ### The waiting segments of a job (R136, R138) -/

/-- A withdrawal keeps every order that is no segment of the job's serial. -/
theorem mem_dropJob_of_other {n : Nat} {o : Order} (h : o.isSegmentOf n = false) (os : List Order) :
    o ∈ dropJob n os ↔ o ∈ os := by
  induction os with
  | nil => simp [dropJob]
  | cons x os ih =>
    unfold dropJob
    split
    · rename_i hx
      simp only [Bool.and_eq_true] at hx
      have : o ≠ x := by
        rintro rfl
        simp [h] at hx
      simp [ih, this]
    · simp [ih]

/-- Orders before the job's segments that are no segments of its serial stay in front. -/
theorem dropJob_append {n : Nat} (os : List Order) {ws : List Order} (h : ∀ o ∈ ws, o.isSegmentOf n = false) :
    dropJob n (ws ++ os) = ws ++ dropJob n os := by
  induction ws with
  | nil => rfl
  | cons x ws ih =>
    rw [List.cons_append, dropJob, h x (by simp), ih fun o ho => h o (by simp [ho])]
    simp

/-- What waits of a job started last, from any segment on, is dropped whole. -/
theorem dropJob_of_segments {n : Nat} {os : List Order} (h : ∀ o ∈ os, o.isSegmentOf n = true)
    (h1 : ∀ o ∈ os.tail, o.isFirstOf n = false) : dropJob n os = [] := by
  induction os with
  | nil => rfl
  | cons x os ih =>
    have hf : os.any (Order.isFirstOf n) = false := by simpa using h1
    rw [dropJob, h x (by simp), hf]
    simpa using ih (fun o ho => h o (by simp [ho])) fun o ho => h1 o (List.mem_of_mem_tail ho)

@[simp] theorem Context.segmentPlaced_orders (c : Context) (o : Order) : (c.segmentPlaced o).orders = c.orders := by
  unfold Context.segmentPlaced
  split
  · split <;> rfl
  · rfl
@[simp] theorem Context.segmentPlaced_verdict (c : Context) (o : Order) :
    (c.segmentPlaced o).verdict = c.verdict := by
  unfold Context.segmentPlaced
  split
  · split <;> rfl
  · rfl
@[simp] theorem Context.segmentPlaced_reasons (c : Context) (o : Order) :
    (c.segmentPlaced o).reasons = c.reasons := by
  unfold Context.segmentPlaced
  split
  · split <;> rfl
  · rfl

end Sys2Proof.Machine
end

