-- ==== Sys2Proof/Laws/PerInstr.lean ====
section
/-! SUPPORT. Sys2Proof/Laws/PerInstr.lean: one law for each command: the request code it carries, where it
carries one, is a code of the table of section 9.1. -/

namespace Sys2Proof.Laws.RequestCodes

open Sys2Proof Sys2Proof.Machine

/-- The request code of a command, where it has one, is a code of the table of section 9.1 (R158). -/
def Statement (i : Instr) : Prop := ∀ c, requestCode i = some c → c ∈ knownCodes

theorem of_none {i : Instr} (h : requestCode i = none) : Statement i := fun c e => by simp [h] at e

theorem of_code {i : Instr} {k : Byte} (h : requestCode i = some k) (m : knownCodes.contains k = true) :
    Statement i := fun c e => by
  rw [h, Option.some.injEq] at e; subst e; simpa using m

theorem reset :
    Statement .reset := of_none rfl
theorem resetRelease (strap : BitVec 5) :
    Statement (.resetRelease strap) := of_none rfl
theorem invalidTelegram (bytes : List Byte) :
    Statement (.invalidTelegram bytes) := of_none rfl
theorem ringInTelegram (t : Telegram) :
    Statement (.ringInTelegram t) := of_none rfl
theorem ringOutFree :
    Statement .ringOutFree := of_none rfl
theorem tagRead (dst src : Byte) (payload : List Byte) :
    Statement (.tagRead dst src payload) := of_none rfl
theorem tunnelStart (dst src : Byte) (payload : List Byte) :
    Statement (.tunnelStart dst src payload) := of_none rfl
theorem caseRead (dst src : Byte) (payload : List Byte) :
    Statement (.caseRead dst src payload) := of_none rfl
theorem tunnelEnd (dst src : Byte) :
    Statement (.tunnelEnd dst src) := of_none rfl
theorem measure (dst src : Byte) (payload : List Byte) :
    Statement (.measure dst src payload) := of_none rfl
theorem scaleChecked (dst src : Byte) :
    Statement (.scaleChecked dst src) := of_none rfl
theorem moveDone (dst src : Byte) :
    Statement (.moveDone dst src) := of_none rfl
theorem moveFault (dst src : Byte) :
    Statement (.moveFault dst src) := of_none rfl
theorem carReady (dst src : Byte) :
    Statement (.carReady dst src) := of_none rfl
theorem spurState (dst src occupancy : Byte) :
    Statement (.spurState dst src occupancy) := of_none rfl
theorem wrapperReady (dst src : Byte) :
    Statement (.wrapperReady dst src) := of_none rfl
theorem standby (dst src : Byte) :
    Statement (.standby dst src) := of_none rfl
theorem wrapStarted (dst src : Byte) :
    Statement (.wrapStarted dst src) := of_none rfl
theorem wrapDone (dst src : Byte) :
    Statement (.wrapDone dst src) := of_none rfl
theorem wrapFault (dst src : Byte) :
    Statement (.wrapFault dst src) := of_none rfl
theorem jobTaken (dst src : Byte) (body : List Byte) :
    Statement (.jobTaken dst src body) := of_none rfl
theorem palletAtLabel (dst src : Byte) :
    Statement (.palletAtLabel dst src) := of_none rfl
theorem applied (dst src : Byte) (body : List Byte) :
    Statement (.applied dst src body) := of_none rfl
theorem applyFault (dst src : Byte) :
    Statement (.applyFault dst src) := of_none rfl
theorem rejectApplicatorApplied (dst src : Byte) (body : List Byte) :
    Statement (.rejectApplicatorApplied dst src body) := of_none rfl
theorem rejectApplicatorFault (dst src : Byte) :
    Statement (.rejectApplicatorFault dst src) := of_none rfl
theorem routed (dst src : Byte) (payload : List Byte) :
    Statement (.routed dst src payload) := of_none rfl
theorem compositionComplete :
    Statement .compositionComplete := of_none rfl
theorem scanSilenceExpiry (slot : Slot) :
    Statement (.scanSilenceExpiry slot) := of_none rfl
theorem measureLimitExpiry (slot : Slot) :
    Statement (.measureLimitExpiry slot) := of_none rfl
theorem decisionLimitExpiry (slot : Slot) :
    Statement (.decisionLimitExpiry slot) := of_none rfl
theorem wrapWaitLimitExpiry (slot : Slot) :
    Statement (.wrapWaitLimitExpiry slot) := of_none rfl
theorem carMoveLimitExpiry (slot : Slot) :
    Statement (.carMoveLimitExpiry slot) := of_none rfl
theorem wrapLimitExpiry (slot : Slot) :
    Statement (.wrapLimitExpiry slot) := of_none rfl
theorem warmUpEnd (w : WrapperNo) :
    Statement (.warmUpEnd w) := of_none rfl
theorem labelLimitExpiry (slot : Slot) :
    Statement (.labelLimitExpiry slot) := of_none rfl
theorem exitLimitExpiry (slot : Slot) :
    Statement (.exitLimitExpiry slot) := of_none rfl
theorem currencyWindowExpiry :
    Statement .currencyWindowExpiry := of_none rfl
theorem ringSilenceExpiry :
    Statement .ringSilenceExpiry := of_none rfl
theorem mgmtRequestPart (src code tag part count : Byte) (share : List Byte) :
    Statement (.mgmtRequestPart src code tag part count share) := of_none rfl
theorem unknownRequestCode (src : Byte) (payload : List Byte) :
    Statement (.unknownRequestCode src payload) := of_none rfl
theorem articlePut (src tag : Byte) (f : ArticleFields) :
    Statement (.articlePut src tag f) := of_code rfl rfl
theorem articleDelete (src tag : Byte) (key : Text) :
    Statement (.articleDelete src tag key) := of_code rfl rfl
theorem articleGet (src tag : Byte) (key : Text) :
    Statement (.articleGet src tag key) := of_code rfl rfl
theorem articleNext (src tag : Byte) (key : Text) :
    Statement (.articleNext src tag key) := of_code rfl rfl
theorem articleClear (src tag : Byte) :
    Statement (.articleClear src tag) := of_code rfl rfl
theorem consignmentPut (src tag : Byte) (f : ConsignmentFields) :
    Statement (.consignmentPut src tag f) := of_code rfl rfl
theorem consignmentDelete (src tag : Byte) (number : Text) :
    Statement (.consignmentDelete src tag number) := of_code rfl rfl
theorem consignmentGet (src tag : Byte) (number : Text) :
    Statement (.consignmentGet src tag number) := of_code rfl rfl
theorem consignmentNext (src tag : Byte) (number : Text) :
    Statement (.consignmentNext src tag number) := of_code rfl rfl
theorem consignmentClear (src tag : Byte) :
    Statement (.consignmentClear src tag) := of_code rfl rfl
theorem planPut (src tag : Byte) (f : PlanFields) :
    Statement (.planPut src tag f) := of_code rfl rfl
theorem planDelete (src tag : Byte) (licence : Text) :
    Statement (.planDelete src tag licence) := of_code rfl rfl
theorem planGet (src tag : Byte) (key : PlanKey) :
    Statement (.planGet src tag key) := of_code rfl rfl
theorem planNext (src tag : Byte) (start : Option Nat) :
    Statement (.planNext src tag start) := of_code rfl rfl
theorem planClear (src tag : Byte) :
    Statement (.planClear src tag) := of_code rfl rfl
theorem stationPut (src tag : Byte) (address role inst : Byte) :
    Statement (.stationPut src tag address role inst) := of_code rfl rfl
theorem stationGet (src tag : Byte) (key : StationKey) :
    Statement (.stationGet src tag key) := of_code rfl rfl
theorem holdAdd (src tag : Byte) (f : HoldFields) :
    Statement (.holdAdd src tag f) := of_code rfl rfl
theorem holdRelease (src tag : Byte) (article lot : Text) :
    Statement (.holdRelease src tag article lot) := of_code rfl rfl
theorem holdClear (src tag : Byte) :
    Statement (.holdClear src tag) := of_code rfl rfl
theorem holdNext (src tag : Byte) (key : Option (Text × Text)) :
    Statement (.holdNext src tag key) := of_code rfl rfl
theorem currency (src tag : Byte) (generation day : Nat) :
    Statement (.currency src tag generation day) := of_code rfl rfl
theorem laneClear (src tag : Byte) (lane : Nat) :
    Statement (.laneClear src tag lane) := of_code rfl rfl
theorem contextGet (src tag : Byte) (key : ContextKey) :
    Statement (.contextGet src tag key) := of_code rfl rfl
theorem caseMapGet (src tag : Byte) (key : ContextKey) (start : Nat) :
    Statement (.caseMapGet src tag key start) := of_code rfl rfl
theorem retryWaiting (src tag : Byte) :
    Statement (.retryWaiting src tag) := of_code rfl rfl
theorem scaleClear (src tag : Byte) (lane : Nat) :
    Statement (.scaleClear src tag lane) := of_code rfl rfl
theorem wrapperConfig (src tag : Byte) (wrapper : Nat) (recipes : List Nat) (warmUp : Nat) :
    Statement (.wrapperConfig src tag wrapper recipes warmUp) := of_code rfl rfl
theorem templateBegin (src tag : Byte) (target : Nat) :
    Statement (.templateBegin src tag target) := of_code rfl rfl
theorem templateItems (src tag : Byte) (items : List ItemFields) :
    Statement (.templateItems src tag items) := of_code rfl rfl
theorem templateEnd (src tag : Byte) :
    Statement (.templateEnd src tag) := of_code rfl rfl
theorem templateGet (src tag : Byte) (template start : Nat) :
    Statement (.templateGet src tag template start) := of_code rfl rfl
theorem labelGet (src tag : Byte) (key : ContextKey) :
    Statement (.labelGet src tag key) := of_code rfl rfl
theorem logGet (src tag : Byte) (age : Nat) :
    Statement (.logGet src tag age) := of_code rfl rfl
theorem watchPut (src tag : Byte) (f : WatchFields) :
    Statement (.watchPut src tag f) := of_code rfl rfl
theorem watchGet (src tag : Byte) (screen : Nat) (part : Byte) (start : Nat) :
    Statement (.watchGet src tag screen part start) := of_code rfl rfl
theorem watchAck (src tag : Byte) (screen : Nat) :
    Statement (.watchAck src tag screen) := of_code rfl rfl
theorem go (src tag : Byte) :
    Statement (.go src tag) := of_code rfl rfl
theorem drain (src tag : Byte) :
    Statement (.drain src tag) := of_code rfl rfl
theorem halt (src tag : Byte) :
    Statement (.halt src tag) := of_code rfl rfl
theorem restart (src tag : Byte) :
    Statement (.restart src tag) := of_code rfl rfl
theorem clearRejectAll (src tag : Byte) :
    Statement (.clearRejectAll src tag) := of_code rfl rfl
theorem paramSet (src tag : Byte) (pairs : List (Nat × Nat)) :
    Statement (.paramSet src tag pairs) := of_code rfl rfl
theorem paramGet (src tag : Byte) (numbers : List Nat) :
    Statement (.paramGet src tag numbers) := of_code rfl rfl
theorem statusGet (src tag : Byte) :
    Statement (.statusGet src tag) := of_code rfl rfl
theorem timebasePeriod :
    Statement .timebasePeriod := of_none rfl

end Sys2Proof.Laws.RequestCodes
end

