-- ==== Sys2Proof/Laws/Requests.lean ====
section
/-! SUPPORT. Sys2Proof/Laws/Requests.lean: what the taking of a request does: the state in which its owner takes it,
and what that state keeps. -/

namespace Sys2Proof.Machine

open Sys2Proof

@[simp] theorem State.taken_refs (a : Byte) (s : State) : (s.taken a).refs = s.refs := rfl
@[simp] theorem State.taken_holds (a : Byte) (s : State) : (s.taken a).holds = s.holds := rfl
@[simp] theorem State.taken_tracker (a : Byte) (s : State) : (s.taken a).tracker = s.tracker := rfl
@[simp] theorem State.taken_recon (a : Byte) (s : State) : (s.taken a).recon = s.recon := rfl
@[simp] theorem State.taken_alloc (a : Byte) (s : State) : (s.taken a).alloc = s.alloc := rfl
@[simp] theorem State.taken_composer (a : Byte) (s : State) : (s.taken a).composer = s.composer := rfl
@[simp] theorem State.taken_labels (a : Byte) (s : State) : (s.taken a).labels = s.labels := rfl
@[simp] theorem State.taken_watch (a : Byte) (s : State) : (s.taken a).watch = s.watch := rfl
@[simp] theorem State.taken_ctl (a : Byte) (s : State) : (s.taken a).ctl = s.ctl := rfl
@[simp] theorem State.taken_pending (a : Byte) (s : State) : (s.taken a).pending = s.pending := rfl
@[simp] theorem State.taken_article (a : Byte) (k : Text) (s : State) : (s.taken a).article k = s.article k := rfl
@[simp] theorem State.taken_consignment (a : Byte) (k : Text) (s : State) :
    (s.taken a).consignment k = s.consignment k := rfl
@[simp] theorem State.taken_planAt (a : Byte) (n : Nat) (s : State) : (s.taken a).planAt n = s.planAt n := rfl
@[simp] theorem State.taken_planOf (a : Byte) (t : Text) (s : State) : (s.taken a).planOf t = s.planOf t := rfl
@[simp] theorem State.taken_ctx (a : Byte) (i : Slot) (s : State) : (s.taken a).ctx i = s.ctx i := rfl
@[simp] theorem State.taken_standing (a : Byte) (s : State) : (s.taken a).standing = s.standing := rfl

/-- The state in which an owner takes a request differs in the ring-silence timer and the gathering alone. -/
theorem State.taken_only (a : Byte) (s : State) : State.Only [.ring, .mgmt] s (s.taken a) := by
  constructor <;> simp

/-- A reply changes only the Ring Port and the Responder. -/
theorem State.answered_only (src code tag : Byte) (x : Status) (r : Result) (s : State) :
    State.Only [.ring, .mgmt] s (s.answered src code tag x r) := State.reply_only _ _

/-- A request that the part takes reaches its owner in the state that its arrival leaves. -/
theorem State.request_of_takes {src code : Byte} {s : State} (h : s.Takes src code) (i : Instr) (tag : Byte) :
    s.request i src code tag = (s.taken src).answer i src code tag := by
  obtain ⟨⟨⟨h1, h2, h3⟩, h4⟩, h5, h6⟩ := h
  have hh : s.heard = s.arrived := by
    rw [Option.isSome_iff_ne_none] at h3
    simp [State.heard, State.arrived, h3]
  have hp : (s.taken src).permits src code ((s.taken src).isClaim i) = true := by
    have : (s.taken src).permits src code false = true := h6
    simp only [State.permits] at this ⊢
    simp_all
  have hr : (s.taken src).repliesFull = false := by
    have : ((s.taken src).mgmt.replies.length) < Config.replyMax := h5
    simpa [State.repliesFull] using this
  have e : (State.endGathering src s.arrived) = s.taken src := rfl
  have hpv : s.arrived.passive = false := h2
  have how : s.arrived.ownAddress = s.ownAddress := rfl
  simp [State.request, h1, hh, hpv, how, h4, e, State.admitRequest, hp, hr]

end Sys2Proof.Machine
end

