-- ==== Sys2Proof/Laws/Stations.lean ====
section
/-! SUPPORT. Sys2Proof/Laws/Stations.lean: what the arrival of a station telegram does before its block takes it: the
screening and forwarding of R151, and what that leaves. -/

namespace Sys2Proof.Machine

open Sys2Proof

@[simp] theorem State.arrived_ctl (s : State) : s.arrived.ctl = s.ctl := rfl

/-- The arrival of a telegram restarts the ring-silence timer and changes nothing else. -/
theorem State.arrived_only (s : State) : State.Only [.ring] s s.arrived := State.onRing_only _ _

/-- An offer to the screens changes the screens and what a report changes (R165 to R168). -/
theorem State.offerScreens_only (t : Telegram) (s : State) :
    State.Only [.ring, .mgmt, .watch] s (s.offerScreens t) := by
  have h0 : State.Only [.ring, .mgmt, .watch] s { s with watch := s.watch.map (Screen.remember t) } := by
    constructor <;> simp
  simp only [State.offerScreens]
  split
  · exact h0
  · rename_i n _
    have h1 := h0.trans ((State.onScreen_only n (Screen.acted t) _).mono (cs := [.ring, .mgmt, .watch]) (by simp))
    split
    · exact h1.trans ((State.report_only _ _).mono (by simp))
    · exact h1

/-- Screening and forwarding change the screens, the Ring Port and the Responder (R151). -/
theorem State.passOn_only (t : Telegram) (s : State) : State.Only [.ring, .mgmt, .watch] s (s.passOn t) := by
  simp only [State.passOn]
  split
  · exact .refl _ _
  · split
    · exact State.offerScreens_only _ _
    · exact (State.offerScreens_only _ _).trans ((State.forward_only _ _).mono (by simp))

theorem State.passed_only (t : Telegram) (s : State) : State.Only [.ring, .mgmt, .watch] s (s.passed t) :=
  ((State.arrived_only s).mono (by simp)).trans (State.passOn_only t _)

@[simp] theorem State.passed_refs (t : Telegram) (s : State) : (s.passed t).refs = s.refs := by
  simpa using (State.passed_only t s).refs
@[simp] theorem State.passed_holds (t : Telegram) (s : State) : (s.passed t).holds = s.holds := by
  simpa using (State.passed_only t s).holds
@[simp] theorem State.passed_tracker (t : Telegram) (s : State) : (s.passed t).tracker = s.tracker := by
  simpa using (State.passed_only t s).tracker
@[simp] theorem State.passed_recon (t : Telegram) (s : State) : (s.passed t).recon = s.recon := by
  simpa using (State.passed_only t s).recon
@[simp] theorem State.passed_alloc (t : Telegram) (s : State) : (s.passed t).alloc = s.alloc := by
  simpa using (State.passed_only t s).alloc
@[simp] theorem State.passed_composer (t : Telegram) (s : State) : (s.passed t).composer = s.composer := by
  simpa using (State.passed_only t s).composer
@[simp] theorem State.passed_labels (t : Telegram) (s : State) : (s.passed t).labels = s.labels := by
  simpa using (State.passed_only t s).labels
@[simp] theorem State.passed_ctl (t : Telegram) (s : State) : (s.passed t).ctl = s.ctl := by
  simpa using (State.passed_only t s).ctl
@[simp] theorem State.passed_pending (t : Telegram) (s : State) : (s.passed t).pending = s.pending := by
  simpa using (State.passed_only t s).pending
@[simp] theorem State.passed_ctx (t : Telegram) (s : State) (i : Slot) : (s.passed t).ctx i = s.ctx i := by
  simp [State.ctx]
@[simp] theorem State.passed_queue (t : Telegram) (s : State) (l : Lane) : (s.passed t).queue l = s.queue l := by
  simp [State.queue]
@[simp] theorem State.passed_rolesAt (t : Telegram) (s : State) (a : Byte) : (s.passed t).rolesAt a = s.rolesAt a := by
  simp [State.rolesAt]
@[simp] theorem State.passed_roleOf {α : Type} (t : Telegram) (s : State) (a : Byte) (pick : RoleInst → Option α) :
    (s.passed t).roleOf a pick = s.roleOf a pick := by
  simp [State.roleOf]

/-- A telegram of a heard source that is no request reaches its block in the state that screening and forwarding
leave. -/
theorem State.arrive_of_hears {t : Telegram} {s : State} (h : s.Hears t.src) (hl : t.payload.length ≤ 120)
    (hk : t.kind ≠ kMgmtRequest) : s.arrive t = (s.passed t).hand t := by
  obtain ⟨⟨h1, h2, h3⟩, h4⟩ := h
  have hh : s.heard = s.arrived := by
    rw [Option.isSome_iff_ne_none] at h3
    simp [State.heard, State.arrived, h3]
  have hp : s.arrived.passive = false := h2
  have how : s.arrived.ownAddress = s.ownAddress := rfl
  have hlen : ¬ Config.payloadMax < t.payload.length := by simpa [Config.payloadMax] using hl
  simp [State.arrive, h1, hlen, hh, State.handle, hp, how, h4, hk, State.passed]

/-- What an admission to a lane queue does to the Allocator: the arbiter is due where the queue was empty, and nothing
else changes (R40, R103). -/
theorem State.joinedAsHead_arbiterDue (b : Bool) (s : State) :
    (s.joinedAsHead b).alloc = { s.alloc with arbiterDue := b || s.alloc.arbiterDue } := by cases b <;> rfl

theorem State.joinedAsHead_only (b : Bool) (s : State) : State.Only [.alloc] s (s.joinedAsHead b) :=
  .ite (State.onAlloc_only _ s) (.refl _ s)

end Sys2Proof.Machine
end

