-- ==== Sys2Proof/Laws/Text.lean ====
section
/-! SUPPORT. Sys2Proof/Laws/Text.lean: the order of texts is a strict total order. -/

namespace Sys2Proof.Machine

open Sys2Proof

theorem ltText_irrefl : ∀ a : Text, ltText a a = false
  | [] => rfl
  | x :: xs => by simp [ltText, ltText_irrefl xs]

theorem ltText_trans : ∀ {a b c : Text}, ltText a b = true → ltText b c = true → ltText a c = true
  | [], _ :: _, _ :: _, _, _ => rfl
  | x :: xs, y :: ys, z :: zs, h, k => by
    simp only [ltText, Bool.or_eq_true, decide_eq_true_eq, Bool.and_eq_true, beq_iff_eq] at *
    rcases h with h | ⟨rfl, h⟩ <;> rcases k with k | ⟨rfl, k⟩
    · exact .inl (by omega)
    · exact .inl h
    · exact .inl k
    · exact .inr ⟨rfl, ltText_trans h k⟩

theorem ltText_trichotomy : ∀ a b : Text, a = b ∨ ltText a b = true ∨ ltText b a = true
  | [], [] => .inl rfl
  | [], _ :: _ => .inr (.inl rfl)
  | _ :: _, [] => .inr (.inr rfl)
  | x :: xs, y :: ys => by
    simp only [ltText, Bool.or_eq_true, decide_eq_true_eq, Bool.and_eq_true, beq_iff_eq, List.cons.injEq]
    rcases Nat.lt_trichotomy x.toNat y.toNat with h | h | h
    · exact .inr (.inl (.inl h))
    · obtain rfl : x = y := BitVec.eq_of_toNat_eq h
      rcases ltText_trichotomy xs ys with k | k | k
      · exact .inl ⟨rfl, k⟩
      · exact .inr (.inl (.inr ⟨rfl, k⟩))
      · exact .inr (.inr (.inr ⟨rfl, k⟩))
    · exact .inr (.inr (.inl h))

theorem ltText_ne {a b : Text} (h : ltText a b = true) : a ≠ b := by
  rintro rfl; simp [ltText_irrefl] at h

end Sys2Proof.Machine
end

