-- ==== Sys2Proof/Tests/Slice0.lean ====
section
/-! SUPPORT. Sys2Proof/Tests/Slice0.lean: tests on fixed values, the expected results taken from the manual's worked
examples and tables; the smoke test of WellFormed; and, for every obligation with hypotheses, states and operands
that meet them, clause by clause. -/

namespace Sys2Proof.Tests

open Sys2Proof Sys2Proof.Machine

set_option Elab.async false

/-! ### The manual's figures -/

/-- Section 9.1: the CRC-16 of the characters "123456789" is 29B1h. -/
theorem test_crc_of_the_check_string : crc16 (ascii "123456789") = 0x29B1#16 := by decide +kernel

/-- R122: day 9,769 is written 30.09.26 and day 9,570 is 15.03.26. -/
theorem test_dates_written : dateText 9769 = ascii "30.09.26" ∧ dateText 9570 = ascii "15.03.26" := by
  decide +kernel

/-- R59, chapter 4: 260930 is day 9,769, 261031 is day 9,800, and 250229 is no date. -/
theorem test_dates_read : readBest (ascii "260930") = some 9769 ∧ readBest (ascii "261031") = some 9800
    ∧ readBest (ascii "250229") = none := by decide +kernel

/-- R122: weights and volumes are written with their decimals. -/
theorem test_figures_written : kgText 736950 = ascii "737.0" ∧ kgText 0 = ascii "0.0"
    ∧ kgText 4000000 = ascii "4000.0" ∧ litreText 64944 = ascii "649.44" ∧ litreText 7 = ascii "0.07" := by
  decide +kernel

/-- R123: bay 7 in a right-aligned, zero-filled field of width 2 is 07, and a value too long is asterisks. -/
theorem test_fields_placed : fieldText (some (ascii "7")) 2 .right .zero = (ascii "07", false)
    ∧ fieldText (some (ascii "L1190/L1191/L1188")) 11 .left .space = (ascii "***********", true) := by
  decide +kernel

/-- R57: a 13-digit code is taken with a leading zero, and one of eleven digits is no article. -/
theorem test_codes_normalised : normaliseArticle (ascii "5012345000017") = some (ascii "05012345000017")
    ∧ normaliseArticle (ascii "50123450000") = none := by decide +kernel

/-! ### Chapter 4: merging the reads of one pallet -/

def keyA : Text := digitString 14 5012345000017
def keyB : Text := digitString 14 5012345000024

def caseOf (i : Nat) (a : Text) (l b : String) : CaseRead := CaseRead.ofFields i a (ascii l) (ascii b)

/-- The tally after reads 1 to 5 of the worked example. -/
def tallyAfter5 : Tally where
  cases := [(1, .counted ⟨keyA, some (ascii "L1190"), some 9769⟩), (2, .counted ⟨keyA, none, some 9769⟩),
    (3, .counted ⟨keyB, some (ascii "L2207B"), some 9800⟩), (4, .counted ⟨keyA, some (ascii "L1190"), some 9769⟩)]
  lines := [⟨⟨keyA, some (ascii "L1190"), some 9769⟩, 2⟩, ⟨⟨keyA, none, some 9769⟩, 1⟩,
    ⟨⟨keyB, some (ascii "L2207B"), some 9800⟩, 1⟩]
  unknowns := 0
  unindexed := 0
  duplicates := 1

/-- The tally after reads 6 to 9. -/
def tallyAfter9 : Tally where
  cases := [(1, .counted ⟨keyA, some (ascii "L1190"), some 9769⟩),
    (2, .counted ⟨keyA, some (ascii "L1190"), some 9769⟩), (3, .counted ⟨keyB, some (ascii "L2207B"), some 9800⟩),
    (4, .counted ⟨keyA, some (ascii "L1190"), some 9769⟩), (5, .counted ⟨keyB, some (ascii "L2207B"), some 9800⟩)]
  lines := [⟨⟨keyA, some (ascii "L1190"), some 9769⟩, 3⟩, ⟨⟨keyB, some (ascii "L2207B"), some 9800⟩, 2⟩]
  unknowns := 0
  unindexed := 1
  duplicates := 1

/-- Read 6: the fill moves the case of line 2 to line 1, and line 2 is removed. -/
theorem test_fill_removes_a_line :
    ((tallyAfter5.read (caseOf 2 (ascii "5012345000017") "L1190" "260930")).1.lines.map
      fun l => (l.content.article, l.count)) = [(keyA, 3), (keyB, 1)] := by decide +kernel

/-- Read 10: another lot for a counted case is a conflict, and the tally is unchanged. -/
theorem test_conflicting_lot :
    tallyAfter9.read (caseOf 3 keyB "L2208A" "261031") = (tallyAfter9, some .caseConflict) := by decide +kernel

/-- Read 11: a read that supplies nothing is a duplicate. -/
theorem test_read_that_gives_less : (tallyAfter9.read (caseOf 4 (ascii "5012345000017") "" "")).1
    = { tallyAfter9 with duplicates := 2 } := by decide +kernel

/-- Read 8: a read with index 0 is an unindexed read. -/
theorem test_unindexed_read : (tallyAfter5.read (caseOf 0 keyB "L2207B" "")).1
    = { tallyAfter5 with unindexed := 1 } := by decide +kernel

/-! ### Chapters 5 and 7: the pallet of slot 12 -/

def artA : Article := ⟨keyA, [], 9400, 150, 10, 260, 792, true⟩
def artB : Article := ⟨keyB, [], 11200, 120, 12, 135, 1056, true⟩
def licence1 : Text := digitString 18 387000000000012345
def consignmentNo : Text := digitString 8 412207

def consignment1 : Consignment :=
  ⟨consignmentNo, ascii "NORTHGATE TAVERNS", 120, 2, 2, .bonded, 3, 7, 0, ⟨0, 0, 0, 0⟩⟩

def plan1 : Plan := ⟨0, licence1, consignmentNo, 25000, 144, none, [⟨keyA, 50⟩, ⟨keyB, 24⟩], .inUse, some 12⟩

def tally1 : Tally where
  cases := [(1, .counted ⟨keyA, some (ascii "L1190"), some 9769⟩), (2, .counted ⟨keyA, some (ascii "L1190"), some 9769⟩),
    (3, .counted ⟨keyA, some (ascii "L1191"), some 9800⟩), (4, .counted ⟨keyB, some (ascii "L2207B"), some 9800⟩),
    (5, .counted ⟨keyB, some (ascii "L2207B"), some 9800⟩), (6, .unknown)]
  lines := [⟨⟨keyA, some (ascii "L1190"), some 9769⟩, 2⟩, ⟨⟨keyA, some (ascii "L1191"), some 9800⟩, 1⟩,
    ⟨⟨keyB, some (ascii "L2207B"), some 9800⟩, 2⟩]
  unknowns := 1
  unindexed := 0
  duplicates := 9

/-- A context of lane 3 with the readings of chapter 5 in a state of its own. -/
def pallet (phase : Phase) (timer : Option Nat) : Context :=
  { adm := 1, licence := some licence1, lane := 2, planSlot := some 0, phase := phase, tunnelStarted := true,
    tunnelEnded := true, weight := some 761950, height := some 1702, tally := tally1, verdict := none, reasons := [],
    waiting := [], record := none, wrapper := none, wrapStarted := false, labelSerial := none, labelVoid := false,
    unconfirmed := false, diverted := false, timer := timer, compStatus := .none, label := none, job := none,
    voided := none, route := none, orders := [] }

def inputs1 : Inputs where
  ctx := pallet .measuring none
  plan := plan1
  consignment := consignment1
  articles := [artA, artB]
  day := 9570
  params := Params.default
  scale := ⟨.normal, 0⟩

/-- Chapter 5: the checks of the worked pallet add nothing; expected weight 763,800 g, tolerance 12,380 g, deviation
-1,850 g; expected height 1,714 mm; and no case estimate. -/
theorem test_worked_reconciliation : inputs1.checks false = []
    ∧ inputs1.weightFigures = some ⟨763800, 12380, 761950, -1850⟩ ∧ inputs1.heightFigures = some ⟨1714, 1702⟩
    ∧ inputs1.caseEstimate = none := by decide +kernel

/-- Chapter 5, variant: 750,100 g adds UNDER_WEIGHT, with the case estimate 1 and the streak raised to 1. -/
theorem test_light_pallet :
    let x := { inputs1 with ctx := { inputs1.ctx with weight := some 750100 } }
    x.checks false = [.underWeight] ∧ x.caseEstimate = some 1 ∧ scaleAfter 3 x.weightFigures x.scale = ⟨.normal, 1⟩ := by
  decide +kernel

/-- Chapter 5, variant: with 25 cases of B the expected height is 1,726 mm. -/
theorem test_ragged_last_layer :
    ({ inputs1 with plan := { plan1 with lines := [⟨keyA, 50⟩, ⟨keyB, 25⟩] } } : Inputs).expectedHeight = 1726 := by
  decide +kernel

/-- Chapter 5, variant: on day 9,700 A has 69 days left, SHORT_LIFE. -/
theorem test_late_dispatch_day : (({ inputs1 with day := 9700 } : Inputs).checks false).dedup = [.shortLife] := by
  decide +kernel

/-- Chapter 5, "A scale that drifts": the third failed comparison makes the scale SUSPECT, and a passed one clears
the streak. -/
theorem test_scale_streak : scaleAfter 3 (some ⟨763800, 12380, 748750, -15050⟩) ⟨.normal, 2⟩ = ⟨.suspect, 3⟩
    ∧ scaleAfter 3 none ⟨.normal, 2⟩ = ⟨.normal, 2⟩
    ∧ scaleAfter 3 (some ⟨763800, 12380, 761950, -1850⟩) ⟨.normal, 2⟩ = ⟨.normal, 0⟩ := by decide +kernel

/-- Template 3 of chapter 7. -/
def template3 : List Item :=
  [.text (ascii "CONS "), .field .consignment 8 .left .space, .text (ascii " BAY "), .field .bay 2 .right .zero,
    .newline, .field .customer 20 .left .space, .newline, .linesBegin, .field .article 14 .left .space,
    .text (ascii " "), .field .lineCount 3 .right .space, .text (ascii " "), .field .lineLots 11 .left .space,
    .text (ascii " "), .field .lineBb 8 .left .space, .newline, .linesEnd]
  ++ [.text (ascii "NET KG "), .field .netKg 6 .right .space, .text (ascii " CASES "), .field .cases 3 .right .space,
    .newline, .ifBonded, .text (ascii "BONDED LITRES "), .field .litres 7 .right .space, .newline, .endIf,
    .text (ascii "SERIAL "), .field .serial 6 .right .zero, .barcode .licence, .barcode .serial, .endItem]

def flight1 : Flight where
  ctx := ⟨12, 1⟩
  kind := .dispatchLabel
  template := 3
  inputs :=
    { items := template3, licence := some licence1, weight := some 761950, verdict := some .pass, reasons := [],
      plan := some plan1, consignment := some consignment1, articles := [some artA, some artB], lines := tally1.lines,
      day := some 9570 }
  ticketWaiting := false
  remaining := 0

/-- Chapter 7: the rows and barcodes of the worked label, with no mark set. -/
theorem test_worked_label : (flight1.record 4117).rows =
      [ascii "CONS 00412207 BAY 07", ascii "NORTHGATE TAVERNS   ", ascii "05012345000017  50 L1190/L1191 30.09.26",
        ascii "05012345000024  24 L2207B      31.10.26", ascii "NET KG  737.0 CASES  74",
        ascii "BONDED LITRES  649.44", ascii "SERIAL 004117"]
    ∧ (flight1.record 4117).barcodes = [(.licence, licence1), (.serial, ascii "004117")]
    ∧ (flight1.record 4117).truncated = false := by decide +kernel

/-- Chapter 7: 40 items are worked through, and the composition takes 90 ms; 80 ms for a DUTY_PAID consignment. -/
theorem test_composition_time : flight1.inputs.time = 90
    ∧ ({ flight1.inputs with consignment := some { consignment1 with duty := .dutyPaid } } : CompInputs).time = 80 := by
  decide +kernel

/-- R118: template 3 passes the structural checks; one without END, and an empty one, do not. -/
theorem test_structural_checks : structuralFault 0 none template3 = none
    ∧ structuralFault 0 none [.newline] = some (.noEnd, 1)
    ∧ structuralFault 0 none [.linesEnd, .endItem] = some (.unopenedClose, 1) := by decide +kernel

/-! ### Layouts of section 9.1, written out -/

/-- A frame: destination, source, kind, length, payload, and the check of those bytes, high byte first. -/
theorem test_frame : frameBytes ⟨5, 16, 0x07, [1]⟩ =
    [5, 16, 7, 1, 1] ++ beBytes 2 (crc16 [5, 16, 7, 1, 1]).toNat := by decide +kernel

/-- A LABEL_EVENT APPLIED: event 3, a serial of three bytes, a licence length and its digits. -/
theorem test_applied_layout : (whole takeLabelEvent ([3, 0x00, 0x10, 0x15, 18] ++ licence1)).map
      (fun e => match e with | .applied n l => (n, l) | _ => (0, none)) = some (4117, some licence1) := by
  decide +kernel

/-- CURRENCY carries its generation and its day, two bytes each. -/
theorem test_currency_layout : (takeRequest 0x24 2 7 [0x00, 0x08, 0x25, 0x62]) = some (.currency 2 7 8 9570, []) := by
  decide +kernel

/-- HOLD_ADD carries an article, a lot with its length, a reason, a code and a day. -/
theorem test_hold_add_layout : whole (takeRequest 0x20 2 7) (keyA ++ [5] ++ ascii "L1190" ++ [2, 0, 0x25, 0x62]) =
    some (.holdAdd 2 7 ⟨keyA, ascii "L1190", 2, 0, 9570⟩) := by decide +kernel

/-- No row of the table gives bits, so no word spells a command. -/
theorem test_no_word_spells_a_command : decodeTableWord 8 0 = none
    ∧ (State.reset.withFetchWord 8 0) = State.reset := by decide +kernel

/-! ### WellFormed: an ill-formed term for each check -/

def longText : Text := List.replicate 256 0x41
def longPayload : List Byte := List.replicate 121 0

theorem test_wf_telegrams : wellFormed (.invalidTelegram (frameBytes ⟨5, 16, 7, [1]⟩)) = false
    ∧ wellFormed (.ringInTelegram ⟨5, 16, 7, longPayload⟩) = false ∧ wellFormed (.tagRead 5 10 longPayload) = false
    ∧ wellFormed (.tunnelStart 5 11 longPayload) = false ∧ wellFormed (.caseRead 5 11 longPayload) = false
    ∧ wellFormed (.measure 5 12 longPayload) = false ∧ wellFormed (.jobTaken 5 17 (longPayload.drop 1)) = false
    ∧ wellFormed (.applied 5 17 (longPayload.drop 1)) = false
    ∧ wellFormed (.rejectApplicatorApplied 5 20 (longPayload.drop 1)) = false
    ∧ wellFormed (.routed 5 19 longPayload) = false
    ∧ wellFormed (.mgmtRequestPart 2 0x24 1 1 1 (List.replicate 117 0)) = false
    ∧ wellFormed (.unknownRequestCode 2 longPayload) = false ∧ wellFormed (.unknownRequestCode 2 [0x24]) = false := by
  decide +kernel

def articleF : ArticleFields := ⟨keyA, [], 9400, 150, 10, 260, 792, 1⟩
def consignmentF : ConsignmentFields := ⟨consignmentNo, ascii "NORTHGATE TAVERNS", 120, 2, 2, 1, 3, 7, 0⟩
def planF : PlanFields := ⟨licence1, consignmentNo, 25000, 144, none, [⟨keyA, 50⟩, ⟨keyB, 24⟩]⟩
def holdF : HoldFields := ⟨keyA, ascii "L1190", 2, 0, 9570⟩
def watchF : WatchFields := ⟨3, 1, some 14, some 8, [⟨0, 1, 1, 5, 0⟩], 1, 2⟩

theorem test_wf_article_put : wellFormed (.articlePut 2 1 articleF) = true
    ∧ ([{ articleF with key := [] }, { articleF with description := longText }, { articleF with caseWeight := 256 ^ 4 },
        { articleF with caseTol := 256 ^ 4 }, { articleF with casesPerLayer := 256 }, { articleF with layerHeight := 65536 },
        { articleF with caseVolume := 65536 }].all fun f => !wellFormed (.articlePut 2 1 f)) = true := by decide +kernel

theorem test_wf_consignment_put : wellFormed (.consignmentPut 2 1 consignmentF) = true
    ∧ ([{ consignmentF with number := [] }, { consignmentF with customer := longText },
        { consignmentF with minShelfLife := 65536 }, { consignmentF with maxLots := 256 },
        { consignmentF with sightings := 256 }, { consignmentF with labelTemplate := 256 },
        { consignmentF with bay := 256 }, { consignmentF with defaultRecipe := 256 }].all
          fun f => !wellFormed (.consignmentPut 2 1 f)) = true := by decide +kernel

theorem test_wf_plan_put : wellFormed (.planPut 2 1 planF) = true
    ∧ ([{ planF with licence := [0x31] }, { planF with consignment := [] }, { planF with tare := 256 ^ 4 },
        { planF with baseHeight := 65536 }, { planF with recipe := some 255 },
        { planF with lines := List.replicate 256 ⟨keyA, 1⟩ }, { planF with lines := [⟨[], 1⟩] },
        { planF with lines := [⟨keyA, 256⟩] }].all fun f => !wellFormed (.planPut 2 1 f)) = true := by decide +kernel

theorem test_wf_table_keys : ([.articleDelete 2 1 [], .articleGet 2 1 [], .articleNext 2 1 [], .consignmentDelete 2 1 [],
      .consignmentGet 2 1 [], .consignmentNext 2 1 [], .planDelete 2 1 [0x31], .planGet 2 1 (.licence [0x31]),
      .planGet 2 1 (.slot 65536), .planNext 2 1 (some 65535), .holdRelease 2 1 [] [], .holdRelease 2 1 keyA longText,
      .holdNext 2 1 (some ([], [])), .holdNext 2 1 (some (keyA, longText))].all fun i => !wellFormed i) = true := by
  decide +kernel

theorem test_wf_holds_and_contexts : wellFormed (.holdAdd 2 1 holdF) = true
    ∧ ([.holdAdd 2 1 { holdF with article := [] }, .holdAdd 2 1 { holdF with lot := longText },
      .holdAdd 2 1 { holdF with code := 256 }, .holdAdd 2 1 { holdF with placed := 65536 }, .currency 2 1 65536 0,
      .currency 2 1 0 65536, .laneClear 2 1 256, .contextGet 2 1 (.slot 256), .contextGet 2 1 (.licence [0x31]),
      .caseMapGet 2 1 (.slot 256) 1, .caseMapGet 2 1 (.slot 1) 256, .scaleClear 2 1 256,
      .labelGet 2 1 (.slot 256), .logGet 2 1 65536].all fun i => !wellFormed i) = true := by decide +kernel

theorem test_wf_others : ([.wrapperConfig 2 1 256 [] 0, .wrapperConfig 2 1 1 (List.replicate 256 0) 0,
      .wrapperConfig 2 1 1 [256] 0, .wrapperConfig 2 1 1 [] (256 ^ 4), .templateBegin 2 1 256,
      .templateItems 2 1 (List.replicate 256 .newline), .templateItems 2 1 [.text longText],
      .templateItems 2 1 [.unknown 1], .templateGet 2 1 256 1, .templateGet 2 1 1 256, .watchGet 2 1 256 1 0,
      .watchGet 2 1 1 2 256, .watchGet 2 1 1 1 1, .watchAck 2 1 256, .paramSet 2 1 (List.replicate 256 (1, 1)),
      .paramSet 2 1 [(256, 1)], .paramSet 2 1 [(1, 256 ^ 4)], .paramGet 2 1 (List.replicate 256 1),
      .paramGet 2 1 [256]].all fun i => !wellFormed i) = true := by decide +kernel

theorem test_wf_watch_put : wellFormed (.watchPut 2 1 watchF) = true
    ∧ ([{ watchF with screen := 256 }, { watchF with source := some 255 }, { watchF with kind := some 65535 },
        { watchF with tests := List.replicate 256 ⟨0, 1, 1, 5, 0⟩ }, { watchF with tests := [⟨256, 1, 1, 5, 0⟩] },
        { watchF with tests := [⟨0, 256, 1, 5, 0⟩] }, { watchF with tests := [⟨0, 1, 1, 256 ^ 4, 0⟩] },
        { watchF with tests := [⟨0, 1, 3, 5, 256 ^ 4⟩] }, { watchF with tests := [⟨0, 1, 1, 5, 1⟩] },
        { watchF with tests := [⟨0, 1, 4, 1, 0⟩] }].all fun f => !wellFormed (.watchPut 2 1 f)) = true := by decide +kernel

/-- A request above 8 parts of 116 bytes is not well formed. -/
theorem test_wf_parts : wellFormed (.templateItems 2 1 (List.replicate 4 (.text (List.replicate 240 0x41)))) = false
    ∧ wellFormed (.templateItems 2 1 (List.replicate 3 (.text (List.replicate 240 0x41)))) = true := by decide +kernel

/-! ### A small line for the witnesses -/

/-- Address 5 is the part; 2 the dispatch system, 10 to 13 the stations of lane 3, 14 wrapper 1, 16 the car, 17 the
applicator of line 1, 18 the spur, 19 exit switch 1, 20 the reject applicator. -/
def stations1 : Vector (List RoleInst) 32 := Vector.ofFn fun a =>
  match a.val with
  | 2 => [.dispatchSystem]
  | 10 => [.tagReader 2]
  | 11 => [.tunnel 2]
  | 12 => [.measure 2]
  | 13 => [.infeed 2]
  | 14 => [.wrapper 0]
  | 16 => [.transferCar]
  | 17 => [.labelApplicator 0]
  | 18 => [.rejectSpur]
  | 19 => [.exitSwitch 0]
  | 20 => [.rejectApplicator]
  | _ => []

def ctl1 : ModeControl := ⟨false, .run, none, false, 5, Params.default⟩

/-- The part in RUN with a CURRENT list, its tables loaded and no context open. -/
def live : State :=
  { State.reset with
    ctl := ctl1
    refs := ⟨[artA, artB], [consignment1], [{ plan1 with state := .loaded, bound := none }], stations1⟩
    holds := { State.reset.holds with
      list := [⟨keyA, ascii "L1190", .recall, 0, 9570⟩], generation := 65535, currency := .current,
      window := some 60000, day := some 9570 }
    ring := { State.reset.ring with silence := some 200 } }

/-- The same part in STOPPED. -/
def stopped : State := { live with ctl := { ctl1 with mode := .stopped, rejectAll := true } }

/-- An open context in slot 12, in lane 3. -/
def withPallet (c : Context) (s : State) : State :=
  (s.putCtx 12 (some c)).modLane 2 fun l => { l with queue := [12] }

/-- An open context in slot 12, in label line 1. -/
def onLine (c : Context) (s : State) : State :=
  (s.putCtx 12 (some c)).onLabels fun d => { d with lines := d.lines.set 0 [12] }

/-- An open context in slot 12, first of the ticket order. -/
def onTickets (c : Context) (s : State) : State :=
  (s.putCtx 12 (some c)).onLabels fun d => { d with tickets := [12] }

/-- A wrapper record in place of wrapper 1's. -/
def withWrapper (w : Wrapper) (s : State) : State := s.modWrapper 0 fun _ => w

def originOf (n : Nat) (s : State) : State :=
  s.onRing fun r => { r with origin := List.replicate n ⟨2, 5, 0x32, []⟩ }

/-- The state a command leaves. -/
def after (c : Instr) (s : State) : State :=
  match exec c s with
  | .next t => t
  | _ => s

def job1 (k : LabelKind) (g : JobStage) : Job := ⟨g, k, 4117⟩

def licenceField : List Byte := 18 :: licence1

theorem hears_of {src : Byte} {s : State}
    (h : (!s.ctl.inReset && !s.passive && s.ring.silence.isSome && src != s.ownAddress) = true) : s.Hears src := by
  simp only [Bool.and_eq_true, Bool.not_eq_true', bne_iff_ne] at h
  exact ⟨⟨h.1.1.1, h.1.1.2, h.1.2⟩, h.2⟩

theorem takes_of {src code : Byte} {s : State}
    (h : (!s.ctl.inReset && !s.passive && s.ring.silence.isSome && src != s.ownAddress) = true)
    (hr : s.mgmt.replies.length < 16) (hp : s.permits src code false = true) : s.Takes src code :=
  ⟨hears_of h, hr, hp⟩

/-- A test of every open context is a test of each. -/
theorem all_of {s : State} {p : Context → Bool} (h : ∀ j, (s.ctx j).all p = true) :
    ∀ j c, s.ctx j = some c → p c = true := fun j c e => by simpa [e] using h j

theorem live_permits : ∀ c ∈ knownCodes, live.permits 2 c false = true := by decide +kernel
theorem stopped_permits : ∀ c ∈ knownCodes, stopped.permits 2 c false = true := by decide +kernel

/-- The part in RUN takes every request of the dispatch system. -/
theorem test_live_takes : ∀ code ∈ knownCodes, live.Takes 2 code := fun _ h =>
  takes_of (by decide +kernel) (by decide +kernel) (live_permits _ h)

theorem test_stopped_takes : ∀ code ∈ knownCodes, stopped.Takes 2 code := fun _ h =>
  takes_of (by decide +kernel) (by decide +kernel) (stopped_permits _ h)

/-! ### Witnesses: one theorem for each obligation with hypotheses -/

theorem test_witness_StepRunsFront : { live with pending := [.ringOutFree, .timebasePeriod] }.pending
    = .ringOutFree :: [.timebasePeriod] ∧ live.pending = [] := ⟨rfl, rfl⟩

theorem test_witness_ResetAndRelease : State.reset.ctl.inReset = true ∧ live.ctl.inReset = false
    ∧ Instr.timebasePeriod ≠ .reset ∧ (∀ strap, Instr.timebasePeriod ≠ .resetRelease strap) :=
  ⟨rfl, rfl, by decide, by intro _ h; cases h⟩

theorem test_witness_TimebaseCounts : live.ctl.inReset = false := rfl

set_option maxRecDepth 100000 in
/-- No byte, 5 bytes and a payload of 121 bytes are no telegram; payloads of 0 and 120 bytes are. -/
theorem test_witness_InvalidTelegramsAreDropped : telegramOf [] = none ∧ telegramOf [5, 16, 7, 0, 0] = none
    ∧ telegramOf (frameBytes ⟨5, 16, 7, longPayload⟩) = none
    ∧ telegramOf (frameBytes ⟨5, 16, 7, []⟩) = some ⟨5, 16, 7, []⟩
    ∧ telegramOf (frameBytes ⟨5, 16, 7, List.replicate 120 0⟩) = some ⟨5, 16, 7, List.replicate 120 0⟩ := by
  decide +kernel

theorem test_witness_FrameRoundTrip : (List.replicate 120 (0 : Byte)).length ≤ 120
    ∧ telegramOf (frameBytes ⟨5, 16, 7, [1]⟩) = some ⟨5, 16, 7, [1]⟩ := by decide +kernel

/-- A screen that consumes every telegram. -/
def taking : Screen := { Screen.reset with enabled := true, action := .consume }

def live_consumes : State := { live with watch := live.watch.set 0 taking }

/-- The part strapped to 0 or 31, in START, with some telegrams to forward. -/
def passive (a : Fin 32) (n : Nat) : State :=
  { State.reset with
    ctl := { State.reset.ctl with inReset := false, address := a }
    ring := { State.reset.ring with silence := some 1, forward := List.replicate n ⟨31, 9, 1, []⟩ } }

theorem test_witness_RingInCases : live.Listening ∧ live_consumes.Listening
    ∧ live.ownAddress = 5 ∧ (⟨5, 5, 1, []⟩ : Telegram).src = live.ownAddress
    ∧ live.arrived.consumed ⟨31, 9, 1, []⟩ = false ∧ live_consumes.arrived.consumed ⟨31, 9, 1, []⟩ = true
    ∧ (0x0B : Nat) < (0x0C : Byte).toNat ∧ (passive 31 7).passive = true ∧ (passive 0 8).passive = true
    ∧ (passive 31 7).ctl.mode = .start ∧ (passive 31 7).ring.forward.length < 8
    ∧ 8 ≤ (passive 0 8).ring.forward.length := by
  refine ⟨⟨rfl, by decide +kernel, rfl⟩, ⟨rfl, by decide +kernel, rfl⟩, ?_⟩
  decide +kernel

/-- The part with given queues and forward run. -/
def queues (f o : List Telegram) (n : Nat) : State :=
  live.onRing fun r => { r with forward := f, origin := o, run := n }

def tg (src : Byte) : Telegram := ⟨31, src, 0x32, []⟩

theorem test_witness_RingOutChoice : (queues [tg 9] [] 0).ring.origin = []
    ∧ (queues [tg 9] [tg 5] 3).ring.origin ≠ [] ∧ (queues [tg 9] [tg 5] 3).ring.run < 4
    ∧ (queues [] [tg 5] 0).ring.forward = [] ∧ 4 ≤ (queues [tg 9] [tg 5] 4).ring.run
    ∧ (queues [tg 9] [tg 5] 4).ring.waiting = []
    ∧ (queues [] [] 0).ring.forward = [] ∧ (queues [] [] 0).ring.origin = []
    ∧ ((queues [] (List.replicate 32 (tg 5)) 0).onRing fun r => { r with waiting := [.infeed 2] }).ring.origin
        = tg 5 :: List.replicate 31 (tg 5) := by decide +kernel

theorem test_witness_OriginatedGoesOutWithinFive : (queues (List.replicate 8 (tg 9)) [tg 5] 0).ctl.inReset = false
    ∧ (queues (List.replicate 8 (tg 9)) [tg 5] 0).ring.origin = tg 5 :: [] := ⟨rfl, rfl⟩

def waitingLine : State := live.onRing fun r => { r with waiting := [.infeed 2] }

theorem test_witness_RepliesAndReportsLeave : (Result.none).fields.flatten.length ≤ 115
    ∧ live.mgmt.replies = [] ∧ Holder.replies ∉ live.ring.waiting ∧ (originOf 31 live).ring.waiting = []
    ∧ (originOf 31 live).ring.origin.length < 32 ∧ 32 ≤ (originOf 32 live).ring.origin.length
    ∧ Holder.replies ∉ waitingLine.ring.waiting ∧ waitingLine.ring.waiting ≠ []
    ∧ (waitingLine.onMgmt fun m => { m with reports := List.replicate 31 (.ring (.forwardFull 1 9)) }).mgmt.reports.length = 31
    ∧ (originOf 32 live).mgmt.reports.length = 0
    ∧ 32 ≤ (live.onMgmt fun m => { m with
        reports := List.replicate 32 (.ring (.forwardFull 1 9)) }).mgmt.reports.length
    ∧ live.mgmt.reports = [] ∧ live.ctl.params.reportAddress = 0
    ∧ (live.holderOf .dispatchSystem).map addressByte = some 2 ∧ (2 : Byte) ≠ live.ownAddress
    ∧ { live with ctl := { ctl1 with params := { Params.default with reportAddress := 30 } } }.ctl.params.reportAddress ≠ 0
    ∧ BitVec.ofNat 8 { live with ctl := { ctl1 with params := { Params.default with
        reportAddress := 5 } } }.ctl.params.reportAddress = live.ownAddress
    ∧ { live with refs := State.reset.refs }.holderOf .dispatchSystem = none := by decide +kernel

/-- The line with a full origin queue, some holders waiting, two reports and an INFEED STOP for lane 3. -/
def turns (w : List Holder) : State :=
  (((originOf 32 live).onRing fun r => { r with waiting := w }).onMgmt fun m => { m with
    reports := [.ring (.forwardFull 1 9), .ring (.forwardFull 2 9)] }).modLane 2 fun l => { l with order := some .stop }

/-- The line with one report, and no address that holds DISPATCH_SYSTEM. -/
def nowhere : State :=
  { live with refs := State.reset.refs }.onMgmt fun m => { m with reports := [.ring (.forwardFull 1 9)] }

/-- The holder of an INFEED gives a telegram; that of reports without a destination gives none, and has no more. -/
theorem test_witness_PendingTurns : (turns [.infeed 2]).ring.waiting = .infeed 2 :: []
    ∧ (turns [.infeed 2]).ring.origin = ⟨2, 5, 0x32, []⟩ :: List.replicate 31 ⟨2, 5, 0x32, []⟩
    ∧ (turns []).take (.infeed 2) = (some ⟨13, 5, 0x20, [2]⟩,
        (turns []).modLane 2 fun l => { l with order := none, lastPlaced := some .stop })
    ∧ (nowhere.take .reports).1 = none ∧ (nowhere.take .reports).2.hasMore .reports = false
    ∧ (turns [.reports, .infeed 2]).ring.origin
        = ⟨2, 5, 0x32, []⟩ :: ⟨2, 5, 0x32, []⟩ :: List.replicate 30 ⟨2, 5, 0x32, []⟩
    ∧ (turns [.reports, .infeed 2]).ring.forward = [] ∧ (turns [.reports, .infeed 2]).reportDest = some 2
    ∧ (turns [.reports, .infeed 2]).tracker.lanes[(2 : Lane)].order = some .stop
    ∧ (turns [.reports, .infeed 2]).holderOf (.infeed 2) = some 13 := by decide +kernel

/-- R156: two rooms go to two holders, one telegram each, and the one with more to place waits again. -/
theorem test_two_holders_take_turns :
    ((afterAll [.ringOutFree, .ringOutFree] (turns [.reports, .infeed 2])).map fun t =>
      (t.ring.origin.drop 30, t.ring.waiting)) = some
        ([⟨2, 5, 0x32, [8, 0, 0, 0, 1, 1, 9]⟩, ⟨13, 5, 0x20, [2]⟩], [.reports]) := by decide +kernel

/-- A reply of 507 bytes, five parts. -/
def longReply : Result := .templateItems 12 (List.replicate 12 (.text (List.replicate 40 0x41))) none

def longWaits (k : Nat) (more : List Reply) : State :=
  ((originOf 32 live).onMgmt fun m => { m with replies := ⟨2, 0x43, 1, .ok, longReply, k⟩ :: more }).onRing
    fun r => { r with waiting := [.replies, .car] }

theorem test_witness_LongReplies : longReply.fields.flatten.length = 507 ∧ (507 + 114) / 115 = 5
    ∧ (originOf 27 live).ring.origin.length + 5 ≤ 32 ∧ (originOf 29 live).ring.origin.length + 3 = 32
    ∧ (originOf 29 live).ring.waiting = [] ∧ Holder.replies ∈ (longWaits 3 []).ring.waiting
    ∧ (longWaits 3 []).ring.waiting = .replies :: [.car]
    ∧ (longWaits 4 []).mgmt.replies = ⟨2, 0x43, 1, .ok, longReply, 4⟩ :: [] ∧ 5 ≤ 4 + 1 ∧ ¬ 5 ≤ 3 + 1
    ∧ (longWaits 3 []).ring.origin = ⟨2, 5, 0x32, []⟩ :: List.replicate 31 ⟨2, 5, 0x32, []⟩ := by decide +kernel

/-- R160: a reply of five parts that finds room for three waits with three sent; its fifth part is the 47 bytes left. -/
theorem test_long_reply : let t := (originOf 29 live).answered 2 0x43 1 .ok longReply
    (t.mgmt.replies.map (·.sent), t.ring.waiting, (t.ring.origin.drop 29).map fun x => x.payload.take 5)
      = ([3], [.replies], [[0x43, 1, 0, 1, 5], [0x43, 1, 0, 2, 5], [0x43, 1, 0, 3, 5]])
    ∧ ((after .ringOutFree (longWaits 4 [])).ring.origin.getLast?.map fun x => x.payload.length) = some 52
    ∧ (after .ringOutFree (longWaits 4 [])).mgmt.replies = [] := by decide +kernel

/-- An enabled screen with an action and a latch, and a test of the first byte. -/
def screen1 (a : Action) (x : Latch) : Screen :=
  { Screen.reset with enabled := true, action := a, latch := x, tests := [⟨0, 1, .equal 5, none⟩] }

def watching (a : Action) (x : Latch) : State := { live with watch := live.watch.set 3 (screen1 a x) }

theorem test_witness_ScreensJudgeAndAct :
    (∀ m : ScreenNo, (live.watch[m]).hits ⟨31, 14, 8, [5]⟩ = false)
    ∧ (∀ m : ScreenNo, m = 2 → ((watching .alert .clear).watch[m]).judges ⟨31, 14, 8, [5]⟩ = false)
    ∧ (∀ a ∈ [Action.alert, .alertCapture, .consume, .consumeAlert], ∀ x ∈ [Latch.clear, .pending, .overrun],
        ((watching a x).watch[(3 : ScreenNo)]).hits ⟨31, 14, 8, [5]⟩ = true)
    ∧ (∀ m : ScreenNo, m < 3 → ((watching .alert .clear).watch[m]).hits ⟨31, 14, 8, [5]⟩ = false)
    ∧ (∀ a ∈ [Action.alert, .consume], (screen1 a .clear).judges ⟨31, 14, 8, [5]⟩ = true)
    ∧ (119 : Nat) + 1 ≤ (List.replicate 120 (0 : Byte)).length ∧ [(5 : Byte)].length < 1 + 1 := by decide +kernel

/-- R165: a judging screen stores the field that lies in the payload, and keeps its last value where none does. -/
theorem test_screen_remembers : ((screen1 .alert .clear).remember ⟨31, 14, 8, [5]⟩).tests = [⟨0, 1, .equal 5, some 5⟩]
    ∧ ((screen1 .alert .clear).remember ⟨31, 14, 8, []⟩).tests = [⟨0, 1, .equal 5, none⟩] := by decide +kernel

/-- A template item list of 190 bytes, two parts. -/
def longItems : List ItemFields := List.replicate 9 (.text (List.replicate 20 0x41))

theorem test_witness_PartsMakeTheRequest : live.Hears 2 ∧ (0x41 : Byte) ∈ knownCodes
    ∧ (requestFields (.templateItems 2 1 longItems)).flatten.length = 199
    ∧ (requestParts 2 0x41 1 (requestFields (.templateItems 2 1 longItems)).flatten).length = 2
    ∧ whole (takeRequest 0x41 2 1) (requestFields (.templateItems 2 1 longItems)).flatten
        = some (.templateItems 2 1 longItems)
    ∧ ∃ t, exec (.templateItems 2 1 longItems) live = .next t :=
  ⟨hears_of (by decide +kernel), by decide +kernel, by decide +kernel, by decide +kernel, by decide +kernel, _, rfl⟩

theorem test_witness_RequestRoundTrip : wellFormed (.planPut 2 1 planF) = true
    ∧ requestCode (.planPut 2 1 planF) = some 0x0B ∧ wellFormed (.statusGet 2 1) = true
    ∧ requestCode (.statusGet 2 1) = some 0x67 := by decide +kernel

def repliesOf (n : Nat) : State :=
  live.onMgmt fun m => { m with replies := List.replicate n ⟨2, 0x67, 1, .ok, .none, 0⟩ }

def gathering1 : Gathering := ⟨2, 0x41, 1, 8, 7, [1]⟩

def gatheringLine : State := live.onMgmt fun m => { m with gatherings := [gathering1] }

theorem test_witness_RequestsAreScreened : (repliesOf 16).Hears 2 ∧ (repliesOf 15).Hears 2 ∧ live.Hears 9
    ∧ 16 ≤ (repliesOf 16).mgmt.replies.length ∧ (repliesOf 16).ring.overload = none
    ∧ ((repliesOf 16).onRing fun r => { r with overload := some .forwardFull }).ring.overload.isSome = true
    ∧ (repliesOf 15).mgmt.replies.length < 16 ∧ (0x68 : Byte) ∉ knownCodes ∧ (0x67 : Byte) ∈ knownCodes
    ∧ live.permits 9 0x67 false = false ∧ live.permits 2 0x67 false = true
    ∧ whole (takeRequest 0x67 2 1) [0] = none ∧ whole (takeRequest 0x67 2 1) [] = some (.statusGet 2 1)
    ∧ 2 ≤ (8 : Byte).toNat ∧ (8 : Byte).toNat ≤ 8 ∧ gatheringLine.gathering 2 = some gathering1
    ∧ (7 : Byte).toNat = gathering1.next ∧ (7 : Byte).toNat < (8 : Byte).toNat ∧ live.gathering 2 = none := by
  refine ⟨hears_of (by decide +kernel), hears_of (by decide +kernel), hears_of (by decide +kernel), ?_⟩
  decide +kernel

/-- STOPPED with no holder of the dispatch system role. -/
def unclaimed : State := { stopped with refs := { stopped.refs with stations := State.reset.refs.stations } }

/-- A STATION_PUT that is no claim: of another address, of another role, with the role held, and of two bytes. -/
theorem test_witness_NoClaim : live.Hears 9 ∧ unclaimed.Hears 9 ∧ live.permits 9 0x10 false = false
    ∧ unclaimed.permits 9 0x10 false = false ∧ RoleInst.dispatchSystem ∈ live.refs.stations[(2 : Fin 32)]
    ∧ (∀ b : Fin 32, RoleInst.dispatchSystem ∉ unclaimed.refs.stations[b]) ∧ ([9, 0x0B] : List Byte).length ≠ 3
    ∧ ([8, 0x0B, 0] : List Byte)[0]? ≠ some 9 ∧ ([9, 0x0A, 0] : List Byte)[1]? ≠ some 0x0B
    ∧ unclaimed.mgmt.replies.length < 16 :=
  ⟨hears_of (by decide +kernel), hears_of (by decide +kernel), by decide +kernel⟩

/-- R23: a HOLD_CLEAR refused for want of permission carries the generation, 65,535, and so does one that does not fit. -/
theorem test_refused_hold_request :
    ((after (.holdClear 9 1) live).ring.origin.map (·.payload)) = [[0x22, 1, 0x16, 1, 1, 0xFF, 0xFF]]
    ∧ ((after (.mgmtRequestPart 2 0x22 1 1 1 [0]) live).ring.origin.map (·.payload))
      = [[0x22, 1, 0x17, 1, 1, 0xFF, 0xFF]] := by decide +kernel

/-- Address 9 holds no role; a payload that no layout of section 9.1 fits. -/
theorem test_witness_SourceAndPayloadMustFit : live.Hears 9 ∧ live.Hears 10 ∧ live.roleOf 9 laneOfReader = none
    ∧ live.roleOf 9 laneOfTunnel = none ∧ live.roleOf 9 laneOfMeasure = none ∧ RoleInst.transferCar ∉ live.rolesAt 9
    ∧ live.roleOf 9 wrapperOf = none ∧ live.roleOf 9 applicatorRole = none ∧ live.roleOf 9 lineOfSwitch = none
    ∧ RoleInst.rejectSpur ∉ live.rolesAt 9 ∧ live.roleOf 10 laneOfReader = some 2
    ∧ live.roleOf 11 laneOfTunnel = some 2 ∧ live.roleOf 12 laneOfMeasure = some 2
    ∧ live.roleOf 17 applicatorRole = some (some 0) ∧ live.roleOf 20 applicatorRole = some none
    ∧ live.roleOf 19 lineOfSwitch = some 0 ∧ whole takeLicence [17] = none ∧ (whole takeCase [1]).isNone = true
    ∧ whole takeMeasure [] = none ∧ ([0, 0] : List Byte).length ≠ 3 ∧ (whole takeLabelEvent [3]).isNone = true
    ∧ whole takeRouted licenceField = none :=
  ⟨hears_of (by decide +kernel), hears_of (by decide +kernel), by decide +kernel⟩

/-- Payloads that fit no layout of the kinds whose rows carry none. -/
theorem test_witness_IllFitting : (∀ a ∈ [(11 : Byte), 12, 14, 16, 17, 18, 20], live.Hears a)
    ∧ (live.roleOf 11 laneOfTunnel).isSome = true ∧ (live.roleOf 12 laneOfMeasure).isSome = true
    ∧ RoleInst.transferCar ∈ live.rolesAt 16 ∧ (live.roleOf 14 wrapperOf).isSome = true
    ∧ (live.roleOf 17 applicatorRole).isSome = true ∧ (live.roleOf 20 applicatorRole).isSome = true
    ∧ RoleInst.rejectSpur ∈ live.rolesAt 18 ∧ 3 < (4 : Byte).toNat ∧ 5 < (6 : Byte).toNat ∧ 4 < (5 : Byte).toNat
    ∧ ([1, 1] : List Byte).length ≠ 1 ∧ ([0] : List Byte) ≠ [] := by
  refine ⟨fun a h => hears_of ?_, by decide +kernel⟩
  revert a; decide +kernel

/-- R153: a PALLET_AT_LABEL with a byte behind its event forms a RING report with the kind, the source and length 2. -/
theorem test_bad_payload : (after (.ringInTelegram ⟨5, 17, 0x09, [2, 0]⟩) live).ring.origin.map (·.payload)
    = [[8, 0, 0, 0, 3, 9, 17, 2]] := by decide +kernel

/-- A decided context: its verdict, its reasons and a decision record. -/
def decided (v : Verdict) (rs : List Reason) (phase : Phase) (timer : Option Nat) : Context :=
  { pallet phase timer with
    verdict := some v, reasons := rs, record := some ⟨none, none, none, none, 0, 0, .normal, 0, 1204300⟩ }

/-- A period of the timebase waits for a line with a PASS context in slot 12, one periods before its limit. -/
def running : State :=
  { withPallet (decided .pass [] .atHeadDecided (some 1)) live with pending := [.timebasePeriod] }

theorem test_running_steps : ∃ t, step running = .next t
    ∧ (t.ctx 12).map (·.timer) = some (some 0) := ⟨_, rfl, by decide +kernel⟩

theorem test_witness_ModeKept : running.ModeInv ∧ State.ModeInv { stopped with pending := [.timebasePeriod] }
    ∧ ∃ t, step { stopped with pending := [.timebasePeriod] } = .next t := by
  refine ⟨?_, ?_, _, rfl⟩ <;> (unfold State.ModeInv; decide +kernel)

theorem test_witness_CapacitiesKept : running.CapacityInv ∧ running.PendingInv
    ∧ State.PendingInv { originOf 32 waitingLine with pending := [.ringOutFree] }
    ∧ ∃ t, step { originOf 32 waitingLine with pending := [.ringOutFree] } = .next t := by
  refine ⟨by constructor <;> decide +kernel, ?_, ?_, _, rfl⟩ <;> (unfold State.PendingInv; decide +kernel)

theorem test_witness_NumbersAndParametersKept : running.NumberInv ∧ running.holds.generation = 65535
    ∧ running.ctl.params.InRange := by
  refine ⟨by constructor <;> decide +kernel, rfl, ?_⟩
  have h : ∀ n : Fin 18, (running.ctl.params.get n).all
      (fun v => decide ((paramRange n).1 ≤ v) && decide (v ≤ (paramRange n).2)) = true := by decide +kernel
  intro n v e
  by_cases hn : n < 18
  · simpa [e] using h ⟨n, hn⟩
  · have : Params.get running.ctl.params n = none := by
      unfold Params.get
      split <;> simp_all
    simp [this] at e

theorem test_witness_TablesKept : running.TableInv := by constructor <;> decide +kernel

theorem test_witness_VerdictsOnlyRise : running.WaitingInv ∧ (∃ t, step running = .next t
      ∧ (t.ctx 12).isSome = true) ∧ (running.ctx 12).map (·.verdict) = some (some .pass)
    ∧ State.WaitingInv { withPallet (pallet .waiting (some 0)) live with pending := [.decisionLimitExpiry 12] } := by
  refine ⟨fun i c e h => ?_, ⟨_, rfl, by decide +kernel⟩, by decide +kernel, fun i c e h => ?_⟩
  · have := all_of (s := running) (p := fun c => c.phase != .waiting) (by decide +kernel) i c e
    simp [h] at this
  · have := all_of (s := { withPallet (pallet .waiting (some 0)) live with pending := [.decisionLimitExpiry 12] })
      (p := fun c => c.verdict == none) (by decide +kernel) i c e
    simpa using this

/-- Eight lines of one case each. -/
def fullTally : Tally where
  cases := (List.range 8).map fun k => (k + 1, .counted ⟨keyA, some [digitChar k], none⟩)
  lines := (List.range 8).map fun k => ⟨⟨keyA, some [digitChar k], none⟩, 1⟩
  unknowns := 0
  unindexed := 255
  duplicates := 255

theorem test_tallies_are_consistent : Tally.Ok tallyAfter5 ∧ Tally.Ok tally1 ∧ Tally.Ok fullTally := by
  have h (t : Tally) (l : t.cases.all (fun p => match p.2 with
      | .counted c => t.lines.any fun l => l.content == c | .unknown => true) = true) :
      ∀ p ∈ t.cases, ∀ c, p.2 = .counted c → ∃ l ∈ t.lines, l.content = c := by
    intro p hp c e
    have := List.all_eq_true.mp l p hp
    simpa [e] using this
  refine ⟨?_, ?_, ?_⟩ <;> constructor <;> first | exact h _ (by decide +kernel) | decide +kernel

/-- Each case of a read: index 0; a new and a seen index with an unreadable code; a readable code with room, without
room, and for a counted index with other, equal and more content. -/
theorem test_witness_CaseReadsAreTallied : (caseOf 255 keyA "L1190" "260930").index ≤ 255
    ∧ (caseOf 0 keyA "" "").index = 0 ∧ (caseOf 255 [] "" "").article = none ∧ tallyAfter5.entry 255 = none
    ∧ (tallyAfter5.entry 1).isSome = true ∧ tally1.entry 6 = some .unknown
    ∧ (caseOf 255 keyA "L1190" "260930").article = some keyA ∧ tallyAfter5.lines.length < 8
    ∧ 8 ≤ fullTally.lines.length ∧ fullTally.entry 9 = none
    ∧ (∀ l ∈ fullTally.lines, sameContent l.content ⟨keyB, none, none⟩ = false)
    ∧ tallyAfter5.entry 1 = some (.counted ⟨keyA, some (ascii "L1190"), some 9769⟩)
    ∧ contradicts ⟨keyA, some (ascii "L1190"), some 9769⟩ ⟨keyA, some (ascii "L1191"), none⟩ = true
    ∧ contradicts ⟨keyA, some (ascii "L1190"), some 9769⟩ ⟨keyA, none, none⟩ = false
    ∧ filled ⟨keyA, some (ascii "L1190"), some 9769⟩ ⟨keyA, none, none⟩ = ⟨keyA, some (ascii "L1190"), some 9769⟩ := by
  decide +kernel

/-- Eight lines, the first of two cases. -/
def fullTally2 : Tally :=
  { fullTally with
    cases := fullTally.cases ++ [(9, .counted ⟨keyA, some [digitChar 0], none⟩)]
    lines := fullTally.lines.modifyHead fun l => { l with count := 2 } }

theorem test_full_tally_is_consistent : Tally.Ok fullTally2 := by
  have h : fullTally2.cases.all (fun p => match p.2 with
      | .counted c => fullTally2.lines.any fun l => l.content == c | .unknown => true) = true := by decide +kernel
  constructor
  case lined =>
    intro p hp c e
    have := List.all_eq_true.mp h p hp
    simpa [e] using this
  all_goals decide +kernel

/-- Each case of a fill: a line that matches, a case alone in its line, and no room. -/
theorem test_witness_Fills :
    filled ⟨keyA, none, some 9769⟩ ⟨keyA, some (ascii "L1190"), none⟩ = ⟨keyA, some (ascii "L1190"), some 9769⟩
    ∧ contradicts ⟨keyA, none, some 9769⟩ ⟨keyA, some (ascii "L1190"), none⟩ = false
    ∧ tallyAfter5.entry 2 = some (.counted ⟨keyA, none, some 9769⟩)
    ∧ (∃ l ∈ tallyAfter5.lines, sameContent l.content ⟨keyA, some (ascii "L1190"), some 9769⟩ = true)
    ∧ fullTally.entry 1 = some (.counted ⟨keyA, some [digitChar 0], none⟩)
    ∧ (∃ l ∈ fullTally.lines, l.content = ⟨keyA, some [digitChar 0], none⟩ ∧ l.count = 1)
    ∧ 8 ≤ fullTally2.lines.length ∧ fullTally2.entry 9 = some (.counted ⟨keyA, some [digitChar 0], none⟩)
    ∧ (∀ l ∈ fullTally2.lines, sameContent l.content ⟨keyA, some [digitChar 0], some 9769⟩ = false)
    ∧ (∀ l ∈ fullTally2.lines, l.content = ⟨keyA, some [digitChar 0], none⟩ → 1 < l.count) := by
  decide +kernel

/-- R66: without room the tally stays; a case alone in its line gives that line's place up. -/
theorem test_fill_without_room :
    fullTally2.read (caseOf 9 keyA "0" "260930") = (fullTally2, some .tallyOverflow)
    ∧ ((fullTally.read (caseOf 1 keyA "0" "260930")).1.lines.map (·.count), (fullTally.read (caseOf 1 keyA "0" "260930")).2)
      = (List.replicate 8 1, none)
    ∧ (fullTally.read (caseOf 1 keyA "0" "260930")).1.lines.getLast? = some ⟨⟨keyA, some [digitChar 0], some 9769⟩, 1⟩ := by
  decide +kernel

theorem test_witness_DecisionOfTheChecks : (pallet .measuring none).verdict = none
    ∧ (pallet .measuring none).shortcut = false
    ∧ (withPallet (pallet .measuring none) live).ctx 12 = some (pallet .measuring none)
    ∧ (withPallet (pallet .measuring none) live).waitingItems (pallet .measuring none) = []
    ∧ ((withPallet (pallet .measuring none) live).inputs (pallet .measuring none)).isSome = true := by decide +kernel

/-- The results of check 8 on a scale: at, below and above its tolerance, at the streak limit and at 8. -/
theorem test_witness_Scales : (-20 : Int).natAbs ≤ 20 ∧ 20 < (-21 : Int).natAbs ∧ (3 : Nat) ≤ min 8 (2 + 1)
    ∧ min 8 (1 + 1) < 3 ∧ min 8 (8 + 1) = 8 ∧ live.ctl.params.scaleStreak = 3
    ∧ (live.scale 2).state = .normal ∧ (pallet .measuring none).weight.isSome = true
    ∧ (scaleAfter 3 (some ⟨100, 20, 79, -21⟩) ⟨.normal, 2⟩).state = .suspect
    ∧ ((live.putScale 2 ⟨.suspect, 3⟩).scale 2).state = .suspect := by decide +kernel

theorem test_witness_DecisionsWithoutChecks :
    ({ pallet .measuring none with reasons := [.draining] } : Context).shortcut = true
    ∧ (pallet .measuring none).shortcut = false
    ∧ { live with holds := State.reset.holds }.waitingItems (pallet .measuring none) = [.holdsStale, .noDay]
    ∧ live.ctl.params.decisionLimit ≠ 0 ∧ (pallet .measuring none).phase ≠ .waiting
    ∧ { live with ctl := { ctl1 with params := { Params.default with decisionLimit := 0 } } }.ctl.params.decisionLimit = 0
    ∧ (withPallet (pallet .waiting (some 1)) live).ctx 12 = some (pallet .waiting (some 1))
    ∧ Reason.ringLost ∉ (pallet .measuring none).reasons ∧ Reason.draining ∈ [Reason.draining]
    ∧ (decided .pass [] .exiting none).verdict = some .pass ∧ live.named ⟨12, 1⟩ = none := by decide +kernel

/-- Two lane heads decided at the same time: lanes 3 and 4. -/
def twoHeads : State :=
  let s := withPallet (decided .rework [.trackSlip] .atHeadDecided none) live
  let s := (s.putCtx 33 (some { decided .rework [.trackSlip] .atHeadDecided none with lane := 3, adm := 2 })).modLane 3
    fun l => { l with queue := [33] }
  s.onAlloc fun a => { a with arbiterDue := true, spur := 5 }

theorem test_witness_ArbiterServesTheEarliest : live.alloc.arbiterDue = false ∧ twoHeads.alloc.arbiterDue = true
    ∧ twoHeads.alloc.car.state = .idle ∧ (live.onAlloc fun a => { a with arbiterDue := true }).chosen = none
    ∧ (twoHeads.modCar fun c => { c with state := .moving }).alloc.car.state ≠ .idle
    ∧ twoHeads.chosen.map (fun x => (x.lane, x.slot)) = some (2, 12) ∧ (twoHeads.ctx 12).isSome = true := by
  decide +kernel

theorem test_witness_ClosureFreesEverything : (0 : Nat) = 0 ∧ 8 < (9 : Nat)
    ∧ (withPallet (decided .pass [] .moving none) live).ctx 12 = some (decided .pass [] .moving none)
    ∧ (12 : Slot) ∈ (withPallet (decided .pass [] .moving none) live).queue 2
    ∧ ((withPallet (decided .pass [] .moving none) live).queue 2).Nodup
    ∧ (onTickets (decided .hold [.lotHeld] .ticketing none) live).labels.tickets.Nodup
    ∧ (withWrapper { Wrapper.reset with state := .fault, pallet := .context ⟨12, 1⟩ } live).wrapper 0
        = { Wrapper.reset with state := .fault, pallet := .context ⟨12, 1⟩ }
    ∧ live.planAt 0 = some { plan1 with state := .loaded, bound := none } := by decide +kernel

/-- Label line 1 with some contexts, and wrapper 1 held for it with the context of slot 20. -/
def heldFor (l : List Slot) : State :=
  let s := (onLine (decided .pass [] .exiting (some 9)) live).putCtx 20
    (some { decided .pass [] .wrapping none with adm := 9 })
  (s.onLabels fun d => { d with lines := d.lines.set 0 l }).onAlloc fun a => { a with
    held := a.held.set 0 [0]
    wrappers := a.wrappers.set 0 { Wrapper.reset with
      state := .doneHeld, pallet := .context ⟨20, 9⟩, progress := some .done } }

theorem held_pallets : ∀ w, ((heldFor [12, 13, 14]).wrapper w).pallet = if w = 0 then .context ⟨20, 9⟩ else .none := by
  decide +kernel

theorem test_witness_HeldOutputs :
    (∀ w id, ((heldFor [12, 13, 14]).wrapper w).pallet = .context id → id.slot = 12 → id.adm = 1)
    ∧ (heldFor [12, 13, 14]).lineOf 12 = some 0 ∧ ((heldFor [12, 13, 14]).line 0).length = 3
    ∧ ((heldFor [12, 13, 14]).line 0).Nodup ∧ (heldFor [12, 13, 14]).alloc.held[(0 : LineNo)] = 0 :: []
    ∧ lineOfWrapper 0 = 0 ∧ ((heldFor [12, 13, 14]).ctx 20).map (·.adm) = some 9
    ∧ (∀ v, ((heldFor [12, 13, 14]).wrapper v).pallet ≠ .context ⟨12, 1⟩)
    ∧ ((heldFor [12, 13]).line 0).length = 2 ∧ ((heldFor [12, 13]).wrapper 0).output = none
    ∧ 32 ≤ (originOf 32 (heldFor [12, 13])).ring.origin.length ∧ live.alloc.held[(0 : LineNo)] = [] := by
  refine ⟨fun w id h e => ?_, by decide +kernel⟩
  rw [held_pallets w] at h
  split at h
  · cases h
    exact absurd e (by decide)
  · cases h

/-- R109: the closure of a context on a full label line hands it the held one. -/
theorem test_held_output_released : let t := (heldFor [12, 13, 14]).closeContext .released .routed 12
    (t.line 0, t.alloc.held[(0 : LineNo)], (t.wrapper 0).pallet) = ([13, 14, 20], [], .none)
      ∧ (t.ctx 20).map (·.phase) = some .queuedLabel := by decide +kernel

/-! ### Witnesses: the station telegrams -/

theorem live_hears {src : Byte} (h : src ≠ 5 := by decide) (s : State := live)
    (e : s.ctl = ctl1 := by rfl) (r : s.ring.silence = some 200 := by rfl) : s.Hears src := by
  refine ⟨⟨by rw [e]; rfl, by unfold State.passive; rw [e]; rfl, by rw [r]; rfl⟩, ?_⟩
  unfold State.ownAddress
  rw [e]
  exact h

/-- A line with four contexts, or five, in lane 3. -/
def laneOf (n : Nat) (m : LineMode) : State :=
  let s := { live with ctl := { ctl1 with mode := m } }
  ((List.range n).foldl (fun s k => s.putCtx (Fin.ofNat 64 k) (some { pallet .admitted none with
      adm := k + 1, licence := some (digitString 18 (k + 1)), planSlot := none })) s).modLane 2
    fun l => { l with queue := (List.range n).map (Fin.ofNat 64) }

theorem test_witness_TagReadAdmits : live.Fits 10 laneOfReader 2 ∧ State.Hears 10 stopped
    ∧ licenceField.length ≤ 120 ∧ whole takeLicence licenceField = some (some licence1)
    ∧ whole takeLicence [0] = some none ∧ live.ctl.mode = .run ∧ ((laneOf 4 .run).queue 2).length < 5
    ∧ (laneOf 4 .run).freeSlot = some 4 ∧ presentLicence (some licence1) = some licence1 ∧ presentLicence none = none
    ∧ (withPallet (pallet .scanning none) live).ctx 12 = some (pallet .scanning none)
    ∧ (pallet .scanning none).licence = some licence1
    ∧ (live.planOf licence1).map (·.state) = some .loaded ∧ live.planAt 0 = live.planOf licence1
    ∧ ((live.modPlan 0 fun p => { p with state := .used }).planOf licence1).map (·.state) = some .used
    ∧ ((live.modPlan 0 fun p => { p with state := .inUse }).planOf licence1).map (·.state) = some .inUse
    ∧ stopped.ctl.mode = .stopped ∧ (laneOf 5 .drain).ctl.mode = .drain
    ∧ 5 ≤ ((laneOf 5 .drain).queue 2).length ∧ ((laneOf 4 .drain).queue 2).length < 5
    ∧ (laneOf 4 .drain).freeSlot = some 4 ∧ (laneOf 0 .drain).ctl.mode = .drain ∧ (laneOf 0 .drain).queue 2 = []
    ∧ (laneOf 0 .drain).freeSlot = some 0 ∧ live.queue 2 = [] ∧ live.freeSlot = some 0 :=
  ⟨⟨live_hears, by decide +kernel⟩, hears_of (by decide +kernel), by decide +kernel⟩

/-- Lane 3 with the context of slot 12 in a state, and one of another licence behind it in slot 13. -/
def twoInLane (a b : Phase) : State :=
  ((withPallet { pallet a none with tunnelStarted := a != .admitted, licence := some (digitString 18 2) } live).putCtx 13
    (some { pallet b none with adm := 2, tunnelStarted := b != .admitted })).modLane 2 fun l => { l with queue := [12, 13] }

theorem test_witness_TunnelStartAttaches : live.Fits 11 laneOfTunnel 2 ∧ (twoInLane .scanning .admitted).scanning 2 = some 12
    ∧ (twoInLane .admitted .admitted).scanning 2 = none ∧ (twoInLane .admitted .admitted).namedInLane 2 none = none
    ∧ (twoInLane .admitted .admitted).namedInLane 2 (some (digitString 18 9)) = none
    ∧ ((twoInLane .admitted .admitted).laneContexts 2).map (fun q => (q.1, q.2.phase, q.2.verdict, q.2.reasons))
        = [(12, .admitted, none, []), (13, .admitted, none, [])]
    ∧ ((twoInLane .admitted .admitted).namedInLane 2 (some licence1)).map (fun q => (q.1, q.2.phase))
        = some (13, .admitted)
    ∧ (twoInLane .admitted .admitted).aheadWhere 2 13 (fun d => d.phase == .admitted) = [12]
    ∧ ((twoInLane .admitted .measuring).namedInLane 2 (some licence1)).map (fun q => (q.1, q.2.phase))
        = some (13, .measuring)
    ∧ ((twoInLane .measuring .measuring).laneContexts 2).find? (fun q => q.2.phase == .admitted) = none :=
  ⟨⟨live_hears, by decide +kernel⟩, by decide +kernel⟩

/-- The payload of a CASE_READ of case 255. -/
def casePayload : List Byte := 255 :: 14 :: (keyA ++ [0, 0])

theorem test_witness_CaseReadAndTunnelEnd : (twoInLane .scanning .admitted).Fits 11 laneOfTunnel 2
    ∧ casePayload.length ≤ 120 ∧ (whole takeCase casePayload).isSome = true ∧ live.scanning 2 = none
    ∧ (twoInLane .scanning .admitted).scanning 2 = some 12
    ∧ ((twoInLane .scanning .admitted).ctx 12).map (fun c => (c.verdict, c.lacksWeight, c.lacksHeight))
        = some (none, false, false)
    ∧ (withPallet { pallet .scanning none with weight := none } live).scanning 2 = some 12
    ∧ ({ pallet .scanning none with weight := none } : Context).lacksWeight = true := by
  refine ⟨⟨live_hears (s := twoInLane .scanning .admitted), ?_⟩, ?_⟩ <;> decide +kernel

/-- A MEASURE of a weight, with a licence field. -/
def weightPayload (n : Nat) (l : List Byte) : List Byte := beBytes 4 n ++ [0xFF, 0xFF] ++ l

/-- Lane 3 with slots 12 and 13 as given. -/
def measuringLane (a b : Context) : State :=
  ((withPallet a live).putCtx 13 (some b)).modLane 2 fun l => { l with queue := [12, 13] }

def unweighed (adm lic : Nat) (p : Phase) : Context :=
  { pallet p none with adm := adm, licence := some (digitString 18 lic), weight := none }

theorem test_measure_payloads :
    whole takeMeasure [0xFF, 0xFF, 0xFF, 0xFF, 0xFF, 0xFF, 0] = some (none, none, none)
    ∧ whole takeMeasure (weightPayload 4000001 [0]) = some (some 4000001, none, none)
    ∧ whole takeMeasure (weightPayload 4000000 licenceField) = some (some 4000000, none, some licence1)
    ∧ (weightPayload 4000000 licenceField).length ≤ 120 := by
  refine ⟨?_, ?_, ?_, ?_⟩ <;> decide +kernel

/-- The payloads are those of test_measure_payloads. -/
theorem test_witness_MeasureAttaches : live.Fits 12 laneOfMeasure 2 ∧ Measurand.weight.most = 4000000
    ∧ ((withPallet (pallet .measuring none) live).namedInLane 2 (some licence1)).map (·.1) = some 12
    ∧ Measurand.weight.present (pallet .measuring none) = true ∧ (pallet .measuring none).verdict = none
    ∧ (decided .pass [] .atHeadDecided none).verdict.isSome = true
    ∧ Measurand.weight.lacking { unweighed 1 1 .measuring with reasons := [.noWeight] } = false
    ∧ Measurand.weight.present { unweighed 1 1 .measuring with reasons := [.noWeight] } = false
    ∧ Measurand.weight.lacking { unweighed 1 1 .admitted with tunnelStarted := false } = true
    ∧ ((measuringLane (unweighed 1 1 .scanning) (unweighed 2 2 .scanning)).namedInLane 2
        (some (digitString 18 2))).map (fun q => (q.1, q.2.phase)) = some (13, .scanning)
    ∧ (measuringLane (unweighed 1 1 .scanning) (unweighed 2 2 .scanning)).aheadWhere 2 13 Measurand.weight.lacking = [12]
    ∧ (measuringLane (unweighed 1 1 .measuring) (unweighed 2 2 .scanning)).namedInLane 2
        (some (digitString 18 9)) = none
    ∧ (((measuringLane (unweighed 1 1 .measuring) (unweighed 2 2 .scanning)).laneContexts 2).find?
        (fun q => q.2.tunnelStarted && Measurand.weight.lacking q.2)).map (·.1) = some 12
    ∧ live.namedInLane 2 none = none
    ∧ (live.laneContexts 2).find? (fun q => q.2.tunnelStarted && Measurand.weight.lacking q.2) = none :=
  ⟨⟨live_hears, by decide +kernel⟩, by decide +kernel⟩

/-- A MEASURE of both, in range and out of it, with and without a licence. -/
theorem test_measure_both_payloads :
    whole takeMeasure (beBytes 4 761950 ++ beBytes 2 1702 ++ licenceField) = some (some 761950, some 1702, some licence1)
    ∧ whole takeMeasure (beBytes 4 761950 ++ beBytes 2 1702 ++ [0]) = some (some 761950, some 1702, none)
    ∧ whole takeMeasure (beBytes 4 4000001 ++ beBytes 2 4001 ++ [0]) = some (some 4000001, some 4001, none)
    ∧ Measurand.height.most = 4000 := by refine ⟨?_, ?_, ?_, ?_⟩ <;> decide +kernel

def unmeasured (p : Phase) : Context := { pallet p none with weight := none, height := none }

/-- Lane 3 whose first context lacks a height only, or a weight only, and whose second lacks the other. -/
def splitLane : State :=
  measuringLane { pallet .scanning none with weight := none } { pallet .measuring none with adm := 2, height := none }

theorem test_witness_MeasureOfBoth :
    ((withPallet (unmeasured .measuring) live).namedInLane 2 (some licence1)).map (·.1) = some 12
    ∧ (unmeasured .measuring).lacksWeight = true ∧ (unmeasured .measuring).lacksHeight = true
    ∧ (withPallet (unmeasured .measuring) live).aheadWhere 2 12 Context.lacksWeight = []
    ∧ (withPallet (unmeasured .measuring) live).aheadWhere 2 12 Context.lacksHeight = []
    ∧ (withPallet (unmeasured .measuring) live).namedInLane 2 (some (digitString 18 9)) = none
    ∧ (((withPallet (unmeasured .measuring) live).laneContexts 2).find?
        (fun q => q.2.tunnelStarted && q.2.lacksWeight)).map (·.1) = some 12
    ∧ (((withPallet (unmeasured .measuring) live).laneContexts 2).find?
        (fun q => q.2.tunnelStarted && q.2.lacksHeight)).map (·.1) = some 12
    ∧ ((splitLane.laneContexts 2).find? (fun q => q.2.tunnelStarted && q.2.lacksWeight)).map
        (fun q => (q.1, q.2.phase)) = some (12, .scanning)
    ∧ ((splitLane.laneContexts 2).find? (fun q => q.2.tunnelStarted && q.2.lacksHeight)).map
        (fun q => (q.1, q.2.phase, q.2.lacksWeight)) = some (13, .measuring, false)
    ∧ ((measuringLane (unweighed 1 1 .scanning) (unweighed 2 2 .measuring)).namedInLane 2
        (some (digitString 18 2))).map (fun q => (q.1, q.2.phase, q.2.lacksHeight)) = some (13, .measuring, false) := by
  decide +kernel

/-- R50: the weight goes to one context and the height to another, which is decided. -/
theorem test_measure_splits : let t := after (.measure 5 12 (beBytes 4 761950 ++ beBytes 2 1702 ++ [0])) splitLane
    (t.ctx 12).map (fun c => (c.weight, c.phase)) = some (some 761950, .scanning)
      ∧ (t.ctx 13).map (fun c => (c.height, c.verdict.isSome)) = some (some 1702, true) := by decide +kernel

/-- One value in range and the other out of it: the one in range has its context. -/
theorem test_witness_MeasureMixed :
    whole takeMeasure (beBytes 4 4000001 ++ beBytes 2 1702 ++ licenceField) = some (some 4000001, some 1702, some licence1)
    ∧ whole takeMeasure (beBytes 4 761950 ++ beBytes 2 4001 ++ licenceField) = some (some 761950, some 4001, some licence1)
    ∧ ((withPallet (unmeasured .measuring) live).takeMeasurement 2 .weight 761950 (some licence1)).2 = none
    ∧ ((withPallet (unmeasured .measuring) live).takeMeasurement 2 .height 1702 (some licence1)).2 = none
    ∧ (live.takeMeasurement 2 .weight 761950 (some licence1)).2 = some .noCandidate := by
  refine ⟨?_, ?_, ?_, ?_, ?_⟩ <;> decide +kernel

/-- R50, R51: the weight is attached and the height, out of range, is stray with cause OUT_OF_RANGE, 6. -/
theorem test_measure_mixed :
    let t := after (.measure 5 12 (beBytes 4 761950 ++ beBytes 2 4001 ++ licenceField))
      (withPallet (unmeasured .measuring) live)
    (t.ctx 12).map (fun c => (c.weight, c.height, c.phase)) = some (some 761950, none, .measuring)
      ∧ t.ring.origin.map (fun x => x.payload.getLast?) = [some 6] := by
  decide +kernel

theorem test_witness_ScaleIsCleared : live.Fits 12 laneOfMeasure 2 ∧ (live.scale 2).state = .normal
    ∧ ((live.putScale 2 ⟨.suspect, 3⟩).scale 2).state = .suspect ∧ live.Takes 2 0x34 ∧ 8 < (9 : Nat) :=
  ⟨⟨live_hears, by decide +kernel⟩, by decide +kernel, by decide +kernel, test_live_takes _ (by decide), by decide⟩

/-- The car moving the context of slot 12, or an orphan, somewhere. -/
def moving (d : MoveDest) (x : Load) (t : Nat) : State :=
  (withPallet (decided .pass [] .moving (some t)) live).modCar fun c =>
    { c with state := .moving, cargo := x, source := some 2, dest := some d, recipe := some 0 }

def idleWrapper : Wrapper := { Wrapper.reset with state := .idle }

theorem test_witness_MoveDone : live.Hears 16 ∧ RoleInst.transferCar ∈ live.rolesAt 16 ∧ live.alloc.car.state ≠ .moving
    ∧ (moving .spur (.context ⟨12, 1⟩) 1).alloc.car.state = .moving
    ∧ (moving (.wrapper 0) (.context ⟨12, 1⟩) 1).alloc.car.recipe = some 0
    ∧ (moving (.wrapper 0) (.context ⟨12, 1⟩) 1).ctx 12 = some (decided .pass [] .moving (some 1))
    ∧ (moving (.wrapper 0) .orphan 1).alloc.car.dest = some (.wrapper 0)
    ∧ (moving .spur .orphan 1).alloc.car.cargo = .orphan
    ∧ ((withWrapper idleWrapper (moving (.wrapper 0) (.context ⟨12, 1⟩) 1)).wrapper 0).state = .idle
    ∧ ((moving (.wrapper 0) (.context ⟨12, 1⟩) 1).wrapper 0).state ≠ .idle := ⟨live_hears, by decide +kernel⟩

/-- The car in FAULT with something aboard, the spur account at n. -/
def faulted (x : Load) (n : Nat) (due : Bool) : State :=
  (withPallet (decided .pass [] .moving none) live).onAlloc fun a =>
    { a with spur := n, car := { a.car with state := .fault, cargo := x, recoveryDue := due } }

theorem test_witness_MoveFaultAndRecovery : live.Hears 16 ∧ live.Hears 18 ∧ RoleInst.rejectSpur ∈ live.rolesAt 18
    ∧ live.alloc.car.state = .idle ∧ (faulted .none 0 false).alloc.car.state = .fault
    ∧ (moving .spur (.context ⟨12, 1⟩) 0).alloc.car.cargo = .context ⟨12, 1⟩
    ∧ (moving .spur (.context ⟨12, 1⟩) 0).ctx 12 = some (decided .pass [] .moving (some 0))
    ∧ Reason.carFault ∉ (decided .pass [] .moving (some 0)).reasons
    ∧ (decided .pass [] .moving (some 0)).verdict = some .pass
    ∧ (moving .spur (.context ⟨12, 1⟩) 1).ctx 12 ≠ some (decided .pass [] .moving (some 0))
    ∧ (faulted .orphan 5 false).spurAccount < 6 ∧ (faulted (.context ⟨12, 1⟩) 5 false).spurAccount < 6
    ∧ (faulted (.context ⟨12, 1⟩) 6 true).ctx 12 = some (decided .pass [] .moving none)
    ∧ 6 ≤ (faulted (.context ⟨12, 1⟩) 6 true).spurAccount
    ∧ min 6 (0xFF : Byte).toNat = 6 ∧ (faulted .orphan 6 true).alloc.spur = 6
    ∧ min 6 (5 : Byte).toNat + (faulted .orphan 6 true).ticketing < 6
    ∧ (faulted .orphan 6 true).alloc.car.recoveryDue = true :=
  ⟨live_hears, live_hears, by decide +kernel⟩

/-- Wrapper 1 in a state with a pallet. -/
def wrapperIn (x : WrapState) (p : Load) (g : Option Progress) (t : Option Nat) : State :=
  withWrapper { Wrapper.reset with state := x, pallet := p, progress := g, warmTimer := t }
    (live.putCtx 12 (some (decided .pass [] .wrapping (some 0))))

theorem test_witness_WrapperReadyAndStandby : live.Fits 14 wrapperOf 0
    ∧ ((wrapperIn .warming .none none (some 0)).wrapper 0).state = .warming
    ∧ ((wrapperIn .warming .none none (some 0)).wrapper 0).warmTimer = some 0
    ∧ ((wrapperIn .warming .none none (some 1)).wrapper 0).warmTimer ≠ some 0
    ∧ ((wrapperIn .offline .none none none).wrapper 0).warmUp ≠ 0
    ∧ ((wrapperIn .fault .orphan none none).wrapper 0).pallet = .orphan
    ∧ ((wrapperIn .warming (.context ⟨12, 1⟩) (some .delivered) (some 0)).wrapper 0).progress = some .delivered
    ∧ (wrapperIn .loaded (.context ⟨12, 1⟩) (some .ordered) none).ctx 12 = some (decided .pass [] .wrapping (some 0))
    ∧ ((wrapperIn .doneHeld (.context ⟨12, 1⟩) (some .done) none).wrapper 0).afterRelease = .idle
    ∧ ((wrapperIn .doneHeld (.context ⟨12, 1⟩) (some .done) none).modWrapper 0 fun w =>
        { w with afterRelease := .fault }).wrapper 0
          = { Wrapper.reset with
              state := .doneHeld, pallet := .context ⟨12, 1⟩, progress := some .done, afterRelease := .fault } :=
  ⟨⟨live_hears, by decide +kernel⟩, by decide +kernel⟩

/-- READY at a wrapper with an orphan, with a delivered context, with a faulted wrap whose line has room or none, and
with a warm_up of 0. -/
theorem test_witness_ReadyCases : ∀ x ∈ [WrapState.offline, WrapState.fault],
    ((wrapperIn x .orphan none none).wrapper 0).pallet = .orphan
    ∧ ((wrapperIn x (.context ⟨12, 1⟩) (some .delivered) none).wrapper 0).progress = some .delivered
    ∧ ((wrapperIn x (.context ⟨12, 1⟩) (some .faulted) none).wrapper 0).progress = some .faulted
    ∧ ((wrapperIn x .none none none).modWrapper 0 fun w => { w with warmUp := 0 }).wrapper 0
        = { Wrapper.reset with state := x, warmUp := 0 }
    ∧ (wrapperIn x (.context ⟨12, 1⟩) (some .faulted) none).ctx 12 = some (decided .pass [] .wrapping (some 0))
    ∧ ((wrapperIn x (.context ⟨12, 1⟩) (some .faulted) none).line 0).length < 3
    ∧ (wrapperIn x (.context ⟨12, 1⟩) (some .faulted) none).alloc.held[(0 : LineNo)] = []
    ∧ 3 ≤ (((wrapperIn x (.context ⟨12, 1⟩) (some .faulted) none).onLabels fun d =>
        { d with lines := d.lines.set 0 [1, 2, 3] }).line 0).length := by decide +kernel

/-- Each last output order, each after release, and a pending output that equals the last one, or does not. -/
theorem test_witness_Outputs :
    ((wrapperIn .fault .none none none).wrapper 0).lastOutput = .release
    ∧ ((wrapperIn .fault .orphan none none).modWrapper 0 fun w => { w with lastOutput := .hold, recipe := some 3 }).wrapper 0
        = { Wrapper.reset with state := .fault, pallet := .orphan, lastOutput := .hold, recipe := some 3 }
    ∧ (∀ a : AfterRelease, ((wrapperIn .wrapping (.context ⟨12, 1⟩) (some .started) none).modWrapper 0 fun w =>
        { w with afterRelease := a, warmUp := 0 }).wrapper 0
          = { Wrapper.reset with
              state := .wrapping, pallet := .context ⟨12, 1⟩, progress := some .started, afterRelease := a, warmUp := 0 })
    ∧ ((live.wrapper 0).output, (live.wrapper 0).lastOutput) = (none, .release)
    ∧ ((live.modWrapper 0 fun w => { w with output := some .hold }).wrapper 0).output.isSome = true
    ∧ (originOf 31 live).ring.waiting = [] ∧ live.holderOf (.wrapper 0) = some 14 ∧ live.holderOf (.wrapper 1) = none
    ∧ Holder.wrapOutput 0 ∉ waitingLine.ring.waiting ∧ Holder.infeed 2 ∈ waitingLine.ring.waiting
    ∧ live.holderOf .transferCar = some 16 := by
  refine ⟨by decide +kernel, by decide +kernel, fun a => by cases a <;> decide +kernel, by decide +kernel⟩

/-- R113: a RELEASE that replaces a HOLD still pending, the last output order being RELEASE, drops it. -/
theorem test_output_dropped : let t := ((waitingLine.modWrapper 0 fun w => { w with output := some .hold }).onRing
      fun r => { r with waiting := r.waiting ++ [.wrapOutput 0] }).sendOutput 0 .release
    ((t.wrapper 0).output, t.ring.waiting) = (none, [.infeed 2]) := by decide +kernel

/-- R110: READY at a FAULT wrapper with a faulted wrap puts its context on the label line and warms up. -/
theorem test_ready_after_fault :
    let t := after (.wrapperReady 5 14) (wrapperIn .fault (.context ⟨12, 1⟩) (some .faulted) none)
    ((t.wrapper 0).state, (t.wrapper 0).pallet, t.line 0) = (.warming, .none, [12])
      ∧ (t.ctx 12).map (fun c => (c.phase, c.timer)) = some (.queuedLabel, none) := by decide +kernel

theorem test_witness_WrapRuns : live.Fits 14 wrapperOf 0 ∧ (live.wrapper 0).state = .offline
    ∧ ((wrapperIn .loaded (.context ⟨12, 1⟩) (some .ordered) none).wrapper 0).state = .loaded
    ∧ ((wrapperIn .wrapping (.context ⟨12, 1⟩) (some .started) none).wrapper 0).pallet = .context ⟨12, 1⟩
    ∧ (decided .pass [] .wrapping (some 0)).wrapStarted = false ∧ (decided .pass [] .wrapping (some 0)).compStatus = .none
    ∧ ((live.onLabels fun d => { d with lines := d.lines.set 0 [1, 2] }).line 0).length < 3
    ∧ 3 ≤ ((live.onLabels fun d => { d with lines := d.lines.set 0 [1, 2, 3] }).line 0).length
    ∧ live.alloc.held[lineOfWrapper 0] = [] ∧ ((wrapperIn .loaded .none none none).wrapper 0).afterRelease = .idle :=
  ⟨⟨live_hears, by decide +kernel⟩, by decide +kernel⟩

theorem test_witness_WrapFails : live.Fits 14 wrapperOf 0
    ∧ (wrapperIn .wrapping (.context ⟨12, 1⟩) (some .started) none).ctx 12 = some (decided .pass [] .wrapping (some 0))
    ∧ (decided .pass [] .wrapping (some 0)).phase = .wrapping
    ∧ (wrapperIn .wrapping (.context ⟨12, 1⟩) (some .started) none).wrapping 12 = some 0
    ∧ (decided .pass [] .wrapping (some 1)).timer ≠ some 0
    ∧ ((wrapperIn .fault .none none none).wrapper 0).state = .fault
    ∧ ((wrapperIn .doneHeld .none none none).wrapper 0).state = .doneHeld
    ∧ ((wrapperIn .idle .none none none).wrapper 0).state = .idle := ⟨⟨live_hears, by decide +kernel⟩, by decide +kernel⟩

def serialBytes (n : Nat) : List Byte := beBytes 3 n

/-- A context with an outstanding job. -/
def withJob (p : Phase) (k : LabelKind) (g : JobStage) : Context :=
  { decided .pass [] p (some 1) with job := some (job1 k g) }

theorem test_witness_JobTaken : live.Hears 17 ∧ live.Hears 20 ∧ (serialBytes 4117).length ≤ 119
    ∧ (∃ e, whole takeLabelEvent (1 :: serialBytes 4117) = some e ∧ e = .jobTaken 4117)
    ∧ live.roleOf 17 applicatorRole = some (some 0) ∧ live.roleOf 20 applicatorRole = some none
    ∧ ((onLine (withJob .queuedLabel .dispatchLabel .sent) live).line 0).find? (fun i =>
        ((onLine (withJob .queuedLabel .dispatchLabel .sent) live).ctx i).any fun c => c.awaitsTaken 4117) = some 12
    ∧ (onLine (withJob .queuedLabel .dispatchLabel .sent) live).ctx 12
        = some (withJob .queuedLabel .dispatchLabel .sent)
    ∧ (live.line 0).find? (fun i => (live.ctx i).any fun c => c.awaitsTaken 4117) = none
    ∧ (onTickets (withJob .ticketing .rejectTicket .sent) live).labels.tickets = [12] ∧ live.labels.tickets = []
    ∧ (job1 .rejectTicket .sent).stage ≠ .taken ∧ (withJob .ticketing .rejectTicket .taken).awaitsTaken 4117 = false :=
  ⟨live_hears, live_hears, by decide +kernel, ⟨_, rfl, rfl⟩, by decide +kernel⟩

theorem test_witness_PalletAtLabel : live.Hears 17 ∧ live.roleOf 20 applicatorRole = some none
    ∧ live.roleOf 17 applicatorRole = some (some 0)
    ∧ (onLine (decided .pass [] .labelling (some 1)) live).labelling 0 = some 12 ∧ live.labelling 0 = none
    ∧ ((onLine (decided .pass [] .queuedLabel none) live).line 0).find? (fun i =>
        ((onLine (decided .pass [] .queuedLabel none) live).ctx i).any fun c => c.phase == .queuedLabel) = some 12
    ∧ (onLine (decided .pass [] .queuedLabel none) live).labelling 0 = none
    ∧ (live.line 0).find? (fun i => (live.ctx i).any fun c => c.phase == .queuedLabel) = none :=
  ⟨live_hears, by decide +kernel⟩

/-- A line with a LABELLING context in slot 12 and a queued one, with another job, behind it in slot 13. -/
def labelLine (a b : Context) : State :=
  ((live.putCtx 12 (some a)).putCtx 13 (some { b with adm := 2 })).onLabels fun d => { d with lines := d.lines.set 0 [12, 13] }

theorem test_witness_LabelJobsAndApplied : live.Hears 17 ∧ (serialBytes 4117 ++ licenceField).length ≤ 119
    ∧ (∃ e, whole takeLabelEvent (3 :: (serialBytes 4117 ++ licenceField)) = some e ∧ e = .applied 4117 (some licence1))
    ∧ (∃ e, whole takeLabelEvent (3 :: (serialBytes 4117 ++ [0])) = some e ∧ e = .applied 4117 none)
    ∧ live.labelling 0 = none
    ∧ (onLine (withJob .labelling .dispatchLabel .taken) live).labelling 0 = some 12
    ∧ (withJob .labelling .dispatchLabel .taken).job = some (job1 .dispatchLabel .taken)
    ∧ some licence1 = (withJob .labelling .dispatchLabel .taken).licence
    ∧ (live.boundConsignment (withJob .labelling .dispatchLabel .taken)).isSome = true
    ∧ ({ decided .hold [.lotHeldLate] .labelling none with voided := some 4117 } : Context).hasJob 4117 = false
    ∧ (decided .pass [] .labelling none).hasJob 4117 = false
    ∧ (labelLine (decided .pass [] .labelling none) (withJob .queuedLabel .dispatchLabel .taken)).otherJob 0 12 4117 = some 13
    ∧ (labelLine (decided .pass [] .labelling none) (decided .pass [] .queuedLabel none)).otherJob 0 12 4117 = none :=
  ⟨live_hears, by decide +kernel, ⟨_, rfl, rfl⟩, ⟨_, rfl, rfl⟩, by decide +kernel⟩

/-- The worked label of chapter 7: seven rows, so four segments of rows and one of barcodes. -/
def record1 : LabelRecord := flight1.record 4117

def queuedWith (j : Option Job) (os : List Order) : Context :=
  { decided .pass [] .queuedLabel none with label := some record1, job := j, orders := os }

def segments1 : List Order := jobOrders (.labelApplicator 0) record1

theorem test_witness_Jobs : (onLine (queuedWith none []) live).unlabelled 0 = [12]
    ∧ (queuedWith none []).sendable = true ∧ (decided .pass [] .queuedLabel none).sendable = false
    ∧ (labelLine (queuedWith (some (job1 .dispatchLabel .sent)) []) (queuedWith none [])).unlabelled 0 = [12, 13]
    ∧ segments1.length = 5 ∧ live.ring.waiting = [] ∧ live.holderOf (.labelApplicator 0) = some 17
    ∧ live.ring.origin.length + segments1.length ≤ 32
    ∧ 32 ≤ (originOf 32 (onLine (queuedWith none []) live)).ring.origin.length
    ∧ record1.serial = (job1 .dispatchLabel .placing).serial
    ∧ (queuedWith (some (job1 .dispatchLabel .placing)) (.cancel (.labelApplicator 0) 9 :: segments1)).orders
        = [.cancel (.labelApplicator 0) 9] ++ (jobOrders (.labelApplicator 0) record1).drop 0
    ∧ (∀ o ∈ [Order.cancel (.labelApplicator 0) 9], o.isSegmentOf 4117 = false)
    ∧ (decided .pass [] .queuedLabel none).job = none := by decide +kernel

/-- R138: a job none of whose segments is placed leaves nothing, one partly placed leaves a LABEL_CANCEL, and segments
left behind by a job that has ended are no part of it. -/
theorem test_withdrawal :
    ((queuedWith (some (job1 .dispatchLabel .placing)) segments1).withdrawn (.labelApplicator 0) true).orders = []
    ∧ ((queuedWith (some (job1 .dispatchLabel .placing)) (segments1.drop 1)).withdrawn (.labelApplicator 0) true).orders
        = [.cancel (.labelApplicator 0) 4117]
    ∧ ((queuedWith (some (job1 .dispatchLabel .placing)) (segments1.drop 3 ++ segments1)).withdrawn
        (.labelApplicator 0) true).orders = segments1.drop 3 := by decide +kernel

/-- R136: a job is SENT once its last segment is placed, and not when a segment left behind by an ended job of its
serial is. -/
theorem test_job_sent :
    ((segments1.getLast?).map fun o => ((queuedWith (some (job1 .dispatchLabel .placing)) []).segmentPlaced o).job)
      = some (some (job1 .dispatchLabel .sent))
    ∧ ((segments1.getLast?).map fun o => ((queuedWith (some (job1 .dispatchLabel .placing)) segments1).segmentPlaced o).job)
      = some (some (job1 .dispatchLabel .placing)) := by decide +kernel

theorem test_witness_LabelsFailAndTicketsEnd : live.Hears 17 ∧ live.Hears 20
    ∧ (∃ e, whole takeLabelEvent (3 :: (serialBytes 4117 ++ [0])) = some e ∧ e = .applied 4117 none)
    ∧ live.labelling 0 = none
    ∧ (onLine (decided .pass [] .labelling (some 0)) live).labelling 0 = some 12
    ∧ (onLine (decided .pass [] .labelling (some 0)) live).ctx 12 = some (decided .pass [] .labelling (some 0))
    ∧ (onLine (decided .pass [] .labelling (some 0)) live).lineOf 12 = some 0
    ∧ (decided .pass [] .labelling (some 1)).timer ≠ some 0
    ∧ (onTickets (withJob .ticketing .rejectTicket .taken) live).labels.tickets = 12 :: []
    ∧ (onTickets (withJob .ticketing .rejectTicket .taken) live).ctx 12 = some (withJob .ticketing .rejectTicket .taken)
    ∧ (job1 .rejectTicket .taken).serial = 4117 ∧ (job1 .rejectTicket .taken).serial ≠ 4118
    ∧ live.labels.tickets = [] ∧ (decided .rework [] .ticketing none).job = none
    ∧ (withJob .ticketing .rejectTicket .taken).planSlot = some 0 ∧ (live.planAt 0).isSome = true :=
  ⟨live_hears, live_hears, ⟨_, rfl, rfl⟩, by decide +kernel⟩

def exitContext (r : RouteDest) (t : Nat) : Context := { decided .pass [] .exiting (some t) with route := some r }

def logged (n : Nat) : State := live.onLabels fun d => { d with log := List.replicate n ⟨1, licence1, consignmentNo, 7, none, false, []⟩ }

theorem test_witness_ExitsReleaseOrReject : live.Fits 19 lineOfSwitch 0 ∧ (licenceField ++ [24]).length ≤ 120
    ∧ whole takeRouted (licenceField ++ [24]) = some (some licence1, 24)
    ∧ whole takeRouted (licenceField ++ [1]) = some (some licence1, 1)
    ∧ whole takeRouted (licenceField ++ [0]) = some (some licence1, 0) ∧ whole takeRouted [0, 0] = some (none, 0)
    ∧ ((onLine (exitContext (.bay 7) 0) live).line 0).find? (fun i =>
        ((onLine (exitContext (.bay 7) 0) live).ctx i).any fun c => c.phase == .exiting && c.licence == some licence1) = some 12
    ∧ (onLine (exitContext (.bay 7) 0) live).ctx 12 = some (exitContext (.bay 7) 0)
    ∧ (logged 256).labels.log.length = 256 ∧ ((onLine (exitContext (.bay 7) 0) live).boundPlan
        (exitContext (.bay 7) 0)).isSome = true
    ∧ (live.consignment consignmentNo).isSome = true ∧ (exitContext (.bay 7) 0).weight = some 761950
    ∧ (live.line 0).find? (fun i => (live.ctx i).any fun c =>
        c.phase == .exiting && (some licence1).isSome && c.licence == some licence1) = none
    ∧ (exitContext .lateReject 0).route = some .lateReject ∧ (exitContext .lateReject 1).timer ≠ some 0 :=
  ⟨⟨live_hears, by decide +kernel⟩, by decide +kernel⟩

/-- An entry with a pair of no lot, then two that a hold matches; and one that none matches. -/
theorem test_witness_EscapeOfEntry :
    live.matchingHold (keyB, none) = none
    ∧ live.matchingHold (keyA, some (ascii "L1190")) = some ⟨keyA, ascii "L1190", .recall, 0, 9570⟩
    ∧ live.matchingHold (keyB, some (ascii "L1190")) = none ∧ live.holds.escapes = []
    ∧ (live.escapeOfEntry ⟨7, licence1, consignmentNo, 7, none, false,
        [(keyB, none), (keyA, some (ascii "L1190"))]⟩).ring.origin.length = live.ring.origin.length + 1 := by
  decide +kernel

/-! ### Witnesses: the composer, the timers and the requests -/

def composing (k : LabelKind) (w : Bool) (left : Nat) (v : Verdict) : State :=
  (live.putCtx 12 (some { decided v [] .wrapping none with compStatus := .inFlight })).onComposer fun c =>
    { c with flight := some { flight1 with kind := k, ticketWaiting := w, remaining := left }, nextSerial := 999999 }

theorem test_witness_CompositionCompletes : live.composer.flight = none
    ∧ ((composing .dispatchLabel false 1 .pass).composer.flight.map (·.remaining)) = some 1
    ∧ ((composing .dispatchLabel false 0 .pass).composer.flight.map (·.remaining)) = some 0
    ∧ (composing .dispatchLabel false 0 .pass).named flight1.ctx = some { decided .pass [] .wrapping none with compStatus := .inFlight }
    ∧ live.named flight1.ctx = none
    ∧ ((composing .dispatchLabel true 0 .pass).composer.flight.map (·.ticketWaiting)) = some true
    ∧ ((composing .dispatchLabel false 0 .rework).named flight1.ctx).map (·.verdict) = some (some .rework)
    ∧ ((composing .rejectTicket false 0 .rework).composer.flight.map (·.kind)) = some .rejectTicket := by decide +kernel

theorem test_witness_RecordsFitTheLabel : ({ flight1 with inputs := { flight1.inputs with items := [] } } : Flight).inputs.items = []
    ∧ 0 < (ascii "7").length ∧ (ascii "7").length ≤ 1 := by decide +kernel

theorem test_witness_PhaseTimersExpire :
    (withPallet (pallet .scanning (some 0)) live).ctx 12 = some (pallet .scanning (some 0))
    ∧ (pallet .scanning (some 1)).timer ≠ some 0 ∧ Reason.scanTruncated ∉ (pallet .scanning (some 0)).reasons
    ∧ (pallet .scanning (some 0)).lacksWeight = false ∧ (pallet .scanning (some 0)).lacksHeight = false
    ∧ ({ pallet .scanning (some 0) with height := none } : Context).lacksHeight = true
    ∧ (withPallet { pallet .measuring (some 0) with height := none } live).ctx 12
        = some { pallet .measuring (some 0) with height := none }
    ∧ (withPallet { pallet .waiting (some 0) with waiting := [.holdsStale] } live).ctx 12
        = some { pallet .waiting (some 0) with waiting := [.holdsStale] }
    ∧ (withPallet (decided .pass [] .atHeadDecided (some 0)) live).ctx 12 = some (decided .pass [] .atHeadDecided (some 0))
    ∧ Reason.noWrapper ∉ (decided .pass [] .atHeadDecided (some 0)).reasons := by decide +kernel

/-- The line with its currency window and its ring-silence timer as given. -/
def timersAt (w r : Option Nat) (m : LineMode) (h : Option LineMode) : State :=
  { live with
    ctl := { ctl1 with mode := m, held := h, rejectAll := h.isSome }
    holds := { live.holds with window := w }
    ring := { live.ring with silence := r } }

theorem test_witness_CurrencyAndRingTimersExpire : (timersAt (some 0) (some 1) .run none).holds.window = some 0
    ∧ (timersAt (some 1) (some 0) .run none).holds.window ≠ some 0 ∧ live.holds.currency = .current
    ∧ State.reset.holds.currency = .stale ∧ (timersAt (some 1) (some 0) .run none).ring.silence = some 0
    ∧ (timersAt (some 0) (some 1) .run none).ring.silence ≠ some 0 ∧ (timersAt (some 1) (some 0) .run none).passive = false
    ∧ (passive 31 0).passive = true
    ∧ ((withPallet (pallet .scanning none) (timersAt (some 1) (some 0) .run none)).ctx 12).map (·.phase) = some .scanning
    ∧ ((onLine (exitContext (.bay 7) 9) (timersAt (some 1) (some 0) .run none)).ctx 12).map (·.phase) = some .exiting
    ∧ (timersAt (some 1) none .isolated (some .run)).ring.silence = none
    ∧ (timersAt (some 1) none .isolated (some .run)).ctl.held = some .run
    ∧ (⟨31, 5, 1, []⟩ : Telegram).src = (timersAt (some 1) none .isolated (some .run)).ownAddress := by decide +kernel

theorem live_tables : live.TableInv := by constructor <;> decide +kernel

def key9 : Text := digitString 14 9

/-- The line with n articles, whose keys are 1 to n; 256 fill the table. -/
def articlesTo (n : Nat) : State :=
  live.onRefs fun r => { r with articles := (List.range n).map fun k => { artA with key := digitString 14 (k + 1) } }

/-- The line with n consignments. -/
def consignmentsTo (n : Nat) : State :=
  live.onRefs fun r => { r with consignments := (List.range n).map fun k => { consignment1 with number := digitString 8 (k + 1) } }

/-- The fields of ARTICLE_PUT at their highest values. -/
def articleMost : ArticleFields := ⟨keyA, [], 100000, 5000, 120, 1000, 10000, 2⟩

theorem articleF_inRange : articleF.InRange := by unfold ArticleFields.InRange; decide +kernel
theorem consignmentF_inRange : consignmentF.InRange := by unfold ConsignmentFields.InRange; decide +kernel

theorem test_witness_ArticleAndConsignmentPut : live.Takes 2 0x01 ∧ live.Takes 2 0x06 ∧ articleF.InRange
    ∧ articleMost.InRange
    ∧ ¬ ({ articleF with caseWeight := 100001 } : ArticleFields).InRange
    ∧ consignmentF.InRange ∧ consignmentF.Unclamped
    ∧ ¬ ({ consignmentF with minShelfLife := 731 } : ConsignmentFields).Unclamped
    ∧ ¬ ({ consignmentF with bay := 25 } : ConsignmentFields).InRange ∧ (live.article keyA).isSome = true
    ∧ live.refs.articles.length < 256 ∧ 256 ≤ (articlesTo 256).refs.articles.length
    ∧ (live.consignment consignmentNo).isSome = true ∧ 64 ≤ (consignmentsTo 64).refs.consignments.length
    ∧ (consignmentsTo 64).consignment consignmentNo = none ∧ (consignmentsTo 63).refs.consignments.length < 64 := by
  refine ⟨test_live_takes _ (by decide), test_live_takes _ (by decide), articleF_inRange, ?_, ?_, consignmentF_inRange,
    ?_, ?_, ?_, ?_⟩
  · unfold ArticleFields.InRange; decide +kernel
  · unfold ArticleFields.InRange; decide +kernel
  · unfold ConsignmentFields.Unclamped; decide +kernel
  · unfold ConsignmentFields.Unclamped; decide +kernel
  · unfold ConsignmentFields.InRange; decide +kernel
  · decide +kernel

theorem test_full_article_table : (articlesTo 256).article keyA = none := by decide +kernel

theorem test_witness_TableReadings : live.Takes 2 0x03 ∧ live.Takes 2 0x04 ∧ live.Takes 2 0x08 ∧ live.Takes 2 0x09
    ∧ live.Takes 2 0x0D ∧ live.Takes 2 0x0E ∧ live.TableInv ∧ isDigits 14 keyA = true ∧ keyA ≠ anyArticle
    ∧ live.article keyA = some artA ∧ live.article key9 = none ∧ isDigits 14 [] = false
    ∧ isDigits 14 anyArticle = true ∧ ltText anyArticle artA.key = true
    ∧ (∀ b ∈ live.refs.articles, ltText anyArticle b.key = true → b = artA ∨ ltText artA.key b.key = true)
    ∧ (∀ a ∈ live.refs.articles, ltText keyB a.key = false) ∧ live.consignment consignmentNo = some consignment1
    ∧ live.consignment (digitString 8 9) = none ∧ ltText noConsignment consignmentNo = true
    ∧ (∀ c ∈ live.refs.consignments, ltText consignmentNo c.number = false)
    ∧ (live.planOf licence1).isSome = true ∧ (live.planAt 0).isSome = true ∧ live.planAt 511 = none
    ∧ live.planOf (digitString 18 9) = none ∧ live.refs.plans.head?.isSome = true
    ∧ (∀ r ∈ live.refs.plans, r.slot ≤ 511) ∧ State.reset.refs.plans = [] := by
  refine ⟨test_live_takes _ (by decide), test_live_takes _ (by decide), test_live_takes _ (by decide),
    test_live_takes _ (by decide), test_live_takes _ (by decide), test_live_takes _ (by decide), live_tables, ?_⟩
  and_intros <;> decide +kernel

def planUsed : State := live.modPlan 0 fun p => { p with state := .used }

theorem test_witness_TableDeletesAndClears : live.Takes 2 0x02 ∧ live.Takes 2 0x05 ∧ stopped.Takes 2 0x05
    ∧ stopped.Takes 2 0x0A ∧ stopped.Takes 2 0x0F ∧ live.TableInv
    ∧ (∃ q ∈ live.refs.plans, q.state ≠ .used ∧ ∃ l ∈ q.lines, l.article = keyA)
    ∧ (∀ q ∈ planUsed.refs.plans, q.state ≠ .used → ∀ l ∈ q.lines, l.article ≠ keyA)
    ∧ (∃ q ∈ live.refs.plans, q.state ≠ .used ∧ q.consignment = consignmentNo)
    ∧ (∀ q ∈ planUsed.refs.plans, q.state ≠ .used → q.consignment ≠ consignmentNo)
    ∧ (live.planOf licence1).map (·.state) = some .loaded
    ∧ (∃ q ∈ stopped.refs.plans, q.state ≠ .used ∧ ∃ l ∈ q.lines, (stopped.article l.article).isSome = true)
    ∧ (∀ q ∈ planUsed.refs.plans, q.state ≠ .used → ∀ l ∈ q.lines, planUsed.article l.article = none)
    ∧ (∃ q ∈ stopped.refs.plans, q.state ≠ .used ∧ (stopped.consignment q.consignment).isSome = true)
    ∧ live.ctl.mode ≠ .start ∧ live.ctl.mode ≠ .stopped
    ∧ live.Takes 2 0x07 ∧ live.Takes 2 0x0C ∧ isDigits 8 (digitString 8 9) = true ∧ digitString 8 9 ≠ noConsignment
    ∧ live.consignment (digitString 8 9) = none ∧ isDigits 8 [0x31] = false ∧ isDigits 14 [] = false
    ∧ isDigits 18 keyA = false := by
  refine ⟨test_live_takes _ (by decide), test_live_takes _ (by decide), test_stopped_takes _ (by decide),
    test_stopped_takes _ (by decide), test_stopped_takes _ (by decide), live_tables, ?_⟩
  and_intros <;> first | exact test_live_takes _ (by decide) | decide +kernel

def planF2 : PlanFields := { planF with licence := digitString 18 9 }

theorem planF_inRange : planF.InRange ∧ planF2.InRange
    ∧ ¬ ({ planF with lines := [] } : PlanFields).InRange := by
  have h (f : PlanFields) (e : f.recipe = none) : (∀ r, f.recipe = some r → r ≤ 7) := by simp [e]
  refine ⟨?_, ?_, fun x => absurd x.2.2.2.2.2.2.2.2.1 (by decide +kernel)⟩
  all_goals
    unfold PlanFields.InRange
    and_intros
  all_goals first | exact h _ rfl | decide +kernel

def plansTo (n : Nat) : State :=
  live.onRefs fun r => { r with plans := (List.range n).map fun k => { plan1 with
    slot := k, licence := digitString 18 (k + 1000), state := .loaded, bound := none } }

theorem test_witness_PlanPut : live.Takes 2 0x0B ∧ live.TableInv ∧ planF.InRange ∧ planF2.InRange
    ∧ ((live.modPlan 0 fun p => { p with state := .inUse }).planOf licence1).map (·.state) = some .inUse
    ∧ (live.planOf licence1).map (fun q => (q.state, q.slot)) = some (.loaded, 0) ∧ live.planOf planF2.licence = none
    ∧ live.planAt 1 = none ∧ (∀ m < 1, (live.planAt m).isSome = true) ∧ 512 ≤ (plansTo 512).refs.plans.length
    ∧ (live.consignment planF.consignment).isSome = true ∧ (∀ l ∈ planF.lines, (live.article l.article).isSome = true)
    ∧ (live.onRefs fun r => { r with consignments := [] }).consignment planF.consignment = none
    ∧ live.qualifier licence1 = none
    ∧ (withPallet { pallet .scanning none with planSlot := none } live).qualifier licence1 = some 12
    ∧ (withPallet { pallet .waiting (some 9) with planSlot := none } live).qualifier licence1 = some 12 :=
  ⟨test_live_takes _ (by decide), live_tables, planF_inRange.1, planF_inRange.2.1, by decide +kernel⟩

theorem test_witness_StationRequests : stopped.Hears 2 ∧ live.Hears 2 ∧ live.Takes 2 0x11
    ∧ stopped.mgmt.replies.length < 16 ∧ stopped.permits 2 0x10 false = true
    ∧ (∀ b : Fin 32, RoleInst.dispatchSystem ∉ unclaimed.refs.stations[b]) ∧ stopped.ctl.mode = .stopped
    ∧ live.ctl.mode = .run ∧ 31 ≤ (31 : Byte).toNat ∧ (5 : Byte) = stopped.ownAddress ∧ (30 : Byte).toNat = 30
    ∧ (30 : Byte) ≠ stopped.ownAddress ∧ RoleInst.ofCode 1 9 = none ∧ RoleInst.ofCode 13 0 = none
    ∧ RoleInst.ofCode 1 3 = some (.tagReader 2) ∧ RoleInst.tagReader 2 ∈ stopped.refs.stations[(10 : Fin 32)]
    ∧ RoleInst.tagReader 2 ∉ stopped.refs.stations[(30 : Fin 32)] ∧ stopped.holderOf (.tagReader 2) = some 10
    ∧ 32 ≤ (32 : Byte).toNat ∧ (∀ j : Fin 32, j < 10 → RoleInst.tagReader 2 ∉ live.refs.stations[j])
    ∧ (∀ k : Fin 32, RoleInst.linePanel ∉ live.refs.stations[k]) := by
  refine ⟨hears_of (by decide +kernel), live_hears, test_live_takes _ (by decide), ?_⟩
  and_intros <;> decide +kernel

/-- The line with a full hold list, and one with a matching log entry. -/
def holdsTo (n : Nat) : State :=
  live.onHolds fun h => { h with list := (List.range n).map fun k => ⟨digitString 14 (k + 1), ascii "L1", .recall, 0, 0⟩ }

def entry1 : LogEntry := ⟨1, licence1, consignmentNo, 7, some 9570, false, [(keyB, none), (keyA, some (ascii "L1190"))]⟩
def hold1 : Hold := ⟨keyA, ascii "L1190", .recall, 0, 9570⟩

theorem test_witness_HoldAddAndEscapes : live.Takes 2 0x20 ∧ live.TableInv ∧ holdF.InRange
    ∧ ({ holdF with reason := 4, code := 15, placed := 36524 } : HoldFields).InRange
    ∧ ¬ ({ holdF with placed := 36525 } : HoldFields).InRange ∧ (live.hold (holdF.article, holdF.lot)).isSome = true
    ∧ live.holds.list.length < 128 ∧ 128 ≤ (holdsTo 128).holds.list.length
    ∧ ((withPallet (decided .pass [] .atHeadDecided none) live).ctx 12).map (·.verdict) = some (some .pass)
    ∧ (∃ l ∈ tally1.lines, hold1.hits l.pair = true) ∧ Reason.lotHeldLate ∉ (decided .pass [] .exiting none).reasons
    ∧ entry1.pairs.find? hold1.hits = some (keyA, some (ascii "L1190"))
    ∧ ({ entry1 with pairs := [(keyB, none)] } : LogEntry).pairs.find? hold1.hits = none
    ∧ live.holds.escapes.length < 256 ∧ waitingLine.ring.waiting ≠ [] ∧ 32 ≤ (originOf 32 live).ring.origin.length := by
  refine ⟨test_live_takes _ (by decide), live_tables, ?_, ?_, ?_, ?_⟩
  · unfold HoldFields.InRange; decide +kernel
  · unfold HoldFields.InRange; decide +kernel
  · unfold HoldFields.InRange; decide +kernel
  · and_intros <;> decide +kernel

def escape1 : EscapeReport :=
  ⟨licence1, consignmentNo, 7, 1, keyA, some (ascii "L1190"), .recall, 0, 9570, false, 65535⟩

/-- The line with 32 telegrams in the origin queue and an ESCAPE report that waits. -/
def escapeWaits (rest : List EscapeReport) : State :=
  (originOf 32 (live.onHolds fun h => { h with escapes := escape1 :: rest })).onRing fun r => { r with waiting := [.escapes] }

theorem test_witness_EscapesLeave : live.holds.escapes = [] ∧ live.ring.waiting = [] ∧ live.ring.origin.length < 32
    ∧ live.reportDest = some 2 ∧ { live with refs := State.reset.refs }.reportDest = none
    ∧ (escapeWaits []).ctl.inReset = false ∧ (escapeWaits []).ring.forward = []
    ∧ (escapeWaits []).ring.origin = ⟨2, 5, 0x32, []⟩ :: List.replicate 31 ⟨2, 5, 0x32, []⟩
    ∧ (escapeWaits [escape1]).holds.escapes = escape1 :: [escape1] ∧ (escapeWaits []).reportDest = some 2
    ∧ 256 ≤ (live.onHolds fun h => { h with escapes := List.replicate 256 escape1 }).holds.escapes.length := by
  and_intros <;> decide +kernel

/-- R35, R37: two matching entries give two reports, the older one's first. -/
theorem test_escapes_oldest_first :
    (((State.escapeSearch hold1 [entry1, { entry1 with sequence := 2 }] (originOf 32 live)).2.holds.escapes).map
      (·.sequence)) = [1, 2] := by decide +kernel

/-- R22, R37: an ESCAPE report carries the placed day of the hold that matched, 9,570, after its reason and code. -/
theorem test_escape_carries_placed_day : (live.escapeOf entry1 (keyA, some (ascii "L1190")) hold1).placed = 9570
    ∧ (escape1.fields false).drop 6 = [[2], [0], [0x25, 0x62], [0], [0xFF, 0xFF], [0]] := by decide +kernel

theorem test_full_hold_list : (holdsTo 128).hold (holdF.article, holdF.lot) = none := by decide +kernel

theorem test_witness_HoldListRequests : live.Takes 2 0x21 ∧ live.Takes 2 0x22 ∧ live.Takes 2 0x23 ∧ live.TableInv
    ∧ isDigits 14 [] = false ∧ isLot [] = false ∧ isDigits 14 keyA = true ∧ isLot (ascii "L1190") = true
    ∧ live.hold (keyA, ascii "L1190") = some hold1 ∧ live.hold (keyB, ascii "L1190") = none
    ∧ live.holds.currency = .current ∧ State.reset.holds.currency = .stale ∧ live.holds.list.head? = some hold1
    ∧ hold1 ∈ live.holds.list ∧ ltHoldKey (anyArticle, []) hold1.key = true ∧ State.reset.holds.list = []
    ∧ (∀ g ∈ live.holds.list, ltHoldKey (keyB, ascii "L1190") g.key = false) := by
  refine ⟨test_live_takes _ (by decide), test_live_takes _ (by decide), test_live_takes _ (by decide), live_tables, ?_⟩
  and_intros <;> decide +kernel

theorem test_witness_CurrencyRequest : live.Takes 2 0x24 ∧ (65535 : Nat) = live.holds.generation
    ∧ 0 ≠ live.holds.generation ∧ (36524 : Nat) ≤ 36524 ∧ 36524 < (36525 : Nat) :=
  ⟨test_live_takes _ (by decide), by decide +kernel⟩

theorem test_witness_RetriesAndWrapperConfig : live.Takes 2 0x33 ∧ live.Takes 2 0x35
    ∧ State.WaitingInv (withPallet (pallet .waiting (some 1)) live)
    ∧ (withPallet (pallet .waiting (some 1)) live).ctx 12 = some (pallet .waiting (some 1))
    ∧ 4 < (5 : Nat) ∧ 7 < (8 : Nat) ∧ (4 : Nat) = (3 : WrapperNo).val + 1 ∧ (∀ r ∈ [7], r ≤ 7)
    ∧ ((moving (.wrapper 0) (.context ⟨12, 1⟩) 1).alloc.car.recipe) = some 0 ∧ (0 : Nat) ∉ [7]
    ∧ (live.wrapper 3).pallet = .none := by
  refine ⟨test_live_takes _ (by decide), test_live_takes _ (by decide), fun i c e h => ?_, by decide +kernel⟩
  have := all_of (s := withPallet (pallet .waiting (some 1)) live) (p := fun c => c.verdict == none) (by decide +kernel) i c e
  simpa using this

theorem test_witness_ContextLogAndStatusReadings : live.Takes 2 0x31 ∧ live.Takes 2 0x32 ∧ live.Takes 2 0x44
    ∧ live.Takes 2 0x45 ∧ live.Takes 2 0x67
    ∧ (withPallet (pallet .scanning none) live).ctx 12 = some (pallet .scanning none) ∧ live.ctx 63 = none
    ∧ isDigits 18 licence1 = true ∧ isDigits 18 [0x31] = false ∧ (∀ i, live.ctx i = none) ∧ (255 : Nat) ≤ 255 ∧ 64 ≤ (64 : Nat) ∧ 256 < (257 : Nat)
    ∧ (logged 256).labels.log.reverse[256 - 1]?.isSome = true ∧ (logged 255).labels.log.length < 256 :=
  ⟨test_live_takes _ (by decide), test_live_takes _ (by decide), test_live_takes _ (by decide), test_live_takes _ (by decide),
    test_live_takes _ (by decide), by decide +kernel⟩

/-- R53: a reading by licence carries the number of the other contexts of that licence before all else, one by slot
carries none; the head of the two is the one admitted first. -/
theorem test_context_of_a_shared_licence :
    let s := measuringLane (pallet .scanning none) { pallet .admitted none with adm := 2 }
    ((s.contextGet (.licence licence1)).result.fields.head?, (s.contextGet (.slot 13)).result.fields.head?)
      = (some [1], some [13]) := by decide +kernel

theorem test_one_context_of_a_licence : ∀ (j : Slot) (d : Context),
    (withPallet (pallet .scanning none) live).ctx j = some d → d.licence = some licence1 → j = 12 := by
  intro j d e _
  by_contra h
  have : ∀ j : Slot, j ≠ 12 → (withPallet (pallet .scanning none) live).ctx j = none := by decide +kernel
  simp [this j h] at e

def building (n : Nat) : State := live.onComposer fun c => { c with build := some ⟨3, List.replicate n .newline⟩ }

theorem test_witness_TemplateRequests : live.Takes 2 0x40 ∧ live.Takes 2 0x41 ∧ live.Takes 2 0x42 ∧ live.Takes 2 0x43
    ∧ 16 ≤ (16 : Nat) ∧ live.composer.build = none ∧ (building 47).composer.build = some ⟨3, List.replicate 47 .newline⟩
    ∧ [ItemFields.newline].map itemOf = [Item.newline].map some ∧ (List.replicate 47 Item.newline).length + [Item.newline].length ≤ 48
    ∧ 48 < (List.replicate 48 Item.newline).length + [Item.newline].length ∧ itemOf (.unknown 10) = none
    ∧ (itemOf .newline).isSome = true ∧ structuralFault 0 none (List.replicate 47 .newline) = some (.noEnd, 47)
    ∧ structuralFault 0 none template3 = none ∧ flight1.template = 3 ∧ (48 : Nat) ≤ 48 :=
  ⟨test_live_takes _ (by decide), test_live_takes _ (by decide), test_live_takes _ (by decide), test_live_takes _ (by decide),
    by decide +kernel⟩

/-- The settings of WATCH_PUT at their highest values. -/
def watchMost : WatchFields := ⟨15, 2, some 31, some 255, [⟨119, 4, 3, 0, 256 ^ 4 - 1⟩, ⟨0, 1, 4, 0, 0⟩], 2, 4⟩

theorem watchF_inRange : watchF.InRange ∧ watchMost.InRange := by
  unfold WatchFields.InRange TestFields.InRange
  refine ⟨?_, ?_⟩ <;> simp [watchF, watchMost]

/-- A setting out of range for each of them. -/
theorem watchF_outOfRange : ∀ f ∈ [{ watchF with enabled := 3 }, { watchF with source := some 32 },
    { watchF with kind := some 256 }, { watchF with tests := List.replicate 3 ⟨0, 1, 1, 5, 0⟩ },
    { watchF with tests := [⟨120, 1, 1, 5, 0⟩] }, { watchF with tests := [⟨0, 3, 1, 5, 0⟩] },
    { watchF with tests := [⟨0, 1, 2, 256, 0⟩] }, { watchF with tests := [⟨0, 1, 3, 2, 1⟩] },
    { watchF with tests := [⟨0, 1, 5, 0, 0⟩] }, { watchF with combine := 3 }, { watchF with action := 5 }],
    ¬ f.InRange := by
  unfold WatchFields.InRange TestFields.InRange
  simp [watchF]

theorem test_witness_WatchRequests : live.Takes 2 0x50 ∧ live.Takes 2 0x51 ∧ live.Takes 2 0x52 ∧ watchF.InRange
    ∧ watchF.screen = (3 : ScreenNo).val ∧ ((watching .alert .overrun).watch[(3 : ScreenNo)]).latch = .overrun
    ∧ (123 : Nat) ≤ 123 ∧ 16 ≤ (16 : Nat) ∧ (3 : Byte) ≠ 1 ∧ (3 : Byte) ≠ 2 :=
  ⟨test_live_takes _ (by decide), test_live_takes _ (by decide), test_live_takes _ (by decide), watchF_inRange.1,
    by decide +kernel⟩

/-- R168: an OVERRUN_ACK alert carries the absent kind as 0 and an absent value for its one test. -/
theorem test_overrun_ack_fields : watchMatchFields 1 none =
    [[0], [0xFF], [0xFF], [0xFF], [1], [0xFF, 0xFF, 0xFF, 0xFF, 0xFF]] := by
  decide +kernel

theorem modeTakes {code : Byte} (m : LineMode) (h : code ∈ knownCodes) :
    State.Takes 2 code { live with ctl := { ctl1 with mode := m } } :=
  ⟨⟨⟨rfl, (by decide +kernel : live.passive = false), rfl⟩, (by decide +kernel : (2 : Byte) ≠ live.ownAddress)⟩,
    (by decide +kernel : live.mgmt.replies.length < 16), live_permits _ h⟩

/-- Every mode request is taken in every mode. -/
theorem test_witness_ModeRequests : ∀ m : LineMode, ∀ code ∈ [0x60, 0x61, 0x62, 0x64],
    State.Takes 2 code { live with ctl := { ctl1 with mode := m } } := by
  intro m code h
  exact modeTakes m ((by decide : ∀ c ∈ ([0x60, 0x61, 0x62, 0x64] : List Byte), c ∈ knownCodes) _ h)

/-- Each case of an infeed command: none pending, and one pending that equals the last placed one, or does not. -/
theorem test_witness_InfeedCommands : (live.tracker.lanes[(2 : Lane)]).order = none
    ∧ ((live.modLane 2 fun l => { l with order := some .stop, lastPlaced := some .go }).tracker.lanes[(2 : Lane)])
        = ⟨[], .stop, some .stop, some .go⟩
    ∧ live.wanted 2 = .go ∧ (live.tracker.lanes[(2 : Lane)]).infeed ≠ live.wanted 2
    ∧ (stopped.tracker.lanes[(2 : Lane)]).infeed = stopped.wanted 2 ∧ live.holderOf (.infeed 2) = some 13
    ∧ live.holderOf (.infeed 0) = none := by decide +kernel

/-- R45: a GO that replaces a STOP still pending, with GO the last placed command, drops the pending order. -/
theorem test_infeed_dropped : let t := (waitingLine.modLane 2 fun l =>
      { l with order := some .stop, lastPlaced := some .go }).sendInfeed 2 .go
    (t.tracker.lanes[(2 : Lane)], t.ring.waiting) = (⟨[], .go, none, some .go⟩, []) := by decide +kernel

theorem test_open_and_closed_lines : (∀ i, live.ctx i = none)
    ∧ (withPallet (pallet .scanning none) live).ctx 12 ≠ none := by decide +kernel

theorem test_witness_Restart : live.Takes 2 0x63
    ∧ ((wrapperIn .loaded (.context ⟨12, 1⟩) (some .ordered) none).wrapper 0).pallet = .context ⟨12, 1⟩
    ∧ (moving .spur (.context ⟨12, 1⟩) 1).alloc.car.cargo ≠ .none :=
  ⟨test_live_takes _ (by decide), by decide +kernel⟩

theorem test_witness_ParameterRequests : live.Takes 2 0x65 ∧ live.Takes 2 0x66
    ∧ (∀ p ∈ [(1, 0), (17, 99)], 1 ≤ p.1 ∧ p.1 ≤ 17) ∧ ([(1, 0), (17, 99)].map (·.1)).Nodup
    ∧ ¬ ([(1, 0), (1, 99)].map (·.1)).Nodup ∧ (List.replicate 17 1).length ≤ 17 :=
  ⟨test_live_takes _ (by decide), test_live_takes _ (by decide), by decide +kernel⟩

/-! ### One step of a command, against the manual's examples -/

/-- Chapter 1, step 3: min_shelf_life 1,200 is stored as 730, and the totals are kept. -/
theorem test_consignment_clamped : ((after (.consignmentPut 2 1 { consignmentF with minShelfLife := 1200 }) live).consignment
    consignmentNo).map (fun c => (c.minShelfLife, c.totals)) = some (730, ⟨0, 0, 0, 0⟩) := by decide +kernel

/-- Chapter 1, step 5: the tag of a LOADED plan admits a context and binds the plan. -/
theorem test_tag_read_binds : let t := after (.tagRead 5 10 licenceField) live
    (t.ctx 0).map (fun c => (c.adm, c.phase, c.planSlot, c.reasons)) = some (1, .admitted, some 0, [])
      ∧ (t.planAt 0).map (fun p => (p.state, p.bound)) = some (.inUse, some 0) ∧ t.queue 2 = [0] := by decide +kernel

/-- Chapter 1, step 8: the tag of a USED plan gives LICENCE_REUSED. -/
theorem test_tag_read_reused : ((after (.tagRead 5 10 licenceField) planUsed).ctx 0).map (·.reasons)
    = some [.licenceReused] := by decide +kernel

/-- R23: the generation 65,535 is followed by 0. -/
theorem test_generation_wraps : (after (.holdAdd 2 1 holdF) live).holds.generation = 0 := by decide +kernel

/-- Chapter 2: HOLD_ADD raises a decided context whose tally it matches to HOLD. -/
theorem test_late_hold_raises : ((after (.holdAdd 2 1 holdF) (withPallet (decided .pass [] .atHeadDecided (some 9)) live)).ctx
    12).map (fun c => (c.verdict, c.reasons)) = some (some .hold, [.lotHeldLate]) := by decide +kernel

/-- Chapter 2: a CURRENCY with another generation makes the list STALE and the line DEGRADED. -/
theorem test_currency_mismatch : let t := after (.currency 2 1 43 9570) live
    t.holds.currency = .stale ∧ t.holds.window = none ∧ t.ctl.mode = .degraded := by decide +kernel

/-- Chapter 3: a TUNNEL_START with the licence of the second context marks the first TRACK_SLIP. -/
theorem test_tunnel_start_slips : let t := after (.tunnelStart 5 11 licenceField) (twoInLane .admitted .admitted)
    (t.ctx 12).map (fun c => (c.phase, c.reasons)) = some (.admitted, [.trackSlip])
      ∧ (t.ctx 13).map (fun c => (c.phase, c.timer)) = some (.scanning, some 4000) := by decide +kernel

/-- Chapter 5: the weight that arrives last brings the decision, PASS, with wrap_wait_limit started. -/
theorem test_measure_decides : ((after (.measure 5 12 (weightPayload 761950 licenceField))
      (withPallet { pallet .measuring (some 9) with weight := none } (live.onHolds fun h => { h with list := [] }))).ctx 12).map (fun c => (c.verdict, c.phase, c.timer))
    = some (some .pass, .atHeadDecided, some 120000) := by decide +kernel

/-- Chapter 6, arbitration 1: two heads decided at the same time; the lower lane goes to the spur. -/
theorem test_arbiter_lowest_lane : (twoHeads.settle .moveDone).alloc.car.cargo = .context ⟨12, 1⟩
    ∧ (twoHeads.settle .moveDone).alloc.car.dest = some .spur := by decide +kernel

/-- R40, R103: a context admitted to an empty lane becomes a lane head, so that the arbiter runs: the head of lane 3,
eligible since, goes to the spur. A TAG_READ that makes no head runs none. -/
theorem test_new_lane_head_runs_the_arbiter :
    let s := twoHeads.onAlloc fun a => { a with arbiterDue := false }
    (s.admitPallet 6 none false).alloc.arbiterDue = true ∧ (s.admitPallet 2 none false).alloc.arbiterDue = false
    ∧ ((s.admitPallet 6 none false).settle .tagRead).alloc.car.cargo = .context ⟨12, 1⟩ := by decide +kernel

/-- R51, R140, R146: the STRAY report of an APPLIED carries its readback as the licence. -/
theorem test_stray_applied_carries_readback :
    live.applied 0 4117 (some licence1) 17 = live.stray 0x09 17 none (some licence1) .noCandidate
    ∧ live.ticketApplied 4117 (some licence1) 20 = live.stray 0x09 20 none (some licence1) .noCandidate := by
  decide +kernel

/-- Chapter 6, "The fault": WRAP_FAULT raises the context to REWORK. -/
theorem test_wrap_fault_raises : let t := after (.wrapFault 5 14) (wrapperIn .wrapping (.context ⟨12, 1⟩) (some .started) none)
    (t.ctx 12).map (fun c => (c.verdict, c.reasons)) = some (some .rework, [.wrapFault])
      ∧ (t.wrapper 0).state = .fault := by decide +kernel

/-- Chapter 7: the dispatch label that completes at serial 999,999 is kept, and the next serial is 1. -/
theorem test_serial_wraps : let t := after .compositionComplete (composing .dispatchLabel false 0 .pass)
    (t.ctx 12).map (fun c => (c.labelSerial, c.compStatus)) = some (some 999999, .composed)
      ∧ t.composer.nextSerial = 1 := by decide +kernel

/-- Chapter 8, order B: APPLIED with the voided serial marks the label void and routes to LATE_REJECT. -/
theorem test_applied_void : ((after (.applied 5 17 (serialBytes 4117 ++ licenceField))
      (onLine { decided .hold [.lotHeldLate] .labelling (some 9) with voided := some 4117 } live)).ctx 12).map
        (fun c => (c.phase, c.labelVoid, c.route)) = some (.exiting, true, some .lateReject) := by decide +kernel

/-- Chapter 8, order A: ROUTED to bay 7 logs the release and adds 1, 74, 736,950 and 64,944 to the totals. -/
theorem test_release_totals : let t := after (.routed 5 19 (licenceField ++ [7])) (onLine (exitContext (.bay 7) 9) live)
    (t.consignment consignmentNo).map (·.totals) = some ⟨1, 74, 736950, 64944⟩
      ∧ t.labels.log.map (fun e => (e.sequence, e.bay)) = [(1, 7)] ∧ (t.ctx 12).isSome = false := by decide +kernel

/-- Chapter 9, event 5: with the run at 4 the oldest originated telegram is sent, and its room goes to the first
holder that waits. -/
theorem test_ring_out_after_four : let t := after .ringOutFree ((queues [tg 9] (List.replicate 32 (tg 5)) 4).onRing
      fun r => { r with waiting := [.infeed 2] })
    t.ring.ringOut = some (tg 5) ∧ t.ring.run = 0 ∧ t.ring.forward = [tg 9] := by decide +kernel

/-- Chapter 10: ALERT_CAPTURE at a CLEAR latch makes it PENDING, with the captured telegram and the count 1. -/
theorem test_screen_captures : let t := after (.ringInTelegram ⟨31, 14, 8, [5]⟩) (watching .alertCapture .clear)
    (t.watch[(3 : ScreenNo)].latch, t.watch[(3 : ScreenNo)].capture, t.watch[(3 : ScreenNo)].count)
      = (.pending, [31, 14, 8, 1, 5], 1) := by decide +kernel

/-- Chapter 11: the ring falls silent in RUN: ISOLATED with RUN held, REJECT_ALL asserted, and RING_LOST raises a
decided context. -/
theorem test_ring_silence : let t := after .ringSilenceExpiry (withPallet (decided .pass [] .atHeadDecided (some 9))
      (timersAt (some 1) (some 0) .run none))
    (t.ctl.mode, t.ctl.held, t.ctl.rejectAll) = (.isolated, some .run, true)
      ∧ (t.ctx 12).map (fun c => (c.verdict, c.reasons)) = some (some .rework, [.ringLost]) := by decide +kernel

/-- R176: HALT closes every open context and asserts REJECT_ALL. -/
theorem test_halt : let t := after (.halt 2 1) (withPallet (pallet .scanning none) live)
    (t.ctl.mode, t.ctl.rejectAll) = (.stopped, true) ∧ (∀ i, t.ctx i = none)
      ∧ t.tracker.lanes[(2 : Lane)].infeed = .stop := by decide +kernel

/-- R17, R18: an open claim of the dispatch system role with another instance reaches the owner, which refuses it. -/
theorem test_claim_of_an_instance :
    ((after (.stationPut 9 1 9 0x0B 1) unclaimed).ring.origin.map (·.payload)) = [[0x10, 1, 0x13, 1, 1]] := by
  decide +kernel

/-- R8, R132: the number of consignments removed is one byte, and a label's kind stands before its place. -/
theorem test_layouts_of_results : (Result.consignmentsRemoved 64).fields = [[64]] ∧ (Result.removed 512).fields = [[2, 0]]
    ∧ ((LabelView.fields ⟨.queued, some 3, some .rejectTicket, some 4, false, none, 1, 2⟩).take 3) = [[2], [2], [3]] := by
  decide +kernel

/-- R177: the reply to RESTART is the first telegram of the emptied origin queue. -/
theorem test_restart_reply_first : (after (.restart 2 7) (originOf 3 live)).ring.origin.head?
    = some ⟨2, 5, 0x31, [0x63, 7, 0, 1, 1, 2, 1, 2, 1]⟩ := by decide +kernel
end Sys2Proof.Tests
end

section
/-! PALLET_AT_LABEL (R139, R146): what screening and forwarding leave of a label line, what the telegram does when its
block takes it, and the statement O38. -/

namespace Sys2Proof.Machine

open Sys2Proof

/-! ### The label lines after screening and forwarding -/

@[simp] theorem State.passed_line (t : Telegram) (s : State) (k : LineNo) : (s.passed t).line k = s.line k := by
  simp [State.line]

@[simp] theorem State.passed_labelling (t : Telegram) (s : State) (k : LineNo) :
    (s.passed t).labelling k = s.labelling k := by
  simp [State.labelling]

@[simp] theorem State.passed_params (t : Telegram) (s : State) : (s.passed t).params = s.ctl.params := by
  simp [State.params]

/-! ### The entry of a phase -/

theorem State.enter_of_ctx {i : Slot} {c : Context} {s : State} (h : s.ctx i = some c) (p : Phase)
    (timer : Option Nat) : s.enter i p timer = s.putCtx i (some { c with phase := p, timer := timer }) := by
  simp [State.enter, State.modCtx, h]

/-! ### PALLET_AT_LABEL at a line -/

section
variable {k : LineNo} {src : Byte} {s : State}

theorem State.palletAtLabel_of_labelling {i : Slot} (h : s.labelling k = some i) :
    s.palletAtLabel k src = s.stray kLabelEvent src none none .alreadyStarted := by
  simp only [State.palletAtLabel, h]

theorem State.palletAtLabel_of_queued {i : Slot} {c : Context} (h : s.labelling k = none)
    (hq : (s.line k).find? (fun i => (s.ctx i).any fun c => c.phase == .queuedLabel) = some i)
    (hc : s.ctx i = some c) : s.palletAtLabel k src =
      s.putCtx i (some { c with phase := .labelling, timer := some s.params.labelLimit }) := by
  simp only [State.palletAtLabel, h, hq, State.enter_of_ctx hc]

theorem State.palletAtLabel_of_none_queued (h : s.labelling k = none)
    (hq : (s.line k).find? (fun i => (s.ctx i).any fun c => c.phase == .queuedLabel) = none) :
    s.palletAtLabel k src = s.stray kLabelEvent src none none .noCandidate := by
  simp only [State.palletAtLabel, h, hq]

end

/-! ### The telegram reaches the Dispatcher -/

theorem whole_takeLabelEvent_palletAtLabel : whole takeLabelEvent [2] = some .palletAtLabel := rfl

/-- A LABEL_EVENT that an applicator sends, and whose payload is its event, is handed to the Dispatcher (R152, R153). -/
theorem State.hand_labelEvent {dst src : Byte} {p : List Byte} {a : Option LineNo} {e : LabelEvent} {s : State}
    (ha : s.roleOf src applicatorRole = some a) (he : whole takeLabelEvent p = some e) :
    s.hand ⟨dst, src, kLabelEvent, p⟩ = s.labelEvent src a e := by
  have hk : kLabelEvent.toNat = 0x09 := rfl
  simp only [State.hand, hk, ha, State.fitting, he]

/-- PALLET_AT_LABEL of an applicator, in the state that screening and forwarding leave. -/
theorem exec_palletAtLabel_of_role {dst src : Byte} {a : Option LineNo} {s : State} (h : s.Hears src)
    (ha : s.roleOf src applicatorRole = some a) : exec (.palletAtLabel dst src) s =
      .next ((s.passed ⟨dst, src, kLabelEvent, [2]⟩).labelEvent src a .palletAtLabel) := by
  have hexec : exec (.palletAtLabel dst src) s = .next (s.arrive ⟨dst, src, kLabelEvent, [2]⟩) := rfl
  have harrive : s.arrive ⟨dst, src, kLabelEvent, [2]⟩ = (s.passed _).hand ⟨dst, src, kLabelEvent, [2]⟩ :=
    State.arrive_of_hears h (by simp) (by decide : kLabelEvent ≠ kMgmtRequest)
  rw [hexec, harrive, State.hand_labelEvent (by simpa using ha) whole_takeLabelEvent_palletAtLabel]

end Sys2Proof.Machine

namespace Sys2Proof.Proofs

open Sys2Proof Sys2Proof.Machine

/-- Settles O38, by the cases of R139: a LABELLING context on the line, else the first QUEUED_LABEL one, else none. -/
theorem palletAtLabel : Obligations.PalletAtLabel := by
  unfold Obligations.PalletAtLabel
  rintro s dst src t hears rfl
  refine ⟨exec_palletAtLabel_of_role hears, fun k hk => ?_⟩
  have hexec : exec (.palletAtLabel dst src) s =
      .next ((s.passed ⟨dst, src, kLabelEvent, [2]⟩).palletAtLabel k src) := exec_palletAtLabel_of_role hears hk
  refine ⟨fun i hi => ?labelling, fun hnone => ⟨fun i c hq hc => ?queued, fun hq => ?empty⟩⟩
  case labelling => rw [hexec, State.palletAtLabel_of_labelling (by simpa using hi)]; rfl
  case queued =>
    rw [hexec, State.palletAtLabel_of_queued (by simpa using hnone) (by simpa using hq) (by simpa using hc),
      State.passed_params]
    rfl
  case empty => rw [hexec, State.palletAtLabel_of_none_queued (by simpa using hnone) (by simpa using hq)]; rfl

end Sys2Proof.Proofs
end

section
/-! Telegrams on Ring In (R150, R155): what a valid telegram is, that nothing done with one changes the ring-silence
timer that its arrival restarts, and the statement O5. -/

namespace Sys2Proof.Machine

open Sys2Proof

/-! ### What a valid telegram is (R150) -/

/-- The check of R150 on bytes that reach byte 3, the payload length. -/
theorem telegramOf_cons_isSome_iff (d s k l : Byte) (rest : List Byte) :
    (telegramOf (d :: s :: k :: l :: rest)).isSome = true ↔ l.toNat ≤ 120 ∧ rest.length = 2 + l.toNat
      ∧ rest.drop l.toNat = beBytes 2 (crc16 (d :: s :: k :: l :: rest.take l.toNat)).toNat := by
  have htake : (d :: s :: k :: l :: rest).take (4 + l.toNat) = d :: s :: k :: l :: rest.take l.toNat := by
    simp [Nat.add_comm 4]
  have hlen : (d :: s :: k :: l :: rest).length = 6 + l.toNat ↔ rest.length = 2 + l.toNat := by
    simp only [List.length_cons]
    omega
  simp only [telegramOf, htake, Option.isSome_ite, Bool.and_eq_true, decide_eq_true_eq, beq_iff_eq, hlen, and_assoc]
  rfl

theorem telegramOf_isSome_iff (bytes : List Byte) : (telegramOf bytes).isSome = true ↔
    6 ≤ bytes.length ∧ (bytes.getD 3 0).toNat ≤ 120 ∧ bytes.length = 6 + (bytes.getD 3 0).toNat
      ∧ bytes.drop (bytes.length - 2) = beBytes 2 (crc16 (bytes.take (bytes.length - 2))).toNat := by
  match bytes with
  | [] | [_] | [_, _] | [_, _, _] => simp [telegramOf]
  | d :: s :: k :: l :: rest =>
    have hl : (d :: s :: k :: l :: rest).getD 3 0 = l := rfl
    rw [telegramOf_cons_isSome_iff, hl]
    by_cases hlen : rest.length = 2 + l.toNat
    · have hbody : (d :: s :: k :: l :: rest).length - 2 = l.toNat + 4 := by
        simp only [List.length_cons]
        omega
      rw [hbody, List.drop_succ_cons, List.drop_succ_cons, List.drop_succ_cons, List.drop_succ_cons]
      simp only [List.length_cons, List.take_succ_cons]
      exact ⟨fun ⟨hle, _, hcrc⟩ => ⟨by omega, hle, by omega, hcrc⟩, fun ⟨_, hle, _, hcrc⟩ => ⟨hle, hlen, hcrc⟩⟩
    · simp only [List.length_cons]
      exact ⟨fun ⟨_, h, _⟩ => absurd h hlen, fun ⟨_, _, h, _⟩ => absurd (by omega) hlen⟩

/-- A telegram that is read has a payload that Ring In takes. -/
theorem payload_length_of_telegramOf {bytes : List Byte} {t : Telegram} (h : telegramOf bytes = some t) :
    t.payload.length ≤ 120 := by
  match bytes with
  | [] | [_] | [_, _] | [_, _, _] => cases h
  | d :: s :: k :: l :: rest =>
    have valid := (telegramOf_cons_isSome_iff d s k l rest).mp (by rw [h]; rfl)
    have ht : some (⟨d, s, k, rest.take l.toNat⟩ : Telegram) = some t := by
      simp only [telegramOf, Option.ite_none_right_eq_some] at h
      exact h.2
    cases ht
    exact (List.length_take_le _ _).trans valid.1

/-! ### The ring-silence timer: choices between states, and folds

A lemma that ends in `_silence` says that its operation keeps the ring-silence timer, one that ends in `_ring` that it
keeps the whole Ring Port, and one on an owner's answer that ends in `_state` that it keeps the whole state. They stand
in the order of the model's files. -/

@[simp] theorem State.ite_ring {p : Prop} [Decidable p] (s t : State) :
    (if p then s else t).ring = if p then s.ring else t.ring :=
  apply_ite State.ring p s t

@[simp] theorem RingPort.ite_silence {p : Prop} [Decidable p] (a b : RingPort) :
    (if p then a else b).silence = if p then a.silence else b.silence :=
  apply_ite RingPort.silence p a b

@[simp] theorem Answer.ite_state {p : Prop} [Decidable p] (a b : Answer) :
    (if p then a else b).state = if p then a.state else b.state :=
  apply_ite Answer.state p a b

/-- A fold whose every step keeps the timer keeps it. -/
theorem State.foldl_silence {α : Type} {f : State → α → State} (h : ∀ s a, (f s a).ring.silence = s.ring.silence)
    (as : List α) (s : State) : (as.foldl f s).ring.silence = s.ring.silence := by
  induction as generalizing s with
  | nil => rfl
  | cons a as ih => rw [List.foldl_cons, ih, h]

/-! ### The emissions (R156, R159, R161) -/

@[simp] theorem State.takeReport_ring (k : Nat) (fs : List (List Byte)) (s : State) :
    (s.takeReport k fs).2.ring = s.ring := by
  unfold State.takeReport
  split <;> rfl

/-- Of the Ring Port, a holder that gives a telegram changes the closures at most. -/
@[simp] theorem State.take_silence (h : Holder) (s : State) : (s.take h).2.ring.silence = s.ring.silence := by
  cases h with
  | infeed | wrapOutput =>
    simp only [State.take]
    split
    · split <;> simp
    · rfl
  | _ =>
    simp only [State.take]
    split <;> simp

@[simp] theorem State.place_silence (t : Telegram) (s : State) : (s.place t).ring.silence = s.ring.silence := rfl

@[simp] theorem State.giveOne_silence (h : Holder) (s : State) : (s.giveOne h).ring.silence = s.ring.silence := by
  unfold State.giveOne
  split
  next t s' taken => simpa [taken] using State.take_silence h s
  next s' taken => simpa [taken] using State.take_silence h s

@[simp] theorem State.giveMany_silence (n : Nat) (h : Holder) (s : State) :
    (State.giveMany n h s).ring.silence = s.ring.silence := by
  induction n generalizing s with
  | zero => rfl
  | succ n ih => simp [State.giveMany, ih]

@[simp] theorem State.joinPending_silence (h : Holder) (s : State) :
    (s.joinPending h).ring.silence = s.ring.silence := rfl

@[simp] theorem State.offer_silence (h : Holder) (s : State) : (s.offer h).ring.silence = s.ring.silence := by
  simp [State.offer]

@[simp] theorem State.prune_silence (h : Holder) (s : State) : (s.prune h).ring.silence = s.ring.silence := by
  simp [State.prune]

@[simp] theorem State.report_silence (r : Report) (s : State) : (s.report r).ring.silence = s.ring.silence := by
  simp [State.report]

@[simp] theorem State.reply_silence (r : Reply) (s : State) : (s.reply r).ring.silence = s.ring.silence := by
  simp [State.reply]

@[simp] theorem State.escape_silence (e : EscapeReport) (s : State) : (s.escape e).ring.silence = s.ring.silence := by
  simp [State.escape]

@[simp] theorem State.overload_silence (c : RingCause) (r : RingReport) (s : State) :
    (s.overload c r).ring.silence = s.ring.silence := by
  simp [State.overload]

@[simp] theorem State.stray_silence (kind src : Byte) (lane : Option Lane) (licence : Option Text)
    (cause : StrayCause) (s : State) :
    (s.stray kind src lane licence cause).ring.silence = s.ring.silence := by
  simp [State.stray]

@[simp] theorem State.sendOrders_silence (i : Slot) (os : List Order) (s : State) :
    (s.sendOrders i os).ring.silence = s.ring.silence := by
  simp [State.sendOrders]

@[simp] theorem State.sendInfeed_silence (l : Lane) (c : InfeedCmd) (s : State) :
    (s.sendInfeed l c).ring.silence = s.ring.silence := by
  simp [State.sendInfeed]

@[simp] theorem State.sendCarMove_silence (m : CarMove) (s : State) :
    (s.sendCarMove m).ring.silence = s.ring.silence := by
  simp [State.sendCarMove]

@[simp] theorem State.sendWrapOrder_silence (w : WrapperNo) (o : WrapOrder) (s : State) :
    (s.sendWrapOrder w o).ring.silence = s.ring.silence := by
  simp [State.sendWrapOrder]

@[simp] theorem State.dropWrapOrder_silence (w : WrapperNo) (s : State) :
    (s.dropWrapOrder w).ring.silence = s.ring.silence := by
  simp [State.dropWrapOrder]

@[simp] theorem State.sendOutput_silence (w : WrapperNo) (c : OutputCmd) (s : State) :
    (s.sendOutput w c).ring.silence = s.ring.silence := by
  simp [State.sendOutput]

@[simp] theorem State.forward_silence (t : Telegram) (s : State) : (s.forward t).ring.silence = s.ring.silence := by
  simp [State.forward]

/-! ### The infeeds and the label jobs -/

@[simp] theorem State.infeedDecision_silence (l : Lane) (s : State) :
    (s.infeedDecision l).ring.silence = s.ring.silence := by
  simp [State.infeedDecision]

@[simp] theorem State.infeedAll_silence (s : State) : s.infeedAll.ring.silence = s.ring.silence := by
  unfold State.infeedAll
  exact State.foldl_silence (fun s l => State.sendInfeed_silence l (s.wanted l) s) allLanes s

@[simp] theorem State.leaveLane_ring (i : Slot) (l : Lane) (s : State) : (s.leaveLane i l).ring = s.ring := rfl

@[simp] theorem State.queueComposition_ring (id : CtxId) (k : LabelKind) (s : State) :
    (s.queueComposition id k).ring = s.ring := rfl

@[simp] theorem State.startComposition_ring (r : CompRequest) (c : Context) (s : State) :
    (s.startComposition r c).ring = s.ring := rfl

@[simp] theorem State.startQueued_ring (s : State) (rs : List CompRequest) : (s.startQueued rs).ring = s.ring := by
  induction rs with
  | nil => rfl
  | cons r rs ih =>
    unfold State.startQueued
    split
    · simp
    · exact ih

@[simp] theorem State.startNext_ring (s : State) : s.startNext.ring = s.ring := by
  simp [State.startNext]

@[simp] theorem State.requestLabel_ring (id : CtxId) (k : LabelKind) (s : State) :
    (s.requestLabel id k).ring = s.ring := by
  unfold State.requestLabel
  split
  · rfl
  · split <;> simp

@[simp] theorem State.modLine_ring (k : LineNo) (f : List Slot → List Slot) (s : State) :
    (s.modLine k f).ring = s.ring := rfl

@[simp] theorem State.startJob_silence (dst : RoleInst) (i : Slot) (s : State) :
    (s.startJob dst i).ring.silence = s.ring.silence := by
  unfold State.startJob
  split <;> simp

@[simp] theorem State.startJobs_silence (k : LineNo) (s : State) : (s.startJobs k).ring.silence = s.ring.silence := by
  simp only [State.startJobs]
  split
  · simp
  · split <;> simp

@[simp] theorem State.startTicket_silence (s : State) : s.startTicket.ring.silence = s.ring.silence := by
  unfold State.startTicket
  split <;> simp

@[simp] theorem State.withdraw_silence (dst : RoleInst) (keep : Bool) (i : Slot) (s : State) :
    (s.withdraw dst keep i).ring.silence = s.ring.silence := by
  simp [State.withdraw]

@[simp] theorem State.raiseInLine_silence (i : Slot) (s : State) :
    (s.raiseInLine i).ring.silence = s.ring.silence := by
  simp only [State.raiseInLine]
  split
  · rfl
  · split
    · split <;> simp
    · rfl

/-! ### Reasons -/

@[simp] theorem State.tellRaise_silence (id : CtxId) (p : Phase) (s : State) :
    (s.tellRaise id p).ring.silence = s.ring.silence := by
  unfold State.tellRaise
  split <;> simp

@[simp] theorem State.addLater_silence (id : CtxId) (c : Context) (v : Verdict) (r : Reason) (s : State) :
    (s.addLater id c v r).ring.silence = s.ring.silence := by
  simp [State.addLater]

@[simp] theorem State.handReason_silence (id : CtxId) (r : Reason) (s : State) :
    (s.handReason id r).ring.silence = s.ring.silence := by
  unfold State.handReason
  split
  · rfl
  · split
    · rfl
    · split <;> simp

@[simp] theorem State.handSlot_silence (i : Slot) (r : Reason) (s : State) :
    (s.handSlot i r).ring.silence = s.ring.silence := by
  unfold State.handSlot
  split <;> simp

@[simp] theorem State.handAll_silence (is : List Slot) (r : Reason) (s : State) :
    (s.handAll is r).ring.silence = s.ring.silence :=
  State.foldl_silence (fun s i => State.handSlot_silence i r s) is s

/-! ### The car and the wrappers -/

@[simp] theorem State.reportCar_silence (before : CarState) (cause : Config.UnitCause) (s : State) :
    (s.reportCar before cause).ring.silence = s.ring.silence := by
  simp [State.reportCar]

@[simp] theorem State.setCar_silence (cause : Config.UnitCause) (f : Car → Car) (s : State) :
    (s.setCar cause f).ring.silence = s.ring.silence := by
  simp [State.setCar]

@[simp] theorem State.setWrapper_silence (w : WrapperNo) (cause : Config.UnitCause) (f : Wrapper → Wrapper)
    (s : State) :
    (s.setWrapper w cause f).ring.silence = s.ring.silence := by
  simp [State.setWrapper]

@[simp] theorem State.startMove_silence (cause : Config.UnitCause) (x : Candidate) (s : State) :
    (s.startMove cause x).ring.silence = s.ring.silence := by
  simp [State.startMove]

@[simp] theorem State.arbitrate_silence (cause : Config.UnitCause) (s : State) :
    (s.arbitrate cause).ring.silence = s.ring.silence := by
  unfold State.arbitrate
  split
  · split <;> simp
  · simp

@[simp] theorem State.settle_silence (cause : Config.UnitCause) (s : State) :
    (s.settle cause).ring.silence = s.ring.silence := by
  simp [State.settle]

@[simp] theorem State.recover_silence (cause : Config.UnitCause) (s : State) :
    (s.recover cause).ring.silence = s.ring.silence := by
  simp only [State.recover]
  split
  · split <;> simp
  · simp

@[simp] theorem State.spurFell_silence (cause : Config.UnitCause) (s : State) :
    (s.spurFell cause).ring.silence = s.ring.silence := by
  simp [State.spurFell]

@[simp] theorem State.setSpur_silence (n : Nat) (s : State) : (s.setSpur n).ring.silence = s.ring.silence := by
  simp [State.setSpur]

@[simp] theorem State.failMove_silence (cause : Config.UnitCause) (s : State) :
    (s.failMove cause).ring.silence = s.ring.silence := by
  simp only [State.failMove]
  split <;> simp

@[simp] theorem State.readyCar_silence (s : State) : s.readyCar.ring.silence = s.ring.silence := by
  unfold State.readyCar
  split <;> simp

@[simp] theorem State.modHeld_ring (k : LineNo) (f : List WrapperNo → List WrapperNo) (s : State) :
    (s.modHeld k f).ring = s.ring := rfl

@[simp] theorem State.orderWrap_silence (w : WrapperNo) (s : State) :
    (s.orderWrap w).ring.silence = s.ring.silence := by
  unfold State.orderWrap
  split <;> simp

@[simp] theorem State.endWarmUp_silence (w : WrapperNo) (s : State) :
    (s.endWarmUp w).ring.silence = s.ring.silence := by
  unfold State.endWarmUp
  split <;> simp

@[simp] theorem State.warm_silence (w : WrapperNo) (cause : Config.UnitCause) (fromFault : Bool)
    (f : Wrapper → Wrapper) (s : State) :
    (s.warm w cause fromFault f).ring.silence = s.ring.silence := by
  simp [State.warm]

@[simp] theorem State.giveUp_silence (w : WrapperNo) (cause : Config.UnitCause) (fromFault : Bool) (s : State) :
    (s.giveUp w cause fromFault).ring.silence = s.ring.silence := by
  unfold State.giveUp
  split <;> simp

@[simp] theorem State.joinLine_silence (w : WrapperNo) (cause : Config.UnitCause) (fromFault : Bool) (s : State) :
    (s.joinLine w cause fromFault).ring.silence = s.ring.silence := by
  unfold State.joinLine
  split <;> simp

@[simp] theorem State.finishWrap_silence (w : WrapperNo) (cause : Config.UnitCause) (fromFault : Bool) (s : State) :
    (s.finishWrap w cause fromFault).ring.silence = s.ring.silence := by
  simp [State.finishWrap]

@[simp] theorem State.releaseHeld_silence (n : Nat) (k : LineNo) (cause : Config.UnitCause) (s : State) :
    (State.releaseHeld n k cause s).ring.silence = s.ring.silence := by
  induction n generalizing s with
  | zero => rfl
  | succ n ih =>
    unfold State.releaseHeld
    split
    · rfl
    · simp [ih]

@[simp] theorem State.lineRoom_silence (k : LineNo) (cause : Config.UnitCause) (s : State) :
    (s.lineRoom k cause).ring.silence = s.ring.silence := by
  simp [State.lineRoom]

@[simp] theorem State.firstStart_ring (id : CtxId) (s : State) : (s.firstStart id).ring = s.ring := by
  unfold State.firstStart
  split <;> simp

@[simp] theorem State.startWrap_silence (w : WrapperNo) (s : State) :
    (s.startWrap w).ring.silence = s.ring.silence := by
  unfold State.startWrap
  split <;> simp

@[simp] theorem State.endWrap_silence (w : WrapperNo) (s : State) : (s.endWrap w).ring.silence = s.ring.silence := by
  unfold State.endWrap
  split <;> simp

@[simp] theorem State.failWrap_silence (w : WrapperNo) (cause : Config.UnitCause) (r : Reason) (s : State) :
    (s.failWrap w cause r).ring.silence = s.ring.silence := by
  simp only [State.failWrap]
  split
  case h_1 | h_2 => split <;> simp
  all_goals simp

@[simp] theorem State.endFault_silence (w : WrapperNo) (s : State) :
    (s.endFault w).ring.silence = s.ring.silence := by
  unfold State.endFault
  split <;> simp

@[simp] theorem State.readyWrapper_silence (w : WrapperNo) (s : State) :
    (s.readyWrapper w).ring.silence = s.ring.silence := by
  simp only [State.readyWrapper]
  split <;> simp

@[simp] theorem State.standbyWrapper_silence (w : WrapperNo) (s : State) :
    (s.standbyWrapper w).ring.silence = s.ring.silence := by
  simp only [State.standbyWrapper]
  split
  case h_4 | h_5 => split <;> simp
  all_goals simp

@[simp] theorem State.orphanWrapper_silence (w : WrapperNo) (cause : Config.UnitCause) (s : State) :
    (s.orphanWrapper w cause).ring.silence = s.ring.silence := by
  simp [State.orphanWrapper]

@[simp] theorem State.orphan_silence (id : CtxId) (cause : Config.UnitCause) (s : State) :
    (s.orphan id cause).ring.silence = s.ring.silence := by
  unfold State.orphan
  rw [State.foldl_silence]
  · simp
  · simp

@[simp] theorem State.deliver_silence (id : CtxId) (w : WrapperNo) (recipe : Option Nat) (s : State) :
    (s.deliver id w recipe).ring.silence = s.ring.silence := by
  simp only [State.deliver]
  split <;> simp

@[simp] theorem State.toSpur_silence (id : CtxId) (s : State) : (s.toSpur id).ring.silence = s.ring.silence := by
  simp [State.toSpur]

@[simp] theorem State.carIdle_silence (s : State) : s.carIdle.ring.silence = s.ring.silence := by
  simp [State.carIdle]

@[simp] theorem State.endMove_silence (s : State) : s.endMove.ring.silence = s.ring.silence := by
  simp only [State.endMove]
  split
  · split
    · simp
    · split <;> simp
  · split <;> simp

/-! ### Modes and closures -/

@[simp] theorem State.modeReport_silence (cause : ModeCause) (before : LineMode) (s : State) :
    (s.modeReport cause before).ring.silence = s.ring.silence := by
  simp [State.modeReport]

@[simp] theorem State.setMode_ring (m : LineMode) (reject : Bool) (s : State) :
    (s.setMode m reject).ring = s.ring := rfl

@[simp] theorem State.enterStopped_silence (cause : ModeCause) (s : State) :
    (s.enterStopped cause).ring.silence = s.ring.silence := by
  simp [State.enterStopped]

@[simp] theorem State.enterRun_silence (s : State) : s.enterRun.ring.silence = s.ring.silence := by
  simp [State.enterRun]

@[simp] theorem State.enterDrain_silence (s : State) : s.enterDrain.ring.silence = s.ring.silence := by
  simp [State.enterDrain]

@[simp] theorem State.clearReject_silence (s : State) : s.clearReject.ring.silence = s.ring.silence := by
  simp [State.clearReject]

@[simp] theorem State.drained_silence (s : State) : s.drained.ring.silence = s.ring.silence := by
  unfold State.drained
  split <;> simp

@[simp] theorem State.setCurrency_silence (x : Currency) (s : State) :
    (s.setCurrency x).ring.silence = s.ring.silence := by
  simp [State.setCurrency]

@[simp] theorem State.ringReturned_silence (s : State) : s.ringReturned.ring.silence = s.ring.silence := by
  unfold State.ringReturned
  split <;> simp

@[simp] theorem State.closeLane_silence (i : Slot) (c : Context) (s : State) :
    (s.closeLane i c).ring.silence = s.ring.silence := by
  simp [State.closeLane]

@[simp] theorem State.closePlan_ring (c : Context) (o : Closure) (s : State) : (s.closePlan c o).ring = s.ring := by
  unfold State.closePlan
  split <;> simp

@[simp] theorem State.closeComposer_ring (id : CtxId) (s : State) : (s.closeComposer id).ring = s.ring := rfl

@[simp] theorem State.closeQueues_ring (i : Slot) (s : State) : (s.closeQueues i).ring = s.ring := rfl

@[simp] theorem State.closeHolder_silence (id : CtxId) (os : List Order) (s : State) :
    (s.closeHolder id os).ring.silence = s.ring.silence := by
  simp [State.closeHolder]

@[simp] theorem State.leftLine_silence (k : LineNo) (cause : Config.UnitCause) (s : State) :
    (s.leftLine k cause).ring.silence = s.ring.silence := by
  simp [State.leftLine]

@[simp] theorem State.leftTickets_silence (cause : Config.UnitCause) (s : State) :
    (s.leftTickets cause).ring.silence = s.ring.silence := by
  simp [State.leftTickets]

@[simp] theorem State.closeContext_silence (o : Closure) (cause : Config.UnitCause) (i : Slot) (s : State) :
    (s.closeContext o cause i).ring.silence = s.ring.silence := by
  simp only [State.closeContext]
  split
  · simp
  · split <;> simp

@[simp] theorem State.closeAll_silence (o : Closure) (cause : Config.UnitCause) (is : List Slot) (s : State) :
    (s.closeAll o cause is).ring.silence = s.ring.silence :=
  State.foldl_silence (fun s i => State.closeContext_silence o cause i s) is s

/-! ### Holds, the applicators and the exit switches -/

@[simp] theorem State.lateHolds_silence (h : Hold) (s : State) :
    (s.lateHolds h).2.ring.silence = s.ring.silence := State.handAll_silence _ _ s

@[simp] theorem State.escapeSearch_silence (h : Hold) (es : List LogEntry) (s : State) :
    (s.escapeSearch h es).2.ring.silence = s.ring.silence := by
  induction es generalizing s with
  | nil => rfl
  | cons e es ih =>
    unfold State.escapeSearch
    split <;> simp [ih]

@[simp] theorem State.escapeOfEntry_silence (e : LogEntry) (s : State) :
    (s.escapeOfEntry e).ring.silence = s.ring.silence := by
  unfold State.escapeOfEntry
  split <;> simp

@[simp] theorem State.writeEntry_ring (e : LogEntry) (s : State) : (s.writeEntry e).ring = s.ring := rfl

@[simp] theorem State.jobTaken_ring (i : Slot) (s : State) : (s.jobTaken i).ring = s.ring := rfl

@[simp] theorem State.lineJobTaken_silence (k : LineNo) (n : Nat) (src : Byte) (s : State) :
    (s.lineJobTaken k n src).ring.silence = s.ring.silence := by
  unfold State.lineJobTaken
  split <;> simp

@[simp] theorem State.palletAtLabel_silence (k : LineNo) (src : Byte) (s : State) :
    (s.palletAtLabel k src).ring.silence = s.ring.silence := by
  unfold State.palletAtLabel
  split
  · simp
  · split <;> simp

@[simp] theorem State.formRoute_silence (k : LineNo) (i : Slot) (late : Bool) (s : State) :
    (s.formRoute k i late).ring.silence = s.ring.silence := by
  unfold State.formRoute
  split <;> simp

@[simp] theorem State.endJob_ring (i : Slot) (s : State) : (s.endJob i).ring = s.ring := rfl

@[simp] theorem State.swapped_silence (k : LineNo) (i j : Slot) (s : State) :
    (s.swapped k i j).ring.silence = s.ring.silence := by
  simp [State.swapped]

@[simp] theorem State.applied_silence (k : LineNo) (n : Nat) (readback : Option Text) (src : Byte) (s : State) :
    (s.applied k n readback src).ring.silence = s.ring.silence := by
  unfold State.applied
  split
  · simp
  · split
    · rfl
    · split
      · simp
      · split
        · simp
        · split <;> simp

@[simp] theorem State.failLabel_silence (k : LineNo) (i : Slot) (r : Reason) (s : State) :
    (s.failLabel k i r).ring.silence = s.ring.silence := by
  simp [State.failLabel]

@[simp] theorem State.applyFault_silence (k : LineNo) (src : Byte) (s : State) :
    (s.applyFault k src).ring.silence = s.ring.silence := by
  unfold State.applyFault
  split <;> simp

@[simp] theorem State.addRelease_ring (c : Context) (s : State) : (s.addRelease c).ring = s.ring := by
  unfold State.addRelease
  split <;> simp

@[simp] theorem State.release_silence (i : Slot) (c : Context) (bay : Nat) (s : State) :
    (s.release i c bay).ring.silence = s.ring.silence := by
  simp [State.release]

@[simp] theorem State.routed_silence (k : LineNo) (licence : Option Text) (bay : Option Nat) (src : Byte)
    (s : State) : (s.routed k licence bay src).ring.silence = s.ring.silence := by
  simp only [State.routed]
  split
  · simp
  · split
    · rfl
    · split <;> simp

@[simp] theorem State.ticketTaken_silence (n : Nat) (src : Byte) (s : State) :
    (s.ticketTaken n src).ring.silence = s.ring.silence := by
  unfold State.ticketTaken
  split <;> simp

@[simp] theorem State.ticketApplied_silence (n : Nat) (readback : Option Text) (src : Byte) (s : State) :
    (s.ticketApplied n readback src).ring.silence = s.ring.silence := by
  unfold State.ticketApplied
  split <;> simp

@[simp] theorem State.ticketFault_silence (src : Byte) (s : State) :
    (s.ticketFault src).ring.silence = s.ring.silence := by
  unfold State.ticketFault
  split <;> simp

/-! ### Decisions and scales -/

@[simp] theorem State.updateScale_silence (l : Lane) (f : Option WeightFigures) (s : State) :
    (s.updateScale l f).ring.silence = s.ring.silence := by
  simp [State.updateScale]

@[simp] theorem State.clearScale_silence (l : Lane) (source : Byte) (s : State) :
    (s.clearScale l source).ring.silence = s.ring.silence := by
  simp [State.clearScale]

@[simp] theorem State.conclude_silence (i : Slot) (c : Context) (cause : VerdictCause) (reasons : List Reason)
    (v : Verdict) (weight : Option WeightFigures) (estimate : Option Nat) (height : Option HeightFigures)
    (sighted : Option (List Nat)) (s : State) :
    (s.conclude i c cause reasons v weight estimate height sighted).ring.silence = s.ring.silence := by
  simp [State.conclude]

@[simp] theorem State.decideAtOnce_silence (i : Slot) (c : Context) (s : State) :
    (s.decideAtOnce i c).ring.silence = s.ring.silence := by
  simp [State.decideAtOnce]

@[simp] theorem State.decideByChecks_silence (i : Slot) (x : Inputs) (s : State) :
    (s.decideByChecks i x).ring.silence = s.ring.silence := by
  simp [State.decideByChecks]

@[simp] theorem State.park_silence (i : Slot) (s : State) : (s.park i).ring.silence = s.ring.silence := by
  unfold State.park
  split <;> simp

@[simp] theorem State.wait_silence (i : Slot) (c : Context) (items : List WaitItem) (s : State) :
    (s.wait i c items).ring.silence = s.ring.silence := by
  simp [State.wait]

@[simp] theorem State.attempt_silence (i : Slot) (s : State) : (s.attempt i).ring.silence = s.ring.silence := by
  unfold State.attempt
  split
  · rfl
  · split
    · rfl
    · split
      · simp
      · split <;> simp

@[simp] theorem State.retryWaiting_silence (s : State) : s.retryWaiting.ring.silence = s.ring.silence :=
  State.foldl_silence (fun s i => State.attempt_silence i s) _ s

/-! ### Admission, scan and measurement -/

@[simp] theorem State.bindPlan_ring (p : Plan) (i : Slot) (s : State) : (s.bindPlan p i).ring = s.ring := rfl

@[simp] theorem State.askPlan_silence (i : Slot) (t : Text) (s : State) :
    (s.askPlan i t).ring.silence = s.ring.silence := by
  unfold State.askPlan
  split
  · rfl
  · split <;> simp

@[simp] theorem State.identify_silence (i : Slot) (licence : Option Text) (draining : Bool) (s : State) :
    (s.identify i licence draining).ring.silence = s.ring.silence := by
  unfold State.identify
  split <;> simp

@[simp] theorem State.joinedAsHead_ring (wasEmpty : Bool) (s : State) : (s.joinedAsHead wasEmpty).ring = s.ring := by
  simp [State.joinedAsHead]

@[simp] theorem State.admitPallet_silence (l : Lane) (licence : Option Text) (draining : Bool) (s : State) :
    (s.admitPallet l licence draining).ring.silence = s.ring.silence := by
  unfold State.admitPallet
  split <;> simp

@[simp] theorem State.laneOverflow_silence (l : Lane) (licence : Option Text) (s : State) :
    (s.laneOverflow l licence).ring.silence = s.ring.silence := by
  simp [State.laneOverflow]

@[simp] theorem State.readTag_silence (l : Lane) (licence : Option Text) (s : State) :
    (s.readTag l licence).ring.silence = s.ring.silence := by
  unfold State.readTag
  split <;> simp

@[simp] theorem State.offerPlan_silence (p : Plan) (s : State) : (s.offerPlan p).ring.silence = s.ring.silence := by
  unfold State.offerPlan
  split <;> simp

@[simp] theorem State.endScan_silence (i : Slot) (s : State) : (s.endScan i).ring.silence = s.ring.silence := by
  simp [State.endScan]

@[simp] theorem State.truncateScan_silence (i : Slot) (s : State) :
    (s.truncateScan i).ring.silence = s.ring.silence := by
  simp [State.truncateScan]

@[simp] theorem State.startScan_ring (i : Slot) (s : State) : (s.startScan i).ring = s.ring := rfl

@[simp] theorem State.attachStart_silence (l : Lane) (licence : Option Text) (src : Byte) (s : State) :
    (s.attachStart l licence src).ring.silence = s.ring.silence := by
  simp only [State.attachStart]
  split
  · simp
  · split <;> simp

@[simp] theorem State.tunnelStart_silence (l : Lane) (licence : Option Text) (src : Byte) (s : State) :
    (s.tunnelStart l licence src).ring.silence = s.ring.silence := by
  unfold State.tunnelStart
  split <;> simp

@[simp] theorem State.caseRead_silence (l : Lane) (r : CaseRead) (src : Byte) (s : State) :
    (s.caseRead l r src).ring.silence = s.ring.silence := by
  simp only [State.caseRead]
  split
  · simp
  · split <;> simp

@[simp] theorem State.tunnelEnd_silence (l : Lane) (src : Byte) (s : State) :
    (s.tunnelEnd l src).ring.silence = s.ring.silence := by
  unfold State.tunnelEnd
  split <;> simp

@[simp] theorem State.attach_silence (k : Measurand) (v : Nat) (i : Slot) (s : State) :
    (s.attach k v i).ring.silence = s.ring.silence := by
  simp [State.attach]

@[simp] theorem State.takeMeasurement_silence (l : Lane) (k : Measurand) (v : Nat) (licence : Option Text)
    (s : State) : (s.takeMeasurement l k v licence).1.ring.silence = s.ring.silence := by
  unfold State.takeMeasurement
  split
  · rfl
  · split
    · split
      · split <;> simp
      · split
        · split <;> simp
        · rfl
    · split <;> simp

@[simp] theorem State.takeOptional_silence (l : Lane) (k : Measurand) (v : Option Nat) (licence : Option Text)
    (s : State) :
    (s.takeOptional l k v licence).1.ring.silence = s.ring.silence := by
  unfold State.takeOptional
  split <;> simp

@[simp] theorem State.measure_silence (l : Lane) (weight height : Option Nat) (licence : Option Text) (src : Byte)
    (s : State) :
    (s.measure l weight height licence src).ring.silence = s.ring.silence := by
  simp only [State.measure]
  split
  · simp
  · split <;> simp

/-! ### The owners' answers to requests -/

@[simp] theorem State.refuse_state (x : Status) (s : State) : (s.refuse x).state = s := rfl

@[simp] theorem State.articlePut_ring (f : ArticleFields) (s : State) : (s.articlePut f).state.ring = s.ring := by
  unfold State.articlePut
  split <;> simp

@[simp] theorem State.articleDelete_ring (k : Text) (s : State) : (s.articleDelete k).state.ring = s.ring := by
  simp [State.articleDelete]

@[simp] theorem State.articleClear_ring (s : State) : s.articleClear.state.ring = s.ring := by
  simp [State.articleClear]

@[simp] theorem State.articleGet_state (k : Text) (s : State) : (s.articleGet k).state = s := by
  unfold State.articleGet
  split
  · rfl
  · split <;> simp

@[simp] theorem State.articleNext_state (k : Text) (s : State) : (s.articleNext k).state = s := by
  unfold State.articleNext
  split
  · rfl
  · split <;> simp

@[simp] theorem State.consignmentPut_ring (f : ConsignmentFields) (s : State) :
    (s.consignmentPut f).state.ring = s.ring := by
  unfold State.consignmentPut
  split <;> simp

@[simp] theorem State.consignmentDelete_ring (n : Text) (s : State) :
    (s.consignmentDelete n).state.ring = s.ring := by
  unfold State.consignmentDelete
  split
  · rfl
  · split <;> simp

@[simp] theorem State.consignmentClear_ring (s : State) : s.consignmentClear.state.ring = s.ring := by
  simp [State.consignmentClear]

@[simp] theorem State.consignmentGet_state (n : Text) (s : State) : (s.consignmentGet n).state = s := by
  unfold State.consignmentGet
  split
  · rfl
  · split <;> simp

@[simp] theorem State.consignmentNext_state (n : Text) (s : State) : (s.consignmentNext n).state = s := by
  unfold State.consignmentNext
  split
  · rfl
  · split <;> simp

@[simp] theorem State.storePlan_silence (p : Plan) (s : State) :
    (s.storePlan p).state.ring.silence = s.ring.silence := by
  simp [State.storePlan]

@[simp] theorem State.planPut_silence (f : PlanFields) (s : State) :
    (s.planPut f).state.ring.silence = s.ring.silence := by
  unfold State.planPut
  split
  · rfl
  · split <;> simp

@[simp] theorem State.planDelete_ring (t : Text) (s : State) : (s.planDelete t).state.ring = s.ring := by
  unfold State.planDelete
  split
  · rfl
  · split <;> simp

@[simp] theorem State.planClear_ring (s : State) : s.planClear.state.ring = s.ring := by
  simp [State.planClear]

@[simp] theorem State.showPlan_state (p : Option Plan) (s : State) : (s.showPlan p).state = s := by
  unfold State.showPlan
  split <;> simp

@[simp] theorem State.planGet_state (k : PlanKey) (s : State) : (s.planGet k).state = s := by
  unfold State.planGet
  split <;> simp

@[simp] theorem State.planNext_state (k : Option Nat) (s : State) : (s.planNext k).state = s := by
  unfold State.planNext
  split <;> simp

@[simp] theorem State.setStation_ring (a : Fin 32) (rs : List RoleInst) (s : State) :
    (s.setStation a rs).ring = s.ring := rfl

@[simp] theorem State.giveRole_ring (a : Fin 32) (r : RoleInst) (s : State) :
    (s.giveRole a r).state.ring = s.ring := by
  unfold State.giveRole
  split <;> simp

@[simp] theorem State.stationPut_ring (address role inst : Byte) (s : State) :
    (s.stationPut address role inst).state.ring = s.ring := by
  unfold State.stationPut
  split
  · rfl
  · split
    · rfl
    · split
      · rfl
      · split <;> simp

@[simp] theorem State.stationGet_state (k : StationKey) (s : State) : (s.stationGet k).state = s := by
  unfold State.stationGet
  split
  · simp
  · split
    · rfl
    · split
      · rfl
      · split <;> rfl

@[simp] theorem State.templateBegin_ring (n : Nat) (s : State) : (s.templateBegin n).state.ring = s.ring := by
  unfold State.templateBegin
  split <;> simp

@[simp] theorem State.templateItems_ring (fs : List ItemFields) (s : State) :
    (s.templateItems fs).state.ring = s.ring := by
  unfold State.templateItems
  split
  · rfl
  · split <;> simp

@[simp] theorem State.templateEnd_ring (s : State) : s.templateEnd.state.ring = s.ring := by
  unfold State.templateEnd
  split
  · rfl
  · split <;> simp

@[simp] theorem State.templateGet_state (n start : Nat) (s : State) : (s.templateGet n start).state = s := by
  unfold State.templateGet
  split <;> simp

@[simp] theorem State.labelGet_state (k : ContextKey) (s : State) : (s.labelGet k).state = s := by
  unfold State.labelGet
  split <;> simp

@[simp] theorem State.refuseHold_state (x : Status) (s : State) : (s.refuseHold x).state = s := rfl

@[simp] theorem State.holdAdd_silence (f : HoldFields) (s : State) :
    (s.holdAdd f).state.ring.silence = s.ring.silence := by
  unfold State.holdAdd
  split <;> simp

@[simp] theorem State.holdRelease_ring (article lot : Text) (s : State) :
    (s.holdRelease article lot).state.ring = s.ring := by
  simp [State.holdRelease]

@[simp] theorem State.holdClear_silence (s : State) : s.holdClear.state.ring.silence = s.ring.silence := by
  simp [State.holdClear]

@[simp] theorem State.holdNext_state (k : Option (Text × Text)) (s : State) : (s.holdNext k).state = s := by
  simp only [State.holdNext]
  split
  · split <;> rfl
  · split
    · split <;> rfl
    · rfl

@[simp] theorem State.takeCurrency_silence (g d : Nat) (s : State) :
    (s.takeCurrency g d).state.ring.silence = s.ring.silence := by
  simp [State.takeCurrency]

@[simp] theorem State.laneClear_silence (n : Nat) (s : State) :
    (s.laneClear n).state.ring.silence = s.ring.silence := by
  unfold State.laneClear
  split <;> simp

@[simp] theorem State.contextGet_state (k : ContextKey) (s : State) : (s.contextGet k).state = s := by
  unfold State.contextGet
  split <;> simp

@[simp] theorem State.caseMapGet_state (k : ContextKey) (start : Nat) (s : State) :
    (s.caseMapGet k start).state = s := by
  unfold State.caseMapGet
  split
  · rfl
  · split <;> simp

@[simp] theorem State.retryRequest_silence (s : State) : s.retryRequest.state.ring.silence = s.ring.silence := by
  simp [State.retryRequest]

@[simp] theorem State.scaleClear_silence (n : Nat) (src : Byte) (s : State) :
    (s.scaleClear n src).state.ring.silence = s.ring.silence := by
  unfold State.scaleClear
  split <;> simp

@[simp] theorem State.wrapperConfig_silence (n : Nat) (recipes : List Nat) (warmUp : Nat) (s : State) :
    (s.wrapperConfig n recipes warmUp).state.ring.silence = s.ring.silence := by
  unfold State.wrapperConfig
  split <;> simp

@[simp] theorem State.logGet_state (age : Nat) (s : State) : (s.logGet age).state = s := by
  simp [State.logGet]

@[simp] theorem State.watchPut_ring (f : WatchFields) (s : State) : (s.watchPut f).state.ring = s.ring := by
  unfold State.watchPut
  split
  · split <;> simp
  · simp

@[simp] theorem State.watchGet_state (n : Nat) (part : Byte) (start : Nat) (s : State) :
    (s.watchGet n part start).state = s := by
  unfold State.watchGet
  split <;> simp

@[simp] theorem State.watchAck_silence (n : Nat) (s : State) :
    (s.watchAck n).state.ring.silence = s.ring.silence := by
  unfold State.watchAck
  split <;> simp

@[simp] theorem State.modeAnswer_state (before : State) (x : Status) (closed : Option Nat) (s : State) :
    (s.modeAnswer before x closed).state = s := rfl

@[simp] theorem State.goRequest_silence (s : State) : s.goRequest.state.ring.silence = s.ring.silence := by
  unfold State.goRequest
  split <;> simp

@[simp] theorem State.drainRequest_silence (s : State) : s.drainRequest.state.ring.silence = s.ring.silence := by
  unfold State.drainRequest
  split <;> simp

@[simp] theorem State.haltRequest_silence (s : State) : s.haltRequest.state.ring.silence = s.ring.silence := by
  unfold State.haltRequest
  split <;> simp

@[simp] theorem State.clearRejectRequest_silence (s : State) :
    s.clearRejectRequest.state.ring.silence = s.ring.silence := by
  unfold State.clearRejectRequest
  split <;> simp

@[simp] theorem State.paramSet_ring (ps : List (Nat × Nat)) (s : State) : (s.paramSet ps).state.ring = s.ring := by
  simp [State.paramSet]

@[simp] theorem State.paramGet_state (ns : List Nat) (s : State) : (s.paramGet ns).state = s := by
  simp only [State.paramGet]
  split
  · split <;> simp
  · simp

@[simp] theorem State.statusGet_state (s : State) : s.statusGet.state = s := rfl

/-! ### RESTART and the taking of requests -/

@[simp] theorem State.restartBlocks_silence (s : State) : s.restartBlocks.ring.silence = s.ring.silence := rfl

@[simp] theorem State.orphanWrappers_silence (s : State) : s.orphanWrappers.ring.silence = s.ring.silence := by
  refine State.foldl_silence (fun s w => ?_) _ s
  split <;> simp

@[simp] theorem State.restartRecovery_silence (ticketing : Nat) (s : State) :
    (s.restartRecovery ticketing).ring.silence = s.ring.silence := by
  simp [State.restartRecovery]

@[simp] theorem State.restart_silence (src tag : Byte) (s : State) :
    (s.restart src tag).ring.silence = s.ring.silence := by
  simp [State.restart]

@[simp] theorem State.serve_silence (i : Instr) (s : State) : (s.serve i).state.ring.silence = s.ring.silence := by
  unfold State.serve
  split <;> simp

@[simp] theorem State.answer_silence (i : Instr) (src code tag : Byte) (s : State) :
    (s.answer i src code tag).ring.silence = s.ring.silence := by
  unfold State.answer
  split <;> simp

@[simp] theorem State.refuseRequest_silence (src code tag : Byte) (x : Status) (s : State) :
    (s.refuseRequest src code tag x).ring.silence = s.ring.silence := by
  simp [State.refuseRequest]

@[simp] theorem State.overrun_silence (src code tag : Byte) (s : State) :
    (s.overrun src code tag).ring.silence = s.ring.silence := by
  simp [State.overrun]

@[simp] theorem State.admitRequest_silence (i : Instr) (src code tag : Byte) (s : State) :
    (s.admitRequest i src code tag).ring.silence = s.ring.silence := by
  simp [State.admitRequest]

@[simp] theorem State.takeBytesOf_silence (src code tag : Byte) (fields : List Byte) (s : State) :
    (s.takeBytesOf src code tag fields).ring.silence = s.ring.silence := by
  unfold State.takeBytesOf
  split
  · simp
  · split
    · simp
    · split <;> simp

@[simp] theorem State.endGathering_ring (src : Byte) (s : State) : (s.endGathering src).ring = s.ring := rfl

@[simp] theorem State.putGathering_ring (g : Gathering) (s : State) : (s.putGathering g).ring = s.ring := rfl

@[simp] theorem State.badPart_silence (src code tag : Byte) (s : State) :
    (s.badPart src code tag).ring.silence = s.ring.silence := by
  simp [State.badPart]

@[simp] theorem State.takePart_silence (src code tag : Byte) (part count : Nat) (share : List Byte) (s : State) :
    (s.takePart src code tag part count share).ring.silence = s.ring.silence := by
  unfold State.takePart
  split
  · simp
  · split <;> simp

@[simp] theorem State.badPayload_silence (t : Telegram) (s : State) :
    (s.badPayload t).ring.silence = s.ring.silence := by
  simp [State.badPayload]

@[simp] theorem State.takeMgmt_silence (t : Telegram) (s : State) : (s.takeMgmt t).ring.silence = s.ring.silence := by
  unfold State.takeMgmt
  split <;> simp

/-! ### Station telegrams and Ring In -/

@[simp] theorem State.fitting_silence {α : Type} {use : α → State → State}
    (h : ∀ a s, (use a s).ring.silence = s.ring.silence) (t : Telegram) (r : Reader α) (s : State) :
    (s.fitting t r use).ring.silence = s.ring.silence := by
  unfold State.fitting
  split
  · exact h _ _
  · exact State.badPayload_silence t s

@[simp] theorem State.carEvent_silence (src : Byte) (e : Nat) (s : State) :
    (s.carEvent src e).ring.silence = s.ring.silence := by
  unfold State.carEvent
  split <;> simp

@[simp] theorem State.wrapperEvent_silence (src : Byte) (w : WrapperNo) (e : Nat) (s : State) :
    (s.wrapperEvent src w e).ring.silence = s.ring.silence := by
  unfold State.wrapperEvent
  split <;> simp

@[simp] theorem State.labelEvent_silence (src : Byte) (a : Option LineNo) (e : LabelEvent) (s : State) :
    (s.labelEvent src a e).ring.silence = s.ring.silence := by
  unfold State.labelEvent
  split <;> simp

@[simp] theorem State.routedEvent_silence (src : Byte) (k : LineNo) (l : Option Text) (d : Nat) (s : State) :
    (s.routedEvent src k l d).ring.silence = s.ring.silence := by
  simp [State.routedEvent]

/-- Each kind's owner takes the payload that fits its layout, and no owner restarts the timer. -/
@[simp] theorem State.hand_silence (t : Telegram) (s : State) : (s.hand t).ring.silence = s.ring.silence := by
  unfold State.hand
  split
  case h_7 => simp
  case h_11 => simp
  case h_12 => rfl
  all_goals split <;> simp

@[simp] theorem State.offerScreens_silence (t : Telegram) (s : State) :
    (s.offerScreens t).ring.silence = s.ring.silence := by
  simp only [State.offerScreens]
  split <;> simp

@[simp] theorem State.passOn_silence (t : Telegram) (s : State) : (s.passOn t).ring.silence = s.ring.silence := by
  simp [State.passOn]

@[simp] theorem State.handle_silence (t : Telegram) (s : State) : (s.handle t).ring.silence = s.ring.silence := by
  simp [State.handle]

/-! ### The arrival of a telegram (R150, R155) -/

/-- A valid telegram restarts the timer, the report of the ring's return leaving it as it is. -/
theorem State.heard_silence (s : State) : s.heard.ring.silence = some s.ctl.params.ringSilence := by
  simp [State.heard, State.params]

theorem State.arrive_of_valid {t : Telegram} {s : State} (awake : s.ctl.inReset = false)
    (hl : t.payload.length ≤ 120) : s.arrive t = s.heard.handle t := by
  have fits : ¬ Config.payloadMax < t.payload.length := Nat.not_lt.mpr hl
  simp [State.arrive, awake, fits]

theorem State.arrive_silence {t : Telegram} {s : State} (awake : s.ctl.inReset = false)
    (hl : t.payload.length ≤ 120) : (s.arrive t).ring.silence = some s.ctl.params.ringSilence := by
  rw [State.arrive_of_valid awake hl, State.handle_silence, State.heard_silence]

theorem exec_ringInTelegram (t : Telegram) (s : State) : exec (.ringInTelegram t) s = .next (s.arrive t) := rfl

theorem exec_invalidTelegram_of_none {bytes : List Byte} (h : telegramOf bytes = none) (s : State) :
    exec (.invalidTelegram bytes) s = .next s := by
  change execInvalidTelegram bytes s = .next s
  rw [execInvalidTelegram, h]

theorem exec_invalidTelegram_of_some {bytes : List Byte} {t : Telegram} (h : telegramOf bytes = some t) (s : State) :
    exec (.invalidTelegram bytes) s = exec (.ringInTelegram t) s := by
  change execInvalidTelegram bytes s = execRingInTelegram t s
  rw [execInvalidTelegram, h, execRingInTelegram]

end Sys2Proof.Machine

namespace Sys2Proof.Proofs

open Sys2Proof Sys2Proof.Machine

/-- Settles O5: the check of R150 by its bytes, the drop by the bytes that fail it, and the restart of the timer by the
frame lemmas of every operation that a valid telegram reaches. -/
theorem invalidTelegramsAreDropped : Obligations.InvalidTelegramsAreDropped := by
  unfold Obligations.InvalidTelegramsAreDropped
  refine fun bytes => ⟨telegramOf_isSome_iff bytes, exec_invalidTelegram_of_none, fun t ht s => ⟨?taken, ?restarts⟩⟩
  case taken => exact exec_invalidTelegram_of_some ht s
  case restarts =>
    exact fun awake => ⟨s.arrive t, exec_ringInTelegram t s,
      State.arrive_silence awake (payload_length_of_telegramOf ht)⟩

end Sys2Proof.Proofs
end

section
/-! What every operation of the part keeps. `State.Keeps s t` says of a change from `s` to `t` what the invariants of
Safety.lean need: the tables stay tidy, the numbers and parameters in their ranges, the modes consistent, no context is
admitted, the verdicts only rise, and the queue of commands stays. Every operation of the model is shown to stand in it
once (the theorems `State.Keeps.…`, in the order of the definitions); the invariants are then read off it. -/

namespace Sys2Proof.Machine

open Sys2Proof

/-! ### The parts of the invariants that speak of one block -/

/-- The tables stand in their orders, hold no key twice and no more entries than they may (sections 1.2 to 1.4). -/
structure RefTables.Tidy (r : RefTables) : Prop where
  articles     : r.articles.Pairwise (fun a b => ltText a.key b.key = true)
  consignments : r.consignments.Pairwise (fun a b => ltText a.number b.number = true)
  plans        : r.plans.Pairwise (fun a b => a.slot < b.slot)
  licences     : r.plans.Pairwise (fun a b => a.licence ≠ b.licence)
  planSlots    : ∀ p ∈ r.plans, p.slot < Config.planMax
  articleRoom  : r.articles.length ≤ Config.articleMax
  consignRoom  : r.consignments.length ≤ Config.consignmentMax

/-- The hold list stands in its order and has room (R22). -/
structure HoldRegister.Tidy (h : HoldRegister) : Prop where
  order : h.list.Pairwise (fun a b => ltHoldKey a.key b.key = true)
  room  : h.list.length ≤ Config.holdMax

/-- `State.ModeInv` of the block it speaks of. -/
def ModeControl.Consistent (c : ModeControl) : Prop :=
  (c.mode = .start ∨ c.mode = .stopped ∨ c.mode = .isolated → c.rejectAll = true)
    ∧ (c.held.isSome = true ↔ c.mode = .isolated) ∧ c.held ≠ some .isolated

/-- A context has no verdict while it is WAITING (R46). -/
def Context.Undecided (c : Context) : Prop := c.phase = .waiting → c.verdict = none

/-- A context after a change: the same admission, still no verdict while WAITING, and, where that was so before, a verdict
no better and every reason kept (R92). -/
structure Context.Rises (c d : Context) : Prop where
  adm       : d.adm = c.adm
  undecided : c.Undecided → d.Undecided
  verdict   : c.Undecided → ∀ v, c.verdict = some v →
    ∃ w, d.verdict = some w ∧ v.le w ∧ ∀ r ∈ c.reasons, r ∈ d.reasons

/-- A number that starts at 1 lies in its range. -/
def Within (most n : Nat) : Prop := 1 ≤ n ∧ n ≤ most

/-- What every operation keeps. -/
structure State.Keeps (s t : State) : Prop where
  refs       : s.refs.Tidy → t.refs.Tidy
  holds      : s.holds.Tidy → t.holds.Tidy
  generation : s.holds.generation ≤ 65535 → t.holds.generation ≤ 65535
  slots      : ∀ i d, t.ctx i = some d → ∃ c, s.ctx i = some c ∧ c.Rises d
  admission  : Within Config.max32 s.tracker.nextAdm → Within Config.max32 t.tracker.nextAdm
  serial     : Within 999999 s.composer.nextSerial → Within 999999 t.composer.nextSerial
  release    : Within Config.max32 s.labels.nextRelease → Within Config.max32 t.labels.nextRelease
  reportSeq  : s.mgmt.reportSeq ≤ 65535 → t.mgmt.reportSeq ≤ 65535
  modes      : s.ctl.Consistent → t.ctl.Consistent
  params     : s.ctl.params.InRange → t.ctl.params.InRange
  pending    : t.pending = s.pending

/-! ### The relations are reflexive and transitive -/

theorem Context.Rises.trans {c d e : Context} (a : c.Rises d) (b : d.Rises e) : c.Rises e where
  adm := b.adm.trans a.adm
  undecided := b.undecided ∘ a.undecided
  verdict u v hv := by
    obtain ⟨w, hw, le, keep⟩ := a.verdict u v hv
    obtain ⟨x, hx, le', keep'⟩ := b.verdict (a.undecided u) w hw
    exact ⟨x, hx, Nat.le_trans le le', fun r hr => keep' r (keep r hr)⟩

/-- A change that leaves admission, verdict and reasons, and makes no decided context WAITING. -/
theorem Context.Rises.of_same {c d : Context} (adm : d.adm = c.adm) (verdict : d.verdict = c.verdict)
    (reasons : d.reasons = c.reasons) (phase : d.phase = c.phase ∨ d.phase ≠ .waiting ∨ c.verdict = none) :
    c.Rises d where
  adm := adm
  undecided u w := by
    rcases phase with e | e | e
    · exact verdict.trans (u (e ▸ w))
    · exact absurd w e
    · exact verdict.trans e
  verdict _ v hv := ⟨v, verdict.trans hv, Nat.le_refl _, fun r hr => reasons ▸ hr⟩

theorem Context.Rises.refl (c : Context) : c.Rises c := .of_same rfl rfl rfl (.inl rfl)

theorem State.Keeps.refl (s : State) : s.Keeps s :=
  ⟨id, id, id, fun _ d h => ⟨d, h, .refl d⟩, id, id, id, id, id, id, rfl⟩

theorem State.Keeps.trans {s t u : State} (a : s.Keeps t) (b : t.Keeps u) : s.Keeps u where
  refs := b.refs ∘ a.refs
  holds := b.holds ∘ a.holds
  generation := b.generation ∘ a.generation
  slots i d h := by
    obtain ⟨c, hc, r⟩ := b.slots i d h
    obtain ⟨e, he, q⟩ := a.slots i c hc
    exact ⟨e, he, q.trans r⟩
  admission := b.admission ∘ a.admission
  serial := b.serial ∘ a.serial
  release := b.release ∘ a.release
  reportSeq := b.reportSeq ∘ a.reportSeq
  modes := b.modes ∘ a.modes
  params := b.params ∘ a.params
  pending := b.pending.trans a.pending

theorem State.Keeps.ite {a s t : State} {p : Prop} [Decidable p] (hs : p → a.Keeps s) (ht : ¬ p → a.Keeps t) :
    a.Keeps (if p then s else t) := by
  split
  next h => exact hs h
  next h => exact ht h

/-! ### The update of one block -/

section
variable {a s : State}

theorem State.Keeps.onRefs (h : a.Keeps s) {f : RefTables → RefTables} (k : s.refs.Tidy → (f s.refs).Tidy) :
    a.Keeps (s.onRefs f) := { h with refs := k ∘ h.refs }

theorem State.Keeps.onHolds (h : a.Keeps s) {f : HoldRegister → HoldRegister}
    (tidy : s.holds.Tidy → (f s.holds).Tidy)
    (generation : s.holds.generation ≤ 65535 → (f s.holds).generation ≤ 65535) : a.Keeps (s.onHolds f) :=
  { h with holds := tidy ∘ h.holds, generation := generation ∘ h.generation }

/-- A change of the Hold Register outside its list and its generation. -/
theorem State.Keeps.onHolds_same (h : a.Keeps s) {f : HoldRegister → HoldRegister}
    (list : ∀ x, (f x).list = x.list := by intro; rfl)
    (generation : ∀ x, (f x).generation = x.generation := by intro; rfl) : a.Keeps (s.onHolds f) :=
  h.onHolds (fun t => ⟨by rw [list]; exact t.order, by rw [list]; exact t.room⟩) (by rw [generation]; exact id)

theorem State.Keeps.onTracker (h : a.Keeps s) {f : Tracker → Tracker} (slots : (f s.tracker).slots = s.tracker.slots)
    (admission : Within Config.max32 s.tracker.nextAdm → Within Config.max32 (f s.tracker).nextAdm) :
    a.Keeps (s.onTracker f) :=
  { h with
    slots := fun i d hd => h.slots i d (by rwa [State.ctx, State.onTracker_tracker, slots] at hd)
    admission := admission ∘ h.admission }

theorem State.Keeps.onRecon (h : a.Keeps s) (f : Reconciler → Reconciler) : a.Keeps (s.onRecon f) := { h with }
theorem State.Keeps.onAlloc (h : a.Keeps s) (f : Allocator → Allocator) : a.Keeps (s.onAlloc f) := { h with }
theorem State.Keeps.onRing (h : a.Keeps s) (f : RingPort → RingPort) : a.Keeps (s.onRing f) := { h with }
theorem State.Keeps.onScreen (h : a.Keeps s) (n : ScreenNo) (f : Screen → Screen) : a.Keeps (s.onScreen n f) :=
  { h with }

theorem State.Keeps.onComposer (h : a.Keeps s) {f : Composer → Composer}
    (k : Within 999999 s.composer.nextSerial → Within 999999 (f s.composer).nextSerial) : a.Keeps (s.onComposer f) :=
  { h with serial := k ∘ h.serial }

theorem State.Keeps.onLabels (h : a.Keeps s) {f : Dispatcher → Dispatcher}
    (k : Within Config.max32 s.labels.nextRelease → Within Config.max32 (f s.labels).nextRelease) :
    a.Keeps (s.onLabels f) := { h with release := k ∘ h.release }

theorem State.Keeps.onMgmt (h : a.Keeps s) {f : Responder → Responder}
    (k : s.mgmt.reportSeq ≤ 65535 → (f s.mgmt).reportSeq ≤ 65535) : a.Keeps (s.onMgmt f) :=
  { h with reportSeq := k ∘ h.reportSeq }

theorem State.Keeps.onCtl (h : a.Keeps s) {f : ModeControl → ModeControl}
    (modes : s.ctl.Consistent → (f s.ctl).Consistent) (params : s.ctl.params.InRange → (f s.ctl).params.InRange) :
    a.Keeps (s.onCtl f) := { h with modes := modes ∘ h.modes, params := params ∘ h.params }

/-! ### Contexts, lanes, label lines, wrappers and the car -/

/-- A slot is filled with what a context in it has risen to, or freed. -/
theorem State.Keeps.fill (h : a.Keeps s) {i : Slot} {x : Option Context}
    (k : ∀ d, x = some d → ∃ c, s.ctx i = some c ∧ c.Rises d) : a.Keeps (s.putCtx i x) :=
  h.trans
    { State.Keeps.refl s with
      slots := fun j d hd => by
        rw [State.ctx_putCtx] at hd
        split at hd
        next e => subst e; exact k d hd
        next => exact ⟨d, hd, .refl d⟩ }

theorem State.Keeps.freeCtx (h : a.Keeps s) (i : Slot) : a.Keeps (s.putCtx i none) := h.fill (by simp)

theorem State.Keeps.putCtx (h : a.Keeps s) {i : Slot} {c d : Context} (hc : s.ctx i = some c) (r : c.Rises d) :
    a.Keeps (s.putCtx i (some d)) := h.fill (by rintro _ ⟨rfl⟩; exact ⟨c, hc, r⟩)

theorem State.Keeps.modCtx (h : a.Keeps s) {i : Slot} {f : Context → Context}
    (r : ∀ c, s.ctx i = some c → c.Rises (f c)) : a.Keeps (s.modCtx i f) :=
  h.fill fun d hd => by
    obtain ⟨c, hc, rfl⟩ := Option.map_eq_some_iff.mp hd
    exact ⟨c, hc, r c hc⟩

/-- A change of a context's fields other than its admission, phase, verdict and reasons. -/
theorem State.Keeps.modCtx_same (h : a.Keeps s) {i : Slot} {f : Context → Context}
    (adm : ∀ c, (f c).adm = c.adm := by intro; rfl) (verdict : ∀ c, (f c).verdict = c.verdict := by intro; rfl)
    (reasons : ∀ c, (f c).reasons = c.reasons := by intro; rfl)
    (phase : ∀ c, (f c).phase = c.phase := by intro; rfl) : a.Keeps (s.modCtx i f) :=
  h.modCtx fun c _ => .of_same (adm c) (verdict c) (reasons c) (.inl (phase c))

theorem State.Keeps.enter (h : a.Keeps s) (i : Slot) {p : Phase} (hp : p ≠ .waiting) (timer : Option Nat) :
    a.Keeps (s.enter i p timer) := h.modCtx fun _ _ => .of_same rfl rfl rfl (.inr (.inl hp))

theorem State.Keeps.stopTimer (h : a.Keeps s) (i : Slot) : a.Keeps (s.stopTimer i) := h.modCtx_same

theorem State.Keeps.modLane (h : a.Keeps s) (l : Lane) (f : LaneRecord → LaneRecord) : a.Keeps (s.modLane l f) :=
  h.onTracker rfl id
theorem State.Keeps.modLine (h : a.Keeps s) (k : LineNo) (f : List Slot → List Slot) : a.Keeps (s.modLine k f) :=
  h.onLabels id
theorem State.Keeps.modWrapper (h : a.Keeps s) (w : WrapperNo) (f : Wrapper → Wrapper) :
    a.Keeps (s.modWrapper w f) := h.onAlloc _
theorem State.Keeps.modCar (h : a.Keeps s) (f : Car → Car) : a.Keeps (s.modCar f) := h.onAlloc _
theorem State.Keeps.modHeld (h : a.Keeps s) (k : LineNo) (f : List WrapperNo → List WrapperNo) :
    a.Keeps (s.modHeld k f) := h.onAlloc _
theorem State.Keeps.callArbiter (h : a.Keeps s) : a.Keeps s.callArbiter := h.onAlloc _
theorem State.Keeps.putScale (h : a.Keeps s) (l : Lane) (x : Scale) : a.Keeps (s.putScale l x) := h.onRecon _

theorem State.Keeps.modPlan (h : a.Keeps s) (n : Nat) {f : Plan → Plan} (slot : ∀ p, (f p).slot = p.slot)
    (licence : ∀ p, (f p).licence = p.licence) : a.Keeps (s.modPlan n f) := by
  have hs : ∀ p : Plan, (if p.slot == n then f p else p).slot = p.slot := fun p => by split <;> simp [slot]
  have hl : ∀ p : Plan, (if p.slot == n then f p else p).licence = p.licence := fun p => by split <;> simp [licence]
  refine h.onRefs fun t => { t with plans := ?_, licences := ?_, planSlots := ?_ }
  · simpa only [List.pairwise_map, hs] using t.plans
  · simpa only [List.pairwise_map, hl] using t.licences
  · simpa only [List.forall_mem_map, hs] using t.planSlots

/-! ### Emissions (R156 to R161) -/

theorem Context.segmentPlaced_rises (c : Context) (os : List Order) (o : Order) :
    c.Rises ({ c with orders := os }.segmentPlaced o) := by
  unfold Context.segmentPlaced
  split
  · split <;> exact .of_same rfl rfl rfl (.inl rfl)
  · exact .of_same rfl rfl rfl (.inl rfl)

theorem State.Keeps.takeReport (h : a.Keeps s) (k : Nat) (fs : List (List Byte)) : a.Keeps (s.takeReport k fs).2 := by
  unfold State.takeReport
  split <;> dsimp only
  · exact h.onMgmt fun _ => Nat.le_of_lt_succ (Nat.mod_lt _ (by decide))
  · exact h.onMgmt fun le => le

theorem State.Keeps.take (k : a.Keeps s) (h : Holder) : a.Keeps (s.take h).2 := by
  cases h with
  | context i =>
    simp only [State.take]
    split
    · exact k.modCtx fun c _ => c.segmentPlaced_rises _ _
    · exact k
  | closure id => simp only [State.take]; split <;> dsimp only <;> [exact k.onRing _; exact k]
  | infeed l =>
    simp only [State.take]
    split
    · split <;> dsimp only <;> exact k.modLane _ _
    · exact k
  | car => simp only [State.take]; split <;> dsimp only <;> [exact k.modCar _; exact k]
  | wrapOrder w => simp only [State.take]; split <;> dsimp only <;> [exact k.modWrapper _ _; exact k]
  | wrapOutput w =>
    simp only [State.take]
    split
    · split <;> dsimp only <;> exact k.modWrapper _ _
    · exact k
  | replies => simp only [State.take]; split <;> dsimp only <;> [exact k.onMgmt id; exact k]
  | reports =>
    simp only [State.take]
    split
    · exact State.Keeps.takeReport (k.onMgmt id) _ _
    · exact k
  | escapes =>
    simp only [State.take]
    split
    · have placed := fun es => State.Keeps.takeReport (k.onHolds_same (f := fun h => { h with escapes := es }))
      dsimp only
      split
      · exact (placed _ _ _).onHolds_same
      · exact placed _ _ _
    · exact k

theorem State.Keeps.giveOne (k : a.Keeps s) (h : Holder) : a.Keeps (s.giveOne h) := by
  have taken := k.take h
  unfold State.giveOne
  split <;> rename_i e <;> rw [e] at taken
  · exact taken.onRing _
  · exact taken

theorem State.Keeps.giveMany (k : a.Keeps s) (n : Nat) (h : Holder) : a.Keeps (State.giveMany n h s) := by
  induction n generalizing s with
  | zero => exact k
  | succ n ih => exact .ite (fun _ => ih (k.giveOne h)) fun _ => k

theorem State.Keeps.joinPending (k : a.Keeps s) (h : Holder) : a.Keeps (s.joinPending h) := k.onRing _

theorem State.Keeps.offer (k : a.Keeps s) (h : Holder) : a.Keeps (s.offer h) := by
  have given : a.Keeps (if s.ring.waiting.isEmpty then s.giveMany (s.heldCount h) h else s) :=
    .ite (fun _ => k.giveMany _ _) fun _ => k
  exact .ite (fun _ => k) fun _ => .ite (fun _ => given.joinPending h) fun _ => given

theorem State.Keeps.prune (k : a.Keeps s) (h : Holder) : a.Keeps (s.prune h) := .ite (fun _ => k) fun _ => k.onRing _

theorem State.Keeps.grantRoom (n : Nat) (k : a.Keeps s) : a.Keeps (State.grantRoom n s) := by
  induction n generalizing s with
  | zero => exact k
  | succ n ih =>
    unfold State.grantRoom
    split
    · exact k
    next h rest _ =>
      have given := State.Keeps.giveOne (k.onRing fun r => { r with waiting := rest }) h
      exact .ite (fun _ => ih (.ite (fun _ => given.joinPending h) fun _ => given)) fun _ => k

theorem State.Keeps.chooseNext (k : a.Keeps s) : a.Keeps s.chooseNext := by
  unfold State.chooseNext
  split
  · exact k.onRing _
  · exact k.onRing _
  · exact .grantRoom _ (k.onRing _)
  · exact .ite (fun _ => k.onRing _) fun _ => .grantRoom _ (k.onRing _)

theorem State.Keeps.report (k : a.Keeps s) (r : Report) : a.Keeps (s.report r) :=
  .ite (fun _ => State.Keeps.offer (k.onMgmt id) _) fun _ => k.onMgmt id

theorem State.Keeps.reply (k : a.Keeps s) (r : Reply) : a.Keeps (s.reply r) := State.Keeps.offer (k.onMgmt id) _

theorem State.Keeps.escape (k : a.Keeps s) (e : EscapeReport) : a.Keeps (s.escape e) :=
  .ite (fun _ => State.Keeps.offer k.onHolds_same _) fun _ => k.onHolds_same

theorem State.Keeps.overload (k : a.Keeps s) (c : RingCause) (r : RingReport) : a.Keeps (s.overload c r) :=
  .ite (fun _ => State.Keeps.report (k.onRing _) _) fun _ => k

theorem State.Keeps.stray (k : a.Keeps s) (kind src : Byte) (l : Option Lane) (t : Option Text) (c : StrayCause) :
    a.Keeps (s.stray kind src l t c) := k.report _

theorem State.Keeps.sendOrders (k : a.Keeps s) (i : Slot) (os : List Order) : a.Keeps (s.sendOrders i os) :=
  State.Keeps.offer k.modCtx_same _

theorem State.Keeps.sendInfeed (k : a.Keeps s) (l : Lane) (c : InfeedCmd) : a.Keeps (s.sendInfeed l c) :=
  .ite (fun _ => (k.modLane _ _).prune _) fun _ => (k.modLane _ _).offer _

theorem State.Keeps.sendCarMove (k : a.Keeps s) (m : CarMove) : a.Keeps (s.sendCarMove m) := (k.modCar _).offer _

theorem State.Keeps.sendWrapOrder (k : a.Keeps s) (w : WrapperNo) (o : WrapOrder) : a.Keeps (s.sendWrapOrder w o) :=
  (k.modWrapper _ _).offer _

theorem State.Keeps.dropWrapOrder (k : a.Keeps s) (w : WrapperNo) : a.Keeps (s.dropWrapOrder w) :=
  (k.modWrapper _ _).prune _

theorem State.Keeps.sendOutput (k : a.Keeps s) (w : WrapperNo) (c : OutputCmd) : a.Keeps (s.sendOutput w c) :=
  .ite (fun _ => (k.modWrapper _ _).prune _) fun _ => (k.modWrapper _ _).offer _

theorem State.Keeps.forward (k : a.Keeps s) (t : Telegram) : a.Keeps (s.forward t) :=
  .ite (fun _ => k.onRing _) fun _ => .ite (fun _ => k.onRing _) fun _ => k.overload _ _

/-! ### Infeed (R44) -/

theorem State.Keeps.infeedDecision (k : a.Keeps s) (l : Lane) : a.Keeps (s.infeedDecision l) :=
  .ite (fun _ => k.sendInfeed _ _) fun _ => k

theorem State.Keeps.foldl {α : Type} {f : State → α → State} (step : ∀ {s x}, a.Keeps s → a.Keeps (f s x))
    (k : a.Keeps s) (xs : List α) : a.Keeps (xs.foldl f s) := by
  induction xs generalizing s with
  | nil => exact k
  | cons x xs ih => exact ih (step k)

theorem State.Keeps.infeedAll (k : a.Keeps s) : a.Keeps s.infeedAll := k.foldl (fun k => k.sendInfeed _ _) _

theorem State.Keeps.leaveLane (k : a.Keeps s) (i : Slot) (l : Lane) : a.Keeps (s.leaveLane i l) := k.modLane _ _

end

end Sys2Proof.Machine
end

section
/-! The operations of the blocks, in the order of the model's definitions: each keeps what `State.Keeps` says. -/

namespace Sys2Proof.Machine

open Sys2Proof

/-! ### Facts the cases turn on -/

theorem State.named_eq_some {id : CtxId} {c : Context} {s : State} (h : s.named id = some c) :
    s.ctx id.slot = some c ∧ c.adm = id.adm := by
  obtain ⟨hc, ha⟩ := Option.filter_eq_some_iff.mp h
  exact ⟨hc, by simpa using ha⟩

theorem mem_insertReason {r x : Reason} {rs : List Reason} : x ∈ insertReason r rs ↔ x = r ∨ x ∈ rs := by
  induction rs with
  | nil => simp [insertReason]
  | cons y ys ih =>
    unfold insertReason
    split
    · simp
    · split
      next e => subst e; simp
      next => simp [ih, or_left_comm]

theorem Verdict.le_max (v w : Verdict) : v.le (v.max w) := by
  unfold Verdict.le Verdict.max
  split <;> omega

/-- A context without a verdict takes any change that keeps its admission and leaves it undecided while WAITING. -/
theorem Context.Rises.of_undecided {c d : Context} (adm : d.adm = c.adm) (none : c.Undecided → c.verdict = none)
    (undecided : c.verdict = .none → d.Undecided) : c.Rises d :=
  ⟨adm, fun u => undecided (none u), fun u v hv => by rw [none u] at hv; cases hv⟩

section
variable {a s : State}

/-! ### The composer (R127 to R129) -/

theorem State.Keeps.startComposition (k : a.Keeps s) (r : CompRequest) (c : Context) :
    a.Keeps (s.startComposition r c) := State.Keeps.modCtx_same (k.onComposer fun h => h)

theorem State.Keeps.startQueued (k : a.Keeps s) (rs : List CompRequest) : a.Keeps (s.startQueued rs) := by
  induction rs with
  | nil => exact k.onComposer fun h => h
  | cons r rest ih =>
    unfold State.startQueued
    split
    · exact (k.onComposer fun h => h).startComposition _ _
    · exact ih

theorem State.Keeps.startNext (k : a.Keeps s) : a.Keeps s.startNext := .ite (fun _ => k) fun _ => k.startQueued _

theorem State.Keeps.queueComposition (k : a.Keeps s) (id : CtxId) (l : LabelKind) :
    a.Keeps (s.queueComposition id l) := State.Keeps.modCtx_same (k.onComposer fun h => h)

theorem State.Keeps.requestLabel (k : a.Keeps s) (id : CtxId) (l : LabelKind) : a.Keeps (s.requestLabel id l) := by
  unfold State.requestLabel
  split
  · exact k
  · split
    · exact (k.queueComposition _ _).startNext
    · exact k.onComposer fun h => h
    · exact k.onComposer fun h => h
    · exact .ite (fun _ => (k.queueComposition _ _).startNext) fun _ => k
    · exact k

/-! ### Label jobs (R136 to R138) -/

theorem State.Keeps.startJob (k : a.Keeps s) (dst : RoleInst) (i : Slot) : a.Keeps (s.startJob dst i) := by
  unfold State.startJob
  split
  · exact State.Keeps.sendOrders k.modCtx_same _ _
  · exact k

theorem State.Keeps.startJobs (k : a.Keeps s) (l : LineNo) : a.Keeps (s.startJobs l) := by
  unfold State.startJobs
  split
  · exact k
  next i rest _ =>
    have first : a.Keeps (if (s.ctx i).any Context.startable then s.startJob (.labelApplicator l) i else s) :=
      .ite (fun _ => k.startJob _ _) fun _ => k
    dsimp only
    split
    · exact .ite (fun _ => first.startJob _ _) fun _ => first
    · exact first

theorem State.Keeps.startTicket (k : a.Keeps s) : a.Keeps s.startTicket := by
  unfold State.startTicket
  split
  · exact .ite (fun _ => k.startJob _ _) fun _ => k
  · exact k

theorem State.Keeps.recordReported (k : a.Keeps s) (i : Slot) : a.Keeps (s.recordReported i) := by
  unfold State.recordReported
  split
  · exact k.startJobs _
  · exact .ite (fun _ => k.startTicket) fun _ => k

theorem Context.withdrawn_rises (dst : RoleInst) (keep : Bool) (c : Context) : c.Rises (c.withdrawn dst keep) := by
  unfold Context.withdrawn
  split
  · exact .refl c
  · exact .of_same rfl rfl rfl (.inl rfl)

theorem State.Keeps.withdraw (k : a.Keeps s) (dst : RoleInst) (keep : Bool) (i : Slot) :
    a.Keeps (s.withdraw dst keep i) :=
  .ite (fun _ => ((k.modCtx fun c _ => c.withdrawn_rises dst keep).offer _).prune _) fun _ => k

theorem State.Keeps.raiseInLine (k : a.Keeps s) (i : Slot) : a.Keeps (s.raiseInLine i) := by
  unfold State.raiseInLine
  split
  · exact k
  · split
    · dsimp only
      split
      · exact ((k.withdraw _ _ _).withdraw _ _ _).startJobs _
      · exact (k.withdraw _ _ _).startJobs _
    · exact k

theorem serialAfter_within (n : Nat) : Within 999999 (serialAfter n) := by
  unfold Within serialAfter; split <;> omega

theorem State.Keeps.keepRecord (k : a.Keeps s) (f : Flight) : a.Keeps (s.keepRecord f) :=
  State.Keeps.modCtx_same (k.onComposer fun _ => serialAfter_within _)

theorem State.Keeps.completeComposition (k : a.Keeps s) : a.Keeps s.completeComposition := by
  unfold State.completeComposition
  split
  · exact k
  next f _ =>
    have ended : a.Keeps (s.onComposer fun x => { x with flight := none }) := k.onComposer id
    dsimp only
    split
    · exact ended.startNext
    · split
      · exact ((ended.keepRecord f).recordReported _).startNext
      · exact (ended.queueComposition _ _).startNext

/-! ### Reasons (R73, R92, R93) -/

theorem State.Keeps.tellRaise (k : a.Keeps s) (id : CtxId) (p : Phase) : a.Keeps (s.tellRaise id p) := by
  unfold State.tellRaise
  split
  · exact (k.stopTimer _).requestLabel _ _
  · exact k.requestLabel _ _
  · exact k.requestLabel _ _
  · exact (k.requestLabel _ _).raiseInLine _
  · exact (k.requestLabel _ _).raiseInLine _
  · exact k

/-- A reason added to a decided context raises it (R92). -/
theorem Context.rises_addLater {c : Context} {v : Verdict} (hv : c.verdict = some v) (r : Reason) :
    c.Rises { c with reasons := insertReason r c.reasons, verdict := some (v.max r.severity) } where
  adm := rfl
  undecided u w := by rw [u w] at hv; cases hv
  verdict _ w hw := by
    obtain rfl : v = w := Option.some.inj (hv.symm.trans hw)
    exact ⟨_, rfl, v.le_max _, fun x hx => mem_insertReason.mpr (.inr hx)⟩

theorem State.Keeps.addLater (k : a.Keeps s) {id : CtxId} {c : Context} {v : Verdict} (hc : s.ctx id.slot = some c)
    (hv : c.verdict = some v) (r : Reason) : a.Keeps (s.addLater id c v r) := by
  have raised := (k.putCtx hc (Context.rises_addLater hv r)).report
    (verdictReport id.slot { c with reasons := insertReason r c.reasons, verdict := some (v.max r.severity) }
      (.later v r) (v.max r.severity))
  have called := State.Keeps.ite (p := v.max r.severity ≠ v ∧ c.phase = .atHeadDecided)
    (fun _ => raised.callArbiter) fun _ => raised
  exact .ite (fun _ => called.tellRaise _ _) fun _ => called

theorem State.Keeps.handReason (k : a.Keeps s) (id : CtxId) (r : Reason) : a.Keeps (s.handReason id r) := by
  unfold State.handReason
  split
  · exact k
  next c named =>
    have hc := (State.named_eq_some named).1
    split
    · exact k
    · split
      next none =>
        refine k.modCtx fun d hd => ?_
        obtain rfl : c = d := Option.some.inj (hc.symm.trans hd)
        exact .of_undecided rfl (fun _ => none) fun hv _ => hv
      next v hv => exact k.addLater hc hv r

theorem State.Keeps.handSlot (k : a.Keeps s) (i : Slot) (r : Reason) : a.Keeps (s.handSlot i r) := by
  unfold State.handSlot
  split
  · exact k.handReason _ _
  · exact k

theorem State.Keeps.handAll (k : a.Keeps s) (is : List Slot) (r : Reason) : a.Keeps (s.handAll is r) :=
  k.foldl (fun k => k.handSlot _ _) is

/-! ### The car and the wrappers (chapter 6) -/

theorem State.Keeps.reportCar (k : a.Keeps s) (before : CarState) (cause : Config.UnitCause) :
    a.Keeps (s.reportCar before cause) := .ite (fun _ => k) fun _ => k.report _

theorem State.Keeps.setCar (k : a.Keeps s) (cause : Config.UnitCause) (f : Car → Car) : a.Keeps (s.setCar cause f) :=
  (k.modCar f).reportCar _ _

theorem State.Keeps.setWrapper (k : a.Keeps s) (w : WrapperNo) (cause : Config.UnitCause) (f : Wrapper → Wrapper) :
    a.Keeps (s.setWrapper w cause f) := .ite (fun _ => k.modWrapper w f) fun _ => (k.modWrapper w f).report _

theorem State.Keeps.startMove (k : a.Keeps s) (cause : Config.UnitCause) (x : Candidate) :
    a.Keeps (s.startMove cause x) := ((k.setCar _ _).enter _ (by simp) _).sendCarMove _

theorem State.Keeps.arbitrate (k : a.Keeps s) (cause : Config.UnitCause) : a.Keeps (s.arbitrate cause) := by
  unfold State.arbitrate
  split
  · split
    · exact k.startMove _ _
    · exact k
  · exact k

theorem State.Keeps.settle (k : a.Keeps s) (cause : Config.UnitCause) : a.Keeps (s.settle cause) :=
  .ite (fun _ => State.Keeps.arbitrate (k.onAlloc _) _) fun _ => k

theorem State.Keeps.recover (k : a.Keeps s) (cause : Config.UnitCause) : a.Keeps (s.recover cause) := by
  unfold State.recover
  dsimp only
  split
  · have moving := k.setCar cause fun c =>
      { c with state := .moving, dest := some .spur, recipe := none, recoveryDue := false }
    split
    · exact (moving.sendCarMove _).modCtx_same
    · exact moving.sendCarMove _
  · exact k

theorem State.Keeps.spurFell (k : a.Keeps s) (cause : Config.UnitCause) : a.Keeps (s.spurFell cause) :=
  k.callArbiter.recover _

theorem State.Keeps.setSpur (k : a.Keeps s) (n : Nat) : a.Keeps (s.setSpur n) := by
  have set : a.Keeps (s.onAlloc fun a => { a with spur := min Config.spurMax n }) :=
    k.onAlloc _
  exact .ite (fun _ => set.spurFell _) fun _ => .ite (fun _ => set.callArbiter) fun _ => set

theorem State.Keeps.failMove (k : a.Keeps s) (cause : Config.UnitCause) : a.Keeps (s.failMove cause) := by
  have failed : a.Keeps (s.modCar fun c => { c with state := .fault }) := k.modCar _
  unfold State.failMove
  dsimp only
  split
  · exact ((failed.handReason _ _).stopTimer _).reportCar _ _
  · exact failed.reportCar _ _

theorem State.Keeps.readyCar (k : a.Keeps s) : a.Keeps s.readyCar := by
  unfold State.readyCar
  split
  · exact (k.setCar _ _).callArbiter
  · exact (k.modCar _).recover _

theorem State.Keeps.orderWrap (k : a.Keeps s) (w : WrapperNo) : a.Keeps (s.orderWrap w) := by
  unfold State.orderWrap
  split
  · exact State.Keeps.sendWrapOrder k.modCtx_same _ _
  · exact k

theorem State.Keeps.endWarmUp (k : a.Keeps s) (w : WrapperNo) : a.Keeps (s.endWarmUp w) := by
  unfold State.endWarmUp
  split
  · exact (k.setWrapper _ _ _).callArbiter
  · exact .ite (fun _ => (k.setWrapper _ _ _).orderWrap _) fun _ => k.modWrapper _ _
  · exact k.modWrapper _ _

theorem State.Keeps.warm (k : a.Keeps s) (w : WrapperNo) (cause : Config.UnitCause) (fromFault : Bool)
    (f : Wrapper → Wrapper) : a.Keeps (s.warm w cause fromFault f) := by
  have warming := k.setWrapper w cause fun x => { f x with state := .warming, warmTimer := some x.warmUp }
  unfold State.warm
  dsimp only
  split
  · exact .ite (fun _ => (warming.sendOutput _ _).endWarmUp _) fun _ => warming.sendOutput _ _
  · exact .ite (fun _ => warming.endWarmUp _) fun _ => warming

theorem State.Keeps.giveUp (k : a.Keeps s) (w : WrapperNo) (cause : Config.UnitCause) (fromFault : Bool) :
    a.Keeps (s.giveUp w cause fromFault) := by
  unfold State.giveUp
  split
  · exact (k.setWrapper _ _ _).callArbiter
  · exact k.warm _ _ _ _
  · exact k.setWrapper _ _ _
  · exact k.setWrapper _ _ _

theorem State.Keeps.joinLine (k : a.Keeps s) (w : WrapperNo) (cause : Config.UnitCause) (fromFault : Bool) :
    a.Keeps (s.joinLine w cause fromFault) := by
  unfold State.joinLine
  split
  · exact (((k.modLine _ _).enter _ (by simp) _).startJobs _).giveUp _ _ _
  · exact k

theorem State.Keeps.finishWrap (k : a.Keeps s) (w : WrapperNo) (cause : Config.UnitCause) (fromFault : Bool) :
    a.Keeps (s.finishWrap w cause fromFault) :=
  .ite (fun _ => k.joinLine _ _ _) fun _ => ((k.setWrapper _ _ _).modHeld _ _).sendOutput _ _

theorem State.Keeps.releaseHeld (k : a.Keeps s) (n : Nat) (l : LineNo) (cause : Config.UnitCause) :
    a.Keeps (State.releaseHeld n l cause s) := by
  induction n generalizing s with
  | zero => exact k
  | succ n ih =>
    unfold State.releaseHeld
    split
    · exact k
    · exact .ite (fun _ => ih (((k.modHeld _ _).sendOutput _ _).joinLine _ _ _)) fun _ => k

theorem State.Keeps.lineRoom (k : a.Keeps s) (l : LineNo) (cause : Config.UnitCause) : a.Keeps (s.lineRoom l cause) :=
  k.releaseHeld _ _ _

theorem State.Keeps.firstStart (k : a.Keeps s) (id : CtxId) : a.Keeps (s.firstStart id) := by
  unfold State.firstStart
  split
  · exact k
  · have marked := k.modCtx_same (i := id.slot) (f := fun c => { c with wrapStarted := true })
    exact .ite (fun _ => k) fun _ => .ite (fun _ => marked.requestLabel _ _) fun _ => marked

theorem State.Keeps.startWrap (k : a.Keeps s) (w : WrapperNo) : a.Keeps (s.startWrap w) := by
  unfold State.startWrap
  dsimp only
  split
  · exact (k.setWrapper _ _ _).firstStart _
  · exact k.setWrapper _ _ _

theorem State.Keeps.endWrap (k : a.Keeps s) (w : WrapperNo) : a.Keeps (s.endWrap w) := by
  unfold State.endWrap
  split
  next id _ =>
    have started : a.Keeps (if (s.wrapper w).state = .loaded then s.firstStart id else s) :=
      .ite (fun _ => k.firstStart _) fun _ => k
    exact ((started.stopTimer _).modWrapper _ _).finishWrap _ _ _
  next => exact k

theorem State.Keeps.failWrap (k : a.Keeps s) (w : WrapperNo) (cause : Config.UnitCause) (r : Reason) :
    a.Keeps (s.failWrap w cause r) := by
  have running : a.Keeps (match (s.wrapper w).pallet with
      | .context id => (s.handReason id r).stopTimer id.slot
      | _ => s) := by
    split
    · exact (k.handReason _ _).stopTimer _
    · exact k
  unfold State.failWrap
  split
  · exact running.setWrapper _ _ _
  · exact running.setWrapper _ _ _
  · exact k.setWrapper _ _ _
  · exact k.setWrapper _ _ _
  · exact k.setWrapper _ _ _
  · exact k.modWrapper _ _
  · exact k

theorem State.Keeps.endFault (k : a.Keeps s) (w : WrapperNo) : a.Keeps (s.endFault w) := by
  unfold State.endFault
  split
  · exact (k.modWrapper _ _).finishWrap _ _ _
  · exact k.warm _ _ _ _
  · exact k.warm _ _ _ _

theorem State.Keeps.readyWrapper (k : a.Keeps s) (w : WrapperNo) : a.Keeps (s.readyWrapper w) := by
  unfold State.readyWrapper
  dsimp only
  split
  · exact .ite (fun _ => k.endFault _) fun _ => k.warm _ _ _ _
  · exact k.endFault _
  · exact .ite (fun _ => k.modWrapper _ _) fun _ => k
  all_goals exact k

theorem State.Keeps.standbyWrapper (k : a.Keeps s) (w : WrapperNo) : a.Keeps (s.standbyWrapper w) := by
  have stopped : a.Keeps (match (s.wrapper w).pallet with
      | .context id => s.stopTimer id.slot
      | _ => s) := by
    split
    · exact k.stopTimer _
    · exact k
  unfold State.standbyWrapper
  split
  · exact k.setWrapper _ _ _
  · exact k.setWrapper _ _ _
  · exact k.setWrapper _ _ _
  · exact (stopped.setWrapper _ _ _).dropWrapOrder _
  · exact (stopped.setWrapper _ _ _).dropWrapOrder _
  · exact k.modWrapper _ _
  · exact k

theorem State.Keeps.orphanWrapper (k : a.Keeps s) (w : WrapperNo) (cause : Config.UnitCause) :
    a.Keeps (s.orphanWrapper w cause) := ((k.modHeld _ _).dropWrapOrder _).setWrapper _ _ _

theorem State.Keeps.orphan (k : a.Keeps s) (id : CtxId) (cause : Config.UnitCause) : a.Keeps (s.orphan id cause) :=
  State.Keeps.foldl (fun k => .ite (fun _ => k.orphanWrapper _ _) fun _ => k)
    (.ite (fun _ => k.modCar _) fun _ => k) _

theorem State.Keeps.deliver (k : a.Keeps s) (id : CtxId) (w : WrapperNo) (recipe : Option Nat) :
    a.Keeps (s.deliver id w recipe) := by
  have there : a.Keeps (s.modCtx id.slot fun c => { c with wrapper := some w }) := k.modCtx_same
  unfold State.deliver
  dsimp only
  split
  · exact ((there.setWrapper _ _ _).enter _ (by simp) _).orderWrap _
  all_goals exact (there.modWrapper _ _).enter _ (by simp) _

theorem State.Keeps.toSpur (k : a.Keeps s) (id : CtxId) : a.Keeps (s.toSpur id) :=
  State.Keeps.startTicket ((k.enter _ (by simp) _).onLabels fun h => h)

theorem State.Keeps.carIdle (k : a.Keeps s) : a.Keeps s.carIdle := (k.setCar _ _).callArbiter

theorem State.Keeps.endMove (k : a.Keeps s) : a.Keeps s.endMove := by
  unfold State.endMove
  dsimp only
  split
  · split
    · exact k.carIdle.settle _
    · split
      · exact (((k.leaveLane _ _).deliver _ _ _).carIdle.settle _).infeedDecision _
      · exact (((k.leaveLane _ _).toSpur _).carIdle.settle _).infeedDecision _
  · split
    · exact (k.orphanWrapper _ _).carIdle.settle _
    · exact k.carIdle.settle _

/-! ### Modes (R173 to R180) -/

theorem State.Keeps.modeReport (k : a.Keeps s) (cause : ModeCause) (before : LineMode) :
    a.Keeps (s.modeReport cause before) := k.report _

/-- Outside ISOLATED no mode is held, and another mode may be set with the level it needs. -/
theorem State.Keeps.setMode (k : a.Keeps s) {m : LineMode} {reject : Bool} (out : s.ctl.mode ≠ .isolated)
    (into : m ≠ .isolated) (level : m = .start ∨ m = .stopped → reject = true) : a.Keeps (s.setMode m reject) :=
  k.onCtl (fun ⟨_, held, kept⟩ => ⟨fun h => level (h.imp_right (Or.resolve_right · into)),
    ⟨fun h => absurd (held.mp h) out, fun h => absurd h into⟩, kept⟩) id

theorem State.Keeps.enterStopped (k : a.Keeps s) (cause : ModeCause) (h : s.ctl.mode ≠ .isolated) :
    a.Keeps (s.enterStopped cause) := ((k.setMode h (by simp) fun _ => rfl).infeedAll).modeReport _ _

theorem State.Keeps.enterRun (k : a.Keeps s) (h : s.ctl.mode ≠ .isolated) : a.Keeps s.enterRun := by
  have run : s.runMode = .run ∨ s.runMode = .degraded := by unfold State.runMode; split <;> simp
  exact ((k.setMode h (by rcases run with e | e <;> simp [e]) (by rcases run with e | e <;> simp [e])).infeedAll
    ).modeReport _ _

theorem State.Keeps.enterDrain (k : a.Keeps s) (h : s.ctl.mode ≠ .isolated) : a.Keeps s.enterDrain :=
  ((k.setMode h (by simp) (by simp)).infeedAll).modeReport _ _

theorem State.Keeps.clearReject (k : a.Keeps s) (h : s.ctl.mode ≠ .start ∧ s.ctl.mode ≠ .stopped ∧ s.ctl.mode ≠ .isolated) :
    a.Keeps s.clearReject := by
  have cleared : a.Keeps (s.onCtl fun c => { c with rejectAll := false }) :=
    k.onCtl (fun ⟨_, held⟩ => ⟨fun m => absurd m (by simp [h]), held⟩) id
  exact cleared.modeReport _ _

theorem State.Keeps.drained (k : a.Keeps s) : a.Keeps s.drained := by
  unfold State.drained
  split
  next e => exact k.enterStopped _ (by simp [e])
  next em eh =>
    refine State.Keeps.modeReport (k.onCtl (fun ⟨level, held, kept⟩ => ⟨level, ?_, by simp⟩) id) _ _
    simp [em]
  next => exact k

theorem followCurrency_eq_isolated {c : Currency} {m : LineMode} : followCurrency c m = .isolated ↔ m = .isolated := by
  cases m <;> simp [followCurrency] <;> split <;> simp

theorem followCurrency_stands {c : Currency} {m : LineMode}
    (h : followCurrency c m = .start ∨ followCurrency c m = .stopped ∨ followCurrency c m = .isolated) :
    m = .start ∨ m = .stopped ∨ m = .isolated := by
  revert h
  cases m <;> simp [followCurrency] <;> split <;> simp

theorem State.Keeps.setCurrency (k : a.Keeps s) (x : Currency) : a.Keeps (s.setCurrency x) := by
  refine .ite (fun _ => k) fun _ => State.Keeps.modeReport ?_ _ _
  refine State.Keeps.onCtl k.onHolds_same (fun ⟨level, held, kept⟩ => ⟨fun h => level (followCurrency_stands h), ?_, ?_⟩) id
  · simpa [followCurrency_eq_isolated] using held
  · simpa [followCurrency_eq_isolated] using kept

theorem State.Keeps.ringReturned (k : a.Keeps s) : a.Keeps s.ringReturned := by
  unfold State.ringReturned
  split
  next m em eh =>
    refine State.Keeps.modeReport (k.onCtl (fun ⟨level, held, kept⟩ => ⟨fun _ => level (by simp [em]), ?_, by simp⟩) id) _ _
    rw [eh] at kept
    simpa using fun e => kept (by rw [e])
  next => exact k

/-! ### Closures (R51) -/

theorem State.Keeps.closeLane (k : a.Keeps s) (i : Slot) (c : Context) : a.Keeps (s.closeLane i c) := by
  have stopped := k.stopTimer i
  have left := (stopped.leaveLane i c.lane).infeedDecision c.lane
  exact .ite (fun _ => .ite (fun _ => left.callArbiter) fun _ => left) fun _ => stopped

theorem planAfter_slot (o : Closure) (p : Plan) : (planAfter o p).slot = p.slot := by cases o <;> rfl
theorem planAfter_licence (o : Closure) (p : Plan) : (planAfter o p).licence = p.licence := by cases o <;> rfl

theorem State.Keeps.closePlan (k : a.Keeps s) (c : Context) (o : Closure) : a.Keeps (s.closePlan c o) := by
  unfold State.closePlan
  split
  · exact k.modPlan _ (planAfter_slot o) (planAfter_licence o)
  · exact k

theorem State.Keeps.closeComposer (k : a.Keeps s) (id : CtxId) : a.Keeps (s.closeComposer id) := k.onComposer fun h => h
theorem State.Keeps.closeQueues (k : a.Keeps s) (i : Slot) : a.Keeps (s.closeQueues i) := k.onLabels fun h => h
theorem State.Keeps.closeHolder (k : a.Keeps s) (id : CtxId) (os : List Order) : a.Keeps (s.closeHolder id os) := by
  unfold State.closeHolder
  exact k.onRing _

theorem State.Keeps.leftLine (k : a.Keeps s) (l : LineNo) (cause : Config.UnitCause) : a.Keeps (s.leftLine l cause) :=
  (k.lineRoom _ _).startJobs _

theorem State.Keeps.leftTickets (k : a.Keeps s) (cause : Config.UnitCause) : a.Keeps (s.leftTickets cause) :=
  k.startTicket.spurFell _

theorem State.Keeps.closeContext (k : a.Keeps s) (o : Closure) (cause : Config.UnitCause) (i : Slot) :
    a.Keeps (s.closeContext o cause i) := by
  unfold State.closeContext
  split
  · exact k
  next c _ =>
    dsimp only
    have reported := ((((k.withdraw (s.applicatorOf i) true i).closeLane i c).closePlan c o).report
      (closedReport i c o)).closeComposer ⟨i, c.adm⟩
    have freed := fun os => ((((reported.closeQueues i).closeHolder ⟨i, c.adm⟩ os).freeCtx i).orphan ⟨i, c.adm⟩
      (orphanCause o))
    refine State.Keeps.settle (State.Keeps.ite (fun _ => State.Keeps.drained ?_) fun _ => ?_) _ <;>
    · split
      · exact (freed _).leftLine _ _
      · exact .ite (fun _ => (freed _).leftTickets _) fun _ => freed _

theorem State.Keeps.closeAll (k : a.Keeps s) (o : Closure) (cause : Config.UnitCause) (is : List Slot) :
    a.Keeps (s.closeAll o cause is) := k.foldl (fun k => k.closeContext _ _ _) is

end

end Sys2Proof.Machine
end

section
/-! The log, the exits, the decisions and the tracking of pallets: each operation keeps what `State.Keeps` says, and an
admission, which opens a context, does so from the state with the context in its slot on. -/

namespace Sys2Proof.Machine

open Sys2Proof

section
variable {a s : State}

/-! ### Late holds, escapes and the released log -/

theorem State.Keeps.lateHolds (k : a.Keeps s) (h : Hold) : a.Keeps (s.lateHolds h).2 := k.handAll _ _

theorem State.Keeps.escapeSearch (k : a.Keeps s) (h : Hold) (es : List LogEntry) :
    a.Keeps (State.escapeSearch h es s).2 := by
  induction es generalizing s with
  | nil => exact k
  | cons e rest ih =>
    unfold State.escapeSearch
    split
    · exact ih (k.escape _)
    · exact ih k

theorem State.Keeps.escapeOfEntry (k : a.Keeps s) (e : LogEntry) : a.Keeps (s.escapeOfEntry e) := by
  unfold State.escapeOfEntry
  split
  · exact k.escape _
  · exact k

theorem sequenceAfter_within (n : Nat) : Within Config.max32 (sequenceAfter n) := by
  unfold Within sequenceAfter; split <;> simp_all [Config.max32]

theorem State.Keeps.writeEntry (k : a.Keeps s) (e : LogEntry) : a.Keeps (s.writeEntry e) :=
  k.onLabels fun _ => sequenceAfter_within _

/-! ### The applicators and the exits (R137 to R146) -/

theorem State.Keeps.jobTaken (k : a.Keeps s) (i : Slot) : a.Keeps (s.jobTaken i) := k.modCtx_same

theorem State.Keeps.lineJobTaken (k : a.Keeps s) (l : LineNo) (n : Nat) (src : Byte) :
    a.Keeps (s.lineJobTaken l n src) := by
  unfold State.lineJobTaken
  split
  · exact k.jobTaken _
  · exact k.stray _ _ _ _ _

theorem State.Keeps.palletAtLabel (k : a.Keeps s) (l : LineNo) (src : Byte) : a.Keeps (s.palletAtLabel l src) := by
  unfold State.palletAtLabel
  split
  · exact k.stray _ _ _ _ _
  · split
    · exact k.enter _ (by simp) _
    · exact k.stray _ _ _ _ _

theorem State.Keeps.formRoute (k : a.Keeps s) (l : LineNo) (i : Slot) (late : Bool) : a.Keeps (s.formRoute l i late) := by
  unfold State.formRoute
  split
  · exact k
  · exact ((State.Keeps.enter k.modCtx_same _ (by simp) _).sendOrders _ _).startJobs _

theorem State.Keeps.endJob (k : a.Keeps s) (i : Slot) : a.Keeps (s.endJob i) := k.modCtx_same

theorem State.Keeps.swapped (k : a.Keeps s) (l : LineNo) (i j : Slot) : a.Keeps (s.swapped l i j) :=
  ((((k.endJob _).handSlot _ _).handSlot _ _).withdraw _ _ _).formRoute _ _ _

theorem State.Keeps.applied (k : a.Keeps s) (l : LineNo) (n : Nat) (readback : Option Text) (src : Byte) :
    a.Keeps (s.applied l n readback src) := by
  unfold State.applied
  split
  · exact k.stray _ _ _ _ _
  · split
    · exact k
    · split
      · exact .ite (fun _ => (k.endJob _).formRoute _ _ _) fun _ => .ite (fun _ => (k.endJob _).formRoute _ _ _)
          fun _ => ((k.endJob _).handSlot _ _).formRoute _ _ _
      · split
        · exact (State.Keeps.withdraw k.modCtx_same _ _ _).formRoute _ _ _
        · split
          · exact k.swapped _ _ _
          · exact k.stray _ _ _ _ _

theorem State.Keeps.failLabel (k : a.Keeps s) (l : LineNo) (i : Slot) (r : Reason) : a.Keeps (s.failLabel l i r) :=
  ((k.handSlot _ _).withdraw _ _ _).formRoute _ _ _

theorem State.Keeps.applyFault (k : a.Keeps s) (l : LineNo) (src : Byte) : a.Keeps (s.applyFault l src) := by
  unfold State.applyFault
  split
  · exact k.failLabel _ _ _
  · exact k.stray _ _ _ _ _

theorem State.Keeps.addRelease (k : a.Keeps s) (c : Context) : a.Keeps (s.addRelease c) := by
  unfold State.addRelease
  split
  · exact k
  next p _ =>
    refine State.Keeps.modPlan (k.onRefs fun t => ?_) _ (planAfter_slot _) (planAfter_licence _)
    have number : ∀ x : Consignment, (if x.number = p.consignment then
        { x with totals := s.totalsAfter p (c.weight.getD 0) x.totals } else x).number = x.number := fun x => by
      split <;> rfl
    refine { t with consignments := ?_, consignRoom := by simpa using t.consignRoom }
    simpa only [List.pairwise_map, number] using t.consignments

theorem State.Keeps.releaseAt (k : a.Keeps s) (i : Slot) (c : Context) (bay : Nat) : a.Keeps (s.release i c bay) :=
  (((k.writeEntry _).addRelease _).escapeOfEntry _).closeContext _ _ _

theorem State.Keeps.routed (k : a.Keeps s) (l : LineNo) (licence : Option Text) (bay : Option Nat) (src : Byte) :
    a.Keeps (s.routed l licence bay src) := by
  unfold State.routed
  dsimp only
  split
  · exact k.stray _ _ _ _ _
  · split
    · exact k
    · split
      · exact k.releaseAt _ _ _
      · exact State.Keeps.closeContext k.modCtx_same _ _ _
      · exact k.closeContext _ _ _

theorem State.Keeps.exitExpired (k : a.Keeps s) (i : Slot) : a.Keeps (s.exitExpired i) := by
  have marked : a.Keeps (s.modCtx i fun c => { c with unconfirmed := true }) := k.modCtx_same
  unfold State.exitExpired
  split
  · exact k
  · dsimp only
    split
    · exact ((marked.writeEntry _).escapeOfEntry _).closeContext _ _ _
    · exact marked.closeContext _ _ _

theorem State.Keeps.ticketTaken (k : a.Keeps s) (n : Nat) (src : Byte) : a.Keeps (s.ticketTaken n src) := by
  unfold State.ticketTaken
  split
  · exact k.jobTaken _
  · exact k.stray _ _ _ _ _

theorem State.Keeps.ticketApplied (k : a.Keeps s) (n : Nat) (readback : Option Text) (src : Byte) :
    a.Keeps (s.ticketApplied n readback src) := by
  unfold State.ticketApplied
  split
  · exact (k.endJob _).closeContext _ _ _
  · exact k.stray _ _ _ _ _

theorem State.Keeps.ticketFault (k : a.Keeps s) (src : Byte) : a.Keeps (s.ticketFault src) := by
  unfold State.ticketFault
  split
  · exact (k.handSlot _ _).closeContext _ _ _
  · exact k.stray _ _ _ _ _

/-! ### Decisions (R75 to R95) -/

theorem State.updateScale_ctx (l : Lane) (f : Option WeightFigures) (s : State) (i : Slot) :
    (s.updateScale l f).ctx i = s.ctx i := by
  unfold State.updateScale
  dsimp only
  split <;> simp [State.ctx]

theorem State.Keeps.updateScale (k : a.Keeps s) (l : Lane) (f : Option WeightFigures) : a.Keeps (s.updateScale l f) :=
  .ite (fun _ => (k.putScale _ _).report _) fun _ => k.putScale _ _

theorem State.Keeps.clearScale (k : a.Keeps s) (l : Lane) (src : Byte) : a.Keeps (s.clearScale l src) :=
  .ite (fun _ => (k.putScale _ _).report _) fun _ => k.putScale _ _

/-- A decision of a context that has no verdict. -/
theorem State.Keeps.conclude (k : a.Keeps s) {i : Slot} {c : Context} (hc : s.ctx i = some c)
    (none : c.Undecided → c.verdict = none) (cause : VerdictCause) (rs : List Reason) (v : Verdict)
    (w : Option WeightFigures) (e : Option Nat) (h : Option HeightFigures) (sighted : Option (List Nat)) :
    a.Keeps (s.conclude i c cause rs v w e h sighted) := by
  have scaled := k.updateScale c.lane w
  have still : (s.updateScale c.lane w).ctx i = some c := (State.updateScale_ctx ..).trans hc
  have decided : ∀ d : Context, d.adm = c.adm → d.phase = .atHeadDecided →
      a.Keeps ((((s.updateScale c.lane w).putCtx i (some d)).report (verdictReport i d cause v)).callArbiter) :=
    fun d adm phase => ((scaled.putCtx still (.of_undecided adm none fun _ e => by simp [phase] at e)).report _).callArbiter
  refine .ite (fun _ => decided _ rfl rfl) fun _ => State.Keeps.requestLabel ?_ _ _
  exact decided _ rfl rfl

theorem State.Keeps.decideAtOnce (k : a.Keeps s) {i : Slot} {c : Context} (hc : s.ctx i = some c)
    (none : c.verdict = none) : a.Keeps (s.decideAtOnce i c) := k.conclude hc (fun _ => none) _ _ _ _ _ _ _

theorem State.Keeps.decideByChecks (k : a.Keeps s) {i : Slot} {x : Inputs} (hc : s.ctx i = some x.ctx)
    (none : x.ctx.verdict = none) : a.Keeps (s.decideByChecks i x) := k.conclude hc (fun _ => none) _ _ _ _ _ _ _

theorem State.Keeps.park (k : a.Keeps s) {i : Slot} (none : ∀ c, s.ctx i = some c → c.Undecided → c.verdict = none) :
    a.Keeps (s.park i) := by
  unfold State.park
  split
  · exact k
  next c hc => exact k.conclude hc (none c hc) _ _ _ _ _ _ _

theorem State.Keeps.wait (k : a.Keeps s) {i : Slot} {c : Context} (hc : s.ctx i = some c) (none : c.verdict = none)
    (items : List WaitItem) : a.Keeps (s.wait i c items) := by
  refine .ite (fun _ => k.putCtx hc (.of_same rfl rfl rfl (.inl rfl))) fun _ => ?_
  have waiting := fun t => k.putCtx hc (d := { c with waiting := items, phase := .waiting, timer := some t })
    (.of_same rfl rfl rfl (.inr (.inr none)))
  refine .ite (fun _ => (waiting _).park fun d hd _ => ?_) fun _ => waiting _
  rw [State.ctx_putCtx_self] at hd
  cases hd
  exact none

theorem State.inputs_ctx {c : Context} {x : Inputs} (h : s.inputs c = some x) : x.ctx = c := by
  unfold State.inputs at h
  split at h
  · obtain ⟨r, -, rfl⟩ := Option.map_eq_some_iff.mp h
    rfl
  · cases h

theorem State.Keeps.attempt (k : a.Keeps s) (i : Slot) : a.Keeps (s.attempt i) := by
  unfold State.attempt
  split
  · exact k
  next c hc =>
    split
    · exact k
    next undecided =>
      have none : c.verdict = none := by simpa using undecided
      split
      · exact k.decideAtOnce hc none
      · split
        next x _ hx =>
          have e := State.inputs_ctx hx
          exact k.decideByChecks (by rw [e]; exact hc) (by rw [e]; exact none)
        next => exact k.wait hc none _

theorem State.Keeps.retryWaiting (k : a.Keeps s) : a.Keeps s.retryWaiting := k.foldl (fun k => k.attempt _) _

/-! ### Tracking (R39 to R50) -/

theorem State.Keeps.bindPlan (k : a.Keeps s) (p : Plan) (i : Slot) : a.Keeps (s.bindPlan p i) :=
  State.Keeps.modCtx_same (k.modPlan p.slot (f := fun p => { p with state := .inUse, bound := some i }) (fun _ => rfl)
    fun _ => rfl)

theorem State.Keeps.askPlan (k : a.Keeps s) (i : Slot) (t : Text) : a.Keeps (s.askPlan i t) := by
  unfold State.askPlan
  split
  · exact k
  · split
    · exact k.bindPlan _ _
    · exact k.handSlot _ _
    · exact k

theorem State.Keeps.identify (k : a.Keeps s) (i : Slot) (licence : Option Text) (draining : Bool) :
    a.Keeps (s.identify i licence draining) := by
  unfold State.identify
  split
  · exact k.handSlot _ _
  · exact .ite (fun _ => (k.handSlot _ _).handAll _ _) fun _ => .ite (fun _ => k) fun _ => k.askPlan _ _

theorem State.Keeps.joinedAsHead (k : a.Keeps s) (b : Bool) : a.Keeps (s.joinedAsHead b) :=
  .ite (fun _ => k.callArbiter) fun _ => k

theorem admissionAfter_within (n : Nat) : Within Config.max32 (admissionAfter n) := by
  unfold Within admissionAfter; split <;> simp_all [Config.max32]

/-- A state with a context just admitted to a free slot (R39). -/
def State.Admits (s t : State) : Prop :=
  ∃ (i : Slot) (n : Nat) (licence : Option Text) (l : Lane),
    s.ctx i = none ∧ t = s.putCtx i (some (Context.atAdmission n licence l))

theorem State.freeSlot_free {i : Slot} (h : s.freeSlot = some i) : s.ctx i = none := by
  simpa using List.find?_some h

/-- An admission does nothing, or opens a context and keeps what follows from there. -/
theorem State.admitPallet_keeps (l : Lane) (licence : Option Text) (draining : Bool) (s : State) :
    s.admitPallet l licence draining = s ∨ ∃ u, s.Admits u ∧ u.Keeps (s.admitPallet l licence draining) := by
  unfold State.admitPallet
  split
  · exact .inl rfl
  next i free =>
    refine .inr ⟨_, ⟨i, s.tracker.nextAdm, licence, l, State.freeSlot_free free, rfl⟩, ?_⟩
    have counted := (State.Keeps.refl (s.putCtx i (some (Context.atAdmission s.tracker.nextAdm licence l)))).onTracker
      (f := fun t => { t with nextAdm := admissionAfter s.tracker.nextAdm }) rfl fun _ => admissionAfter_within _
    have joined := fun b => ((counted.modLane l fun r => { r with queue := r.queue ++ [i] }).infeedDecision
      l).joinedAsHead b
    exact State.Keeps.identify (.ite (fun _ => (joined _).handSlot _ _) fun _ => joined _) _ _ _

theorem State.Keeps.laneOverflow (k : a.Keeps s) (l : Lane) (licence : Option Text) :
    a.Keeps (s.laneOverflow l licence) := (k.report _).handAll _ _

/-- A TAG_READ keeps, or opens a context and keeps what follows from there (R41). -/
theorem State.readTag_keeps (l : Lane) (licence : Option Text) (s : State) :
    s.Keeps (s.readTag l licence) ∨ ∃ u, s.Admits u ∧ u.Keeps (s.readTag l licence) := by
  have admitted : ∀ draining, s.Keeps (s.admitPallet l licence draining)
      ∨ ∃ u, s.Admits u ∧ u.Keeps (s.admitPallet l licence draining) := fun draining =>
    (s.admitPallet_keeps l licence draining).imp_left fun e => by rw [e]; exact .refl s
  have overflow := (State.Keeps.refl s).laneOverflow l licence
  have unexpected := (State.Keeps.refl s).report (.lane (.unexpectedPallet l licence))
  unfold State.readTag
  split <;> first | exact .inl unexpected | (split <;> [exact admitted _; exact .inl overflow])

theorem State.Keeps.offerPlan (k : a.Keeps s) (p : Plan) : a.Keeps (s.offerPlan p) := by
  unfold State.offerPlan
  split
  · exact k
  · exact .ite (fun _ => (k.bindPlan _ _).attempt _) fun _ => k.bindPlan _ _

theorem State.Keeps.endScan (k : a.Keeps s) (i : Slot) : a.Keeps (s.endScan i) := by
  have ended : a.Keeps (s.modCtx i fun c => { c with tunnelEnded := true, timer := none }) := k.modCtx_same
  exact .ite (fun _ => ended.enter _ (by simp) _) fun _ => ended.attempt _

theorem State.Keeps.truncateScan (k : a.Keeps s) (i : Slot) : a.Keeps (s.truncateScan i) := (k.handSlot _ _).endScan _

theorem State.Keeps.startScan (k : a.Keeps s) (i : Slot) : a.Keeps (s.startScan i) :=
  k.modCtx fun _ _ => .of_same rfl rfl rfl (.inr (.inl (by simp)))

theorem State.Keeps.attachStart (k : a.Keeps s) (l : Lane) (licence : Option Text) (src : Byte) :
    a.Keeps (s.attachStart l licence src) := by
  unfold State.attachStart
  dsimp only
  split
  · exact .ite (fun _ => (k.handAll _ _).startScan _) fun _ => k.stray _ _ _ _ _
  · split
    · exact State.Keeps.startScan (.ite (fun _ => k.handSlot _ _) fun _ => k) _
    · exact k.stray _ _ _ _ _

theorem State.Keeps.tunnelStart (k : a.Keeps s) (l : Lane) (licence : Option Text) (src : Byte) :
    a.Keeps (s.tunnelStart l licence src) := by
  unfold State.tunnelStart
  split
  · exact (k.truncateScan _).attachStart _ _ _
  · exact k.attachStart _ _ _

theorem State.Keeps.caseRead (k : a.Keeps s) (l : Lane) (r : CaseRead) (src : Byte) : a.Keeps (s.caseRead l r src) := by
  unfold State.caseRead
  split
  · exact k.stray _ _ _ _ _
  · dsimp only
    split
    · exact State.Keeps.handSlot k.modCtx_same _ _
    · exact k.modCtx_same

theorem State.Keeps.tunnelEnd (k : a.Keeps s) (l : Lane) (src : Byte) : a.Keeps (s.tunnelEnd l src) := by
  unfold State.tunnelEnd
  split
  · exact k.stray _ _ _ _ _
  · exact k.endScan _

theorem Measurand.store_rises (m : Measurand) (v : Nat) (c : Context) : c.Rises (m.store v c) := by
  cases m <;> exact .of_same rfl rfl rfl (.inl rfl)

theorem State.Keeps.attach (k : a.Keeps s) (m : Measurand) (v : Nat) (i : Slot) : a.Keeps (s.attach m v i) := by
  have stored : a.Keeps (s.modCtx i (m.store v)) := k.modCtx fun c _ => m.store_rises v c
  exact .ite (fun _ => stored.attempt _) fun _ => stored

theorem State.Keeps.takeMeasurement (k : a.Keeps s) (l : Lane) (m : Measurand) (v : Nat) (licence : Option Text) :
    a.Keeps (s.takeMeasurement l m v licence).1 := by
  unfold State.takeMeasurement
  split
  · exact k
  · split
    · split
      · split
        · exact (k.handAll _ _).attach _ _ _
        · exact k
      · split
        · split
          · exact k.modCtx fun c _ => m.store_rises v c
          · exact k
        · exact k
    · split
      · exact State.Keeps.attach (.ite (fun _ => k.handSlot _ _) fun _ => k) _ _ _
      · exact k

theorem State.Keeps.takeOptional (k : a.Keeps s) (l : Lane) (m : Measurand) (v : Option Nat) (licence : Option Text) :
    a.Keeps (s.takeOptional l m v licence).1 := by
  cases v with
  | some v => exact k.takeMeasurement _ _ _ _
  | none => exact k

theorem State.Keeps.measure (k : a.Keeps s) (l : Lane) (w h : Option Nat) (licence : Option Text) (src : Byte) :
    a.Keeps (s.measure l w h licence src) := by
  have both := (k.takeOptional l .weight w licence).takeOptional l .height h licence
  unfold State.measure
  split
  · exact k.stray _ _ _ _ _
  · dsimp only
    split
    · exact both.stray _ _ _ _ _
    · exact both

theorem State.Keeps.measureExpired (k : a.Keeps s) (i : Slot) : a.Keeps (s.measureExpired i) := by
  have weight : a.Keeps (if (s.ctx i).any Context.lacksWeight then s.handSlot i .noWeight else s) :=
    .ite (fun _ => k.handSlot _ _) fun _ => k
  exact State.Keeps.attempt (.ite (fun _ => weight.handSlot _ _) fun _ => weight) _

end

end Sys2Proof.Machine
end

section
/-! The tables: an entry put in a list that stands in key order. The four tables of the part put an entry in the same way;
what holds of it is shown once, of `putInOrder`. -/

namespace Sys2Proof.Machine

open Sys2Proof

/-! ### An entry put in a list in key order -/

/-- An entry put in a list: joined with the entry of its key, or standing before the first entry it comes before. -/
def putInOrder {α : Type} (same before : α → α → Prop) [∀ a, DecidablePred (same a)] [∀ a, DecidablePred (before a)]
    (join : α → α → α) (a : α) : List α → List α
  | [] => [a]
  | x :: xs =>
    if same a x then join a x :: xs
    else if before a x then a :: x :: xs
    else x :: putInOrder same before join a xs

/-- The order of a table's keys, and that joining keeps the key. -/
structure KeyOrder {α : Type} (same before : α → α → Prop) (join : α → α → α) : Prop where
  trans  : ∀ {a b c}, before a b → before b c → before a c
  total  : ∀ a b, same a b ∨ before a b ∨ before b a
  left   : ∀ {a x y}, same a x → (before (join a x) y ↔ before x y)
  right  : ∀ {a x y}, same a x → (before y (join a x) ↔ before y x)
  strict : ∀ {a x}, same a x → ¬ before x a ∧ ¬ before a x
  congr  : ∀ {a x y}, same a x → (before x y ↔ before a y)

section
variable {α : Type} {same before : α → α → Prop} [∀ a, DecidablePred (same a)] [∀ a, DecidablePred (before a)]
  {join : α → α → α} {a : α} {l : List α}

/-- What stands in the list after an entry is put in it. -/
theorem mem_of_mem_putInOrder {y : α} (h : y ∈ putInOrder same before join a l) :
    y = a ∨ y ∈ l ∨ ∃ x ∈ l, same a x ∧ y = join a x := by
  induction l with
  | nil => exact .inl (by simpa [putInOrder] using h)
  | cons x xs ih =>
    unfold putInOrder at h
    split at h
    next e =>
      rcases List.mem_cons.mp h with rfl | hm
      · exact .inr (.inr ⟨x, by simp, e, rfl⟩)
      · exact .inr (.inl (by simp [hm]))
    next =>
      split at h
      · rcases List.mem_cons.mp h with rfl | hm
        · exact .inl rfl
        · exact .inr (.inl hm)
      · rcases List.mem_cons.mp h with rfl | hm
        · exact .inr (.inl (by simp))
        · rcases ih hm with rfl | hm | ⟨z, hz, e, rfl⟩
          · exact .inl rfl
          · exact .inr (.inl (by simp [hm]))
          · exact .inr (.inr ⟨z, by simp [hz], e, rfl⟩)

theorem length_putInOrder_le : (putInOrder same before join a l).length ≤ l.length + 1 := by
  induction l with
  | nil => simp [putInOrder]
  | cons x xs ih =>
    unfold putInOrder
    split
    · simp
    · split <;> simp [ih]

/-- A list in key order stays so. -/
theorem pairwise_putInOrder (o : KeyOrder same before join) (h : l.Pairwise before) :
    (putInOrder same before join a l).Pairwise before := by
  induction l with
  | nil => simp [putInOrder]
  | cons x xs ih =>
    obtain ⟨hx, hxs⟩ := List.pairwise_cons.mp h
    unfold putInOrder
    split
    next e => exact List.pairwise_cons.mpr ⟨fun y hy => (o.left e).mpr (hx y hy), hxs⟩
    next ne =>
      split
      next lt =>
        refine List.pairwise_cons.mpr ⟨fun y hy => ?_, h⟩
        rcases List.mem_cons.mp hy with rfl | hy
        · exact lt
        · exact o.trans lt (hx y hy)
      next ge =>
        have gt : before x a := ((o.total a x).resolve_left ne).resolve_left ge
        refine List.pairwise_cons.mpr ⟨fun y hy => ?_, ih hxs⟩
        rcases mem_of_mem_putInOrder hy with rfl | hy | ⟨z, hz, e, rfl⟩
        · exact gt
        · exact hx y hy
        · exact (o.right e).mpr (hx z hz)

/-- An entry of a key in the list takes no more room. -/
theorem length_putInOrder_of_mem (o : KeyOrder same before join) (h : l.Pairwise before)
    (old : ∃ x ∈ l, same a x) : (putInOrder same before join a l).length = l.length := by
  induction l with
  | nil => simp at old
  | cons x xs ih =>
    obtain ⟨hx, hxs⟩ := List.pairwise_cons.mp h
    obtain ⟨z, hz, e⟩ := old
    unfold putInOrder
    split
    · simp
    next ne =>
      have hz : z ∈ xs := (List.mem_cons.mp hz).resolve_left fun q => ne (q ▸ e)
      have ge : ¬ before a x := fun lt => (o.strict e).2 (o.trans lt (hx z hz))
      rw [if_neg ge, List.length_cons, List.length_cons, ih hxs ⟨z, hz, e⟩]

/-- What is left of the list beside the entry put in it has other keys. -/
theorem ne_of_mem_putInOrder (o : KeyOrder same before join) (h : l.Pairwise before) {y : α}
    (hy : y ∈ putInOrder same before join a l) : y = a ∨ (∃ x ∈ l, same a x ∧ y = join a x) ∨ (y ∈ l ∧ ¬ same a y) := by
  induction l with
  | nil => exact .inl (by simpa [putInOrder] using hy)
  | cons x xs ih =>
    obtain ⟨hx, hxs⟩ := List.pairwise_cons.mp h
    have other : ∀ {z}, before a z → ¬ same a z := fun b e => (o.strict e).2 b
    unfold putInOrder at hy
    split at hy
    next e =>
      rcases List.mem_cons.mp hy with rfl | hm
      · exact .inr (.inl ⟨x, by simp, e, rfl⟩)
      · exact .inr (.inr ⟨by simp [hm], other ((o.congr e).mp (hx y hm))⟩)
    next ne =>
      split at hy
      next lt =>
        rcases List.mem_cons.mp hy with rfl | hm
        · exact .inl rfl
        · refine .inr (.inr ⟨hm, ?_⟩)
          rcases List.mem_cons.mp hm with rfl | hm
          · exact ne
          · exact other (o.trans lt (hx y hm))
      next =>
        rcases List.mem_cons.mp hy with rfl | hm
        · exact .inr (.inr ⟨by simp, ne⟩)
        · rcases ih hxs hm with rfl | ⟨z, hz, e, rfl⟩ | ⟨hm, ne⟩
          · exact .inl rfl
          · exact .inr (.inl ⟨z, by simp [hz], e, rfl⟩)
          · exact .inr (.inr ⟨by simp [hm], ne⟩)

end

/-! ### The four tables -/

theorem putArticle_eq (x : Article) (l : List Article) : putArticle x l =
    putInOrder (fun a b => a.key = b.key) (fun a b => ltText a.key b.key = true) (fun a _ => a) x l := by
  induction l with
  | nil => rfl
  | cons y ys ih => simp only [putArticle, putInOrder, ih]

theorem putConsignment_eq (x : Consignment) (l : List Consignment) : putConsignment x l =
    putInOrder (fun a b => a.number = b.number) (fun a b => ltText a.number b.number = true)
      (fun a b => { a with totals := b.totals }) x l := by
  induction l with
  | nil => rfl
  | cons y ys ih => simp only [putConsignment, putInOrder, ih]

theorem putPlan_eq (x : Plan) (l : List Plan) : putPlan x l =
    putInOrder (fun a b => a.slot = b.slot) (fun a b => a.slot < b.slot) (fun a _ => a) x l := by
  induction l with
  | nil => rfl
  | cons y ys ih => simp only [putPlan, putInOrder, ih]

theorem putHold_eq (x : Hold) (l : List Hold) : putHold x l =
    putInOrder (fun a b => sameHoldKey a.key b.key = true) (fun a b => ltHoldKey a.key b.key = true)
      (fun a _ => a) x l := by
  induction l with
  | nil => rfl
  | cons y ys ih => simp only [putHold, putInOrder, ih]

theorem ltText_asymm {a b : Text} (h : ltText a b = true) : ¬ ltText b a = true := fun k => by
  simpa [ltText_irrefl] using ltText_trans h k

theorem articleOrder : KeyOrder (fun a b : Article => a.key = b.key) (fun a b => ltText a.key b.key = true)
    fun a _ => a where
  trans := ltText_trans
  total a b := ltText_trichotomy a.key b.key
  left e := by rw [e]
  right e := by rw [e]
  strict e := by simp [e, ltText_irrefl]
  congr e := by rw [e]

theorem consignmentOrder : KeyOrder (fun a b : Consignment => a.number = b.number)
    (fun a b => ltText a.number b.number = true) fun a b => { a with totals := b.totals } where
  trans := ltText_trans
  total a b := ltText_trichotomy a.number b.number
  left e := by rw [e]
  right e := by rw [e]
  strict e := by simp [e, ltText_irrefl]
  congr e := by rw [e]

theorem planOrder : KeyOrder (fun a b : Plan => a.slot = b.slot) (fun a b => a.slot < b.slot) fun a _ => a where
  trans := Nat.lt_trans
  total a b := by omega
  left e := by rw [e]
  right e := by rw [e]
  strict e := by omega
  congr e := by rw [e]

theorem sameHoldKey_iff {a b : Text × Text} : sameHoldKey a b = true ↔ a.1 = b.1 ∧ padLot a.2 = padLot b.2 := by
  simp [sameHoldKey, lotEq]

theorem ltHoldKey_iff {a b : Text × Text} : ltHoldKey a b = true ↔
    ltText a.1 b.1 = true ∨ a.1 = b.1 ∧ ltText (padLot a.2) (padLot b.2) = true := by
  simp [ltHoldKey]

theorem ltHoldKey_trans {a b c : Text × Text} (h : ltHoldKey a b = true) (k : ltHoldKey b c = true) :
    ltHoldKey a c = true := by
  rw [ltHoldKey_iff] at *
  rcases h with h | ⟨e, h⟩ <;> rcases k with k | ⟨e', k⟩
  · exact .inl (ltText_trans h k)
  · exact .inl (e' ▸ h)
  · exact .inl (e ▸ k)
  · exact .inr ⟨e.trans e', ltText_trans h k⟩

theorem holdOrder : KeyOrder (fun a b : Hold => sameHoldKey a.key b.key = true)
    (fun a b => ltHoldKey a.key b.key = true) fun a _ => a where
  trans := ltHoldKey_trans
  total a b := by
    simp only [sameHoldKey_iff, ltHoldKey_iff]
    rcases ltText_trichotomy a.key.1 b.key.1 with e | h | h
    · rcases ltText_trichotomy (padLot a.key.2) (padLot b.key.2) with e' | h | h
      · exact .inl ⟨e, e'⟩
      · exact .inr (.inl (.inr ⟨e, h⟩))
      · exact .inr (.inr (.inr ⟨e.symm, h⟩))
    · exact .inr (.inl (.inl h))
    · exact .inr (.inr (.inl h))
  left e := by obtain ⟨h, k⟩ := sameHoldKey_iff.mp e; simp only [ltHoldKey_iff, h, k]
  right e := by obtain ⟨h, k⟩ := sameHoldKey_iff.mp e; simp only [ltHoldKey_iff, h, k]
  strict e := by obtain ⟨h, k⟩ := sameHoldKey_iff.mp e; simp [ltHoldKey_iff, h, k, ltText_irrefl]
  congr e := by obtain ⟨h, k⟩ := sameHoldKey_iff.mp e; simp only [ltHoldKey_iff, h, k]

/-- The lowest free slot of plans in slot order, none of them below n. -/
theorem lowestFreePlan_spec {ps : List Plan} {n : Nat} (h : ps.Pairwise fun a b => a.slot < b.slot)
    (le : ∀ p ∈ ps, n ≤ p.slot) :
    n ≤ lowestFreePlan n ps ∧ lowestFreePlan n ps ≤ n + ps.length ∧ ∀ p ∈ ps, p.slot ≠ lowestFreePlan n ps := by
  induction ps generalizing n with
  | nil => simp [lowestFreePlan]
  | cons p ps ih =>
    obtain ⟨hp, hps⟩ := List.pairwise_cons.mp h
    have lp := le p (by simp)
    unfold lowestFreePlan
    split
    next e =>
      obtain ⟨h1, h2, h3⟩ := ih (n := n + 1) hps fun q hq => by have := hp q hq; omega
      refine ⟨by omega, by simp; omega, fun q hq => ?_⟩
      rcases List.mem_cons.mp hq with rfl | hq
      · omega
      · exact h3 q hq
    next ne =>
      refine ⟨Nat.le_refl n, by omega, fun q hq => ?_⟩
      rcases List.mem_cons.mp hq with rfl | hq
      · exact ne
      · have := hp q hq; omega

theorem licence_ne_of_slot_lt {ps : List Plan} (order : ps.Pairwise fun a b => a.slot < b.slot)
    (distinct : ps.Pairwise fun a b => a.licence ≠ b.licence) {q u : Plan} (hq : q ∈ ps) (hu : u ∈ ps)
    (lt : q.slot < u.slot) : q.licence ≠ u.licence := by
  induction ps with
  | nil => cases hq
  | cons p ps ih =>
    obtain ⟨hp, hps⟩ := List.pairwise_cons.mp order
    obtain ⟨dp, dps⟩ := List.pairwise_cons.mp distinct
    rcases List.mem_cons.mp hq with eq | mq <;> rcases List.mem_cons.mp hu with eu | mu
    · rw [eq, eu] at lt; exact absurd lt (Nat.lt_irrefl _)
    · exact eq ▸ dp u mu
    · exact absurd (eu ▸ hp q mq) (Nat.lt_asymm lt)
    · exact ih hps dps mq mu

/-- A plan put at a slot, with a licence no plan at another slot has. -/
theorem RefTables.Tidy.putPlan {r : RefTables} (t : r.Tidy) {p : Plan} (slot : p.slot < Config.planMax)
    (licence : ∀ q ∈ r.plans, q.slot ≠ p.slot → q.licence ≠ p.licence) :
    ({ r with plans := putPlan p r.plans } : RefTables).Tidy := by
  have beside : ∀ q ∈ Machine.putPlan p r.plans, q = p ∨ q ∈ r.plans ∧ q.slot ≠ p.slot := fun q hq => by
    rw [putPlan_eq] at hq
    rcases ne_of_mem_putInOrder planOrder t.plans hq with rfl | ⟨x, _, _, rfl⟩ | ⟨hm, ne⟩
    · exact .inl rfl
    · exact .inl rfl
    · exact .inr ⟨hm, fun e => ne e.symm⟩
  have order : (Machine.putPlan p r.plans).Pairwise fun a b => a.slot < b.slot := by
    rw [putPlan_eq]; exact pairwise_putInOrder planOrder t.plans
  refine { t with plans := order, licences := ?_, planSlots := fun q hq => ?_ }
  · refine order.imp_of_mem fun {q u} hq hu lt => ?_
    rcases beside q hq with eq | ⟨hq, nq⟩ <;> rcases beside u hu with eu | ⟨hu, nu⟩
    · rw [eq, eu] at lt; exact absurd lt (Nat.lt_irrefl _)
    · exact eq ▸ (licence u hu nu).symm
    · exact eu ▸ licence q hq nq
    · exact licence_ne_of_slot_lt t.plans t.licences hq hu lt
  · rcases beside q hq with rfl | ⟨hq, -⟩
    · exact slot
    · exact t.planSlots q hq

end Sys2Proof.Machine
end

section
/-! The requests, the ring, the expiries and the commands: each keeps what `State.Keeps` says, but for the admission that a
TAG_READ may bring and for RESET. -/

namespace Sys2Proof.Machine

open Sys2Proof

section
variable {a s : State}

theorem State.Keeps.ofAnswer (k : a.Keeps s) {x : Status} {r : Result} : a.Keeps (⟨s, x, r⟩ : Answer).state := k

/-! ### Reference tables (R1 to R19) -/

theorem State.Keeps.articlePut (k : a.Keeps s) (f : ArticleFields) : a.Keeps (s.articlePut f).state := by
  unfold State.articlePut
  split
  · exact k
  next x _ =>
    split
    · exact k
    next room =>
      refine .ofAnswer (k.onRefs fun t => { t with articles := ?_, articleRoom := ?_ })
      · rw [putArticle_eq]; exact pairwise_putInOrder articleOrder t.articles
      · dsimp only
        rw [putArticle_eq]
        by_cases old : ∃ y ∈ s.refs.articles, x.key = y.key
        · rw [length_putInOrder_of_mem articleOrder t.articles old]; exact t.articleRoom
        · have new : (s.article x.key).isNone = true := by
            simpa [State.article] using fun y hy e => old ⟨y, hy, e.symm⟩
          have few : s.refs.articles.length < Config.articleMax := by simpa [new] using room
          exact length_putInOrder_le.trans few

theorem RefTables.Tidy.filterArticles {r : RefTables} (t : r.Tidy) (p : Article → Bool) :
    ({ r with articles := r.articles.filter p } : RefTables).Tidy :=
  { t with articles := t.articles.filter p, articleRoom := (List.length_filter_le ..).trans t.articleRoom }

theorem RefTables.Tidy.filterConsignments {r : RefTables} (t : r.Tidy) (p : Consignment → Bool) :
    ({ r with consignments := r.consignments.filter p } : RefTables).Tidy :=
  { t with consignments := t.consignments.filter p, consignRoom := (List.length_filter_le ..).trans t.consignRoom }

theorem RefTables.Tidy.filterPlans {r : RefTables} (t : r.Tidy) (p : Plan → Bool) :
    ({ r with plans := r.plans.filter p } : RefTables).Tidy :=
  { t with
    plans := t.plans.filter p, licences := t.licences.filter p
    planSlots := fun q hq => t.planSlots q (List.mem_of_mem_filter hq) }

theorem State.Keeps.articleDelete (k : a.Keeps s) (key : Text) : a.Keeps (s.articleDelete key).state := by
  unfold State.articleDelete
  repeat' split
  all_goals first | exact k | exact .ofAnswer (k.onRefs fun t => t.filterArticles _)

theorem State.Keeps.articleClear (k : a.Keeps s) : a.Keeps s.articleClear.state := by
  unfold State.articleClear
  repeat' split
  all_goals first | exact k | exact .ofAnswer (k.onRefs fun t => { t with articles := .nil, articleRoom := Nat.zero_le _ })

theorem State.Keeps.consignmentPut (k : a.Keeps s) (f : ConsignmentFields) : a.Keeps (s.consignmentPut f).state := by
  unfold State.consignmentPut
  split
  · exact k
  next x _ =>
    split
    · exact k
    next room =>
      have put : a.Keeps (s.onRefs fun r => { r with consignments := putConsignment x r.consignments }) := by
        refine k.onRefs fun t => { t with consignments := ?_, consignRoom := ?_ }
        · rw [putConsignment_eq]; exact pairwise_putInOrder consignmentOrder t.consignments
        · dsimp only
          rw [putConsignment_eq]
          by_cases old : ∃ y ∈ s.refs.consignments, x.number = y.number
          · rw [length_putInOrder_of_mem consignmentOrder t.consignments old]; exact t.consignRoom
          · have new : (s.consignment x.number).isNone = true := by
              simpa [State.consignment] using fun y hy e => old ⟨y, hy, e.symm⟩
            have few : s.refs.consignments.length < Config.consignmentMax := by simpa [new] using room
            exact length_putInOrder_le.trans few
      dsimp only
      split <;> exact put

theorem State.Keeps.consignmentDelete (k : a.Keeps s) (n : Text) : a.Keeps (s.consignmentDelete n).state := by
  unfold State.consignmentDelete
  repeat' split
  all_goals first | exact k | exact .ofAnswer (k.onRefs fun t => t.filterConsignments _)

theorem State.Keeps.consignmentClear (k : a.Keeps s) : a.Keeps s.consignmentClear.state := by
  unfold State.consignmentClear
  repeat' split
  all_goals first | exact k | exact .ofAnswer (k.onRefs fun t => { t with consignments := .nil, consignRoom := Nat.zero_le _ })

theorem State.planOf_eq_some {t : Text} {p : Plan} (h : s.planOf t = some p) : p ∈ s.refs.plans ∧ p.licence = t :=
  ⟨List.mem_of_find?_eq_some h, by simpa using List.find?_some h⟩

theorem State.Keeps.storePlan (k : a.Keeps s) {p : Plan} (put : s.refs.Tidy →
    ({ s.refs with plans := putPlan p s.refs.plans } : RefTables).Tidy) : a.Keeps (s.storePlan p).state :=
  ((k.onRefs put).offerPlan p).settle _

theorem State.Keeps.planPut (k : a.Keeps s) (f : PlanFields) : a.Keeps (s.planPut f).state := by
  unfold State.planPut
  split
  · exact k
  · split
    next p hp =>
      obtain ⟨mem, licence⟩ := State.planOf_eq_some hp
      split
      · exact k
      · refine k.storePlan fun t => t.putPlan (t.planSlots p mem) fun q hq ne e => ?_
        have same : q.licence = p.licence := e.trans licence.symm
        rcases Nat.lt_or_gt_of_ne ne with lt | gt
        · exact licence_ne_of_slot_lt t.plans t.licences hq mem lt same
        · exact licence_ne_of_slot_lt t.plans t.licences mem hq gt same.symm
    next none =>
      split
      · exact k
      next room =>
        refine k.storePlan fun t => ?_
        obtain ⟨-, le, free⟩ := lowestFreePlan_spec (n := 0) t.plans fun _ _ => Nat.zero_le _
        refine t.putPlan (p := planIn f _) (by simp only [planIn]; omega) fun q hq _ e => ?_
        have := List.find?_eq_none.mp none q hq
        exact this (by simpa [planIn] using e)

theorem State.Keeps.planDelete (k : a.Keeps s) (t : Text) : a.Keeps (s.planDelete t).state := by
  unfold State.planDelete
  repeat' split
  all_goals first | exact k | exact .ofAnswer (k.onRefs fun t => t.filterPlans _)

theorem State.Keeps.planClear (k : a.Keeps s) : a.Keeps s.planClear.state := by
  unfold State.planClear
  split
  · exact k
  · exact .ofAnswer (k.onRefs fun t => { t with plans := .nil, licences := .nil, planSlots := by simp })

theorem State.Keeps.setStation (k : a.Keeps s) (x : Fin 32) (rs : List RoleInst) : a.Keeps (s.setStation x rs) :=
  k.onRefs fun t => { t with }

theorem State.Keeps.giveRole (k : a.Keeps s) (x : Fin 32) (r : RoleInst) : a.Keeps (s.giveRole x r).state := by
  unfold State.giveRole
  dsimp only
  split
  · exact k
  · split
    · exact (k.setStation _ _).setStation _ _
    · exact k.setStation _ _

theorem State.Keeps.stationPut (k : a.Keeps s) (x r n : Byte) : a.Keeps (s.stationPut x r n).state := by
  unfold State.stationPut
  split
  · exact k
  · split
    · exact k
    · split
      · exact k.setStation _ _
      · split
        · exact k.giveRole _ _
        · exact k

/-! ### Templates (R115 to R119) -/

theorem State.Keeps.templateBegin (k : a.Keeps s) (n : Nat) : a.Keeps (s.templateBegin n).state := by
  unfold State.templateBegin
  split
  · exact .ofAnswer (k.onComposer fun h => h)
  · exact k

theorem State.Keeps.templateItems (k : a.Keeps s) (fs : List ItemFields) : a.Keeps (s.templateItems fs).state := by
  unfold State.templateItems
  split
  · exact k
  · split
    · dsimp only
      split
      · exact k
      · exact .ofAnswer (k.onComposer fun h => h)
    · exact k

theorem State.Keeps.templateEnd (k : a.Keeps s) : a.Keeps s.templateEnd.state := by
  unfold State.templateEnd
  split
  · exact k
  · split
    · exact .ofAnswer (k.onComposer fun h => h)
    · split
      · exact k
      · exact .ofAnswer (k.onComposer fun h => h)

/-! ### Holds (R25 to R32) -/

theorem generationAfter_le (n : Nat) : generationAfter n ≤ 65535 :=
  Nat.le_of_lt_succ (Nat.mod_lt _ (by decide))

theorem State.Keeps.holdAdd (k : a.Keeps s) (f : HoldFields) : a.Keeps (s.holdAdd f).state := by
  unfold State.holdAdd
  split
  · exact k
  next h _ =>
    dsimp only
    split
    · exact k
    next room =>
      have put : a.Keeps (s.onHolds fun x => { x with
          list := putHold h x.list, generation := generationAfter x.generation }) := by
        refine k.onHolds (fun t => ⟨?_, ?_⟩) fun _ => generationAfter_le _
        · rw [putHold_eq]; exact pairwise_putInOrder holdOrder t.order
        · rw [putHold_eq]
          by_cases old : ∃ y ∈ s.holds.list, sameHoldKey h.key y.key = true
          · rw [length_putInOrder_of_mem holdOrder t.order old]; exact t.room
          · have new : (s.hold h.key).isNone = true := by
              simp only [State.hold, Option.isNone_iff_eq_none, List.find?_eq_none]
              intro y hy e
              exact old ⟨y, hy, sameHoldKey_iff.mpr
                ⟨(sameHoldKey_iff.mp e).1.symm, (sameHoldKey_iff.mp e).2.symm⟩⟩
            have few : s.holds.list.length < Config.holdMax := by simpa [new] using room
            exact length_putInOrder_le.trans few
      exact ((put.lateHolds h).escapeSearch h _).settle _

theorem State.Keeps.holdRelease (k : a.Keeps s) (x l : Text) : a.Keeps (s.holdRelease x l).state := by
  unfold State.holdRelease
  split
  · exact k
  · split
    · exact k
    · exact .ofAnswer (k.onHolds (fun t => ⟨t.order.filter _, (List.length_filter_le ..).trans t.room⟩) fun _ =>
        generationAfter_le _)

theorem State.Keeps.holdClear (k : a.Keeps s) : a.Keeps s.holdClear.state :=
  State.Keeps.setCurrency (k.onHolds (f := fun x => { x with list := [], generation := 0, window := none })
    (fun _ => ⟨.nil, Nat.zero_le _⟩) fun _ => Nat.zero_le _) _

theorem State.Keeps.takeCurrency (k : a.Keeps s) (g d : Nat) : a.Keeps (s.takeCurrency g d).state := by
  have set := fun day window => State.Keeps.setCurrency
    (k.onHolds_same (f := fun h => { h with day := day, window := window }))
    (if (g == s.holds.generation) = true then .current else .stale)
  exact State.Keeps.settle (.ite (fun _ => (set _ _).retryWaiting) fun _ => set _ _) _

/-! ### The other owners -/

theorem State.Keeps.laneClear (k : a.Keeps s) (n : Nat) : a.Keeps (s.laneClear n).state := by
  unfold State.laneClear
  split
  · exact k
  · exact k.closeAll _ _ _

theorem State.Keeps.retryRequest (k : a.Keeps s) : a.Keeps s.retryRequest.state := k.retryWaiting.settle _

theorem State.Keeps.scaleClear (k : a.Keeps s) (n : Nat) (src : Byte) : a.Keeps (s.scaleClear n src).state := by
  unfold State.scaleClear
  split
  · exact k
  · exact k.clearScale _ _

theorem State.Keeps.wrapperConfig (k : a.Keeps s) (n : Nat) (rs : List Nat) (t : Nat) :
    a.Keeps (s.wrapperConfig n rs t).state := by
  unfold State.wrapperConfig
  split
  · exact k
  · split
    · exact k
    · dsimp only
      split
      · exact k
      · exact (k.modWrapper _ _).callArbiter.settle _

theorem State.Keeps.watchPut (k : a.Keeps s) (f : WatchFields) : a.Keeps (s.watchPut f).state := by
  unfold State.watchPut
  split
  · split
    · exact .ofAnswer (k.onScreen _ _)
    · exact k
  · exact k

theorem State.Keeps.watchAck (k : a.Keeps s) (n : Nat) : a.Keeps (s.watchAck n).state := by
  unfold State.watchAck
  split
  · exact .ite (fun _ => (k.onScreen _ _).report _) fun _ => k.onScreen _ _
  · exact k

/-! ### Modes and parameters (R173 to R182) -/

theorem State.Keeps.goRequest (k : a.Keeps s) : a.Keeps s.goRequest.state := by
  unfold State.goRequest
  split <;> rw [State.modeAnswer_state]
  next e => exact k.enterRun (by simp [e])
  next e => exact k.enterRun (by simp [e])
  next e => exact k.enterRun (by simp [e])
  all_goals exact k

theorem State.Keeps.drainRequest (k : a.Keeps s) : a.Keeps s.drainRequest.state := by
  have drain : s.ctl.mode ≠ .isolated → a.Keeps (if s.noneOpen then s.enterStopped .drain else s.enterDrain) :=
    fun h => .ite (fun _ => k.enterStopped _ h) fun _ => k.enterDrain h
  unfold State.drainRequest
  split <;> rw [State.modeAnswer_state]
  next e => exact drain (by simp [e])
  next e => exact drain (by simp [e])
  all_goals exact k

theorem State.Keeps.haltRequest (k : a.Keeps s) : a.Keeps s.haltRequest.state := by
  unfold State.haltRequest
  split <;> rw [State.modeAnswer_state]
  next e => exact (k.enterStopped _ (by simp [e])).closeAll _ _ _
  next e => exact (k.enterStopped _ (by simp [e])).closeAll _ _ _
  next e => exact (k.enterStopped _ (by simp [e])).closeAll _ _ _
  all_goals exact k

theorem State.Keeps.clearRejectRequest (k : a.Keeps s) : a.Keeps s.clearRejectRequest.state := by
  have clear : s.ctl.mode ≠ .start ∧ s.ctl.mode ≠ .stopped ∧ s.ctl.mode ≠ .isolated →
      a.Keeps (if s.ctl.rejectAll then s.clearReject else s) :=
    fun h => .ite (fun _ => k.clearReject h) fun _ => k
  unfold State.clearRejectRequest
  split <;> rw [State.modeAnswer_state]
  next e => exact clear (by simp [e])
  next e => exact clear (by simp [e])
  next e => exact clear (by simp [e])
  all_goals exact k

theorem Params.get_set_of_ne {p : Params} {n m v : Nat} (ne : n ≠ m) : (p.set n v).get m = p.get m := by
  unfold Params.set
  split <;> unfold Params.get <;> split <;> first | rfl | exact absurd rfl ne

theorem Params.get_set_self {p : Params} {n v w : Nat} (h : (p.set n v).get n = some w)
    (hv : (paramRange n).1 ≤ v ∧ v ≤ (paramRange n).2) : w = v := by
  unfold Params.set at h
  split at h
  all_goals simp only [Params.get, Option.some.injEq, Fin.val_ofNat] at h
  case h_17 =>
    have : v ≤ 15 := hv.2
    omega
  case h_18 => cases h
  all_goals exact h.symm

theorem Params.InRange.set {p : Params} (h : p.InRange) {n v : Nat}
    (hv : (paramRange n).1 ≤ v ∧ v ≤ (paramRange n).2) : (p.set n v).InRange := fun m w hw => by
  by_cases e : n = m
  · subst e; rw [Params.get_set_self hw hv]; exact hv
  · exact h m w (by rwa [Params.get_set_of_ne e] at hw)

theorem paramRange_ordered (n : Nat) : (paramRange n).1 ≤ (paramRange n).2 := by
  unfold paramRange; split <;> decide

theorem paramClamp_mem (n v : Nat) : (paramRange n).1 ≤ paramClamp n v ∧ paramClamp n v ≤ (paramRange n).2 := by
  have := paramRange_ordered n
  unfold paramClamp
  omega

theorem Params.InRange.setAll {p : Params} (h : p.InRange) (ps : List (Nat × Nat)) :
    ((ps.map fun q => (q.1, paramClamp q.1 q.2)).foldl (fun p q => p.set q.1 q.2) p).InRange := by
  induction ps generalizing p with
  | nil => exact h
  | cons q ps ih => exact ih (h.set (paramClamp_mem _ _))

theorem State.Keeps.paramSet (k : a.Keeps s) (ps : List (Nat × Nat)) : a.Keeps (s.paramSet ps).state := by
  unfold State.paramSet
  split
  · exact k
  · exact .ofAnswer (k.onCtl (fun c => c) fun h => h.setAll ps)

end

end Sys2Proof.Machine
end

section
/-! RESTART, the ring, the expiries and the commands: what a step keeps, and the invariants read off it: the statements
O2, O16, O18, O19, O20 and O21. -/

namespace Sys2Proof.Machine

open Sys2Proof

section
variable {a s : State}

/-! ### RESTART (R177) -/

theorem State.Keeps.restartBlocks (k : a.Keeps s) : a.Keeps s.restartBlocks := by
  have slot : ∀ p : Plan, p.restarted.slot = p.slot := fun p => by unfold Plan.restarted; split <;> rfl
  have licence : ∀ p : Plan, p.restarted.licence = p.licence := fun p => by unfold Plan.restarted; split <;> rfl
  refine k.trans
    { refs := fun t => { t with plans := ?_, licences := ?_, planSlots := ?_ }
      holds := fun t => ⟨t.order, t.room⟩
      generation := id
      slots := fun i d hd => by simp [State.ctx, State.restartBlocks] at hd
      admission := fun _ => ⟨Nat.le_refl 1, by
        show (1 : Nat) ≤ Config.max32
        simp [Config.max32]⟩
      serial := id
      release := id
      reportSeq := id
      modes := fun _ => ⟨fun _ => rfl, by simp [State.restartBlocks], by simp [State.restartBlocks]⟩
      params := id
      pending := rfl }
  · simpa only [State.restartBlocks, List.pairwise_map, slot] using t.plans
  · simpa only [State.restartBlocks, List.pairwise_map, licence] using t.licences
  · simpa only [State.restartBlocks, List.forall_mem_map, slot] using t.planSlots

theorem State.Keeps.orphanWrappers (k : a.Keeps s) : a.Keeps s.orphanWrappers := by
  refine k.foldl (fun {s w} k => ?_) _
  split
  · exact k.orphanWrapper _ _
  · exact k

theorem State.Keeps.restart (k : a.Keeps s) (src tag : Byte) : a.Keeps (s.restart src tag) := by
  have orphaned := (((k.restartBlocks.reply
    { dst := src, code := 0x63, tag := tag, status := .ok,
      result := .mode s.ctl.mode s.restartBlocks.ctl.mode s.ctl.rejectAll s.restartBlocks.ctl.rejectAll none,
      sent := 0 }).infeedAll).modeReport .restart s.ctl.mode).orphanWrappers
  exact State.Keeps.offer (.ite (fun _ => orphaned.recover _) fun _ => orphaned) _

/-! ### Requests (R158 to R160) -/

theorem State.Keeps.serve (k : a.Keeps s) (i : Instr) : a.Keeps (s.serve i).state := by
  cases i with
  | articlePut => exact k.articlePut _
  | articleDelete => exact k.articleDelete _
  | articleClear => exact k.articleClear
  | consignmentPut => exact k.consignmentPut _
  | consignmentDelete => exact k.consignmentDelete _
  | consignmentClear => exact k.consignmentClear
  | planPut => exact k.planPut _
  | planDelete => exact k.planDelete _
  | planClear => exact k.planClear
  | stationPut => exact k.stationPut _ _ _
  | holdAdd => exact k.holdAdd _
  | holdRelease => exact k.holdRelease _ _
  | holdClear => exact k.holdClear
  | currency => exact k.takeCurrency _ _
  | laneClear => exact k.laneClear _
  | retryWaiting => exact k.retryRequest
  | scaleClear => exact k.scaleClear _ _
  | wrapperConfig => exact k.wrapperConfig _ _ _
  | templateBegin => exact k.templateBegin _
  | templateItems => exact k.templateItems _
  | templateEnd => exact k.templateEnd
  | watchPut => exact k.watchPut _
  | watchAck => exact k.watchAck _
  | go => exact k.goRequest
  | drain => exact k.drainRequest
  | halt => exact k.haltRequest
  | clearRejectAll => exact k.clearRejectRequest
  | paramSet => exact k.paramSet _
  | _ => simpa [State.serve] using k

theorem State.Keeps.answer (k : a.Keeps s) (i : Instr) (src code tag : Byte) : a.Keeps (s.answer i src code tag) := by
  unfold State.answer
  split
  · exact k.restart _ _
  · exact (k.reply _).onRing _
  · exact (k.serve i).reply _

theorem State.Keeps.refuseRequest (k : a.Keeps s) (src code tag : Byte) (x : Status) :
    a.Keeps (s.refuseRequest src code tag x) := k.reply _

theorem State.Keeps.overrun (k : a.Keeps s) (src code tag : Byte) : a.Keeps (s.overrun src code tag) := k.overload _ _

theorem State.Keeps.admitRequest (k : a.Keeps s) (i : Instr) (src code tag : Byte) :
    a.Keeps (s.admitRequest i src code tag) :=
  .ite (fun _ => k.overrun _ _ _) fun _ => .ite (fun _ => k.answer _ _ _ _) fun _ => k.refuseRequest _ _ _ _

theorem State.Keeps.takeBytesOf (k : a.Keeps s) (src code tag : Byte) (fields : List Byte) :
    a.Keeps (s.takeBytesOf src code tag fields) := by
  unfold State.takeBytesOf
  split
  · exact k.overrun _ _ _
  · split
    · exact k.refuseRequest _ _ _ _
    · split
      · exact k.admitRequest _ _ _ _
      · exact k.refuseRequest _ _ _ _

theorem State.Keeps.endGathering (k : a.Keeps s) (src : Byte) : a.Keeps (s.endGathering src) := k.onMgmt fun h => h
theorem State.Keeps.putGathering (k : a.Keeps s) (g : Gathering) : a.Keeps (s.putGathering g) :=
  (k.endGathering _).onMgmt fun h => h

theorem State.Keeps.badPart (k : a.Keeps s) (src code tag : Byte) : a.Keeps (s.badPart src code tag) :=
  .ite (fun _ => k.overrun _ _ _) fun _ => k.refuseRequest _ _ _ _

theorem State.Keeps.takePart (k : a.Keeps s) (src code tag : Byte) (part count : Nat) (share : List Byte) :
    a.Keeps (s.takePart src code tag part count share) := by
  unfold State.takePart
  split
  · exact .ite (fun _ => (k.endGathering _).takeBytesOf _ _ _ _) fun _ =>
      .ite (fun _ => (k.endGathering _).putGathering _) fun _ => (k.endGathering _).badPart _ _ _
  · split
    · exact .ite (fun _ => .ite (fun _ => (k.endGathering _).takeBytesOf _ _ _ _) fun _ => k.putGathering _)
        fun _ => (k.endGathering _).badPart _ _ _
    · exact k.badPart _ _ _

theorem State.Keeps.badPayload (k : a.Keeps s) (t : Telegram) : a.Keeps (s.badPayload t) := k.report _

theorem State.Keeps.takeMgmt (k : a.Keeps s) (t : Telegram) : a.Keeps (s.takeMgmt t) := by
  unfold State.takeMgmt
  split
  · exact k.takePart _ _ _ _ _ _
  · exact k.badPart _ _ _
  · exact k.badPayload _

/-! ### Station telegrams (R152, R153) -/

theorem State.Keeps.fitting {α : Type} (k : a.Keeps s) (t : Telegram) (r : Reader α) {use : α → State → State}
    (h : ∀ x, a.Keeps (use x s)) : a.Keeps (s.fitting t r use) := by
  unfold State.fitting
  split
  · exact h _
  · exact k.badPayload _

theorem State.Keeps.carEvent (k : a.Keeps s) (src : Byte) (e : Nat) : a.Keeps (s.carEvent src e) := by
  unfold State.carEvent
  split
  · exact k.endMove
  · exact k.stray _ _ _ _ _
  · exact k.failMove _
  · exact k.stray _ _ _ _ _
  · exact k.readyCar.settle _
  · exact k

theorem State.Keeps.wrapperEvent (k : a.Keeps s) (src : Byte) (w : WrapperNo) (e : Nat) :
    a.Keeps (s.wrapperEvent src w e) := by
  unfold State.wrapperEvent
  split
  · exact (k.readyWrapper _).settle _
  · exact k.standbyWrapper _
  · exact k.startWrap _
  · exact k.stray _ _ _ _ _
  · exact (k.endWrap _).settle _
  · exact (k.endWrap _).settle _
  · exact k.stray _ _ _ _ _
  · exact (k.failWrap _ _ _).settle _
  · exact k

theorem State.Keeps.labelEvent (k : a.Keeps s) (src : Byte) (l : Option LineNo) (e : LabelEvent) :
    a.Keeps (s.labelEvent src l e) := by
  unfold State.labelEvent
  split
  · exact k.lineJobTaken _ _ _
  · exact k.palletAtLabel _ _
  · exact k.applied _ _ _ _
  · exact k.applyFault _ _
  · exact k.ticketTaken _ _
  · exact k
  · exact k.ticketApplied _ _ _
  · exact k.ticketFault _

theorem State.Keeps.routedEvent (k : a.Keeps s) (src : Byte) (l : LineNo) (t : Option Text) (d : Nat) :
    a.Keeps (s.routedEvent src l t d) :=
  .ite (fun _ => k.routed _ _ _ _) fun _ => .ite (fun _ => k.routed _ _ _ _) fun _ => k.stray _ _ _ _ _

/-- Whatever a block does with a station telegram other than a TAG_READ. -/
theorem State.Keeps.hand (k : a.Keeps s) {t : Telegram} (h : t.kind.toNat ≠ 1) : a.Keeps (s.hand t) := by
  unfold State.hand
  split
  case h_1 e => exact absurd e h
  case h_7 => exact .ite (fun _ => k.fitting _ _ fun _ => k.carEvent _ _) fun _ => k
  case h_11 => exact .ite (fun _ => k.fitting _ _ fun _ => (k.setSpur _).settle _) fun _ => k
  case h_12 => exact k
  all_goals split <;> [refine k.fitting _ _ fun _ => ?_; exact k]
  · exact (k.tunnelStart _ _ _).settle _
  · exact k.caseRead _ _ _
  · exact (k.tunnelEnd _ _).settle _
  · exact (k.measure _ _ _ _ _).settle _
  · exact k.clearScale _ _
  · exact k.wrapperEvent _ _ _
  · exact k.labelEvent _ _ _
  · exact k.routedEvent _ _ _ _

/-- What a block does with a station telegram: it keeps, or opens a context and keeps what follows from there. -/
theorem State.hand_keeps (t : Telegram) (s : State) :
    s.Keeps (s.hand t) ∨ ∃ u, s.Admits u ∧ u.Keeps (s.hand t) := by
  by_cases h : t.kind.toNat = 1
  · unfold State.hand
    simp only [h]
    split
    · unfold State.fitting
      split
      next l _ _ x _ =>
        rcases s.readTag_keeps l (presentLicence x) with k | ⟨u, opened, k⟩
        · exact .inl (k.settle _)
        · exact .inr ⟨u, opened, k.settle _⟩
      next => exact .inl ((State.Keeps.refl s).badPayload t)
    · exact .inl (.refl s)
  · exact .inl ((State.Keeps.refl s).hand h)

/-! ### Ring In (R151, R155) -/

theorem State.Keeps.heard (k : a.Keeps s) : a.Keeps s.heard :=
  .ite (fun _ => State.Keeps.ringReturned (k.onRing _)) fun _ => k.onRing _

theorem State.heard_ctx (i : Slot) (s : State) : s.heard.ctx i = s.ctx i := by
  have returned : ∀ s : State, s.ringReturned.ctx i = s.ctx i := fun s => by
    unfold State.ringReturned
    split
    · simp [State.modeReport, State.ctx]
    · rfl
  unfold State.heard
  dsimp only
  split
  · exact returned _
  · rfl

theorem State.Keeps.offerScreens (k : a.Keeps s) (t : Telegram) : a.Keeps (s.offerScreens t) := by
  have judged : a.Keeps { s with watch := s.watch.map (Screen.remember t) } := k.trans { State.Keeps.refl s with }
  unfold State.offerScreens
  dsimp only
  split
  · exact judged
  · exact .ite (fun _ => (judged.onScreen _ _).report _) fun _ => judged.onScreen _ _

theorem State.Keeps.passOn (k : a.Keeps s) (t : Telegram) : a.Keeps (s.passOn t) :=
  .ite (fun _ => k) fun _ => .ite (fun _ => k.offerScreens _) fun _ => (k.offerScreens _).forward _

/-- What a command does: it keeps, or it keeps with the contexts as they were, opens one, and keeps from there. -/
def State.Goes (s t : State) : Prop :=
  s.Keeps t ∨ ∃ u v, s.Keeps u ∧ (∀ i, u.ctx i = s.ctx i) ∧ u.Admits v ∧ v.Keeps t

theorem State.arrive_goes (t : Telegram) (s : State) : s.Goes (s.arrive t) := by
  have heard := (State.Keeps.refl s).heard
  unfold State.arrive
  split
  · exact .inl (.refl s)
  · unfold State.handle
    split
    · exact .inl (heard.forward _)
    · split
      · exact .inl heard
      · split
        · exact .inl (heard.takeMgmt _)
        · have passed := heard.passOn t
          refine (State.hand_keeps t _).imp passed.trans fun ⟨v, opened, k⟩ => ⟨_, v, passed, fun i => ?_, opened, k⟩
          have : (s.heard.passOn t).tracker = s.heard.tracker := by simpa using (State.passOn_only t s.heard).tracker
          rw [← State.heard_ctx i s, State.ctx, State.ctx, this]

theorem State.request_goes (i : Instr) (src code tag : Byte) (s : State) : s.Goes (s.request i src code tag) := by
  have heard := (State.Keeps.refl s).heard
  exact .inl (.ite (fun _ => .refl s) fun _ => .ite (fun _ => heard.forward _) fun _ => .ite (fun _ => heard)
    fun _ => (heard.endGathering _).admitRequest _ _ _ _)

/-! ### Completions, expiries and the timebase -/

/-- Something done outside reset. -/
theorem State.awake_goes {f : State → State} (h : ∀ s : State, s.Keeps (f s)) (s : State) : s.Goes (s.awake f) :=
  .inl (.ite (fun _ => .refl s) fun _ => h s)

/-- Something done at the expiry of a phase timer. -/
theorem State.Keeps.onExpiry (k : a.Keeps s) {i : Slot} {p : Phase} {f : State → State}
    (h : s.timed i p = true → a.Keeps (f s)) : a.Keeps (s.onExpiry i p f) := .ite h fun _ => k

theorem State.Keeps.decisionLimit (k : a.Keeps s) (i : Slot) : a.Keeps (s.decisionLimit i) :=
  k.onExpiry fun h => State.Keeps.settle (k.park fun c hc undecided => undecided (by
    simp only [State.timed, hc, Option.any_some, Bool.and_eq_true, beq_iff_eq] at h
    exact h.1)) _

theorem State.Keeps.wrapLimit (k : a.Keeps s) (i : Slot) : a.Keeps (s.wrapLimit i) :=
  k.onExpiry fun _ => by
    split
    · exact (k.failWrap _ _ _).settle _
    · exact k

theorem State.Keeps.labelLimit (k : a.Keeps s) (i : Slot) : a.Keeps (s.labelLimit i) :=
  k.onExpiry fun _ => by
    split
    · exact k.failLabel _ _ _
    · exact k

/-- A line that is taken ISOLATED holds the mode it had (R178). -/
theorem State.Keeps.isolate (k : a.Keeps s) : a.Keeps s.isolate := by
  refine State.Keeps.settle (State.Keeps.modeReport (State.Keeps.handAll ?_ _ _) _ _) _
  refine k.onCtl (fun ⟨_, held, kept⟩ => ⟨fun _ => rfl, ?_, ?_⟩) id <;> dsimp only
  · by_cases m : s.ctl.mode = .isolated
    · simpa [m] using held
    · simp [m]
  · by_cases m : s.ctl.mode = .isolated
    · simpa [m] using kept
    · simp [m]

theorem State.Keeps.period (k : a.Keeps s) : a.Keeps s.period := by
  refine k.trans { State.Keeps.refl s with holds := fun t => ⟨t.order, t.room⟩, slots := fun i d hd => ?_ }
  obtain ⟨c, hc, rfl⟩ : ∃ c, s.ctx i = some c ∧ { c with timer := tick c.timer } = d := by
    simpa [State.ctx, State.period] using hd
  exact ⟨c, hc, .of_same rfl rfl rfl (.inl rfl)⟩

theorem State.Keeps.releaseReset (k : a.Keeps s) (strap : BitVec 5) : a.Keeps (s.releaseReset strap) :=
  .ite (fun _ => State.Keeps.onRing (k.onCtl (fun c => c) id) _) fun _ => k

end

/-! ### Every command has a next state, and what it keeps -/

theorem exec_goes (c : Instr) (s : State) : ∃ t, exec c s = .next t ∧ (s.Goes t ∨ t = s.assertReset) := by
  cases c with
  | reset => exact ⟨_, rfl, .inr rfl⟩
  | resetRelease => exact ⟨_, rfl, .inl (.inl ((State.Keeps.refl s).releaseReset _))⟩
  | invalidTelegram bytes =>
    refine ⟨_, rfl, .inl ?_⟩
    split
    · exact .inl (.refl s)
    · exact s.arrive_goes _
  | ringOutFree => exact ⟨_, rfl, .inl (State.awake_goes (fun s => (State.Keeps.refl s).chooseNext) s)⟩
  | compositionComplete =>
    exact ⟨_, rfl, .inl (State.awake_goes (fun s =>
      .ite (fun _ => (State.Keeps.refl s).completeComposition) fun _ => .refl s) s)⟩
  | scanSilenceExpiry i =>
    exact ⟨_, rfl, .inl (State.awake_goes (fun s => (State.Keeps.refl s).onExpiry fun _ =>
      ((State.Keeps.refl s).truncateScan i).settle _) s)⟩
  | measureLimitExpiry i =>
    exact ⟨_, rfl, .inl (State.awake_goes (fun s => (State.Keeps.refl s).onExpiry fun _ =>
      ((State.Keeps.refl s).measureExpired i).settle _) s)⟩
  | decisionLimitExpiry i =>
    exact ⟨_, rfl, .inl (State.awake_goes (fun s => (State.Keeps.refl s).decisionLimit i) s)⟩
  | wrapWaitLimitExpiry i =>
    exact ⟨_, rfl, .inl (State.awake_goes (fun s => (State.Keeps.refl s).onExpiry fun _ =>
      (((State.Keeps.refl s).stopTimer i).handSlot i _).settle _) s)⟩
  | carMoveLimitExpiry i =>
    exact ⟨_, rfl, .inl (State.awake_goes (fun s => (State.Keeps.refl s).onExpiry fun _ =>
      .ite (fun _ => (State.Keeps.refl s).failMove _) fun _ => .refl s) s)⟩
  | wrapLimitExpiry i => exact ⟨_, rfl, .inl (State.awake_goes (fun s => (State.Keeps.refl s).wrapLimit i) s)⟩
  | warmUpEnd w =>
    exact ⟨_, rfl, .inl (State.awake_goes (fun s =>
      .ite (fun _ => ((State.Keeps.refl s).endWarmUp w).settle _) fun _ => .refl s) s)⟩
  | labelLimitExpiry i => exact ⟨_, rfl, .inl (State.awake_goes (fun s => (State.Keeps.refl s).labelLimit i) s)⟩
  | exitLimitExpiry i =>
    exact ⟨_, rfl, .inl (State.awake_goes (fun s => (State.Keeps.refl s).onExpiry fun _ =>
      (State.Keeps.refl s).exitExpired i) s)⟩
  | currencyWindowExpiry =>
    exact ⟨_, rfl, .inl (State.awake_goes (fun s =>
      .ite (fun _ => State.Keeps.setCurrency (State.Keeps.refl s).onHolds_same _) fun _ => .refl s) s)⟩
  | ringSilenceExpiry =>
    exact ⟨_, rfl, .inl (State.awake_goes (fun s =>
      have silent := (State.Keeps.refl s).onRing fun r => { r with silence := none }
      .ite (fun _ => .ite (fun _ => silent) fun _ => silent.isolate) fun _ => .refl s) s)⟩
  | timebasePeriod => exact ⟨_, rfl, .inl (State.awake_goes (fun s => (State.Keeps.refl s).period) s)⟩
  | ringInTelegram | tagRead | tunnelStart | caseRead | tunnelEnd | measure | scaleChecked | moveDone | moveFault
  | carReady | spurState | wrapperReady | standby | wrapStarted | wrapDone | wrapFault | jobTaken | palletAtLabel
  | applied | applyFault | rejectApplicatorApplied | rejectApplicatorFault | routed | mgmtRequestPart
  | unknownRequestCode => exact ⟨_, rfl, .inl (s.arrive_goes _)⟩
  | _ => exact ⟨_, rfl, .inl (s.request_goes _ _ _ _)⟩

/-- A step idles, resets the part or goes on from the state without its command. -/
theorem step_cases {s t : State} (h : step s = .next t) :
    t = s ∨ ∃ rest, { s with pending := rest }.Goes t ∨ t = ({ s with pending := rest } : State).assertReset := by
  unfold step at h
  split at h
  · exact .inl (Host.Outcome.next.inj h).symm
  next c rest _ =>
    obtain ⟨u, e, goes⟩ := exec_goes c { s with pending := rest }
    obtain rfl : u = t := Host.Outcome.next.inj (e.symm.trans h)
    exact .inr ⟨rest, goes⟩

/-- A property of the state that does not look at the queue of commands, holds after reset and is kept by an admission and by
what `State.Keeps` relates, is kept by every step. -/
theorem step_keeps {P : State → Prop} (queue : ∀ s rest, P s → P { s with pending := rest }) (reset : P State.reset)
    (keeps : ∀ {s t : State}, s.Keeps t → P s → P t) (admits : ∀ {s t : State}, s.Admits t → P s → P t)
    {s t : State} (hs : P s) (h : step s = .next t) : P t := by
  rcases step_cases h with rfl | ⟨rest, (k | ⟨u, v, k, -, opened, l⟩) | rfl⟩
  · exact hs
  · exact keeps k (queue s rest hs)
  · exact keeps l (admits opened (keeps k (queue s rest hs)))
  · exact queue _ _ reset

/-! ### The invariants as properties of blocks -/

theorem State.tableInv_iff {s : State} : s.TableInv ↔ s.refs.Tidy ∧ s.holds.Tidy :=
  ⟨fun h => ⟨⟨h.articles, h.consignments, h.plans, h.licences, h.planSlots, h.articleRoom, h.consignRoom⟩,
    ⟨h.holdOrder, h.holdRoom⟩⟩, fun ⟨t, u⟩ => ⟨t.articles, t.consignments, t.plans, t.licences, t.planSlots, u.order,
    t.articleRoom, t.consignRoom, u.room⟩⟩

theorem State.Keeps.tableInv {s t : State} (k : s.Keeps t) (h : s.TableInv) : t.TableInv := by
  obtain ⟨refs, holds⟩ := State.tableInv_iff.mp h
  exact State.tableInv_iff.mpr ⟨k.refs refs, k.holds holds⟩

theorem State.Keeps.numberInv {s t : State} (k : s.Keeps t) (h : s.NumberInv) : t.NumberInv :=
  ⟨k.generation h.generation, k.reportSeq h.reportSeq, k.admission h.nextAdm, k.serial h.nextSerial,
    k.release h.nextRelease⟩

theorem State.Keeps.waitingInv {s t : State} (k : s.Keeps t) (h : s.WaitingInv) : t.WaitingInv := fun i d hd => by
  obtain ⟨c, hc, r⟩ := k.slots i d hd
  exact r.undecided (h i c hc)

theorem State.Admits.waitingInv {s t : State} (k : s.Admits t) (h : s.WaitingInv) : t.WaitingInv := by
  obtain ⟨i, n, licence, l, -, rfl⟩ := k
  intro j d hd
  rw [State.ctx_putCtx] at hd
  split at hd
  · cases hd; exact fun _ => rfl
  · exact h j d hd

theorem State.Admits.tableInv {s t : State} (k : s.Admits t) (h : s.TableInv) : t.TableInv := by
  obtain ⟨i, n, licence, l, -, rfl⟩ := k
  exact State.tableInv_iff.mpr ((State.tableInv_iff (s := s)).mp h)

theorem State.Admits.numberInv {s t : State} (k : s.Admits t) (h : s.NumberInv) : t.NumberInv := by
  obtain ⟨i, n, licence, l, -, rfl⟩ := k
  exact ⟨h.generation, h.reportSeq, h.nextAdm, h.nextSerial, h.nextRelease⟩

theorem State.Admits.ctl {s t : State} (k : s.Admits t) : t.ctl = s.ctl := by
  obtain ⟨i, n, licence, l, -, rfl⟩ := k
  rfl

/-! ### The state after reset -/

theorem State.reset_tableInv : State.reset.TableInv := by
  constructor <;> first | exact .nil | decide

theorem State.reset_waitingInv : State.reset.WaitingInv := by
  intro i c h
  simp [State.ctx, State.reset] at h

theorem Params.default_inRange : Params.default.InRange := by
  intro n v h
  unfold Params.get at h
  split at h <;> cases h <;> decide

/-- A context open before and after a change that keeps, with one of its admission (R92). -/
theorem State.Keeps.verdict_le {s t : State} (k : s.Keeps t) (h : s.WaitingInv) {i : Slot} {c d : Context} {v : Verdict}
    (hc : s.ctx i = some c) (hd : t.ctx i = some d) (hv : c.verdict = some v) :
    ∃ w, d.verdict = some w ∧ v.le w ∧ ∀ r ∈ c.reasons, r ∈ d.reasons := by
  obtain ⟨c', hc', r⟩ := k.slots i d hd
  obtain rfl : c = c' := Option.some.inj (hc.symm.trans hc')
  exact r.verdict (h i c hc) v hv

/-- The same over a whole command: a context admitted by it was not open before. -/
theorem State.Goes.verdict_le {s t : State} (g : s.Goes t) (h : s.WaitingInv) {i : Slot} {c d : Context} {v : Verdict}
    (hc : s.ctx i = some c) (hd : t.ctx i = some d) (hv : c.verdict = some v) :
    ∃ w, d.verdict = some w ∧ v.le w ∧ ∀ r ∈ c.reasons, r ∈ d.reasons := by
  rcases g with k | ⟨u, w, k, same, opened, l⟩
  · exact k.verdict_le h hc hd hv
  · have hu : u.ctx i = some c := (same i).trans hc
    have inv := opened.waitingInv (k.waitingInv h)
    obtain ⟨j, n, licence, m, free, rfl⟩ := opened
    have ne : j ≠ i := by rintro rfl; rw [free] at hu; cases hu
    exact l.verdict_le inv ((State.ctx_putCtx_of_ne ne _ _).trans hu) hd hv

end Sys2Proof.Machine

namespace Sys2Proof.Proofs

open Sys2Proof Sys2Proof.Machine

/-- Settles O2: each command has a next state, and none touches the queue. -/
theorem everyCommandGoesOn : Obligations.EveryCommandGoesOn := by
  unfold Obligations.EveryCommandGoesOn
  intro c s
  obtain ⟨t, e, (k | ⟨u, v, k, -, opened, l⟩) | rfl⟩ := exec_goes c s
  · exact ⟨t, e, k.pending⟩
  · obtain ⟨i, n, licence, m, -, rfl⟩ := opened
    exact ⟨t, e, l.pending.trans k.pending⟩
  · exact ⟨_, e, rfl⟩

/-- Settles O16, by what every operation keeps of the mode and the REJECT_ALL level. -/
theorem modeKept : Obligations.ModeKept := by
  unfold Obligations.ModeKept
  intro s t inv h
  exact step_keeps (P := fun s => s.ctl.Consistent) (fun _ _ => id) (by simp [ModeControl.Consistent, State.reset])
    (fun k => k.modes) (fun k c => by rw [k.ctl]; exact c) inv h

/-- Settles O18, by what every operation keeps of the wrapping numbers and the parameters. -/
theorem numbersAndParametersKept : Obligations.NumbersAndParametersKept := by
  unfold Obligations.NumbersAndParametersKept
  refine ⟨fun s t inv h => ?numbers, fun s t inv h => ?params⟩
  case numbers =>
    exact step_keeps (fun _ _ n => ⟨n.generation, n.reportSeq, n.nextAdm, n.nextSerial, n.nextRelease⟩)
      (by constructor <;> decide) (fun k => k.numberInv) (fun k => k.numberInv) inv h
  case params =>
    exact step_keeps (P := fun s => s.ctl.params.InRange) (fun _ _ => id) Params.default_inRange
      (fun k => k.params) (fun k c => by rw [k.ctl]; exact c) inv h

/-- Settles O19, by what every operation keeps of the tables and the hold list. -/
theorem tablesKept : Obligations.TablesKept := by
  unfold Obligations.TablesKept
  intro s t inv h
  exact step_keeps (fun u _ t => State.tableInv_iff.mpr ((State.tableInv_iff (s := u)).mp t)) State.reset_tableInv
    (fun k => k.tableInv) (fun k => k.tableInv) inv h

/-- Settles O20: an open context only rises, and one admitted by the step was not open before it. -/
theorem verdictsOnlyRise : Obligations.VerdictsOnlyRise := by
  unfold Obligations.VerdictsOnlyRise
  refine ⟨fun s t inv h => ?waiting, fun s t i c d v inv h hc hd _ hv => ?rise⟩
  case waiting =>
    exact step_keeps (fun _ _ => id) State.reset_waitingInv (fun k => k.waitingInv) (fun k => k.waitingInv) inv h
  case rise =>
    rcases step_cases h with rfl | ⟨rest, goes | rfl⟩
    · obtain rfl : c = d := Option.some.inj (hc.symm.trans hd)
      exact ⟨v, hv, Nat.le_refl _, fun _ => id⟩
    · exact goes.verdict_le inv hc hd hv
    · simp [State.ctx, State.assertReset, State.reset] at hd

end Sys2Proof.Proofs
end

