-- ==== Sys2Proof/Proofs/Slice0/Reset.lean ====
section
/-! The queue of commands, the reset pin and the timebase (R181). -/

namespace Sys2Proof.Proofs

open Sys2Proof Sys2Proof.Machine

theorem awake_of_inReset {s : State} (f : State → State) (h : s.ctl.inReset = true) : s.awake f = s := if_pos h

theorem awake_of_released {s : State} (f : State → State) (h : s.ctl.inReset = false) : s.awake f = f s :=
  if_neg (by simp [h])

theorem arrive_of_inReset {s : State} (t : Telegram) (h : s.ctl.inReset = true) : s.arrive t = s :=
  if_pos (by simp [h])

theorem request_of_inReset {s : State} (i : Instr) (src code tag : Byte) (h : s.ctl.inReset = true) :
    s.request i src code tag = s := if_pos h

/-- Nothing but the reset pin acts while it is asserted (R181). -/
theorem exec_of_inReset {s : State} (c : Instr) (h : s.ctl.inReset = true) (reset : c ≠ .reset)
    (release : ∀ strap, c ≠ .resetRelease strap) : exec c s = .next s := by
  cases c with
  | reset => exact absurd rfl reset
  | resetRelease strap => exact absurd rfl (release strap)
  | invalidTelegram bytes =>
    show Host.Outcome.next _ = _
    split
    · rfl
    · rw [arrive_of_inReset _ h]
  | ringOutFree | compositionComplete | scanSilenceExpiry | measureLimitExpiry | decisionLimitExpiry
  | wrapWaitLimitExpiry | carMoveLimitExpiry | wrapLimitExpiry | warmUpEnd | labelLimitExpiry | exitLimitExpiry
  | currencyWindowExpiry | ringSilenceExpiry | timebasePeriod =>
    exact congrArg _ (awake_of_inReset _ h)
  | ringInTelegram | tagRead | tunnelStart | caseRead | tunnelEnd | measure | scaleChecked | moveDone | moveFault
  | carReady | spurState | wrapperReady | standby | wrapStarted | wrapDone | wrapFault | jobTaken | palletAtLabel
  | applied | applyFault | rejectApplicatorApplied | rejectApplicatorFault | routed | mgmtRequestPart
  | unknownRequestCode =>
    exact congrArg _ (arrive_of_inReset _ h)
  | _ => exact congrArg _ (request_of_inReset _ _ _ _ h)

/-- Settles O1: `step` takes the queue of commands apart. -/
theorem stepRunsFront : Obligations.StepRunsFront := by
  unfold Obligations.StepRunsFront
  constructor
  · intro c rest s h
    unfold step
    rw [h]
  · intro s h
    unfold step
    rw [h]

/-- Settles O3: the reset values are read off the state after reset, and no command acts before the release. -/
theorem resetAndRelease : Obligations.ResetAndRelease := by
  unfold Obligations.ResetAndRelease
  refine ⟨fun s => ?values, fun s strap => ⟨fun h => ?release, fun h => ?keeps⟩, fun s c h r rr => exec_of_inReset c h r rr⟩
  case values =>
    refine ⟨_, rfl, rfl, ?_⟩
    simp [State.assertReset, State.reset, State.ctx, State.queue, State.scale, State.wrapper, LaneRecord.reset]
  case release =>
    exact ⟨_, congrArg Host.Outcome.next (if_pos h), rfl, rfl, by constructor <;> simp⟩
  case keeps => exact congrArg Host.Outcome.next (if_neg (by simp [h]))

/-- Settles O4: a period ticks the timers of the contexts, the wrappers, the list and the ring. -/
theorem timebaseCounts : Obligations.TimebaseCounts := by
  unfold Obligations.TimebaseCounts
  intro s h
  refine ⟨s.period, congrArg Host.Outcome.next (awake_of_released _ h), ?_⟩
  simp [State.period, State.ctx, State.wrapper, tick, Config.max48]
  constructor <;> simp

/-- Settles O21: every list of the state after reset is empty and every count at its first value. -/
theorem invariantsAtReset : Obligations.InvariantsAtReset := by
  unfold Obligations.InvariantsAtReset
  refine ⟨?mode, ?capacity, ?number, ?pending, State.reset_tableInv, State.reset_waitingInv, rfl, Params.default_inRange⟩
  case mode => simp [State.ModeInv, State.reset]
  case capacity => constructor <;> decide
  case number => constructor <;> decide
  case pending => exact ⟨Nat.zero_le _, fun h => absurd rfl h⟩

end Sys2Proof.Proofs
end

