-- ==== Sys2Proof/Proofs/Slice0/HeldOrder.lean ====
section
/-! A state within every ceiling whose next step exceeds one. The invariant does not say that the wrappers of a label
line's held-output order feed that line, so the release that a closure on line 1 makes can fill line 2, which is full. -/

namespace Sys2Proof.Proofs

open Sys2Proof Sys2Proof.Machine

/-- A context of label line 1 whose exit_limit has been counted. -/
def leavingContext : Context :=
  { Context.atAdmission 1 none 0 with phase := .exiting, timer := some 0, route := some .lateReject }

/-- Label line 1 holds that context, label line 2 three others, and a wrapper of line 2 stands in the held-output order
of line 1. -/
def misfiledHold : State :=
  { State.reset with
    ctl := { State.reset.ctl with inReset := false }
    tracker :=
      { State.reset.tracker with
        slots := (State.reset.tracker.slots.set 0 (some leavingContext)).set 1 (some (Context.atAdmission 2 none 0)) }
    labels := { State.reset.labels with lines := #v[[0], [2, 3, 4]] }
    alloc :=
      { State.reset.alloc with
        held := #v[[2], []]
        wrappers := State.reset.alloc.wrappers.set 2 { Wrapper.reset with pallet := .context ⟨1, 2⟩ } }
    pending := [.exitLimitExpiry 0] }

theorem misfiledHold_capacityInv : misfiledHold.CapacityInv := by
  constructor <;> decide +kernel

/-- The contexts of label line 2 in the state after a step. -/
def secondLineAfter : Host.Outcome State Fault Refusal → Nat
  | .next t => (t.line 1).length
  | _ => 0

theorem misfiledHold_fills : secondLineAfter (step misfiledHold) = 4 := by decide +kernel

/-- Refutes O17: from a state within its ceilings a wrapper misfiled in the held-output order of label line 1 makes
label line 2 hold a fourth context. -/
theorem not_capacitiesKept : ¬ Obligations.CapacitiesKept := by
  unfold Obligations.CapacitiesKept
  rintro ⟨kept, -⟩
  have fills := misfiledHold_fills
  cases e : step misfiledHold with
  | next t =>
    have room : (t.line 1).length ≤ Config.labelLineMax := (kept _ t misfiledHold_capacityInv e).lines 1
    rw [e] at fills
    change (t.line 1).length = 4 at fills
    rw [fills] at room
    exact absurd room (by decide)
  | _ => rw [e] at fills; cases fills

end Sys2Proof.Proofs
end

