-- ==== Sys2Proof/Proofs/Slice0/Requests.lean ====
section
/-! A request taken by its owner: the command that carries it ends in the owner's answer, formed as a reply. -/

namespace Sys2Proof.Proofs

open Sys2Proof Sys2Proof.Machine

/-- While the ring-silence timer runs, a telegram that arrives does no more than restart it. -/
theorem heard_of_timed {s : State} (h : s.ring.silence.isSome = true) : s.heard = s.arrived := by
  simp [State.heard, State.arrived, Option.isSome_iff_ne_none.mp h]

/-- A request that the part hears, with room for its reply, and that its source may make, reaches its owner. -/
theorem request_of_permits {src code : Byte} {s : State} (hears : s.Hears src) (room : s.mgmt.replies.length < 16)
    (i : Instr) (tag : Byte) (may : s.permits src code (s.isClaim i) = true) :
    s.request i src code tag = (s.taken src).answer i src code tag := by
  obtain ⟨⟨awake, active, timed⟩, other⟩ := hears
  have heard : s.heard = s.arrived := heard_of_timed timed
  have may : (s.taken src).permits src code ((s.taken src).isClaim i) = true := may
  have free : (s.taken src).repliesFull = false := decide_eq_false (Nat.not_le.mpr room)
  have active : s.arrived.passive = false := active
  have other : ¬ src = s.arrived.ownAddress := other
  have ended : State.endGathering src s.arrived = s.taken src := rfl
  simp [State.request, awake, heard, active, other, ended, State.admitRequest, may, free]

/-- A request taken by its owner: the command ends in the owner's answer. -/
theorem exec_of_serve {i : Instr} {src code tag : Byte} {s t : State} {x : Status} {r : Result} (takes : s.Takes src code)
    (carried : exec i s = .next (s.request i src code tag))
    (ordinary : ∀ u : State, u.answer i src code tag =
      (u.serve i).state.answered src code tag (u.serve i).status (u.serve i).result)
    (served : (s.taken src).serve i = ⟨t, x, r⟩) : exec i s = .next (t.answered src code tag x r) := by
  rw [carried, State.request_of_takes takes, ordinary, served]

/-- A request from a part of the ring that may make it. -/
theorem exec_of_permits {i : Instr} {src code tag : Byte} {s t : State} {x : Status} {r : Result} (hears : s.Hears src)
    (room : s.mgmt.replies.length < 16) (may : s.permits src code (s.isClaim i) = true)
    (carried : exec i s = .next (s.request i src code tag))
    (ordinary : ∀ u : State, u.answer i src code tag =
      (u.serve i).state.answered src code tag (u.serve i).status (u.serve i).result)
    (served : (s.taken src).serve i = ⟨t, x, r⟩) : exec i s = .next (t.answered src code tag x r) := by
  rw [carried, request_of_permits hears room i tag may, ordinary, served]

end Sys2Proof.Proofs
end

