-- ==== Sys2Proof/Proofs/Slice0/Articles.lean ====
section
/-! The articles and the consignments (R3 to R6, R8, R9). -/

namespace Sys2Proof.Machine

open Sys2Proof

/-! ### What a search of a table finds after an entry is put in it -/

section
variable {α : Type} {same before : α → α → Prop} [∀ a, DecidablePred (same a)] [∀ a, DecidablePred (before a)]
  {join : α → α → α} {a : α} {p : α → Bool}

/-- A search that passes over the entry put in, and over the one of its key, finds what it found. -/
theorem find?_putInOrder_of_passes (new : p a = false)
    (joined : ∀ x, same a x → p x = false ∧ p (join a x) = false) (l : List α) :
    (putInOrder same before join a l).find? p = l.find? p := by
  induction l with
  | nil => simp [putInOrder, new]
  | cons x xs ih =>
    unfold putInOrder
    split
    next e => simp [(joined x e).1, (joined x e).2]
    next =>
      split
      · simp [new]
      · simp [List.find?_cons, ih]

/-- A search for the key finds the entry put in. -/
theorem find?_putInOrder_of_keeps (new : p a = true) (keeps : ∀ x, join a x = a) (meets : ∀ x, p x = true → same a x)
    (l : List α) : (putInOrder same before join a l).find? p = some a := by
  induction l with
  | nil => simp [putInOrder, new]
  | cons x xs ih =>
    unfold putInOrder
    split
    next e => simp [keeps, new]
    next ne =>
      split
      · simp [new]
      · have : p x = false := Bool.eq_false_iff.mpr fun h => ne (meets x h)
        simp [this, ih]

/-- In a list in key order a search for the key finds the entry put in, joined with the one it found before. -/
theorem find?_putInOrder (o : KeyOrder same before join) {l : List α} (order : l.Pairwise before)
    (meets : ∀ x, p x = true ↔ same a x) (new : p a = true) (joined : ∀ x, same a x → p (join a x) = true) :
    (putInOrder same before join a l).find? p = some (((l.find? p).map (join a)).getD a) := by
  induction l with
  | nil => simp [putInOrder, new]
  | cons x xs ih =>
    obtain ⟨hx, hxs⟩ := List.pairwise_cons.mp order
    unfold putInOrder
    split
    next e => simp [(meets x).mpr e, joined x e]
    next ne =>
      have px : p x = false := Bool.eq_false_iff.mpr fun h => ne ((meets x).mp h)
      split
      next lt =>
        have none : xs.find? p = none := List.find?_eq_none.mpr fun y hy py =>
          (o.strict ((meets y).mp py)).2 (o.trans lt (hx y hy))
        simp [new, px, none]
      next => simp [px, ih hxs]

end

/-! ### Articles (R3, R4, R5) -/

@[simp] theorem isArticleKey_iff {k : Text} : isArticleKey k = true ↔ isDigits 14 k = true ∧ k ≠ anyArticle := by
  simp [isArticleKey]

@[simp] theorem isConsignmentNumber_iff {n : Text} :
    isConsignmentNumber n = true ↔ isDigits 8 n = true ∧ n ≠ noConsignment := by
  simp [isConsignmentNumber]

@[simp] theorem inRange_iff {lo hi n : Nat} : inRange lo hi n = true ↔ lo ≤ n ∧ n ≤ hi := by simp [inRange]

theorem boolOfCode_isSome {b : Byte} {d : Bool} (h : boolOfCode b = some d) : b = 1 ∨ b = 2 := by
  unfold boolOfCode at h
  split at h
  · exact .inl ‹_›
  · split at h
    · exact .inr ‹_›
    · cases h

theorem articleEntry_of_inRange {f : ArticleFields} (h : f.InRange) : articleEntry f = some f.entry := by
  obtain ⟨digits, free, text, w1, w2, tol, c1, c2, l1, l2, vol, d | d⟩ := h <;>
    simp [articleEntry, boolOfCode, ArticleFields.entry, *]

theorem articleEntry_of_not_inRange {f : ArticleFields} (h : ¬ f.InRange) : articleEntry f = none := by
  refine Option.eq_none_iff_forall_ne_some.mpr fun a e => h ?_
  unfold articleEntry at e
  split at e
  next d hd =>
    split at e
    next fits =>
      simp only [Bool.and_eq_true, isArticleKey_iff, inRange_iff] at fits
      have dutiable := boolOfCode_isSome hd
      unfold ArticleFields.InRange
      grind
    next => cases e
  next => cases e

theorem find?_putArticle (a : Article) (k : Text) (l : List Article) :
    (putArticle a l).find? (fun x => x.key == k) =
      if k = a.key then some a else l.find? fun x => x.key == k := by
  rw [putArticle_eq]
  split
  next e =>
    exact find?_putInOrder_of_keeps (by simp [e]) (fun _ => rfl) (fun x h => (e ▸ beq_iff_eq.mp h).symm) l
  next ne =>
    have other : (a.key == k) = false := beq_eq_false_iff_ne.mpr fun e => ne e.symm
    exact find?_putInOrder_of_passes (p := fun x : Article => x.key == k) other (fun x (e : a.key = x.key) => ⟨e ▸ other, other⟩) l

/-! ### Consignments (R6, R8, R9) -/

theorem consignmentEntry_of_inRange {f : ConsignmentFields} (h : f.InRange) :
    consignmentEntry f = some (f.entry ⟨0, 0, 0, 0⟩) := by
  obtain ⟨digits, free, text, l1, l2, duty, template, b1, b2, recipe⟩ := h
  have shelf : min 730 f.minShelfLife = if 730 < f.minShelfLife then 730 else f.minShelfLife := by grind
  have sightings : max 1 (min 8 f.sightings) =
      if f.sightings = 0 then 1 else if 8 < f.sightings then 8 else f.sightings := by grind
  have small : f.labelTemplate < 16 := by omega
  have same : (⟨f.labelTemplate, small⟩ : TemplateNo) = Fin.ofNat 16 f.labelTemplate :=
    Fin.ext (Nat.mod_eq_of_lt small).symm
  rcases duty with d | d <;>
    simp [consignmentEntry, ConsignmentFields.entry, *]

theorem consignmentEntry_of_not_inRange {f : ConsignmentFields} (h : ¬ f.InRange) : consignmentEntry f = none := by
  refine Option.eq_none_iff_forall_ne_some.mpr fun c e => h ?_
  simp only [consignmentEntry] at e
  split at e
  next => cases e
  next d hd =>
    split at e
    next =>
      split at e
      next fits =>
        simp only [Bool.and_eq_true, isConsignmentNumber_iff, inRange_iff] at fits
        have duty : f.dutyStatus = 1 ∨ f.dutyStatus = 2 := by grind
        unfold ConsignmentFields.InRange
        grind
      next => cases e
    next => cases e

theorem consignmentClamped_iff (f : ConsignmentFields) : consignmentClamped f = true ↔ ¬ f.Unclamped := by
  simp only [consignmentClamped, ConsignmentFields.Unclamped, Bool.or_eq_true, decide_eq_true_eq]
  omega

theorem find?_putConsignment {l : List Consignment} (c : Consignment) (n : Text)
    (order : l.Pairwise fun a b => ltText a.number b.number = true) :
    (putConsignment c l).find? (fun x => x.number == n) =
      if n = c.number then
        some { c with totals := ((l.find? fun x => x.number == n).map (·.totals)).getD c.totals }
      else l.find? fun x => x.number == n := by
  rw [putConsignment_eq]
  split
  next e =>
    rw [find?_putInOrder consignmentOrder order (fun x => by rw [beq_iff_eq, e]; exact eq_comm) (by simp [e]) (by simp [e])]
    cases l.find? fun x => x.number == n <;> rfl
  next ne =>
    have other : (c.number == n) = false := beq_eq_false_iff_ne.mpr fun e => ne e.symm
    exact find?_putInOrder_of_passes (p := fun x : Consignment => x.number == n) other (fun x (e : c.number = x.number) => ⟨e ▸ other, other⟩) l

/-! ### The requests -/

section
variable {s : State}

theorem State.articlePut_of_room {f : ArticleFields} (h : f.InRange)
    (room : (s.article f.key).isSome ∨ s.refs.articles.length < 256) :
    s.articlePut f = ⟨s.onRefs fun r => { r with articles := putArticle f.entry r.articles }, .ok, .none⟩ := by
  have room : ¬ ((s.article f.entry.key).isNone = true ∧ Config.articleMax ≤ s.refs.articles.length) := by
    rintro ⟨new, full⟩
    rcases room with old | room
    · exact absurd new (by simpa [Option.isSome_iff_ne_none, ArticleFields.entry] using old)
    · exact absurd full (Nat.not_le.mpr room)
  simp only [State.articlePut, articleEntry_of_inRange h, if_neg room]

theorem State.articlePut_of_full {f : ArticleFields} (h : f.InRange) (new : s.article f.key = none)
    (full : 256 ≤ s.refs.articles.length) : s.articlePut f = s.refuse .full := by
  simp only [State.articlePut, articleEntry_of_inRange h]
  exact if_pos ⟨by simp [ArticleFields.entry, new], full⟩

theorem State.articlePut_of_not_inRange {f : ArticleFields} (h : ¬ f.InRange) :
    s.articlePut f = s.refuse .badField := by
  simp only [State.articlePut, articleEntry_of_not_inRange h]

theorem State.consignmentPut_of_not_inRange {f : ConsignmentFields} (h : ¬ f.InRange) :
    s.consignmentPut f = s.refuse .badField := by
  simp only [State.consignmentPut, consignmentEntry_of_not_inRange h]

theorem State.consignmentPut_of_full {f : ConsignmentFields} (h : f.InRange) (new : s.consignment f.number = none)
    (full : 64 ≤ s.refs.consignments.length) : s.consignmentPut f = s.refuse .full := by
  simp only [State.consignmentPut, consignmentEntry_of_inRange h]
  exact if_pos ⟨by simp [ConsignmentFields.entry, new], full⟩

/-- The state once a consignment's entry is stored. -/
def State.storeConsignment (f : ConsignmentFields) (s : State) : State :=
  s.onRefs fun r => { r with consignments := putConsignment (f.entry ⟨0, 0, 0, 0⟩) r.consignments }

theorem State.consignment_storeConsignment
    (order : s.refs.consignments.Pairwise fun a b => ltText a.number b.number = true) (f : ConsignmentFields) (n : Text) :
    (s.storeConsignment f).consignment n =
      if n = f.number then some (f.entry (((s.consignment f.number).map (·.totals)).getD ⟨0, 0, 0, 0⟩))
      else s.consignment n := by
  rw [State.consignment, State.storeConsignment, State.onRefs_refs,
    find?_putConsignment _ _ order]
  by_cases e : n = f.number
  · subst e; rfl
  · rw [if_neg e]; exact if_neg e

theorem State.consignmentPut_of_room {f : ConsignmentFields} (h : f.InRange)
    (room : (s.consignment f.number).isSome ∨ s.refs.consignments.length < 64) :
    s.consignmentPut f =
      if consignmentClamped f then
        ⟨s.storeConsignment f, .okClamped,
          (((s.storeConsignment f).consignment f.number).map Result.consignment).getD .none⟩
      else ⟨s.storeConsignment f, .ok, .none⟩ := by
  have room : ¬ ((s.consignment (f.entry ⟨0, 0, 0, 0⟩).number).isNone = true
      ∧ Config.consignmentMax ≤ s.refs.consignments.length) := by
    rintro ⟨new, full⟩
    rcases room with old | room
    · exact absurd new (by simpa [Option.isSome_iff_ne_none, ConsignmentFields.entry] using old)
    · exact absurd full (Nat.not_le.mpr room)
  simp only [State.consignmentPut, consignmentEntry_of_inRange h, if_neg room]
  rfl

end

end Sys2Proof.Machine

namespace Sys2Proof.Proofs

open Sys2Proof Sys2Proof.Machine

/-- Settles O46, by what a search of the tables finds after an entry is put in its place. -/
theorem articleAndConsignmentPut : Obligations.ArticleAndConsignmentPut := by
  unfold Obligations.ArticleAndConsignmentPut
  refine ⟨fun s src tag f takes => ⟨fun h room => ?article, fun h new full => ?articleFull, fun h => ?articleField⟩,
    fun s src tag f takes order => ⟨fun h room => ?consignment, fun h new full => ?full, fun h => ?field⟩⟩
  case article =>
    refine ⟨_, exec_of_serve takes rfl (fun _ => rfl) (State.articlePut_of_room h room), ?_, fun k ne => ?_, rfl, rfl,
      rfl, State.onRefs_only _ _⟩
    · exact (find?_putArticle _ _ _).trans (if_pos rfl)
    · exact (find?_putArticle _ _ _).trans (if_neg ne)
  case articleFull =>
    exact exec_of_serve takes rfl (fun _ => rfl) (State.articlePut_of_full h new full)
  case articleField =>
    exact exec_of_serve takes rfl (fun _ => rfl) (State.articlePut_of_not_inRange h)
  case consignment =>
    have served := State.consignmentPut_of_room (s := s.taken src) h room
    have found : ∀ n, _ := State.consignment_storeConsignment (s := s.taken src) order.consignments f
    refine ⟨(s.taken src).storeConsignment f, _, rfl, fun un => ?_, fun cl => ?_, (found _).trans (if_pos rfl),
      fun n ne => (found n).trans (if_neg ne), rfl, rfl, rfl, State.onRefs_only _ _⟩
    · rw [if_neg fun c => (consignmentClamped_iff f).mp c un] at served
      exact exec_of_serve takes rfl (fun _ => rfl) served
    · rw [if_pos ((consignmentClamped_iff f).mpr cl), found, if_pos rfl] at served
      exact exec_of_serve takes rfl (fun _ => rfl) served
  case full => exact exec_of_serve takes rfl (fun _ => rfl) (State.consignmentPut_of_full h new full)
  case field => exact exec_of_serve takes rfl (fun _ => rfl) (State.consignmentPut_of_not_inRange h)

end Sys2Proof.Proofs
end

