-- ==== Sys2Proof/Proofs/Slice0/Tables.lean ====
section
/-! The readings and the deletions of the tables (R1, R4, R5, R8, R9, R15). -/

namespace Sys2Proof.Machine

open Sys2Proof

/-- A search finds the first of the entries it looks for, in a list in key order. -/
theorem find?_of_least {α : Type} {before : α → α → Prop} {p : α → Bool} {l : List α} {a : α}
    (order : l.Pairwise before) (ha : a ∈ l) (pa : p a = true) (least : ∀ b ∈ l, p b = true → b = a ∨ ¬ before b a) :
    l.find? p = some a := by
  induction l with
  | nil => cases ha
  | cons x xs ih =>
    obtain ⟨hx, hxs⟩ := List.pairwise_cons.mp order
    by_cases e : x = a
    · simp [e, pa]
    · have ha : a ∈ xs := (List.mem_cons.mp ha).resolve_left fun h => e h.symm
      have px : p x = false := Bool.eq_false_iff.mpr fun h => (least x (by simp) h).elim e fun n => n (hx a ha)
      rw [List.find?_cons, px]
      exact ih hxs ha fun b hb => least b (by simp [hb])

/-! ### What a search finds once entries are removed -/

theorem find?_filter_of_passes {α : Type} {p q : α → Bool} {l : List α} (h : ∀ x, p x = true → q x = false) :
    (l.filter q).find? p = none :=
  List.find?_eq_none.mpr fun x hx px => by simp [h x px] at hx

theorem find?_filter_of_keeps {α : Type} {p q : α → Bool} {l : List α} (h : ∀ x ∈ l, p x = true → q x = true) :
    (l.filter q).find? p = l.find? p := by
  rw [List.find?_filter]
  exact List.find?_congr fun x hx => by cases e : p x <;> simp [h x hx, e]

/-- In a tidy plan table a licence stands in one slot. -/
theorem slot_eq_of_licence_eq {ps : List Plan} (order : ps.Pairwise fun a b => a.slot < b.slot)
    (distinct : ps.Pairwise fun a b => a.licence ≠ b.licence) {q u : Plan} (hq : q ∈ ps) (hu : u ∈ ps)
    (e : q.licence = u.licence) : q.slot = u.slot := by
  rcases Nat.lt_trichotomy q.slot u.slot with lt | eq | lt
  · exact absurd e (licence_ne_of_slot_lt order distinct hq hu lt)
  · exact eq
  · exact absurd e.symm (licence_ne_of_slot_lt order distinct hu hq lt)

section
variable {s : State}

theorem State.standing_of_other (start : s.ctl.mode ≠ .start) (stopped : s.ctl.mode ≠ .stopped) :
    s.standing = false := by simp [State.standing, start, stopped]

theorem State.standing_of_mode (h : s.ctl.mode = .start ∨ s.ctl.mode = .stopped) : s.standing = true := by
  simpa [State.standing] using h

/-! ### A deletion and a clear that nothing refuses -/

theorem State.articleDelete_of_unnamed {k : Text} (key : isArticleKey k = true) (found : (s.article k).isSome = true)
    (unnamed : (s.refs.plans.any fun p => p.live && p.names k) = false) :
    s.articleDelete k =
      ⟨s.onRefs fun r => { r with articles := r.articles.filter fun a => a.key != k }, .ok, .none⟩ := by
  simp [State.articleDelete, key, Option.isSome_iff_ne_none.mp found, unnamed]

theorem State.consignmentDelete_of_unnamed {n : Text} {c : Consignment} (key : isConsignmentNumber n = true)
    (found : s.consignment n = some c) (unnamed : (s.refs.plans.any fun p => p.live && p.consignment == n) = false) :
    s.consignmentDelete n =
      ⟨s.onRefs fun r => { r with consignments := r.consignments.filter fun x => x.number != n }, .ok,
        .totals c.totals⟩ := by
  simp [State.consignmentDelete, key, found, unnamed]

theorem State.planDelete_of_free {t : Text} {p : Plan} (key : isLicence t = true) (found : s.planOf t = some p)
    (free : p.state ≠ .inUse) :
    s.planDelete t =
      ⟨s.onRefs fun r => { r with plans := r.plans.filter fun q => q.slot != p.slot }, .ok, .none⟩ := by
  simp [State.planDelete, key, found, free]

theorem State.articleClear_of_unnamed (standing : s.standing = true)
    (unnamed : (s.refs.plans.any fun p => p.live && p.lines.any fun l => (s.article l.article).isSome) = false) :
    s.articleClear = ⟨s.onRefs fun r => { r with articles := [] }, .ok, .removed s.refs.articles.length⟩ := by
  simp [State.articleClear, standing, unnamed]

theorem State.consignmentClear_of_unnamed (standing : s.standing = true)
    (unnamed : (s.refs.plans.any fun p => p.live && (s.consignment p.consignment).isSome) = false) :
    s.consignmentClear =
      ⟨s.onRefs fun r => { r with consignments := [] }, .ok, .consignmentsRemoved s.refs.consignments.length⟩ := by
  simp [State.consignmentClear, standing, unnamed]

theorem State.planClear_of_standing (standing : s.standing = true) :
    s.planClear = ⟨s.onRefs fun r => { r with plans := [] }, .ok, .removed s.refs.plans.length⟩ := by
  simp [State.planClear, standing]

end

end Sys2Proof.Machine

namespace Sys2Proof.Proofs

open Sys2Proof Sys2Proof.Machine

/-- Settles O47: a GET searches for its key, a NEXT for the first entry after it in key order. -/
theorem tableReadings : Obligations.TableReadings := by
  unfold Obligations.TableReadings
  refine fun s src tag => ⟨fun k takes => ⟨?_, ?_, ?_⟩, fun k takes order digits => ⟨?_, ?_⟩, fun k takes digits => ?_,
    fun n takes => ⟨?_, ?_, ?_⟩, fun n takes order digits => ⟨?_, ?_⟩, fun n takes digits => ?_,
    fun takes => ⟨?_, ?_, ?_, ?_, ?_, ?_⟩, fun takes order => ⟨?_, ?_, ?_, ?_, ?_⟩⟩
  · intro a digits free found
    exact exec_of_serve takes rfl (fun _ => rfl) (by simp [State.serve, State.articleGet, digits, free, found])
  · intro digits free found
    exact exec_of_serve takes rfl (fun _ => rfl)
      (by simp [State.serve, State.articleGet, State.refuse, digits, free, found])
  · intro bad
    exact exec_of_serve takes rfl (fun _ => rfl) (by
      rcases bad with bad | bad <;> simp [State.serve, State.articleGet, State.refuse, isArticleKey, bad])
  · intro a ha after least
    have found : s.refs.articles.find? (fun a => ltText k a.key) = some a :=
      find?_of_least order.articles ha after fun b hb h => (least b hb h).imp_right fun lt => ltText_asymm lt
    exact exec_of_serve takes rfl (fun _ => rfl) (by simp [State.serve, State.articleNext, digits, found])
  · intro last
    have found : s.refs.articles.find? (fun a => ltText k a.key) = none :=
      List.find?_eq_none.mpr fun a ha => by simp [last a ha]
    exact exec_of_serve takes rfl (fun _ => rfl)
      (by simp [State.serve, State.articleNext, State.refuse, digits, found])
  · exact exec_of_serve takes rfl (fun _ => rfl) (by simp [State.serve, State.articleNext, State.refuse, digits])
  · intro c digits free found
    exact exec_of_serve takes rfl (fun _ => rfl) (by simp [State.serve, State.consignmentGet, digits, free, found])
  · intro digits free found
    exact exec_of_serve takes rfl (fun _ => rfl)
      (by simp [State.serve, State.consignmentGet, State.refuse, digits, free, found])
  · intro bad
    exact exec_of_serve takes rfl (fun _ => rfl) (by
      rcases bad with bad | bad <;> simp [State.serve, State.consignmentGet, State.refuse, isConsignmentNumber, bad])
  · intro c hc after least
    have found : s.refs.consignments.find? (fun c => ltText n c.number) = some c :=
      find?_of_least order.consignments hc after fun b hb h => (least b hb h).imp_right fun lt => ltText_asymm lt
    exact exec_of_serve takes rfl (fun _ => rfl) (by simp [State.serve, State.consignmentNext, digits, found])
  · intro last
    have found : s.refs.consignments.find? (fun c => ltText n c.number) = none :=
      List.find?_eq_none.mpr fun a ha => by simp [last a ha]
    exact exec_of_serve takes rfl (fun _ => rfl)
      (by simp [State.serve, State.consignmentNext, State.refuse, digits, found])
  · exact exec_of_serve takes rfl (fun _ => rfl) (by simp [State.serve, State.consignmentNext, State.refuse, digits])
  · intro t q digits found
    exact exec_of_serve takes rfl (fun _ => rfl)
      (by simp [State.serve, State.planGet, State.showPlan, isLicence, digits, found])
  · intro n q lt found
    exact exec_of_serve takes rfl (fun _ => rfl)
      (by simp [State.serve, State.planGet, State.showPlan, Config.planMax, lt, found])
  · intro t digits found
    exact exec_of_serve takes rfl (fun _ => rfl)
      (by simp [State.serve, State.planGet, State.showPlan, State.refuse, isLicence, digits, found])
  · intro t digits
    exact exec_of_serve takes rfl (fun _ => rfl) (by simp [State.serve, State.planGet, State.refuse, isLicence, digits])
  · intro n lt found
    exact exec_of_serve takes rfl (fun _ => rfl)
      (by simp [State.serve, State.planGet, State.showPlan, State.refuse, Config.planMax, lt, found])
  · intro n le
    exact exec_of_serve takes rfl (fun _ => rfl)
      (by simp [State.serve, State.planGet, State.refuse, Config.planMax, Nat.not_lt.mpr le])
  · intro q first
    exact exec_of_serve takes rfl (fun _ => rfl) (by simp [State.serve, State.planNext, State.showPlan, first])
  · intro n q lt hq after least
    have found : s.refs.plans.find? (fun p => decide (n < p.slot)) = some q :=
      find?_of_least order.plans hq (decide_eq_true after) fun r hr h =>
        .inr (Nat.not_lt.mpr (least r hr (of_decide_eq_true h)))
    exact exec_of_serve takes rfl (fun _ => rfl)
      (by simp [State.serve, State.planNext, State.showPlan, Config.planMax, lt, found])
  · intro n lt last
    have found : s.refs.plans.find? (fun p => decide (n < p.slot)) = none :=
      List.find?_eq_none.mpr fun r hr => by simpa using last r hr
    exact exec_of_serve takes rfl (fun _ => rfl)
      (by simp [State.serve, State.planNext, State.showPlan, State.refuse, Config.planMax, lt, found])
  · intro none
    exact exec_of_serve takes rfl (fun _ => rfl)
      (by simp [State.serve, State.planNext, State.showPlan, State.refuse, none])
  · intro n le
    exact exec_of_serve takes rfl (fun _ => rfl)
      (by simp [State.serve, State.planNext, State.refuse, Config.planMax, Nat.not_lt.mpr le])

/-- Settles O48: a deletion filters the entry of its key out of the table, a clear empties it. -/
theorem tableDeletesAndClears : Obligations.TableDeletesAndClears := by
  unfold Obligations.TableDeletesAndClears
  refine ⟨fun s src tag order => ⟨fun k a takes digits free found => ⟨?_, ?_⟩, fun k takes digits free none => ?_,
    fun k takes bad => ?_, fun n takes digits free none => ?_, fun n takes bad => ?_, fun t takes bad => ?_,
    fun n c takes digits free found => ⟨?_, ?_⟩, fun t q takes digits found => ⟨?_, ?_⟩,
    fun t takes digits none => ?_⟩, fun s src tag => ⟨fun start stopped => ⟨fun takes => ?_, fun takes => ?_, fun takes => ?_⟩,
      fun mode => ⟨fun takes => ⟨?_, ?_⟩, fun takes => ⟨?_, ?_⟩, fun takes => ?_⟩⟩⟩
  · rintro ⟨q, hq, live, l, hl, names⟩
    have named : (s.refs.plans.any fun p => p.live && p.names k) = true :=
      List.any_eq_true.mpr ⟨q, hq, by simpa [Plan.live, Plan.names, live] using ⟨l, hl, names⟩⟩
    exact exec_of_serve takes rfl (fun _ => rfl)
      (by simp [State.serve, State.articleDelete, State.refuse, digits, free, found, named])
  · intro unnamed
    have unnamed : (s.refs.plans.any fun p => p.live && p.names k) = false :=
      List.any_eq_false.mpr fun q hq => by simpa [Plan.live, Plan.names] using unnamed q hq
    refine ⟨_, exec_of_serve takes rfl (fun _ => rfl)
      (State.articleDelete_of_unnamed (isArticleKey_iff.mpr ⟨digits, free⟩) (Option.isSome_of_eq_some found) unnamed), ?_, fun j ne => ?_, rfl, rfl, rfl,
      State.onRefs_only _ _⟩
    · exact find?_filter_of_passes fun x h => by simp [beq_iff_eq.mp h]
    · exact find?_filter_of_keeps fun x _ h => by simp [beq_iff_eq.mp h, ne]
  · exact exec_of_serve takes rfl (fun _ => rfl)
      (by simp [State.serve, State.articleDelete, State.refuse, digits, free, none])
  · exact exec_of_serve takes rfl (fun _ => rfl) (by
      rcases bad with bad | bad <;> simp [State.serve, State.articleDelete, State.refuse, isArticleKey, bad])
  · exact exec_of_serve takes rfl (fun _ => rfl)
      (by simp [State.serve, State.consignmentDelete, State.refuse, digits, free, none])
  · exact exec_of_serve takes rfl (fun _ => rfl) (by
      rcases bad with bad | bad <;> simp [State.serve, State.consignmentDelete, State.refuse, isConsignmentNumber, bad])
  · exact exec_of_serve takes rfl (fun _ => rfl) (by simp [State.serve, State.planDelete, State.refuse, isLicence, bad])
  · rintro ⟨q, hq, live, names⟩
    have named : (s.refs.plans.any fun p => p.live && p.consignment == n) = true :=
      List.any_eq_true.mpr ⟨q, hq, by simp [Plan.live, live, names]⟩
    exact exec_of_serve takes rfl (fun _ => rfl)
      (by simp [State.serve, State.consignmentDelete, State.refuse, digits, free, found, named])
  · intro unnamed
    have unnamed : (s.refs.plans.any fun p => p.live && p.consignment == n) = false :=
      List.any_eq_false.mpr fun q hq => by simpa [Plan.live] using unnamed q hq
    refine ⟨_, exec_of_serve takes rfl (fun _ => rfl)
      (State.consignmentDelete_of_unnamed (isConsignmentNumber_iff.mpr ⟨digits, free⟩) found unnamed), ?_, fun j ne => ?_, rfl, rfl, rfl,
      State.onRefs_only _ _⟩
    · exact find?_filter_of_passes fun x h => by simp [beq_iff_eq.mp h]
    · exact find?_filter_of_keeps fun x _ h => by simp [beq_iff_eq.mp h, ne]
  · intro bound
    exact exec_of_serve takes rfl (fun _ => rfl)
      (by simp [State.serve, State.planDelete, State.refuse, isLicence, digits, found, bound])
  · intro free
    refine ⟨_, exec_of_serve takes rfl (fun _ => rfl)
      (State.planDelete_of_free digits found free), ?_, ?_, fun n ne => ?_, rfl, rfl, rfl,
      State.onRefs_only _ _⟩
    · refine List.find?_eq_none.mpr fun p hp has => ?_
      obtain ⟨hp, slot⟩ := List.mem_filter.mp hp
      obtain ⟨hq, licence⟩ := State.planOf_eq_some found
      have apart := slot_eq_of_licence_eq order.plans order.licences hp hq ((beq_iff_eq.mp has).trans licence.symm)
      simp [apart] at slot
    · exact find?_filter_of_passes fun x h => by simp [beq_iff_eq.mp h]
    · exact find?_filter_of_keeps fun x _ h => by simp [beq_iff_eq.mp h, ne]
  · exact exec_of_serve takes rfl (fun _ => rfl)
      (by simp [State.serve, State.planDelete, State.refuse, isLicence, digits, none])
  · exact exec_of_serve takes rfl (fun _ => rfl)
      (by simp [State.serve, State.articleClear, State.refuse, State.standing_of_other start stopped])
  · exact exec_of_serve takes rfl (fun _ => rfl)
      (by simp [State.serve, State.consignmentClear, State.refuse, State.standing_of_other start stopped])
  · exact exec_of_serve takes rfl (fun _ => rfl)
      (by simp [State.serve, State.planClear, State.refuse, State.standing_of_other start stopped])
  · rintro ⟨q, hq, live, l, hl, names⟩
    have named : (s.refs.plans.any fun p => p.live && p.lines.any fun l => (s.article l.article).isSome) = true :=
      List.any_eq_true.mpr ⟨q, hq, by simpa [Plan.live, live] using ⟨l, hl, names⟩⟩
    exact exec_of_serve takes rfl (fun _ => rfl)
      (by simp [State.serve, State.articleClear, State.refuse, State.standing_of_mode mode, named])
  · intro unnamed
    have unnamed : (s.refs.plans.any fun p => p.live && p.lines.any fun l => (s.article l.article).isSome) = false :=
      List.any_eq_false.mpr fun q hq => by simpa [Plan.live] using unnamed q hq
    exact ⟨_, exec_of_serve takes rfl (fun _ => rfl)
      (State.articleClear_of_unnamed (State.standing_of_mode mode) unnamed), rfl, State.onRefs_only _ _⟩
  · rintro ⟨q, hq, live, names⟩
    have named : (s.refs.plans.any fun p => p.live && (s.consignment p.consignment).isSome) = true :=
      List.any_eq_true.mpr ⟨q, hq, by simp [Plan.live, live, names]⟩
    exact exec_of_serve takes rfl (fun _ => rfl)
      (by simp [State.serve, State.consignmentClear, State.refuse, State.standing_of_mode mode, named])
  · intro unnamed
    have unnamed : (s.refs.plans.any fun p => p.live && (s.consignment p.consignment).isSome) = false :=
      List.any_eq_false.mpr fun q hq => by simpa [Plan.live] using unnamed q hq
    exact ⟨_, exec_of_serve takes rfl (fun _ => rfl)
      (State.consignmentClear_of_unnamed (State.standing_of_mode mode) unnamed), rfl, State.onRefs_only _ _⟩
  · exact ⟨_, exec_of_serve takes rfl (fun _ => rfl)
      (State.planClear_of_standing (State.standing_of_mode mode)), rfl, State.onRefs_only _ _⟩

end Sys2Proof.Proofs
end

