-- ==== Sys2Proof/Proofs/Slice0/Stations.lean ====
section
/-! The station table (R16 to R19). -/

namespace Sys2Proof.Machine

open Sys2Proof

section
variable {s : State} {r : RoleInst}

/-- The holder of a role is the lowest address with it. -/
theorem State.holderOf_of_first {k : Fin 32} (holds : r ∈ s.refs.stations[k])
    (first : ∀ j < k, r ∉ s.refs.stations[j]) : s.holderOf r = some k :=
  find?_of_least (before := (· < ·)) (List.pairwise_lt_finRange 32) (List.mem_finRange k)
    (List.contains_iff_mem.mpr holds) fun j _ hj => .inr fun lt => first j lt (List.contains_iff_mem.mp hj)

theorem State.holderOf_eq_none : s.holderOf r = none ↔ ∀ k : Fin 32, r ∉ s.refs.stations[k] := by
  simp [State.holderOf, allAddresses]

theorem State.mem_of_holderOf {k : Fin 32} (h : s.holderOf r = some k) : r ∈ s.refs.stations[k] :=
  List.contains_iff_mem.mp (List.find?_some h :)

theorem State.stations_setStation (a b : Fin 32) (rs : List RoleInst) :
    (s.setStation a rs).refs.stations[b] = if a = b then rs else s.refs.stations[b] := by
  simp only [State.setStation, State.onRefs, Fin.getElem_fin, Vector.getElem_set, Fin.val_inj]

theorem State.setStation_only (a : Fin 32) (rs : List RoleInst) : State.Only [.refs] s (s.setStation a rs) :=
  State.onRefs_only _ _

theorem mem_addRole {x y : RoleInst} {old : List RoleInst} :
    y ∈ addRole x old ↔ y = x ∨ (y ∈ old ∧ mayStandBeside y x = true) := by
  simp [addRole, or_comm]

theorem State.editable_of_fixed {a : Byte} (h : a.toNat = 0 ∨ 31 ≤ a.toNat ∨ a = s.ownAddress) : s.editable a = none := by
  unfold State.editable
  split
  · exact if_pos (h.imp_right (Or.imp_left fun _ => by omega))
  · rfl

theorem State.editable_of_free {a : Byte} {k : Fin 32} (e : a.toNat = k.val) (low : 1 ≤ k.val) (high : k.val ≤ 30)
    (other : a ≠ s.ownAddress) : s.editable a = some k := by
  have lt : a.toNat < 32 := e ▸ k.isLt
  have free : ¬ (a.toNat = 0 ∨ a.toNat = 31 ∨ a = s.ownAddress) := fun h => h.elim (by omega) fun h => h.elim (by omega) other
  unfold State.editable
  rw [dif_pos lt, if_neg free]
  exact congrArg some (Fin.ext e)

/-- The state once a role has joined an address's entry and left its holder's (R17). -/
def State.withRole (a : Fin 32) (r : RoleInst) (s : State) : State :=
  ((s.holderOf r).elim s fun b => s.setStation b ((s.refs.stations[b]).filter fun x => x != r)).setStation a
    (addRole r s.refs.stations[a])

theorem State.withRole_only (a : Fin 32) (r : RoleInst) (s : State) : State.Only [.refs] s (s.withRole a r) := by
  unfold State.withRole
  cases s.holderOf r with
  | none => exact State.setStation_only _ _
  | some b => exact (State.setStation_only _ _).trans (State.setStation_only _ _)

theorem State.giveRole_of_old {a : Fin 32} (old : r ∈ s.refs.stations[a]) :
    s.giveRole a r = ⟨s, .ok, .stationPut s.refs.stations[a] 0⟩ := if_pos (List.contains_iff_mem.mpr old)

theorem State.giveRole_of_new {a : Fin 32} (new : r ∉ s.refs.stations[a]) :
    s.giveRole a r =
      ⟨s.withRole a r, .ok, .stationPut s.refs.stations[a] (((s.holderOf r).map (·.val)).getD 0)⟩ := by
  have new : (s.refs.stations[a]).contains r = false := by simpa using new
  simp only [State.giveRole, State.withRole, new]
  cases s.holderOf r <;> rfl

theorem State.stations_withRole_self (a : Fin 32) : (s.withRole a r).refs.stations[a] = addRole r s.refs.stations[a] :=
  (State.stations_setStation _ _ _).trans (if_pos rfl)

theorem State.stations_withRole_of_ne {a b : Fin 32} (ne : b ≠ a) :
    (s.withRole a r).refs.stations[b] =
      if s.holderOf r = some b then (s.refs.stations[b]).filter fun x => x != r else s.refs.stations[b] := by
  refine (State.stations_setStation _ _ _).trans ((if_neg ne.symm).trans ?_)
  cases s.holderOf r with
  | none => simp
  | some c =>
    refine (State.stations_setStation _ _ _).trans ?_
    by_cases e : c = b
    · subst e; simp
    · simp [e]

theorem State.tables_withRole (a : Fin 32) : (s.withRole a r).refs.articles = s.refs.articles
    ∧ (s.withRole a r).refs.consignments = s.refs.consignments ∧ (s.withRole a r).refs.plans = s.refs.plans := by
  unfold State.withRole
  cases s.holderOf r <;> exact ⟨rfl, rfl, rfl⟩

end

end Sys2Proof.Machine

namespace Sys2Proof.Proofs

open Sys2Proof Sys2Proof.Machine

/-- The claim of the dispatch system role is permitted while no address holds it (R18). -/
theorem permits_stationPut {s : State} {src tag a r n : Byte}
    (may : s.permits src 0x10 false = true
      ∨ ((∀ b : Fin 32, RoleInst.dispatchSystem ∉ s.refs.stations[b]) ∧ a = src ∧ r = 0x0B)) :
    s.permits src 0x10 (s.isClaim (.stationPut src tag a r n)) = true := by
  rcases may with may | ⟨free, rfl, rfl⟩
  · unfold State.permits at may ⊢
    rw [Bool.or_false] at may
    exact (congrArg (· || _) may).trans (Bool.true_or _)
  · have unheld : s.dispatchHeld = false := by rw [State.dispatchHeld, State.holderOf_eq_none.mpr free]; rfl
    simp [State.permits, State.isClaim, unheld]

/-- Settles O50, by the entries that STATION_PUT leaves and the lowest address with a role. -/
theorem stationRequests : Obligations.StationRequests := by
  unfold Obligations.StationRequests
  refine ⟨fun s src tag a r n hears room may => ?put, fun s src tag takes => ?get⟩
  case put =>
    have exec_put : ∀ {t : State} {x : Status} {y : Result}, (s.taken src).stationPut a r n = ⟨t, x, y⟩ →
        exec (.stationPut src tag a r n) s = .next (t.answered src 0x10 tag x y) :=
      exec_of_permits hears room (permits_stationPut may) rfl fun _ => rfl
    refine ⟨fun start stopped => exec_put ?busy, fun mode => ?standing⟩
    case busy => simp [State.stationPut, State.refuse, State.standing_of_other start stopped]
    have standing : (s.taken src).standing = true := State.standing_of_mode mode
    refine ⟨fun fixed => exec_put ?_, fun k e low high other => ?edit⟩
    · have fixed : (s.taken src).editable a = none := State.editable_of_fixed fixed
      simp [State.stationPut, State.refuse, standing, fixed]
    have free : (s.taken src).editable a = some k := State.editable_of_free e low high other
    refine ⟨fun some bad => exec_put ?_, fun hr hn => ?_, fun x code => ⟨fun has => exec_put ?_, fun new => ?_⟩⟩
    · simp only [State.stationPut, standing, free, if_neg some, bad]
      rfl
    · have emptied : (s.taken src).stationPut a r n =
          ⟨(s.taken src).setStation k [], .ok, .stationPut s.refs.stations[k] 0⟩ := by
        simp [State.stationPut, standing, free, hr, hn]
      exact ⟨_, exec_put emptied, (State.stations_setStation _ _ _).trans (if_pos rfl),
        fun b ne => (State.stations_setStation _ _ _).trans (if_neg ne.symm), State.setStation_only _ _⟩
    all_goals
      have coded : ¬ (r = 0 ∧ n = 0) := by rintro ⟨rfl, rfl⟩; cases code
    · simp only [State.stationPut, standing, free, if_neg coded, code]
      exact State.giveRole_of_old has
    · have given : (s.taken src).stationPut a r n =
          ⟨(s.taken src).withRole k x, .ok,
            .stationPut s.refs.stations[k] (((s.holderOf x).map (·.val)).getD 0)⟩ := by
        simp only [State.stationPut, standing, free, if_neg coded, code]
        exact State.giveRole_of_new new
      obtain ⟨articles, consignments, plans⟩ := State.tables_withRole (s := s.taken src) (r := x) k
      refine ⟨_, _, exec_put given, rfl, fun y => ?_, fun b ne held => ?_, fun b ne held => ?_, articles, consignments,
        plans, State.withRole_only _ _ _⟩
      · rw [State.stations_withRole_self]; exact mem_addRole
      · exact (State.stations_withRole_of_ne ne).trans (if_pos held)
      · exact (State.stations_withRole_of_ne ne).trans (if_neg held)
  case get =>
    have exec_get : ∀ {k : StationKey} {x : Status} {y : Result}, (s.taken src).stationGet k = ⟨s.taken src, x, y⟩ →
        exec (.stationGet src tag k) s = .next ((s.taken src).answered src 0x11 tag x y) :=
      fun {k _ _} h => exec_of_serve (i := .stationGet src tag k) takes rfl (fun _ => rfl) h
    refine ⟨fun k a e => exec_get ?_, fun a high => exec_get (if_neg (Nat.not_lt.mpr high)),
      fun r n some bad => exec_get ?_,
      fun r n x code => ⟨fun k holds first => exec_get ?_, fun unheld => exec_get ?_⟩⟩
    · have lt : a.toNat < 32 := e ▸ k.isLt
      have entry : (s.taken src).rolesAt a = s.refs.stations[k] := by
        obtain rfl : k = ⟨a.toNat, lt⟩ := Fin.ext e.symm
        exact dif_pos lt
      exact (if_pos lt).trans (by rw [entry])
    · simp only [State.stationGet, if_neg some, bad]
      rfl
    all_goals
      have coded : ¬ (r = 0 ∧ n = 0) := by rintro ⟨rfl, rfl⟩; cases code
    · have holder : (s.taken src).holderOf x = some k := State.holderOf_of_first holds first
      simp only [State.stationGet, if_neg coded, code, holder]
    · have holder : (s.taken src).holderOf x = none := State.holderOf_eq_none.mpr unheld
      simp only [State.stationGet, if_neg coded, code, holder]
      rfl

end Sys2Proof.Proofs
end

