-- ==== Sys2Proof/Proofs/Slice0/Footprints.lean ====
section
/-! What the operations of the blocks may change (section 1.3 of spec/00_scope.md). A footprint is put together with
`State.Only.next`: what an operation changes joins the blocks that may differ so far. -/

namespace Sys2Proof.Machine

open Sys2Proof

section
variable {bs cs : List Block} {a s t : State}

/-- A further change within the blocks that may differ. -/
theorem State.Only.next (h : State.Only bs a s) (k : State.Only cs s t) (sub : cs ⊆ bs := by decide) :
    State.Only bs a t := h.trans (k.mono sub)

theorem State.Only.first (k : State.Only cs a s) (sub : cs ⊆ bs := by decide) : State.Only bs a s := k.mono sub

theorem State.Only.foldl {α : Type} {f : State → α → State} (h : ∀ s x, State.Only bs s (f s x)) (l : List α)
    (s : State) : State.Only bs s (l.foldl f s) := by
  induction l generalizing s with
  | nil => exact .refl _ _
  | cons x l ih => exact (h s x).trans (ih _)

end

/-! ### Contexts, the Composer and label jobs -/

theorem State.enter_only (i : Slot) (p : Phase) (t : Option Nat) (s : State) : State.Only [.tracker] s (s.enter i p t) :=
  State.modCtx_only _ _ _

theorem State.stopTimer_only (i : Slot) (s : State) : State.Only [.tracker] s (s.stopTimer i) := State.modCtx_only _ _ _

theorem State.queueComposition_only (id : CtxId) (k : LabelKind) (s : State) :
    State.Only [.tracker, .composer] s (s.queueComposition id k) :=
  (State.onComposer_only _ _).first.next (State.modCtx_only _ _ _)

theorem State.startComposition_only (r : CompRequest) (c : Context) (s : State) :
    State.Only [.tracker, .composer] s (s.startComposition r c) :=
  (State.onComposer_only _ _).first.next (State.modCtx_only _ _ _)

theorem State.startQueued_only (rs : List CompRequest) (s : State) :
    State.Only [.tracker, .composer] s (s.startQueued rs) := by
  induction rs with
  | nil => exact (State.onComposer_only _ _).first
  | cons r rs ih =>
    unfold State.startQueued
    split
    · exact (State.onComposer_only _ _).first.next (State.startComposition_only _ _ _)
    · exact ih

theorem State.startNext_only (s : State) : State.Only [.tracker, .composer] s s.startNext :=
  .ite (.refl _ _) (State.startQueued_only _ _)

theorem State.requestLabel_only (id : CtxId) (k : LabelKind) (s : State) :
    State.Only [.tracker, .composer] s (s.requestLabel id k) := by
  have queued : ∀ k, State.Only [.tracker, .composer] s (s.queueComposition id k).startNext := fun k =>
    (State.queueComposition_only _ _ _).next (State.startNext_only _)
  unfold State.requestLabel
  split
  · exact .refl _ _
  · split
    · exact queued _
    · exact (State.onComposer_only _ _).first
    · exact (State.onComposer_only _ _).first
    · exact .ite (queued _) (.refl _ _)
    · exact .refl _ _

theorem State.startJob_only (dst : RoleInst) (i : Slot) (s : State) :
    State.Only [.tracker, .ring] s (s.startJob dst i) := by
  unfold State.startJob
  split
  · exact (State.modCtx_only _ _ _).first.next (State.sendOrders_only _ _ _)
  · exact .refl _ _

theorem State.startJobs_only (k : LineNo) (s : State) : State.Only [.tracker, .ring] s (s.startJobs k) := by
  unfold State.startJobs
  split
  · exact .refl _ _
  next i rest _ =>
    have first : State.Only [.tracker, .ring] s
        (if (s.ctx i).any Context.startable then s.startJob (.labelApplicator k) i else s) :=
      .ite (State.startJob_only _ _ _) (.refl _ _)
    dsimp only
    split
    · exact .ite (first.next (State.startJob_only _ _ _)) first
    · exact first

theorem State.startTicket_only (s : State) : State.Only [.tracker, .ring] s s.startTicket := by
  unfold State.startTicket
  split
  · exact .ite (State.startJob_only _ _ _) (.refl _ _)
  · exact .refl _ _

theorem State.recordReported_only (i : Slot) (s : State) : State.Only [.tracker, .ring] s (s.recordReported i) := by
  unfold State.recordReported
  split
  · exact State.startJobs_only _ _
  · exact .ite (State.startTicket_only _) (.refl _ _)

theorem State.withdraw_only (dst : RoleInst) (keep : Bool) (i : Slot) (s : State) :
    State.Only [.tracker, .ring] s (s.withdraw dst keep i) :=
  .ite (((State.modCtx_only _ _ _).first.next (State.offer_only (.context i) _) (by simp [Holder.blocks])).next
    (State.prune_only _ _)) (.refl _ _)

theorem State.raiseInLine_only (i : Slot) (s : State) : State.Only [.tracker, .ring] s (s.raiseInLine i) := by
  unfold State.raiseInLine
  split
  · exact .refl _ _
  · split
    · dsimp only
      split
      · exact ((State.withdraw_only _ _ _ _).next (State.withdraw_only _ _ _ _)).next (State.startJobs_only _ _)
      · exact (State.withdraw_only _ _ _ _).next (State.startJobs_only _ _)
    · exact .refl _ _

theorem State.keepRecord_only (f : Flight) (s : State) : State.Only [.tracker, .composer] s (s.keepRecord f) :=
  (State.onComposer_only _ _).first.next (State.modCtx_only _ _ _)

theorem State.completeComposition_only (s : State) :
    State.Only [.tracker, .composer, .ring] s s.completeComposition := by
  unfold State.completeComposition
  split
  · exact .refl _ _
  next f _ =>
    have landed : State.Only [.tracker, .composer, .ring] s (s.onComposer fun x => { x with flight := none }) :=
      (State.onComposer_only _ _).first
    dsimp only
    split
    · exact landed.next (State.startNext_only _)
    · exact .ite (((landed.next (State.keepRecord_only _ _)).next (State.recordReported_only _ _)).next
        (State.startNext_only _)) ((landed.next (State.queueComposition_only _ _ _)).next (State.startNext_only _))

/-! ### Reasons -/

theorem State.tellRaise_only (id : CtxId) (p : Phase) (s : State) :
    State.Only [.tracker, .ring, .composer] s (s.tellRaise id p) := by
  unfold State.tellRaise
  split
  · exact (State.stopTimer_only _ _).first.next (State.requestLabel_only _ _ _)
  · exact (State.requestLabel_only _ _ _).first
  · exact (State.requestLabel_only _ _ _).first
  · exact (State.requestLabel_only _ _ _).first.next (State.raiseInLine_only _ _)
  · exact (State.requestLabel_only _ _ _).first.next (State.raiseInLine_only _ _)
  · exact .refl _ _

theorem State.addLater_only (id : CtxId) (c : Context) (v : Verdict) (r : Reason) (s : State) :
    State.Only [.tracker, .ring, .mgmt, .alloc, .composer] s (s.addLater id c v r) := by
  unfold State.addLater
  have called : ∀ (d : Context) (x : Report) (p : Prop) [Decidable p],
      State.Only [.tracker, .ring, .mgmt, .alloc, .composer] s
        (if p then ((s.putCtx id.slot (some d)).report x).callArbiter else (s.putCtx id.slot (some d)).report x) :=
    fun d x p _ =>
      have reported := (State.putCtx_only id.slot (some d) s).first.next (State.report_only x _)
      .ite (reported.next (State.onAlloc_only _ _)) reported
  exact .ite ((called _ _ _).next (State.tellRaise_only _ _ _)) (called _ _ _)

theorem State.handReason_only (id : CtxId) (r : Reason) (s : State) :
    State.Only [.tracker, .ring, .mgmt, .alloc, .composer] s (s.handReason id r) := by
  unfold State.handReason
  split
  · exact .refl _ _
  · refine .ite (.refl _ _) ?_
    split
    · exact (State.modCtx_only _ _ _).first
    · exact State.addLater_only _ _ _ _ _

theorem State.handSlot_only (i : Slot) (r : Reason) (s : State) :
    State.Only [.tracker, .ring, .mgmt, .alloc, .composer] s (s.handSlot i r) := by
  unfold State.handSlot
  split
  · exact State.handReason_only _ _ _
  · exact .refl _ _

theorem State.handAll_only (is : List Slot) (r : Reason) (s : State) :
    State.Only [.tracker, .ring, .mgmt, .alloc, .composer] s (s.handAll is r) :=
  .foldl (fun _ _ => State.handSlot_only _ _ _) _ _

/-! ### The Allocator -/

theorem State.reportCar_only (before : CarState) (cause : Config.UnitCause) (s : State) :
    State.Only [.ring, .mgmt] s (s.reportCar before cause) := .ite (.refl _ _) (State.report_only _ _)

theorem State.setCar_only (cause : Config.UnitCause) (f : Car → Car) (s : State) :
    State.Only [.alloc, .ring, .mgmt] s (s.setCar cause f) :=
  (State.modCar_only _ _).first.next (State.reportCar_only _ _ _)

theorem State.setWrapper_only (w : WrapperNo) (cause : Config.UnitCause) (f : Wrapper → Wrapper) (s : State) :
    State.Only [.alloc, .ring, .mgmt] s (s.setWrapper w cause f) :=
  .ite (State.modWrapper_only _ _ _).first ((State.modWrapper_only _ _ _).first.next (State.report_only _ _))

theorem State.startMove_only (cause : Config.UnitCause) (x : Candidate) (s : State) :
    State.Only [.tracker, .alloc, .ring, .mgmt] s (s.startMove cause x) :=
  ((State.setCar_only _ _ _).first.next (State.enter_only _ _ _ _)).next (State.sendCarMove_only _ _)

theorem State.arbitrate_only (cause : Config.UnitCause) (s : State) :
    State.Only [.tracker, .alloc, .ring, .mgmt] s (s.arbitrate cause) := by
  unfold State.arbitrate
  refine .ite ?_ (.refl _ _)
  split
  · exact State.startMove_only _ _ _
  · exact .refl _ _

theorem State.settle_only (cause : Config.UnitCause) (s : State) :
    State.Only [.tracker, .alloc, .ring, .mgmt] s (s.settle cause) :=
  .ite ((State.onAlloc_only _ _).first.next (State.arbitrate_only _ _)) (.refl _ _)

/-! ### Decisions -/

theorem State.updateScale_only (l : Lane) (f : Option WeightFigures) (s : State) :
    State.Only [.recon, .ring, .mgmt] s (s.updateScale l f) :=
  .ite ((State.onRecon_only _ _).first.next (State.report_only _ _)) (State.onRecon_only _ _).first

theorem State.conclude_only (i : Slot) (c : Context) (cause : VerdictCause) (rs : List Reason) (v : Verdict)
    (w : Option WeightFigures) (e : Option Nat) (h : Option HeightFigures) (g : Option (List Nat)) (s : State) :
    State.Only [.tracker, .recon, .alloc, .composer, .ring, .mgmt] s (s.conclude i c cause rs v w e h g) := by
  unfold State.conclude
  have called : ∀ (d : Context) (r : Report), State.Only [.tracker, .recon, .alloc, .composer, .ring, .mgmt] s
      (((s.updateScale c.lane w).putCtx i (some d)).report r).callArbiter := fun d r =>
    (((State.updateScale_only _ _ _).first.next (State.putCtx_only _ _ _)).next (State.report_only _ _)).next
      (State.onAlloc_only _ _)
  exact .ite (called _ _) ((called _ _).next (State.requestLabel_only _ _ _))

theorem State.park_only (i : Slot) (s : State) :
    State.Only [.tracker, .recon, .alloc, .composer, .ring, .mgmt] s (s.park i) := by
  unfold State.park
  split
  · exact .refl _ _
  · exact State.conclude_only _ _ _ _ _ _ _ _ _ _

theorem State.wait_only (i : Slot) (c : Context) (items : List WaitItem) (s : State) :
    State.Only [.tracker, .recon, .alloc, .composer, .ring, .mgmt] s (s.wait i c items) :=
  .ite (State.putCtx_only _ _ _).first
    (.ite ((State.putCtx_only _ _ _).first.next (State.park_only _ _)) (State.putCtx_only _ _ _).first)

theorem State.attempt_only (i : Slot) (s : State) :
    State.Only [.tracker, .recon, .alloc, .composer, .ring, .mgmt] s (s.attempt i) := by
  unfold State.attempt
  split
  · exact .refl _ _
  · refine .ite (.refl _ _) (.ite (State.conclude_only _ _ _ _ _ _ _ _ _ _) ?_)
    split
    · exact State.conclude_only _ _ _ _ _ _ _ _ _ _
    · exact State.wait_only _ _ _ _

/-! ### The infeed -/

theorem State.infeedDecision_only (l : Lane) (s : State) : State.Only [.ring, .tracker] s (s.infeedDecision l) :=
  .ite (State.sendInfeed_only _ _ _) (.refl _ _)

theorem State.infeedAll_only (s : State) : State.Only [.ring, .tracker] s s.infeedAll :=
  .foldl (fun _ _ => State.sendInfeed_only _ _ _) _ _

end Sys2Proof.Machine
end

