-- ==== Sys2Proof/Proofs/Slice0/Plans.lean ====
section
/-! PLAN_PUT (R10, R11, R44). -/

namespace Sys2Proof.Machine

open Sys2Proof

/-! ### The plan table after a change -/

section
variable {s : State}

theorem find?_putPlan (p : Plan) (n : Nat) (l : List Plan) :
    (putPlan p l).find? (fun x => x.slot == n) = if n = p.slot then some p else l.find? fun x => x.slot == n := by
  rw [putPlan_eq]
  split
  next e => exact find?_putInOrder_of_keeps (by simp [e]) (fun _ => rfl) (fun x h => (e ▸ beq_iff_eq.mp h).symm) l
  next ne =>
    have other : (p.slot == n) = false := beq_eq_false_iff_ne.mpr fun e => ne e.symm
    exact find?_putInOrder_of_passes (p := fun x : Plan => x.slot == n) other
      (fun x (e : p.slot = x.slot) => ⟨e ▸ other, other⟩) l

theorem State.planAt_modPlan {f : Plan → Plan} (slot : ∀ p, (f p).slot = p.slot) (n m : Nat) :
    (s.modPlan n f).planAt m = if n = m then (s.planAt n).map f else s.planAt m := by
  have passes : (fun p : Plan => p.slot == m) ∘ (fun p => if p.slot == n then f p else p) = fun p => p.slot == m := by
    funext p
    simp only [Function.comp_apply]
    split <;> simp [slot]
  unfold State.planAt State.modPlan
  rw [State.onRefs_refs, List.find?_map, passes]
  split
  next e =>
    subst e
    exact Option.map_congr fun p hp => by simp [List.find?_some hp]
  next ne =>
    cases found : s.refs.plans.find? fun p => p.slot == m with
    | none => rfl
    | some p =>
      have at_m : p.slot = m := beq_iff_eq.mp (List.find?_some found :)
      simp [at_m, Ne.symm ne]

theorem State.planAt_of_refs {t : State} (h : t.refs = s.refs) (n : Nat) : t.planAt n = s.planAt n := by
  simp [State.planAt, h]

/-- In slot order every slot below the lowest free one is taken. -/
theorem taken_of_lt_lowestFreePlan {ps : List Plan} {n m : Nat} (le : n ≤ m) (lt : m < lowestFreePlan n ps) :
    ∃ p ∈ ps, p.slot = m := by
  induction ps generalizing n with
  | nil => simp only [lowestFreePlan] at lt; omega
  | cons p ps ih =>
    unfold lowestFreePlan at lt
    split at lt
    next e =>
      by_cases m_eq : m = n
      · exact ⟨p, by simp, e.trans m_eq.symm⟩
      · obtain ⟨q, hq, e⟩ := ih (by omega) lt
        exact ⟨q, by simp [hq], e⟩
    next => omega

/-- The lowest free slot is the one that is free with every slot below it taken. -/
theorem lowestFreePlan_eq {ps : List Plan} (order : ps.Pairwise fun a b => a.slot < b.slot) {n : Nat}
    (free : ∀ p ∈ ps, p.slot ≠ n) (taken : ∀ m < n, ∃ p ∈ ps, p.slot = m) : lowestFreePlan 0 ps = n := by
  obtain ⟨-, -, unused⟩ := lowestFreePlan_spec (n := 0) order fun _ _ => Nat.zero_le _
  rcases Nat.lt_trichotomy (lowestFreePlan 0 ps) n with lt | e | gt
  · obtain ⟨p, hp, e⟩ := taken _ lt
    exact absurd e (unused p hp)
  · exact e
  · obtain ⟨p, hp, e⟩ := taken_of_lt_lowestFreePlan (Nat.zero_le n) gt
    exact absurd e (free p hp)

/-- A tidy plan table with a free slot is not full. -/
theorem plans_length_lt {ps : List Plan} (order : ps.Pairwise fun a b => a.slot < b.slot) {most n : Nat}
    (within : ∀ p ∈ ps, p.slot < most) (free : ∀ p ∈ ps, p.slot ≠ n) (lt : n < most) : ps.length < most := by
  have distinct : (ps.map (·.slot)).Nodup := List.pairwise_map.mpr (order.imp fun h => Nat.ne_of_lt h)
  have inside : ps.map (·.slot) ⊆ (List.range most).erase n := fun m hm => by
    obtain ⟨p, hp, rfl⟩ := List.mem_map.mp hm
    exact (List.mem_erase_of_ne (free p hp)).mpr (List.mem_range.mpr (within p hp))
  have le := (List.subperm_of_subset distinct inside).length_le
  rw [List.length_map, List.length_erase_of_mem (List.mem_range.mpr lt), List.length_range] at le
  omega

/-! ### A plan stored -/

theorem planValid_iff {f : PlanFields} : planValid f = true ↔ f.InRange := by
  have distinct : ∀ ls : List PlanLine, distinctArticles ls = true ↔ ls.Pairwise fun a b => a.article ≠ b.article := by
    intro ls
    induction ls with
    | nil => simp [distinctArticles]
    | cons l ls ih =>
      have apart : (!ls.any fun x => x.article == l.article) = true ↔ ∀ x ∈ ls, l.article ≠ x.article := by
        simp [ne_comm]
      rw [distinctArticles, Bool.and_eq_true, apart, ih, List.pairwise_cons]
  have recipe : (f.recipe.all fun r => decide (r ≤ 7)) = true ↔ ∀ r, f.recipe = some r → r ≤ 7 := by
    cases f.recipe <;> simp
  simp only [planValid, PlanFields.InRange, Bool.and_eq_true, distinct, recipe, isLicence, isConsignmentNumber_iff,
    inRange_iff, List.all_eq_true, isArticleKey_iff]
  grind

theorem planIn_stored (f : PlanFields) (n : Nat) : f.Stored (planIn f n) := ⟨rfl, rfl, rfl, rfl, rfl, rfl⟩

/-- A list is mapped exactly when each of its entries is. -/
theorem mapM_isSome {α β : Type} {f : α → Option β} {l : List α} :
    (l.mapM f).isSome = true ↔ ∀ x ∈ l, (f x).isSome = true := by
  induction l with
  | nil => simp
  | cons x xs ih =>
    rw [List.forall_mem_cons, ← ih]
    cases head : f x <;> cases tail : xs.mapM f <;> simp [head, tail]

theorem forall₂_of_mapM {α β : Type} {f : α → Option β} {l : List α} {ys : List β} (h : l.mapM f = some ys) :
    List.Forall₂ (fun x y => f x = some y) l ys := by
  induction l generalizing ys with
  | nil => cases h; exact .nil
  | cons x xs ih =>
    cases head : f x with
    | none => simp [head] at h
    | some y =>
      cases tail : xs.mapM f with
      | none => simp [head, tail] at h
      | some zs =>
        obtain rfl : y :: zs = ys := by simpa [head, tail] using h
        exact .cons head (ih tail)

theorem exists_of_forall₂_of_mem {α β : Type} {R : α → β → Prop} {l : List α} {ys : List β} (h : List.Forall₂ R l ys)
    {x : α} (hx : x ∈ l) : ∃ y ∈ ys, R x y := by
  induction h with
  | nil => cases hx
  | cons head _ ih =>
    rcases List.mem_cons.mp hx with rfl | hx
    · exact ⟨_, by simp, head⟩
    · obtain ⟨y, hy, r⟩ := ih hx
      exact ⟨y, by simp [hy], r⟩

theorem State.resolve_isSome {p : Plan} : (s.resolve p).isSome = true ↔
    (s.consignment p.consignment).isSome = true ∧ ∀ l ∈ p.lines, (s.article l.article).isSome = true := by
  rw [← mapM_isSome]
  unfold State.resolve
  cases s.consignment p.consignment <;> cases p.lines.mapM fun l => s.article l.article <;> simp

/-- The slot a plan of a licence takes: that of the plan it replaces, or the lowest free one (R10). -/
def State.PlanPlace (s : State) (t : Text) (n : Nat) : Prop :=
  (∀ q, s.planOf t = some q → q.state ≠ .inUse ∧ n = q.slot)
    ∧ (s.planOf t = none → n < 512 ∧ s.planAt n = none ∧ ∀ m < n, (s.planAt m).isSome = true)

theorem State.planPut_of_place {f : PlanFields} {n : Nat} (order : s.TableInv) (fits : f.InRange)
    (place : s.PlanPlace f.licence n) : s.planPut f = s.storePlan (planIn f n) := by
  obtain ⟨replaced, new⟩ := place
  unfold State.planPut
  rw [planValid_iff.mpr fits]
  cases found : s.planOf f.licence with
  | some q =>
    obtain ⟨free, rfl⟩ := replaced q found
    simp [free]
  | none =>
    obtain ⟨lt, free, below⟩ := new found
    have unused : ∀ p ∈ s.refs.plans, p.slot ≠ n := fun p hp => by simpa using List.find?_eq_none.mp free p hp
    have used : ∀ m < n, ∃ p ∈ s.refs.plans, p.slot = m := fun m hm => by simpa [State.planAt] using below m hm
    have room := plans_length_lt order.plans order.planSlots unused lt
    simp [Nat.not_le.mpr room, lowestFreePlan_eq order.plans unused used]

/-- What PLAN_PUT answers, by the state in which the plan has been stored and offered. -/
theorem State.storePlan_eq {p q : Plan} {u : State} {x : Status}
    (offered : (s.onRefs fun r => { r with plans := putPlan p r.plans }).offerPlan p = u)
    (found : u.planAt p.slot = some q) (slot : q.slot = p.slot)
    (status : x = .ok ∧ (s.resolve p).isSome = true ∨ x = .okUnresolved ∧ (s.resolve p).isSome = false) :
    s.storePlan p = ⟨u.settle .planPut, x, .planPut p.slot q.state q.bound⟩ := by
  have kept : (u.settle .planPut).planAt p.slot = some q :=
    (State.planAt_of_refs (by simpa using (State.settle_only .planPut u).refs) _).trans found
  unfold State.storePlan
  simp only [offered, kept, Option.getD_some, slot]
  congr 1
  rcases status with ⟨rfl, h⟩ | ⟨rfl, h⟩
  · simp [Option.isNone_eq_false_iff.mpr h]
  · simp [Option.not_isSome_iff_eq_none.mp (Bool.eq_false_iff.mp h)]

theorem State.planAt_putPlan (p : Plan) (m : Nat) :
    (s.onRefs fun r => { r with plans := putPlan p r.plans }).planAt m = if m = p.slot then some p else s.planAt m :=
  find?_putPlan _ _ _

theorem State.planAt_bindPlan (p : Plan) (i : Slot) (m : Nat) :
    (s.bindPlan p i).planAt m =
      if p.slot = m then (s.planAt p.slot).map fun q => { q with state := .inUse, bound := some i } else s.planAt m :=
  State.planAt_modPlan (f := fun q => { q with state := .inUse, bound := some i }) (fun _ => rfl) _ _

/-- The plan a binding leaves in its slot. -/
theorem State.planAt_bindPlan_self {p : Plan} {i : Slot} (h : s.planAt p.slot = some p) :
    (s.bindPlan p i).planAt p.slot = some { p with state := .inUse, bound := some i } := by
  rw [State.planAt_bindPlan, if_pos rfl, h]
  rfl

theorem State.planAt_attempt (i : Slot) (n : Nat) : (s.attempt i).planAt n = s.planAt n :=
  State.planAt_of_refs (by simpa using (State.attempt_only i s).refs) n

theorem State.taken_tableInv {src : Byte} (h : s.TableInv) : (s.taken src).TableInv :=
  State.tableInv_iff.mpr (by simpa using State.tableInv_iff.mp h)

theorem State.bindPlan_only (p : Plan) (i : Slot) (s : State) : State.Only [.refs, .tracker] s (s.bindPlan p i) :=
  (State.onRefs_only _ _).first.next (State.modCtx_only _ _ _)

theorem State.ctx_bindPlan {p : Plan} {i : Slot} {c : Context} (h : s.ctx i = some c) :
    (s.bindPlan p i).ctx i = some { c with planSlot := some p.slot } :=
  (State.ctx_modCtx_self _ _ _).trans (congrArg _ h)

theorem State.sameContexts_bindPlan (p : Plan) (i : Slot) : State.SameContexts [i] s (s.bindPlan p i) :=
  fun _ ne => State.ctx_modCtx_of_ne (fun e => ne (by simp [e])) _ _

theorem State.offerPlan_of_qualifier {p : Plan} {i : Slot} {c : Context} (qualified : s.qualifier p.licence = some i)
    (h : s.ctx i = some c) :
    s.offerPlan p = if c.phase = .waiting then (s.bindPlan p i).attempt i else s.bindPlan p i := by
  simp [State.offerPlan, qualified, State.ctx_bindPlan h]

end

end Sys2Proof.Machine

namespace Sys2Proof.Proofs

open Sys2Proof Sys2Proof.Machine

/-- Settles O49: the slot is found from the order of the table, and the offer of the stored plan is followed by what
the Tracker answers; a decision attempt leaves the plan table alone. -/
theorem planPut : Obligations.PlanPut := by
  unfold Obligations.PlanPut
  intro s src tag f takes order
  refine ⟨fun bad => ?_, fun fits => ⟨fun q found bound => ?_, fun none full => ?_, fun n x replaced new status => ?_⟩⟩
  · have bad : planValid f = false := Bool.eq_false_iff.mpr fun h => bad (planValid_iff.mp h)
    exact exec_of_serve takes rfl (fun _ => rfl) (by simp [State.serve, State.planPut, State.refuse, bad])
  · exact exec_of_serve takes rfl (fun _ => rfl)
      (by simp [State.serve, State.planPut, State.refuse, planValid_iff.mpr fits, found, bound])
  · exact exec_of_serve takes rfl (fun _ => rfl)
      (by simp [State.serve, State.planPut, State.refuse, planValid_iff.mpr fits, none, Config.planMax, full])
  · have placed : (s.taken src).planPut f = (s.taken src).storePlan (planIn f n) :=
      State.planPut_of_place (State.taken_tableInv order) fits ⟨replaced, new⟩
    have answered : x = .ok ∧ ((s.taken src).resolve (planIn f n)).isSome = true
        ∨ x = .okUnresolved ∧ ((s.taken src).resolve (planIn f n)).isSome = false := by
      rcases status with ⟨rfl, h⟩ | ⟨rfl, h⟩
      · exact .inl ⟨rfl, State.resolve_isSome.mpr h⟩
      · refine .inr ⟨rfl, Bool.eq_false_iff.mpr fun r => ?_⟩
        obtain ⟨hc, ha⟩ := State.resolve_isSome.mp r
        rcases h with h | ⟨l, hl, h⟩
        · simp [planIn, h] at hc
        · simpa [h] using ha l hl
    obtain ⟨v, put⟩ : ∃ v, (s.taken src).onRefs (fun r => { r with plans := putPlan (planIn f n) r.plans }) = v :=
      ⟨_, rfl⟩
    have served : ∀ {u q}, v.offerPlan (planIn f n) = u → u.planAt n = some q → q.slot = n →
        exec (.planPut src tag f) s =
          .next ((State.settle .planPut u).answered src 0x0B tag x (.planPut n q.state q.bound)) := by
      intro u q offered found slot
      exact exec_of_serve takes rfl (fun _ => rfl)
        (placed.trans (State.storePlan_eq (put ▸ offered) found slot answered))
    have stored : ∀ m, v.planAt m = if m = n then some (planIn f n) else s.planAt m :=
      fun m => put ▸ State.planAt_putPlan _ m
    have tracker : v.tracker = s.tracker := put ▸ rfl
    have qualifier : v.qualifier f.licence = s.qualifier f.licence := by
      simp [State.qualifier, State.slotsWhere, State.ctx, tracker]
    have context : ∀ j, v.ctx j = s.ctx j := fun j => by simp [State.ctx, tracker]
    have put_only : State.Only [.refs] (s.taken src) v := put ▸ State.onRefs_only _ _
    have kept : ∀ m, m ≠ n → v.planAt m = s.planAt m := fun m ne => (stored m).trans (if_neg ne)
    refine ⟨fun unqualified => ?_, fun i c qualified hc phase => ?_, fun i c qualified hc phase => ?_⟩
    · have offered : v.offerPlan (planIn f n) = v := by
        unfold State.offerPlan
        rw [show v.qualifier (planIn f n).licence = none from qualifier.trans unqualified]
      have at_n := (stored n).trans (if_pos rfl)
      have ran := served offered at_n rfl
      exact ⟨v, planIn f n, ran, at_n, planIn_stored f n, rfl, rfl, kept, put_only⟩
    all_goals
      have offered := State.offerPlan_of_qualifier (p := planIn f n) (qualifier.trans qualified) ((context i).trans hc)
      obtain ⟨u, bind⟩ : ∃ u, v.bindPlan (planIn f n) i = u := ⟨_, rfl⟩
      have bound : ∃ q, u.planAt n = some q ∧ q.slot = n ∧ f.Stored q ∧ q.state = .inUse ∧ q.bound = some i := by
        exact ⟨{ planIn f n with state := .inUse, bound := some i }, bind ▸ State.planAt_bindPlan_self (p := planIn f n) ((stored n).trans (if_pos rfl)),
          rfl, planIn_stored f n, rfl, rfl⟩
      obtain ⟨q, at_n, slot, fields, state, holder⟩ := bound
      have moved : u.ctx i = some { c with planSlot := some n } :=
        bind ▸ State.ctx_bindPlan ((context i).trans hc)
      have same : State.SameContexts [i] s u := fun j ne =>
        (bind ▸ State.sameContexts_bindPlan (s := v) _ _ j ne : u.ctx j = v.ctx j).trans (context j)
      have others : ∀ m, m ≠ n → u.planAt m = s.planAt m := fun m ne =>
        (bind ▸ (State.planAt_bindPlan _ _ _).trans (if_neg ne.symm)).trans (kept m ne)
      have only : State.Only [.refs, .tracker] (s.taken src) u :=
        put_only.first.next (bind ▸ State.bindPlan_only _ _ _)
      rw [bind] at offered
    · rw [if_neg phase] at offered
      have ran := served offered at_n slot
      rw [state, holder] at ran
      exact ⟨u, q, ran, at_n, fields, state, holder, moved, same, others, only⟩
    · rw [if_pos phase] at offered
      have ran := served offered ((State.planAt_attempt i n).trans at_n) slot
      rw [state, holder] at ran
      exact ⟨u, q, ran, at_n, fields, state, holder, moved, same, others, only⟩

end Sys2Proof.Proofs
end

