-- ==== Sys2Proof/Proofs/Slice0/Holds.lean ====
section
/-! The hold list's requests and CURRENCY (R23, R26 to R28, R30 to R32, R179). -/

namespace Sys2Proof.Machine

open Sys2Proof

section
variable {s : State}

/-! ### The hold list in its order -/

theorem sameHoldKey_self (k : Text × Text) : sameHoldKey k k = true := sameHoldKey_iff.mpr ⟨rfl, rfl⟩

theorem sameHoldKey_comm {a b : Text × Text} : sameHoldKey a b = sameHoldKey b a := by
  rw [Bool.eq_iff_iff, sameHoldKey_iff, sameHoldKey_iff, eq_comm, eq_comm (a := padLot a.2)]

theorem ltHoldKey_asymm {a b : Hold} (h : ltHoldKey a.key b.key = true) : ¬ ltHoldKey b.key a.key = true := fun k =>
  (holdOrder.strict (sameHoldKey_self a.key)).1 (ltHoldKey_trans h k)

/-- In a list in key order a key stands once, so that its removal takes one entry. -/
theorem length_filter_key {l : List Hold} (order : l.Pairwise fun a b => ltHoldKey a.key b.key = true)
    {k : Text × Text} {h : Hold} (found : l.find? (fun x => sameHoldKey x.key k) = some h) :
    (l.filter fun x => !sameHoldKey x.key k).length + 1 = l.length := by
  induction l with
  | nil => cases found
  | cons x xs ih =>
    obtain ⟨hx, hxs⟩ := List.pairwise_cons.mp order
    by_cases e : sameHoldKey x.key k = true
    · have apart : ∀ y ∈ xs, sameHoldKey y.key k = false := fun y hy => Bool.eq_false_iff.mpr fun same => by
        rw [sameHoldKey_iff] at e same
        exact (holdOrder.strict (sameHoldKey_iff.mpr ⟨e.1.trans same.1.symm, e.2.trans same.2.symm⟩)).2 (hx y hy)
      have all : (xs.filter fun x => !sameHoldKey x.key k) = xs := List.filter_eq_self.mpr fun y hy => by simp [apart y hy]
      simp [e, all]
    · simp only [List.find?_cons, Bool.eq_false_iff.mpr e] at found
      simpa [Bool.eq_false_iff.mpr e] using ih hxs found

/-! ### The currency state -/

theorem State.setCurrency_of_eq {c : Currency} (h : s.holds.currency = c) : s.setCurrency c = s := if_pos h

/-- The state that a change of the currency state leaves, before its report. -/
theorem State.setCurrency_of_ne {c : Currency} (h : s.holds.currency ≠ c) :
    s.setCurrency c = State.modeReport .currency s.ctl.mode ((s.onHolds fun h => { h with currency := c }).onCtl fun x =>
      { x with mode := followCurrency c x.mode, held := x.held.map (followCurrency c) }) := if_neg h

theorem followCurrency_eq (c : Currency) (m : LineMode) : followCurrency c m =
    if m = .run ∨ m = .degraded then (if c = .current then .run else .degraded) else m := by
  cases m <;> simp [followCurrency]

theorem State.modeReport_only (cause : ModeCause) (m : LineMode) (s : State) :
    State.Only [.ring, .mgmt] s (s.modeReport cause m) := State.report_only _ _

@[simp] theorem State.modeReport_holds (cause : ModeCause) (m : LineMode) (s : State) :
    (s.modeReport cause m).holds = s.holds := by simpa using (State.modeReport_only cause m s).holds

@[simp] theorem State.modeReport_ctl (cause : ModeCause) (m : LineMode) (s : State) :
    (s.modeReport cause m).ctl = s.ctl := by simpa using (State.modeReport_only cause m s).ctl

theorem State.setCurrency_only (c : Currency) (s : State) :
    State.Only [.holds, .ctl, .ring, .mgmt] s (s.setCurrency c) := by
  by_cases h : s.holds.currency = c
  · rw [State.setCurrency_of_eq h]
    exact .refl _ _
  · rw [State.setCurrency_of_ne h]
    exact ((State.onHolds_only _ _).first.next (State.onCtl_only _ _)).next (State.modeReport_only _ _ _)

@[simp] theorem State.setCurrency_holds (c : Currency) (s : State) :
    (s.setCurrency c).holds = { s.holds with currency := c } := by
  by_cases h : s.holds.currency = c
  · rw [State.setCurrency_of_eq h, ← h]
  · simp [State.setCurrency_of_ne h]

theorem State.retryWaiting_only (s : State) :
    State.Only [.tracker, .recon, .alloc, .composer, .ring, .mgmt] s s.retryWaiting :=
  State.Only.foldl (fun _ _ => State.attempt_only _ _) _ _

end

end Sys2Proof.Machine

namespace Sys2Proof.Proofs

open Sys2Proof Sys2Proof.Machine

/-- Settles O52: the list in its key order, its filter and its searches. -/
theorem holdListRequests : Obligations.HoldListRequests := by
  unfold Obligations.HoldListRequests
  intro s src tag order
  refine ⟨fun a l takes => ⟨fun bad => ?_, fun digits lot none => ?_, fun h digits lot found => ?_⟩, fun takes => ?_,
    fun takes => ⟨fun h first => ?_, fun empty => ?_, fun a l h digits lot hh after least => ?_,
      fun a l digits lot last => ?_, fun a l bad => ?_⟩⟩
  · exact exec_of_serve takes rfl (fun _ => rfl) (by
      rcases bad with bad | bad <;> simp [State.serve, State.holdRelease, State.refuseHold, bad])
  · have none : (s.taken src).hold (a, l) = .none := none
    exact exec_of_serve takes rfl (fun _ => rfl)
      (by simp [State.serve, State.holdRelease, State.refuseHold, digits, lot, none])
  · have found' : (s.taken src).hold (a, l) = some h := found
    have count := length_filter_key order.holdOrder found
    have served : (s.taken src).holdRelease a l =
        ⟨(s.taken src).onHolds fun x => { x with
            list := x.list.filter fun h => !sameHoldKey h.key (a, l)
            generation := generationAfter x.generation }, .ok,
          .holdCount ((s.holds.generation + 1) % 65536) (s.holds.list.length - 1)⟩ := by
      simp [State.holdRelease, digits, lot, found', generationAfter, ← count]
    refine ⟨_, exec_of_serve takes rfl (fun _ => rfl) served, ?_, fun k other => ?_, rfl, count, rfl,
      State.onHolds_only _ _⟩
    · exact find?_filter_of_passes fun x h => by simp [h]
    · refine find?_filter_of_keeps fun x _ h => ?_
      rw [Bool.not_eq_true', Bool.eq_false_iff]
      intro same
      rw [sameHoldKey_iff] at h same
      exact Bool.eq_false_iff.mp other (sameHoldKey_iff.mpr ⟨same.1.symm.trans h.1, same.2.symm.trans h.2⟩)
  · obtain ⟨v, cleared⟩ : ∃ v, (s.taken src).onHolds (fun x => { x with list := [], generation := 0, window := none }) = v :=
      ⟨_, rfl⟩
    have only : State.Only [.holds] (s.taken src) v := cleared ▸ State.onHolds_only _ _
    have holds : v.holds = { s.holds with list := [], generation := 0, window := none } := cleared ▸ rfl
    have ctl : v.ctl = s.ctl := cleared ▸ rfl
    have served : (s.taken src).holdClear = ⟨v.setCurrency .stale, .ok, .holdCleared s.holds.list.length 0⟩ := by
      simp [State.holdClear, cleared, holds]
    refine ⟨v.setCurrency .stale, exec_of_serve takes rfl (fun _ => rfl) served, by simp [holds], fun stale => ?_,
      fun current => ⟨((State.taken_only src s).first.next only).next (State.setCurrency_only _ _), ?_⟩⟩
    · rwa [State.setCurrency_of_eq (by simpa [holds] using stale)]
    · rw [State.setCurrency_of_ne (by simp [holds, current])]
      cases h : s.ctl.mode <;> simp [ctl, h, followCurrency]
  · exact exec_of_serve takes rfl (fun _ => rfl) (by simp [State.serve, State.holdNext, first])
  · exact exec_of_serve takes rfl (fun _ => rfl) (by simp [State.serve, State.holdNext, State.refuseHold, empty])
  · have found : s.holds.list.find? (fun g => ltHoldKey (a, l) g.key) = some h :=
      find?_of_least order.holdOrder hh after fun g hg lt => (least g hg lt).imp_right ltHoldKey_asymm
    have lot : (l.isEmpty || isLot l) = true := by rcases lot with rfl | lot <;> simp [*]
    exact exec_of_serve takes rfl (fun _ => rfl) (by simp [State.serve, State.holdNext, digits, lot, found])
  · have found : s.holds.list.find? (fun g => ltHoldKey (a, l) g.key) = none :=
      List.find?_eq_none.mpr fun g hg => by simp [last g hg]
    have lot : (l.isEmpty || isLot l) = true := by rcases lot with rfl | lot <;> simp [*]
    exact exec_of_serve takes rfl (fun _ => rfl)
      (by simp [State.serve, State.holdNext, State.refuseHold, digits, lot, found])
  · exact exec_of_serve takes rfl (fun _ => rfl) (by
      rcases bad with bad | ⟨ne, bad⟩ <;> simp [State.serve, State.holdNext, State.refuseHold, *])

/-- Settles O53: the day and the window are taken, and the change of the currency state is followed by the mode; a
retry leaves the hold register, so that the reply carries what the change left. -/
theorem currencyRequest : Obligations.CurrencyRequest := by
  unfold Obligations.CurrencyRequest
  intro s src tag g d takes
  have dayOk : decide (d ≤ Config.dayMax) = decide (d ≤ 36524) := rfl
  obtain ⟨a, dated⟩ : ∃ a, (s.taken src).onHolds (fun h => { h with
      day := if decide (d ≤ Config.dayMax) then some d else h.day
      window := if g == s.holds.generation then some s.params.currencyWindow else none }) = a := ⟨_, rfl⟩
  obtain ⟨c, target⟩ : ∃ c : Currency, (if g == s.holds.generation then .current else .stale) = c := ⟨_, rfl⟩
  have a_holds : a.holds = { s.holds with
      day := if d ≤ 36524 then some d else s.holds.day
      window := if g = s.holds.generation then some s.ctl.params.currencyWindow else none } := by
    simp only [← dated, State.onHolds_holds, dayOk]
    simp [State.params]
  have a_ctl : a.ctl = s.ctl := dated ▸ rfl
  have a_eq : ∀ h, { a with holds := h } = { s.taken src with holds := h } := fun _ => dated ▸ rfl
  obtain ⟨retry, retried⟩ : ∃ b : Bool, (g == s.holds.generation && (!(s.holds.currency == .current)
      || (!s.holds.day.isSome && (a.setCurrency c).holds.day.isSome))) = b := ⟨_, rfl⟩
  obtain ⟨v, after⟩ : ∃ v, (if retry then (a.setCurrency c).retryWaiting else a.setCurrency c) = v := ⟨_, rfl⟩
  have v_holds : v.holds = (a.setCurrency c).holds := by
    rw [← after]
    split
    · exact (State.retryWaiting_only _).holds.resolve_left (by decide)
    · rfl
  have settled : (State.settle .currency v).holds = v.holds := by simpa using (State.settle_only _ v).holds
  have served : (s.taken src).takeCurrency g d = ⟨State.settle .currency v,
      if g ≠ s.holds.generation then .genMismatch else if d ≤ 36524 then .ok else .dayRange,
      .currency s.holds.generation (a.setCurrency c).holds.day (a.setCurrency c).holds.currency (decide (36524 < d))⟩ := by
    have taken : (s.taken src).takeCurrency g d = ⟨State.settle .currency v,
        currencyStatus (g == s.holds.generation) (decide (d ≤ Config.dayMax)),
        .currency (State.settle .currency v).holds.generation (State.settle .currency v).holds.day
          (State.settle .currency v).holds.currency (!decide (d ≤ Config.dayMax))⟩ := by
      subst after retried dated target
      rfl
    rw [taken, settled, v_holds, dayOk]
    congr 1
    · simp [currencyStatus]
    · simp [a_holds, ← decide_not]
  have u_holds : (a.setCurrency c).holds = { s.holds with
      day := if d ≤ 36524 then some d else s.holds.day
      currency := if g = s.holds.generation then .current else .stale
      window := if g = s.holds.generation then some s.ctl.params.currencyWindow else none } := by
    rw [State.setCurrency_holds, a_holds, ← target]
    simp
  refine ⟨a.setCurrency c, v, fun m => if s.holds.currency = c then m else followCurrency c m,
    exec_of_serve takes rfl (fun _ => rfl) served, u_holds, fun m => ?_, ?_, fun same => ?_, fun changed => ?_,
    fun equal due => ?_, fun idle => ?_⟩
  · beta_reduce
    rw [followCurrency_eq, ← target]
    cases s.holds.currency <;> by_cases g = s.holds.generation <;> simp [*]
  · by_cases same : s.holds.currency = c
    · have held : s.ctl.held.map (fun m => m) = s.ctl.held := Option.map_id'
      simp [State.setCurrency_of_eq (s := a) (by simpa [a_holds] using same), a_ctl, same, held]
    · simp [State.setCurrency_of_ne (s := a) (by simpa [a_holds] using same), a_ctl, same]
  · have eq : a.holds.currency = c := by simpa [a_holds, eq_comm] using same
    rw [State.setCurrency_of_eq eq]
    exact (a_eq a.holds : _)
  · have ne : a.holds.currency ≠ c := fun eq => changed (by simp [a_holds, ← eq])
    obtain ⟨w, turned⟩ : ∃ w, (a.onHolds fun h => { h with currency := c }).onCtl (fun x =>
        { x with mode := followCurrency c x.mode, held := x.held.map (followCurrency c) }) = w := ⟨_, rfl⟩
    have whole : w = { s.taken src with holds := w.holds, ctl := w.ctl } := by
      rw [← turned, ← dated]
      rfl
    have generation : w.holds.generation = s.holds.generation := by simp [← turned, a_holds]
    have reject : w.ctl.rejectAll = s.ctl.rejectAll := by simp [← turned, a_ctl]
    rw [State.setCurrency_of_ne ne, turned, State.modeReport_holds, State.modeReport_ctl, ← whole, ← generation, ← reject,
      a_ctl]
    rfl
  · have : retry = true := by
      rw [← retried, u_holds]
      rcases due with stale | ⟨unknown, day⟩
      · simp [equal, stale]
      · simp [equal, unknown, day]
    simp [← after, this]
  · have : retry = false := by
      rw [← retried, u_holds]
      rcases idle with differs | ⟨current, known | past⟩
      · simp [differs]
      · simp [current, known]
      · simp [current, Nat.not_le.mpr past]
    simp [← after, this]

end Sys2Proof.Proofs
end

