-- ==== Sys2Proof/Proofs/Slice0/Params.lean ====
section
/-! PARAM_SET and PARAM_GET (R182). -/

namespace Sys2Proof.Machine

open Sys2Proof

theorem distinctNumbers_iff {ps : List (Nat × Nat)} : distinctNumbers ps = true ↔ (ps.map (·.1)).Nodup := by
  induction ps with
  | nil => simp [distinctNumbers]
  | cons p ps ih =>
    have apart : (!ps.any fun q => q.1 == p.1) = true ↔ p.1 ∉ ps.map (·.1) := by simp; grind
    rw [distinctNumbers, Bool.and_eq_true, ih, apart, List.map_cons, List.nodup_cons]

theorem Params.get_isSome {p : Params} {n : Nat} : (p.get n).isSome = true ↔ 1 ≤ n ∧ n ≤ 17 := by
  unfold Params.get
  split
  case h_18 h =>
    simp only [Option.isSome_none, Bool.false_eq_true, false_iff]
    rintro ⟨pos, le⟩
    interval_cases n <;> simp_all
  all_goals simp

theorem Params.get_foldl_of_not_mem {n : Nat} {ps : List (Nat × Nat)} (h : n ∉ ps.map (·.1)) (p : Params) :
    (ps.foldl (fun q x => q.set x.1 x.2) p).get n = p.get n := by
  induction ps generalizing p with
  | nil => rfl
  | cons x xs ih =>
    obtain ⟨ne, h⟩ := List.ne_and_not_mem_of_not_mem_cons h
    exact (ih h _).trans (Params.get_set_of_ne (Ne.symm ne))

/-- Parameters set in turn, each to a value in its range, hold those values. -/
theorem Params.get_foldl_of_mem {ps : List (Nat × Nat)} (distinct : (ps.map (·.1)).Nodup)
    (within : ∀ x ∈ ps, (1 ≤ x.1 ∧ x.1 ≤ 17) ∧ (paramRange x.1).1 ≤ x.2 ∧ x.2 ≤ (paramRange x.1).2) (p : Params)
    {x : Nat × Nat} (hx : x ∈ ps) : (ps.foldl (fun q x => q.set x.1 x.2) p).get x.1 = some x.2 := by
  induction ps generalizing p with
  | nil => cases hx
  | cons y ys ih =>
    obtain ⟨once, distinct⟩ := List.nodup_cons.mp distinct
    rcases List.mem_cons.mp hx with rfl | hx
    · obtain ⟨number, range⟩ := within x hx
      obtain ⟨v, hv⟩ := Option.isSome_iff_exists.mp (Params.get_isSome (p := p.set x.1 x.2).mpr number)
      rw [List.foldl_cons, Params.get_foldl_of_not_mem once, hv, Params.get_set_self hv range]
    · exact ih distinct (fun z hz => within z (by simp [hz])) _ hx

/-- The readings of some parameters. -/
theorem paramsRead {p : Params} {ns : List Nat} (h : ∀ n ∈ ns, 1 ≤ n ∧ n ≤ 17) :
    ∃ ps, (ns.mapM fun n => (p.get n).map fun v => (n, v)) = some ps ∧ ps.map (·.1) = ns
      ∧ ∀ x ∈ ps, p.get x.1 = some x.2 := by
  obtain ⟨ps, read⟩ := Option.isSome_iff_exists.mp (mapM_isSome (f := fun n => (p.get n).map fun v => (n, v)) (l := ns)
    |>.mpr fun n hn => by simpa using Params.get_isSome.mpr (h n hn))
  refine ⟨ps, read, ?_⟩
  clear h
  have each := forall₂_of_mapM read
  clear read
  induction each with
  | nil => simp
  | cons head _ ih =>
    obtain ⟨v, hv, rfl⟩ := Option.map_eq_some_iff.mp head
    exact ⟨congrArg _ ih.1, List.forall_mem_cons.mpr ⟨hv, ih.2⟩⟩

end Sys2Proof.Machine

namespace Sys2Proof.Proofs

open Sys2Proof Sys2Proof.Machine

/-- Settles O60: the fold that stores the values leaves each in its parameter, as no number is named twice. -/
theorem parameterRequests : Obligations.ParameterRequests := by
  unfold Obligations.ParameterRequests
  refine fun s src tag => ⟨fun takes ps => ⟨fun bad => ?_, fun ne numbers distinct => ?_⟩, fun takes ns =>
    ⟨fun short numbers => ?_, fun ⟨n, hn, out⟩ => ?_⟩⟩
  · have bad : ps = [] ∨ (ps.any fun p => !inRange 1 17 p.1) = true ∨ (!distinctNumbers ps) = true := by
      rcases bad with empty | ⟨p, hp, out⟩ | twice
      · exact .inl empty
      · refine .inr (.inl (List.any_eq_true.mpr ⟨p, hp, ?_⟩))
        rw [Bool.not_eq_true', Bool.eq_false_iff, Ne, inRange_iff]
        omega
      · rw [← distinctNumbers_iff, Bool.not_eq_true] at twice
        exact .inr (.inr (by rw [twice]; rfl))
    exact exec_of_serve takes rfl (fun _ => rfl) (if_pos bad)
  · have good : ¬ (ps = [] ∨ (ps.any fun p => !inRange 1 17 p.1) = true ∨ (!distinctNumbers ps) = true) := by
      rintro (h | h | h)
      · exact ne h
      · obtain ⟨p, hp, out⟩ := List.any_eq_true.mp h
        simp [inRange_iff.mpr (numbers p hp)] at out
      · simp [distinctNumbers_iff.mpr distinct] at h
    obtain ⟨qs, clamped⟩ : ∃ qs, ps.map (fun p => (p.1, paramClamp p.1 p.2)) = qs := ⟨_, rfl⟩
    have keys : qs.map (·.1) = ps.map (·.1) := by simp [← clamped]
    obtain ⟨u, stored⟩ : ∃ u, (s.taken src).onCtl (fun c => { c with
      params := qs.foldl (fun q p => q.set p.1 p.2) c.params }) = u := ⟨_, rfl⟩
    have params : u.ctl = { s.ctl with params := qs.foldl (fun q p => q.set p.1 p.2) s.ctl.params } := stored ▸ rfl
    have served : (s.taken src).paramSet ps = ⟨u, if qs = ps then .ok else .okClamped, .params qs⟩ := by
      subst stored clamped
      exact if_neg good
    refine ⟨u, qs, clamped.symm, exec_of_serve takes rfl (fun _ => rfl) served,
      fun q hq => ?_, fun n out => ?_, by rw [params], stored ▸ State.onCtl_only _ _⟩
    · rw [params]
      refine Params.get_foldl_of_mem (keys ▸ distinct) (fun x hx => ?_) _ hq
      obtain ⟨p, hp, rfl⟩ := List.mem_map.mp (clamped ▸ hx)
      exact ⟨numbers p hp, paramClamp_mem _ _⟩
    · rw [params]
      exact Params.get_foldl_of_not_mem (keys ▸ out) _
  · have all : ∀ n ∈ (if ns = [] then (List.range 17).map (· + 1) else ns), 1 ≤ n ∧ n ≤ 17 := by
      split
      · decide
      · exact numbers
    obtain ⟨ps, read, named, values⟩ := paramsRead (p := s.ctl.params) all
    refine ⟨ps, exec_of_serve takes rfl (fun _ => rfl) ?_, named, values⟩
    have read : (List.mapM (fun n => ((s.taken src).params.get n).map fun v => (n, v))
      (if ns = [] then (List.range 17).map (· + 1) else ns)) = some ps := read
    simp only [State.serve, State.paramGet, if_pos short, read]
  · have named : (if ns = [] then (List.range 17).map (· + 1) else ns) = ns := if_neg (List.ne_nil_of_mem hn)
    have unread : (ns.mapM fun n => ((s.taken src).params.get n).map fun v => (n, v)) = none := by
      rw [← Option.not_isSome_iff_eq_none, mapM_isSome]
      intro all
      have := Params.get_isSome.mp (by simpa using all n hn)
      omega
    exact exec_of_serve takes rfl (fun _ => rfl)
      (by simp only [State.serve, State.paramGet, named, unread, State.refuse, ite_self])

end Sys2Proof.Proofs
end

