-- ==== Sys2Proof/Proofs/Slice0/Templates.lean ====
section
/-! The template requests (R116 to R119). -/

namespace Sys2Proof.Machine

open Sys2Proof

/-! ### Items carried (R117) -/

theorem mapM_of_map {α β : Type} {f : α → Option β} {l : List α} {ys : List β} (h : l.map f = ys.map some) :
    l.mapM f = some ys := by
  induction l generalizing ys with
  | nil =>
    obtain rfl : ys = [] := by simpa using h.symm
    rfl
  | cons x xs ih =>
    cases ys with
    | nil => cases h
    | cons y ys =>
      obtain ⟨head, tail⟩ := List.cons.inj h
      simp [head, ih tail]

theorem firstMalformed_eq {fs : List ItemFields} {k : Nat} {x : ItemFields} (at_k : fs[k]? = some x)
    (bad : itemOf x = none) (before : ∀ j y, j < k → fs[j]? = some y → (itemOf y).isSome = true) :
    firstMalformed fs = k + 1 := by
  obtain ⟨lt, rfl⟩ := List.getElem?_eq_some_iff.mp at_k
  have first : fs.findIdx? (fun i => (itemOf i).isNone) = some k := by
    rw [List.findIdx?_eq_some_iff_getElem]
    refine ⟨lt, by simp [bad], fun j hj => ?_⟩
    simpa [Option.isSome_iff_ne_none] using before j _ hj (List.getElem?_eq_getElem _)
  simp [firstMalformed, first]

/-! ### The structural checks (R118) -/

/-- How an item moves the section open in a build that passes the structural checks. -/
inductive Section.Moves : Option Section → Item → Option Section → Prop where
  | linesBegin : Moves none .linesBegin (some .lines)
  | linesEnd : Moves (some .lines) .linesEnd none
  | ifBonded : Moves none .ifBonded (some .bonded)
  | endIf : Moves (some .bonded) .endIf none
  | stays {o : Option Section} {i : Item} (other : i ∉ [Item.linesBegin, .linesEnd, .ifBonded, .endIf, .endItem])
      (field : ∀ c w a f, i = .field c w a f → c.isLine = true → o = some .lines) : Moves o i o

theorem Section.Moves.lines {o p : Option Section} {i : Item} (h : Section.Moves o i p) :
    (if i == .linesBegin then 1 else 0) + (if o = some .lines then 1 else 0)
      = (if p = some .lines then 1 else 0) + (if i == .linesEnd then 1 else 0) := by
  cases h with
  | stays other _ =>
    have : i ≠ .linesBegin ∧ i ≠ .linesEnd := by constructor <;> rintro rfl <;> simp at other
    simp [this]
  | _ => simp

theorem Section.Moves.bonded {o p : Option Section} {i : Item} (h : Section.Moves o i p) :
    (if i == .ifBonded then 1 else 0) + (if o = some .bonded then 1 else 0)
      = (if p = some .bonded then 1 else 0) + (if i == .endIf then 1 else 0) := by
  cases h with
  | stays other _ =>
    have : i ≠ .ifBonded ∧ i ≠ .endIf := by constructor <;> rintro rfl <;> simp at other
    simp [this]
  | _ => simp

theorem Section.moves_of_passes {n : Nat} {o : Option Section} {i j : Item} {rest : List Item}
    (h : structuralFault n o (i :: j :: rest) = none) :
    ∃ p, Section.Moves o i p ∧ structuralFault (n + 1) p (j :: rest) = none := by
  cases i with
  | text t => exact ⟨o, .stays (by simp) (by simp), by simpa [structuralFault] using h⟩
  | newline => exact ⟨o, .stays (by simp) (by simp), by simpa [structuralFault] using h⟩
  | barcode k => exact ⟨o, .stays (by simp) (by simp), by simpa [structuralFault] using h⟩
  | endItem => cases h
  | linesBegin =>
    cases o with
    | none => exact ⟨_, .linesBegin, h⟩
    | some _ => cases h
  | ifBonded =>
    cases o with
    | none => exact ⟨_, .ifBonded, h⟩
    | some _ => cases h
  | linesEnd =>
    rcases o with _ | _ | _
    · cases h
    · exact ⟨_, .linesEnd, h⟩
    · cases h
  | endIf =>
    rcases o with _ | _ | _
    · cases h
    · cases h
    · exact ⟨_, .endIf, h⟩
  | field c w a f =>
    have passes : (if c.isLine = true ∧ o ≠ some .lines then some (TemplateFault.lineFieldOutside, n + 1)
      else structuralFault (n + 1) o (j :: rest)) = none := by rwa [structuralFault] at h; simp
    split at passes
    · cases passes
    next inside =>
      refine ⟨o, .stays (by simp) fun _ _ _ _ e line => ?_, passes⟩
      cases e
      exact not_not.mp fun out => inside ⟨line, out⟩

/-- What the structural checks of a build, from a section open, ensure of the items that follow. -/
structure Section.Closes (o : Option Section) (is : List Item) : Prop where
  nonempty : is ≠ []
  last : is.getLast? = some .endItem
  once : ∀ k, k + 1 < is.length → is[k]? ≠ some .endItem
  lines : is.count .linesBegin + (if o = some .lines then 1 else 0) = is.count .linesEnd
  bonded : is.count .ifBonded + (if o = some .bonded then 1 else 0) = is.count .endIf
  fields : Item.linesBegin ∉ is → o ≠ some .lines → ∀ c w a f, Item.field c w a f ∈ is → c.isLine = false

theorem Section.closes_of_passes {n : Nat} {o : Option Section} {is : List Item} (h : structuralFault n o is = none) :
    Section.Closes o is := by
  induction is generalizing n o with
  | nil => cases h
  | cons i rest ih =>
    cases rest with
    | nil =>
      unfold structuralFault at h
      split at h
      next e =>
        subst e
        cases o with
        | none => constructor <;> simp
        | some _ => cases h
      next => cases h
    | cons j rest =>
      obtain ⟨p, moves, passes⟩ := Section.moves_of_passes h
      obtain ⟨-, last, once, lines, bonded, fields⟩ := ih passes
      have not_end : i ≠ .endItem := by
        rintro rfl
        cases moves with
        | stays other _ => simp at other
      refine ⟨by simp, by simpa using last, fun k hk => ?_, ?_, ?_, fun noLines closed c w a f hf => ?_⟩
      · cases k with
        | zero => simpa using not_end
        | succ k => simpa using once k (by simpa using hk)
      · rw [List.count_cons, List.count_cons (b := i)]
        have := moves.lines
        omega
      · rw [List.count_cons, List.count_cons (b := i)]
        have := moves.bonded
        omega
      · rcases List.mem_cons.mp hf with rfl | hf
        · cases moves with
          | stays _ field => exact Bool.eq_false_iff.mpr fun line => closed (field _ _ _ _ rfl line)
        · refine fields (fun h => noLines (by simp [h])) ?_ c w a f hf
          cases moves with
          | linesBegin => simp at noLines
          | stays => exact closed
          | _ => simp

end Sys2Proof.Machine

namespace Sys2Proof.Proofs

open Sys2Proof Sys2Proof.Machine

/-- Settles O56: the build is an ordinary field of the Composer, and the structural checks are followed item by item
with the section open. -/
theorem templateRequests : Obligations.TemplateRequests := by
  unfold Obligations.TemplateRequests
  refine ⟨fun s src tag => ⟨fun takes => ⟨fun n => ?_, fun n le => ?_⟩, fun takes => ⟨fun fs none => ?_,
    fun b fs is build ne items => ⟨fun full => ?_, fun room => ?_⟩⟩, fun takes b fs k x build at_k bad before => ?_,
    fun takes => ⟨fun none => ?_, fun b build => ⟨fun x k fault => ?_, fun sound f flight target => ?_,
      fun sound other => ?_⟩⟩, fun takes n p pos le => ?_, fun takes n p bad => ?_⟩, fun is sound => ?_⟩
  · exact ⟨_, exec_of_serve takes rfl (fun _ => rfl) (dif_pos n.isLt), rfl, State.onComposer_only _ _⟩
  · exact exec_of_serve takes rfl (fun _ => rfl) (dif_neg (Nat.not_lt.mpr le))
  · exact exec_of_serve takes rfl (fun _ => rfl) (by simp [State.serve, State.templateItems, State.refuse, none])
  · obtain ⟨i, is, rfl⟩ := List.exists_cons_of_ne_nil (l := is) (by rintro rfl; simp_all)
    exact exec_of_serve takes rfl (fun _ => rfl) (by
      simp only [List.length_cons] at full
      simp [State.serve, State.templateItems, State.refuse, build, mapM_of_map items, Config.templateItemMax, full])
  · obtain ⟨i, is, rfl⟩ := List.exists_cons_of_ne_nil (l := is) (by rintro rfl; simp_all)
    refine ⟨(s.taken src).onComposer fun x => { x with build := some ⟨b.target, b.items ++ i :: is⟩ },
      exec_of_serve takes rfl (fun _ => rfl) ?_, rfl, State.onComposer_only _ _⟩
    simp only [List.length_cons] at room
    simp [State.serve, State.templateItems, build, mapM_of_map items, Config.templateItemMax, Nat.not_lt.mpr room]
  · have unread : fs.mapM itemOf = none := by
      rw [← Option.not_isSome_iff_eq_none, mapM_isSome]
      intro all
      simpa [bad] using all x (List.mem_of_getElem? at_k)
    exact exec_of_serve takes rfl (fun _ => rfl)
      (by simp [State.serve, State.templateItems, build, unread, firstMalformed_eq at_k bad before])
  · exact exec_of_serve takes rfl (fun _ => rfl) (by simp [State.serve, State.templateEnd, State.refuse, none])
  · refine ⟨(s.taken src).onComposer fun x => { x with build := .none }, exec_of_serve takes rfl (fun _ => rfl) ?_,
      rfl, State.onComposer_only _ _⟩
    simp [State.serve, State.templateEnd, build, fault]
  · exact exec_of_serve takes rfl (fun _ => rfl)
      (by simp [State.serve, State.templateEnd, State.refuse, build, sound, flight, target])
  · have free : (s.composer.flight.any fun f => f.template == b.target) = false := by
      cases flight : s.composer.flight with
      | none => rfl
      | some f => simpa using other f flight
    refine ⟨(s.taken src).onComposer fun x => { x with
        build := .none, templates := x.templates.set b.target b.items }, exec_of_serve takes rfl (fun _ => rfl) ?_,
      rfl, by simp, fun n ne => ?_, rfl, rfl, rfl, State.onComposer_only _ _⟩
    · simp [State.serve, State.templateEnd, build, sound, free]
    · exact Vector.getElem_set_ne b.target.isLt n.isLt fun e => ne (Fin.ext e.symm)
  · have shown : (s.taken src).templateGet n.val p = ⟨s.taken src, .ok, .templateItems s.composer.templates[n].length
        ((s.composer.templates[n].drop (p - 1)).take 12)
        (if p + 11 < s.composer.templates[n].length then some (p + 12) else none)⟩ :=
      (dif_pos n.isLt).trans (if_pos (inRange_iff.mpr ⟨pos, le⟩))
    refine ⟨_, _, exec_of_serve takes rfl (fun _ => rfl) shown, rfl, by simp, fun m h => ?_⟩
    split at h
    · exact (Option.some.inj h).symm
    · cases h
  · refine exec_of_serve takes rfl (fun _ => rfl) ?_
    have out : 16 ≤ n ∨ ¬ inRange 1 48 p = true := by
      rw [inRange_iff]
      omega
    by_cases lt : n < 16
    · exact (dif_pos lt).trans (if_neg (out.resolve_left (by omega)))
    · exact dif_neg lt
  · obtain ⟨nonempty, last, once, lines, bonded, fields⟩ := Section.closes_of_passes sound
    exact ⟨nonempty, last, once, by simpa using lines, by simpa using bonded, fun h => fields h (by simp), rfl⟩

end Sys2Proof.Proofs
end

