-- ==== Sys2Proof/Proofs/Slice0/Screens.lean ====
section
/-! The requests of the watch screens (R169 to R171). -/

namespace Sys2Proof.Machine

open Sys2Proof

theorem testOf_of_inRange {f : TestFields} (h : f.InRange) : ∃ x, testOf f = some x ∧ f.Stored x := by
  obtain ⟨offset, width, ⟨k | k, lo⟩ | ⟨k, le, hi⟩ | k⟩ := h
  · exact ⟨⟨f.offset, f.width, .equal f.lo, none⟩, by simp [testOf, k, lo, offset, width], by simp [TestFields.Stored, k]⟩
  · exact ⟨⟨f.offset, f.width, .notEqual f.lo, none⟩, by simp [testOf, k, lo, offset, width],
      by simp [TestFields.Stored, k]⟩
  · have lo : f.lo < 256 ^ f.width := Nat.lt_of_le_of_lt le hi
    exact ⟨⟨f.offset, f.width, .inRange f.lo f.hi, none⟩, by simp [testOf, k, lo, le, hi, offset, width],
      by simp [TestFields.Stored, k]⟩
  · exact ⟨⟨f.offset, f.width, .changed, none⟩, by simp [testOf, k, offset, width], by simp [TestFields.Stored, k]⟩

theorem inRange_of_testOf {f : TestFields} {x : ScreenTest} (h : testOf f = some x) : f.InRange := by
  unfold testOf at h
  dsimp only at h
  split at h
  next sized =>
    refine ⟨sized.1, sized.2, ?_⟩
    obtain ⟨k, hk, -⟩ := Option.map_eq_some_iff.mp h
    split at hk
    next e =>
      have : f.kind = 1 := BitVec.eq_of_toNat_eq e
      split at hk
      next fits => exact .inl ⟨.inl this, by simpa using fits⟩
      next => cases hk
    next e =>
      have : f.kind = 2 := BitVec.eq_of_toNat_eq e
      split at hk
      next fits => exact .inl ⟨.inr this, by simpa using fits⟩
      next => cases hk
    next e =>
      have : f.kind = 3 := BitVec.eq_of_toNat_eq e
      split at hk
      next fits => exact .inr (.inl ⟨this, fits.2.2, by simpa using fits.2.1⟩)
      next => cases hk
    next e => exact .inr (.inr (BitVec.eq_of_toNat_eq e))
    next => cases hk
  next => cases h

theorem boolOfCode_eq {b : Byte} (h : b = 1 ∨ b = 2) : boolOfCode b = some (b == 1) := by
  rcases h with rfl | rfl <;> rfl

theorem Combine.ofCode_eq {b : Byte} (h : b = 1 ∨ b = 2) : Combine.ofCode b = some (if b = 1 then .all else .any) := by
  rcases h with rfl | rfl <;> rfl

theorem Combine.ofCode_isSome {b : Byte} {c : Combine} (h : Combine.ofCode b = some c) : b = 1 ∨ b = 2 := by
  unfold Combine.ofCode at h
  split at h
  · exact .inl ‹_›
  · split at h
    · exact .inr ‹_›
    · cases h

theorem Action.ofCode_isSome {b : Byte} {a : Action} (h : Action.ofCode b = some a) : 1 ≤ b.toNat ∧ b.toNat ≤ 4 := by
  unfold Action.ofCode at h
  split at h
  next e => simp [e]
  split at h
  next e => simp [e]
  split at h
  next e => simp [e]
  split at h
  next e => simp [e]
  cases h

theorem Action.ofCode_of_le {b : Byte} (h : 1 ≤ b.toNat ∧ b.toNat ≤ 4) : ∃ a, Action.ofCode b = some a
    ∧ (a = .alert ↔ b = 1) ∧ (a = .alertCapture ↔ b = 2) ∧ (a = .consume ↔ b = 3) ∧ (a = .consumeAlert ↔ b = 4) := by
  have cases : b = 1 ∨ b = 2 ∨ b = 3 ∨ b = 4 := by bv_omega
  rcases cases with rfl | rfl | rfl | rfl <;> exact ⟨_, rfl, by decide⟩

theorem screenOf_of_inRange {f : WatchFields} (h : f.InRange) :
    ∃ x, screenOf f = some x ∧ f.Stored x ∧ x.latch = .clear ∧ x.capture = [] ∧ x.count = 0
      ∧ ∀ y ∈ x.tests, y.last = none := by
  obtain ⟨enabled, source, kind, two, tests, combine, action⟩ := h
  obtain ⟨ts, read⟩ := Option.isSome_iff_exists.mp (mapM_isSome (f := testOf) (l := f.tests) |>.mpr fun t ht => by
    obtain ⟨x, hx, -⟩ := testOf_of_inRange (tests t ht)
    simp [hx])
  have each : List.Forall₂ TestFields.Stored f.tests ts :=
    (forall₂_of_mapM read).imp fun {t x} hx => by
      obtain ⟨y, hy, stored⟩ := testOf_of_inRange (inRange_of_testOf hx)
      rwa [Option.some.inj (hx.symm.trans hy)]
  obtain ⟨a, acts, a1, a2, a3, a4⟩ := Action.ofCode_of_le action
  have short : ts.length ≤ 2 := each.length_eq ▸ two
  have from_ring : (f.source.all fun n => Nat.ble n 31) = true := by cases h : f.source <;> simp [source, h]
  have of_kind : (f.kind.all fun n => Nat.ble n 255) = true := by cases h : f.kind <;> simp [kind, h]
  refine ⟨{ Screen.reset with
      enabled := f.enabled == 1
      source := f.source
      kind := f.kind
      tests := ts
      combine := if f.combine = 1 then .all else .any
      action := a }, ?_, ⟨by simp, rfl, rfl, each, by dsimp only; split <;> simp_all, a1, a2, a3, a4⟩, rfl, rfl, rfl,
    fun y hy => ?_⟩
  · simp [screenOf, boolOfCode_eq enabled, read, Combine.ofCode_eq combine, acts, from_ring, of_kind, short]
  · obtain ⟨t, -, stored⟩ := exists_of_forall₂_of_mem each.flip hy
    exact stored.2.2.1

theorem inRange_of_screenOf {f : WatchFields} {x : Screen} (h : screenOf f = some x) : f.InRange := by
  unfold screenOf at h
  split at h
  next e ts c a he hts hc ha =>
    split at h
    next fits =>
      simp only [Bool.and_eq_true] at fits
      obtain ⟨⟨source, kind⟩, two⟩ := fits
      have each := forall₂_of_mapM hts
      refine ⟨boolOfCode_isSome he, fun n hn => by simpa [hn] using source, fun n hn => by simpa [hn] using kind,
        by simpa [each.length_eq] using two, fun t ht => ?_, Combine.ofCode_isSome hc, Action.ofCode_isSome ha⟩
      obtain ⟨x, -, hx⟩ := exists_of_forall₂_of_mem each ht
      exact inRange_of_testOf hx
    next => cases h
  next => cases h

theorem State.watch_onScreen_self (n : ScreenNo) (f : Screen → Screen) (s : State) :
    (s.onScreen n f).watch[n] = f s.watch[n] := by
  simp

theorem State.watch_onScreen_of_ne {n m : ScreenNo} (ne : m ≠ n) (f : Screen → Screen) (s : State) :
    (s.onScreen n f).watch[m] = s.watch[m] := by
  simpa using Vector.getElem_set_ne n.isLt m.isLt fun e => ne (Fin.ext e.symm)

end Sys2Proof.Machine

namespace Sys2Proof.Proofs

open Sys2Proof Sys2Proof.Machine

/-- Settles O57: the settings in range are those the screen is read from, and each request touches its screen only. -/
theorem watchRequests : Obligations.WatchRequests := by
  unfold Obligations.WatchRequests
  refine fun s src tag => ⟨fun takes f => ⟨fun bad => ?_, fun n screen fits => ?_⟩, fun takes => ⟨fun n le => ?_,
    fun n => ?_⟩, fun takes => ⟨fun n p st bad => ?_, fun n => ⟨fun st => ?_, fun st le => ?_⟩⟩⟩
  · refine exec_of_serve takes rfl (fun _ => rfl) ?_
    by_cases lt : f.screen < 16
    · have unread : screenOf f = none := Option.eq_none_iff_forall_ne_some.mpr fun x h =>
        bad.resolve_left (Nat.not_le.mpr lt) (inRange_of_screenOf h)
      exact (dif_pos lt).trans (by rw [unread]; rfl)
    · exact dif_neg lt
  · obtain ⟨x, read, stored, latch, capture, count, last⟩ := screenOf_of_inRange fits
    have served : (s.taken src).watchPut f =
        ⟨(s.taken src).onScreen n fun _ => x, .ok, .watchPut (s.watch[n]).latch (s.watch[n]).count⟩ := by
      have lt : f.screen < 16 := screen ▸ n.isLt
      refine (dif_pos lt).trans ?_
      simp [read, screen]
    refine ⟨_, exec_of_serve takes rfl (fun _ => rfl) served, ?_⟩
    rw [State.watch_onScreen_self]
    exact ⟨stored, latch, capture, count, last, fun m ne => State.watch_onScreen_of_ne ne _ _, State.onScreen_only _ _ _⟩
  · exact exec_of_serve takes rfl (fun _ => rfl) (dif_neg (Nat.not_lt.mpr le))
  · obtain ⟨u, acked⟩ : ∃ u, (s.taken src).onScreen n (fun _ =>
      { s.watch[n] with latch := (s.watch[n]).latch.acknowledged }) = u := ⟨_, rfl⟩
    have screen : u.watch[n] = { s.watch[n] with latch := (s.watch[n]).latch.acknowledged } :=
      acked ▸ State.watch_onScreen_self _ _ _
    have latch : (u.watch[n]).latch = (s.watch[n]).latch.acknowledged := by rw [screen]
    have served : (s.taken src).watchAck n.val =
        ⟨if (s.watch[n]).latch = .overrun then u.report (watchAlert n u.watch[n] none) else u, .ok,
          .watchAck (s.watch[n]).latch (u.watch[n]).latch (s.watch[n]).count⟩ := by
      rw [screen, ← acked]
      exact dif_pos n.isLt
    refine ⟨u, _, exec_of_serve takes rfl (fun _ => rfl) served, ?_, by rw [latch]; exact screen,
      fun m ne => acked ▸ State.watch_onScreen_of_ne ne _ _, acked ▸ State.onScreen_only _ _ _, fun other => if_neg other,
      fun overrun => (if_pos overrun).trans ?_⟩
    · rw [latch]
      cases (s.watch[n]).latch <;> rfl
    · rw [screen]
      rfl
  · refine exec_of_serve takes rfl (fun _ => rfl) ?_
    by_cases lt : n < 16
    · refine (dif_pos lt).trans ?_
      rcases bad with le | ⟨p1, p2⟩ | ⟨rfl, past⟩
      · omega
      · exact (if_neg p1).trans (if_neg fun h => p2 h.1)
      · exact (if_neg (by decide)).trans (if_neg fun h => Nat.not_le.mpr past h.2)
    · exact dif_neg lt
  · exact exec_of_serve takes rfl (fun _ => rfl) ((dif_pos n.isLt).trans (if_pos rfl))
  · refine ⟨_, exec_of_serve takes rfl (fun _ => rfl) ((dif_pos n.isLt).trans ((if_neg (by decide)).trans
      (if_pos ⟨rfl, le⟩))), ite_eq_right_iff.trans (by simp), fun m h => ?_⟩
    split at h
    · exact (Option.some.inj h).symm
    · cases h

end Sys2Proof.Proofs
end

