-- ==== Sys2Proof/Proofs/Slice0/Readings.lean ====
section
/-! The readings of contexts, case maps, labels, the log and the status (R53, R71, R132, R147, R183). -/

namespace Sys2Proof.Machine

open Sys2Proof

section
variable {s : State}

theorem State.mem_slotsWhere {p : Context → Bool} {i : Slot} :
    i ∈ s.slotsWhere p ↔ ∃ c, s.ctx i = some c ∧ p c = true := by
  simp [State.slotsWhere, allSlots, Option.any_eq_true]

theorem State.slotsWhere_increasing (p : Context → Bool) : (s.slotsWhere p).Pairwise (· < ·) :=
  (List.pairwise_lt_finRange _).filter _

theorem State.mem_withLicence {t : Text} {i : Slot} {c : Context} :
    (i, c) ∈ s.withLicence t ↔ s.ctx i = some c ∧ c.licence = some t := by
  simp only [State.withLicence, List.mem_filterMap, State.mem_slotsWhere, Option.map_eq_some_iff, Prod.mk.injEq,
    beq_iff_eq]
  constructor
  · rintro ⟨_, ⟨d, hd, licence⟩, e, he, rfl, rfl⟩
    obtain rfl : e = d := Option.some.inj (he.symm.trans hd)
    exact ⟨he, licence⟩
  · exact fun ⟨hc, licence⟩ => ⟨i, ⟨c, hc, licence⟩, c, hc, rfl, rfl⟩

/-! ### The context a key names (R53) -/

theorem State.firstAdmitted_mem {l : List (Slot × Context)} {x : Slot × Context} (h : s.firstAdmitted l = some x) :
    x ∈ l := by
  induction l with
  | nil => cases h
  | cons y ys ih =>
    unfold State.firstAdmitted at h
    split at h
    next z hz =>
      split at h
      · cases h; simp [ih hz]
      · cases h; simp
    next => cases h; simp

/-- The first admitted of some contexts is the one admitted before all others. -/
theorem State.firstAdmitted_of_least {l : List (Slot × Context)} {x : Slot × Context} (hx : x ∈ l)
    (least : ∀ y ∈ l, y = x ∨ s.admissionOrder x.2.adm < s.admissionOrder y.2.adm) : s.firstAdmitted l = some x := by
  induction l with
  | nil => cases hx
  | cons y ys ih =>
    have later := least y (by simp)
    unfold State.firstAdmitted
    by_cases hx' : x ∈ ys
    · rw [ih hx' fun z hz => least z (by simp [hz])]
      dsimp only
      split
      · rfl
      · exact congrArg _ (later.resolve_right ‹_›)
    · obtain rfl : x = y := (List.mem_cons.mp hx).resolve_right hx'
      split
      next z hz =>
        have hz := State.firstAdmitted_mem hz
        have after := (least z (by simp [hz])).resolve_left fun e => hx' (e ▸ hz)
        rw [if_neg (Nat.not_lt.mpr after.le)]
      next => rfl

theorem State.admissionOrder_lt {m n : Nat} (lt : m < n) (past : n < s.tracker.nextAdm) :
    s.admissionOrder m < s.admissionOrder n := by
  simp [State.admissionOrder, past, lt.trans past, lt]

theorem State.lookup_badField {key : ContextKey}
    (h : (∃ n, key = .slot n ∧ 64 ≤ n) ∨ (∃ t, key = .licence t ∧ isDigits 18 t = false)) :
    s.lookup key = .badField := by
  rcases h with ⟨n, rfl, le⟩ | ⟨t, rfl, bad⟩
  · exact dif_neg (Nat.not_lt.mpr le)
  · exact if_neg (by simp [isLicence, bad])

theorem State.lookup_notFound {key : ContextKey} (h : (∃ i : Slot, key = .slot i.val ∧ s.ctx i = none)
    ∨ (∃ t, key = .licence t ∧ isDigits 18 t = true ∧ ∀ i c, s.ctx i = some c → c.licence ≠ some t)) :
    s.lookup key = .notFound := by
  rcases h with ⟨i, rfl, free⟩ | ⟨t, rfl, digits, unknown⟩
  · exact (dif_pos i.isLt).trans (by simp [free])
  · refine (if_pos digits).trans ?_
    have none : s.withLicence t = [] := List.eq_nil_iff_forall_not_mem.mpr fun ⟨i, c⟩ h =>
      have ⟨hc, licence⟩ := State.mem_withLicence.mp h
      unknown i c hc licence
    simp [none, State.firstAdmitted]

theorem State.lookup_found {key : ContextKey} {i : Slot} {c : Context} (hc : s.ctx i = some c)
    (h : key = .slot i.val ∨ (∃ t, key = .licence t ∧ isDigits 18 t = true ∧ c.licence = some t
      ∧ ∀ j d, s.ctx j = some d → d.licence = some t → j = i ∨ (c.adm < d.adm ∧ d.adm < s.tracker.nextAdm))) :
    s.lookup key = .found i c := by
  rcases h with rfl | ⟨t, rfl, digits, licence, least⟩
  · exact (dif_pos i.isLt).trans (by simp [hc])
  · refine (if_pos digits).trans ?_
    have first : s.firstAdmitted (s.withLicence t) = some (i, c) := by
      refine State.firstAdmitted_of_least (State.mem_withLicence.mpr ⟨hc, licence⟩) fun ⟨j, d⟩ h => ?_
      obtain ⟨hd, same⟩ := State.mem_withLicence.mp h
      rcases least j d hd same with rfl | ⟨lt, past⟩
      · exact .inl (by simp [Option.some.inj (hd.symm.trans hc)])
      · exact .inr (State.admissionOrder_lt lt past)
    simp [first]

/-! ### Views -/

theorem toList_eq_of_two {α : Type} (v : Vector α 2) : v.toList = [v[(0 : LineNo)], v[(1 : LineNo)]] := by
  refine List.ext_getElem (by simp) fun k hk _ => ?_
  obtain rfl | rfl : k = 0 ∨ k = 1 := by
    rw [Vector.length_toList] at hk
    omega
  all_goals simp

theorem State.length_sharers (i : Slot) (t : Text) : (s.sharers i t).length =
    (allSlots.filter fun j => j ≠ i && ((s.ctx j).any fun d => d.licence == some t)).length := by
  simp [State.sharers, State.slotsWhere, List.filter_filter]

theorem caseView_fst (t : Tally) (p : Nat × CaseEntry) : (caseView t p).1 = p.1 := by
  unfold caseView
  split <;> rfl

theorem caseView_snd {t : Tally} {p : Nat × CaseEntry} :
    (p.2 = .unknown → (caseView t p).2 = none) ∧ ∀ y, p.2 = .counted y → (caseView t p).2 = some (linePosition t y) := by
  obtain ⟨k, e⟩ := p
  cases e <;> simp [caseView]

theorem State.placeInQueue_eq_none {l : Lane} {i : Slot} :
    ((s.queue l).findIdx? fun j => j == i).map (· + 1) = none ↔ i ∉ s.queue l := by
  rw [Option.map_eq_none_iff, List.findIdx?_eq_none_iff]
  exact ⟨fun all h => by simpa using all i h, fun out j hj => beq_eq_false_iff_ne.mpr fun e => out (e ▸ hj)⟩

end

end Sys2Proof.Machine

namespace Sys2Proof.Proofs

open Sys2Proof Sys2Proof.Machine

/-- Settles O55: each reading is the lookup of its context, or of the log's entry by age, and the view of what is there. -/
theorem contextLogAndStatusReadings : Obligations.ContextLogAndStatusReadings := by
  unfold Obligations.ContextLogAndStatusReadings
  refine ⟨fun s src tag key => ⟨fun bad => ?_, fun n takes out => ?_, fun missing => ?_, fun i c hc named => ?_⟩,
    fun s src tag n takes => ⟨fun bad => ?_, fun pos le past => ?_, fun e pos le found => ?_⟩, fun s src tag takes => ?_⟩
  · have none : (s.taken src).lookup key = .badField := State.lookup_badField bad
    exact ⟨fun takes => exec_of_serve takes rfl (fun _ => rfl) (by simp [State.serve, State.contextGet, State.refuse, none]),
      fun n takes => exec_of_serve takes rfl (fun _ => rfl)
        (by simp only [State.serve, State.caseMapGet, State.refuse, none, ite_self]),
      fun takes => exec_of_serve takes rfl (fun _ => rfl) (by simp [State.serve, State.labelGet, State.refuse, none])⟩
  · refine exec_of_serve takes rfl (fun _ => rfl) (if_pos ?_)
    rw [Bool.not_eq_true', Bool.eq_false_iff, Ne, inRange_iff]
    omega
  · have none : (s.taken src).lookup key = .notFound := State.lookup_notFound missing
    refine ⟨fun takes => exec_of_serve takes rfl (fun _ => rfl)
        (by simp [State.serve, State.contextGet, State.refuse, none]), fun n takes pos le => ?_,
      fun takes => exec_of_serve takes rfl (fun _ => rfl) (by simp [State.serve, State.labelGet, State.refuse, none])⟩
    exact exec_of_serve takes rfl (fun _ => rfl)
      (by simp [State.serve, State.caseMapGet, State.refuse, none, pos, le, inRange])
  · have found : (s.taken src).lookup key = .found i c := State.lookup_found hc named
    refine ⟨fun takes => ?_, fun n takes pos le => ?_, fun takes => ?_⟩
    · have served : (s.taken src).contextGet key = ⟨s.taken src, .ok, .context ⟨i, c,
          ((s.queue c.lane).findIdx? fun j => j == i).map (· + 1),
          match key with
          | .slot _ => none
          | .licence t => some (s.sharers i t).length⟩⟩ := by
        unfold State.contextGet
        rw [found]
        cases key <;> rfl
      refine ⟨_, exec_of_serve takes rfl (fun _ => rfl) served, rfl, rfl, State.placeInQueue_eq_none, ?_, ?_⟩
      · rintro rfl
        rfl
      · rintro t rfl
        exact congrArg _ (State.length_sharers i t)
    · have served : (s.taken src).caseMapGet key n = ⟨s.taken src, .ok, .caseMap
          (((c.tally.cases.filter fun p => Nat.ble n p.1).take 32).map (caseView c.tally))
          (((c.tally.cases.filter fun p => Nat.ble n p.1).drop 32).head?.map (·.1))⟩ := by
        unfold State.caseMapGet
        rw [found, inRange_iff.mpr ⟨pos, le⟩]
        rfl
      have keys : (c.tally.cases.map (·.1)).filter (fun k => decide (n ≤ k))
          = (c.tally.cases.filter fun p => Nat.ble n p.1).map (·.1) := by
        rw [List.filter_map]
        exact congrArg _ (List.filter_congr fun p _ => Bool.eq_iff_iff.mpr (by simp))
      refine ⟨_, _, exec_of_serve takes rfl (fun _ => rfl) served, ?_, ?_, fun e he => ?_⟩
      · rw [keys, ← List.map_take, List.map_map]
        exact List.map_congr_left fun p _ => caseView_fst _ p
      · rw [keys, ← List.map_drop, List.head?_map]
      · obtain ⟨p, hp, rfl⟩ := List.mem_map.mp he
        exact ⟨p.2, by rw [caseView_fst]; exact List.mem_of_mem_filter (List.mem_of_mem_take hp), caseView_snd⟩
    · have served : (s.taken src).labelGet key = ⟨s.taken src, .ok, .label ((s.taken src).labelView i c)⟩ := by
        unfold State.labelGet
        rw [found]
      exact ⟨_, exec_of_serve takes rfl (fun _ => rfl) served, rfl, rfl, rfl, rfl⟩
  · refine exec_of_serve takes rfl (fun _ => rfl) (if_pos ?_)
    rw [Bool.not_eq_true', Bool.eq_false_iff, Ne, inRange_iff]
    omega
  · exact exec_of_serve takes rfl (fun _ => rfl)
      (by simp [State.serve, State.logGet, inRange, pos, le, Nat.not_le.mpr past])
  · have le_log : n ≤ s.labels.log.length := by
      have := (List.getElem?_eq_some_iff.mp found).1
      simp only [List.length_reverse] at this
      omega
    have at_age : s.labels.log[s.labels.log.length - n]? = some e := by
      rw [← found, List.getElem?_reverse (by omega)]
      congr 1
      omega
    exact exec_of_serve takes rfl (fun _ => rfl) (by simp [State.serve, State.logGet, inRange, pos, le, le_log, at_age])
  · have carried : exec (.statusGet src tag) s = .next (s.request (.statusGet src tag) src 0x67 tag) := rfl
    refine ⟨(s.taken src).answered src 0x67 tag .ok (.status (s.taken src).statusView), (s.taken src).statusView,
      ?_, rfl, rfl, rfl, rfl, rfl, rfl, rfl, rfl, rfl, rfl, rfl, rfl, rfl, rfl, ?_, ?_, rfl, rfl, rfl, rfl, rfl⟩
    · rw [carried, State.request_of_takes takes]
      rfl
    · exact toList_eq_of_two _
    · rfl

end Sys2Proof.Proofs
end

