-- ==== Sys2Proof/Proofs/Slice0/Tracks.lean ====
section
/-! What the blocks leave of the tracking of the pallets. Label jobs, compositions and orders change a context's record
only where it serves them; what is left of it without those fields is its core. -/

namespace Sys2Proof.Machine

open Sys2Proof

/-- A context without the fields that serve its label, its job and its orders. -/
def Context.core (c : Context) : Context :=
  { c with orders := [], job := none, voided := none, label := none, labelSerial := none, compStatus := .none }

/-- What a context keeps from its admission to its closure. -/
def Context.tag (c : Context) : Nat × Option Text × Lane := (c.adm, c.licence, c.lane)

/-- The core of the open context in a slot. -/
def State.core (s : State) (i : Slot) : Option Context := (s.ctx i).map Context.core

/-- The tracking of every pallet but those in some slots is kept: the cores of their contexts, and for all the
admissions, the lane queues and the admission counter. -/
structure State.Tracks (is : List Slot) (s t : State) : Prop where
  cores   : ∀ j, j ∉ is → t.core j = s.core j
  tags    : ∀ j, (t.ctx j).map Context.tag = (s.ctx j).map Context.tag
  queues  : ∀ l, t.queue l = s.queue l
  nextAdm : t.tracker.nextAdm = s.tracker.nextAdm

theorem Context.tag_core (c : Context) : c.core.tag = c.tag := rfl

/-- Contexts of one core differ in the label, the job and the orders only. -/
theorem Context.exists_of_core {c d : Context} (h : d.core = c.core) : ∃ o j v l n k, d =
    { c with orders := o, job := j, voided := v, label := l, labelSerial := n, compStatus := k } := by
  cases c
  cases d
  simp only [Context.core, Context.mk.injEq] at h
  simp [h]

theorem Context.tag_of_core {c d : Context} (h : d.core = c.core) : d.tag = c.tag :=
  (Context.tag_core d).symm.trans ((congrArg _ h).trans (Context.tag_core c))

section
variable {is js : List Slot} {a s t : State} {i j : Slot} {c : Context}

theorem State.core_of_ctx (h : s.ctx i = some c) : s.core i = some c.core := congrArg _ h

theorem State.ctx_of_core (h : t.core i = s.core i) (hc : s.ctx i = some c) : ∃ d, t.ctx i = some d ∧ d.core = c.core :=
  Option.map_eq_some_iff.mp (h.trans (State.core_of_ctx hc))

theorem State.ctx_eq_none_of_core (h : t.core i = s.core i) : t.ctx i = none ↔ s.ctx i = none := by
  rw [← Option.map_eq_none_iff (f := Context.core), ← Option.map_eq_none_iff (f := Context.core) (x := s.ctx i)]
  exact iff_of_eq (congrArg (· = none) h)

/-! ### Joining what several operations keep -/

theorem State.Tracks.refl (s : State) : State.Tracks is s s := ⟨fun _ _ => rfl, fun _ => rfl, fun _ => rfl, rfl⟩

/-- A further operation that keeps the tracking of as many. -/
theorem State.Tracks.next (h : State.Tracks is a s) (k : State.Tracks js s t) (sub : js ⊆ is := by simp) :
    State.Tracks is a t :=
  ⟨fun x hx => (k.cores x fun m => hx (sub m)).trans (h.cores x hx), fun x => (k.tags x).trans (h.tags x),
    fun l => (k.queues l).trans (h.queues l), k.nextAdm.trans h.nextAdm⟩

theorem State.Tracks.mono (k : State.Tracks js s t) (sub : js ⊆ is) : State.Tracks is s t :=
  State.Tracks.next (.refl s) k sub

theorem State.Tracks.ite {p : Prop} [Decidable p] {t u : State} (h : State.Tracks is s t) (k : State.Tracks is s u) :
    State.Tracks is s (if p then t else u) := by
  split
  · exact h
  · exact k

theorem State.Tracks.foldl {α : Type} {f : State → α → State} (h : ∀ s x, State.Tracks is s (f s x)) (l : List α)
    (s : State) : State.Tracks is s (l.foldl f s) := by
  induction l generalizing s with
  | nil => exact .refl _
  | cons x l ih => exact (h s x).next (ih _) (List.Subset.refl _)

theorem State.Tracks.of_tracker (h : t.tracker = s.tracker) : State.Tracks is s t := by
  constructor <;> simp [State.core, State.ctx, State.queue, h]

/-- An operation that leaves the Tracker's block. -/
theorem State.Only.tracks {bs : List Block} (h : State.Only bs s t) (out : Block.tracker ∉ bs := by decide) :
    State.Tracks is s t := .of_tracker (h.tracker.resolve_left out)

/-! ### Changes of one record -/

theorem State.modCtx_tracks_self {f : Context → Context}
    (h : ∀ c, s.ctx i = some c → (f c).tag = c.tag := by intro _ _; rfl) :
    State.Tracks [i] s (s.modCtx i f) := by
  refine ⟨fun j ne => congrArg _ (State.ctx_modCtx_of_ne (fun e => ne (by simp [e])) _ _), fun j => ?_, fun _ => rfl, rfl⟩
  rw [State.ctx_modCtx]
  split
  next e =>
    subst e
    rw [Option.map_map]
    exact Option.map_congr h
  next => rfl

theorem State.modCtx_tracks {f : Context → Context}
    (h : ∀ c, s.ctx i = some c → (f c).core = c.core := by intro _ _; rfl) :
    State.Tracks is s (s.modCtx i f) := by
  have at_i := State.modCtx_tracks_self (s := s) fun c hc => Context.tag_of_core (h c hc)
  refine ⟨fun j _ => ?_, at_i.tags, at_i.queues, at_i.nextAdm⟩
  by_cases e : i = j
  · subst e
    rw [State.core, State.ctx_modCtx_self, Option.map_map]
    exact Option.map_congr h
  · exact at_i.cores j (by simpa using fun h => e h.symm)

theorem State.putCtx_tracks {d : Context} (hc : s.ctx i = some c) (h : d.tag = c.tag) :
    State.Tracks [i] s (s.putCtx i (some d)) := by
  refine ⟨fun j ne => congrArg _ (State.ctx_putCtx_of_ne (fun e => ne (by simp [e])) _ _), fun j => ?_, fun _ => rfl, rfl⟩
  rw [State.ctx_putCtx]
  split
  next e => subst e; simp [hc, h]
  next => rfl

theorem State.modLane_tracks {l : Lane} {f : LaneRecord → LaneRecord}
    (h : ∀ r, (f r).queue = r.queue := by intro _; rfl) :
    State.Tracks is s (s.modLane l f) :=
  ⟨fun _ _ => rfl, fun _ => rfl, fun m => by rw [State.queue_modLane]; split <;> simp_all [State.queue], rfl⟩

/-! ### Emissions (R156) -/

theorem Context.core_segmentPlaced (c : Context) (o : Order) : (c.segmentPlaced o).core = c.core := by
  unfold Context.segmentPlaced
  split
  · split <;> rfl
  · rfl

theorem State.take_tracks (h : Holder) (s : State) : State.Tracks is s (s.take h).2 := by
  cases h with
  | context i =>
    simp only [State.take]
    split
    · exact State.modCtx_tracks fun c _ => Context.core_segmentPlaced _ _
    · exact .refl _
  | infeed l =>
    simp only [State.take]
    split
    · split <;> dsimp only
      · exact State.modLane_tracks
      · exact State.modLane_tracks
    · exact .refl _
  | _ => exact (State.take_only _ s).tracks (by simp [Holder.blocks])

theorem State.giveOne_tracks (h : Holder) (s : State) : State.Tracks is s (s.giveOne h) := by
  have taken := State.take_tracks (is := is) h s
  unfold State.giveOne
  split <;> rename_i e <;> rw [e] at taken
  · exact taken.next (State.place_only _ _).tracks (List.Subset.refl is)
  · exact taken

theorem State.giveMany_tracks (n : Nat) (h : Holder) (s : State) : State.Tracks is s (State.giveMany n h s) := by
  induction n generalizing s with
  | zero => exact .refl _
  | succ n ih => exact .ite ((State.giveOne_tracks h s).next (ih _) (List.Subset.refl _)) (.refl _)

theorem State.offer_tracks (h : Holder) (s : State) : State.Tracks is s (s.offer h) := by
  have given : State.Tracks is s (if s.ring.waiting.isEmpty then s.giveMany (s.heldCount h) h else s) :=
    .ite (State.giveMany_tracks _ _ _) (.refl _)
  exact .ite (.refl _) (.ite (given.next (State.joinPending_only _ _).tracks (List.Subset.refl _)) given)

theorem State.prune_tracks (h : Holder) (s : State) : State.Tracks is s (s.prune h) := (State.prune_only h s).tracks

theorem State.sendOrders_tracks (i : Slot) (os : List Order) (s : State) : State.Tracks is s (s.sendOrders i os) :=
  (State.modCtx_tracks).next (State.offer_tracks _ _) (List.Subset.refl is)

theorem State.sendInfeed_tracks (l : Lane) (c : InfeedCmd) (s : State) : State.Tracks is s (s.sendInfeed l c) := by
  unfold State.sendInfeed
  dsimp only
  split
  · exact (State.modLane_tracks).next (State.prune_tracks _ _) (List.Subset.refl is)
  · exact (State.modLane_tracks).next (State.offer_tracks _ _) (List.Subset.refl is)

theorem State.infeedDecision_tracks (l : Lane) (s : State) : State.Tracks is s (s.infeedDecision l) :=
  .ite (State.sendInfeed_tracks _ _ _) (.refl _)

theorem State.infeedAll_tracks (s : State) : State.Tracks is s s.infeedAll :=
  .foldl (fun _ _ => State.sendInfeed_tracks _ _ _) _ _

/-! ### Compositions (R127 to R131) -/

theorem State.queueComposition_tracks (id : CtxId) (k : LabelKind) (s : State) :
    State.Tracks is s (s.queueComposition id k) :=
  (State.onComposer_only _ _).tracks.next State.modCtx_tracks (List.Subset.refl is)

theorem State.startComposition_tracks (r : CompRequest) (c : Context) (s : State) :
    State.Tracks is s (s.startComposition r c) :=
  (State.onComposer_only _ _).tracks.next State.modCtx_tracks (List.Subset.refl is)

theorem State.startQueued_tracks (rs : List CompRequest) (s : State) : State.Tracks is s (s.startQueued rs) := by
  induction rs with
  | nil => exact (State.onComposer_only _ _).tracks
  | cons r rs ih =>
    unfold State.startQueued
    split
    · exact (State.onComposer_only _ _).tracks.next (State.startComposition_tracks _ _ _) (List.Subset.refl is)
    · exact ih

theorem State.startNext_tracks (s : State) : State.Tracks is s s.startNext :=
  .ite (.refl _) (State.startQueued_tracks _ _)

theorem State.requestLabel_tracks (id : CtxId) (k : LabelKind) (s : State) :
    State.Tracks is s (s.requestLabel id k) := by
  have queued : ∀ k, State.Tracks is s (s.queueComposition id k).startNext := fun k =>
    (State.queueComposition_tracks _ _ _).next (State.startNext_tracks _) (List.Subset.refl is)
  unfold State.requestLabel
  split
  · exact .refl _
  · split
    · exact queued _
    · exact (State.onComposer_only _ _).tracks
    · exact (State.onComposer_only _ _).tracks
    · exact .ite (queued _) (.refl _)
    · exact .refl _

/-! ### Label jobs (R136 to R138, R146) -/

theorem State.startJob_tracks (dst : RoleInst) (i : Slot) (s : State) : State.Tracks is s (s.startJob dst i) := by
  unfold State.startJob
  split
  · exact (State.modCtx_tracks).next (State.sendOrders_tracks _ _ _) (List.Subset.refl is)
  · exact .refl _

theorem State.startJobs_tracks (k : LineNo) (s : State) : State.Tracks is s (s.startJobs k) := by
  unfold State.startJobs
  split
  · exact .refl _
  next i rest _ =>
    have first : State.Tracks is s
        (if (s.ctx i).any Context.startable then s.startJob (.labelApplicator k) i else s) :=
      .ite (State.startJob_tracks _ _ _) (.refl _)
    dsimp only
    split
    · exact .ite (first.next (State.startJob_tracks _ _ _) (List.Subset.refl is)) first
    · exact first

theorem State.startTicket_tracks (s : State) : State.Tracks is s s.startTicket := by
  unfold State.startTicket
  split
  · exact .ite (State.startJob_tracks _ _ _) (.refl _)
  · exact .refl _

theorem State.recordReported_tracks (i : Slot) (s : State) : State.Tracks is s (s.recordReported i) := by
  unfold State.recordReported
  split
  · exact State.startJobs_tracks _ _
  · exact .ite (State.startTicket_tracks _) (.refl _)

theorem Context.core_withdrawn (dst : RoleInst) (keep : Bool) (c : Context) : (c.withdrawn dst keep).core = c.core := by
  unfold Context.withdrawn
  split <;> rfl

theorem State.withdraw_tracks (dst : RoleInst) (keep : Bool) (i : Slot) (s : State) :
    State.Tracks is s (s.withdraw dst keep i) :=
  .ite (((State.modCtx_tracks fun c _ => Context.core_withdrawn dst keep c).next (State.offer_tracks _ _)
    (List.Subset.refl is)).next (State.prune_tracks _ _) (List.Subset.refl is)) (.refl _)

theorem State.raiseInLine_tracks (i : Slot) (s : State) : State.Tracks is s (s.raiseInLine i) := by
  have started : ∀ {t : State} {k : LineNo}, State.Tracks is s t → State.Tracks is s (t.startJobs k) := fun h =>
    h.next (State.startJobs_tracks _ _) (List.Subset.refl is)
  unfold State.raiseInLine
  split
  · exact .refl _
  · split
    · dsimp only
      split
      · exact started ((State.withdraw_tracks _ _ _ _).next (State.withdraw_tracks _ _ _ _) (List.Subset.refl is))
      · exact started (State.withdraw_tracks _ _ _ _)
    · exact .refl _

theorem State.keepRecord_tracks (f : Flight) (s : State) : State.Tracks is s (s.keepRecord f) :=
  (State.onComposer_only _ _).tracks.next State.modCtx_tracks (List.Subset.refl is)

theorem State.completeComposition_tracks (s : State) : State.Tracks is s s.completeComposition := by
  unfold State.completeComposition
  split
  · exact .refl _
  next f _ =>
    have landed : State.Tracks is s (s.onComposer fun x => { x with flight := none }) := (State.onComposer_only _ _).tracks
    have started : ∀ {t : State}, State.Tracks is s t → State.Tracks is s t.startNext := fun h =>
      h.next (State.startNext_tracks _) (List.Subset.refl is)
    dsimp only
    split
    · exact started landed
    · exact .ite (started ((landed.next (State.keepRecord_tracks _ _) (List.Subset.refl is)).next
        (State.recordReported_tracks _ _) (List.Subset.refl is)))
        (started (landed.next (State.queueComposition_tracks _ _ _) (List.Subset.refl is)))

end

end Sys2Proof.Machine
end

