-- ==== Sys2Proof/Proofs/Slice0/Handed.lean ====
section
/-! What the handing of a reason leaves (R73, R78, R92, R93), and what a decision attempt does (R75 to R80). -/

namespace Sys2Proof.Machine

open Sys2Proof

/-- A context once a reason has been handed for it (R73, R78, R92): without effect where it is in the set, recorded for
a context with no verdict, else the verdict is the higher of the two, and a lane head's timer stops at a rise from
PASS (R93). -/
def Context.handed (r : Reason) (c : Context) : Context :=
  if r ∈ c.reasons then c
  else
    match c.verdict with
    | none => { c with reasons := insertReason r c.reasons }
    | some v => { c with
        reasons := insertReason r c.reasons
        verdict := some (v.max r.severity)
        timer := if c.phase = .atHeadDecided ∧ v = .pass ∧ v.max r.severity ≠ .pass then none else c.timer }

theorem Context.handed_of_mem {r : Reason} {c : Context} (h : r ∈ c.reasons) : c.handed r = c := if_pos h

theorem Context.handed_of_undecided {r : Reason} {c : Context} (out : r ∉ c.reasons) (none : c.verdict = none) :
    c.handed r = { c with reasons := insertReason r c.reasons } := by
  simp [Context.handed, out, none]

theorem Context.mem_handed (r : Reason) (c : Context) : r ∈ (c.handed r).reasons := by
  unfold Context.handed
  split
  · assumption
  · split <;> simp [mem_insertReason]

theorem Context.handed_handed (r : Reason) (c : Context) : (c.handed r).handed r = c.handed r :=
  Context.handed_of_mem (c.mem_handed r)

theorem Context.core_handed (r : Reason) (c : Context) : (c.handed r).core = c.core.handed r := by
  by_cases h : r ∈ c.reasons
  · rw [Context.handed_of_mem h, Context.handed_of_mem (c := c.core) h]
  · unfold Context.handed
    rw [if_neg h, if_neg (show r ∉ c.core.reasons from h)]
    cases v : c.verdict <;> simp [Context.core, v]

theorem Context.tag_handed (r : Reason) (c : Context) : (c.handed r).tag = c.tag := by
  unfold Context.handed
  split
  · rfl
  · split <;> rfl

theorem Context.phase_handed (r : Reason) (c : Context) : (c.handed r).phase = c.phase := by
  unfold Context.handed
  split
  · rfl
  · split <;> rfl

theorem Context.verdict_handed (r : Reason) (c : Context) : (c.handed r).verdict.isSome = c.verdict.isSome := by
  unfold Context.handed
  split
  · rfl
  · split <;> simp [*]

section
variable {is : List Slot} {s t : State} {i j : Slot} {c d : Context}

theorem State.core_eq_of_tracks (h : State.Tracks is s t) (out : i ∉ is := by simp) : t.core i = s.core i := h.cores i out

theorem State.core_stopTimer (i : Slot) (s : State) : (s.stopTimer i).core i = (s.core i).map fun c => { c with timer := none } := by
  rw [State.core, State.stopTimer, State.ctx_modCtx_self, Option.map_map, State.core, Option.map_map]
  rfl

theorem State.stopTimer_tracks (i : Slot) (s : State) : State.Tracks [i] s (s.stopTimer i) := State.modCtx_tracks_self

theorem State.report_tracks (r : Report) (s : State) : State.Tracks is s (s.report r) := (State.report_only r s).tracks

theorem State.tellRaise_tracks (id : CtxId) (p : Phase) (s : State) : State.Tracks [id.slot] s (s.tellRaise id p) := by
  have asked : State.Tracks [id.slot] s (s.requestLabel id .rejectTicket) := State.requestLabel_tracks _ _ _
  unfold State.tellRaise
  split
  · exact (State.stopTimer_tracks _ _).next (State.requestLabel_tracks (is := []) _ _ _)
  · exact asked
  · exact asked
  · exact asked.next (State.raiseInLine_tracks (is := []) _ _)
  · exact asked.next (State.raiseInLine_tracks (is := []) _ _)
  · exact .refl _

theorem State.core_tellRaise (id : CtxId) (p : Phase) (s : State) : (s.tellRaise id p).core id.slot =
    if p = .atHeadDecided then (s.core id.slot).map fun c => { c with timer := none } else s.core id.slot := by
  have asked : ∀ t : State, (t.requestLabel id .rejectTicket).core id.slot = t.core id.slot := fun t =>
    State.core_eq_of_tracks (State.requestLabel_tracks (is := []) _ _ _)
  have raised : ∀ t : State, (t.raiseInLine id.slot).core id.slot = t.core id.slot := fun t =>
    State.core_eq_of_tracks (State.raiseInLine_tracks (is := []) _ _)
  unfold State.tellRaise
  split
  · rw [asked, State.core_stopTimer, if_pos rfl]
  · exact asked s
  · exact asked s
  · exact (raised _).trans (asked s)
  · exact (raised _).trans (asked s)
  next p _ _ _ _ _ => cases p <;> simp_all

/-- A context with a verdict and a reason added (R92), before what the raise makes the other blocks do. -/
def Context.raised (v : Verdict) (r : Reason) (c : Context) : Context :=
  { c with reasons := insertReason r c.reasons, verdict := some (v.max r.severity) }

/-- The steps of R92 and R93: the context is changed, and a raise from PASS is told. -/
theorem State.addLater_spec {id : CtxId} {c : Context} (hc : s.ctx id.slot = some c) (v : Verdict) (r : Reason) :
    ∃ w, State.Tracks [id.slot] s w ∧ w.ctx id.slot = some (c.raised v r)
      ∧ s.addLater id c v r = if v = .pass ∧ v.max r.severity ≠ .pass then w.tellRaise id c.phase else w := by
  obtain ⟨w, put⟩ : ∃ w, (s.putCtx id.slot (some (c.raised v r))).report
      (verdictReport id.slot (c.raised v r) (.later v r) (v.max r.severity)) = w := ⟨_, rfl⟩
  have w_tracks : State.Tracks [id.slot] s w := by
    rw [← put]
    exact (State.putCtx_tracks (d := c.raised v r) hc rfl).next (State.report_tracks (is := []) _ _)
  have w_ctx : w.ctx id.slot = some (c.raised v r) := by rw [← put, State.report_ctx, State.ctx_putCtx_self]
  refine ⟨if v.max r.severity ≠ v ∧ c.phase = .atHeadDecided then w.callArbiter else w, ?_, ?_, ?_⟩
  · exact .ite (w_tracks.next (State.onAlloc_only _ _).tracks (js := [])) w_tracks
  · split <;> exact w_ctx
  · rw [← put]
    rfl

theorem State.addLater_tracks {id : CtxId} {c : Context} (hc : s.ctx id.slot = some c) (v : Verdict) (r : Reason) :
    State.Tracks [id.slot] s (s.addLater id c v r) := by
  obtain ⟨w, tracks, -, eq⟩ := State.addLater_spec hc v r
  rw [eq]
  exact .ite (tracks.next (State.tellRaise_tracks _ _ _)) tracks

theorem State.core_addLater {id : CtxId} {c : Context} {v : Verdict} {r : Reason} (hc : s.ctx id.slot = some c)
    (out : r ∉ c.reasons) (hv : c.verdict = some v) : (s.addLater id c v r).core id.slot = some (c.handed r).core := by
  obtain ⟨w, -, at_w, eq⟩ := State.addLater_spec hc v r
  have handed : c.handed r = { c.raised v r with
      timer := if c.phase = .atHeadDecided ∧ v = .pass ∧ v.max r.severity ≠ .pass then none else c.timer } := by
    simp [Context.handed, out, hv, Context.raised]
  rw [eq, handed]
  by_cases rise : v = .pass ∧ v.max r.severity ≠ .pass
  · rw [if_pos rise, State.core_tellRaise, State.core_of_ctx at_w]
    by_cases head : c.phase = .atHeadDecided
    · rw [if_pos head, if_pos ⟨head, rise⟩]
      rfl
    · rw [if_neg head, if_neg fun h => head h.1]
      rfl
  · rw [if_neg rise, State.core_of_ctx at_w, if_neg fun h => rise h.2]
    rfl

/-- A reason handed for a context that is open. -/
theorem State.core_handReason {id : CtxId} {c : Context} (named : s.named id = some c) (r : Reason) :
    (s.handReason id r).core id.slot = some (c.handed r).core := by
  have hc := (State.named_eq_some named).1
  unfold State.handReason
  simp only [named]
  split
  next h => rw [Context.handed_of_mem (by simpa using h), State.core_of_ctx hc]
  next h =>
    have out : r ∉ c.reasons := by simpa using h
    split
    next none => rw [Context.handed_of_undecided out none, State.core, State.ctx_modCtx_self, hc]; rfl
    next v hv => exact State.core_addLater hc out hv

theorem State.handReason_tracks (id : CtxId) (r : Reason) (s : State) : State.Tracks [id.slot] s (s.handReason id r) := by
  unfold State.handReason
  split
  · exact .refl _
  next c named =>
    refine .ite (.refl _) ?_
    split
    · exact State.modCtx_tracks_self
    · exact State.addLater_tracks (State.named_eq_some named).1 _ _

theorem State.idOf_of_ctx (hc : s.ctx i = some c) : s.idOf i = some ⟨i, c.adm⟩ := by simp [State.idOf, hc]

theorem State.named_of_ctx (hc : s.ctx i = some c) : s.named ⟨i, c.adm⟩ = some c := by simp [State.named, hc]

theorem State.handSlot_of_ctx (hc : s.ctx i = some c) (r : Reason) : s.handSlot i r = s.handReason ⟨i, c.adm⟩ r := by
  simp [State.handSlot, State.idOf_of_ctx hc]

theorem State.handSlot_of_free (free : s.ctx i = none) (r : Reason) : s.handSlot i r = s := by
  simp [State.handSlot, State.idOf, free]

theorem State.handSlot_tracks (i : Slot) (r : Reason) (s : State) : State.Tracks [i] s (s.handSlot i r) := by
  cases hc : s.ctx i with
  | none => rw [State.handSlot_of_free hc]; exact .refl _
  | some c => rw [State.handSlot_of_ctx hc]; exact State.handReason_tracks ⟨i, c.adm⟩ r s

theorem State.core_handSlot (i j : Slot) (r : Reason) (s : State) :
    (s.handSlot i r).core j = if i = j then (s.core j).map (Context.handed r) else s.core j := by
  split
  next e =>
    subst e
    cases hc : s.ctx i with
    | none => rw [State.handSlot_of_free hc]; simp [State.core, hc]
    | some c =>
      rw [State.handSlot_of_ctx hc, State.core_of_ctx hc]
      exact (State.core_handReason (State.named_of_ctx hc) r).trans (congrArg _ (Context.core_handed r c))
  next ne => exact (State.handSlot_tracks i r s).cores j (by simpa using fun h => ne h.symm)

theorem State.handAll_tracks (is : List Slot) (r : Reason) (s : State) : State.Tracks is s (s.handAll is r) := by
  suffices ∀ (l : List Slot) s, l ⊆ is → State.Tracks is s (State.handAll l r s) from this is s (List.Subset.refl _)
  intro l
  induction l with
  | nil => exact fun s _ => .refl _
  | cons i l ih =>
    exact fun s sub => ((State.handSlot_tracks i r s).mono (by simpa using sub (List.mem_cons_self ..))).next
      (ih _ fun x hx => sub (by simp [hx])) (List.Subset.refl _)

theorem State.core_handAll (is : List Slot) (j : Slot) (r : Reason) (s : State) :
    (s.handAll is r).core j = if j ∈ is then (s.core j).map (Context.handed r) else s.core j := by
  induction is generalizing s with
  | nil => rfl
  | cons i is ih =>
    show (State.handAll is r (s.handSlot i r)).core j = _
    rw [ih, State.core_handSlot]
    by_cases e : i = j
    · subst e
      have twice : Context.handed r ∘ Context.handed r = Context.handed r := funext fun c => c.handed_handed r
      simp [Option.map_map, twice]
    · simp [e, Ne.symm e]

end

end Sys2Proof.Machine
end

