-- ==== Sys2Proof/Proofs/Slice0/Decisions.lean ====
section
/-! Decision attempts (R75 to R91, R94): what a decision leaves of its context, its lane's scale and the arbiter. -/

namespace Sys2Proof.Machine

open Sys2Proof

section
variable {is : List Slot} {s t : State} {i j : Slot} {c d : Context}

/-! ### Reason sets (R73, R74) -/

theorem mem_insertReasons {r : Reason} {rs set : List Reason} : r ∈ insertReasons rs set ↔ r ∈ rs ∨ r ∈ set := by
  induction rs generalizing set with
  | nil => simp [insertReasons]
  | cons x xs ih =>
    show r ∈ insertReasons xs (insertReason x set) ↔ _
    rw [ih, mem_insertReason]
    simp only [List.mem_cons]
    tauto

theorem Verdict.le_trans {u v w : Verdict} (h : u.le v) (k : v.le w) : u.le w := Nat.le_trans h k

theorem Verdict.le_max_right (v w : Verdict) : w.le (v.max w) := by
  unfold Verdict.le Verdict.max
  split <;> omega

theorem le_foldl_severity (v : Verdict) (rs : List Reason) : v.le (rs.foldl (fun v r => v.max r.severity) v) := by
  induction rs generalizing v with
  | nil => exact Nat.le_refl _
  | cons x xs ih => exact Verdict.le_trans (Verdict.le_max v x.severity) (ih _)

/-- The severity of a set is that of none of its reasons less (R74). -/
theorem severity_le_severityOf {r : Reason} {rs : List Reason} (h : r ∈ rs) : r.severity.le (severityOf rs) := by
  unfold severityOf
  generalize Verdict.pass = v
  induction rs generalizing v with
  | nil => cases h
  | cons x xs ih =>
    rcases List.mem_cons.mp h with rfl | h
    · exact Verdict.le_trans (Verdict.le_max_right v _) (le_foldl_severity _ xs)
    · exact ih h _

/-! ### The composition a decision asks for (R127) -/

/-- The context in a slot has a composition queued, in flight or done. -/
def State.Asked (i : Slot) (s : State) : Prop := ∃ d, s.ctx i = some d ∧ d.compStatus ≠ .none

theorem State.Asked.modCtx (h : s.Asked i) (j : Slot) {f : Context → Context}
    (keeps : ∀ c, c.compStatus ≠ .none → (f c).compStatus ≠ .none) : (s.modCtx j f).Asked i := by
  obtain ⟨d, hd, asked⟩ := h
  by_cases e : j = i
  · subst e
    exact ⟨f d, by simp [hd], keeps d asked⟩
  · exact ⟨d, by rw [State.ctx_modCtx_of_ne e, hd], asked⟩

theorem State.Asked.startQueued (h : s.Asked i) (rs : List CompRequest) : (s.startQueued rs).Asked i := by
  induction rs with
  | nil => exact h
  | cons r rs ih =>
    unfold State.startQueued
    split
    · exact State.Asked.modCtx (s := State.onComposer _ (State.onComposer _ s)) h _ fun _ _ => by simp
    · exact ih

theorem State.Asked.startNext (h : s.Asked i) : s.startNext.Asked i := by
  unfold State.startNext
  split
  · exact h
  · exact h.startQueued _

theorem State.asked_requestLabel {id : CtxId} (named : s.named id = some c) (none : c.compStatus = .none)
    (k : LabelKind) : (s.requestLabel id k).Asked id.slot := by
  have queued : (s.queueComposition id k).Asked id.slot :=
    ⟨{ c with compStatus := .queued }, (State.ctx_modCtx_self _ _ _).trans
      (congrArg (Option.map _) (State.named_eq_some named).1), by simp⟩
  unfold State.requestLabel
  simp only [named, none]
  exact queued.startNext

/-! ### A decision completed (R90, R91) -/

/-- The context a completed decision leaves, but for what its label request changes. -/
def State.concluded (s : State) (c : Context) (rs : List Reason) (v : Verdict) (weight : Option WeightFigures)
    (estimate : Option Nat) (height : Option HeightFigures) (sighted : Option (List Nat)) : Context :=
  let scale := (s.updateScale c.lane weight).scale c.lane
  { c with
    verdict := some v, reasons := rs, waiting := [], phase := .atHeadDecided
    timer := if v = .pass then some s.ctl.params.wrapWaitLimit else none
    record := some { weight := weight, estimate := estimate, height := height, sighted := sighted,
                     unknown := c.tally.unknownCount, duplicates := c.tally.duplicates, scale := scale.state,
                     streak := scale.streak, time := s.recon.clock } }

theorem State.recon_clock_updateScale (l : Lane) (f : Option WeightFigures) (s : State) :
    (s.updateScale l f).recon.clock = s.recon.clock := by
  unfold State.updateScale
  dsimp only
  split <;> simp [State.putScale]

@[simp] theorem State.updateScale_ctl (l : Lane) (f : Option WeightFigures) (s : State) :
    (s.updateScale l f).ctl = s.ctl := by simpa using (State.updateScale_only l f s).ctl

/-- The steps of a completed decision: the context is decided, the arbiter is due, and a ticket is asked for unless the
verdict is PASS. -/
theorem State.conclude_spec (hc : s.ctx i = some c) (cause : VerdictCause) (rs : List Reason) (v : Verdict)
    (wt : Option WeightFigures) (e : Option Nat) (ht : Option HeightFigures) (g : Option (List Nat)) :
    ∃ w, State.Tracks [i] s w ∧ w.ctx i = some (s.concluded c rs v wt e ht g)
      ∧ w.recon = (s.updateScale c.lane wt).recon ∧ w.alloc.arbiterDue = true
      ∧ s.conclude i c cause rs v wt e ht g = if v = .pass then w else w.requestLabel ⟨i, c.adm⟩ .rejectTicket := by
  obtain ⟨a, scaled⟩ : ∃ a, s.updateScale c.lane wt = a := ⟨_, rfl⟩
  have a_tracks : State.Tracks [i] s a := scaled ▸ (State.updateScale_only _ _ _).tracks
  have a_ctx : a.ctx i = some c := by rw [← scaled, State.updateScale_ctx, hc]
  have a_clock : a.recon.clock = s.recon.clock := scaled ▸ State.recon_clock_updateScale _ _ _
  have a_ctl : a.ctl = s.ctl := scaled ▸ State.updateScale_ctl _ _ _
  obtain ⟨x, done⟩ : ∃ x, s.concluded c rs v wt e ht g = x := ⟨_, rfl⟩
  have x_tag : x.tag = c.tag := done ▸ rfl
  refine ⟨((a.putCtx i (some x)).report (verdictReport i x cause v)).callArbiter, ?_, ?_, ?_, rfl, ?_⟩
  · exact ((a_tracks.next (State.putCtx_tracks a_ctx x_tag)).next (State.report_tracks (is := []) _ _)).next
      (State.onAlloc_only _ _).tracks (js := [])
  · show ((a.putCtx i (some x)).report _).ctx i = _
    simp [done]
  · simp [State.callArbiter, scaled]
  · unfold State.conclude
    simp only [scaled]
    have built : x = { c with
        verdict := some v, reasons := rs, waiting := [], phase := .atHeadDecided, timer := a.decidedTimer v
        record := some { weight := wt, estimate := e, height := ht, sighted := g,
                         unknown := c.tally.unknownCount, duplicates := c.tally.duplicates,
                         scale := (a.scale c.lane).state, streak := (a.scale c.lane).streak, time := a.recon.clock } } := by
      rw [← done, State.concluded, scaled, a_clock, State.decidedTimer, State.params, a_ctl]
    rw [built]

theorem State.conclude_tracks (hc : s.ctx i = some c) (cause : VerdictCause) (rs : List Reason) (v : Verdict)
    (wt : Option WeightFigures) (e : Option Nat) (ht : Option HeightFigures) (g : Option (List Nat)) :
    State.Tracks [i] s (s.conclude i c cause rs v wt e ht g) := by
  obtain ⟨w, tracks, -, -, -, eq⟩ := State.conclude_spec hc cause rs v wt e ht g
  rw [eq]
  exact .ite tracks (tracks.next (State.requestLabel_tracks (is := []) _ _ _))

/-- What a completed decision leaves. -/
theorem State.conclude_leaves (hc : s.ctx i = some c) (cause : VerdictCause) (rs : List Reason) (v : Verdict)
    (wt : Option WeightFigures) (e : Option Nat) (ht : Option HeightFigures) (g : Option (List Nat)) :
    ∃ u d, s.conclude i c cause rs v wt e ht g = u ∧ u.ctx i = some d ∧ d.core = (s.concluded c rs v wt e ht g).core
      ∧ u.recon = (s.updateScale c.lane wt).recon ∧ u.alloc.arbiterDue = true
      ∧ (c.compStatus = .none → (d.compStatus = .none ↔ v = .pass)) := by
  obtain ⟨w, -, at_w, recon, due, eq⟩ := State.conclude_spec hc cause rs v wt e ht g
  by_cases pass : v = .pass
  · exact ⟨w, _, by rw [eq, if_pos pass], at_w, rfl, recon, due, fun none => iff_of_true none pass⟩
  · have only := State.requestLabel_only ⟨i, c.adm⟩ .rejectTicket w
    obtain ⟨d, hd, core⟩ := State.ctx_of_core
      (State.core_eq_of_tracks (State.requestLabel_tracks (is := []) ⟨i, c.adm⟩ .rejectTicket w)) at_w
    refine ⟨_, d, by rw [eq, if_neg pass], hd, core, (only.recon.resolve_left (by decide)).trans recon,
      by rw [only.alloc.resolve_left (by decide), due], fun none => iff_of_false ?_ pass⟩
    have named : w.named ⟨i, c.adm⟩ = some (s.concluded c rs v wt e ht g) := State.named_of_ctx at_w
    obtain ⟨d', hd', asked⟩ := State.asked_requestLabel named none .rejectTicket
    rwa [Option.some.inj (hd.symm.trans hd')]

/-! ### The scale (R94) -/

theorem State.scale_putScale_self (l : Lane) (x : Scale) (s : State) : (s.putScale l x).scale l = x := by
  rw [State.scale_putScale, if_pos rfl]

theorem State.putScale_scale (l : Lane) (s : State) : s.putScale l (s.scale l) = s := by
  unfold State.putScale State.scale State.onRecon
  simp

theorem State.scale_report (l : Lane) (r : Report) (s : State) : (s.report r).scale l = s.scale l := by
  simp [State.scale]

theorem State.scale_updateScale (l : Lane) (f : Option WeightFigures) (s : State) :
    (s.updateScale l f).scale l = scaleAfter s.ctl.params.scaleStreak f (s.scale l) := by
  unfold State.updateScale
  dsimp only
  split
  · rw [State.scale_report, State.scale_putScale_self]
    rfl
  · rw [State.scale_putScale_self]
    rfl

theorem State.updateScale_none (l : Lane) (s : State) : s.updateScale l none = s := by
  have still : ¬ ((s.scale l).state = .normal ∧ (s.scale l).state = .suspect) := by
    rintro ⟨normal, suspect⟩
    rw [normal] at suspect
    cases suspect
  exact (if_neg still).trans (State.putScale_scale l s)

/-! ### Attempts (R75 to R80) -/

theorem State.attempt_of_shortcut (hc : s.ctx i = some c) (none : c.verdict = none) (short : c.shortcut = true) :
    s.attempt i = s.decideAtOnce i c := by
  simp [State.attempt, hc, none, short]

theorem State.waitingItems_eq_nil : s.waitingItems c = [] ↔
    (∃ p, s.boundPlan c = some p ∧ (s.resolve p).isSome = true) ∧ s.holds.currency = .current
      ∧ s.holds.day.isSome = true := by
  unfold State.waitingItems
  cases plan : s.boundPlan c with
  | none => simp
  | some p => cases r : s.resolve p <;> cases s.holds.currency <;> cases s.holds.day <;> simp [r]

theorem State.inputs_isSome (met : s.waitingItems c = []) : (s.inputs c).isSome = true := by
  obtain ⟨⟨p, plan, resolved⟩, -, known⟩ := State.waitingItems_eq_nil.mp met
  obtain ⟨d, day⟩ := Option.isSome_iff_exists.mp known
  obtain ⟨r, resolved⟩ := Option.isSome_iff_exists.mp resolved
  simp [State.inputs, plan, day, resolved]

theorem State.attempt_of_met {x : Inputs} (hc : s.ctx i = some c) (none : c.verdict = none) (long : c.shortcut = false)
    (met : s.waitingItems c = []) (read : s.inputs c = some x) : s.attempt i = s.decideByChecks i x := by
  simp [State.attempt, hc, none, long, met, read]

theorem State.attempt_of_unmet (hc : s.ctx i = some c) (none : c.verdict = none) (long : c.shortcut = false)
    (unmet : s.waitingItems c ≠ []) : s.attempt i = s.wait i c (s.waitingItems c) := by
  unfold State.attempt
  simp only [hc, none, long]
  cases items : s.waitingItems c with
  | nil => exact absurd items unmet
  | cons x xs => rfl

theorem State.attempt_of_decided (h : ∀ c, s.ctx i = some c → c.verdict.isSome = true) : s.attempt i = s := by
  unfold State.attempt
  split
  · rfl
  next c hc => exact if_pos (h c hc)

theorem State.wait_tracks (hc : s.ctx i = some c) (items : List WaitItem) : State.Tracks [i] s (s.wait i c items) := by
  have put : ∀ d : Context, d.tag = c.tag → State.Tracks [i] s (s.putCtx i (some d)) := fun d => State.putCtx_tracks hc
  refine .ite (put _ rfl) (.ite ?_ (put _ rfl))
  refine (put { c with waiting := items, phase := .waiting, timer := some s.params.decisionLimit } rfl).next ?_
    (js := [i])
  unfold State.park
  split
  · exact .refl _
  next d hd => exact State.conclude_tracks hd _ _ _ _ _ _ _

theorem State.attempt_tracks (i : Slot) (s : State) : State.Tracks [i] s (s.attempt i) := by
  unfold State.attempt
  split
  · exact .refl _
  next c hc =>
    refine .ite (.refl _) (.ite (State.conclude_tracks hc _ _ _ _ _ _ _) ?_)
    split
    next x _ read =>
      have ctx := State.inputs_ctx read
      exact State.conclude_tracks (ctx ▸ hc) _ _ _ _ _ _ _
    next => exact State.wait_tracks hc _

end

end Sys2Proof.Machine
end

