-- ==== Sys2Proof/Proofs/Slice0/Verdicts.lean ====
section
/-! The decision of the checks and the attempts without them (R76 to R94). -/

namespace Sys2Proof.Machine

open Sys2Proof

section
variable {s : State} {i : Slot} {c : Context} {r : Reason}

/-- Where the Reconciler's block is kept, it may leave the footprint. -/
theorem State.Only.keep_recon {bs : List Block} {t : State} (h : State.Only bs s t) (kept : t.recon = s.recon) :
    State.Only (bs.filter (· ≠ .recon)) s t := by
  obtain ⟨refs, holds, tracker, -, alloc, composer, labels, ring, mgmt, watch, ctl, pending⟩ := h
  constructor <;> simp_all

/-! ### The reasons of the checks (R82 to R89) -/

theorem mem_failing {q : Reason} {b : Bool} : r ∈ failing q b ↔ r = q ∧ b = true := by
  unfold failing
  split <;> simp [*]

theorem Inputs.mem_shelfLife {x : Inputs} {l : PlanLine} : r ∈ x.shelfLife l ↔ x.sighted l.article ≠ 0 ∧
    ((r = .noDate ∧ earliest (linesOf l.article x.ctx.tally.lines) = none)
      ∨ ∃ b, earliest (linesOf l.article x.ctx.tally.lines) = some b ∧
        ((r = .expired ∧ b < x.day) ∨ (r = .shortLife ∧ x.day ≤ b ∧ b - x.day < x.consignment.minShelfLife))) := by
  unfold Inputs.shelfLife
  split
  next zero => simp [zero]
  next sighted =>
    cases earliest (linesOf l.article x.ctx.tally.lines) with
    | none => simp [sighted]
    | some b =>
      dsimp only
      split
      next past => simp [sighted, past, Nat.not_le.mpr past]
      next ahead =>
        split
        next short => simp [sighted, ahead, short, Nat.not_lt.mp ahead]
        next long => simp [sighted, ahead, long]

theorem Inputs.weightFigures_of_normal {x : Inputs} {w : Nat} (weight : x.ctx.weight = some w)
    (normal : x.scale.state = .normal) :
    x.weightFigures = some ⟨x.expectedWeight, x.weightTolerance, w, (w : Int) - x.expectedWeight⟩ := by
  simp [Inputs.weightFigures, weight, normal]

theorem Inputs.weightFigures_eq_none {x : Inputs} (h : x.ctx.weight = none ∨ x.scale.state = .suspect) :
    x.weightFigures = none := by
  unfold Inputs.weightFigures
  rcases h with h | h
  · simp [h]
  · cases weight : x.ctx.weight <;> simp [h]

theorem Inputs.mem_weightReasons {x : Inputs} : r ∈ x.weightReasons ↔
    (r = .scaleSuspect ∧ x.ctx.weight.isSome = true ∧ x.scale.state = .suspect)
      ∨ (∃ w, x.ctx.weight = some w ∧ x.scale.state = .normal ∧
          ((r = .underWeight ∧ w + x.weightTolerance < x.expectedWeight)
            ∨ (r = .overWeight ∧ x.expectedWeight + x.weightTolerance < w))) := by
  unfold Inputs.weightReasons
  cases weight : x.ctx.weight with
  | none => simp
  | some w =>
    cases state : x.scale.state with
    | suspect => simp
    | normal =>
      simp only [Inputs.weightFigures_of_normal weight state, mem_failing, WeightFigures.fails, decide_eq_true_eq]
      have under : (if (w : Int) - x.expectedWeight < 0 then Reason.underWeight else .overWeight) =
          if w < x.expectedWeight then .underWeight else .overWeight := by
        congr 1
        exact propext (by omega)
      rw [under]
      by_cases lt : w < x.expectedWeight
      · have above : x.weightTolerance < ((w : Int) - x.expectedWeight).natAbs ↔ w + x.weightTolerance < x.expectedWeight := by
          omega
        have light : ¬ x.expectedWeight + x.weightTolerance < w := by omega
        simp [lt, above, light]
      · have above : x.weightTolerance < ((w : Int) - x.expectedWeight).natAbs ↔ x.expectedWeight + x.weightTolerance < w := by
          omega
        have heavy : ¬ w + x.weightTolerance < x.expectedWeight := by omega
        simp [lt, above, heavy]

theorem Inputs.heightFails_iff {x : Inputs} : x.heightFails = true ↔ ∃ h, x.ctx.height = some h ∧
    (h + x.params.heightTol < x.expectedHeight ∨ x.expectedHeight + x.params.heightTol < h) := by
  unfold Inputs.heightFails Inputs.heightFigures
  cases x.ctx.height with
  | none => simp
  | some h =>
    simp only [Option.map_some, Option.any_some, decide_eq_true_eq, Option.some.injEq, exists_eq_left']
    omega

theorem Inputs.mem_checks {x : Inputs} {held : Bool} : r ∈ x.checks held ↔
      (r = .foreignArticle ∧ ∃ t ∈ x.ctx.tally.lines, ∀ l ∈ x.plan.lines, l.article ≠ t.content.article)
      ∨ (r = .unsighted ∧ ∃ l ∈ x.plan.lines, x.sighted l.article < min l.count x.consignment.sightings)
      ∨ (r = .overCount ∧ ∃ l ∈ x.plan.lines, l.count < x.sighted l.article)
      ∨ (r = .mixedLots ∧ ∃ t ∈ x.ctx.tally.lines,
          x.consignment.maxLots < (distinctLots (linesOf t.content.article x.ctx.tally.lines)).length)
      ∨ (r = .noLot ∧ ∃ t ∈ x.ctx.tally.lines, t.content.lot = none)
      ∨ (r = .lotHeld ∧ held = true)
      ∨ (∃ l ∈ x.plan.lines, x.sighted l.article ≠ 0 ∧
          ((r = .noDate ∧ earliest (linesOf l.article x.ctx.tally.lines) = none)
            ∨ ∃ b, earliest (linesOf l.article x.ctx.tally.lines) = some b ∧
              ((r = .expired ∧ b < x.day) ∨ (r = .shortLife ∧ x.day ≤ b ∧ b - x.day < x.consignment.minShelfLife))))
      ∨ (r = .scaleSuspect ∧ x.ctx.weight.isSome = true ∧ x.scale.state = .suspect)
      ∨ (∃ w, x.ctx.weight = some w ∧ x.scale.state = .normal ∧
          ((r = .underWeight ∧ w + x.weightTolerance < x.expectedWeight)
            ∨ (r = .overWeight ∧ x.expectedWeight + x.weightTolerance < w)))
      ∨ (∃ h, r = .height ∧ x.ctx.height = some h ∧
          (h + x.params.heightTol < x.expectedHeight ∨ x.expectedHeight + x.params.heightTol < h))
      ∨ (r = .unreadable ∧ x.params.unknownAllowance < x.ctx.tally.unknownCount) := by
  simp only [Inputs.checks, List.mem_append, mem_failing, List.mem_flatMap, Inputs.mem_shelfLife,
    Inputs.mem_weightReasons, Inputs.heightFails_iff, Inputs.foreignArticle, Inputs.unsighted, Inputs.overCount,
    Inputs.mixedLots, Inputs.noLot, List.any_eq_true, Bool.not_eq_true', List.any_eq_false, beq_iff_eq, decide_eq_true_eq,
    Option.isNone_iff_eq_none, or_assoc, exists_and_left]

/-! ### The items of a decision without its prerequisites (R77) -/

theorem State.noPlan_mem_waitingItems : WaitItem.noPlan ∈ s.waitingItems c ↔ s.boundPlan c = none := by
  unfold State.waitingItems
  cases s.boundPlan c with
  | none => simp
  | some p => cases r : s.resolve p <;> cases s.holds.currency <;> cases s.holds.day <;> simp [r]

theorem State.unresolvedRef_mem_waitingItems :
    WaitItem.unresolvedRef ∈ s.waitingItems c ↔ ∃ p, s.boundPlan c = some p ∧ s.resolve p = none := by
  unfold State.waitingItems
  cases s.boundPlan c with
  | none => cases s.holds.currency <;> cases s.holds.day <;> simp
  | some p => cases r : s.resolve p <;> cases s.holds.currency <;> cases s.holds.day <;> simp [r]

theorem State.holdsStale_mem_waitingItems : WaitItem.holdsStale ∈ s.waitingItems c ↔ s.holds.currency = .stale := by
  unfold State.waitingItems
  cases s.boundPlan c with
  | none => cases s.holds.currency <;> cases s.holds.day <;> simp
  | some p => cases r : s.resolve p <;> cases s.holds.currency <;> cases s.holds.day <;> simp [r]

theorem State.noDay_mem_waitingItems : WaitItem.noDay ∈ s.waitingItems c ↔ s.holds.day = none := by
  unfold State.waitingItems
  cases s.boundPlan c with
  | none => cases s.holds.currency <;> cases s.holds.day <;> simp
  | some p => cases r : s.resolve p <;> cases s.holds.currency <;> cases s.holds.day <;> simp [r]

end

end Sys2Proof.Machine

namespace Sys2Proof.Proofs

open Sys2Proof Sys2Proof.Machine

/-- Settles O23: the reasons of each check, and the context that a completed decision leaves. -/
theorem decisionOfTheChecks : Obligations.DecisionOfTheChecks := by
  unfold Obligations.DecisionOfTheChecks
  refine ⟨fun x held r => Inputs.mem_checks, fun s i c x hc none long met read => ?_,
    fun x => ⟨Inputs.weightFigures_eq_none, fun w => Inputs.weightFigures_of_normal⟩,
    fun limit x => ⟨rfl, fun f => ⟨fun le => ?_, fun lt n hn => ⟨fun le => ?_, fun gt => ?_⟩⟩⟩,
    fun s l f x hx => ⟨fun normal suspect => ?_, fun other => ?_⟩⟩
  · obtain rfl := State.inputs_ctx read
    obtain ⟨held, matched⟩ : ∃ b, (x.ctx.tally.lines.any fun t => (s.matchingHold t.pair).isSome) = b := ⟨_, rfl⟩
    obtain ⟨rs, joined⟩ : ∃ rs, insertReasons (x.checks held) x.ctx.reasons = rs := ⟨_, rfl⟩
    obtain ⟨u, d, ran, hd, core, recon, due, asks⟩ := State.conclude_leaves hc .decided rs (severityOf rs)
      x.weightFigures x.caseEstimate x.heightFigures (some (x.plan.lines.map fun l => x.sighted l.article))
    have attempted : State.attempt i s = u := by
      rw [State.attempt_of_met hc none long met read, ← ran, ← joined, ← matched]
      rfl
    have scale : u.scale x.ctx.lane = (s.updateScale x.ctx.lane x.weightFigures).scale x.ctx.lane :=
      congrArg (fun r : Reconciler => r.scales[x.ctx.lane]) recon
    obtain ⟨o, j, v, l, n, k, rfl⟩ := Context.exists_of_core core
    refine ⟨u, _, held, attempted, hd, by rw [← matched]; exact List.any_eq_true, fun r => ?_, rfl,
      fun r => severity_le_severityOf, rfl, rfl, rfl, scale.trans (State.scale_updateScale _ _ _),
      ⟨_, rfl, rfl, rfl, rfl, rfl, rfl, rfl, ?_, ?_⟩, due, asks, attempted ▸ State.attempt_only i s⟩
    · show r ∈ rs ↔ _
      rw [← joined, mem_insertReasons, or_comm]
    · rw [scale]
    · rw [scale]
  · simp [scaleAfter, WeightFigures.fails, Nat.not_lt.mpr le]
  · simp [scaleAfter, WeightFigures.fails, lt, ← hn, le]
  · simp [scaleAfter, WeightFigures.fails, lt, ← hn, Nat.not_le.mpr gt]
  · subst hx
    exact if_pos ⟨normal, suspect⟩
  · subst hx
    refine if_neg fun ⟨normal, suspect⟩ => ?_
    rcases other with h | h
    · exact absurd (normal.symm.trans h) (by decide)
    · exact absurd (suspect.symm.trans h) (by decide)

/-- Settles O24: an attempt without the prerequisites is a decision with no figures or a change of the context alone. -/
theorem decisionsWithoutChecks : Obligations.DecisionsWithoutChecks := by
  unfold Obligations.DecisionsWithoutChecks
  refine ⟨fun s i c hc none => ⟨fun short => ?_, fun long unmet entered => ?_, fun long unmet fresh zero => ?_,
    State.noPlan_mem_waitingItems, State.unresolvedRef_mem_waitingItems, State.holdsStale_mem_waitingItems,
    State.noDay_mem_waitingItems⟩, fun s i c r hc => ⟨fun mem => ?_, fun out none => ?_, fun v out hv => ?_,
      fun q => mem_insertReason, fun id none => ?_⟩⟩
  · obtain ⟨u, d, ran, hd, core, -⟩ := State.conclude_leaves hc .decided c.reasons
      (Verdict.rework.max (severityOf c.reasons)) .none .none .none .none
    have attempted : State.attempt i s = u := (State.attempt_of_shortcut hc none short).trans ran
    have high : Verdict.rework.max (severityOf c.reasons) ≠ .pass := by cases severityOf c.reasons <;> decide
    obtain ⟨o, j, v, l, n, k, rfl⟩ := Context.exists_of_core core
    rw [← attempted] at hd
    exact ⟨_, hd, rfl, rfl, rfl, if_neg high, _, rfl, rfl, rfl, rfl⟩
  · rw [State.attempt_of_unmet hc none long unmet]
    by_cases waiting : c.phase = .waiting
    · rw [if_pos waiting, ← waiting]
      exact if_pos waiting
    · rw [if_neg waiting]
      exact (if_neg waiting).trans (if_neg (entered.resolve_left waiting))
  · obtain ⟨w, put⟩ : ∃ w, s.putCtx i (some { c with
      waiting := s.waitingItems c, phase := .waiting, timer := some s.params.decisionLimit }) = w := ⟨_, rfl⟩
    have w_ctx : w.ctx i = some { c with
        waiting := s.waitingItems c, phase := .waiting, timer := some s.params.decisionLimit } :=
      put ▸ State.ctx_putCtx_self _ _ _
    have w_only : State.Only [.tracker] s w := put ▸ State.putCtx_only _ _ _
    have w_recon : w.recon = s.recon := put ▸ rfl
    obtain ⟨rs, joined⟩ : ∃ rs, insertReasons ((s.waitingItems c).map WaitItem.reason) c.reasons = rs := ⟨_, rfl⟩
    obtain ⟨u, d, ran, hd, core, recon, due, asks⟩ := State.conclude_leaves w_ctx .parked rs
      (Verdict.park.max (severityOf rs)) .none .none .none .none
    have attempted : State.attempt i s = u := by
      rw [State.attempt_of_unmet hc none long unmet, ← ran, ← joined]
      refine (if_neg fresh).trans ((if_pos zero).trans ?_)
      rw [put]
      unfold State.park
      rw [w_ctx]
    have high : Verdict.park.max (severityOf rs) ≠ .pass := by cases severityOf rs <;> decide
    have kept : u.recon = s.recon := recon.trans (by rw [State.updateScale_none, w_recon])
    have only : State.Only [.tracker, .recon, .alloc, .composer, .ring, .mgmt] s u := attempted ▸ State.attempt_only i s
    obtain ⟨o, j, v, l, n, k, rfl⟩ := Context.exists_of_core core
    refine ⟨u, _, _, attempted, hd, rfl, if_neg high, rfl, fun r => ?_, rfl, rfl, rfl, rfl, rfl, rfl,
      congrArg Reconciler.clock w_recon, kept, due, fun none => mt (asks none).mp high, (only.keep_recon kept).mono (by decide)⟩
    show r ∈ rs ↔ _
    rw [← joined, mem_insertReasons, or_comm, List.mem_map]
    simp [eq_comm]
  · rw [State.handSlot_of_ctx hc]
    simp [State.handReason, State.named_of_ctx hc, mem]
  · rw [State.handSlot_of_ctx hc]
    simp only [State.handReason, State.named_of_ctx hc]
    rw [if_neg (by simpa using out)]
    split
    · rw [State.modCtx, hc]
      rfl
    next v hv => cases none.symm.trans hv
  · obtain ⟨d, hd, core⟩ := Option.map_eq_some_iff.mp ((State.core_handSlot i i r s).trans ((if_pos rfl).trans
      (congrArg (Option.map _) (State.core_of_ctx hc))))
    obtain ⟨o, j, w, l, n, k, rfl⟩ := Context.exists_of_core (core.trans (Context.core_handed r c).symm)
    have handed : (c.handed r).verdict = some (v.max r.severity) ∧ (c.handed r).reasons = insertReason r c.reasons
        ∧ (c.handed r).record = c.record ∧ (c.handed r).tally = c.tally := by
      simp [Context.handed, out, hv]
    have tag : (c.handed r).adm = c.adm ∧ (c.handed r).licence = c.licence := by
      have := Context.tag_handed r c
      simp only [Context.tag, Prod.mk.injEq] at this
      exact ⟨this.1, this.2.1⟩
    exact ⟨_, hd, handed.1, handed.2.1, tag.1, tag.2, handed.2.2.2, Context.phase_handed r c, handed.2.2.1⟩
  · simp [State.handReason, none]

end Sys2Proof.Proofs
end

