-- ==== Sys2Proof/Proofs/Slice0/Retries.lean ====
section
/-! RETRY_WAITING and WRAPPER_CONFIG (R32, R79, R112). -/

namespace Sys2Proof.Machine

open Sys2Proof

section
variable {s t : State} {i : Slot} {c : Context}

/-! ### Retries -/

/-- What an attempt leaves of a context that waits: it still waits, or it is decided. -/
theorem State.attempt_of_waiting (hc : s.ctx i = some c) (waiting : c.phase = .waiting) (none : c.verdict = none) :
    ∃ d, (s.attempt i).ctx i = some d ∧ ((d.phase = .waiting ∧ d.verdict = .none ∧ d.timer = c.timer)
      ∨ (d.phase = .atHeadDecided ∧ d.verdict.isSome = true)) := by
  have decided : ∀ {cause rs v wt e ht g}, s.attempt i = s.conclude i c cause rs v wt e ht g →
      ∃ d, (s.attempt i).ctx i = some d ∧ d.phase = .atHeadDecided ∧ d.verdict.isSome = true := by
    intro cause rs v wt e ht g eq
    obtain ⟨u, d, ran, hd, core, -⟩ := State.conclude_leaves hc cause rs v wt e ht g
    obtain ⟨o, j, x, l, n, k, rfl⟩ := Context.exists_of_core core
    rw [← ran, ← eq] at hd
    exact ⟨_, hd, rfl, rfl⟩
  by_cases short : c.shortcut = true
  · obtain ⟨d, hd, phase, verdict⟩ := decided (State.attempt_of_shortcut hc none short)
    exact ⟨d, hd, .inr ⟨phase, verdict⟩⟩
  · have long := Bool.not_eq_true _ ▸ short
    by_cases met : s.waitingItems c = []
    · obtain ⟨x, read⟩ := Option.isSome_iff_exists.mp (State.inputs_isSome met)
      obtain rfl := State.inputs_ctx read
      obtain ⟨d, hd, phase, verdict⟩ := decided (State.attempt_of_met hc none long met read)
      exact ⟨d, hd, .inr ⟨phase, verdict⟩⟩
    · have stays : s.attempt i = s.putCtx i (some { c with waiting := s.waitingItems c }) :=
        (State.attempt_of_unmet hc none long met).trans (if_pos waiting)
      rw [stays]
      exact ⟨_, State.ctx_putCtx_self _ _ _, .inl ⟨waiting, none, rfl⟩⟩

theorem State.retries_tracks (is : List Slot) (s : State) : State.Tracks is s (is.foldl (fun t i => t.attempt i) s) := by
  suffices ∀ (l : List Slot) s, l ⊆ is → State.Tracks is s (l.foldl (fun t i => State.attempt i t) s) from
    this is s (List.Subset.refl _)
  intro l
  induction l with
  | nil => exact fun s _ => .refl _
  | cons i l ih =>
    exact fun s sub => ((State.attempt_tracks i s).mono (by simpa using sub (List.mem_cons_self ..))).next
      (ih _ fun x hx => sub (by simp [hx])) (List.Subset.refl _)

/-- Each of several contexts that wait is attempted once. -/
theorem State.retries_of_waiting {is : List Slot} (once : is.Nodup) (hi : i ∈ is) (hc : s.ctx i = some c)
    (waiting : c.phase = .waiting) (none : c.verdict = none) :
    ∃ d, (is.foldl (fun t i => State.attempt i t) s).ctx i = some d
      ∧ ((d.phase = .waiting ∧ d.verdict = .none ∧ d.timer = c.timer)
        ∨ (d.phase = .atHeadDecided ∧ d.verdict.isSome = true)) := by
  obtain ⟨before, after, rfl⟩ := List.append_of_mem hi
  obtain ⟨-, once, apart⟩ := List.nodup_append.mp once
  have not_before : i ∉ before := fun h => apart i h i (by simp) rfl
  have not_after : i ∉ after := (List.nodup_cons.mp once).1
  rw [List.foldl_append, List.foldl_cons]
  obtain ⟨a, attempted⟩ : ∃ a, before.foldl (fun t i => State.attempt i t) s = a := ⟨_, rfl⟩
  obtain ⟨c', hc', core⟩ := State.ctx_of_core ((State.retries_tracks before s).cores i not_before) hc
  obtain ⟨o, j, x, l, n, k, rfl⟩ := Context.exists_of_core core
  obtain ⟨d, hd, outcome⟩ := State.attempt_of_waiting hc' waiting none
  obtain ⟨e, he, core⟩ := State.ctx_of_core ((State.retries_tracks after _).cores i not_after) hd
  obtain ⟨o, j, x, l, n, k, rfl⟩ := Context.exists_of_core core
  exact ⟨_, he, outcome⟩

/-! ### WRAPPER_CONFIG -/

theorem State.wrapper_callArbiter (w : WrapperNo) (s : State) : s.callArbiter.wrapper w = s.wrapper w := rfl

theorem instIndex_eq_none {n m : Nat} (h : n = 0 ∨ m < n) : instIndex m n = none := by
  unfold instIndex
  split
  · omega
  · rfl

theorem instIndex_eq_some {m : Nat} (k : Fin m) : instIndex m (k.val + 1) = some k := by
  simp [instIndex]

/-- The recipes of the contexts a wrapper's capability set has to serve (R112). -/
def State.Serves (s : State) (w : WrapperNo) (r : Nat) : Prop :=
  ((∃ id, (s.wrapper w).pallet = .context id) ∧ (s.wrapper w).recipe = some r)
    ∨ (s.alloc.car.state = .moving ∧ s.alloc.car.dest = some (.wrapper w) ∧ s.alloc.car.recipe = some r)

theorem State.setLacks_iff {w : WrapperNo} {caps : List Nat} :
    s.setLacks w caps = true ↔ ∃ r, s.Serves w r ∧ r ∉ caps := by
  unfold State.setLacks State.Serves
  cases (s.wrapper w).pallet <;> cases (s.wrapper w).recipe <;> cases s.alloc.car.recipe <;> simp

theorem State.wrapperConfig_of_lacks {w : WrapperNo} {rs : List Nat} {m : Nat} (recipes : ∀ r ∈ rs, r ≤ 7)
    (lacks : s.setLacks w ((List.range 8).filter fun r => rs.contains r) = true) :
    s.wrapperConfig (w.val + 1) rs m = s.refuse .busy := by
  have sound : (!rs.all fun r => Nat.ble r 7) = false := by simpa using recipes
  simp only [State.wrapperConfig, instIndex_eq_some, sound, lacks, if_true, Bool.false_eq_true, if_false]

theorem State.wrapperConfig_of_serves {w : WrapperNo} {rs caps : List Nat} {m : Nat} (recipes : ∀ r ∈ rs, r ≤ 7)
    (set : (List.range 8).filter (fun r => rs.contains r) = caps) (serves : s.setLacks w caps = false) :
    s.wrapperConfig (w.val + 1) rs m =
      ⟨(s.modWrapper w fun x => { x with caps := caps, warmUp := min 600000 m }).callArbiter.settle .wrapperConfig,
        if min 600000 m < m then .okClamped else .ok, .wrapperConfig caps (min 600000 m)⟩ := by
  have sound : (!rs.all fun r => Nat.ble r 7) = false := by simpa using recipes
  simp only [State.wrapperConfig, instIndex_eq_some, sound, set, serves, Bool.false_eq_true, if_false]

end

end Sys2Proof.Machine

namespace Sys2Proof.Proofs

open Sys2Proof Sys2Proof.Machine

/-- Settles O54: an attempt touches no other context's core, so each waiting context has its own attempt's outcome. -/
theorem retriesAndWrapperConfig : Obligations.RetriesAndWrapperConfig := by
  unfold Obligations.RetriesAndWrapperConfig
  refine ⟨fun s src tag takes inv => ⟨fun i => ?_, State.slotsWhere_increasing _, _, rfl, ?_, fun i c hc waiting => ?_,
    fun i c hc other => ?_⟩, fun s src tag n m rs takes => ⟨fun bad => ?_, fun w at_w recipes => ⟨fun lack => ?_,
    fun serves => ?_⟩⟩⟩
  · simp [State.waitingSlots, State.mem_slotsWhere]
  · exact exec_of_serve takes rfl (fun _ => rfl) rfl
  · refine State.retries_of_waiting ((State.slotsWhere_increasing _).imp fun h => Fin.ne_of_lt h) ?_ hc waiting
      (inv i c hc waiting)
    exact State.mem_slotsWhere.mpr ⟨c, hc, by simp [waiting]⟩
  · have out : i ∉ s.waitingSlots := fun h => by
      obtain ⟨d, hd, waiting⟩ := State.mem_slotsWhere.mp h
      obtain rfl := Option.some.inj (hc.symm.trans hd)
      exact other (by simpa using waiting)
    obtain ⟨d, hd, core⟩ := State.ctx_of_core ((State.retries_tracks s.waitingSlots (s.taken src)).cores i out) hc
    obtain ⟨o, j, x, l, n, k, rfl⟩ := Context.exists_of_core core
    exact ⟨_, hd, rfl, rfl, rfl, rfl⟩
  · refine exec_of_serve takes rfl (fun _ => rfl) ?_
    by_cases unit : n = 0 ∨ 4 < n
    · simp [State.serve, State.wrapperConfig, State.refuse, instIndex_eq_none unit]
    · obtain ⟨w, rfl⟩ : ∃ w : WrapperNo, n = w.val + 1 := ⟨⟨n - 1, by omega⟩, by simp; omega⟩
      obtain ⟨r, hr, gt⟩ : ∃ r ∈ rs, 7 < r := by
        rcases bad with h | h | h
        · omega
        · omega
        · exact h
      have unsound : (!rs.all fun r => Nat.ble r 7) = true := by simpa using ⟨r, hr, gt⟩
      simp only [State.serve, State.wrapperConfig, State.refuse, instIndex_eq_some, unsound, if_true]
  · subst at_w
    obtain ⟨r, out, -, serves⟩ := lack
    refine exec_of_serve takes rfl (fun _ => rfl) (State.wrapperConfig_of_lacks recipes ?_)
    exact State.setLacks_iff.mpr ⟨r, serves, by simp [out]⟩
  · subst at_w
    obtain ⟨caps, set⟩ : ∃ caps, (List.range 8).filter (fun r => rs.contains r) = caps := ⟨_, rfl⟩
    have mem : ∀ r, r ∈ caps ↔ r ∈ rs := fun r => by
      have := recipes r
      rw [← set, List.mem_filter, List.mem_range, List.contains_iff_mem]
      exact ⟨fun h => h.2, fun h => ⟨by have := this h; omega, h⟩⟩
    have served : (s.taken src).setLacks w caps = false := Bool.eq_false_iff.mpr fun lacks => by
      obtain ⟨r, serving, out⟩ := State.setLacks_iff.mp lacks
      exact out ((mem r).mpr (serves r serving))
    obtain ⟨u, set_u⟩ : ∃ u, ((s.taken src).modWrapper w fun x => { x with caps := caps, warmUp := min 600000 m }).callArbiter = u :=
      ⟨_, rfl⟩
    have clamp : (if min 600000 m < m then Status.okClamped else .ok) = if 600000 < m then .okClamped else .ok :=
      if_congr (by omega) rfl rfl
    have answer := State.wrapperConfig_of_serves (m := m) recipes set served
    rw [set_u, clamp] at answer
    refine ⟨u, caps, exec_of_serve takes rfl (fun _ => rfl) answer, mem, ?_, ?_, fun v ne => ?_, set_u ▸ rfl, ?_⟩
    · rw [← set]
      exact List.pairwise_lt_range.filter _
    · rw [← set_u, State.wrapper_callArbiter, State.wrapper_modWrapper, if_pos rfl]
      rfl
    · rw [← set_u, State.wrapper_callArbiter, State.wrapper_modWrapper, if_neg ne.symm]
      rfl
    · rw [← set_u]
      exact (State.modWrapper_only _ _ _).next (State.onAlloc_only _ _)

end Sys2Proof.Proofs
end

