-- ==== Sys2Proof/Proofs/Slice0/Emissions.lean ====
section
/-! How emissions leave: a holder with something new, and the room Ring Out frees (R37, R156, R157, R161). -/

namespace Sys2Proof.Machine

open Sys2Proof

section
variable {s t : State} {h : Holder}

/-! ### A holder with something newly formed -/

theorem State.giveMany_of_full (n : Nat) (h : Holder) (full : 32 ≤ s.ring.origin.length) : State.giveMany n h s = s := by
  cases n with
  | zero => rfl
  | succ n =>
    have : s.room = false := decide_eq_false (Nat.not_lt.mpr full)
    simp [State.giveMany, this]

/-- An offer is some telegrams given, after which the holder may wait. -/
theorem State.offer_cases (h : Holder) (s : State) : ∃ n, s.offer h = State.giveMany n h s
    ∨ s.offer h = (State.giveMany n h s).joinPending h := by
  have given : ∃ n, (if s.ring.waiting.isEmpty then State.giveMany (s.heldCount h) h s else s) = State.giveMany n h s := by
    split
    · exact ⟨_, rfl⟩
    · exact ⟨0, rfl⟩
  obtain ⟨n, given⟩ := given
  unfold State.offer
  simp only [given]
  split
  · exact ⟨0, .inl rfl⟩
  · split
    · exact ⟨n, .inr rfl⟩
    · exact ⟨n, .inl rfl⟩

/-- With another holder waiting, or no room, a holder with something to place waits (R156). -/
theorem State.offer_of_busy (more : s.hasMore h = true) (busy : s.ring.waiting ≠ [] ∨ 32 ≤ s.ring.origin.length) :
    s.offer h = if h ∈ s.ring.waiting then s else s.joinPending h := by
  unfold State.offer
  rw [List.contains_eq_mem]
  by_cases waits : h ∈ s.ring.waiting
  · simp [waits]
  · have same : (if s.ring.waiting.isEmpty then State.giveMany (s.heldCount h) h s else s) = s := by
      split
      next empty =>
        exact State.giveMany_of_full _ _ (busy.resolve_left fun ne => ne (List.isEmpty_iff.mp empty))
      next => rfl
    simp only [waits, decide_false, Bool.false_eq_true, if_false, same, more, if_true]

/-- With nothing waiting and room, a holder with one telegram gives it (R156). -/
theorem State.offer_of_free (one : s.heldCount h = 1) (free : s.ring.waiting = []) (room : s.ring.origin.length < 32)
    (last : (s.giveOne h).hasMore h = false) : s.offer h = s.giveOne h := by
  rw [State.offer_one one, free, if_neg (by simp), if_pos ⟨rfl, room⟩, last, if_neg (by decide)]

theorem State.giveOne_of_some {x : Telegram} (taken : s.take h = (some x, t)) : s.giveOne h = t.place x := by
  simp [State.giveOne, taken]

theorem State.giveOne_of_none (taken : s.take h = (none, t)) : s.giveOne h = t := by simp [State.giveOne, taken]

/-! ### Room freed by Ring Out (R156, R157) -/

/-- The state after an originated telegram has been begun, before the room goes to the pending list. -/
def State.begun (s : State) (o : Telegram) (os : List Telegram) : State :=
  s.onRing fun r => { r with origin := os, ringOut := some o, run := 0 }

theorem exec_ringOutFree (awake : s.ctl.inReset = false) : exec .ringOutFree s = .next s.chooseNext := by
  show Host.Outcome.next (s.awake State.chooseNext) = _
  rw [State.awake, awake]
  rfl

theorem State.chooseNext_of_origin {o : Telegram} {os : List Telegram} (origin : s.ring.origin = o :: os)
    (turn : s.ring.forward = [] ∨ 4 ≤ s.ring.run) :
    s.chooseNext = (s.begun o os).grantRoom (s.begun o os).pendingTurns := by
  unfold State.chooseNext
  rw [origin]
  cases forward : s.ring.forward with
  | nil => rfl
  | cons f fs => exact if_neg (Nat.not_lt.mpr (turn.resolve_left (by simp [forward])))

theorem State.grantRoom_of_empty (n : Nat) (none : s.ring.waiting = []) : s.grantRoom n = s := by
  cases n <;> simp [State.grantRoom, none]

theorem State.grantRoom_of_full (n : Nat) (full : 32 ≤ s.ring.origin.length) : s.grantRoom n = s := by
  cases n with
  | zero => rfl
  | succ n =>
    have : s.room = false := decide_eq_false (Nat.not_lt.mpr full)
    unfold State.grantRoom
    split
    · rfl
    · simp [this]

/-- The state with the first holder of the pending list removed, to give one telegram. -/
def State.turnOf (s : State) (rest : List Holder) : State := s.onRing fun r => { r with waiting := rest }

theorem State.grantRoom_of_turn {rest : List Holder} (waits : s.ring.waiting = h :: rest)
    (room : s.ring.origin.length < 32) (n : Nat) :
    s.grantRoom (n + 1) = State.grantRoom n (if ((s.turnOf rest).giveOne h).hasMore h then
      ((s.turnOf rest).giveOne h).joinPending h else (s.turnOf rest).giveOne h) := by
  have room : s.room = true := decide_eq_true room
  rw [State.grantRoom, waits]
  simp only [room, if_true]
  rfl

theorem State.pendingTurns_pos {rest : List Holder} (waits : s.ring.waiting = h :: rest) :
    ∃ n, s.pendingTurns = n + 1 := ⟨s.heldCount h + (rest.map fun g => s.heldCount g + 1).sum, by
  simp only [State.pendingTurns, waits, List.map_cons, List.sum_cons]
  omega⟩

/-- The room that one telegram leaves goes to the first holder of the pending list (R156). -/
theorem State.chooseNext_of_turn {o : Telegram} {os : List Telegram} {rest : List Holder} {x : Telegram}
    (origin : s.ring.origin = o :: os) (full : os.length = 31) (turn : s.ring.forward = [] ∨ 4 ≤ s.ring.run)
    (waits : s.ring.waiting = h :: rest) (taken : ((s.begun o os).turnOf rest).take h = (some x, t))
    (kept : t.ring.origin = os) :
    s.chooseNext = if (t.place x).hasMore h then (t.place x).joinPending h else t.place x := by
  have waits' : (s.begun o os).ring.waiting = h :: rest := waits
  obtain ⟨n, turns⟩ := State.pendingTurns_pos waits'
  have room : (s.begun o os).ring.origin.length < 32 := by
    show os.length < 32
    omega
  rw [State.chooseNext_of_origin origin turn, turns, State.grantRoom_of_turn waits' room, State.giveOne_of_some taken]
  refine State.grantRoom_of_full _ ?_
  have length : (t.place x).ring.origin.length = 32 := by
    show (t.ring.origin ++ [x]).length = 32
    simp [kept, full]
  split
  · exact length.ge
  · exact length.ge

end

end Sys2Proof.Machine
end

