-- ==== Sys2Proof/Proofs/Slice0/Escapes.lean ====
section
/-! HOLD_ADD, its searches, and how ESCAPE reports are queued and leave (R23 to R25, R33 to R37). -/

namespace Sys2Proof.Machine

open Sys2Proof

section
variable {s t : State} {r : EscapeReport}

/-! ### Escape reports (R37) -/

theorem State.takeReport_of_dest {d : Byte} (dest : s.reportDest = some d) (k : Nat) (fs : List (List Byte)) :
    s.takeReport k fs = (some ⟨d, s.ownAddress, kReport, reportPayload k s.mgmt.reportSeq s.mgmt.lostReport fs⟩,
      s.onMgmt fun m => { m with reportSeq := (m.reportSeq + 1) % 65536, lostReport := false }) := by
  unfold State.takeReport
  rw [dest]

theorem State.takeReport_of_none (dest : s.reportDest = none) (k : Nat) (fs : List (List Byte)) :
    s.takeReport k fs = (none, s.onMgmt fun m => { m with lostReport := true }) := by
  unfold State.takeReport
  rw [dest]

theorem State.take_escapes {rest : List EscapeReport} (queue : s.holds.escapes = r :: rest) {d : Byte}
    (dest : s.reportDest = some d) : s.take .escapes =
      (some ⟨d, s.ownAddress, kReport, reportPayload 3 s.mgmt.reportSeq s.mgmt.lostReport (r.fields s.holds.escapeLost)⟩,
        ((s.onHolds fun h => { h with escapes := rest }).onMgmt fun m =>
          { m with reportSeq := (m.reportSeq + 1) % 65536, lostReport := false }).onHolds
            fun h => { h with escapeLost := false }) := by
  have dest' : (s.onHolds fun h => { h with escapes := rest }).reportDest = some d := dest
  simp only [State.take, queue, State.takeReport_of_dest dest', Option.isSome_some, if_true]
  rfl

theorem State.take_escapes_of_none {rest : List EscapeReport} (queue : s.holds.escapes = r :: rest)
    (dest : s.reportDest = none) : s.take .escapes =
      (none, (s.onHolds fun h => { h with escapes := rest }).onMgmt fun m => { m with lostReport := true }) := by
  have dest' : (s.onHolds fun h => { h with escapes := rest }).reportDest = none := dest
  simp only [State.take, queue, State.takeReport_of_none dest', Option.isSome_none, Bool.false_eq_true, if_false]

theorem State.escape_of_room (room : s.holds.escapes.length < 256) :
    s.escape r = (s.onHolds fun h => { h with escapes := h.escapes ++ [r] }).offer .escapes := if_pos room

/-! ### The escape search (R35, R148) -/

theorem State.escapeSearch_only (h : Hold) (es : List LogEntry) (s : State) :
    State.Only [.ring, .mgmt, .holds] s (State.escapeSearch h es s).2 := by
  induction es generalizing s with
  | nil => exact .refl _ _
  | cons e es ih =>
    unfold State.escapeSearch
    split
    · exact (State.escape_only _ _).trans (ih _)
    · exact ih _

/-- What an operation of the escape queue leaves of the hold register. -/
def HoldRegister.SameList (a b : HoldRegister) : Prop := { b with escapes := [], escapeLost := false } = { a with escapes := [], escapeLost := false }

theorem HoldRegister.SameList.fields {a b : HoldRegister} (h : a.SameList b) : b.list = a.list
    ∧ b.generation = a.generation ∧ b.currency = a.currency ∧ b.window = a.window ∧ b.day = a.day := by
  simp only [HoldRegister.SameList, HoldRegister.mk.injEq] at h
  exact ⟨h.1, h.2.1, h.2.2.1, h.2.2.2.1, h.2.2.2.2.1⟩

theorem State.takeReport_holds (k : Nat) (fs : List (List Byte)) (s : State) : (s.takeReport k fs).2.holds = s.holds := by
  unfold State.takeReport
  split <;> rfl

theorem State.take_sameList (s : State) : s.holds.SameList (s.take .escapes).2.holds := by
  simp only [State.take]
  split
  · dsimp only
    split
    · rw [State.onHolds_holds, State.takeReport_holds]
      rfl
    · rw [State.takeReport_holds]
      rfl
  · rfl

theorem State.giveMany_sameList (n : Nat) (s : State) : s.holds.SameList (State.giveMany n .escapes s).holds := by
  induction n generalizing s with
  | zero => rfl
  | succ n ih =>
    unfold State.giveMany
    split
    · have given : s.holds.SameList (s.giveOne .escapes).holds := by
        have taken := State.take_sameList s
        unfold State.giveOne
        split <;> rename_i e <;> rw [e] at taken <;> exact taken
      exact (ih _).trans given
    · rfl

theorem State.escape_sameList (r : EscapeReport) (s : State) : s.holds.SameList (s.escape r).holds := by
  unfold State.escape
  split
  · obtain ⟨n, e | e⟩ := State.offer_cases .escapes (s.onHolds fun h => { h with escapes := h.escapes ++ [r] })
    · rw [e]
      exact State.giveMany_sameList n _
    · rw [e]
      exact State.giveMany_sameList n _
  · rfl

theorem State.escapeSearch_sameList (h : Hold) (es : List LogEntry) (s : State) :
    s.holds.SameList (State.escapeSearch h es s).2.holds := by
  induction es generalizing s with
  | nil => rfl
  | cons e es ih =>
    unfold State.escapeSearch
    split
    · exact (ih _).trans (State.escape_sameList _ _)
    · exact ih _

theorem State.escapeSearch_matched (h : Hold) (es : List LogEntry) (s : State) :
    (State.escapeSearch h es s).1.1 = (es.filter fun e => e.pairs.any h.hits).length := by
  induction es generalizing s with
  | nil => rfl
  | cons e es ih =>
    unfold State.escapeSearch
    split
    next p hp =>
      have hit : e.pairs.any h.hits = true := List.any_eq_true.mpr ⟨p, List.mem_of_find?_eq_some hp, List.find?_some hp⟩
      simp [ih, hit]
    next none =>
      have miss : e.pairs.any h.hits = false := List.any_eq_false.mpr fun p hp => List.find?_eq_none.mp none p hp
      simp [ih, miss]

theorem State.escapeSearch_queued_le (h : Hold) (es : List LogEntry) (s : State) :
    (State.escapeSearch h es s).1.2 ≤ (State.escapeSearch h es s).1.1 := by
  induction es generalizing s with
  | nil => exact Nat.le_refl _
  | cons e es ih =>
    unfold State.escapeSearch
    split
    next p _ =>
      have := ih (s.escape (s.escapeOf e p h))
      dsimp only
      split <;> omega
    next => exact ih s

/-! ### HOLD_ADD (R25, R33) -/

theorem holdOf_of_inRange {f : HoldFields} (fits : f.InRange) : ∃ h, holdOf f = some h ∧ h.article = f.article
    ∧ h.lot = f.lot ∧ h.code = f.code ∧ h.placed = f.placed ∧ h.reason.code = f.reason.toNat := by
  obtain ⟨article, lot, reason, placed⟩ := fits
  have placed : f.placed ≤ Config.dayMax := placed
  rcases reason with ⟨low, high, code⟩ | ⟨reason, code⟩
  · obtain reason | reason | reason : f.reason.toNat = 1 ∨ f.reason.toNat = 2 ∨ f.reason.toNat = 3 := by omega
    · exact ⟨⟨f.article, f.lot, .quality, f.code, f.placed⟩, by simp [holdOf, reason, article, lot, placed, code], rfl, rfl,
        rfl, rfl, reason.symm⟩
    · exact ⟨⟨f.article, f.lot, .recall, f.code, f.placed⟩, by simp [holdOf, reason, article, lot, placed, code], rfl, rfl,
        rfl, rfl, reason.symm⟩
    · exact ⟨⟨f.article, f.lot, .customs, f.code, f.placed⟩, by simp [holdOf, reason, article, lot, placed, code], rfl, rfl,
        rfl, rfl, reason.symm⟩
  · exact ⟨⟨f.article, f.lot, .other, f.code, f.placed⟩, by simp [holdOf, reason, article, lot, placed, code], rfl, rfl,
      rfl, rfl, by rw [reason]; rfl⟩

theorem inRange_of_holdOf {f : HoldFields} {h : Hold} (e : holdOf f = some h) : f.InRange := by
  unfold holdOf at e
  dsimp only at e
  split at e
  next r reason =>
    split at reason <;> cases reason
    all_goals
      simp only [reduceCtorEq, if_false, if_true, Option.ite_none_right_eq_some, Bool.and_eq_true, decide_eq_true_eq,
        beq_iff_eq] at e
      obtain ⟨⟨⟨⟨article, lot⟩, code⟩, placed⟩, -⟩ := e
      refine ⟨article, lot, ?_, placed⟩
    next e => exact .inl ⟨e.ge, e.le.trans (by decide), code⟩
    next e => exact .inl ⟨by omega, by omega, code⟩
    next e => exact .inl ⟨by omega, e.le, code⟩
    next e => exact .inr ⟨BitVec.eq_of_toNat_eq e, code⟩
  next => cases e

/-! ### The list with a hold put in it (R22, R25) -/

theorem sameHoldKey_trans {a b c : Text × Text} (h : sameHoldKey a b = true) (k : sameHoldKey b c = true) :
    sameHoldKey a c = true := by
  rw [sameHoldKey_iff] at *
  exact ⟨h.1.trans k.1, h.2.trans k.2⟩

theorem find?_putHold_self (h : Hold) (l : List Hold) : (putHold h l).find? (fun x => sameHoldKey x.key h.key) = some h := by
  rw [putHold_eq]
  exact find?_putInOrder_of_keeps (p := fun x : Hold => sameHoldKey x.key h.key) (sameHoldKey_self _) (fun _ => rfl)
    (fun x same => sameHoldKey_comm.trans same) l

theorem find?_putHold_of_ne {h : Hold} {k : Text × Text} (other : sameHoldKey h.key k = false) (l : List Hold) :
    (putHold h l).find? (fun x => sameHoldKey x.key k) = l.find? fun x => sameHoldKey x.key k := by
  rw [putHold_eq]
  refine find?_putInOrder_of_passes (p := fun x : Hold => sameHoldKey x.key k) other (fun x same => ⟨?_, other⟩) l
  exact Bool.eq_false_iff.mpr fun h => Bool.eq_false_iff.mp other (sameHoldKey_trans same h)

/-- An entry of a new key takes the room of one. -/
theorem length_putInOrder_of_new {α : Type} {same before : α → α → Prop} [∀ a, DecidablePred (same a)]
    [∀ a, DecidablePred (before a)] {join : α → α → α} {a : α} {l : List α} (new : ∀ x ∈ l, ¬ same a x) :
    (putInOrder same before join a l).length = l.length + 1 := by
  induction l with
  | nil => rfl
  | cons x xs ih =>
    unfold putInOrder
    rw [if_neg (new x (by simp))]
    split
    · rfl
    · simp [ih fun y hy => new y (by simp [hy])]

theorem length_putHold {h : Hold} {l : List Hold} (order : l.Pairwise fun a b => ltHoldKey a.key b.key = true) :
    (putHold h l).length =
      if (l.find? fun x => sameHoldKey x.key h.key).isSome then l.length else l.length + 1 := by
  rw [putHold_eq]
  split
  next old =>
    obtain ⟨x, hx, same⟩ := List.find?_isSome.mp old
    exact length_putInOrder_of_mem holdOrder order ⟨x, hx, sameHoldKey_comm.trans same⟩
  next new =>
    refine length_putInOrder_of_new fun x hx same => new (List.find?_isSome.mpr ⟨x, hx, sameHoldKey_comm.trans same⟩)

/-! ### The late holds (R33) -/

theorem State.lateHolds_leaves (h : Hold) (s : State) : State.Only [.tracker, .ring, .mgmt, .alloc, .composer] s (s.lateHolds h).2 :=
  State.handAll_only _ _ _

theorem State.core_lateHolds (h : Hold) (i : Slot) (s : State) : (s.lateHolds h).2.core i =
    if i ∈ s.slotsWhere (gainsLateHold h) then (s.core i).map (Context.handed .lotHeldLate) else s.core i :=
  State.core_handAll _ _ _ _

theorem Verdict.max_hold (v : Verdict) : v.max .hold = .hold := by cases v <;> decide

end

end Sys2Proof.Machine

namespace Sys2Proof.Proofs

open Sys2Proof Sys2Proof.Machine

/-- Settles O51: the hold stands under its key, the late holds hand one reason to each context they find, and the escape
search leaves the list. -/
theorem holdAddAndEscapes : Obligations.HoldAddAndEscapes := by
  unfold Obligations.HoldAddAndEscapes
  refine ⟨fun s src tag f takes order => ⟨fun bad => ?_, fun fits new full => ?_, fun fits room => ?_⟩,
    fun s e rest h p => ⟨rfl, fun none => ?_, fun found => ⟨s.escapeOf e p h, ?_⟩, fun l lot => ?_, fun none => ?_⟩,
    fun s r => ⟨fun full => ?_, fun room busy => ?_, fun a empty free room dest => ?_, fun empty free room dest => ?_,
      fun o os rest a awake forward origin full waits queue dest => ?_⟩⟩
  · have unread : holdOf f = none := Option.eq_none_iff_forall_ne_some.mpr fun h e => bad (inRange_of_holdOf e)
    exact exec_of_serve takes rfl (fun _ => rfl) (by simp [State.serve, State.holdAdd, State.refuseHold, unread])
  · obtain ⟨h, read, article, lot, -⟩ := holdOf_of_inRange fits
    have new : (s.taken src).hold h.key = none := by rw [Hold.key, article, lot]; exact new
    exact exec_of_serve takes rfl (fun _ => rfl)
      (by simp [State.serve, State.holdAdd, State.refuseHold, read, new, Config.holdMax, full])
  · obtain ⟨h, read, article, lot, code, placed, reason⟩ := holdOf_of_inRange fits
    have key : h.key = (f.article, f.lot) := by rw [Hold.key, article, lot]
    obtain ⟨a, put⟩ : ∃ a, (s.taken src).onHolds (fun x => { x with
      list := putHold h x.list, generation := generationAfter x.generation }) = a := ⟨_, rfl⟩
    have a_holds : a.holds = { s.holds with
        list := putHold h s.holds.list, generation := (s.holds.generation + 1) % 65536 } := put ▸ rfl
    have a_ctx : ∀ i, a.ctx i = s.ctx i := fun i => put ▸ rfl
    have found : a.slotsWhere (gainsLateHold h) = s.slotsWhere (gainsLateHold h) := put ▸ rfl
    obtain ⟨v, late⟩ : ∃ v, (a.lateHolds h).2 = v := ⟨_, rfl⟩
    have v_only : State.Only [.tracker, .ring, .mgmt, .alloc, .composer] a v := late ▸ State.lateHolds_leaves h a
    have v_holds : v.holds = a.holds := v_only.holds.resolve_left (by decide)
    have v_log : v.labels.log = s.labels.log :=
      (congrArg Dispatcher.log (v_only.labels.resolve_left (by decide))).trans (put ▸ rfl)
    obtain ⟨⟨⟨matched, queued⟩, u⟩, search⟩ : ∃ o, State.escapeSearch h s.labels.log v = o := ⟨_, rfl⟩
    have u_only := State.escapeSearch_only h s.labels.log v
    have u_list := State.escapeSearch_sameList h s.labels.log v
    have u_matched := State.escapeSearch_matched h s.labels.log v
    have u_queued := State.escapeSearch_queued_le h s.labels.log v
    rw [search] at u_only u_list u_matched u_queued
    have settled : (State.settle .holdAdd u).holds = u.holds :=
      (State.settle_only .holdAdd u).holds.resolve_left (by decide)
    have served : (s.taken src).holdAdd f = ⟨State.settle .holdAdd u, .ok,
        .holdAdd (s.hold (f.article, f.lot)).isNone u.holds.generation u.holds.list.length
          (s.slotsWhere (gainsLateHold h)).length matched queued⟩ := by
      have fitting : ¬ (((s.taken src).hold h.key).isNone = true ∧ Config.holdMax ≤ (s.taken src).holds.list.length) := by
        rintro ⟨new, full⟩
        rw [key] at new
        have full : 128 ≤ s.holds.list.length := full
        rcases room with old | room
        · exact absurd old (by rw [Option.isSome_iff_ne_none, not_not]; exact Option.isNone_iff_eq_none.mp new)
        · omega
      unfold State.holdAdd
      simp only [read, if_neg fitting, put, late, v_log, search, settled]
      rw [key, ← found]
      rfl
    obtain ⟨list, generation, currency, -, day⟩ := u_list.fields
    rw [v_holds, a_holds] at list generation currency day
    replace list : u.holds.list = putHold h s.holds.list := list
    replace generation : u.holds.generation = (s.holds.generation + 1) % 65536 := generation
    have cores : ∀ i, u.core i = if i ∈ s.slotsWhere (gainsLateHold h) then (s.core i).map (Context.handed .lotHeldLate)
        else s.core i := fun i => by
      have tracker : u.tracker = v.tracker := u_only.tracker.resolve_left (by decide)
      rw [State.core, State.ctx, tracker, ← found, show s.core i = a.core i from put ▸ rfl, ← State.core_lateHolds, late]
      rfl
    refine ⟨u, v, h, _, matched, queued, exec_of_serve takes rfl (fun _ => rfl) served, search, ?_, generation, ?_,
      article, lot, code, placed, reason, ?_, fun k other => ?_, currency, day, u_queued, u_matched, rfl,
      fun i c hc decided hit out => ?_, fun i c hc none => ?_⟩
    · rw [v_holds, a_holds]
      simp only [list, generation]
    · rw [list, length_putHold order.holdOrder, key]
      rfl
    · rw [State.hold, list, ← key]
      exact find?_putHold_self h _
    · rw [State.hold, list]
      exact find?_putHold_of_ne (key ▸ other) _
    · have gains : i ∈ s.slotsWhere (gainsLateHold h) :=
        State.mem_slotsWhere.mpr ⟨c, hc, by simpa [gainsLateHold, decided, out] using hit⟩
      have core := (cores i).trans (if_pos gains)
      rw [State.core_of_ctx hc] at core
      obtain ⟨d, hd, e⟩ := Option.map_eq_some_iff.mp core
      obtain ⟨o, j, w, l, n, k, rfl⟩ := Context.exists_of_core (e.trans (Context.core_handed _ c).symm)
      obtain ⟨x, verdict⟩ := Option.isSome_iff_exists.mp decided
      refine ⟨_, hd, Context.mem_handed _ _, ?_⟩
      simp [Context.handed, out, verdict, Reason.severity, Verdict.max_hold]
    · have stays : i ∉ s.slotsWhere (gainsLateHold h) := fun gains => by
        obtain ⟨d, hd, gain⟩ := State.mem_slotsWhere.mp gains
        obtain rfl := Option.some.inj (hc.symm.trans hd)
        simp [gainsLateHold, none] at gain
      obtain ⟨d, hd, e⟩ := State.ctx_of_core ((cores i).trans (if_neg stays)) hc
      obtain ⟨o, j, w, l, n, k, rfl⟩ := Context.exists_of_core e
      exact ⟨_, hd, rfl, none⟩
  · simp [State.escapeSearch, none]
  · rintro o rfl
    refine ⟨?_, rfl, rfl, rfl, rfl, rfl, rfl, rfl, rfl, rfl, rfl, rfl⟩
    conv_lhs => unfold State.escapeSearch
    rw [found]
    rfl
  · simp [Hold.hits, lot]
  · simp [Hold.hits, none]
  · exact if_neg (Nat.not_lt.mpr full)
  · rw [State.escape_of_room room]
    have more : (s.onHolds fun h => { h with escapes := h.escapes ++ [r] }).hasMore .escapes = true := by
      simp [State.hasMore, State.heldCount]
    refine ⟨_, rfl, ?_, ?_, ?_⟩
    all_goals rw [State.offer_of_busy more busy]
    · split <;> rfl
    · exact .ite (State.onHolds_only _ _).first ((State.onHolds_only _ _).first.next (State.joinPending_only _ _))
    · split <;> rfl
  · rw [State.escape_of_room (by simp [empty])]
    obtain ⟨v, queued⟩ : ∃ v, s.onHolds (fun h => { h with escapes := h.escapes ++ [r] }) = v := ⟨_, rfl⟩
    have queue : v.holds.escapes = [r] := by simp [← queued, empty]
    have taken := State.take_escapes queue (d := a) (queued ▸ dest)
    have last : (v.giveOne .escapes).hasMore .escapes = false := by
      rw [State.giveOne_of_some taken]
      rfl
    rw [queued, State.offer_of_free (by simp [State.heldCount, queue]) (queued ▸ free) (queued ▸ room) last,
      State.giveOne_of_some taken, ← queued]
    refine ⟨_, rfl, ?_, rfl, rfl, ?_⟩
    · simp [State.place, empty]
    · exact (((State.onHolds_only _ _).first.next (State.onHolds_only _ _)).next (State.onMgmt_only _ _)).next
        ((State.onHolds_only _ _).first.next (State.place_only _ _) (bs := [.holds, .ring]))
  · rw [State.escape_of_room (by simp [empty])]
    obtain ⟨v, queued⟩ : ∃ v, s.onHolds (fun h => { h with escapes := h.escapes ++ [r] }) = v := ⟨_, rfl⟩
    have queue : v.holds.escapes = [r] := by simp [← queued, empty]
    have taken := State.take_escapes_of_none queue (queued ▸ dest)
    have last : (v.giveOne .escapes).hasMore .escapes = false := by
      rw [State.giveOne_of_none taken]
      rfl
    have same : ({ s.holds with escapes := [] } : HoldRegister) = s.holds := by rw [← empty]
    rw [queued, State.offer_of_free (by simp [State.heldCount, queue]) (queued ▸ free) (queued ▸ room) last,
      State.giveOne_of_none taken, ← queued]
    exact ⟨_, rfl, same, rfl, rfl, ⟨.inr rfl, .inr same, .inr rfl, .inr rfl, .inr rfl, .inr rfl, .inr rfl, .inr rfl,
      .inl (by simp), .inr rfl, .inr rfl, .inr rfl⟩⟩
  · obtain ⟨v, turn⟩ : ∃ v, (s.begun o os).turnOf [] = v := ⟨_, rfl⟩
    have v_holds : v.holds = s.holds := turn ▸ rfl
    have taken := State.take_escapes (s := v) (v_holds ▸ queue) (d := a) (turn ▸ dest)
    rw [← turn] at taken
    rw [exec_ringOutFree awake, State.chooseNext_of_turn origin full (.inl forward) waits taken rfl]
    subst turn
    cases rest with
    | nil =>
      refine ⟨_, rfl, ?_⟩
      rw [if_neg (by simp [State.hasMore, State.heldCount, State.place])]
      exact ⟨rfl, rfl, rfl, rfl, rfl, ⟨.inr rfl, .inl (by simp), .inr rfl, .inr rfl, .inr rfl, .inr rfl, .inr rfl, .inl (by simp),
        .inl (by simp), .inr rfl, .inr rfl, .inr rfl⟩⟩
    | cons r' rest =>
      refine ⟨_, rfl, ?_⟩
      rw [if_pos (by simp [State.hasMore, State.heldCount, State.place])]
      exact ⟨rfl, rfl, rfl, rfl, rfl, ⟨.inr rfl, .inl (by simp), .inr rfl, .inr rfl, .inr rfl, .inr rfl, .inr rfl, .inl (by simp),
        .inl (by simp), .inr rfl, .inr rfl, .inr rfl⟩⟩

end Sys2Proof.Proofs
end

