-- ==== Sys2Proof/Proofs/Slice0/RingOut.lean ====
section
/-! The choices of Ring Out: what each leaves of the queues, and how soon an originated telegram is begun (R156, R157). -/

namespace Sys2Proof.Machine

open Sys2Proof

section
variable {s t u : State} {h : Holder}

/-- A holder's turn leaves the Ring Port but for what is kept under closed contexts. -/
theorem State.take_ring (h : Holder) (s : State) : ∃ cs, (s.take h).2.ring = { s.ring with closures := cs } := by
  cases h with
  | closure id =>
    simp only [State.take]
    split
    · exact ⟨_, rfl⟩
    · exact ⟨_, rfl⟩
  | escapes =>
    refine ⟨s.ring.closures, ?_⟩
    simp only [State.take]
    split
    · dsimp only
      split
      · exact State.takeReport_ring _ _ _
      · exact State.takeReport_ring _ _ _
    · rfl
  | reports =>
    refine ⟨s.ring.closures, ?_⟩
    simp only [State.take]
    split
    · exact State.takeReport_ring _ _ _
    · rfl
  | infeed l | wrapOutput w =>
    refine ⟨s.ring.closures, ?_⟩
    simp only [State.take]
    split
    · split
      · rfl
      · rfl
    · rfl
  | context i | car | wrapOrder w | replies =>
    refine ⟨s.ring.closures, ?_⟩
    simp only [State.take]
    split
    · rfl
    · rfl

/-- What room given to the pending list keeps: the telegram begun, the forward queue and run, and what the origin queue
held. -/
structure State.Granted (s t : State) : Prop where
  ringOut : t.ring.ringOut = s.ring.ringOut
  run : t.ring.run = s.ring.run
  forward : t.ring.forward = s.ring.forward
  origin : s.ring.origin <+: t.ring.origin
  only : State.Only [.ring, .tracker, .alloc, .mgmt, .holds] s t

theorem State.Granted.refl (s : State) : s.Granted s := ⟨rfl, rfl, rfl, List.prefix_rfl, .refl _ _⟩

theorem State.Granted.trans (g : s.Granted t) (k : t.Granted u) : s.Granted u :=
  ⟨k.ringOut.trans g.ringOut, k.run.trans g.run, k.forward.trans g.forward, g.origin.trans k.origin, g.only.trans k.only⟩

theorem State.granted_waiting (ws : List Holder) (s : State) : s.Granted (s.turnOf ws) :=
  ⟨rfl, rfl, rfl, List.prefix_rfl, (State.onRing_only _ _).first⟩

theorem Holder.blocks_subset (h : Holder) : h.blocks ⊆ [.ring, .tracker, .alloc, .mgmt, .holds] := by
  cases h <;> simp [Holder.blocks]

theorem State.granted_giveOne (h : Holder) (s : State) : s.Granted (s.giveOne h) := by
  obtain ⟨cs, ring⟩ := State.take_ring h s
  have only := (State.giveOne_only h s).mono h.blocks_subset
  rcases taken : s.take h with ⟨x, v⟩
  rw [taken] at ring
  have ring : v.ring = { s.ring with closures := cs } := ring
  cases x with
  | none =>
    rw [State.giveOne_of_none taken] at only ⊢
    exact ⟨by rw [ring], by rw [ring], by rw [ring], by rw [ring], only⟩
  | some x =>
    rw [State.giveOne_of_some taken] at only ⊢
    exact ⟨by rw [State.place, State.onRing_ring, ring], by rw [State.place, State.onRing_ring, ring],
      by rw [State.place, State.onRing_ring, ring], by rw [State.place, State.onRing_ring, ring]; exact List.prefix_append _ _, only⟩

theorem State.granted_grantRoom (n : Nat) (s : State) : s.Granted (s.grantRoom n) := by
  induction n generalizing s with
  | zero => exact .refl _
  | succ n ih =>
    cases waits : s.ring.waiting with
    | nil => rw [State.grantRoom_of_empty _ waits]; exact .refl _
    | cons h rest =>
      rcases Nat.lt_or_ge s.ring.origin.length 32 with room | full
      · rw [State.grantRoom_of_turn waits room]
        have turn := (State.granted_waiting rest s).trans (State.granted_giveOne h _)
        split
        · exact (turn.trans (State.granted_waiting _ _)).trans (ih _)
        · exact turn.trans (ih _)
      · rw [State.grantRoom_of_full _ full]
        exact .refl _

/-- With an originated telegram to begin, Ring Out begins it (R157). -/
theorem State.chooseNext_begins {o : Telegram} {os : List Telegram} (origin : s.ring.origin = o :: os)
    (turn : s.ring.forward = [] ∨ 4 ≤ s.ring.run) : (s.begun o os).Granted s.chooseNext := by
  rw [State.chooseNext_of_origin origin turn]
  exact State.granted_grantRoom _ _

/-- With fewer than four forwarded in a run, a telegram that waits to be forwarded goes first (R157). -/
theorem State.chooseNext_of_forward {f : Telegram} {fs : List Telegram} (forward : s.ring.forward = f :: fs)
    (origin : s.ring.origin ≠ []) (few : s.ring.run < 4) :
    s.chooseNext = s.onRing fun r => { r with forward := fs, ringOut := some f, run := r.run + 1 } := by
  unfold State.chooseNext
  rw [forward]
  cases e : s.ring.origin with
  | nil => exact absurd e origin
  | cons o os => exact if_pos few

theorem State.take_reports {r : Report} {rest : List Report} {d : Byte} (list : s.mgmt.reports = r :: rest)
    (dest : s.reportDest = some d) : s.take .reports =
      (some ⟨d, s.ownAddress, kReport, reportPayload r.kind s.mgmt.reportSeq s.mgmt.lostReport r.fields⟩,
        s.onMgmt fun m => { m with reports := rest, reportSeq := (m.reportSeq + 1) % 65536, lostReport := false }) := by
  have dest' : (s.onMgmt fun m => { m with reports := rest }).reportDest = some d := dest
  simp only [State.take, list, State.takeReport_of_dest dest']
  rfl

theorem State.take_reports_of_none {r : Report} {rest : List Report} (list : s.mgmt.reports = r :: rest)
    (dest : s.reportDest = none) : s.take .reports =
      (none, s.onMgmt fun m => { m with reports := rest, lostReport := true }) := by
  have dest' : (s.onMgmt fun m => { m with reports := rest }).reportDest = none := dest
  simp only [State.take, list, State.takeReport_of_none dest']
  rfl

theorem State.take_infeed {l : Lane} {c : InfeedCmd} {a : Fin 32} (order : s.tracker.lanes[l].order = some c)
    (holder : s.holderOf (.infeed l) = some a) : s.take (.infeed l) =
      (some ⟨addressByte a, s.ownAddress, kInfeed, u8 c.code⟩,
        s.modLane l fun r => { r with order := none, lastPlaced := some c }) := by
  simp only [State.take, order, State.toRole, holder, Option.map_some]

theorem mark_eq (b : Bool) : mark b = [if b then 1 else 0] := by cases b <;> rfl

theorem InfeedCmd.ofNat_code (c : InfeedCmd) : BitVec.ofNat 8 c.code = if c = .go then 1 else 2 := by cases c <;> rfl

/-- The report list's turn, with a report left after it. -/
theorem exec_ringOutFree_reports {o : Telegram} {os : List Telegram} {rest : List Holder} {r₁ r₂ : Report}
    {rs : List Report} {d : Byte} (awake : s.ctl.inReset = false) (forward : s.ring.forward = [])
    (origin : s.ring.origin = o :: os) (full : os.length = 31) (waits : s.ring.waiting = .reports :: rest)
    (reports : s.mgmt.reports = r₁ :: r₂ :: rs) (dest : s.reportDest = some d) :
    ∃ u, exec .ringOutFree s = .next u
      ∧ u.ring = { s.ring with
          origin := os ++ [⟨d, s.ownAddress, kReport, reportPayload r₁.kind s.mgmt.reportSeq s.mgmt.lostReport r₁.fields⟩]
          ringOut := some o, run := 0, waiting := rest ++ [.reports] }
      ∧ u.mgmt = { s.mgmt with
          reports := r₂ :: rs, reportSeq := (s.mgmt.reportSeq + 1) % 65536, lostReport := false }
      ∧ State.Only [.ring, .mgmt] s u := by
  refine ⟨_, exec_ringOutFree awake, ?_⟩
  obtain ⟨v, begun⟩ : ∃ v, (s.begun o os).turnOf rest = v := ⟨_, rfl⟩
  have v_only : State.Only [.ring, .mgmt] s v :=
    begun ▸ ((State.onRing_only _ _).first.trans (State.onRing_only _ _).first)
  have v_ring : v.ring = { s.ring with origin := os, ringOut := some o, run := 0, waiting := rest } := begun ▸ rfl
  have v_mgmt : v.mgmt = s.mgmt := begun ▸ rfl
  have taken := State.take_reports (s := v) (by rw [v_mgmt]; exact reports) (show v.reportDest = some d by rw [← begun]; exact dest)
  rw [v_mgmt, show v.ownAddress = s.ownAddress from begun ▸ rfl] at taken
  rw [State.chooseNext_of_turn origin full (.inl forward) waits (by rw [begun]; exact taken)
      (by rw [State.onMgmt_ring, v_ring]),
    if_pos (by simp [State.hasMore, State.heldCount, State.place])]
  refine ⟨?_, ?_, ((v_only.trans (State.onMgmt_only _ _).first).next (State.place_only _ _)).next
    (State.joinPending_only _ _) (cs := [.ring])⟩
  · simp [State.joinPending, State.place, v_ring]
  · simp [State.joinPending, State.place, v_mgmt]

/-- The turn of a lane's infeed. -/
theorem exec_ringOutFree_infeed {o : Telegram} {os : List Telegram} {rest : List Holder} {l : Lane} {c : InfeedCmd}
    {a : Fin 32} (awake : s.ctl.inReset = false) (forward : s.ring.forward = [])
    (origin : s.ring.origin = o :: os) (full : os.length = 31) (waits : s.ring.waiting = .infeed l :: rest)
    (order : s.tracker.lanes[l].order = some c) (holder : s.holderOf (.infeed l) = some a) :
    ∃ u, exec .ringOutFree s = .next u
      ∧ u.ring = { s.ring with
          origin := os ++ [⟨addressByte a, s.ownAddress, kInfeed, u8 c.code⟩], ringOut := some o, run := 0
          waiting := rest }
      ∧ u.tracker = { s.tracker with
          lanes := s.tracker.lanes.set l { s.tracker.lanes[l] with order := none, lastPlaced := some c } }
      ∧ State.Only [.ring, .tracker] s u := by
  refine ⟨_, exec_ringOutFree awake, ?_⟩
  have taken := State.take_infeed (s := (s.begun o os).turnOf rest) order holder
  rw [State.chooseNext_of_turn origin full (.inl forward) waits taken rfl,
    if_neg (by simp [State.hasMore, State.heldCount, State.place, State.modLane])]
  exact ⟨rfl, rfl, ⟨.inr rfl, .inr rfl, .inl (by simp), .inr rfl, .inr rfl, .inr rfl, .inr rfl, .inl (by simp), .inr rfl,
    .inr rfl, .inr rfl, .inr rfl⟩⟩

/-- However many telegrams wait to be forwarded, the forward run grows with each until an originated one is begun. -/
theorem State.begins_within (k : Nat) {o : Telegram} {os : List Telegram} (awake : s.ctl.inReset = false)
    (origin : s.ring.origin = o :: os) (run : 4 ≤ s.ring.run + k) :
    ∃ n u, 1 ≤ n ∧ n ≤ k + 1 ∧ afterAll (List.replicate n .ringOutFree) s = some u ∧ u.ring.ringOut = some o := by
  induction k generalizing s with
  | zero =>
    refine ⟨1, s.chooseNext, le_rfl, le_rfl, ?_, (State.chooseNext_begins origin (.inr run)).ringOut⟩
    simp [afterAll, exec_ringOutFree awake]
  | succ k ih =>
    by_cases turn : s.ring.forward = [] ∨ 4 ≤ s.ring.run
    · refine ⟨1, s.chooseNext, le_rfl, by omega, ?_, (State.chooseNext_begins origin turn).ringOut⟩
      simp [afterAll, exec_ringOutFree awake]
    · obtain ⟨waits, few⟩ := not_or.mp turn
      obtain ⟨f, fs, forward⟩ := List.exists_cons_of_ne_nil waits
      obtain ⟨n, u, pos, few', after, begun⟩ := ih
        (s := s.onRing fun r => { r with forward := fs, ringOut := some f, run := r.run + 1 }) awake origin
        (show 4 ≤ s.ring.run + 1 + k by omega)
      refine ⟨n + 1, u, by omega, by omega, ?_, begun⟩
      rw [List.replicate_succ, afterAll, exec_ringOutFree awake,
        State.chooseNext_of_forward forward (by simp [origin]) (Nat.lt_of_not_le few)]
      exact after

end

end Sys2Proof.Machine
namespace Sys2Proof.Proofs

open Sys2Proof Sys2Proof.Machine

/-- Settles O9: each forwarded telegram brings the forward run nearer to 4. -/
theorem originatedGoesOutWithinFive : Obligations.OriginatedGoesOutWithinFive := by
  unfold Obligations.OriginatedGoesOutWithinFive
  exact fun s o os awake origin => State.begins_within 4 awake origin (by omega)

/-- Settles O8: the choice by the two queues and the run, and the turns of the pending list one at a time. -/
theorem ringOutChoice : Obligations.RingOutChoice := by
  unfold Obligations.RingOutChoice
  refine fun s awake => ⟨fun f fs forward origin => ?_, fun f fs forward origin few => ?_, fun o os origin turn => ?_,
    fun forward origin => ?_, fun o os h rest v v' origin full turn waits hv => ⟨fun t taken => ?_, fun taken last only => ?_⟩,
    fun o o' os l c a d r₁ r₂ rs forward origin full waits reports dest order holder => ?_⟩
  · refine ⟨_, exec_ringOutFree awake, ?_⟩
    unfold State.chooseNext
    rw [forward, origin]
    exact ⟨State.onRing_only _ _, by simp [Config.forwardRunMax, origin]⟩
  · refine ⟨_, exec_ringOutFree awake, ?_⟩
    rw [State.chooseNext_of_forward forward origin few]
    exact ⟨State.onRing_only _ _, rfl⟩
  · have begins := State.chooseNext_begins origin turn
    refine ⟨_, exec_ringOutFree awake, begins.ringOut, begins.run, begins.forward, begins.origin,
      ((State.onRing_only _ _).first (bs := [.ring, .tracker, .alloc, .mgmt, .holds])).trans begins.only, fun none => ?_⟩
    rw [State.chooseNext_of_origin origin turn, State.grantRoom_of_empty (s := s.begun o os) _ none]
    exact ⟨rfl, State.onRing_only _ _⟩
  · refine ⟨_, exec_ringOutFree awake, ?_⟩
    unfold State.chooseNext
    rw [forward, origin]
    exact ⟨State.onRing_only _ _, by simp [forward, origin]⟩
  · have hv : v = (s.begun o os).turnOf rest := hv
    subst hv
    obtain ⟨cs, ring⟩ := State.take_ring h ((s.begun o os).turnOf rest)
    rw [taken] at ring
    have ring : v'.ring = { s.ring with origin := os, ringOut := some o, run := 0, waiting := rest, closures := cs } := ring
    refine ⟨_, exec_ringOutFree awake, ?_⟩
    rw [State.chooseNext_of_turn origin full turn waits taken (by rw [ring]),
      show (v'.place t).hasMore h = v'.hasMore h by cases h <;> rfl]
    split
    · exact ⟨by simp [State.joinPending, State.place, ring], rfl⟩
    · exact ⟨by simp [State.place, ring], rfl⟩
  · have hv : v = (s.begun o os).turnOf rest := hv
    subst hv
    obtain ⟨n, turns⟩ := State.pendingTurns_pos (s := s.begun o os) waits
    obtain ⟨cs, ring⟩ := State.take_ring h ((s.begun o os).turnOf rest)
    rw [taken] at ring
    have none : v'.ring.waiting = [] := by rw [show v'.ring = _ from ring]; exact only
    rw [exec_ringOutFree awake, State.chooseNext_of_origin origin turn, turns,
      State.grantRoom_of_turn (s := s.begun o os) waits (show os.length < 32 by omega), State.giveOne_of_none taken, last,
      if_neg (by decide), State.grantRoom_of_empty _ none]
  · obtain ⟨w, one, w_ring, w_mgmt, w_only⟩ :=
      exec_ringOutFree_reports awake forward origin (by simp [full]) waits reports dest
    have w_tracker : w.tracker = s.tracker := w_only.tracker.resolve_left (by decide)
    have w_refs : w.refs = s.refs := w_only.refs.resolve_left (by decide)
    have w_ctl : w.ctl = s.ctl := w_only.ctl.resolve_left (by decide)
    have own : w.ownAddress = s.ownAddress := by rw [State.ownAddress, w_ctl, State.ownAddress]
    obtain ⟨u, two, u_ring, u_tracker, u_only⟩ := exec_ringOutFree_infeed (s := w) (l := l) (c := c) (a := a)
      (w_ctl ▸ awake) (by rw [w_ring]; exact forward) (by rw [w_ring]; rfl) (by simp [full]) (by rw [w_ring]; rfl)
      (w_tracker ▸ order) (by rw [State.holderOf, w_refs]; exact holder)
    rw [w_tracker] at u_tracker
    have lanes : u.tracker.lanes = s.tracker.lanes.set l { s.tracker.lanes[l] with order := none, lastPlaced := some c } :=
      congrArg Tracker.lanes u_tracker
    refine ⟨u, by simp only [afterAll, one, two], ?_, ?_, ?_, fun m other => ?_, fun i _ => ?_, ?_⟩
    · rw [u_ring, w_ring, own]
      simp [kReport, kInfeed, reportPayload, mark_eq, InfeedCmd.ofNat_code, u8]
    · rw [u_only.mgmt.resolve_left (by decide), w_mgmt]
    · rw [lanes]
      simp
    · rw [lanes]
      simp [Fin.val_ne_of_ne other.symm]
    · rw [State.ctx, u_tracker]
      rfl
    · exact w_only.first.trans u_only.first

end Sys2Proof.Proofs
end

