-- ==== Sys2Proof/Proofs/Slice0/RepliesAndReports.lean ====
section
/-! How a reply and a report leave: at once, in parts, or from the pending list (R156, R159 to R161). -/

namespace Sys2Proof.Machine

open Sys2Proof

section
variable {s t u : State}

/-- A footprint whose block is kept after all. -/
theorem State.Only.keep_mgmt (h : State.Only [.ring, .mgmt] s t) (kept : t.mgmt = s.mgmt) : State.Only [.ring] s t :=
  ⟨.inr (h.refs.resolve_left (by decide)), .inr (h.holds.resolve_left (by decide)),
    .inr (h.tracker.resolve_left (by decide)), .inr (h.recon.resolve_left (by decide)),
    .inr (h.alloc.resolve_left (by decide)), .inr (h.composer.resolve_left (by decide)),
    .inr (h.labels.resolve_left (by decide)), .inl (by decide), .inr kept, .inr (h.watch.resolve_left (by decide)),
    .inr (h.ctl.resolve_left (by decide)), .inr (h.pending.resolve_left (by decide))⟩

/-! ### Replies in parts (R160) -/

theorem Reply.one_le_parts (y : Reply) : 1 ≤ y.parts := Nat.le_max_left _ _

theorem Reply.parts_eq (y : Reply) : y.parts = max 1 ((y.result.fields.flatten.length + 114) / 115) := rfl

theorem Reply.telegram_eq (y : Reply) (own : Byte) : y.telegram own = ⟨y.dst, own, 0x31, [y.code, y.tag,
    BitVec.ofNat 8 y.status.code, BitVec.ofNat 8 (y.sent + 1), BitVec.ofNat 8 y.parts]
      ++ (y.result.fields.flatten.drop (115 * y.sent)).take 115⟩ := rfl

/-- The reply with some parts placed. -/
def Reply.at (y : Reply) (m : Nat) : Reply := { y with sent := m }

theorem State.take_replies {y : Reply} {more : List Reply} (list : s.mgmt.replies = y :: more) : s.take .replies =
    (some (y.telegram s.ownAddress), s.onMgmt fun m => { m with
      replies := if y.sent + 1 < y.parts then y.at (y.sent + 1) :: more else more }) := by
  simp only [State.take, list]
  rfl

theorem State.hasMore_replies : s.hasMore .replies = true ↔ s.mgmt.replies ≠ [] := by
  cases list : s.mgmt.replies with
  | nil => simp [State.hasMore, State.heldCount, list]
  | cons y more =>
    have := y.one_le_parts
    simp only [State.hasMore, State.heldCount, list, List.map_cons, List.sum_cons, bne_iff_ne]
    simp
    omega

theorem State.giveMany_of_done {h : Holder} (n : Nat) (done : s.hasMore h = false) : State.giveMany n h s = s := by
  cases n with
  | zero => rfl
  | succ n => simp [State.giveMany, done]

theorem State.giveMany_of_room {h : Holder} (n : Nat) (room : s.ring.origin.length < 32) (more : s.hasMore h = true) :
    State.giveMany (n + 1) h s = State.giveMany n h (s.giveOne h) := by
  have room : s.room = true := decide_eq_true room
  simp [State.giveMany, room, more]

/-- The parts of one reply placed one after another, as far as there is room. -/
theorem State.giveMany_replies {y : Reply} {j : Nat} : ∀ {m : Nat} {s : State}, s.mgmt.replies = [y.at m] → m < y.parts →
    m + j ≤ y.parts → s.ring.origin.length + j ≤ 32 →
    ∃ u, (∀ f, State.giveMany (f + j) .replies s = State.giveMany f .replies u)
      ∧ u.ring = { s.ring with origin := s.ring.origin ++ (List.range j).map fun i => (y.at (m + i)).telegram s.ownAddress }
      ∧ u.mgmt = { s.mgmt with replies := if m + j < y.parts then [y.at (m + j)] else [] }
      ∧ State.Only [.ring, .mgmt] s u := by
  induction j with
  | zero =>
    intro m s list left _ _
    refine ⟨s, fun _ => rfl, by simp, by simp [left, ← list], .refl _ _⟩
  | succ j ih =>
    intro m s list left few room
    have one := State.giveOne_of_some (State.take_replies list)
    obtain ⟨v, given⟩ : ∃ v, s.giveOne .replies = v := ⟨_, rfl⟩
    rw [given] at one
    have step : ∀ f, State.giveMany (f + (j + 1)) .replies s = State.giveMany (f + j) .replies v := fun f => by
      rw [← Nat.add_assoc, State.giveMany_of_room _ (by omega) (State.hasMore_replies.mpr (by simp [list])), given]
    have v_only : State.Only [.ring, .mgmt] s v := given ▸ State.giveOne_only .replies s
    have v_ring : v.ring = { s.ring with origin := s.ring.origin ++ [(y.at m).telegram s.ownAddress] } := one ▸ rfl
    have v_mgmt : v.mgmt = { s.mgmt with replies := if m + 1 < y.parts then [y.at (m + 1)] else [] } := one ▸ rfl
    have own : v.ownAddress = s.ownAddress := one ▸ rfl
    by_cases last : m + 1 < y.parts
    · have v_list : v.mgmt.replies = [y.at (m + 1)] := by rw [v_mgmt, if_pos last]
      obtain ⟨u, gives, ring, mgmt, only⟩ := ih v_list last (by omega) (by rw [v_ring]; simp; omega)
      refine ⟨u, fun f => (step f).trans (gives f), ?_, ?_, v_only.trans only⟩
      · rw [ring, v_ring, own]
        simp [List.range_succ_eq_map, Function.comp_def, Nat.add_assoc, Nat.add_comm 1]
      · rw [mgmt, v_mgmt]
        simp [Nat.add_assoc, Nat.add_comm 1]
    · obtain rfl : j = 0 := by omega
      exact ⟨v, step, by rw [v_ring]; simp, by rw [v_mgmt], v_only⟩

/-- A reply formed with no other one waiting, and no holder of the pending list. -/
theorem State.answered_of_free {dst code tag : Byte} {x : Status} {r : Result} {y : Reply} (none : s.mgmt.replies = [])
    (free : s.ring.waiting = []) (hy : y = ⟨dst, code, tag, x, r, 0⟩) :
    (s.ring.origin.length + y.parts ≤ 32 →
      (s.answered dst code tag x r).ring = { s.ring with
        origin := s.ring.origin ++ (List.range y.parts).map fun i => (y.at i).telegram s.ownAddress }
      ∧ State.Only [.ring] s (s.answered dst code tag x r))
    ∧ ∀ m, m < y.parts → s.ring.origin.length + m = 32 →
      (s.answered dst code tag x r).ring = { s.ring with
        origin := s.ring.origin ++ (List.range m).map fun i => (y.at i).telegram s.ownAddress, waiting := [.replies] }
      ∧ (s.answered dst code tag x r).mgmt = { s.mgmt with replies := [y.at m] }
      ∧ State.Only [.ring, .mgmt] s (s.answered dst code tag x r) := by
  obtain ⟨v, formed⟩ : ∃ v, (s.onMgmt fun m => { m with replies := m.replies ++ [y] }) = v := ⟨_, rfl⟩
  have v_list : v.mgmt.replies = [y.at 0] := by rw [← formed, State.onMgmt_mgmt, none, hy]; rfl
  have v_ring : v.ring = s.ring := formed ▸ rfl
  have v_only : State.Only [.ring, .mgmt] s v := formed ▸ (State.onMgmt_only _ _).first
  have v_mgmt : ∀ rs, { v.mgmt with replies := rs } = { s.mgmt with replies := rs } := fun rs => formed ▸ rfl
  have own : v.ownAddress = s.ownAddress := formed ▸ rfl
  have offered : s.answered dst code tag x r = v.offer .replies := by rw [← formed, hy]; rfl
  have count : v.heldCount .replies = y.parts := by simp [State.heldCount, v_list, Reply.at, Reply.parts]
  have unfolded : v.offer .replies = if (State.giveMany y.parts .replies v).hasMore .replies
      then (State.giveMany y.parts .replies v).joinPending .replies else State.giveMany y.parts .replies v := by
    simp [State.offer, v_ring, free, count]
  rw [offered, unfolded]
  refine ⟨fun room => ?_, fun m few room => ?_⟩
  · obtain ⟨u, gives, ring, mgmt, only⟩ := State.giveMany_replies (j := y.parts) v_list y.one_le_parts (by omega)
      (by rw [v_ring]; exact room)
    have gives := gives 0
    rw [Nat.zero_add] at gives
    have done : u.hasMore .replies = false := by
      rw [← Bool.not_eq_true, State.hasMore_replies, mgmt]
      simp
    rw [gives, show State.giveMany 0 .replies u = u from rfl, done, if_neg (by decide)]
    refine ⟨by rw [ring, v_ring, own]; simp, (v_only.trans only).keep_mgmt ?_⟩
    rw [mgmt, v_mgmt]
    simp [← none]
  · obtain ⟨u, gives, ring, mgmt, only⟩ := State.giveMany_replies (j := m) v_list y.one_le_parts (by omega)
      (by rw [v_ring]; exact room.le)
    have gives := gives (y.parts - m)
    rw [Nat.sub_add_cancel few.le, State.giveMany_of_full (s := u) _ _ (by rw [ring, v_ring]; simp [room])] at gives
    rw [gives, if_pos (State.hasMore_replies.mpr (by rw [mgmt]; simp [few]))]
    refine ⟨?_, ?_, (v_only.trans only).next (State.joinPending_only _ _)⟩
    · rw [State.joinPending, State.onRing_ring, ring, v_ring, own]
      simp [free]
    · rw [State.joinPending, State.onRing_mgmt, mgmt, v_mgmt]
      simp [few]

/-! ### Reports (R161) -/

theorem State.reportAddress_eq {d : Byte}
    (zero : s.ctl.params.reportAddress = 0 → (s.holderOf .dispatchSystem).map addressByte = some d)
    (other : s.ctl.params.reportAddress ≠ 0 → d = BitVec.ofNat 8 s.ctl.params.reportAddress) :
    s.reportAddress = some d := by
  unfold State.reportAddress
  by_cases h : s.params.reportAddress = 0
  · rw [if_pos h]
    exact zero h
  · rw [if_neg h, other h]
    rfl

theorem State.report_of_room {r : Report} (room : s.mgmt.reports.length < 32) :
    s.report r = (s.onMgmt fun m => { m with reports := m.reports ++ [r] }).offer .reports := if_pos room

/-- A report formed with none waiting and room in the origin queue takes its turn at once. -/
theorem State.report_of_free {r : Report} (none : s.mgmt.reports = []) (free : s.ring.waiting = [])
    (room : s.ring.origin.length < 32) :
    s.report r = (s.onMgmt fun m => { m with reports := m.reports ++ [r] }).giveOne .reports := by
  obtain ⟨v, formed⟩ : ∃ v, (s.onMgmt fun m => { m with reports := m.reports ++ [r] }) = v := ⟨_, rfl⟩
  have list : v.mgmt.reports = [r] := by rw [← formed, State.onMgmt_mgmt, none]; rfl
  rw [State.report_of_room (by simp [none]), formed]
  refine State.offer_of_free (by simp [State.heldCount, list]) (formed ▸ free) (formed ▸ room) ?_
  cases dest : v.reportDest with
  | none =>
    rw [State.giveOne_of_none (State.take_reports_of_none list dest)]
    rfl
  | some d =>
    rw [State.giveOne_of_some (State.take_reports list dest)]
    rfl

theorem State.report_of_dest {r : Report} {d : Byte} (none : s.mgmt.reports = []) (free : s.ring.waiting = [])
    (room : s.ring.origin.length < 32) (dest : s.reportDest = some d) :
    (s.report r).ring = { s.ring with origin := s.ring.origin ++
        [⟨d, s.ownAddress, kReport, reportPayload r.kind s.mgmt.reportSeq s.mgmt.lostReport r.fields⟩] }
    ∧ (s.report r).mgmt = { s.mgmt with reportSeq := (s.mgmt.reportSeq + 1) % 65536, lostReport := false }
    ∧ State.Only [.ring, .mgmt] s (s.report r) := by
  refine ⟨?_, ?_, State.report_only _ _⟩
  all_goals
    rw [State.report_of_free none free room, State.giveOne_of_some (State.take_reports
      (s := s.onMgmt fun m => { m with reports := m.reports ++ [r] }) (by rw [State.onMgmt_mgmt, none]; rfl) dest)]
  · simp [State.place, State.ownAddress]
  · simp [State.place, ← none]

theorem State.report_of_no_dest {r : Report} (none : s.mgmt.reports = []) (free : s.ring.waiting = [])
    (room : s.ring.origin.length < 32) (dest : s.reportDest = .none) :
    s.report r = s.onMgmt fun m => { m with lostReport := true } := by
  rw [State.report_of_free none free room, State.giveOne_of_none (State.take_reports_of_none
    (s := s.onMgmt fun m => { m with reports := m.reports ++ [r] }) (by rw [State.onMgmt_mgmt, none]; rfl) dest)]
  simp only [State.onMgmt, ← none]

end

end Sys2Proof.Machine

namespace Sys2Proof.Proofs

open Sys2Proof Sys2Proof.Machine

/-- Settles O10: a reply by the parts there is room for, and a report by its destination. -/
theorem repliesAndReportsLeave : Obligations.RepliesAndReportsLeave := by
  unfold Obligations.RepliesAndReportsLeave
  refine ⟨fun s dst code tag x r none off => ⟨fun short free room => ?_, fun busy => ?_,
    fun bs n part hbs long hn hpart free => ?_⟩, fun s dst code tag x r waits => ?_,
    fun s y more rest o os bs n awake turn origin full waits list hbs hn => ?_,
    fun s r => ⟨fun full => ?_, fun few busy => ?_, fun none free room d zero other => ⟨fun away => ?_, fun own => ?_⟩,
      fun none free room zero nobody => ?_⟩⟩
  · have parts : (⟨dst, code, tag, x, r, 0⟩ : Reply).parts = 1 := by
      rw [Reply.parts_eq]
      show max 1 ((r.fields.flatten.length + 114) / 115) = 1
      omega
    obtain ⟨ring, only⟩ := (State.answered_of_free none free rfl).1 (by rw [parts]; omega)
    refine ⟨ring.trans ?_, only⟩
    have whole : (⟨dst, code, tag, x, r, 0⟩ : Reply).telegram s.ownAddress =
        ⟨dst, s.ownAddress, 0x31, [code, tag, BitVec.ofNat 8 x.code, 1, 1] ++ r.fields.flatten⟩ := by
      rw [Reply.telegram_eq, parts, List.take_of_length_le (by simpa using short)]
      simp
    rw [parts, ← whole]
    rfl
  · obtain ⟨v, formed⟩ : ∃ v, (s.onMgmt fun m => { m with replies := m.replies ++ [⟨dst, code, tag, x, r, 0⟩] }) = v :=
      ⟨_, rfl⟩
    have v_mgmt : v.mgmt = { s.mgmt with replies := [⟨dst, code, tag, x, r, 0⟩] } := by
      rw [← formed, State.onMgmt_mgmt, none]
      rfl
    have v_ring : v.ring = s.ring := formed ▸ rfl
    have offered : s.answered dst code tag x r = v.joinPending .replies := by
      show (s.onMgmt _).offer .replies = _
      rw [formed, State.offer_of_busy (State.hasMore_replies.mpr (by rw [v_mgmt]; simp)) (v_ring ▸ busy),
        if_neg (v_ring ▸ off)]
    rw [offered]
    exact ⟨v_mgmt, by rw [State.joinPending, State.onRing_ring, v_ring],
      (formed ▸ (State.onMgmt_only _ _).first : State.Only [.ring, .mgmt] s v).next (State.joinPending_only _ _)⟩
  · have parts : (⟨dst, code, tag, x, r, 0⟩ : Reply).parts = n := by
      rw [Reply.parts_eq, hn, hbs]
      show max 1 ((r.fields.flatten.length + 114) / 115) = _
      rw [hbs] at long
      omega
    have tels : (fun i => ((⟨dst, code, tag, x, r, 0⟩ : Reply).at i).telegram s.ownAddress) = part := funext fun i => by
      rw [hpart i, hbs, ← parts]
      rfl
    obtain ⟨all, some⟩ := State.answered_of_free (dst := dst) (code := code) (tag := tag) (x := x) (r := r) none free rfl
    rw [parts, tels] at all some
    exact ⟨all, some⟩
  · show (s.onMgmt _).offer .replies = _
    unfold State.offer
    rw [if_pos]
    exact List.contains_iff_mem.mpr waits
  · obtain ⟨v, begun⟩ : ∃ v, (s.begun o os).turnOf rest = v := ⟨_, rfl⟩
    have v_only : State.Only [.ring, .mgmt] s v :=
      begun ▸ ((State.onRing_only _ _).first.trans (State.onRing_only _ _).first)
    have v_ring : v.ring = { s.ring with origin := os, ringOut := some o, run := 0, waiting := rest } := begun ▸ rfl
    have v_mgmt : v.mgmt = s.mgmt := begun ▸ rfl
    have parts : y.parts = n := by rw [hn, hbs, Reply.parts_eq]
    have taken := State.take_replies (s := v) (by rw [v_mgmt]; exact list)
    rw [show v.ownAddress = s.ownAddress from begun ▸ rfl, Reply.telegram_eq, parts, ← hbs] at taken
    refine ⟨_, exec_ringOutFree awake, ?_⟩
    rw [State.chooseNext_of_turn origin full turn waits (by rw [begun]; exact taken)
      (by rw [State.onMgmt_ring, v_ring])]
    by_cases last : n ≤ y.sent + 1
    · rw [if_neg (show ¬ y.sent + 1 < n by omega)]
      simp only [last, true_and, if_true]
      cases more with
      | nil =>
        rw [if_neg (by rw [State.hasMore_replies]; simp [State.place])]
        exact ⟨by simp [State.place, v_ring], by simp [State.place, v_mgmt],
          (v_only.trans (State.onMgmt_only _ _).first).next (State.place_only _ _) (cs := [.ring])⟩
      | cons z more =>
        rw [if_pos (State.hasMore_replies.mpr (by simp [State.place]))]
        exact ⟨by simp [State.joinPending, State.place, v_ring], by simp [State.joinPending, State.place, v_mgmt],
          ((v_only.trans (State.onMgmt_only _ _).first).next (State.place_only _ _) (cs := [.ring])).next
            (State.joinPending_only _ _) (cs := [.ring])⟩
    · rw [if_pos (show y.sent + 1 < n by omega)]
      simp only [last, false_and, if_false]
      rw [if_pos (State.hasMore_replies.mpr (by simp [State.place]))]
      exact ⟨by simp [State.joinPending, State.place, v_ring],
        by simp [State.joinPending, State.place, v_mgmt, Reply.at],
        ((v_only.trans (State.onMgmt_only _ _).first).next (State.place_only _ _) (cs := [.ring])).next
          (State.joinPending_only _ _) (cs := [.ring])⟩
  · exact if_neg (Nat.not_lt.mpr full)
  · rw [State.report_of_room few, State.offer_of_busy (h := .reports) (s := s.onMgmt fun m => { m with
      reports := m.reports ++ [r] }) (by simp [State.hasMore, State.heldCount]) busy]
    split
    next stays =>
      have stays : Holder.reports ∈ s.ring.waiting := stays
      exact ⟨rfl, by rw [if_pos stays]; rfl, (State.onMgmt_only _ _).first⟩
    next joins =>
      have joins : Holder.reports ∉ s.ring.waiting := joins
      exact ⟨rfl, by rw [if_neg joins]; rfl, (State.onMgmt_only _ _).first.next (State.joinPending_only _ _)⟩
  · have dest : s.reportDest = some d := by
      rw [State.reportDest, State.reportAddress_eq zero other, Option.filter_some, if_pos (by simpa using away)]
    obtain ⟨ring, mgmt, only⟩ := State.report_of_dest (r := r) none free room dest
    refine ⟨ring.trans ?_, mgmt, only⟩
    rw [reportPayload, mark_eq]
    rfl
  · have dest : s.reportDest = .none := by
      rw [State.reportDest, State.reportAddress_eq zero other, Option.filter_some, if_neg (by simpa using own)]
    exact State.report_of_no_dest none free room dest
  · exact State.report_of_no_dest none free room (by
      unfold State.reportDest State.reportAddress
      rw [if_pos (show s.params.reportAddress = 0 from zero), nobody]
      rfl)

end Sys2Proof.Proofs
end

