-- ==== Sys2Proof/Proofs/Slice0/FramesAndRecords.lean ====
section
/-! The frame of a telegram and what is read from bytes (section 9.1), and the bounds of a label record (R122 to R126). -/

namespace Sys2Proof.Machine

open Sys2Proof

theorem length_beBytes (k n : Nat) : (beBytes k n).length = k := by
  induction k generalizing n with
  | zero => rfl
  | succ k ih => simp [beBytes, ih]

theorem telegramOf_frameBytes {t : Telegram} (short : t.payload.length ≤ 120) : telegramOf (frameBytes t) = some t := by
  have len : (BitVec.ofNat 8 t.payload.length).toNat = t.payload.length := by
    rw [BitVec.toNat_ofNat]
    omega
  have bytes : frameBytes t = t.dst :: t.src :: t.kind :: BitVec.ofNat 8 t.payload.length ::
      (t.payload ++ beBytes 2 (crc16 (frameBody t)).toNat) := rfl
  have checked : (frameBytes t).take (4 + t.payload.length) = frameBody t :=
    List.take_left' (by
      simp [frameBody]
      omega)
  have whole : (frameBytes t).length = 6 + t.payload.length := by
    rw [bytes]
    simp [length_beBytes]
    omega
  rw [bytes, telegramOf, ← bytes, len, checked, whole, List.drop_left, List.take_left]
  simp [Config.payloadMax, short]

theorem frameBytes_of_telegramOf {bytes : List Byte} {t : Telegram} (read : telegramOf bytes = some t) :
    frameBytes t = bytes := by
  unfold telegramOf at read
  split at read
  next d s k l rest =>
    obtain ⟨valid, same⟩ := Option.ite_none_right_eq_some.mp read
    cases same
    simp only [Bool.and_eq_true, decide_eq_true_eq, beq_iff_eq, List.length_cons] at valid
    obtain ⟨⟨_, whole⟩, check⟩ := valid
    have len : (rest.take l.toNat).length = l.toNat := by
      rw [List.length_take]
      omega
    have body : frameBody ⟨d, s, k, rest.take l.toNat⟩ = (d :: s :: k :: l :: rest).take (4 + l.toNat) := by
      simp [frameBody, len, Nat.add_comm 4]
    rw [frameBytes, body, ← check, Nat.add_comm 4]
    simp
  next => cases read

/-! ### Label records (R122 to R126) -/

/-- What a record being built keeps to (R124, R126). -/
structure Canvas.Fits (c : Canvas) : Prop where
  rows : c.rows.length ≤ 16
  columns : ∀ t ∈ c.rows, t.length ≤ 40
  row : c.row.length ≤ 40
  barcodes : c.barcodes.length ≤ 2

theorem Canvas.Fits.put {c : Canvas} (h : c.Fits) (t : Text) : (c.put t).Fits := by
  unfold Canvas.put
  split
  · exact ⟨h.rows, h.columns, List.length_take_le _ _, h.barcodes⟩
  · exact ⟨h.rows, h.columns, h.row, h.barcodes⟩

theorem Canvas.Fits.newline {c : Canvas} (h : c.Fits) : c.newline.Fits := by
  unfold Canvas.newline
  split
  next room =>
    refine ⟨by simpa using room, fun t ht => ?_, by simp, h.barcodes⟩
    rcases List.mem_append.mp ht with old | new
    · exact h.columns t old
    · rw [List.mem_singleton.mp new]
      exact h.row
  next => exact h

theorem Canvas.Fits.finish {c : Canvas} (h : c.Fits) : c.finish.Fits := by
  unfold Canvas.finish
  split
  · exact h
  · exact h.newline

theorem Canvas.Fits.barcode {c : Canvas} (h : c.Fits) (k : BarcodeKind) (t : Text) : (c.barcode k t).Fits := by
  unfold Canvas.barcode
  split
  next room => exact ⟨h.rows, h.columns, h.row, by simpa using room⟩
  next => exact ⟨h.rows, h.columns, h.row, h.barcodes⟩

theorem Canvas.Fits.drawItem {c : Canvas} (h : c.Fits) (inp : CompInputs) (serial : Nat) (x : Item × Option LineInput) :
    (drawItem inp serial c x).Fits := by
  unfold Machine.drawItem
  split
  · exact h.put _
  next code width align fill _ =>
    have placed := h.put (fieldText (fieldValue inp serial x.2 code) width align fill).1
    exact ⟨placed.rows, placed.columns, placed.row, placed.barcodes⟩
  · exact h.newline
  · split
    · exact h.barcode _ _
    · exact h
  · exact h.barcode _ _
  · exact h.finish
  all_goals exact h

theorem Canvas.Fits.work {c : Canvas} (h : c.Fits) (inp : CompInputs) (serial : Nat)
    (xs : List (Item × Option LineInput)) : (xs.foldl (Machine.drawItem inp serial) c).Fits := by
  induction xs generalizing c with
  | nil => exact h
  | cons x xs ih => exact ih (h.drawItem inp serial x)

theorem CompInputs.work_of_empty {inp : CompInputs} (empty : inp.items = []) : inp.work = [] := by
  unfold CompInputs.work
  rw [empty]
  rfl

end Sys2Proof.Machine

namespace Sys2Proof.Proofs

open Sys2Proof Sys2Proof.Machine

/-- Settles O6: the length byte splits the bytes as they were joined. -/
theorem frameRoundTrip : Obligations.FrameRoundTrip := by
  unfold Obligations.FrameRoundTrip
  exact ⟨fun t => telegramOf_frameBytes,
    fun bytes t read => ⟨payload_length_of_telegramOf read, frameBytes_of_telegramOf read⟩⟩

/-- Settles O43: every item drawn keeps the canvas to its bounds. -/
theorem recordsFitTheLabel : Obligations.RecordsFitTheLabel := by
  unfold Obligations.RecordsFitTheLabel
  refine ⟨fun f n => ?_, fun width align fill => ⟨fun value => ?_, rfl, fun v pad hpad => ⟨fun long => ?_,
    fun fits left => ?_, fun fits right => ?_⟩⟩⟩
  · have fits := Canvas.Fits.work (c := ⟨[], [], [], false⟩) ⟨by simp, by simp, by simp, by simp⟩ f.inputs n f.inputs.work
    refine ⟨fits.rows, fits.columns, fits.barcodes, rfl, rfl, rfl, rfl, List.isEmpty_iff, fun empty => ?_⟩
    simp [Flight.record, CompInputs.work_of_empty empty]
  · cases value with
    | none => simp [fieldText]
    | some v =>
      by_cases fits : v.length ≤ width
      · cases align with
        | left => simp [fieldText, fits]
        | right => simp [fieldText, fits]
      · simp [fieldText, fits]
  · simp [fieldText, Nat.not_le.mpr long]
  · cases fill <;> simp [fieldText, fits, left, hpad]
  · cases fill <;> simp [fieldText, fits, right, hpad]

end Sys2Proof.Proofs
end

