-- ==== Sys2Proof/Proofs/Slice0/Stations.lean ====
section
/-! Station telegrams: a telegram that the part hears, whose source and payload fit its kind, reaches its block in the
state that screening and forwarding leave (R151 to R153). -/

namespace Sys2Proof.Machine

open Sys2Proof

section
variable {s : State} {dst src : Byte} {p : List Byte} {l : Lane} {w : WrapperNo} {k : LineNo}

/-- A command that is a heard station telegram, by the telegram's way to its block. -/
theorem exec_handed {i : Instr} {t : Telegram} {u : State → State} (hears : s.Hears t.src) (short : t.payload.length ≤ 120)
    (kind : t.kind ≠ kMgmtRequest) (takes : exec i s = .next (s.arrive t))
    (hand : (s.passed t).hand t = u (s.passed t)) : exec i s = .next (u (s.passed t)) := by
  rw [takes, State.arrive_of_hears hears short kind, hand]

/-! ### The block of a telegram by its kind -/

theorem State.hand_tagRead {x : Option Text} {u : State} (role : u.roleOf src laneOfReader = some l)
    (read : whole takeLicence p = some x) :
    u.hand ⟨dst, src, kTagRead, p⟩ = (u.readTag l (presentLicence x)).settle .tagRead := by
  have code : kTagRead.toNat = 0x01 := rfl
  simp only [State.hand, code, role, State.fitting, read]

theorem State.hand_tunnelStart {x : Option Text} {u : State} (role : u.roleOf src laneOfTunnel = some l)
    (read : whole takeLicence p = some x) :
    u.hand ⟨dst, src, kTunnelStart, p⟩ = (u.tunnelStart l (presentLicence x) src).settle .tunnelStart := by
  have code : kTunnelStart.toNat = 0x02 := rfl
  simp only [State.hand, code, role, State.fitting, read]

theorem State.hand_caseRead {x : CaseRead} {u : State} (role : u.roleOf src laneOfTunnel = some l)
    (read : whole takeCase p = some x) :
    u.hand ⟨dst, src, kCaseRead, p⟩ = u.caseRead l x src := by
  have code : kCaseRead.toNat = 0x03 := rfl
  simp only [State.hand, code, role, State.fitting, read]

theorem State.hand_measure {x : Option Nat × Option Nat × Option Text} {u : State} (role : u.roleOf src laneOfMeasure = some l)
    (read : whole takeMeasure p = some x) :
    u.hand ⟨dst, src, kMeasure, p⟩ = (u.measure l x.1 x.2.1 x.2.2 src).settle .measure := by
  have code : kMeasure.toNat = 0x05 := rfl
  simp only [State.hand, code, role, State.fitting, read]

theorem State.hand_wrapperEvent {e : Nat} {u : State} (role : u.roleOf src wrapperOf = some w)
    (read : whole (takeEvent 5) p = some e) :
    u.hand ⟨dst, src, kWrapperEvent, p⟩ = u.wrapperEvent src w e := by
  have code : kWrapperEvent.toNat = 0x08 := rfl
  simp only [State.hand, code, role, State.fitting, read]

theorem State.hand_routed {x : Option Text × Nat} {u : State} (role : u.roleOf src lineOfSwitch = some k)
    (read : whole takeRouted p = some x) :
    u.hand ⟨dst, src, kRouted, p⟩ = u.routedEvent src k x.1 x.2 := by
  have code : kRouted.toNat = 0x0A := rfl
  simp only [State.hand, code, role, State.fitting, read]

theorem State.hand_tunnelEnd {u : State} (role : u.roleOf src laneOfTunnel = some l) :
    u.hand ⟨dst, src, kTunnelEnd, []⟩ = (u.tunnelEnd l src).settle .tunnelEnd := by
  have code : kTunnelEnd.toNat = 0x04 := rfl
  have read : whole (pure ()) [] = some () := rfl
  simp only [State.hand, code, role, State.fitting, read]

theorem State.hand_scaleChecked {u : State} (role : u.roleOf src laneOfMeasure = some l) :
    u.hand ⟨dst, src, kScaleChecked, []⟩ = u.clearScale l src := by
  have code : kScaleChecked.toNat = 0x06 := rfl
  have read : whole (pure ()) [] = some () := rfl
  simp only [State.hand, code, role, State.fitting, read]

theorem State.hand_carEvent {e : Nat} {u : State} (role : RoleInst.transferCar ∈ u.rolesAt src)
    (read : whole (takeEvent 3) p = some e) : u.hand ⟨dst, src, kCarEvent, p⟩ = u.carEvent src e := by
  have code : kCarEvent.toNat = 0x07 := rfl
  simp only [State.hand, code, List.contains_iff_mem.mpr role, if_true, State.fitting, read]

theorem State.hand_spurState {n : Byte} {u : State} (role : RoleInst.rejectSpur ∈ u.rolesAt src) :
    u.hand ⟨dst, src, kSpurState, [n]⟩ = (u.setSpur n.toNat).settle .spurState := by
  have code : kSpurState.toNat = 0x0B := rfl
  have read : whole (takeNat 1) [n] = some n.toNat := by
    show some (ofBytes [n]) = _
    simp [ofBytes]
  simp only [State.hand, code, List.contains_iff_mem.mpr role, if_true, State.fitting, read]

/-! ### The commands -/

theorem exec_tagRead {x : Option Text} (fits : s.Fits src laneOfReader l) (short : p.length ≤ 120)
    (read : whole takeLicence p = some x) :
    exec (.tagRead dst src p) s = .next (((s.passed ⟨dst, src, kTagRead, p⟩).readTag l (presentLicence x)).settle .tagRead) :=
  exec_handed (t := ⟨dst, src, kTagRead, p⟩) (u := fun s => (s.readTag l (presentLicence x)).settle .tagRead) fits.1 short (show kTagRead ≠ kMgmtRequest by decide) rfl
    (State.hand_tagRead ((State.passed_roleOf _ s src laneOfReader).trans fits.2) read)

theorem exec_tunnelStart {x : Option Text} (fits : s.Fits src laneOfTunnel l) (short : p.length ≤ 120)
    (read : whole takeLicence p = some x) :
    exec (.tunnelStart dst src p) s = .next (((s.passed ⟨dst, src, kTunnelStart, p⟩).tunnelStart l (presentLicence x) src).settle .tunnelStart) :=
  exec_handed (t := ⟨dst, src, kTunnelStart, p⟩) (u := fun s => (s.tunnelStart l (presentLicence x) src).settle .tunnelStart) fits.1 short (show kTunnelStart ≠ kMgmtRequest by decide) rfl
    (State.hand_tunnelStart ((State.passed_roleOf _ s src laneOfTunnel).trans fits.2) read)

theorem exec_caseRead {x : CaseRead} (fits : s.Fits src laneOfTunnel l) (short : p.length ≤ 120)
    (read : whole takeCase p = some x) :
    exec (.caseRead dst src p) s = .next ((s.passed ⟨dst, src, kCaseRead, p⟩).caseRead l x src) :=
  exec_handed (t := ⟨dst, src, kCaseRead, p⟩) (u := fun s => s.caseRead l x src) fits.1 short (show kCaseRead ≠ kMgmtRequest by decide) rfl
    (State.hand_caseRead ((State.passed_roleOf _ s src laneOfTunnel).trans fits.2) read)

theorem exec_tunnelEnd (fits : s.Fits src laneOfTunnel l) :
    exec (.tunnelEnd dst src) s = .next (((s.passed ⟨dst, src, kTunnelEnd, []⟩).tunnelEnd l src).settle .tunnelEnd) :=
  exec_handed (t := ⟨dst, src, kTunnelEnd, []⟩) (u := fun s => (s.tunnelEnd l src).settle .tunnelEnd) fits.1 (by simp)
    (show kTunnelEnd ≠ kMgmtRequest by decide) rfl
    (State.hand_tunnelEnd ((State.passed_roleOf _ s src laneOfTunnel).trans fits.2))

theorem exec_measure {x : Option Nat × Option Nat × Option Text} (fits : s.Fits src laneOfMeasure l)
    (short : p.length ≤ 120) (read : whole takeMeasure p = some x) :
    exec (.measure dst src p) s = .next (((s.passed ⟨dst, src, kMeasure, p⟩).measure l x.1 x.2.1 x.2.2 src).settle .measure) :=
  exec_handed (t := ⟨dst, src, kMeasure, p⟩) (u := fun s => (s.measure l x.1 x.2.1 x.2.2 src).settle .measure) fits.1 short (show kMeasure ≠ kMgmtRequest by decide) rfl
    (State.hand_measure ((State.passed_roleOf _ s src laneOfMeasure).trans fits.2) read)

theorem exec_scaleChecked (fits : s.Fits src laneOfMeasure l) :
    exec (.scaleChecked dst src) s = .next ((s.passed ⟨dst, src, kScaleChecked, []⟩).clearScale l src) :=
  exec_handed (t := ⟨dst, src, kScaleChecked, []⟩) (u := fun s => s.clearScale l src) fits.1 (by simp)
    (show kScaleChecked ≠ kMgmtRequest by decide) rfl
    (State.hand_scaleChecked ((State.passed_roleOf _ s src laneOfMeasure).trans fits.2))

theorem exec_moveDone (hears : s.Hears src) (role : RoleInst.transferCar ∈ s.rolesAt src) :
    exec (.moveDone dst src) s = .next ((s.passed ⟨dst, src, kCarEvent, [1]⟩).carEvent src 1) :=
  exec_handed (t := ⟨dst, src, kCarEvent, [1]⟩) (u := fun s => s.carEvent src 1) hears (by simp)
    (show kCarEvent ≠ kMgmtRequest by decide) rfl
    (State.hand_carEvent (by rw [State.passed_rolesAt]; exact role) rfl)

theorem exec_moveFault (hears : s.Hears src) (role : RoleInst.transferCar ∈ s.rolesAt src) :
    exec (.moveFault dst src) s = .next ((s.passed ⟨dst, src, kCarEvent, [2]⟩).carEvent src 2) :=
  exec_handed (t := ⟨dst, src, kCarEvent, [2]⟩) (u := fun s => s.carEvent src 2) hears (by simp)
    (show kCarEvent ≠ kMgmtRequest by decide) rfl
    (State.hand_carEvent (by rw [State.passed_rolesAt]; exact role) rfl)

theorem exec_carReady (hears : s.Hears src) (role : RoleInst.transferCar ∈ s.rolesAt src) :
    exec (.carReady dst src) s = .next ((s.passed ⟨dst, src, kCarEvent, [3]⟩).carEvent src 3) :=
  exec_handed (t := ⟨dst, src, kCarEvent, [3]⟩) (u := fun s => s.carEvent src 3) hears (by simp)
    (show kCarEvent ≠ kMgmtRequest by decide) rfl
    (State.hand_carEvent (by rw [State.passed_rolesAt]; exact role) rfl)

theorem exec_spurState {n : Byte} (hears : s.Hears src) (role : RoleInst.rejectSpur ∈ s.rolesAt src) :
    exec (.spurState dst src n) s = .next (((s.passed ⟨dst, src, kSpurState, [n]⟩).setSpur n.toNat).settle .spurState) :=
  exec_handed (t := ⟨dst, src, kSpurState, [n]⟩) (u := fun s => (s.setSpur n.toNat).settle .spurState) hears (by simp)
    (show kSpurState ≠ kMgmtRequest by decide) rfl
    (State.hand_spurState (by rw [State.passed_rolesAt]; exact role))

theorem exec_wrapperReady (fits : s.Fits src wrapperOf w) :
    exec (.wrapperReady dst src) s = .next ((s.passed ⟨dst, src, kWrapperEvent, [1]⟩).wrapperEvent src w 1) :=
  exec_handed (t := ⟨dst, src, kWrapperEvent, [1]⟩) (u := fun s => s.wrapperEvent src w 1) fits.1 (by simp)
    (show kWrapperEvent ≠ kMgmtRequest by decide) rfl
    (State.hand_wrapperEvent ((State.passed_roleOf _ s src wrapperOf).trans fits.2) rfl)

theorem exec_standby (fits : s.Fits src wrapperOf w) :
    exec (.standby dst src) s = .next ((s.passed ⟨dst, src, kWrapperEvent, [2]⟩).wrapperEvent src w 2) :=
  exec_handed (t := ⟨dst, src, kWrapperEvent, [2]⟩) (u := fun s => s.wrapperEvent src w 2) fits.1 (by simp)
    (show kWrapperEvent ≠ kMgmtRequest by decide) rfl
    (State.hand_wrapperEvent ((State.passed_roleOf _ s src wrapperOf).trans fits.2) rfl)

theorem exec_wrapStarted (fits : s.Fits src wrapperOf w) :
    exec (.wrapStarted dst src) s = .next ((s.passed ⟨dst, src, kWrapperEvent, [3]⟩).wrapperEvent src w 3) :=
  exec_handed (t := ⟨dst, src, kWrapperEvent, [3]⟩) (u := fun s => s.wrapperEvent src w 3) fits.1 (by simp)
    (show kWrapperEvent ≠ kMgmtRequest by decide) rfl
    (State.hand_wrapperEvent ((State.passed_roleOf _ s src wrapperOf).trans fits.2) rfl)

theorem exec_wrapDone (fits : s.Fits src wrapperOf w) :
    exec (.wrapDone dst src) s = .next ((s.passed ⟨dst, src, kWrapperEvent, [4]⟩).wrapperEvent src w 4) :=
  exec_handed (t := ⟨dst, src, kWrapperEvent, [4]⟩) (u := fun s => s.wrapperEvent src w 4) fits.1 (by simp)
    (show kWrapperEvent ≠ kMgmtRequest by decide) rfl
    (State.hand_wrapperEvent ((State.passed_roleOf _ s src wrapperOf).trans fits.2) rfl)

theorem exec_wrapFault (fits : s.Fits src wrapperOf w) :
    exec (.wrapFault dst src) s = .next ((s.passed ⟨dst, src, kWrapperEvent, [5]⟩).wrapperEvent src w 5) :=
  exec_handed (t := ⟨dst, src, kWrapperEvent, [5]⟩) (u := fun s => s.wrapperEvent src w 5) fits.1 (by simp)
    (show kWrapperEvent ≠ kMgmtRequest by decide) rfl
    (State.hand_wrapperEvent ((State.passed_roleOf _ s src wrapperOf).trans fits.2) rfl)

theorem exec_routed {x : Option Text × Nat} (fits : s.Fits src lineOfSwitch k) (short : p.length ≤ 120)
    (read : whole takeRouted p = some x) :
    exec (.routed dst src p) s = .next ((s.passed ⟨dst, src, kRouted, p⟩).routedEvent src k x.1 x.2) :=
  exec_handed (t := ⟨dst, src, kRouted, p⟩) (u := fun s => s.routedEvent src k x.1 x.2) fits.1 short (show kRouted ≠ kMgmtRequest by decide) rfl
    (State.hand_routed ((State.passed_roleOf _ s src lineOfSwitch).trans fits.2) read)

end

end Sys2Proof.Machine
end

