-- ==== Sys2Proof/Proofs/Slice0/Scanning.lean ====
section
/-! The tracking stations: what is attached to the contexts of a lane, and the scale of a lane (R48, R49, R56, R95). -/

namespace Sys2Proof.Machine

open Sys2Proof

section
variable {s t : State} {i j : Slot} {l : Lane} {c d : Context} {r : Reason}

/-! ### A record changed -/

theorem State.modCtx_of_ctx (hc : s.ctx i = some c) (f : Context → Context) : s.modCtx i f = s.putCtx i (some (f c)) := by
  simp [State.modCtx, hc]

theorem State.putCtx_putCtx (i : Slot) (x y : Option Context) (s : State) : (s.putCtx i x).putCtx i y = s.putCtx i y := by
  simp [State.putCtx, State.onTracker]

theorem State.putCtx_same (h : s.ctx i = t.ctx i) : s.putCtx i (t.ctx i) = s := by
  rw [← h]
  simp [State.putCtx, State.onTracker, State.ctx]

theorem State.putCtx_of_ctx (hc : s.ctx i = some c) : s.putCtx i (some c) = s := by
  rw [← hc]
  exact State.putCtx_same rfl

/-- A reason handed for a context that has no verdict is recorded, and nothing else happens (R73). -/
theorem State.handSlot_of_undecided (hc : s.ctx i = some c) (none : c.verdict = none) (r : Reason) :
    s.handSlot i r = s.putCtx i (some (c.handed r)) := by
  rw [State.handSlot_of_ctx hc, State.handReason, State.named_of_ctx hc]
  by_cases old : r ∈ c.reasons
  · rw [Context.handed_of_mem old, State.putCtx_of_ctx hc]
    exact if_pos (List.contains_iff_mem.mpr old)
  · rw [Context.handed_of_undecided old none]
    simp only [List.contains_iff_mem, old, if_false]
    split
    next => exact State.modCtx_of_ctx hc _
    next v some => rw [none] at some; cases some

/-! ### Contexts for which a reason makes no block act -/

/-- A reason handed for the context is only recorded or reported: it has no verdict, or stands in ADMITTED. -/
def Context.Quiet (c : Context) : Prop := c.verdict = none ∨ c.phase = .admitted

theorem Context.Quiet.handed (h : c.Quiet) (r : Reason) : (c.handed r).Quiet := by
  rcases h with none | admitted
  · refine .inl ?_
    unfold Context.handed
    split
    · exact none
    · split
      · exact none
      next v some => rw [none] at some; cases some
  · exact .inr ((c.phase_handed r).trans admitted)

theorem State.ctx_handSlot_of_quiet (quiet : ∀ c, s.ctx i = some c → c.Quiet) (r : Reason) (j : Slot) :
    (s.handSlot i r).ctx j = if i = j then (s.ctx j).map (Context.handed r) else s.ctx j := by
  cases hc : s.ctx i with
  | none =>
    rw [State.handSlot_of_free hc]
    split
    next e => rw [← e, hc]; rfl
    next => rfl
  | some c =>
    have put : ∀ {u : State}, u.ctx = (s.putCtx i (some (c.handed r))).ctx → u.ctx j =
        if i = j then (s.ctx j).map (Context.handed r) else s.ctx j := fun {u} h => by
      rw [h, State.ctx_putCtx]
      split
      next e => rw [← e, hc]; rfl
      next => rfl
    rcases quiet c hc with none | admitted
    · exact put (by rw [State.handSlot_of_undecided hc none])
    · cases verdict : c.verdict with
      | none => exact put (by rw [State.handSlot_of_undecided hc verdict])
      | some v =>
        refine put (funext fun k => ?_)
        rw [State.handSlot_of_ctx hc, State.handReason, State.named_of_ctx hc]
        by_cases old : r ∈ c.reasons
        · rw [Context.handed_of_mem old, State.putCtx_of_ctx hc]
          exact congrFun (congrArg State.ctx (if_pos (List.contains_iff_mem.mpr old))) k
        · have handed : c.handed r = c.raised v r := by
            simp [Context.handed, old, verdict, admitted, Context.raised]
          simp only [List.contains_iff_mem, old, if_false, verdict, State.addLater, admitted, State.tellRaise, handed]
          simp [Context.raised, admitted]

theorem State.ctx_handAll_of_quiet {is : List Slot} (quiet : ∀ j ∈ is, ∀ c, s.ctx j = some c → c.Quiet) (r : Reason)
    (j : Slot) : (s.handAll is r).ctx j = if j ∈ is then (s.ctx j).map (Context.handed r) else s.ctx j := by
  induction is generalizing s with
  | nil => rfl
  | cons i is ih =>
    have first := State.ctx_handSlot_of_quiet (quiet i (by simp)) r
    have rest : ∀ k ∈ is, ∀ c, (s.handSlot i r).ctx k = some c → c.Quiet := fun k hk c hc => by
      rw [first] at hc
      split at hc
      · obtain ⟨d, hd, rfl⟩ := Option.map_eq_some_iff.mp hc
        exact (quiet k (by simp [hk]) d hd).handed r
      · exact quiet k (by simp [hk]) c hc
    show (State.handAll is r (s.handSlot i r)).ctx j = _
    rw [ih rest, first]
    by_cases e : i = j
    · subst e
      have twice : Context.handed r ∘ Context.handed r = Context.handed r := funext fun c => c.handed_handed r
      simp [Option.map_map, twice]
    · simp [e, Ne.symm e]

/-! ### The contexts of a lane -/

theorem State.mem_laneContexts : (i, c) ∈ s.laneContexts l ↔ i ∈ s.queue l ∧ s.ctx i = some c := by
  simp only [State.laneContexts, List.mem_filterMap, Option.map_eq_some_iff, Prod.mk.injEq]
  constructor
  · rintro ⟨j, hj, d, hd, rfl, rfl⟩
    exact ⟨hj, hd⟩
  · rintro ⟨hi, hc⟩
    exact ⟨i, hi, c, hc, rfl, rfl⟩

theorem State.laneContexts_congr (h : t.tracker = s.tracker) (l : Lane) : t.laneContexts l = s.laneContexts l := by
  simp [State.laneContexts, State.queue, State.ctx, h]

theorem State.scanning_congr (h : t.tracker = s.tracker) (l : Lane) : t.scanning l = s.scanning l := by
  rw [State.scanning, State.laneContexts_congr h, State.scanning]

theorem State.namedInLane_congr (h : t.tracker = s.tracker) (l : Lane) (x : Option Text) :
    t.namedInLane l x = s.namedInLane l x := by
  unfold State.namedInLane
  rw [State.laneContexts_congr h]

theorem State.aheadWhere_congr (h : t.tracker = s.tracker) (l : Lane) (i : Slot) (p : Context → Bool) :
    t.aheadWhere l i p = s.aheadWhere l i p := by
  rw [State.aheadWhere, State.laneContexts_congr h, State.aheadWhere]

/-- A context picked of a lane is an open one of its queue. -/
theorem State.ctx_of_find? {p : Slot × Context → Bool} (h : (s.laneContexts l).find? p = some (i, c)) :
    s.ctx i = some c := (State.mem_laneContexts.mp (List.mem_of_find?_eq_some h)).2

theorem State.ctx_of_scanning (h : s.scanning l = some i) : ∃ c, s.ctx i = some c ∧ c.phase = .scanning := by
  obtain ⟨⟨j, c⟩, found, rfl⟩ := Option.map_eq_some_iff.mp h
  exact ⟨c, State.ctx_of_find? found, by simpa using List.find?_some found⟩

theorem State.ctx_of_namedInLane {x : Option Text} (h : s.namedInLane l x = some (i, c)) : s.ctx i = some c := by
  unfold State.namedInLane at h
  split at h
  · exact State.ctx_of_find? h
  · cases h

theorem State.mem_aheadWhere {p : Context → Bool} (h : j ∈ s.aheadWhere l i p) :
    j ≠ i ∧ ∃ c, s.ctx j = some c ∧ p c = true := by
  obtain ⟨⟨k, c⟩, hk, rfl⟩ := List.mem_map.mp h
  obtain ⟨ahead, hp⟩ := List.mem_filter.mp hk
  exact ⟨by simpa using List.mem_takeWhile_imp ahead,
    c, (State.mem_laneContexts.mp ((List.takeWhile_sublist _).subset ahead)).2, hp⟩

/-! ### The scale (R95) -/

/-- What clearing a lane's scale does (R95). -/
theorem State.clearScale_spec (l : Lane) (src : Byte) (s : State) :
    (s.clearScale l src).scale l = ⟨.normal, 0⟩ ∧ (∀ m, m ≠ l → (s.clearScale l src).scale m = s.scale m)
      ∧ (s.clearScale l src).recon.clock = s.recon.clock
      ∧ ((s.scale l).state = .normal → State.Only [.recon] s (s.clearScale l src))
      ∧ ((s.scale l).state = .suspect → ∃ v, State.Only [.recon] s v
          ∧ s.clearScale l src = v.report (.lane (.scaleNormal l src))) := by
  obtain ⟨v, put⟩ : ∃ v, s.putScale l ⟨.normal, 0⟩ = v := ⟨_, rfl⟩
  have v_only : State.Only [.recon] s v := put ▸ State.onRecon_only _ _
  have v_self : v.scale l = ⟨.normal, 0⟩ := put ▸ State.scale_putScale_self l _ s
  have v_other : ∀ m, m ≠ l → v.scale m = s.scale m := fun m ne => by
    rw [← put, State.scale_putScale, if_neg ne.symm]
  have v_clock : v.recon.clock = s.recon.clock := put ▸ rfl
  unfold State.clearScale
  dsimp only
  rw [put]
  cases state : (s.scale l).state with
  | normal => exact ⟨v_self, v_other, v_clock, fun _ => v_only, fun h => by cases h⟩
  | suspect =>
    refine ⟨?_, fun m ne => ?_, ?_, fun h => by (cases h), fun _ => ⟨v, v_only, rfl⟩⟩
    · exact (State.scale_report _ _ _).trans v_self
    · exact (State.scale_report _ _ _).trans (v_other m ne)
    · simpa using v_clock

end

end Sys2Proof.Machine

namespace Sys2Proof.Proofs

open Sys2Proof Sys2Proof.Machine

/-- Settles O31: both commands clear the scale of the lane. -/
theorem scaleIsCleared : Obligations.ScaleIsCleared := by
  unfold Obligations.ScaleIsCleared
  refine fun s src l => ⟨fun dst fits => ?_, fun tag n takes => ⟨fun hn => ?_, fun out => ?_⟩⟩
  · obtain ⟨self, other, clock, normal, suspect⟩ :=
      State.clearScale_spec l src (s.passed ⟨dst, src, kScaleChecked, []⟩)
    have recon : (s.passed ⟨dst, src, kScaleChecked, []⟩).recon = s.recon := State.passed_recon _ _
    simp only [State.scale, recon] at self other clock normal suspect
    exact ⟨_, exec_scaleChecked fits, self, other, clock, normal, suspect⟩
  · obtain ⟨self, other, -, normal, suspect⟩ := State.clearScale_spec l src (s.taken src)
    have lane : laneOf n = some l := hn ▸ instIndex_eq_some l
    have served : (s.taken src).serve (.scaleClear src tag n) =
        ⟨(s.taken src).clearScale l src, .ok, .scale (s.scale l).state (s.scale l).streak⟩ := by
      show (s.taken src).scaleClear n src = _
      rw [State.scaleClear, lane]
      rfl
    exact ⟨_, exec_of_serve takes rfl (fun _ => rfl) served, self, other, normal, suspect⟩
  · have lane : laneOf n = none := instIndex_eq_none out
    exact exec_of_serve takes rfl (fun _ => rfl) (by simp [State.serve, State.scaleClear, lane, State.refuse])

end Sys2Proof.Proofs
end

