-- ==== Sys2Proof/Proofs/Slice0/Tunnel.lean ====
section
/-! The telegrams of a lane's tunnel: TUNNEL_START, CASE_READ and TUNNEL_END (R47 to R49, R56). -/

namespace Sys2Proof.Machine

open Sys2Proof

section
variable {s t : State} {i j : Slot} {l : Lane} {c d : Context} {r : Reason} {x : Option Text} {src : Byte}

theorem Context.handed_undecided (undecided : c.verdict = none) (r : Reason) :
    c.handed r = { c with reasons := if r ∈ c.reasons then c.reasons else insertReason r c.reasons } := by
  by_cases old : r ∈ c.reasons
  · simp [Context.handed_of_mem old, old]
  · simp [Context.handed_of_undecided old undecided, old]

/-- A reason handed on a condition for a context with no verdict that has it not. -/
theorem State.handSlot_if_of_undecided (hc : s.ctx i = some c) (undecided : c.verdict = none) (out : r ∉ c.reasons)
    (b : Bool) : (if b then s.handSlot i r else s) =
      s.putCtx i (some { c with reasons := if b then insertReason r c.reasons else c.reasons }) := by
  cases b with
  | true => exact (State.handSlot_of_undecided hc undecided r).trans (by rw [Context.handed_of_undecided out undecided]; rfl)
  | false => exact (State.putCtx_of_ctx hc).symm

/-! ### Scans -/

theorem State.caseRead_of_scanning (scan : s.scanning l = some i) (hc : s.ctx i = some c) (undecided : c.verdict = none)
    (r : CaseRead) (src : Byte) : s.caseRead l r src = s.putCtx i (some { c with
      timer := some s.params.scanSilence
      tally := (c.tally.read r).1
      reasons := match (c.tally.read r).2 with
        | none => c.reasons
        | some q => if q ∈ c.reasons then c.reasons else insertReason q c.reasons }) := by
  unfold State.caseRead
  simp only [scan, hc, Option.map_some, Option.getD_some]
  cases found : (c.tally.read r).2 with
  | none => exact State.modCtx_of_ctx hc _
  | some q =>
    obtain ⟨d, hd⟩ : ∃ d, { c with timer := some s.params.scanSilence, tally := (c.tally.read r).1 } = d := ⟨_, rfl⟩
    have d_undecided : d.verdict = none := hd ▸ undecided
    dsimp only
    rw [State.modCtx_of_ctx hc, hd, State.handSlot_of_undecided (State.ctx_putCtx_self i _ s) d_undecided,
      State.putCtx_putCtx, Context.handed_undecided d_undecided, ← hd]

theorem State.endScan_of_ctx (hc : s.ctx i = some c) : s.endScan i =
    if c.lacksWeight = true ∨ c.lacksHeight = true then
      s.putCtx i (some { c with tunnelEnded := true, phase := .measuring, timer := some s.params.measureLimit })
    else State.attempt i (s.putCtx i (some { c with tunnelEnded := true, timer := none })) := by
  unfold State.endScan
  simp only [State.modCtx_of_ctx hc, State.ctx_putCtx_self, Option.any_some, Bool.or_eq_true]
  rw [State.enter_of_ctx (State.ctx_putCtx_self _ _ _), State.putCtx_putCtx]
  rfl

theorem State.startScan_of_ctx (hc : s.ctx i = some c) : s.startScan i = s.putCtx i (some { c with
    tunnelStarted := true, phase := .scanning, timer := some s.params.scanSilence }) := State.modCtx_of_ctx hc _

/-! ### Where a TUNNEL_START is attached (R48) -/

theorem State.tunnelStart_of_idle (idle : s.scanning l = none) (x : Option Text) (src : Byte) :
    s.tunnelStart l x src = s.attachStart l x src := by
  unfold State.tunnelStart
  rw [idle]

theorem State.attachStart_of_admitted (named : s.namedInLane l x = some (i, c)) (admitted : c.phase = .admitted) :
    s.attachStart l x src =
      ((s.handAll (s.aheadWhere l i fun d => d.phase == .admitted) .trackSlip).startScan i) := by
  unfold State.attachStart
  simp only [named, admitted, beq_self_eq_true, if_true]

theorem State.attachStart_of_started (named : s.namedInLane l x = some (i, c)) (started : c.phase ≠ .admitted) :
    s.attachStart l x src = s.stray kTunnelStart src (some l) x .alreadyStarted := by
  unfold State.attachStart
  simp only [named, beq_eq_false_iff_ne.mpr started, Bool.false_eq_true, if_false]

theorem State.attachStart_of_unnamed (unnamed : s.namedInLane l x = none)
    (first : (s.laneContexts l).find? (fun q => q.2.phase == .admitted) = some (i, c)) :
    s.attachStart l x src = (if x.isSome then s.handSlot i .trackMismatch else s).startScan i := by
  unfold State.attachStart
  simp only [unnamed, first]

theorem State.attachStart_of_nobody (unnamed : s.namedInLane l x = none)
    (nobody : (s.laneContexts l).find? (fun q => q.2.phase == .admitted) = none) :
    s.attachStart l x src = s.stray kTunnelStart src (some l) x .noCandidate := by
  unfold State.attachStart
  simp only [unnamed, nobody]

end

end Sys2Proof.Machine

namespace Sys2Proof.Proofs

open Sys2Proof Sys2Proof.Machine

/-- Settles O29: the SCANNING context of the lane, or none. -/
theorem caseReadAndTunnelEnd : Obligations.CaseReadAndTunnelEnd := by
  unfold Obligations.CaseReadAndTunnelEnd
  refine fun s dst src l fits => ⟨fun p r short read => ⟨fun idle => ?_, fun i c scan hc undecided => ?_⟩, fun idle => ?_,
    fun i c scan hc => ⟨fun lacks => ?_, fun weight height => ?_⟩⟩
  · have idle' : (s.passed ⟨dst, src, kCaseRead, p⟩).scanning l = none :=
      (State.scanning_congr (State.passed_tracker _ _) l).trans idle
    rw [exec_caseRead fits short read, State.caseRead, idle']
    rfl
  · have scan' : (s.passed ⟨dst, src, kCaseRead, p⟩).scanning l = some i :=
      (State.scanning_congr (State.passed_tracker _ _) l).trans scan
    rw [exec_caseRead fits short read, State.caseRead_of_scanning scan' (by simpa using hc) undecided, State.passed_params]
    rfl
  · have idle' : (s.passed ⟨dst, src, kTunnelEnd, []⟩).scanning l = none :=
      (State.scanning_congr (State.passed_tracker _ _) l).trans idle
    rw [exec_tunnelEnd fits, State.tunnelEnd, idle']
    rfl
  all_goals
    have scan' : (s.passed ⟨dst, src, kTunnelEnd, []⟩).scanning l = some i :=
      (State.scanning_congr (State.passed_tracker _ _) l).trans scan
    have ended : (s.passed ⟨dst, src, kTunnelEnd, []⟩).tunnelEnd l src =
        (s.passed ⟨dst, src, kTunnelEnd, []⟩).endScan i := by
      rw [State.tunnelEnd, scan']
    rw [exec_tunnelEnd fits, ended, State.endScan_of_ctx (by simpa using hc), State.passed_params]
  · rw [if_pos lacks]
    rfl
  · rw [if_neg (by simp [weight, height])]
    rfl

/-- Settles O28: the context the licence names, or the first ADMITTED one of the lane. -/
theorem tunnelStartAttaches : Obligations.TunnelStartAttaches := by
  unfold Obligations.TunnelStartAttaches
  refine fun s dst src p l x fits short read => ⟨fun j scan => ?_, fun idle => ⟨fun i c unnamed first undecided out => ?_,
    fun i c named admitted => ?_, fun i c named started => ?_, fun unnamed nobody => ?_⟩⟩
  · have scan' : (s.passed ⟨dst, src, kTunnelStart, p⟩).scanning l = some j :=
      (State.scanning_congr (State.passed_tracker _ _) l).trans scan
    rw [exec_tunnelStart fits short read, State.tunnelStart, scan']
    rfl
  all_goals
    obtain ⟨u, passed⟩ : ∃ u, s.passed ⟨dst, src, kTunnelStart, p⟩ = u := ⟨_, rfl⟩
    have tracker : u.tracker = s.tracker := passed ▸ State.passed_tracker _ _
    have params : u.params = s.ctl.params := passed ▸ State.passed_params _ _
    have idle' : u.scanning l = none := (State.scanning_congr tracker l).trans idle
    have taken := exec_tunnelStart (dst := dst) fits short read
    rw [passed, State.tunnelStart_of_idle idle'] at taken
    have at_u : ∀ j, u.ctx j = s.ctx j := fun j => by rw [State.ctx, tracker]; rfl
  · have first' : (u.laneContexts l).find? (fun q => q.2.phase == .admitted) = some (i, c) :=
      State.laneContexts_congr tracker l ▸ first
    have hc : u.ctx i = some c := State.ctx_of_find? first'
    rw [State.attachStart_of_unnamed ((State.namedInLane_congr tracker l _).trans unnamed) first'] at taken
    refine ⟨_, taken, ?_⟩
    rw [State.handSlot_if_of_undecided hc undecided out, State.startScan_of_ctx (State.ctx_putCtx_self i _ u),
      State.putCtx_putCtx]
    refine ⟨?_, fun j other => ?_, passed ▸ State.putCtx_only _ _ _⟩
    · rw [State.ctx_putCtx_self, ← params]
      rfl
    · rw [State.ctx_putCtx_of_ne (by simpa [eq_comm] using other), at_u]
  · have named' := (State.namedInLane_congr tracker l (presentLicence x)).trans named
    rw [State.attachStart_of_admitted named' admitted, State.aheadWhere_congr tracker] at taken
    refine ⟨_, taken, ?_⟩
    obtain ⟨is, ahead⟩ : ∃ is, s.aheadWhere l i (fun d => d.phase == .admitted) = is := ⟨_, rfl⟩
    rw [ahead]
    have quiet : ∀ j ∈ is, ∀ c, u.ctx j = some c → c.Quiet := fun j hj c hc => by
      rw [← ahead] at hj
      obtain ⟨-, d, hd, admitted⟩ := State.mem_aheadWhere hj
      rw [at_u, hd] at hc
      cases hc
      exact .inr (by simpa using admitted)
    have off : i ∉ is := fun hi => by
      rw [← ahead] at hi
      exact (State.mem_aheadWhere hi).1 rfl
    obtain ⟨v, slipped⟩ : ∃ v, State.handAll is .trackSlip u = v := ⟨_, rfl⟩
    have at_v : ∀ j, v.ctx j = if j ∈ is then (s.ctx j).map (Context.handed .trackSlip) else s.ctx j := fun j => by
      rw [← slipped, State.ctx_handAll_of_quiet quiet, at_u]
    have v_params : v.params = s.ctl.params := by
      rw [← params, ← slipped, State.params, (State.handAll_only is .trackSlip u).ctl.resolve_left (by decide)]
      rfl
    have hc : v.ctx i = some c := by rw [at_v, if_neg off, State.ctx_of_namedInLane named]
    rw [slipped, State.startScan_of_ctx hc, v_params]
    refine ⟨State.ctx_putCtx_self _ _ _, fun j hj d hd => ?_, fun j other => ?_⟩
    · have ne : i ≠ j := fun e => off (e ▸ hj)
      refine ⟨d.handed .trackSlip, ?_, Context.mem_handed _ _, Context.phase_handed _ _⟩
      rw [State.ctx_putCtx_of_ne ne, at_v, if_pos hj, hd]
      rfl
    · obtain ⟨ne, out⟩ : j ≠ i ∧ j ∉ is := by simpa using other
      rw [State.ctx_putCtx_of_ne ne.symm, at_v, if_neg out]
  · rw [taken, State.attachStart_of_started ((State.namedInLane_congr tracker l _).trans named) started, ← passed]
    rfl
  · rw [taken, State.attachStart_of_nobody ((State.namedInLane_congr tracker l _).trans unnamed)
      (State.laneContexts_congr tracker l ▸ nobody), ← passed]
    rfl

end Sys2Proof.Proofs
end

