-- ==== Sys2Proof/Proofs/Slice0/Measurements.lean ====
section
/-! MEASURE: where a measurement is attached, and what it does there (R50). -/

namespace Sys2Proof.Machine

open Sys2Proof

section
variable {s t : State} {i j : Slot} {l : Lane} {c d : Context} {k : Measurand} {v w h : Nat} {w' h' : Option Nat} {x : Option Text} {src : Byte}

/-! ### The contexts of a lane with one of them replaced -/

/-- A slot and its context, with the context of slot i replaced. -/
def replaced (i : Slot) (d : Context) (q : Slot × Context) : Slot × Context := if q.1 = i then (i, d) else q

theorem replaced_self (i : Slot) (c d : Context) : replaced i d (i, c) = (i, d) := if_pos rfl

theorem replaced_of_ne (ne : j ≠ i) (c d : Context) : replaced i d (j, c) = (j, c) := if_neg ne

theorem fst_replaced (i : Slot) (d : Context) (q : Slot × Context) : (replaced i d q).1 = q.1 := by
  unfold replaced
  split
  next e => exact e.symm
  next => rfl

theorem State.laneContexts_putCtx (hc : s.ctx i = some c) (d : Context) (l : Lane) :
    (s.putCtx i (some d)).laneContexts l = (s.laneContexts l).map (replaced i d) := by
  unfold State.laneContexts
  rw [List.map_filterMap]
  refine List.filterMap_congr fun j _ => ?_
  rw [State.ctx_putCtx]
  by_cases e : i = j
  · subst e
    simp [hc, replaced_self]
  · rw [if_neg e]
    cases s.ctx j with
    | none => rfl
    | some c => simp [replaced_of_ne (Ne.symm e)]

/-- A choice among a lane's contexts, where one has been replaced by one on which the test comes out the same. -/
theorem State.find?_putCtx {p : Context → Bool} (hc : s.ctx i = some c) (same : p d = p c) (l : Lane) :
    ((s.putCtx i (some d)).laneContexts l).find? (fun q => p q.2) =
      ((s.laneContexts l).find? fun q => p q.2).map (replaced i d) := by
  rw [State.laneContexts_putCtx hc, List.find?_map]
  congr 1
  refine List.find?_congr fun q hq => ?_
  obtain ⟨j, e⟩ := q
  by_cases ij : j = i
  · subst ij
    have : e = c := Option.some.inj ((State.mem_laneContexts.mp hq).2.symm.trans hc)
    simp [replaced_self, this, same]
  · simp [replaced_of_ne ij]

theorem State.namedInLane_putCtx (hc : s.ctx i = some c) (same : d.licence = c.licence) (l : Lane) (x : Option Text) :
    (s.putCtx i (some d)).namedInLane l x = (s.namedInLane l x).map (replaced i d) := by
  cases x with
  | none => rfl
  | some t => exact State.find?_putCtx (p := fun c => c.licence == some t) hc (by simp [same]) l

theorem State.aheadWhere_putCtx (hc : s.ctx i = some c) (d : Context) (l : Lane) (p : Context → Bool) :
    (s.putCtx i (some d)).aheadWhere l i p = s.aheadWhere l i p := by
  have ahead : ∀ qs : List (Slot × Context), (qs.map (replaced i d)).takeWhile (fun x => x.1 ≠ i) =
      qs.takeWhile fun x => x.1 ≠ i := fun qs => by
    induction qs with
    | nil => rfl
    | cons q qs ih =>
      obtain ⟨j, e⟩ := q
      by_cases ij : j = i
      · simp [ij, replaced_self]
      · simpa [ij, replaced_of_ne ij] using ih
  rw [State.aheadWhere, State.laneContexts_putCtx hc, ahead, State.aheadWhere]

/-! ### Lacking and present (R50) -/

theorem Measurand.lacking_of_present (has : k.present c = true) : k.lacking c = false := by
  cases k with
  | weight => simp [Measurand.lacking, Context.lacksWeight, Option.isSome_iff_ne_none.mp has]
  | height => simp [Measurand.lacking, Context.lacksHeight, Option.isSome_iff_ne_none.mp has]

theorem Measurand.not_present_of_lacking (lacks : k.lacking c = true) : k.present c = false :=
  Bool.eq_false_iff.mpr fun has => by rw [Measurand.lacking_of_present has] at lacks; cases lacks

/-! ### Attaching -/

theorem State.handAll_nil (r : Reason) (s : State) : s.handAll [] r = s := rfl

theorem State.attach_of_ctx (hc : s.ctx i = some c) (k : Measurand) (v : Nat) : State.attach k v i s =
    if c.phase = .measuring ∧ (k.store v c).lacksWeight = false ∧ (k.store v c).lacksHeight = false
      then State.attempt i (s.putCtx i (some (k.store v c))) else s.putCtx i (some (k.store v c)) := by
  have phase : (k.store v c).phase = c.phase := by cases k <;> rfl
  unfold State.attach
  simp [State.modCtx_of_ctx hc, phase, and_assoc]

/-- The weight of a context that lacks the height too brings no attempt. -/
theorem State.attach_weight (hc : s.ctx i = some c) (lacksHeight : c.lacksHeight = true ∨ c.phase ≠ .measuring) (w : Nat) :
    State.attach .weight w i s = s.putCtx i (some { c with weight := some w }) := by
  have still : ({ c with weight := some w } : Context).lacksHeight = c.lacksHeight := rfl
  rw [State.attach_of_ctx hc, if_neg]
  · rfl
  · rintro ⟨measuring, -, none⟩
    rcases lacksHeight with lacks | early
    · exact absurd (lacks.symm.trans (still.symm.trans none)) (by decide)
    · exact early measuring

/-- The height of a context brings an attempt where it lacks no weight. -/
theorem State.attach_height (hc : s.ctx i = some c) (h : Nat) : State.attach .height h i s =
    if c.phase = .measuring ∧ c.lacksWeight = false
      then State.attempt i (s.putCtx i (some { c with height := some h }))
      else s.putCtx i (some { c with height := some h }) := by
  have weight : (Measurand.height.store h c).lacksWeight = c.lacksWeight := rfl
  have height : (Measurand.height.store h c).lacksHeight = false := rfl
  rw [State.attach_of_ctx hc, weight, height]
  simp only [and_true]
  rfl

theorem State.takeMeasurement_out (out : k.most < v) : s.takeMeasurement l k v x = (s, some .outOfRange) := if_pos out

theorem State.takeMeasurement_named (fits : v ≤ k.most) (named : s.namedInLane l x = some (i, c)) :
    (k.present c = true → c.verdict = none → s.takeMeasurement l k v x = (s.putCtx i (some (k.store v c)), none))
    ∧ (k.present c = true → c.verdict.isSome = true → s.takeMeasurement l k v x = (s, some .alreadyDecided))
    ∧ (k.present c = false → k.lacking c = false → s.takeMeasurement l k v x = (s, some .late))
    ∧ (k.lacking c = true → c.tunnelStarted = false → s.takeMeasurement l k v x = (s, some .notStarted))
    ∧ (k.lacking c = true → c.tunnelStarted = true → s.takeMeasurement l k v x =
      (State.attach k v i (State.handAll (s.aheadWhere l i k.lacking) .trackSlip s), none)) := by
  have hc := State.ctx_of_namedInLane named
  unfold State.takeMeasurement
  rw [if_neg (Nat.not_lt.mpr fits), named]
  refine ⟨fun has undecided => ?_, fun has decided => ?_, fun hasNot lacksNot => ?_, fun lacks off => ?_, fun lacks on => ?_⟩
  · simp [Measurand.lacking_of_present has, has, undecided, State.modCtx_of_ctx hc]
  · obtain ⟨y, verdict⟩ := Option.isSome_iff_exists.mp decided
    simp [Measurand.lacking_of_present has, has, verdict]
  · simp [lacksNot, hasNot]
  · simp [lacks, off]
  · simp [lacks, on]

theorem State.takeMeasurement_of_candidate (fits : v ≤ k.most) (unnamed : s.namedInLane l x = none)
    (found : (s.laneContexts l).find? (fun q => q.2.tunnelStarted && k.lacking q.2) = some (i, c)) :
    s.takeMeasurement l k v x = (State.attach k v i (if x.isSome then s.handSlot i .trackMismatch else s), none) := by
  unfold State.takeMeasurement
  simp only [if_neg (Nat.not_lt.mpr fits), unnamed, found]

theorem State.takeMeasurement_of_nobody (fits : v ≤ k.most) (unnamed : s.namedInLane l x = none)
    (nobody : (s.laneContexts l).find? (fun q => q.2.tunnelStarted && k.lacking q.2) = none) :
    s.takeMeasurement l k v x = (s, some .noCandidate) := by
  unfold State.takeMeasurement
  simp only [if_neg (Nat.not_lt.mpr fits), unnamed, nobody]

/-- A measurement taken, with a STRAY report where it has a cause (R51). -/
def State.told (l : Lane) (x : Option Text) (src : Byte) (o : State × Option StrayCause) : State :=
  match o.2 with
  | some cause => o.1.stray kMeasure src (some l) x cause
  | none => o.1

theorem State.measure_one (one : (k = .weight ∧ w' = some v ∧ h' = none) ∨ (k = .height ∧ w' = none ∧ h' = some v))
    (l : Lane) (x : Option Text) (src : Byte) (s : State) :
    s.measure l w' h' x src = State.told l x src (s.takeMeasurement l k v x) := by
  rcases one with ⟨rfl, rfl, rfl⟩ | ⟨rfl, rfl, rfl⟩
  · simp [State.measure, State.takeOptional, State.told] <;> rfl
  · simp [State.measure, State.takeOptional, State.told] <;> rfl

theorem State.measure_both (w h : Nat) (l : Lane) (x : Option Text) (src : Byte) (s : State) :
    s.measure l (some w) (some h) x src = State.told l x src
      (((s.takeMeasurement l .weight w x).1.takeMeasurement l .height h x).1,
        (s.takeMeasurement l .weight w x).2.or ((s.takeMeasurement l .weight w x).1.takeMeasurement l .height h x).2) := by
  simp [State.measure, State.takeOptional, State.told] <;> rfl

end

end Sys2Proof.Machine

namespace Sys2Proof.Proofs

open Sys2Proof Sys2Proof.Machine

/-- Settles O30: each measurement by the context it belongs to; the second sees what the first left. -/
theorem measureAttaches : Obligations.MeasureAttaches := by
  unfold Obligations.MeasureAttaches
  refine ⟨fun k v l lic t => ⟨State.takeMeasurement_out, fun fits => ⟨fun i c => State.takeMeasurement_named fits,
    fun unnamed => ⟨fun i c found => ?_, fun nobody => ?_⟩⟩, fun i c u hc hu => ?_⟩,
    fun s dst src p l w h lic t fits short read ht a b ha hb => ?_, fun s dst src p l x k v t fits short read ht => ?_⟩
  · exact State.takeMeasurement_of_candidate fits unnamed found
  · exact State.takeMeasurement_of_nobody fits unnamed nobody
  · rw [hu]
    exact State.attach_of_ctx hc k v
  · have taken := exec_measure (dst := dst) fits short read
    rw [← show t = s.passed ⟨dst, src, kMeasure, p⟩ from ht, State.measure_both, ← ha, ← hb] at taken
    refine ⟨fun none none' => ?_, fun y cause => ?_, fun out fits' => ?_, fun fits' out none => ?_⟩
    · rw [taken, State.told]
      simp [none, none']
    · have or : a.2.or b.2 = some y := by
        rcases cause with cause | ⟨none, cause⟩
        · rw [cause]; rfl
        · rw [none, cause]; rfl
      rw [taken, State.told]
      simp [or, kMeasure]
    · rw [State.takeMeasurement_out out] at ha
      rw [taken, State.told, hb, ha]
      rfl
    · have hb : b = (a.1, some .outOfRange) := hb.trans (State.takeMeasurement_out out)
      rw [taken, State.told, hb, none]
      rfl
  · have taken := exec_measure (dst := dst) fits short read
    rw [← show t = s.passed ⟨dst, src, kMeasure, p⟩ from ht] at taken
    have tracker : t.tracker = s.tracker := ht ▸ State.passed_tracker _ _
    have at_t : ∀ j, t.ctx j = s.ctx j := fun j => by rw [State.ctx, tracker]; rfl
    simp only [← State.namedInLane_congr tracker, ← State.laneContexts_congr tracker, ← State.aheadWhere_congr tracker]
    refine ⟨fun noWeight noHeight => ?_, fun one => ?_, fun w h weight height => ?_⟩
    · rw [taken, noWeight, noHeight]
      rfl
    · rw [State.measure_one one] at taken
      refine ⟨fun out => ?_, fun fits => ⟨fun i c named => ?_, fun i c unnamed found undecided out d hd => ?_,
        fun unnamed nobody => ?_⟩⟩
      · rw [taken, State.takeMeasurement_out out]
        rfl
      · obtain ⟨again, decided, late, early, attached⟩ := State.takeMeasurement_named fits named
        refine ⟨fun has undecided => ?_, fun has done => ?_, fun hasNot lacksNot => ?_, fun lacks off => ?_,
          fun lacks on ahead => ?_⟩
        · rw [taken, again has undecided]
          rfl
        · rw [taken, decided has done]
          rfl
        · rw [taken, late hasNot lacksNot]
          rfl
        · rw [taken, early lacks off]
          rfl
        · obtain ⟨is, his⟩ : ∃ is, t.aheadWhere l i k.lacking = is := ⟨_, rfl⟩
          rw [attached lacks on] at taken
          rw [his] at taken ahead ⊢
          have quiet : ∀ j ∈ is, ∀ c, t.ctx j = some c → c.Quiet := fun j hj c hc => .inl (ahead j hj c (at_t j ▸ hc))
          have off : i ∉ is := fun hi => (State.mem_aheadWhere (his ▸ hi)).1 rfl
          obtain ⟨z, slipped⟩ : ∃ z, State.handAll is .trackSlip t = z := ⟨_, rfl⟩
          have at_z : ∀ j, z.ctx j = if j ∈ is then (s.ctx j).map (Context.handed .trackSlip) else s.ctx j := fun j => by
            rw [← slipped, State.ctx_handAll_of_quiet quiet, at_t]
          have hc : z.ctx i = some c := by rw [at_z, if_neg off, ← at_t, State.ctx_of_namedInLane named]
          rw [slipped, State.attach_of_ctx hc] at taken
          refine ⟨_, taken, State.ctx_putCtx_self _ _ _, fun j hj d hd => ?_, fun j other => ?_⟩
          · refine ⟨d.handed .trackSlip, ?_, Context.mem_handed _ _⟩
            rw [State.ctx_putCtx_of_ne (show i ≠ j from fun e => off (e ▸ hj)), at_z, if_pos hj, hd]
            rfl
          · obtain ⟨ne, out⟩ : j ≠ i ∧ j ∉ is := by simpa using other
            rw [State.ctx_putCtx_of_ne ne.symm, at_z, if_neg out]
      · have hc := State.ctx_of_find? found
        have stored : k.store v { c with
            reasons := if x.2.2.isSome then insertReason .trackMismatch c.reasons else c.reasons } = d := by
          rw [hd]
          cases k <;> rfl
        have phase : d.phase = c.phase := by rw [hd]; cases k <;> rfl
        rw [State.takeMeasurement_of_candidate fits unnamed found, State.handSlot_if_of_undecided hc undecided out, State.attach_of_ctx (State.ctx_putCtx_self i _ t), stored,
          State.putCtx_putCtx] at taken
        refine ⟨fun met => ?_, fun unmet => ?_⟩
        · rw [phase] at met
          rw [taken, if_pos met]
          rfl
        · rw [phase] at unmet
          rw [taken, if_neg unmet]
          rfl
      · rw [taken, State.takeMeasurement_of_nobody fits unnamed nobody]
        rfl
    · rw [weight, height, State.measure_both] at taken
      refine ⟨fun weightOut heightOut => ?_, fun weightFits heightFits => ⟨fun i c d hd named lacksWeight lacksHeight on
        aheadWeight aheadHeight => ?_, fun i c d unnamed foundWeight foundHeight undecided out hd => ?_,
        fun i c j d ne absent foundWeight foundHeight early => ?_⟩⟩
      · rw [taken, State.takeMeasurement_out weightOut, State.takeMeasurement_out heightOut]
        rfl
      · have hc := State.ctx_of_namedInLane named
        have first : t.takeMeasurement l .weight w x.2.2 = (t.putCtx i (some { c with weight := some w }), none) := by
          rw [(State.takeMeasurement_named weightFits named).2.2.2.2 lacksWeight on,
            show t.aheadWhere l i Measurand.weight.lacking = [] from aheadWeight,
            State.handAll_nil, State.attach_weight hc (.inl lacksHeight)]
        have named' : (t.putCtx i (some { c with weight := some w })).namedInLane l x.2.2 =
            some (i, { c with weight := some w }) := by
          rw [State.namedInLane_putCtx hc (by rfl), named, Option.map_some, replaced_self]
        rw [first] at taken
        dsimp only at taken
        rw [(State.takeMeasurement_named heightFits named').2.2.2.2 lacksHeight on, State.aheadWhere_putCtx hc,
          show t.aheadWhere l i Measurand.height.lacking = [] from aheadHeight,
          State.handAll_nil, State.attach_height (State.ctx_putCtx_self i _ t), State.putCtx_putCtx] at taken
        rw [taken, hd]
        simp [State.told, Context.lacksWeight]
      · have hc := State.ctx_of_find? foundWeight
        have lacksHeight : c.lacksHeight = true := by
          have picked := List.find?_some foundHeight
          exact (Bool.and_eq_true_iff.mp picked).2
        obtain ⟨rs, hrs⟩ : ∃ rs, (if x.2.2.isSome then insertReason .trackMismatch c.reasons else c.reasons) = rs :=
          ⟨_, rfl⟩
        have absence : Reason.noHeight ∈ rs ↔ Reason.noHeight ∈ c.reasons := by
          rw [← hrs]
          split
          · simp [mem_insertReason]
          · rfl
        have still : ∀ y : Option Nat, ({ c with reasons := rs, weight := y } : Context).lacksHeight = c.lacksHeight :=
          fun y => by simp [Context.lacksHeight, absence]
        have first : t.takeMeasurement l .weight w x.2.2 =
            (t.putCtx i (some { c with reasons := rs, weight := some w }), none) := by
          rw [State.takeMeasurement_of_candidate weightFits unnamed foundWeight, State.handSlot_if_of_undecided hc undecided out, hrs, State.attach_weight (State.ctx_putCtx_self i _ t)
            (.inl ((still c.weight).trans lacksHeight)), State.putCtx_putCtx]
        have hc' := State.ctx_putCtx_self i (some { c with reasons := rs, weight := some w }) t
        have unnamed' : (t.putCtx i (some { c with reasons := rs, weight := some w })).namedInLane l x.2.2 = none := by
          rw [State.namedInLane_putCtx hc (by rfl), unnamed]
          rfl
        have found' : ((t.putCtx i (some { c with reasons := rs, weight := some w })).laneContexts l).find?
            (fun q => q.2.tunnelStarted && Measurand.height.lacking q.2) =
              some (i, { c with reasons := rs, weight := some w }) := by
          rw [State.find?_putCtx (p := fun c => c.tunnelStarted && Measurand.height.lacking c)
            (d := { c with reasons := rs, weight := some w }) hc (congrArg (c.tunnelStarted && ·) (still (some w))), show (t.laneContexts l).find?
            (fun q => q.2.tunnelStarted && Measurand.height.lacking q.2) = some (i, c) from foundHeight, Option.map_some,
            replaced_self]
        have again : (if x.2.2.isSome then
            (t.putCtx i (some { c with reasons := rs, weight := some w })).handSlot i .trackMismatch
            else t.putCtx i (some { c with reasons := rs, weight := some w })) =
              t.putCtx i (some { c with reasons := rs, weight := some w }) := by
          split
          next licence =>
            have old : Reason.trackMismatch ∈ ({ c with reasons := rs, weight := some w } : Context).reasons := by
              show Reason.trackMismatch ∈ rs
              rw [← hrs, if_pos licence]
              exact mem_insertReason.mpr (.inl rfl)
            rw [State.handSlot_of_undecided hc' undecided, Context.handed_of_mem old, State.putCtx_putCtx]
          next => rfl
        rw [first] at taken
        dsimp only at taken
        rw [State.takeMeasurement_of_candidate heightFits unnamed' found', again, State.attach_height hc', State.putCtx_putCtx] at taken
        rw [taken, hd, hrs]
        simp [State.told, Context.lacksWeight]
      · have hc := State.ctx_of_find? foundWeight
        have first : t.takeMeasurement l .weight w x.2.2 = (t.putCtx i (some { c with weight := some w }), none) := by
          rw [absent, State.takeMeasurement_of_candidate weightFits rfl foundWeight, Option.isSome_none, if_neg (by decide), State.attach_weight hc (.inr early)]
        have found' : ((t.putCtx i (some { c with weight := some w })).laneContexts l).find?
            (fun q => q.2.tunnelStarted && Measurand.height.lacking q.2) = some (j, d) := by
          rw [State.find?_putCtx (p := fun c => c.tunnelStarted && Measurand.height.lacking c) hc (by rfl),
            show (t.laneContexts l).find? (fun q => q.2.tunnelStarted && Measurand.height.lacking q.2) = some (j, d)
              from foundHeight, Option.map_some, replaced_of_ne ne.symm]
        have hd : (t.putCtx i (some { c with weight := some w })).ctx j = some d := State.ctx_of_find? found'
        rw [first] at taken
        dsimp only at taken
        rw [absent, State.takeMeasurement_of_candidate heightFits rfl found', Option.isSome_none, if_neg (by decide), State.attach_height hd] at taken
        exact ⟨_, taken, rfl⟩

end Sys2Proof.Proofs
end

