-- ==== Sys2Proof/Proofs/Slice0/Admissions.lean ====
section
/-! TAG_READ: the admission of a context to a lane and the settling of its identity (R39 to R43). -/

namespace Sys2Proof.Machine

open Sys2Proof

section
variable {s t : State} {i j : Slot} {l : Lane} {c d : Context} {r : Reason} {x : Option Text}

/-! ### Infeed commands leave every context (R44) -/

theorem State.take_infeed_slots (l : Lane) (s : State) : (s.take (.infeed l)).2.tracker.slots = s.tracker.slots := by
  simp only [State.take]
  split
  · split
    · rfl
    · rfl
  · rfl

theorem State.giveOne_infeed_slots (l : Lane) (s : State) : (s.giveOne (.infeed l)).tracker.slots = s.tracker.slots := by
  have taken := State.take_infeed_slots l s
  unfold State.giveOne
  split
  next e => rw [e] at taken; exact taken
  next e => rw [e] at taken; exact taken

theorem State.giveMany_infeed_slots (n : Nat) (l : Lane) (s : State) :
    (State.giveMany n (.infeed l) s).tracker.slots = s.tracker.slots := by
  induction n generalizing s with
  | zero => rfl
  | succ n ih =>
    unfold State.giveMany
    split
    · exact (ih _).trans (State.giveOne_infeed_slots l s)
    · rfl

theorem State.offer_infeed_slots (l : Lane) (s : State) : (s.offer (.infeed l)).tracker.slots = s.tracker.slots := by
  obtain ⟨n, eq | eq⟩ := State.offer_cases (.infeed l) s
  · rw [eq, State.giveMany_infeed_slots]
  · rw [eq]
    exact State.giveMany_infeed_slots n l s

theorem State.infeedDecision_slots (l : Lane) (s : State) : (s.infeedDecision l).tracker.slots = s.tracker.slots := by
  unfold State.infeedDecision State.sendInfeed
  dsimp only
  split
  · split
    · exact (congrArg Tracker.slots ((State.prune_only _ _).tracker.resolve_left (by decide))).trans rfl
    · exact State.offer_infeed_slots _ _
  · rfl

/-! ### What a reason handed leaves of the arbiter's call (R103) -/

theorem State.due_tellRaise (due : s.alloc.arbiterDue = true) (id : CtxId) (p : Phase) :
    (s.tellRaise id p).alloc.arbiterDue = true := by
  have asked : ∀ u : State, u.alloc.arbiterDue = true → (u.requestLabel id .rejectTicket).alloc.arbiterDue = true :=
    fun u h => by rw [(State.requestLabel_only _ _ u).alloc.resolve_left (by decide), h]
  have lined : ∀ u : State, u.alloc.arbiterDue = true → (u.raiseInLine id.slot).alloc.arbiterDue = true :=
    fun u h => by rw [(State.raiseInLine_only _ u).alloc.resolve_left (by decide), h]
  unfold State.tellRaise
  split
  · exact asked _ due
  · exact asked _ due
  · exact asked _ due
  · exact lined _ (asked _ due)
  · exact lined _ (asked _ due)
  · exact due

theorem State.due_addLater {id : CtxId} {v : Verdict}
    (due : s.alloc.arbiterDue = true ∨ (v.max r.severity ≠ v ∧ c.phase = .atHeadDecided)) :
    (s.addLater id c v r).alloc.arbiterDue = true := by
  obtain ⟨w, w_due, eq⟩ : ∃ w : State, w.alloc.arbiterDue = true ∧ s.addLater id c v r =
      if v = .pass ∧ v.max r.severity ≠ .pass then w.tellRaise id c.phase else w := by
    refine ⟨_, ?_, rfl⟩
    split
    · rfl
    next still => simpa using due.resolve_right still
  rw [eq]
  split
  · exact State.due_tellRaise w_due _ _
  · exact w_due

theorem State.due_handSlot (due : s.alloc.arbiterDue = true) (i : Slot) (r : Reason) :
    (s.handSlot i r).alloc.arbiterDue = true := by
  unfold State.handSlot State.handReason
  split
  · split
    · exact due
    · split
      · exact due
      · split
        · exact due
        · exact State.due_addLater (.inl due)
  · exact due

theorem State.due_handAll (due : s.alloc.arbiterDue = true) (is : List Slot) (r : Reason) :
    (s.handAll is r).alloc.arbiterDue = true := by
  induction is generalizing s with
  | nil => exact due
  | cons i is ih => exact ih (State.due_handSlot due i r)

/-! ### A context joins its lane (R39, R40) -/

/-- The state with a context admitted to a lane, before its identity is settled. -/
def State.joined (l : Lane) (x : Option Text) (i : Slot) (s : State) : State :=
  ((((s.putCtx i (some (Context.atAdmission s.tracker.nextAdm x l))).onTracker fun t =>
    { t with nextAdm := admissionAfter s.tracker.nextAdm }).modLane l fun r => { r with queue := r.queue ++ [i] }
    ).infeedDecision l).joinedAsHead (s.queue l).isEmpty

theorem State.admitPallet_of_free (free : s.freeSlot = some i) (l : Lane) (x : Option Text) (draining : Bool) :
    s.admitPallet l x draining =
      (if draining then (s.joined l x i).handSlot i .draining else s.joined l x i).identify i x draining := by
  unfold State.admitPallet
  rw [free]
  rfl

/-- What a joining leaves. -/
theorem State.joined_spec (l : Lane) (x : Option Text) (i : Slot) (s : State) :
    (∀ j, (s.joined l x i).ctx j = if i = j then some (Context.atAdmission s.tracker.nextAdm x l) else s.ctx j)
      ∧ (s.joined l x i).queue l = s.queue l ++ [i] ∧ (∀ m, m ≠ l → (s.joined l x i).queue m = s.queue m)
      ∧ (s.joined l x i).tracker.nextAdm = admissionAfter s.tracker.nextAdm
      ∧ State.Only [.ring, .tracker, .alloc] s (s.joined l x i)
      ∧ (s.queue l = [] → (s.joined l x i).alloc.arbiterDue = true) := by
  obtain ⟨u, put⟩ : ∃ u, ((s.putCtx i (some (Context.atAdmission s.tracker.nextAdm x l))).onTracker fun t =>
    { t with nextAdm := admissionAfter s.tracker.nextAdm }).modLane l (fun r => { r with queue := r.queue ++ [i] }) = u :=
    ⟨_, rfl⟩
  have u_ctx : ∀ j, u.ctx j = if i = j then some (Context.atAdmission s.tracker.nextAdm x l) else s.ctx j := fun j => by
    rw [← put]
    exact State.ctx_putCtx _ _ _ _
  have u_queue : ∀ m, u.queue m = if l = m then s.queue l ++ [i] else s.queue m := fun m => by
    rw [← put, State.queue_modLane]
    rfl
  have u_next : u.tracker.nextAdm = admissionAfter s.tracker.nextAdm := put ▸ rfl
  have u_only : State.Only [.ring, .tracker, .alloc] s u := put ▸
    (((State.putCtx_only _ _ _).trans (State.onTracker_only _ _)).trans (State.modLane_only _ _ _)).first
  have tracks := State.infeedDecision_tracks (is := []) l u
  have head := State.joinedAsHead_only (s.queue l).isEmpty (u.infeedDecision l)
  have tracker := head.tracker.resolve_left (by decide)
  unfold State.joined
  rw [put]
  refine ⟨fun j => ?_, ?_, fun m ne => ?_, ?_, (u_only.next (State.infeedDecision_only _ _)).next head, fun empty => ?_⟩
  · rw [State.ctx, tracker, State.infeedDecision_slots]
    exact u_ctx j
  · rw [State.queue, tracker]
    exact (tracks.queues l).trans ((u_queue l).trans (if_pos rfl))
  · rw [State.queue, tracker]
    exact (tracks.queues m).trans ((u_queue m).trans (if_neg ne.symm))
  · rw [tracker, tracks.nextAdm, u_next]
  · rw [State.joinedAsHead_arbiterDue, empty]
    rfl

/-! ### The identity of a context just admitted (R43) -/

/-- The free slot of the lowest number (R39). -/
theorem State.freeSlot_lowest (free : s.freeSlot = some i) (low : j < i) : s.ctx j ≠ none := by
  obtain ⟨-, as, bs, split, taken⟩ := List.find?_eq_some_iff_append.mp free
  have order : (as ++ i :: bs).Pairwise (· < ·) := split ▸ List.pairwise_lt_finRange 64
  have mem : j ∈ as ++ i :: bs := split ▸ List.mem_finRange j
  rcases List.mem_append.mp mem with h | h
  · intro none
    have := taken j h
    rw [none] at this
    cases this
  · rcases List.mem_cons.mp h with rfl | h
    · exact absurd low (lt_irrefl _)
    · exact absurd low (not_lt_of_gt ((List.pairwise_cons.mp (List.pairwise_append.mp order).2.1).1 j h))

theorem State.mem_sharers {t : Text} : j ∈ s.sharers i t ↔ j ≠ i ∧ ∃ c, s.ctx j = some c ∧ c.licence = some t := by
  simp [State.sharers, State.mem_slotsWhere, and_comm]

theorem State.identify_none (draining : Bool) : s.identify i none draining = s.handSlot i .noLicence := rfl

theorem State.identify_shared {t : Text} (shared : ∃ j c, j ≠ i ∧ s.ctx j = some c ∧ c.licence = some t)
    (draining : Bool) : s.identify i (some t) draining =
      (s.handSlot i .duplicateLicence).handAll (s.sharers i t) .duplicateLicence := by
  obtain ⟨j, c, ne, hc, licence⟩ := shared
  have mem : j ∈ s.sharers i t := State.mem_sharers.mpr ⟨ne, c, hc, licence⟩
  exact if_pos (List.ne_nil_of_mem mem)

theorem State.identify_alone {t : Text} (alone : ∀ j c, j ≠ i → s.ctx j = some c → c.licence ≠ some t)
    (draining : Bool) : s.identify i (some t) draining = if draining then s else s.askPlan i t := by
  have none : s.sharers i t = [] := List.eq_nil_iff_forall_not_mem.mpr fun j hj => by
    obtain ⟨ne, c, hc, licence⟩ := State.mem_sharers.mp hj
    exact alone j c ne hc licence
  unfold State.identify
  dsimp only
  rw [none, if_neg (by simp)]

theorem State.core_identify_none (draining : Bool) :
    (s.identify i none draining).core i = (s.core i).map (Context.handed .noLicence) := by
  rw [State.identify_none, State.core_handSlot, if_pos rfl]

theorem State.core_identify_shared {t : Text} (shared : ∃ j c, j ≠ i ∧ s.ctx j = some c ∧ c.licence = some t)
    (draining : Bool) :
    (s.identify i (some t) draining).core i = (s.core i).map (Context.handed .duplicateLicence) := by
  have off : i ∉ s.sharers i t := fun h => (State.mem_sharers.mp h).1 rfl
  rw [State.identify_shared shared, State.core_handAll, if_neg off, State.core_handSlot, if_pos rfl]

theorem State.askPlan_tracks (i : Slot) (t : Text) (s : State) : State.Tracks [i] s (s.askPlan i t) := by
  unfold State.askPlan
  split
  · exact .refl _
  · split
    · exact State.Tracks.next (is := [i]) (js := [i]) (State.onRefs_only _ _).tracks State.modCtx_tracks_self
    · exact State.handSlot_tracks _ _ _
    · exact .refl _

theorem State.due_identify (due : s.alloc.arbiterDue = true) (i : Slot) (x : Option Text) (draining : Bool) :
    (s.identify i x draining).alloc.arbiterDue = true := by
  have asked : ∀ t, (s.askPlan i t).alloc.arbiterDue = true := fun t => by
    unfold State.askPlan
    split
    · exact due
    · split
      · exact due
      · exact State.due_handSlot due _ _
      · exact due
  unfold State.identify
  split
  · exact State.due_handSlot due _ _
  · dsimp only
    split
    · exact State.due_handAll (State.due_handSlot due _ _) _ _
    · split
      · exact due
      · exact asked _

theorem State.identify_tracks (i : Slot) (x : Option Text) (draining : Bool) (s : State) :
    State.Tracks allSlots s (s.identify i x draining) := by
  have all : ∀ is : List Slot, is ⊆ allSlots := fun is j _ => List.mem_finRange j
  unfold State.identify
  split
  · exact (State.handSlot_tracks _ _ _).mono (all _)
  · dsimp only
    split
    · exact State.Tracks.next ((State.handSlot_tracks _ _ _).mono (all _)) (State.handAll_tracks _ _ _) (all _)
    · split
      · exact .refl _
      · exact (State.askPlan_tracks _ _ _).mono (all _)

theorem State.readTag_of_off (mode : s.ctl.mode = .start ∨ s.ctl.mode = .stopped) (l : Lane) (x : Option Text) :
    s.readTag l x = s.report (.lane (.unexpectedPallet l x)) := by
  unfold State.readTag State.actingMode
  rcases mode with mode | mode
  · rw [mode]
  · rw [mode]

theorem State.readTag_of_on (mode : s.ctl.mode = .run ∨ s.ctl.mode = .degraded ∨ s.ctl.mode = .drain) (l : Lane)
    (x : Option Text) : s.readTag l x =
      if (s.queue l).length < 5 then s.admitPallet l x (s.ctl.mode == .drain) else s.laneOverflow l x := by
  unfold State.readTag State.actingMode
  rcases mode with mode | mode | mode
  · rw [mode]
    rfl
  · rw [mode]
    rfl
  · rw [mode]
    rfl

/-- A TAG_READ that admits a context, up to the settling of its identity. -/
theorem exec_tagRead_admits {dst src : Byte} {p : List Byte} (fits : s.Fits src laneOfReader l) (short : p.length ≤ 120)
    (read : whole takeLicence p = some x)
    (mode : s.ctl.mode = .run ∨ s.ctl.mode = .degraded ∨ s.ctl.mode = .drain) (few : (s.queue l).length < 5)
    (free : s.freeSlot = some i) :
    ∃ v : State, exec (.tagRead dst src p) s = .next (((if s.ctl.mode == LineMode.drain then v.handSlot i .draining else v).identify i
        (presentLicence x) (s.ctl.mode == LineMode.drain)).settle .tagRead)
      ∧ (∀ j, v.ctx j = if i = j then some (Context.atAdmission s.tracker.nextAdm (presentLicence x) l) else s.ctx j)
      ∧ v.queue l = s.queue l ++ [i] ∧ (∀ m, m ≠ l → v.queue m = s.queue m)
      ∧ v.tracker.nextAdm = admissionAfter s.tracker.nextAdm ∧ v.refs = s.refs
      ∧ (s.queue l = [] → v.alloc.arbiterDue = true) := by
  obtain ⟨u, passed⟩ : ∃ u, s.passed ⟨dst, src, kTagRead, p⟩ = u := ⟨_, rfl⟩
  have ctl : u.ctl = s.ctl := passed ▸ State.passed_ctl _ _
  have tracker : u.tracker = s.tracker := passed ▸ State.passed_tracker _ _
  have refs : u.refs = s.refs := passed ▸ State.passed_refs _ _
  have queue : ∀ m, u.queue m = s.queue m := fun m => by rw [State.queue, tracker]; rfl
  have at_u : ∀ j, u.ctx j = s.ctx j := fun j => by rw [State.ctx, tracker]; rfl
  have free' : u.freeSlot = some i := by
    rw [← free]
    simp only [State.freeSlot, at_u]
  have taken := exec_tagRead (dst := dst) fits short read
  rw [passed, State.readTag_of_on (by rw [ctl]; exact mode), queue, if_pos few, State.admitPallet_of_free free', ctl] at taken
  obtain ⟨ctx, tail, others, next, only, due⟩ := State.joined_spec l (presentLicence x) i u
  refine ⟨_, taken, fun j => ?_, ?_, fun m ne => ?_, ?_, ?_, fun empty => due ((queue l).trans empty)⟩
  · rw [ctx, at_u, tracker]
  · rw [tail, queue]
  · rw [others m ne, queue]
  · rw [next, tracker]
  · rw [only.refs.resolve_left (by decide), refs]

end

end Sys2Proof.Machine

namespace Sys2Proof.Proofs

open Sys2Proof Sys2Proof.Machine

/-- Settles O27: the admission, and the identity of the context by its licence. -/
theorem tagReadAdmits : Obligations.TagReadAdmits := by
  unfold Obligations.TagReadAdmits
  refine ⟨fun s dst src p l x i fits short read mode few free => ?_, fun s dst src p l x fits short read =>
    ⟨fun mode => ?_, fun mode full => ?_, fun i mode few free => ?_⟩⟩
  · obtain ⟨v, taken, ctx, tail, others, next, refs, due⟩ :=
      exec_tagRead_admits (dst := dst) fits short read (mode.imp_right .inl) few free
    have off : (s.ctl.mode == LineMode.drain) = false := by
      rcases mode with mode | mode
      · rw [mode]; rfl
      · rw [mode]; rfl
    obtain ⟨lic, hlic⟩ : ∃ lic, presentLicence x = lic := ⟨_, rfl⟩
    rw [off, if_neg (by decide), hlic] at taken
    rw [hlic] at ctx ⊢
    obtain ⟨c, hc⟩ : ∃ c, Context.atAdmission s.tracker.nextAdm lic l = c := ⟨_, rfl⟩
    have at_i : v.ctx i = some c := by rw [ctx, if_pos rfl, hc]
    have lowest : ∀ j, j < i → s.ctx j ≠ none := fun j => State.freeSlot_lowest free
    have handed : ∀ r, c.handed r = { c with reasons := [r] } := fun r => hc ▸ rfl
    obtain ⟨u, hu⟩ : ∃ u, v.identify i lic false = u := ⟨_, rfl⟩
    have tracks : State.Tracks allSlots v u := hu ▸ State.identify_tracks i lic false v
    have u_due : s.queue l = [] → u.alloc.arbiterDue = true := fun empty => hu ▸ State.due_identify (due empty) i lic false
    rw [hu] at taken
    have queue : u.queue l = s.queue l ++ [i] := (tracks.queues l).trans tail
    suffices settled : ∃ d rs n, u.ctx i = some d ∧ d.core = { c with reasons := rs, planSlot := n }
        ∧ (lic = none → rs = [.noLicence] ∧ n = none ∧ u.refs = s.refs ∧ State.SameContexts [i] s u)
        ∧ ∀ t, lic = some t →
          ((∃ j c, s.ctx j = some c ∧ c.licence = some t) → rs = [.duplicateLicence] ∧ n = none ∧ u.refs = s.refs
            ∧ ∀ j c, s.ctx j = some c → c.licence = some t → ∃ e, u.ctx j = some e ∧ Reason.duplicateLicence ∈ e.reasons)
          ∧ ((∀ j c, s.ctx j = some c → c.licence ≠ some t) → State.SameContexts [i] s u
            ∧ ((∀ q, s.planOf t = some q → q.state = .inUse) → rs = [] ∧ n = none ∧ u.refs = s.refs)
            ∧ (∀ q, s.planOf t = some q → q.state = .used → rs = [.licenceReused] ∧ n = none ∧ u.refs = s.refs)
            ∧ (∀ q, s.planOf t = some q → q.state = .loaded → s.planAt q.slot = some q →
                rs = [] ∧ n = some q.slot ∧ u.planAt q.slot = some { q with state := .inUse, bound := some i }
                  ∧ ∀ n, n ≠ q.slot → u.planAt n = s.planAt n)) by
      obtain ⟨d, rs, n, hd, core, unnamed, named⟩ := settled
      obtain ⟨o, j, w, m, k, b, e⟩ := Context.exists_of_core (c := { c with reasons := rs, planSlot := n }) (by
        rw [core, ← hc]
        rfl)
      subst hc
      subst e
      refine ⟨u, _, taken, hd, lowest, State.freeSlot_free free, rfl, rfl, rfl, rfl, rfl, rfl, rfl, rfl, rfl, queue,
        fun m ne => (tracks.queues m).trans (others m ne), fun empty => ⟨?_, u_due empty⟩, tracks.nextAdm.trans next,
        unnamed, named⟩
      rw [State.laneHead, queue, empty]
      rfl
    have apart : ∀ j c, s.ctx j = some c → i ≠ j := fun j c hj e => by
      rw [← e, State.freeSlot_free free] at hj
      cases hj
    cases lic with
    | none =>
      rw [State.identify_none, State.handSlot_of_undecided at_i (hc ▸ rfl), handed] at hu
      refine ⟨{ c with reasons := [.noLicence] }, _, none, by rw [← hu, State.ctx_putCtx_self], hc ▸ rfl,
        fun _ => ⟨rfl, rfl, by rw [← hu]; exact refs, fun j out => ?_⟩, fun t h => by (cases h)⟩
      have ne : i ≠ j := fun e => out (by simp [e])
      rw [← hu, State.ctx_putCtx_of_ne ne, ctx, if_neg ne]
    | some t =>
      by_cases shared : ∃ j c, s.ctx j = some c ∧ c.licence = some t
      · have shared' : ∃ j c, j ≠ i ∧ v.ctx j = some c ∧ c.licence = some t := by
          obtain ⟨j, d, hj, h⟩ := shared
          exact ⟨j, d, (apart j d hj).symm, by rw [ctx, if_neg (apart j d hj), hj], h⟩
        have core := State.core_identify_shared shared' false
        rw [hu, State.core_of_ctx at_i] at core
        obtain ⟨d, hd, e⟩ := Option.map_eq_some_iff.mp core
        rw [State.identify_shared shared'] at hu
        refine ⟨d, [.duplicateLicence], none, hd, ?_, fun h => by (cases h), fun t' h => ?_⟩
        · rw [e, ← hc]
          rfl
        · cases h
          refine ⟨fun _ => ⟨rfl, rfl, ?_, fun j d hj licence => ?_⟩, fun alone => ?_⟩
          · rw [← hu, (State.handAll_only _ _ _).refs.resolve_left (by decide),
              (State.handSlot_only _ _ _).refs.resolve_left (by decide), refs]
          · have mem : j ∈ v.sharers i t := State.mem_sharers.mpr
              ⟨(apart j d hj).symm, d, by rw [ctx, if_neg (apart j d hj), hj], licence⟩
            have core : u.core j = some (d.handed .duplicateLicence).core := by
              rw [← hu, State.core_handAll, if_pos mem, State.core_handSlot, if_neg (apart j d hj), State.core, ctx,
                if_neg (apart j d hj), hj, Context.core_handed]
              rfl
            obtain ⟨e, he, same⟩ := Option.map_eq_some_iff.mp core
            obtain ⟨o, j, w, n, m, k, rfl⟩ := Context.exists_of_core same
            exact ⟨_, he, Context.mem_handed _ _⟩
          · obtain ⟨j, d, hj, h⟩ := shared
            exact absurd h (alone j d hj)
      · have alone : ∀ j d, j ≠ i → v.ctx j = some d → d.licence ≠ some t := fun j d ne hj h => by
          rw [ctx, if_neg ne.symm] at hj
          exact shared ⟨j, d, hj, h⟩
        rw [State.identify_alone alone, if_neg (by decide), State.askPlan,
          show v.planOf t = s.planOf t by rw [State.planOf, refs]; rfl] at hu
        have same : ∀ {w : State}, (∀ j, i ≠ j → w.ctx j = v.ctx j) → State.SameContexts [i] s w :=
          fun h j out => by
            have ne : i ≠ j := fun e => out (by simp [e])
            rw [h j ne, ctx, if_neg ne]
        cases plan : s.planOf t with
        | none =>
          rw [plan] at hu
          refine ⟨c, [], none, hu ▸ at_i, hc ▸ rfl, fun h => by (cases h), fun t' h => ?_⟩
          cases h
          refine ⟨fun h => absurd h shared, fun _ => ⟨same fun j _ => by rw [← hu], fun _ => ⟨rfl, rfl, ?_⟩,
            fun q h => ?_, fun q h => ?_⟩⟩
          · rw [← hu]; exact refs
          · rw [plan] at h; cases h
          · rw [plan] at h; cases h
        | some q =>
          rw [plan] at hu
          cases state : q.state with
          | inUse =>
            simp only [state] at hu
            refine ⟨c, [], none, hu ▸ at_i, by rw [← hc]; rfl, fun h => by (cases h), fun t' h => ?_⟩
            cases h
            refine ⟨fun h => absurd h shared, fun _ => ⟨same fun j _ => by rw [← hu], fun _ => ⟨rfl, rfl, ?_⟩,
              fun q' h other => ?_, fun q' h other => ?_⟩⟩
            · rw [← hu]; exact refs
            · rw [plan] at h; cases h; rw [state] at other; cases other
            · rw [plan] at h; cases h; rw [state] at other; cases other
          | used =>
            simp only [state] at hu
            rw [State.handSlot_of_undecided at_i (hc ▸ rfl), handed] at hu
            refine ⟨{ c with reasons := [.licenceReused] }, _, none, by rw [← hu, State.ctx_putCtx_self], by rw [← hc]; rfl,
              fun h => by (cases h), fun t' h => ?_⟩
            cases h
            refine ⟨fun h => absurd h shared, fun _ => ⟨same fun j ne => ?_, fun h => ?_,
              fun q' _ _ => ⟨rfl, rfl, ?_⟩, fun q' h other => ?_⟩⟩
            · rw [← hu, State.ctx_putCtx_of_ne ne]
            · have other := h q plan
              rw [state] at other; cases other
            · rw [← hu]; exact refs
            · rw [plan] at h; cases h; rw [state] at other; cases other
          | loaded =>
            simp only [state] at hu
            refine ⟨{ c with planSlot := some q.slot }, [], some q.slot, by rw [← hu, State.ctx_bindPlan at_i],
              by rw [← hc]; rfl,
              fun h => by (cases h), fun t' h => ?_⟩
            cases h
            refine ⟨fun h => absurd h shared, fun _ => ⟨same fun j ne => ?_, fun h => ?_,
              fun q' h other => ?_, fun q' h _ at_slot => ?_⟩⟩
            · rw [← hu]
              exact State.sameContexts_bindPlan q i j (by simpa using ne.symm)
            · have other := h q plan
              rw [state] at other; cases other
            · rw [plan] at h; cases h; rw [state] at other; cases other
            · rw [plan] at h; cases h
              have at_v : ∀ n, v.planAt n = s.planAt n := fun n => by rw [State.planAt, refs]; rfl
              refine ⟨rfl, rfl, ?_, fun n ne => ?_⟩
              · rw [← hu]
                exact State.planAt_bindPlan_self ((at_v q.slot).trans at_slot)
              · rw [← hu, State.planAt_bindPlan, if_neg ne.symm, at_v]
  · rw [exec_tagRead fits short read, State.readTag_of_off (by simpa using mode)]
    rfl
  · obtain ⟨u, passed⟩ : ∃ u, s.passed ⟨dst, src, kTagRead, p⟩ = u := ⟨_, rfl⟩
    have ctl : u.ctl = s.ctl := passed ▸ State.passed_ctl _ _
    have tracker : u.tracker = s.tracker := passed ▸ State.passed_tracker _ _
    have queue : u.queue l = s.queue l := by rw [State.queue, tracker]; rfl
    have taken := exec_tagRead (dst := dst) fits short read
    rw [passed, State.readTag_of_on (by rw [ctl]; exact mode), queue, if_neg (Nat.not_lt.mpr full), State.laneOverflow,
      queue] at taken
    obtain ⟨v, told⟩ : ∃ v, u.report (.lane (.laneOverflow l (presentLicence x))) = v := ⟨_, rfl⟩
    have v_tracker : v.tracker = s.tracker := by
      rw [← told, (State.report_only _ u).tracker.resolve_left (by decide), tracker]
    have v_core : ∀ i, v.core i = s.core i := fun i => by rw [State.core, State.ctx, v_tracker]; rfl
    have tracks := State.handAll_tracks (s.queue l) .trackSlip v
    have cores : ∀ i, (v.handAll (s.queue l) .trackSlip).core i =
        if i ∈ s.queue l then (s.core i).map (Context.handed .trackSlip) else s.core i := fun i => by
      rw [State.core_handAll, v_core]
    have told' : (s.passed ⟨dst, src, 0x01, p⟩).report (.lane (.laneOverflow l (presentLicence x))) = v :=
      (congrArg (State.report _) passed).trans told
    rw [told] at taken
    refine ⟨_, taken, by rw [told'], ?_, ?_, fun i hi c hc => ?_, fun i out => ?_⟩
    · rw [tracks.nextAdm, v_tracker]
    · rw [tracks.queues, State.queue, v_tracker]
      rfl
    · have core := (cores i).trans (if_pos hi)
      rw [State.core_of_ctx hc] at core
      obtain ⟨d, hd, e⟩ := Option.map_eq_some_iff.mp core
      obtain ⟨o, j, w, n, m, k, rfl⟩ := Context.exists_of_core (e.trans (Context.core_handed _ c).symm)
      exact ⟨_, hd, Context.mem_handed _ _⟩
    · have core := congrArg (Option.map Context.reasons) ((cores i).trans (if_neg out))
      simpa [State.core, Function.comp_def, Context.core] using core
  · obtain ⟨v, taken, ctx, tail, others, next, refs, due⟩ :=
      exec_tagRead_admits (dst := dst) fits short read (.inr (.inr mode)) few free
    rw [show (s.ctl.mode == LineMode.drain) = true by rw [mode]; rfl, if_pos rfl] at taken
    obtain ⟨lic, hlic⟩ : ∃ lic, presentLicence x = lic := ⟨_, rfl⟩
    rw [hlic] at taken ctx ⊢
    have at_i : v.ctx i = some (Context.atAdmission s.tracker.nextAdm lic l) := by rw [ctx, if_pos rfl]
    have apart : ∀ j c, s.ctx j = some c → i ≠ j := fun j c hj e => by
      rw [← e, State.freeSlot_free free] at hj
      cases hj
    obtain ⟨c, hc⟩ : ∃ c, { Context.atAdmission s.tracker.nextAdm lic l with reasons := [.draining] } = c := ⟨_, rfl⟩
    obtain ⟨w, hw⟩ : ∃ w, v.handSlot i .draining = w := ⟨_, rfl⟩
    have w_put : w = v.putCtx i (some c) := by
      rw [← hw, ← hc]
      exact State.handSlot_of_undecided at_i rfl _
    have w_ctx : ∀ j, w.ctx j = if i = j then some c else s.ctx j := fun j => by
      rw [w_put, State.ctx_putCtx]
      split
      next => rfl
      next ne => rw [ctx, if_neg ne]
    have w_queue : w.queue l = s.queue l ++ [i] := by rw [w_put]; exact tail
    have w_refs : w.refs = s.refs := by rw [w_put]; exact refs
    have w_due : s.queue l = [] → w.alloc.arbiterDue = true := fun empty => by rw [w_put]; exact due empty
    rw [hw] at taken
    obtain ⟨u, hu⟩ : ∃ u, w.identify i lic true = u := ⟨_, rfl⟩
    have tracks : State.Tracks allSlots w u := hu ▸ State.identify_tracks i lic true w
    rw [hu] at taken
    have queue : u.queue l = s.queue l ++ [i] := (tracks.queues l).trans w_queue
    suffices settled : ∃ rs, u.core i = some { c with reasons := rs } ∧ u.refs = s.refs ∧ Reason.draining ∈ rs
        ∧ (Reason.noLicence ∈ rs ↔ lic = none)
        ∧ (Reason.duplicateLicence ∈ rs ↔ ∃ t j c, lic = some t ∧ s.ctx j = some c ∧ c.licence = some t) by
      obtain ⟨rs, core, u_refs, draining, unnamed, shared⟩ := settled
      obtain ⟨d, hd, e⟩ := Option.map_eq_some_iff.mp core
      obtain ⟨o, j, w, m, k, b, e⟩ := Context.exists_of_core (c := { c with reasons := rs }) (by
        rw [e, ← hc]
        rfl)
      subst hc
      subst e
      refine ⟨u, _, taken, hd, rfl, rfl, rfl, rfl, rfl, rfl, u_refs, queue, fun empty => ⟨?_, ?_⟩, draining, unnamed, shared⟩
      · rw [State.laneHead, queue, empty]
        rfl
      · exact hu ▸ State.due_identify (w_due empty) i lic true
    have core : w.core i = some c := by
      rw [State.core, w_ctx, if_pos rfl, ← hc]
      rfl
    cases lic with
    | none =>
      refine ⟨insertReason .noLicence [.draining], ?_, ?_, by decide, by decide, by simp; decide⟩
      · rw [← hu, State.core_identify_none, core, ← hc]
        rfl
      · rw [← hu, State.identify_none, (State.handSlot_only _ _ _).refs.resolve_left (by decide), w_refs]
    | some t =>
      by_cases shared : ∃ j c, s.ctx j = some c ∧ c.licence = some t
      · have shared' : ∃ j c, j ≠ i ∧ w.ctx j = some c ∧ c.licence = some t := by
          obtain ⟨j, d, hj, h⟩ := shared
          exact ⟨j, d, (apart j d hj).symm, by rw [w_ctx, if_neg (apart j d hj), hj], h⟩
        refine ⟨insertReason .duplicateLicence [.draining], ?_, ?_, by decide, iff_of_false (by decide) (by simp),
          iff_of_true (by decide) ?_⟩
        · rw [← hu, State.core_identify_shared shared', core, ← hc]
          rfl
        · rw [← hu, State.identify_shared shared', (State.handAll_only _ _ _).refs.resolve_left (by decide),
            (State.handSlot_only _ _ _).refs.resolve_left (by decide), w_refs]
        · obtain ⟨j, d, hj, h⟩ := shared
          exact ⟨t, j, d, rfl, hj, h⟩
      · have alone : ∀ j d, j ≠ i → w.ctx j = some d → d.licence ≠ some t := fun j d ne hj h => by
          rw [w_ctx, if_neg ne.symm] at hj
          exact shared ⟨j, d, hj, h⟩
        rw [State.identify_alone alone, if_pos rfl] at hu
        refine ⟨[.draining], ?_, by rw [← hu]; exact w_refs, by simp, by simp, iff_of_false (by simp) ?_⟩
        · rw [← hu, core, ← hc]
        · rintro ⟨t', j, d, e, hj, h⟩
          cases e
          exact shared ⟨j, d, hj, h⟩

end Sys2Proof.Proofs
end

