-- ==== Sys2Proof/Proofs/Slice0/PhaseTimers.lean ====
section
/-! The expiries of the phase timers of the tracking: scan_silence, measure_limit, decision_limit and wrap_wait_limit
(R47, R49, R80, R105). -/

namespace Sys2Proof.Machine

open Sys2Proof

section
variable {s : State} {i : Slot} {c : Context} {p : Phase}

theorem State.awake_of_running (running : s.ctl.inReset = false) (f : State → State) : s.awake f = f s := by
  rw [State.awake, running]
  rfl

theorem State.onExpiry_of_timed (hc : s.ctx i = some c) (phase : c.phase = p) (timer : c.timer = some 0)
    (f : State → State) : s.onExpiry i p f = f s := by
  unfold State.onExpiry State.timed
  simp [hc, phase, timer]

theorem State.onExpiry_of_not (hc : s.ctx i = some c) (off : c.phase ≠ p ∨ c.timer ≠ some 0) (f : State → State) :
    s.onExpiry i p f = s := by
  unfold State.onExpiry State.timed
  rw [hc]
  rcases off with off | off
  · simp [off]
  · simp [off]

/-- A lane head whose verdict rises is an event of the arbiter (R92, R103). -/
theorem State.due_handReason {id : CtxId} {v : Verdict} {r : Reason} (named : s.named id = some c) (out : r ∉ c.reasons)
    (verdict : c.verdict = some v) (rise : v.max r.severity ≠ v) (head : c.phase = .atHeadDecided) :
    (s.handReason id r).alloc.arbiterDue = true := by
  have later : s.handReason id r = s.addLater id c v r := by
    unfold State.handReason
    simp only [named, List.contains_iff_mem, out, if_false]
    split
    next none => rw [none] at verdict; cases verdict
    next w some =>
      rw [some] at verdict
      cases verdict
      rfl
  rw [later]
  exact State.due_addLater (.inr ⟨rise, head⟩)

/-- A reason recorded on a condition under which an undecided context has it not. -/
theorem State.recorded (hc : s.ctx i = some c) (undecided : c.verdict = none) {r : Reason} {b : Bool}
    (out : b = true → r ∉ c.reasons) : (if b then s.handSlot i r else s) =
      s.putCtx i (some { c with reasons := (if b then insertReason r else id) c.reasons }) := by
  cases b with
  | true =>
    refine (State.handSlot_of_undecided hc undecided r).trans ?_
    rw [Context.handed_of_undecided (out rfl) undecided]
    rfl
  | false => exact (State.putCtx_of_ctx hc).symm

/-- The reasons of a context whose lacking measurements are recorded as missing (R49). -/
def Context.missed (c : Context) : List Reason :=
  (if c.lacksHeight then insertReason .noHeight else id) ((if c.lacksWeight then insertReason .noWeight else id) c.reasons)

theorem Context.mem_missed {r : Reason} : r ∈ c.missed ↔ r ∈ c.reasons ∨ (r = .noWeight ∧ c.lacksWeight = true)
    ∨ (r = .noHeight ∧ c.lacksHeight = true) := by
  unfold Context.missed
  cases c.lacksHeight <;> cases c.lacksWeight <;> simp [mem_insertReason] <;> tauto

theorem Context.lacks_missed (c : Context) : ({ c with reasons := c.missed } : Context).lacksWeight = false
    ∧ ({ c with reasons := c.missed } : Context).lacksHeight = false := by
  constructor
  · have recorded : c.weight = none → Reason.noWeight ∈ c.missed := fun absent => Context.mem_missed.mpr (by
      by_cases old : Reason.noWeight ∈ c.reasons
      · exact .inl old
      · exact .inr (.inl ⟨rfl, by simp [Context.lacksWeight, absent, old]⟩))
    cases weight : c.weight with
    | none => simp [Context.lacksWeight, recorded weight]
    | some w => simp [Context.lacksWeight]
  · have recorded : c.height = none → Reason.noHeight ∈ c.missed := fun absent => Context.mem_missed.mpr (by
      by_cases old : Reason.noHeight ∈ c.reasons
      · exact .inl old
      · exact .inr (.inr ⟨rfl, by simp [Context.lacksHeight, absent, old]⟩))
    cases height : c.height with
    | none => simp [Context.lacksHeight, recorded height]
    | some h => simp [Context.lacksHeight]

/-- The missing measurements of an undecided context are recorded, and a decision is attempted (R49). -/
theorem State.measureExpired_of_undecided (hc : s.ctx i = some c) (undecided : c.verdict = none) :
    s.measureExpired i = State.attempt i (s.putCtx i (some { c with reasons := c.missed })) := by
  have noWeight : c.lacksWeight = true → Reason.noWeight ∉ c.reasons := fun lacks => by
    simpa [Context.lacksWeight] using (Bool.and_eq_true_iff.mp lacks).2
  have noHeight : c.lacksHeight = true → Reason.noHeight ∉ c.reasons := fun lacks => by
    simpa [Context.lacksHeight] using (Bool.and_eq_true_iff.mp lacks).2
  obtain ⟨d, hd⟩ : ∃ d, { c with reasons := (if c.lacksWeight then insertReason .noWeight else id) c.reasons } = d :=
    ⟨_, rfl⟩
  have absence : Reason.noHeight ∈ d.reasons ↔ Reason.noHeight ∈ c.reasons := by
    rw [← hd]
    show Reason.noHeight ∈ (if c.lacksWeight then insertReason .noWeight else id) c.reasons ↔ _
    split
    · simp [mem_insertReason]
    · rfl
  have height : d.height = c.height := hd ▸ rfl
  have same : d.lacksHeight = c.lacksHeight := by simp [Context.lacksHeight, absence, height]
  unfold State.measureExpired
  simp only [hc, Option.any_some]
  rw [State.recorded hc undecided noWeight, hd]
  simp only [State.ctx_putCtx_self, Option.any_some, same]
  rw [State.recorded (State.ctx_putCtx_self i (some d) s) (hd ▸ undecided) fun lacks => absence.not.mpr (noHeight lacks),
    State.putCtx_putCtx, ← hd]
  rfl

end

end Sys2Proof.Machine

namespace Sys2Proof.Proofs

open Sys2Proof Sys2Proof.Machine

/-- Settles O44: each expiry by the state and the timer of its context. -/
theorem phaseTimersExpire : Obligations.PhaseTimersExpire := by
  unfold Obligations.PhaseTimersExpire
  intro s i c running hc
  have taken : ∀ f : State → State, Host.Outcome.next (s.awake f) = (.next (f s) : Host.Outcome State Fault Refusal) :=
    fun f => by rw [State.awake_of_running running]
  refine ⟨fun off => (taken _).trans (congrArg _ (State.onExpiry_of_not hc off _)),
    fun off => (taken _).trans (congrArg _ (State.onExpiry_of_not hc off _)),
    fun off => (taken _).trans (congrArg _ (State.onExpiry_of_not hc off _)),
    fun off => (taken _).trans (congrArg _ (State.onExpiry_of_not hc off _)),
    fun scanning timer undecided out d hd => ?_, fun measuring timer undecided => ?_, fun waiting timer => ?_,
    fun head timer pass out => ?_⟩
  · have run : exec (.scanSilenceExpiry i) s = .next ((s.truncateScan i).settle .scanSilence) :=
      (taken _).trans (congrArg _ (State.onExpiry_of_timed hc scanning timer _))
    have truncated : s.truncateScan i =
        (s.putCtx i (some { c with reasons := insertReason .scanTruncated c.reasons })).endScan i := by
      rw [State.truncateScan, State.handSlot_of_undecided hc undecided, Context.handed_of_undecided out undecided]
    have lacking : ({ c with reasons := insertReason .scanTruncated c.reasons } : Context).lacksWeight = c.lacksWeight
        ∧ ({ c with reasons := insertReason .scanTruncated c.reasons } : Context).lacksHeight = c.lacksHeight := by
      simp [Context.lacksWeight, Context.lacksHeight, mem_insertReason]
    rw [run, truncated, State.endScan_of_ctx (State.ctx_putCtx_self i _ s), lacking.1, lacking.2, State.putCtx_putCtx,
      State.putCtx_putCtx, hd]
    refine ⟨fun lacks => ?_, fun weight height => ?_⟩
    · rw [if_pos lacks]
      rfl
    · rw [if_neg (by simp [weight, height])]
  · have run : exec (.measureLimitExpiry i) s = .next ((s.measureExpired i).settle .measureLimit) :=
      (taken _).trans (congrArg _ (State.onExpiry_of_timed hc measuring timer _))
    refine ⟨{ c with reasons := c.missed }, by rw [run, State.measureExpired_of_undecided hc undecided], rfl, ?_, ?_,
      fun r => Context.mem_missed⟩
    · exact (Context.lacks_missed c).1
    · exact (Context.lacks_missed c).2
  · have run : exec (.decisionLimitExpiry i) s = .next ((s.park i).settle .decisionLimit) :=
      (taken _).trans (congrArg _ (State.onExpiry_of_timed hc waiting timer _))
    obtain ⟨rs, hrs⟩ : ∃ rs, insertReasons (c.waiting.map WaitItem.reason) c.reasons = rs := ⟨_, rfl⟩
    have parked : s.park i = s.conclude i c .parked rs (Verdict.park.max (severityOf rs)) none none none none := by
      rw [← hrs]
      simp [State.park, hc]
    obtain ⟨u, d, eq, hd, core, recon, due, -⟩ :=
      State.conclude_leaves hc .parked rs (Verdict.park.max (severityOf rs)) none none none none
    have late : Verdict.park.max (severityOf rs) ≠ .pass := by
      cases severityOf rs <;> decide
    have mem : ∀ r, r ∈ rs ↔ r ∈ c.reasons ∨ ∃ x ∈ c.waiting, r = x.reason := fun r => by
      rw [← hrs, mem_insertReasons, List.mem_map, or_comm]
      simp [eq_comm]
    obtain ⟨o, j, w, l, n, k, rfl⟩ := Context.exists_of_core core
    refine ⟨u, _, by rw [run, parked, eq], hd, rfl, ?_, rfl, mem, rfl, due, ?_⟩
    · simp [State.concluded, late]
    · rw [State.scale, recon, State.updateScale_none]
      rfl
  · have run : exec (.wrapWaitLimitExpiry i) s = .next (((s.stopTimer i).handSlot i .noWrapper).settle .wrapWaitLimit) :=
      (taken _).trans (congrArg _ (State.onExpiry_of_timed hc head timer _))
    obtain ⟨v, stopped⟩ : ∃ v, s.stopTimer i = v := ⟨_, rfl⟩
    have at_v : v.ctx i = some { c with timer := none } := by
      rw [← stopped, State.stopTimer, State.ctx_modCtx_self, hc]
      rfl
    have core := State.core_handSlot i i .noWrapper v
    rw [if_pos rfl, State.core_of_ctx at_v, Option.map_some, ← Context.core_handed] at core
    obtain ⟨d, hd, e⟩ := Option.map_eq_some_iff.mp core
    obtain ⟨o, j, w, l, n, k, rfl⟩ := Context.exists_of_core e
    have handed : Context.handed .noWrapper { c with timer := none } = { c with
        timer := none, reasons := insertReason .noWrapper c.reasons, verdict := some .rework } := by
      unfold Context.handed
      rw [if_neg out]
      simp only [pass]
      rw [if_pos ⟨head, trivial, by decide⟩]
      rfl
    rw [handed] at hd
    refine ⟨_, _, by rw [run, stopped], hd, head, rfl, rfl, rfl, ?_⟩
    rw [State.handSlot_of_ctx at_v]
    exact State.due_handReason (State.named_of_ctx at_v) out pass (by decide) head

end Sys2Proof.Proofs
end

