-- ==== Sys2Proof/Proofs/Slice0/Arbiter.lean ====
section
/-! How the order of a unit leaves (R113, R156), and the arbiter of the car (R99, R103). -/

namespace Sys2Proof.Machine

open Sys2Proof

section
variable {s t u : State} {h : Holder} {l : Lane} {x y : Candidate}

/-! ### Orders of one slot (R113, R156) -/

/-- The order of a unit leaves as R156 gives, by what taking it from its slot gives. -/
theorem State.orderOut_offer {r : RoleInst} {kind : Byte} {payload : List Byte} {held placed unsent : State}
    (one : held.heldCount h = 1) (same : placed.ring = held.ring)
    (sent : ∀ a, held.holderOf r = some a →
      held.take h = (some ⟨addressByte a, held.ownAddress, kind, payload⟩, placed))
    (kept : held.holderOf r = none → held.take h = (none, unsent))
    (gone : ∀ t, (placed.place t).heldCount h = 0) (dropped : unsent.heldCount h = 0) :
    State.OrderOut h r kind payload held placed unsent (held.offer h) where
  keeps waits := by
    rw [State.offer_one one, if_pos waits]
  joins waits busy := by
    have more : held.hasMore h = true := by simp [State.hasMore, one]
    rw [State.offer_of_busy more busy, if_neg waits]
    rfl
  leaves free room a holder := by
    have given := State.giveOne_of_some (sent a holder)
    rw [State.offer_of_free one free room (by rw [given]; simp [State.hasMore, gone]), given, ← same]
    rfl
  nobody free room holder := by
    have given := State.giveOne_of_none (kept holder)
    rw [State.offer_of_free one free room (by rw [given]; simp [State.hasMore, dropped]), given]

/-- What taking from a holder keeps, and the ring's queues do not show, an offer keeps. -/
theorem State.offer_keeps {α : Type} (f : State → α) (h : Holder) (taken : ∀ s : State, f (s.take h).2 = f s)
    (ring : ∀ (s : State) (g : RingPort → RingPort), f (s.onRing g) = f s) (s : State) : f (s.offer h) = f s := by
  have one (s : State) : f (s.giveOne h) = f s := by
    have same := taken s
    unfold State.giveOne
    split
    next e => rw [e] at same; exact (ring _ _).trans same
    next e => rw [e] at same; exact same
  have many (n : Nat) : ∀ s : State, f (State.giveMany n h s) = f s := by
    induction n with
    | zero => exact fun _ => rfl
    | succ n ih =>
      intro s
      unfold State.giveMany
      split
      · exact (ih _).trans (one s)
      · rfl
  obtain ⟨n, eq | eq⟩ := State.offer_cases h s
  · rw [eq, many]
  · rw [eq]
    exact (ring _ _).trans (many n s)

/-! ### CAR_MOVE (R99, R113) -/

theorem CarMove.payload_eq (m : CarMove) : m.payload =
    (match m.source with | some l => BitVec.ofNat 8 (l.val + 1) | none => 0)
      :: (match m.dest with | .wrapper w => BitVec.ofNat 8 (w.val + 1) | .spur => 0) :: licenceField m.licence := by
  rcases m with ⟨_ | _, _ | _, _⟩ <;> rfl

theorem State.take_car {m : CarMove} (order : s.alloc.car.order = some m) :
    s.take .car = (s.toRole .transferCar kCarMove m.payload, s.modCar fun c => { c with order := none }) := by
  unfold State.take
  simp only [order]

theorem State.sendCarMove_out (m : CarMove) (s : State) : State.OrderOut .car .transferCar 0x21
    ((match m.source with | some l => BitVec.ofNat 8 (l.val + 1) | none => 0)
      :: (match m.dest with | .wrapper w => BitVec.ofNat 8 (w.val + 1) | .spur => 0) :: licenceField m.licence)
    (s.modCar fun c => { c with order := some m }) (s.modCar fun c => { c with order := none })
    (s.modCar fun c => { c with order := none }) (s.sendCarMove m) := by
  have taken : (s.modCar fun c => { c with order := some m }).take .car = _ := State.take_car rfl
  refine State.orderOut_offer rfl rfl (fun a holder => ?_) (fun holder => ?_) (fun _ => rfl) rfl
  · rw [taken, CarMove.payload_eq]
    simp only [State.toRole, holder, Option.map_some]
    rfl
  · rw [taken]
    simp only [State.toRole, holder, Option.map_none]
    rfl

/-- What the allocator holds but for the car's order. -/
def Allocator.unordered (a : Allocator) : Allocator := { a with car := { a.car with order := none } }

theorem State.sendCarMove_unordered (m : CarMove) (s : State) :
    (s.sendCarMove m).alloc.unordered = s.alloc.unordered := by
  refine (State.offer_keeps (fun u => u.alloc.unordered) .car (fun u => ?_) (fun _ _ => rfl) _).trans rfl
  cases order : u.alloc.car.order with
  | none => simp only [State.take, order]
  | some m => rw [State.take_car order]; rfl

theorem Allocator.unordered_eq {a b : Allocator} (same : a.unordered = b.unordered) : a.car.state = b.car.state
    ∧ a.car.cargo = b.car.cargo ∧ a.car.source = b.car.source ∧ a.car.dest = b.car.dest :=
  ⟨congrArg (·.car.state) same, congrArg (·.car.cargo) same, congrArg (·.car.source) same, congrArg (·.car.dest) same⟩

/-- A context that moves, with the report before it and the CAR_MOVE after it. -/
theorem State.moved_spec {m : CarMove} {i : Slot} {d : Context} (reported : State.Only [.ring, .mgmt] s t)
    (moved : u = State.sendCarMove m (t.putCtx i (some d))) :
    u.ctx i = some d ∧ State.SameContexts [i] s u ∧ u.alloc.unordered = s.alloc.unordered := by
  have tracked : u.tracker = (t.putCtx i (some d)).tracker := by
    rw [moved]
    exact (State.sendCarMove_only _ _).tracker.resolve_left (by decide)
  refine ⟨?_, fun j out => ?_, ?_⟩
  · show (u.tracker.slots[i]) = _
    rw [tracked]
    exact State.ctx_putCtx_self _ _ _
  · have other : (t.putCtx i (some d)).ctx j = t.ctx j := State.ctx_putCtx_of_ne (fun e => out (by simp [e])) _ _
    calc u.ctx j = (t.putCtx i (some d)).ctx j := congrArg (·.slots[j]) tracked
      _ = t.ctx j := other
      _ = s.ctx j := congrArg (·.slots[j]) (reported.tracker.resolve_left (by decide))
  · rw [moved, State.sendCarMove_unordered]
    exact congrArg Allocator.unordered (reported.alloc.resolve_left (by decide))

/-! ### The choice of the arbiter (R103) -/

/-- What the candidate of a lane is. -/
theorem State.candidate_spec (found : s.candidate l = some x) : x.lane = l ∧ s.laneHead l = some x.slot
    ∧ (∃ c, s.ctx x.slot = some c ∧ c.phase = .atHeadDecided ∧ x.id = ⟨x.slot, c.adm⟩)
    ∧ (x.dest = .spur → s.spurAccount < 6)
    ∧ ∀ w, x.dest = .wrapper w → (s.wrapper w).state = .idle ∧ ∃ r, x.recipe = some r ∧ r ∈ (s.wrapper w).caps := by
  unfold State.candidate at found
  split at found
  next => cases found
  next i head =>
    split at found
    next => cases found
    next c hc =>
      dsimp only at found
      split at found
      next phase =>
        split at found
        next => cases found
        next =>
          obtain ⟨r, -, found⟩ := Option.bind_eq_some_iff.mp found
          obtain ⟨w, idle, rfl⟩ := Option.map_eq_some_iff.mp found
          have fit : ((s.wrapper w).state == .idle && (s.wrapper w).caps.contains r) = true :=
            List.find?_some (p := fun w => (s.wrapper w).state == .idle && (s.wrapper w).caps.contains r) idle
          rw [Bool.and_eq_true, beq_iff_eq, List.contains_iff_mem] at fit
          refine ⟨rfl, head, ⟨c, hc, phase, rfl⟩, nofun, ?_⟩
          intro v dest
          cases dest
          exact ⟨fit.1, r, rfl, fit.2⟩
        next =>
          split at found
          next room =>
            cases found
            exact ⟨rfl, head, ⟨c, hc, phase, rfl⟩, fun _ => room, nofun⟩
          next => cases found
      next => cases found

theorem earliestOf_mem {xs : List Candidate} : earliestOf xs = some x → x ∈ xs := by
  induction xs generalizing x with
  | nil => nofun
  | cons a as ih =>
    intro found
    unfold earliestOf at found
    split at found
    next b later =>
      split at found
      · cases found; exact .tail _ (ih later)
      · cases found; exact .head _
    next => cases found; exact .head _

theorem earliestOf_none {xs : List Candidate} (none : earliestOf xs = none) : xs = [] := by
  cases xs with
  | nil => rfl
  | cons a as =>
    unfold earliestOf at none
    split at none
    · split at none <;> cases none
    · cases none

/-- The earliest of some candidates in lane order, the lowest lane of equals. -/
theorem earliestOf_least {xs : List Candidate} (order : xs.Pairwise fun a b => a.lane ≤ b.lane) :
    earliestOf xs = some x → ∀ y ∈ xs, x.time < y.time ∨ (x.time = y.time ∧ x.lane ≤ y.lane) := by
  induction xs generalizing x with
  | nil => nofun
  | cons a as ih =>
    obtain ⟨first, order⟩ := List.pairwise_cons.mp order
    intro found y mem
    unfold earliestOf at found
    split at found
    next b later =>
      have rest := ih order later
      split at found
      next before =>
        cases found
        obtain rfl | mem := List.mem_cons.mp mem
        · exact .inl before
        · exact rest y mem
      next before =>
        cases found
        obtain rfl | mem := List.mem_cons.mp mem
        · exact .inr ⟨rfl, le_refl _⟩
        · have := first y mem
          rcases rest y mem with h | ⟨h, -⟩
          · exact .inl (by omega)
          · exact (Nat.lt_or_ge a.time y.time).imp id fun ge => ⟨by omega, this⟩
    next empty =>
      cases found
      obtain rfl := earliestOf_none empty
      cases List.mem_singleton.mp mem
      exact .inr ⟨rfl, le_refl _⟩

theorem State.candidates_ordered (s : State) : (allLanes.filterMap s.candidate).Pairwise fun a b => a.lane ≤ b.lane := by
  refine List.Pairwise.filterMap _ ?_ (List.pairwise_le_finRange 8)
  intro a b le x hx y hy
  rw [(State.candidate_spec hx).1, (State.candidate_spec hy).1]
  exact le

theorem State.chosen_least (chosen : s.chosen = some x) (found : s.candidate l = some y) :
    x.time < y.time ∨ (x.time = y.time ∧ x.lane ≤ l) := by
  have mem : y ∈ allLanes.filterMap s.candidate := List.mem_filterMap.mpr ⟨l, List.mem_finRange l, found⟩
  have least := earliestOf_least s.candidates_ordered chosen y mem
  rwa [(State.candidate_spec found).1] at least

theorem State.chosen_candidate (chosen : s.chosen = some x) : s.candidate x.lane = some x := by
  obtain ⟨l, -, found⟩ := List.mem_filterMap.mp (earliestOf_mem chosen)
  rwa [(State.candidate_spec found).1]

/-! ### The move of the arbiter (R99, R103) -/

/-- The arbiter is no longer due. -/
def State.settled (s : State) : State := s.onAlloc fun a => { a with arbiterDue := false }

/-- The car takes up a candidate. -/
def Candidate.load (x : Candidate) (c : Car) : Car :=
  { c with state := .moving, cargo := .context x.id, source := some x.lane, dest := some x.dest, recipe := x.recipe }

theorem State.settle_idle {cause : Config.UnitCause} (due : s.alloc.arbiterDue = true)
    (off : s.alloc.car.state ≠ .idle ∨ s.chosen = none) : s.settle cause = s.settled := by
  unfold State.settle
  rw [if_pos due]
  show s.settled.arbitrate cause = _
  unfold State.arbitrate
  split
  next idle =>
    have empty : s.settled.chosen = none := off.resolve_left fun moving => moving idle
    rw [empty]
  next => rfl

/-- The move the arbiter starts for a candidate that is there. -/
theorem State.startMove_eq {cause : Config.UnitCause} {c : Context} (idle : s.alloc.car.state = .idle)
    (hc : s.ctx x.slot = some c) (id : x.id = ⟨x.slot, c.adm⟩) : s.startMove cause x =
      State.sendCarMove ⟨some x.lane, x.dest, c.licence⟩ (State.putCtx x.slot
        (some { c with phase := .moving, timer := some s.ctl.params.carMoveLimit })
        ((s.modCar x.load).report (.unit ⟨.car .idle .moving, cause, .context x.slot c.licence⟩))) := by
  have named : (s.modCar x.load).named x.id = some c := by rw [id]; exact State.named_of_ctx (s := s.modCar x.load) hc
  have set : s.setCar cause x.load =
      (s.modCar x.load).report (.unit ⟨.car .idle .moving, cause, .context x.slot c.licence⟩) := by
    unfold State.setCar State.reportCar
    rw [idle]
    refine (if_neg (by show CarState.idle ≠ .moving; decide)).trans ?_
    show State.report (.unit ⟨.car .idle .moving, cause, .context x.id.slot
      (((s.modCar x.load).named x.id).bind (·.licence))⟩) _ = _
    rw [named, id]
    rfl
  generalize reported : (s.modCar x.load).report (.unit ⟨.car .idle .moving, cause, .context x.slot c.licence⟩) = v at set
  have only : State.Only [.ring, .mgmt] (s.modCar x.load) v := reported ▸ State.report_only _ _
  have there : v.ctx x.slot = some c := by
    unfold State.ctx
    rw [only.tracker.resolve_left (by decide)]
    exact hc
  have params : v.params = s.ctl.params := by
    unfold State.params
    rw [only.ctl.resolve_left (by decide)]
    rfl
  unfold State.startMove
  show State.sendCarMove ⟨some x.lane, x.dest, (((s.setCar cause x.load).enter x.slot .moving
    (some (s.setCar cause x.load).params.carMoveLimit)).ctx x.slot).bind (·.licence)⟩ ((s.setCar cause x.load).enter x.slot .moving
    (some (s.setCar cause x.load).params.carMoveLimit)) = _
  rw [set, State.enter_of_ctx there, params, State.ctx_putCtx_self]
  rfl

end

end Sys2Proof.Machine

namespace Sys2Proof.Proofs

open Sys2Proof Sys2Proof.Machine

/-- Settles O25, from the candidates of the lanes and the move that starts for the earliest. -/
theorem arbiterServesTheEarliest : Obligations.ArbiterServesTheEarliest := by
  refine ⟨fun s m => State.sendCarMove_out m s, fun s cause => ⟨?_, State.settle_idle, ?_⟩⟩
  · intro notDue
    unfold State.settle
    rw [notDue]
    rfl
  · intro x c due idle chosen hc
    have found := State.chosen_candidate chosen
    obtain ⟨-, head, ⟨c', hc', phase, id⟩, spur, wrapper⟩ := State.candidate_spec found
    obtain rfl : c = c' := Option.some.inj (hc.symm.trans hc')
    refine ⟨found, head, phase, fun l y => State.chosen_least chosen, spur, wrapper, ?_⟩
    have move : s.settle cause = _ := calc
      s.settle cause = s.settled.startMove cause x := by
        unfold State.settle State.arbitrate
        rw [if_pos due]
        refine (if_pos idle).trans ?_
        have chosen : s.settled.chosen = some x := chosen
        show (match s.settled.chosen with | some x => s.settled.startMove cause x | none => s.settled) = _
        rw [chosen]
      _ = _ := State.startMove_eq (s := s.settled) idle hc id
    have only := State.settle_only cause s
    generalize s.settle cause = u at move only
    obtain ⟨there, others, alloc⟩ := State.moved_spec (State.report_only _ _) move
    obtain ⟨state, cargo, source, dest⟩ := Allocator.unordered_eq alloc
    refine ⟨u, { c with phase := .moving, timer := some s.ctl.params.carMoveLimit }, rfl, state, ?_, dest, source,
      there, rfl, others, only, s.settled.modCar x.load, ?_,
      ((State.onAlloc_only _ _).trans (State.modCar_only _ _)), move⟩
    · rw [cargo, ← id]
      rfl
    · rw [← id]
      rfl

end Sys2Proof.Proofs
end

