-- ==== Sys2Proof/Proofs/Slice0/CompositionEnds.lean ====
section
/-! The completion of a composition: the record kept, or a ticket asked for (R128, R129, R131). -/

namespace Sys2Proof.Machine

open Sys2Proof

/-- What a reading of a context's record shows is the same of every open context in both states. -/
def State.SameOf {α : Type} (f : Context → α) (s t : State) : Prop := ∀ i, (t.ctx i).map f = (s.ctx i).map f

/-- A reading of a record that shows neither the job nor the orders. -/
def Context.Jobless {α : Type} (f : Context → α) : Prop := ∀ c os j, f { c with orders := os, job := j } = f c

section
variable {α : Type} {f : Context → α} {s t u : State} {i : Slot} {c : Context}

theorem State.SameOf.refl (s : State) : s.SameOf f s := fun _ => rfl

theorem State.SameOf.trans (h : s.SameOf f t) (k : t.SameOf f u) : s.SameOf f u := fun i => (k i).trans (h i)

theorem State.SameOf.ite {p : Prop} [Decidable p] (h : s.SameOf f t) (k : s.SameOf f u) :
    s.SameOf f (if p then t else u) := by
  split
  · exact h
  · exact k

theorem State.SameOf.of_tracker (h : t.tracker = s.tracker) : s.SameOf f t := fun i =>
  congrArg (fun x : Tracker => (x.slots[i]).map f) h

theorem State.sameOf_modCtx {g : Context → Context} (same : ∀ c, f (g c) = f c) : s.SameOf f (s.modCtx i g) := fun j => by
  rw [State.ctx_modCtx]
  split
  next e =>
    subst e
    rw [Option.map_map]
    exact Option.map_congr fun c _ => same c
  next => rfl

/-! ### Jobs (R136, R146) -/

theorem Context.Jobless.segmentPlaced (jobless : Context.Jobless f) (c : Context) (rest : List Order) (o : Order) :
    f ({ c with orders := rest }.segmentPlaced o) = f c := by
  unfold Context.segmentPlaced
  split
  · split
    · exact jobless c rest c.job
    · exact jobless c rest _
  · exact jobless c rest c.job

theorem State.sameOf_take (jobless : Context.Jobless f) (s : State) : s.SameOf f (s.take (.context i)).2 := by
  simp only [State.take]
  split
  · exact State.sameOf_modCtx fun c => jobless.segmentPlaced c _ _
  · exact .refl s

theorem State.sameOf_offer (jobless : Context.Jobless f) (s : State) : s.SameOf f (s.offer (.context i)) := fun j =>
  State.offer_keeps (fun u => (u.ctx j).map f) (.context i) (fun u => State.sameOf_take jobless u j) (fun _ _ => rfl) s

theorem State.sameOf_startJob (jobless : Context.Jobless f) (dst : RoleInst) (s : State) :
    s.SameOf f (s.startJob dst i) := by
  unfold State.startJob State.sendOrders
  split
  · exact (State.sameOf_modCtx fun c => jobless c c.orders _).trans
      ((State.sameOf_modCtx fun c => jobless c _ c.job).trans (State.sameOf_offer jobless _))
  · exact .refl s

theorem State.sameOf_startJobs (jobless : Context.Jobless f) (k : LineNo) (s : State) : s.SameOf f (s.startJobs k) := by
  unfold State.startJobs
  split
  · exact .refl s
  next i rest _ =>
    have first : s.SameOf f (if (s.ctx i).any Context.startable then s.startJob (.labelApplicator k) i else s) :=
      .ite (State.sameOf_startJob jobless _ s) (.refl s)
    dsimp only
    split
    · exact .ite (first.trans (State.sameOf_startJob jobless _ _)) first
    · exact first

theorem State.sameOf_startTicket (jobless : Context.Jobless f) (s : State) : s.SameOf f s.startTicket := by
  unfold State.startTicket
  split
  · exact .ite (State.sameOf_startJob jobless _ s) (.refl s)
  · exact .refl s

theorem State.sameOf_recordReported (jobless : Context.Jobless f) (s : State) : s.SameOf f (s.recordReported i) := by
  unfold State.recordReported
  split
  · exact State.sameOf_startJobs jobless _ s
  · exact .ite (State.sameOf_startTicket jobless s) (.refl s)

/-! ### The next composition (R127, R128) -/

/-- What the start of a queued composition does: a context may become IN_FLIGHT, and what is then in flight, if
something new, is for an open context. -/
theorem State.startQueued_spec (rs : List CompRequest) (s : State) :
    (s.startQueued rs).composer.nextSerial = s.composer.nextSerial
    ∧ (∀ i, (s.startQueued rs).ctx i = s.ctx i
      ∨ (s.startQueued rs).ctx i = (s.ctx i).map fun c => { c with compStatus := .inFlight })
    ∧ ∀ x, (s.startQueued rs).composer.flight = some x → s.composer.flight = some x ∨ s.named x.ctx ≠ none := by
  induction rs with
  | nil => exact ⟨rfl, fun _ => .inl rfl, fun _ => .inl⟩
  | cons r rs ih =>
    unfold State.startQueued
    split
    next c named =>
      refine ⟨rfl, fun i => ?_, fun x flight => .inr ?_⟩
      · unfold State.startComposition
        rw [State.ctx_modCtx]
        split
        next e => subst e; exact .inr rfl
        next => exact .inl rfl
      · cases flight
        exact fun closed => Option.some_ne_none _ (named.symm.trans closed)
    next => exact ih

theorem State.startNext_spec (s : State) :
    s.startNext.composer.nextSerial = s.composer.nextSerial
    ∧ (∀ i, s.startNext.ctx i = s.ctx i ∨ s.startNext.ctx i = (s.ctx i).map fun c => { c with compStatus := .inFlight })
    ∧ ∀ x, s.startNext.composer.flight = some x → s.composer.flight = some x ∨ s.named x.ctx ≠ none := by
  unfold State.startNext
  split
  · exact ⟨rfl, fun _ => .inl rfl, fun _ => .inl⟩
  · exact State.startQueued_spec _ s

/-! ### The completion (R129, R131) -/

theorem exec_compositionComplete (awake : s.ctl.inReset = false) :
    exec .compositionComplete s = .next s.compositionDone := by
  show Host.Outcome.next (s.awake _) = _
  rw [State.awake_of_running awake]

/-- The composition in flight has left. -/
def State.landed (s : State) : State := s.onComposer fun x => { x with flight := none }

section
variable {w : Flight}

theorem State.completeComposition_of_closed (flight : s.composer.flight = some w) (closed : s.named w.ctx = none) :
    s.completeComposition = s.landed.startNext := by
  unfold State.completeComposition
  rw [flight]
  have closed : s.landed.named w.ctx = none := closed
  show (match s.landed.named w.ctx with | none => s.landed.startNext | some c => _) = _
  rw [closed]

theorem State.completeComposition_of_open (flight : s.composer.flight = some w) (named : s.named w.ctx = some c) :
    s.completeComposition =
      if w.kept c then ((s.landed.keepRecord w).recordReported w.ctx.slot).startNext
      else (s.landed.queueComposition w.ctx .rejectTicket).startNext := by
  unfold State.completeComposition
  rw [flight]
  have named : s.landed.named w.ctx = some c := named
  show (match s.landed.named w.ctx with | none => s.landed.startNext | some c => _) = _
  rw [named]
  rfl

/-- A kept record, in the context and in the serials, once the Dispatcher is told and the next composition started. -/
theorem State.kept_spec (hc : s.ctx w.ctx.slot = some c) :
    ∃ d, ((s.keepRecord w).recordReported w.ctx.slot).startNext.ctx w.ctx.slot = some d
      ∧ d.label = some (w.record s.composer.nextSerial) ∧ d.labelSerial = some s.composer.nextSerial
      ∧ d.verdict = c.verdict ∧ d.phase = c.phase
      ∧ ((s.keepRecord w).recordReported w.ctx.slot).startNext.composer.nextSerial = serialAfter s.composer.nextSerial := by
  obtain ⟨k, hk⟩ : ∃ k : Context, k = { c with label := some (w.record s.composer.nextSerial)
                                               labelSerial := some s.composer.nextSerial, compStatus := .composed } := ⟨_, rfl⟩
  have kept : (s.keepRecord w).ctx w.ctx.slot = some k := by
    rw [hk, State.keepRecord, State.ctx_modCtx_self]
    show (s.ctx w.ctx.slot).map _ = _
    rw [hc]
    rfl
  have told := State.sameOf_recordReported (f := fun c => (c.label, c.labelSerial, c.verdict, c.phase)) (i := w.ctx.slot)
    (fun _ _ _ => rfl) (s.keepRecord w) w.ctx.slot
  have composer : ((s.keepRecord w).recordReported w.ctx.slot).composer = _ :=
    (State.recordReported_only _ _).composer.resolve_left (by decide)
  generalize (s.keepRecord w).recordReported w.ctx.slot = u at told composer
  obtain ⟨serial, contexts, -⟩ := State.startNext_spec u
  obtain ⟨e, he, same⟩ := Option.map_eq_some_iff.mp (told.trans (congrArg _ kept))
  have shown : ∃ d, u.startNext.ctx w.ctx.slot = some d
      ∧ (d.label, d.labelSerial, d.verdict, d.phase) = (e.label, e.labelSerial, e.verdict, e.phase) := by
    rcases contexts w.ctx.slot with h | h
    · exact ⟨e, h.trans he, rfl⟩
    · exact ⟨{ e with compStatus := .inFlight }, h.trans (congrArg _ he), rfl⟩
  obtain ⟨d, hd, shown⟩ := shown
  have shown := shown.trans same
  simp only [hk, Prod.mk.injEq] at shown
  exact ⟨d, hd, shown.1, shown.2.1, shown.2.2.1, shown.2.2.2, serial.trans (congrArg _ composer)⟩

/-- A ticket asked for in place of a dropped result. -/
theorem State.dropped_spec (hc : s.ctx w.ctx.slot = some c) :
    ∃ d, (s.queueComposition w.ctx .rejectTicket).startNext.ctx w.ctx.slot = some d ∧ d.label = c.label
      ∧ (s.queueComposition w.ctx .rejectTicket).startNext.composer.nextSerial = s.composer.nextSerial
      ∧ (d.compStatus = .queued ∨ d.compStatus = .inFlight) := by
  have queued : (s.queueComposition w.ctx .rejectTicket).ctx w.ctx.slot = some { c with compStatus := .queued } := by
    rw [State.queueComposition, State.ctx_modCtx_self]
    show (s.ctx w.ctx.slot).map _ = _
    rw [hc]
    rfl
  obtain ⟨serial, contexts, -⟩ := State.startNext_spec (s.queueComposition w.ctx .rejectTicket)
  rcases contexts w.ctx.slot with h | h
  · exact ⟨_, h.trans queued, rfl, serial, .inl rfl⟩
  · exact ⟨_, h.trans (congrArg _ queued), rfl, serial, .inr rfl⟩

end

end

end Sys2Proof.Machine

namespace Sys2Proof.Proofs

open Sys2Proof Sys2Proof.Machine

/-- Settles O42, from what a completion and the start of the next composition do to a record. -/
theorem compositionCompletes : Obligations.CompositionCompletes := by
  intro s awake
  rw [exec_compositionComplete awake]
  refine ⟨fun running => ?_, fun w flight expired => ?_⟩
  · have notOver : s.compositionDone = s := by
      refine if_neg fun expired => ?_
      obtain ⟨w, flight, zero⟩ := (Option.any_eq_true _ _).mp expired
      exact running w flight (beq_iff_eq.mp zero)
    rw [notOver]
  · have done : s.compositionDone = s.completeComposition := if_pos (by simp [flight, expired])
    rw [done]
    refine ⟨fun closed => ?_, fun c named => ?_⟩
    · rw [State.completeComposition_of_closed flight closed]
      obtain ⟨serial, -, flights⟩ := State.startNext_spec s.landed
      refine ⟨_, rfl, serial, fun same => ?_⟩
      rcases flights w same with none | opened
      · cases none
      · exact opened closed
    · have hc := (State.named_eq_some named).1
      have kept_iff : w.kept c = true ↔ w.kind = .rejectTicket ∨ (w.ticketWaiting = false ∧ c.verdict = some .pass) := by
        simp [Flight.kept]
      rw [State.completeComposition_of_open flight named]
      refine ⟨fun kept => ?_, fun kind other => ?_⟩
      · rw [if_pos (kept_iff.mpr kept)]
        obtain ⟨d, rest⟩ := State.kept_spec (s := s.landed) hc
        exact ⟨_, d, rfl, rest⟩
      · have notKept : ¬ w.kept c = true := by
          rw [kept_iff, kind]
          rcases other with waits | verdict
          · simp [waits]
          · simp [verdict]
        rw [if_neg notKept]
        obtain ⟨d, rest⟩ := State.dropped_spec (s := s.landed) hc
        exact ⟨_, d, rfl, rest⟩

end Sys2Proof.Proofs
end

