-- ==== Sys2Proof/Proofs/Slice0/JobsTaken.lean ====
section
/-! JOB_TAKEN: the job that waits for its serial is TAKEN (R137, R146). -/

namespace Sys2Proof.Machine

open Sys2Proof

section
variable {s : State} {dst src : Byte} {p : List Byte} {k : LineNo} {a : Option LineNo} {e : LabelEvent} {n : Nat}
  {i : Slot} {c : Context} {j : Job}

/-- A command that is a LABEL_EVENT of an applicator, in the state that screening and forwarding leave. -/
theorem exec_labelEvent {x : Instr} (hears : s.Hears src) (short : p.length ≤ 120)
    (takes : exec x s = .next (s.arrive ⟨dst, src, kLabelEvent, p⟩)) (role : s.roleOf src applicatorRole = some a)
    (read : whole takeLabelEvent p = some e) :
    exec x s = .next ((s.passed ⟨dst, src, kLabelEvent, p⟩).labelEvent src a e) :=
  exec_handed (t := ⟨dst, src, kLabelEvent, p⟩) (u := fun s => s.labelEvent src a e) hears short
    (show kLabelEvent ≠ kMgmtRequest by decide) takes
    (State.hand_labelEvent ((State.passed_roleOf _ s src applicatorRole).trans role) read)

theorem State.jobTaken_of_job (hc : s.ctx i = some c) (job : c.job = some j) :
    s.jobTaken i = s.putCtx i (some { c with job := some { j with stage := .taken } }) := by
  rw [State.jobTaken, State.modCtx_of_ctx hc, job]
  rfl

theorem State.lineJobTaken_of_some
    (first : (s.line k).find? (fun i => (s.ctx i).any fun c => c.awaitsTaken n) = some i) :
    s.lineJobTaken k n src = s.jobTaken i := by
  unfold State.lineJobTaken
  rw [first]

theorem State.lineJobTaken_of_none
    (first : (s.line k).find? (fun i => (s.ctx i).any fun c => c.awaitsTaken n) = none) :
    s.lineJobTaken k n src = s.stray kLabelEvent src none none .noCandidate := by
  unfold State.lineJobTaken
  rw [first]

theorem State.ticketTaken_eq : s.ticketTaken n src =
    match s.ticketWith fun j => j.serial == n && j.stage != .taken with
    | some i => s.jobTaken i
    | none => s.stray kLabelEvent src none none .noCandidate := rfl

/-- The first of the ticket order, where its job fits. -/
theorem State.ticketWith_of_job {rest : List Slot} {q : Job → Bool} (order : s.labels.tickets = i :: rest)
    (hc : s.ctx i = some c) (job : c.job = some j) (fit : q j = true) : s.ticketWith q = some i := by
  simp [State.ticketWith, order, hc, job, fit]

/-- No ticket context is first, or the first has no job that fits. -/
theorem State.ticketWith_eq_none {q : Job → Bool} (off : s.labels.tickets = [] ∨ ∃ i rest c,
    s.labels.tickets = i :: rest ∧ s.ctx i = some c ∧ c.job.any q = false) : s.ticketWith q = none := by
  rcases off with empty | ⟨i, rest, c, order, hc, job⟩
  · simp [State.ticketWith, empty]
  · simp [State.ticketWith, order, hc, job]

end

end Sys2Proof.Machine

namespace Sys2Proof.Proofs

open Sys2Proof Sys2Proof.Machine

/-- Settles O37, by the jobs that wait for the serial at the line or in the ticket order. -/
theorem jobTaken : Obligations.JobTaken := by
  rintro s dst src b n hears short ⟨_, read, rfl⟩
  have taken (a : Option LineNo) (role : s.roleOf src applicatorRole = some a) :=
    exec_labelEvent (x := .jobTaken dst src b) (dst := dst) hears (by simpa using by omega) rfl role read
  refine ⟨fun k role => ⟨fun i c j first hc job => ?_, fun nobody => ?_⟩,
    fun role => ⟨fun i rest c j order hc job serial stage => ?_, fun off => ?_⟩⟩
  · rw [taken _ role]
    show Host.Outcome.next (State.lineJobTaken _ _ _ _) = _
    rw [State.lineJobTaken_of_some (by simpa using first), State.jobTaken_of_job (by simpa using hc) job]
    rfl
  · rw [taken _ role]
    show Host.Outcome.next (State.lineJobTaken _ _ _ _) = _
    rw [State.lineJobTaken_of_none (by simpa using nobody)]
    rfl
  · rw [taken _ role]
    show Host.Outcome.next (State.ticketTaken _ _ _) = _
    rw [State.ticketTaken_eq, State.ticketWith_of_job (by simpa using order) (by simpa using hc) job (by simp [serial, stage])]
    dsimp only
    rw [State.jobTaken_of_job (by simpa using hc) job]
    rfl
  · rw [taken _ role]
    show Host.Outcome.next (State.ticketTaken _ _ _) = _
    rw [State.ticketTaken_eq, State.ticketWith_eq_none (by simpa [Context.awaitsTaken] using off)]
    rfl

end Sys2Proof.Proofs
end

