-- ==== Sys2Proof/Proofs/Slice0/RingIn.lean ====
section
/-! Ring In: the cases of a valid telegram (R151, R162), and station telegrams that do not fit (R152, R153). -/

namespace Sys2Proof.Machine

open Sys2Proof

section
variable {s u : State} {t : Telegram} {i : Instr}

/-! ### The cases of R151 -/

theorem arrive_of_listening (hears : s.Listening) (short : t.payload.length ≤ 120) :
    s.arrive t = s.arrived.handle t := by
  obtain ⟨awake, -, timed⟩ := hears
  rw [State.arrive_of_valid awake short, Proofs.heard_of_timed timed]

theorem State.handle_of_own (active : s.passive = false) (own : t.src = s.ownAddress) : s.handle t = s := by
  simp [State.handle, active, own]

theorem State.handle_of_request (active : s.passive = false) (other : t.src ≠ s.ownAddress) (own : t.dst = s.ownAddress)
    (kind : t.kind = kMgmtRequest) : s.handle t = s.takeMgmt t := by
  simp [State.handle, active, other, own, kind]

theorem State.handle_of_station (active : s.passive = false) (other : t.src ≠ s.ownAddress)
    (station : ¬ (t.dst = s.ownAddress ∧ t.kind = kMgmtRequest)) : s.handle t = (s.passOn t).hand t := by
  simp [State.handle, active, other, station]

theorem State.passOn_of_own (own : t.dst = s.ownAddress) : s.passOn t = s := if_pos own

theorem State.passOn_of_consumed (other : t.dst ≠ s.ownAddress) (gone : s.consumed t = true) :
    s.passOn t = s.offerScreens t := by
  simp [State.passOn, other, gone]

theorem State.passOn_of_kept (other : t.dst ≠ s.ownAddress) (kept : s.consumed t = false) :
    s.passOn t = (s.offerScreens t).forward t := by
  simp [State.passOn, other, kept]

/-- A kind that is no station telegram's has no block. -/
theorem State.hand_of_other (u : State) (other : t.kind.toNat = 0 ∨ 0x0B < t.kind.toNat) : u.hand t = u := by
  unfold State.hand
  split
  any_goals omega
  rfl

/-! ### A passive part (R162) -/

theorem State.heard_of_start (mode : s.ctl.mode = .start) : s.heard = s.arrived := by
  have ring : s.arrived.ringReturned = s.arrived := by
    unfold State.ringReturned
    rw [State.arrived_ctl, mode]
  show (if s.ring.silence.isNone then s.arrived.ringReturned else s.arrived) = _
  rw [ring, ite_self]

theorem State.handle_of_passive (passive : s.passive = true) : s.handle t = s.forward t := by
  simp [State.handle, passive]

theorem State.forward_of_room (room : s.ring.forward.length < 8) :
    s.forward t = s.onRing fun r => { r with forward := r.forward ++ [t] } := if_pos room

theorem State.forward_of_passive (passive : s.passive = true) (full : 8 ≤ s.ring.forward.length) :
    s.forward t = s.onRing fun r => { r with overload := some (r.overload.getD .forwardFull) } := by
  unfold State.forward
  rw [if_neg (show ¬ s.ring.forward.length < Config.forwardMax from Nat.not_lt.mpr full), if_pos passive]

/-! ### Station telegrams that do not fit (R152, R153) -/

/-- The source of a telegram holds a role that fits its kind (R152). -/
def State.Held (t : Telegram) (s : State) : Bool :=
  match t.kind.toNat with
  | 0x01 => (s.roleOf t.src laneOfReader).isSome
  | 0x02 => (s.roleOf t.src laneOfTunnel).isSome
  | 0x03 => (s.roleOf t.src laneOfTunnel).isSome
  | 0x04 => (s.roleOf t.src laneOfTunnel).isSome
  | 0x05 => (s.roleOf t.src laneOfMeasure).isSome
  | 0x06 => (s.roleOf t.src laneOfMeasure).isSome
  | 0x07 => (s.rolesAt t.src).contains .transferCar
  | 0x08 => (s.roleOf t.src wrapperOf).isSome
  | 0x09 => (s.roleOf t.src applicatorRole).isSome
  | 0x0A => (s.roleOf t.src lineOfSwitch).isSome
  | 0x0B => (s.rolesAt t.src).contains .rejectSpur
  | _ => false

theorem State.held_passed (s : State) (t : Telegram) : (s.passed t).Held t = s.Held t := by simp [State.Held]

/-- The payload of a telegram fits the layout of its kind (R153). -/
def layoutFits (t : Telegram) : Bool :=
  match t.kind.toNat with
  | 0x01 => (whole takeLicence t.payload).isSome
  | 0x02 => (whole takeLicence t.payload).isSome
  | 0x03 => (whole takeCase t.payload).isSome
  | 0x04 => (whole (pure ()) t.payload).isSome
  | 0x05 => (whole takeMeasure t.payload).isSome
  | 0x06 => (whole (pure ()) t.payload).isSome
  | 0x07 => (whole (takeEvent 3) t.payload).isSome
  | 0x08 => (whole (takeEvent 5) t.payload).isSome
  | 0x09 => (whole takeLabelEvent t.payload).isSome
  | 0x0A => (whole takeRouted t.payload).isSome
  | 0x0B => (whole (takeNat 1) t.payload).isSome
  | _ => true

theorem State.fitting_of_unfit {α : Type} {r : Reader α} {use : α → State → State}
    (unread : (whole r t.payload).isSome = false) : s.fitting t r use = s.badPayload t := by
  rw [Option.isSome_eq_false_iff, Option.isNone_iff_eq_none] at unread
  simp only [State.fitting, unread]

theorem State.hand_of_not_held (off : s.Held t = false) : s.hand t = s := by
  unfold State.Held at off
  unfold State.hand
  split
  case h_1 code | h_2 code | h_3 code | h_4 code | h_5 code | h_6 code | h_8 code | h_9 code | h_10 code =>
    simp only [code, Option.isSome_eq_false_iff, Option.isNone_iff_eq_none] at off
    rw [off]
  case h_7 code | h_11 code =>
    simp only [code] at off
    rw [off, if_neg Bool.false_ne_true]
  case h_12 => rfl

theorem State.hand_of_unfit (held : s.Held t = true) (unfit : layoutFits t = false) : s.hand t = s.badPayload t := by
  unfold State.Held at held
  unfold layoutFits at unfit
  unfold State.hand
  split
  case h_1 code | h_2 code | h_3 code | h_4 code | h_5 code | h_6 code | h_8 code | h_9 code | h_10 code =>
    simp only [code] at held unfit
    obtain ⟨a, role⟩ := Option.isSome_iff_exists.mp held
    rw [role]
    exact State.fitting_of_unfit unfit
  case h_7 code | h_11 code =>
    simp only [code] at held unfit
    rw [held, if_pos rfl]
    exact State.fitting_of_unfit unfit
  case h_12 => simp_all

/-- A command that is a heard station telegram, of a source without a role that fits its kind (R152). -/
theorem exec_unheld (hears : s.Hears t.src) (short : t.payload.length ≤ 120) (kind : t.kind ≠ kMgmtRequest)
    (takes : exec i s = .next (s.arrive t)) (off : s.Held t = false) : exec i s = .next (s.passed t) :=
  exec_handed (u := id) hears short kind takes (State.hand_of_not_held (by rw [State.held_passed, off]))

/-- A command that is a heard station telegram, whose payload does not fit its layout (R153). -/
theorem exec_unfit (hears : s.Hears t.src) (short : t.payload.length ≤ 120) (kind : t.kind ≠ kMgmtRequest)
    (takes : exec i s = .next (s.arrive t)) (held : s.Held t = true) (unfit : layoutFits t = false) :
    exec i s = .next ((s.passed t).report (.ring (.badPayload t.kind t.src t.payload.length))) :=
  exec_handed (u := State.badPayload t) hears short kind takes
    (State.hand_of_unfit (by rw [State.held_passed, held]) unfit)

end

end Sys2Proof.Machine

namespace Sys2Proof.Proofs

open Sys2Proof Sys2Proof.Machine

/-- The first part of O7: a part that hears the ring takes a telegram by the first case of R151 that applies. -/
theorem ringIn_listening (s : State) (t : Telegram) (hears : s.Listening) (short : t.payload.length ≤ 120) :
    (t.src = s.ownAddress → exec (.ringInTelegram t) s = .next s.arrived)
    ∧ (t.src ≠ s.ownAddress → t.dst = s.ownAddress → t.kind = 0x30 →
        exec (.ringInTelegram t) s = .next (s.arrived.takeMgmt t))
    ∧ (t.src ≠ s.ownAddress → t.dst = s.ownAddress → t.kind ≠ 0x30 →
        exec (.ringInTelegram t) s = .next (s.arrived.hand t))
    ∧ (t.src ≠ s.ownAddress → t.dst ≠ s.ownAddress → s.arrived.consumed t = true →
        exec (.ringInTelegram t) s = .next ((s.arrived.offerScreens t).hand t))
    ∧ (t.src ≠ s.ownAddress → t.dst ≠ s.ownAddress → s.arrived.consumed t = false →
        exec (.ringInTelegram t) s = .next (((s.arrived.offerScreens t).forward t).hand t)) := by
  rw [exec_ringInTelegram, arrive_of_listening hears short]
  have active : s.arrived.passive = false := hears.2.1
  refine ⟨fun own => ?_, fun other own kind => ?_, fun other own kind => ?_, fun other far gone => ?_,
    fun other far kept => ?_⟩
  · rw [State.handle_of_own active own]
  · rw [State.handle_of_request active other own kind]
  · rw [State.handle_of_station active other fun both => kind both.2, State.passOn_of_own (s := s.arrived) own]
  · rw [State.handle_of_station active other fun both => far both.1, State.passOn_of_consumed (s := s.arrived) far gone]
  · rw [State.handle_of_station active other fun both => far both.1, State.passOn_of_kept (s := s.arrived) far kept]

/-- Settles O7, from the cases of a part that hears the ring and of a passive part. -/
theorem ringInCases : Obligations.RingInCases := by
  refine ⟨fun s t hears short => ?_, fun s t awake passive mode short => ?_⟩
  · obtain ⟨own, request, station, gone, kept⟩ := ringIn_listening s t hears short
    exact ⟨own, request, station, gone, kept, State.hand_of_other⟩
  · have takes : exec (.ringInTelegram t) s = .next (s.arrived.forward t) := by
      rw [exec_ringInTelegram, State.arrive_of_valid awake short, State.heard_of_start mode,
        State.handle_of_passive (s := s.arrived) passive]
    refine ⟨_, takes, fun room => ?_, fun full => ?_, ?_⟩
    · rw [State.forward_of_room (s := s.arrived) room]
      rfl
    · rw [State.forward_of_passive (s := s.arrived) passive full]
      rfl
    · rcases Nat.lt_or_ge s.ring.forward.length 8 with room | full
      · rw [State.forward_of_room (s := s.arrived) room]
        exact (State.arrived_only s).next (State.onRing_only _ _)
      · rw [State.forward_of_passive (s := s.arrived) passive full]
        exact (State.arrived_only s).next (State.onRing_only _ _)

end Sys2Proof.Proofs
end

