-- ==== Sys2Proof/Proofs/Slice0/Unfit.lean ====
section
/-! Station telegrams whose source or payload does not fit their kind (R152, R153). -/

namespace Sys2Proof.Machine

open Sys2Proof

section
variable {s : State} {t : Telegram} {i : Instr} {dst src : Byte} {p : List Byte}

/-! ### What no layout reads (section 9.1) -/

theorem whole_pure_of_ne_nil (some : p ≠ []) : (whole (pure ()) p).isSome = false := by
  cases p with
  | nil => exact absurd rfl some
  | cons b bs => rfl

/-- A layout that leaves bytes, or cannot be read, does not fit. -/
theorem whole_of_run {α : Type} {r : Reader α} (off : ∀ a, r.run p ≠ some (a, [])) : (whole r p).isSome = false := by
  unfold whole
  split
  next a run => exact absurd run (off a)
  next => rfl

theorem run_takeNat (k : Nat) (p : List Byte) : (takeNat k).run p =
    if k ≤ p.length then some (ofBytes (p.take k), p.drop k) else none := by
  show (takeBytes k p).bind _ = _
  unfold takeBytes
  split
  · rfl
  · rfl

theorem whole_takeNat_of_length {k : Nat} (length : p.length ≠ k) : (whole (takeNat k) p).isSome = false := by
  refine whole_of_run fun a => ?_
  rw [run_takeNat]
  split
  next fits =>
    intro read
    have rest : p.drop k = [] := congrArg Prod.snd (Option.some.inj read)
    exact length (Nat.le_antisymm (List.drop_eq_nil_iff.mp rest) fits)
  next => nofun

theorem run_takeEvent (n : Nat) (e : Byte) (rest : List Byte) : (takeEvent n).run (e :: rest) =
    if 1 ≤ e.toNat ∧ e.toNat ≤ n then some (e.toNat, rest) else none := by
  show (if _ then _ else _ : Reader Nat) rest = _
  split
  · rfl
  · rfl

theorem whole_takeEvent_of_length {n : Nat} (length : p.length ≠ 1) : (whole (takeEvent n) p).isSome = false := by
  cases p with
  | nil => rfl
  | cons e rest =>
    refine whole_of_run fun a => ?_
    rw [run_takeEvent]
    split
    · intro read
      have rest : rest = [] := congrArg Prod.snd (Option.some.inj read)
      exact length (by rw [rest]; rfl)
    · nofun

theorem whole_takeEvent_of_range {n : Nat} {e : Byte} (off : e.toNat = 0 ∨ n < e.toNat) :
    (whole (takeEvent n) [e]).isSome = false := by
  refine whole_of_run fun a => ?_
  rw [run_takeEvent, if_neg (by omega)]
  nofun

/-- The layout of a LABEL_EVENT behind its event byte. -/
def takeLabelRest : Nat → Reader LabelEvent
  | 1 => do return .jobTaken (← takeNat 3)
  | 2 => return .palletAtLabel
  | 3 => do
    let n ← takeNat 3
    let l ← takeLicence
    return .applied n (presentLicence l)
  | _ => return .applyFault

theorem run_takeLabelEvent (e : Byte) (rest : List Byte) : takeLabelEvent.run (e :: rest) =
    if 1 ≤ e.toNat ∧ e.toNat ≤ 4 then (takeLabelRest e.toNat).run rest else none := by
  show ((takeEvent 4).run (e :: rest)).bind _ = _
  rw [run_takeEvent]
  split
  next =>
    show (match e.toNat with | 1 => _ | 2 => _ | 3 => _ | _ => _ : Reader LabelEvent) rest = _
    generalize e.toNat = k
    match k with
    | 0 => rfl
    | 1 => rfl
    | 2 => rfl
    | 3 => rfl
    | k + 4 => rfl
  next => rfl

theorem whole_takeLabelEvent_of_range {e : Byte} (off : e.toNat = 0 ∨ 4 < e.toNat) :
    (whole takeLabelEvent (e :: p)).isSome = false := by
  refine whole_of_run fun a => ?_
  rw [run_takeLabelEvent, if_neg (by omega)]
  nofun

/-- PALLET_AT_LABEL and APPLY_FAULT carry nothing behind their event byte. -/
theorem whole_takeLabelEvent_of_bare {e : Byte} (bare : e = 2 ∨ e = 4) (further : p ≠ []) :
    (whole takeLabelEvent (e :: p)).isSome = false := by
  refine whole_of_run fun a read => ?_
  rw [run_takeLabelEvent] at read
  rcases bare with rfl | rfl
  · exact further (congrArg Prod.snd (Option.some.inj read))
  · exact further (congrArg Prod.snd (Option.some.inj read))

theorem whole_takeLabelEvent_jobTaken (length : p.length ≠ 3) : (whole takeLabelEvent (1 :: p)).isSome = false := by
  refine whole_of_run fun a => ?_
  rw [run_takeLabelEvent]
  show ((takeNat 3).run p).bind _ ≠ _
  rw [run_takeNat]
  split
  next fits =>
    intro read
    have rest : p.drop 3 = [] := congrArg Prod.snd (Option.some.inj read)
    exact length (Nat.le_antisymm (List.drop_eq_nil_iff.mp rest) fits)
  next => nofun

end

end Sys2Proof.Machine

namespace Sys2Proof.Proofs

open Sys2Proof Sys2Proof.Machine

section
variable {s : State} {dst src : Byte} {p : List Byte} (hears : s.Hears src) (short : p.length ≤ 119)
include hears short

/-- The first part of O15: a source without a role that fits the kind. -/
theorem stations_unheld :
      (s.roleOf src laneOfReader = none → exec (.tagRead dst src p) s = .next (s.passed ⟨dst, src, 0x01, p⟩))
      ∧ (s.roleOf src laneOfTunnel = none →
        exec (.tunnelStart dst src p) s = .next (s.passed ⟨dst, src, 0x02, p⟩)
          ∧ exec (.caseRead dst src p) s = .next (s.passed ⟨dst, src, 0x03, p⟩)
          ∧ exec (.tunnelEnd dst src) s = .next (s.passed ⟨dst, src, 0x04, []⟩))
      ∧ (s.roleOf src laneOfMeasure = none →
        exec (.measure dst src p) s = .next (s.passed ⟨dst, src, 0x05, p⟩)
          ∧ exec (.scaleChecked dst src) s = .next (s.passed ⟨dst, src, 0x06, []⟩))
      ∧ (RoleInst.transferCar ∉ s.rolesAt src →
        exec (.moveDone dst src) s = .next (s.passed ⟨dst, src, 0x07, [1]⟩)
          ∧ exec (.moveFault dst src) s = .next (s.passed ⟨dst, src, 0x07, [2]⟩)
          ∧ exec (.carReady dst src) s = .next (s.passed ⟨dst, src, 0x07, [3]⟩))
      ∧ (s.roleOf src wrapperOf = none →
        exec (.wrapperReady dst src) s = .next (s.passed ⟨dst, src, 0x08, [1]⟩)
          ∧ exec (.standby dst src) s = .next (s.passed ⟨dst, src, 0x08, [2]⟩)
          ∧ exec (.wrapStarted dst src) s = .next (s.passed ⟨dst, src, 0x08, [3]⟩)
          ∧ exec (.wrapDone dst src) s = .next (s.passed ⟨dst, src, 0x08, [4]⟩)
          ∧ exec (.wrapFault dst src) s = .next (s.passed ⟨dst, src, 0x08, [5]⟩))
      ∧ (s.roleOf src applicatorRole = none →
        exec (.jobTaken dst src p) s = .next (s.passed ⟨dst, src, 0x09, 1 :: p⟩)
          ∧ exec (.palletAtLabel dst src) s = .next (s.passed ⟨dst, src, 0x09, [2]⟩)
          ∧ exec (.applied dst src p) s = .next (s.passed ⟨dst, src, 0x09, 3 :: p⟩)
          ∧ exec (.applyFault dst src) s = .next (s.passed ⟨dst, src, 0x09, [4]⟩)
          ∧ exec (.rejectApplicatorApplied dst src p) s = .next (s.passed ⟨dst, src, 0x09, 3 :: p⟩)
          ∧ exec (.rejectApplicatorFault dst src) s = .next (s.passed ⟨dst, src, 0x09, [4]⟩))
      ∧ (s.roleOf src lineOfSwitch = none → exec (.routed dst src p) s = .next (s.passed ⟨dst, src, 0x0A, p⟩))
      ∧ (RoleInst.rejectSpur ∉ s.rolesAt src → ∀ n,
        exec (.spurState dst src n) s = .next (s.passed ⟨dst, src, 0x0B, [n]⟩)) := by
  have unheld {i : Instr} (kind : Byte) (q : List Byte) (takes : exec i s = .next (s.arrive ⟨dst, src, kind, q⟩))
      (station : kind ≠ kMgmtRequest) (fit : q.length ≤ 120) (off : s.Held ⟨dst, src, kind, q⟩ = false) :
      exec i s = .next (s.passed ⟨dst, src, kind, q⟩) :=
    exec_unheld (t := ⟨dst, src, kind, q⟩) hears fit station takes off
  have fit : p.length ≤ 120 := Nat.le_succ_of_le short
  have event (b : Byte) : (b :: p).length ≤ 120 := Nat.succ_le_succ short
  refine ⟨fun off => ?_, fun off => ?_, fun off => ?_, fun off => ?_, fun off => ?_, fun off => ?_, fun off => ?_,
    fun off n => ?_⟩
  case refine_1 => exact unheld 0x01 p rfl (by decide) fit (congrArg Option.isSome off)
  case refine_2 =>
    have off := congrArg Option.isSome off
    exact ⟨unheld 0x02 p rfl (by decide) fit off, unheld 0x03 p rfl (by decide) fit off,
      unheld 0x04 [] rfl (by decide) (by simp) off⟩
  case refine_3 =>
    have off := congrArg Option.isSome off
    exact ⟨unheld 0x05 p rfl (by decide) fit off, unheld 0x06 [] rfl (by decide) (by simp) off⟩
  case refine_4 =>
    have off : (s.rolesAt src).contains .transferCar = false := by simpa using off
    exact ⟨unheld 0x07 [1] rfl (by decide) (by simp) off, unheld 0x07 [2] rfl (by decide) (by simp) off,
      unheld 0x07 [3] rfl (by decide) (by simp) off⟩
  case refine_5 =>
    have off := congrArg Option.isSome off
    exact ⟨unheld 0x08 [1] rfl (by decide) (by simp) off, unheld 0x08 [2] rfl (by decide) (by simp) off,
      unheld 0x08 [3] rfl (by decide) (by simp) off, unheld 0x08 [4] rfl (by decide) (by simp) off,
      unheld 0x08 [5] rfl (by decide) (by simp) off⟩
  case refine_6 =>
    have off := congrArg Option.isSome off
    exact ⟨unheld 0x09 _ rfl (by decide) (event 1) off, unheld 0x09 [2] rfl (by decide) (by simp) off,
      unheld 0x09 _ rfl (by decide) (event 3) off, unheld 0x09 [4] rfl (by decide) (by simp) off,
      unheld 0x09 _ rfl (by decide) (event 3) off, unheld 0x09 [4] rfl (by decide) (by simp) off⟩
  case refine_7 => exact unheld 0x0A p rfl (by decide) fit (congrArg Option.isSome off)
  case refine_8 =>
    have off : (s.rolesAt src).contains .rejectSpur = false := by simpa using off
    exact unheld 0x0B [n] rfl (by decide) (by simp) off

/-- The second part of O15: a payload that does not fit its layout, for the rows that carry one. -/
theorem payloads_unfit :
       (∀ l, s.roleOf src laneOfReader = some l → whole takeLicence p = none →
         exec (.tagRead dst src p) s =
           .next ((s.passed ⟨dst, src, 0x01, p⟩).report (.ring (.badPayload 0x01 src p.length))))
       ∧ (∀ l, s.roleOf src laneOfTunnel = some l → whole takeLicence p = none →
         exec (.tunnelStart dst src p) s =
           .next ((s.passed ⟨dst, src, 0x02, p⟩).report (.ring (.badPayload 0x02 src p.length))))
       ∧ (∀ l, s.roleOf src laneOfTunnel = some l → (whole takeCase p).isNone = true →
         exec (.caseRead dst src p) s =
           .next ((s.passed ⟨dst, src, 0x03, p⟩).report (.ring (.badPayload 0x03 src p.length))))
       ∧ (∀ l, s.roleOf src laneOfMeasure = some l → whole takeMeasure p = none →
         exec (.measure dst src p) s =
           .next ((s.passed ⟨dst, src, 0x05, p⟩).report (.ring (.badPayload 0x05 src p.length))))
       ∧ (∀ a, s.roleOf src applicatorRole = some a → p.length ≠ 3 →
         exec (.jobTaken dst src p) s =
           .next ((s.passed ⟨dst, src, 0x09, 1 :: p⟩).report (.ring (.badPayload 0x09 src (p.length + 1)))))
       ∧ (∀ a, s.roleOf src applicatorRole = some a → (whole takeLabelEvent (3 :: p)).isNone = true →
         exec (.applied dst src p) s =
           .next ((s.passed ⟨dst, src, 0x09, 3 :: p⟩).report (.ring (.badPayload 0x09 src (p.length + 1))))
         ∧ exec (.rejectApplicatorApplied dst src p) s =
           .next ((s.passed ⟨dst, src, 0x09, 3 :: p⟩).report (.ring (.badPayload 0x09 src (p.length + 1)))))
       ∧ (∀ k, s.roleOf src lineOfSwitch = some k → whole takeRouted p = none →
         exec (.routed dst src p) s =
           .next ((s.passed ⟨dst, src, 0x0A, p⟩).report (.ring (.badPayload 0x0A src p.length)))) := by
  have unfit {i : Instr} (kind : Byte) (q : List Byte) (takes : exec i s = .next (s.arrive ⟨dst, src, kind, q⟩))
      (station : kind ≠ kMgmtRequest) (fit : q.length ≤ 120) (held : s.Held ⟨dst, src, kind, q⟩ = true)
      (off : layoutFits ⟨dst, src, kind, q⟩ = false) :
      exec i s = .next ((s.passed ⟨dst, src, kind, q⟩).report (.ring (.badPayload kind src q.length))) :=
    exec_unfit (t := ⟨dst, src, kind, q⟩) hears fit station takes held off
  have fit : p.length ≤ 120 := Nat.le_succ_of_le short
  have event (b : Byte) : (b :: p).length ≤ 120 := Nat.succ_le_succ short
  refine ⟨fun l role off => ?_, fun l role off => ?_, fun l role off => ?_, fun l role off => ?_, fun a role length => ?_,
    fun a role off => ?_, fun k role off => ?_⟩
  case refine_1 => exact unfit 0x01 p rfl (by decide) fit (congrArg Option.isSome role) (congrArg Option.isSome off)
  case refine_2 => exact unfit 0x02 p rfl (by decide) fit (congrArg Option.isSome role) (congrArg Option.isSome off)
  case refine_3 =>
    exact unfit 0x03 p rfl (by decide) fit (congrArg Option.isSome role) (Option.isSome_eq_false_iff.mpr off)
  case refine_4 => exact unfit 0x05 p rfl (by decide) fit (congrArg Option.isSome role) (congrArg Option.isSome off)
  case refine_5 =>
    exact unfit 0x09 _ rfl (by decide) (event 1) (congrArg Option.isSome role) (whole_takeLabelEvent_jobTaken length)
  case refine_6 =>
    have off := Option.isSome_eq_false_iff.mpr off
    exact ⟨unfit 0x09 _ rfl (by decide) (event 3) (congrArg Option.isSome role) off,
      unfit 0x09 _ rfl (by decide) (event 3) (congrArg Option.isSome role) off⟩
  case refine_7 => exact unfit 0x0A p rfl (by decide) fit (congrArg Option.isSome role) (congrArg Option.isSome off)

end

/-- Settles O15, from telegrams of sources without a role and from payloads no layout reads. -/
theorem sourceAndPayloadMustFit : Obligations.SourceAndPayloadMustFit := by
  refine ⟨fun s dst src p => stations_unheld, fun s dst src p => payloads_unfit, ?_⟩
  rintro s ⟨dst, src, kind, p⟩ _ hears rfl short cases
  have unfit (station : kind ≠ kMgmtRequest) (held : s.Held ⟨dst, src, kind, p⟩ = true)
      (off : layoutFits ⟨dst, src, kind, p⟩ = false) :=
    exec_unfit (i := .ringInTelegram ⟨dst, src, kind, p⟩) hears short station rfl held off
  rcases cases with ⟨rfl, held, some⟩ | ⟨rfl, held, some⟩ | ⟨rfl, held, off⟩ | ⟨rfl, held, off⟩ | ⟨rfl, held, off⟩
    | ⟨rfl, held, off⟩
  · exact unfit (by decide) held (whole_pure_of_ne_nil some)
  · exact unfit (by decide) held (whole_pure_of_ne_nil some)
  · refine unfit (by decide) (List.contains_iff_mem.mpr held) ?_
    rcases off with length | ⟨e, rfl, range⟩
    · exact whole_takeEvent_of_length length
    · exact whole_takeEvent_of_range range
  · refine unfit (by decide) held ?_
    rcases off with length | ⟨e, rfl, range⟩
    · exact whole_takeEvent_of_length length
    · exact whole_takeEvent_of_range range
  · refine unfit (by decide) held ?_
    rcases off with rfl | ⟨e, b, rfl, zero | above | ⟨bare, further⟩⟩
    · rfl
    · exact whole_takeLabelEvent_of_range (.inl zero)
    · exact whole_takeLabelEvent_of_range (.inr above)
    · exact whole_takeLabelEvent_of_bare bare further
  · exact unfit (by decide) (List.contains_iff_mem.mpr held) (whole_takeNat_of_length off)

end Sys2Proof.Proofs
end

