-- ==== Sys2Proof/Proofs/Slice0/Screens.lean ====
section
/-! The watch screens: the judging of a telegram and the acting on it (R165 to R168). -/

namespace Sys2Proof.Machine

open Sys2Proof

section
variable {s : State} {t : Telegram} {x : Screen} {y : ScreenTest} {p : List Byte} {n m : ScreenNo}

/-! ### Judging (R165, R166) -/

theorem ScreenTest.field_of_short (short : p.length < y.offset + y.width) : y.field p = none :=
  if_neg (Nat.not_le.mpr short)

theorem ScreenTest.field_of_fits (fits : y.offset + y.width ≤ p.length) :
    y.field p = some (ofBytes ((p.drop y.offset).take y.width)) := if_pos fits

theorem ScreenTest.holds_of_none (none : y.field p = none) : y.holds p = false := by
  unfold ScreenTest.holds
  rw [none]

/-- A test is judged on the field it reads. -/
theorem ScreenTest.holds_of_field {k : Nat} (field : y.field p = some k) :
    (∀ v, y.test = .equal v → (y.holds p = true ↔ k = v)) ∧ (∀ v, y.test = .notEqual v → (y.holds p = true ↔ k ≠ v))
    ∧ (∀ lo hi, y.test = .inRange lo hi → (y.holds p = true ↔ lo ≤ k ∧ k ≤ hi))
    ∧ (y.test = .changed → (y.holds p = true ↔ ∃ v, y.last = some v ∧ v ≠ k)) := by
  refine ⟨fun v test => ?_, fun v test => ?_, fun lo hi test => ?_, fun test => ?_⟩ <;>
    simp [ScreenTest.holds, field, test, Option.any_eq_true]

theorem ScreenTest.remember_eq (y : ScreenTest) (p : List Byte) : y.remember p =
    if y.offset + y.width ≤ p.length then { y with last := some (ofBytes ((p.drop y.offset).take y.width)) } else y := by
  unfold ScreenTest.remember
  split
  next k field =>
    by_cases fits : y.offset + y.width ≤ p.length
    · rw [ScreenTest.field_of_fits fits] at field
      cases field
      rw [if_pos fits]
    · rw [ScreenTest.field_of_short (Nat.lt_of_not_le fits)] at field
      cases field
  next none =>
    split
    next fits => rw [ScreenTest.field_of_fits fits] at none; cases none
    next => rfl

theorem ScreenTest.field_remember (y : ScreenTest) (p : List Byte) : (y.remember p).field p = y.field p := by
  rw [ScreenTest.remember_eq]
  split
  · rfl
  · rfl

theorem Screen.judges_iff (x : Screen) (t : Telegram) : x.judges t = true ↔ x.enabled = true
    ∧ (x.source = none ∨ x.source = some t.src.toNat) ∧ (x.kind = none ∨ x.kind = some t.kind.toNat) := by
  have all (o : Option Nat) (k : Nat) : (o.all fun a => a == k) = true ↔ o = none ∨ o = some k := by
    cases o <;> simp
  rw [Screen.judges, Bool.and_eq_true, Bool.and_eq_true, all, all, and_assoc]

theorem Screen.hits_iff (x : Screen) (t : Telegram) : x.hits t = true ↔ x.judges t = true
    ∧ (x.tests = [] ∨ (x.combine = .all ∧ ∀ y ∈ x.tests, y.holds t.payload = true)
      ∨ (x.combine = .any ∧ ∃ y ∈ x.tests, y.holds t.payload = true)) := by
  rw [Screen.hits, Bool.and_eq_true, and_congr_right_iff]
  intro _
  split
  next _ _ empty => simp [empty]
  next combine some => simp [combine, show x.tests ≠ [] from some]
  next combine some => simp [combine, show x.tests ≠ [] from some]

theorem Screen.judges_of_hits (hit : x.hits t = true) : x.judges t = true := ((Screen.hits_iff x t).mp hit).1

theorem Screen.remember_of_judges (judges : x.judges t = true) :
    x.remember t = { x with tests := x.tests.map fun y => y.remember t.payload } := if_pos judges

theorem Screen.remember_of_not (not : x.judges t = false) : x.remember t = x := by
  rw [Screen.remember, not, if_neg Bool.false_ne_true]

theorem Screen.hitOf_remember (x : Screen) (t : Telegram) : (x.remember t).hitOf t = x.hitOf t := by
  unfold Screen.remember
  split
  · simp [Screen.hitOf, List.map_map, Function.comp_def, ScreenTest.field_remember]
  · rfl

/-- What judging leaves of a screen: all but the last values of its tests. -/
theorem Screen.remember_shape (x : Screen) (t : Telegram) : x.remember t = { x with tests := (x.remember t).tests } := by
  unfold Screen.remember
  split
  · rfl
  · rfl

/-! ### Acting (R167, R168) -/

theorem Action.alerts_iff (a : Action) : a.alerts = true ↔ a ≠ .consume := by cases a <;> simp [Action.alerts]

theorem Action.consumes_iff (a : Action) : a.consumes = true ↔ a = .consume ∨ a = .consumeAlert := by
  cases a <;> simp [Action.consumes]

theorem Screen.acted_count (x : Screen) (t : Telegram) :
    (x.acted t).count = min 65535 (x.count + 1) ∧ (x.acted t).tests = x.tests := by
  unfold Screen.acted
  dsimp only
  split
  · split
    · exact ⟨rfl, rfl⟩
    · exact ⟨rfl, rfl⟩
    · exact ⟨rfl, rfl⟩
  · exact ⟨rfl, rfl⟩

theorem Screen.acted_of_consume (action : x.action = .consume) :
    (x.acted t).latch = x.latch ∧ (x.acted t).capture = x.capture := by
  simp [Screen.acted, action, Action.alerts]

theorem Screen.acted_of_alert (action : x.action ≠ .consume) :
    (x.acted t).latch = (if x.latch = .clear then .pending else .overrun)
    ∧ (x.acted t).capture = if x.latch = .clear ∧ x.action = .alertCapture then frameBody t else x.capture := by
  have alerts := (Action.alerts_iff _).mpr action
  cases latch : x.latch <;> simp [Screen.acted, alerts, latch]

theorem State.acting_of_none (off : ∀ m : ScreenNo, (s.watch[m]).hits t = false) : s.acting t = none :=
  List.find?_eq_none.mpr fun m _ => Bool.not_eq_true _ ▸ off m

theorem State.acting_of_first (hit : (s.watch[n]).hits t = true) (first : ∀ m < n, (s.watch[m]).hits t = false) :
    s.acting t = some n := by
  refine find?_of_least (List.pairwise_lt_finRange 16) (List.mem_finRange n) hit fun m _ hits => .inr fun low => ?_
  rw [first m low] at hits
  cases hits

/-- The screens once they have judged a telegram. -/
def State.judged (t : Telegram) (s : State) : State := { s with watch := s.watch.map (Screen.remember t) }

theorem State.watch_judged (n : ScreenNo) (t : Telegram) (s : State) : (s.judged t).watch[n] = (s.watch[n]).remember t := by
  simp [State.judged]

theorem State.judged_only (t : Telegram) (s : State) : State.Only [.watch] s (s.judged t) := by constructor <;> simp [State.judged]

theorem State.offerScreens_of_none (none : s.acting t = none) : s.offerScreens t = s.judged t := by
  unfold State.offerScreens
  rw [none]
  rfl

theorem State.offerScreens_of_some (acting : s.acting t = some n) : s.offerScreens t =
    if (s.watch[n]).action ≠ .consume ∧ (s.watch[n]).latch = .clear then
      ((s.judged t).onScreen n (Screen.acted t)).report
        (watchAlert n (((s.watch[n]).remember t).acted t) (some ((s.watch[n]).hitOf t)))
    else (s.judged t).onScreen n (Screen.acted t) := by
  unfold State.offerScreens
  rw [acting]
  show (if ((s.judged t).watch[n]).action.alerts ∧ ((s.judged t).watch[n]).latch = .clear then
    State.report (watchAlert n ((s.judged t).onScreen n (Screen.acted t)).watch[n] (some (((s.judged t).watch[n]).hitOf t)))
      ((s.judged t).onScreen n (Screen.acted t)) else _) = _
  rw [State.watch_onScreen_self, State.watch_judged, Screen.hitOf_remember, Screen.remember_shape]
  simp only [Action.alerts_iff]
  rfl

end

end Sys2Proof.Machine

namespace Sys2Proof.Proofs

open Sys2Proof Sys2Proof.Machine

section
variable {s : State} {t : Telegram} {n : ScreenNo}

/-- The state a first matching screen leaves, by its record before. -/
theorem screenActs (hit : (s.watch[n]).hits t = true) (first : ∀ m < n, (s.watch[m]).hits t = false) :
    ∃ x u, x = s.watch[n] ∧ u = s.offerScreens t
      ∧ (s.consumed t = true ↔ x.action = .consume ∨ x.action = .consumeAlert)
      ∧ (u.watch[n]).count = min 65535 (x.count + 1) ∧ (u.watch[n]).tests = (x.remember t).tests
      ∧ (x.action = .consume → (u.watch[n]).latch = x.latch ∧ (u.watch[n]).capture = x.capture)
      ∧ (x.action ≠ .consume →
          (u.watch[n]).latch = (if x.latch = .clear then .pending else .overrun)
            ∧ (u.watch[n]).capture =
              if x.latch = .clear ∧ x.action = .alertCapture then frameBody t else x.capture)
      ∧ (∀ m : ScreenNo, m ≠ n → u.watch[m] = (s.watch[m]).remember t)
      ∧ State.Only [.watch, .ring, .mgmt] s u
      ∧ (x.action = .consume ∨ x.latch ≠ .clear → State.Only [.watch] s u)
      ∧ (x.action ≠ .consume → x.latch = .clear →
          u = State.report (watchAlert n u.watch[n] (some (x.hitOf t))) { s with watch := u.watch }) := by
  have acting := State.acting_of_first hit first
  have offered := State.offerScreens_of_some acting
  obtain ⟨w, hw⟩ : ∃ w, w = (s.judged t).onScreen n (Screen.acted t) := ⟨_, rfl⟩
  obtain ⟨x, hx⟩ : ∃ x, x = s.watch[n] := ⟨_, rfl⟩
  rw [← hw, ← hx] at offered
  have self : w.watch[n] = (x.remember t).acted t := by
    rw [hw, State.watch_onScreen_self, State.watch_judged, hx]
  have others : ∀ m : ScreenNo, m ≠ n → w.watch[m] = (s.watch[m]).remember t := fun m ne => by
    rw [hw, State.watch_onScreen_of_ne ne, State.watch_judged]
  have only : State.Only [.watch] s w := hw ▸ (State.judged_only t s).next (State.onScreen_only _ _ _)
  have same : { s with watch := w.watch } = w := by rw [hw]; rfl
  have watch : (s.offerScreens t).watch = w.watch := by
    rw [offered]
    split
    · exact (State.report_only _ _).watch.resolve_left (by decide)
    · rfl
  have at_n : (s.offerScreens t).watch[n] = (x.remember t).acted t := by rw [watch, self]
  have shape := Screen.remember_shape x t
  have action : (x.remember t).action = x.action := by rw [shape]
  have latch : (x.remember t).latch = x.latch := by rw [shape]
  have count : (x.remember t).count = x.count := by rw [shape]
  have capture : (x.remember t).capture = x.capture := by rw [shape]
  obtain ⟨counted, tests⟩ := Screen.acted_count (x.remember t) t
  refine ⟨x, s.offerScreens t, hx, rfl, ?_, ?_, ?_, fun consume => ?_, fun alert => ?_, fun m ne => ?_,
    (State.offerScreens_only t s).mono (by simp), fun quiet => ?_, fun alert clear => ?_⟩
  · rw [State.consumed, acting, hx]
    exact Action.consumes_iff _
  · rw [at_n, counted, count]
  · rw [at_n, tests]
  · obtain ⟨kept, uncaptured⟩ := Screen.acted_of_consume (t := t) (action.trans consume)
    rw [at_n, kept, uncaptured]
    exact ⟨latch, capture⟩
  · obtain ⟨moved, captured⟩ := Screen.acted_of_alert (t := t) (action ▸ alert)
    rw [at_n, moved, captured, latch, action, capture]
    exact ⟨rfl, rfl⟩
  · rw [watch, others m ne]
  · have off : ¬ (x.action ≠ .consume ∧ x.latch = .clear) := fun both =>
      quiet.elim both.1 fun ne => ne both.2
    rw [offered, if_neg off]
    exact only
  · rw [watch, self, same, offered, if_pos ⟨alert, clear⟩]

end

/-- Settles O11, from the judging of one screen and the acting of the first that matches. -/
theorem screensJudgeAndAct : Obligations.ScreensJudgeAndAct := by
  refine ⟨fun x t => ⟨?_, Screen.judges_iff x t, fun judges => ?_, fun y => ⟨ScreenTest.holds_of_none ∘ ScreenTest.field_of_short, ?_⟩⟩,
    fun s t => ⟨fun m => Screen.remember_of_not, fun off => ?_, fun n => screenActs⟩⟩
  · rw [Screen.hits_iff, Screen.judges_iff, and_assoc, and_assoc]
  · rw [Screen.remember_of_judges judges]
    exact congrArg (fun f => { x with tests := x.tests.map f }) (funext fun y => ScreenTest.remember_eq y t.payload)
  · rintro fits n rfl
    exact ScreenTest.holds_of_field (ScreenTest.field_of_fits fits)
  · have acting := State.acting_of_none off
    rw [State.offerScreens_of_none acting, State.consumed, acting]
    exact ⟨rfl, fun m => State.watch_judged m t s, State.judged_only t s⟩

end Sys2Proof.Proofs
end

