-- ==== Sys2Proof/Proofs/Slice0/Silence.lean ====
section
/-! The expiry of the currency window (R31, R179), and the loss and the return of the ring (R155, R178). -/

namespace Sys2Proof.Machine

open Sys2Proof

/-- The lanes, but for what their contexts are, are the same in both states. -/
def State.SameLanes (s t : State) : Prop := t.tracker.lanes = s.tracker.lanes

section
variable {s t u : State}

/-! ### Operations that leave the lanes -/

theorem State.SameLanes.refl (s : State) : s.SameLanes s := rfl

theorem State.SameLanes.trans (h : s.SameLanes t) (k : t.SameLanes u) : s.SameLanes u := Eq.trans k h

theorem State.SameLanes.ite {p : Prop} [Decidable p] (h : s.SameLanes t) (k : s.SameLanes u) :
    s.SameLanes (if p then t else u) := by
  split
  · exact h
  · exact k

theorem State.Only.sameLanes {bs : List Block} (h : State.Only bs s t) (out : Block.tracker ∉ bs := by decide) :
    s.SameLanes t := congrArg Tracker.lanes (h.tracker.resolve_left out)

theorem State.sameLanes_offer (i : Slot) (s : State) : s.SameLanes (s.offer (.context i)) := by
  refine State.offer_keeps (fun u => u.tracker.lanes) (.context i) (fun u => ?_) (fun _ _ => rfl) s
  simp only [State.take]
  split
  · rfl
  · rfl

theorem State.sameLanes_startJob (dst : RoleInst) (i : Slot) (s : State) : s.SameLanes (s.startJob dst i) := by
  unfold State.startJob State.sendOrders
  split
  · exact State.sameLanes_offer i _
  · rfl

theorem State.sameLanes_startJobs (k : LineNo) (s : State) : s.SameLanes (s.startJobs k) := by
  unfold State.startJobs
  split
  · rfl
  next i rest _ =>
    have first : s.SameLanes (if (s.ctx i).any Context.startable then s.startJob (.labelApplicator k) i else s) :=
      .ite (State.sameLanes_startJob _ i s) rfl
    dsimp only
    split
    · exact .ite (first.trans (State.sameLanes_startJob _ _ _)) first
    · exact first

theorem State.sameLanes_withdraw (dst : RoleInst) (keep : Bool) (i : Slot) (s : State) :
    s.SameLanes (s.withdraw dst keep i) :=
  .ite ((State.SameLanes.trans (State.sameLanes_offer i (s.modCtx i (Context.withdrawn dst keep)))
    (State.prune_only _ _).sameLanes)) rfl

theorem State.sameLanes_raiseInLine (i : Slot) (s : State) : s.SameLanes (s.raiseInLine i) := by
  unfold State.raiseInLine
  split
  · rfl
  next k _ =>
    refine .ite ?_ rfl
    have first : s.SameLanes (s.withdraw (.labelApplicator k) true i) := State.sameLanes_withdraw _ _ i s
    dsimp only
    split
    · exact (first.trans (State.sameLanes_withdraw _ _ _ _)).trans (State.sameLanes_startJobs k _)
    · exact first.trans (State.sameLanes_startJobs k _)

theorem State.sameLanes_startQueued (rs : List CompRequest) (s : State) : s.SameLanes (s.startQueued rs) := by
  induction rs with
  | nil => rfl
  | cons r rs ih =>
    unfold State.startQueued
    split
    · rfl
    · exact ih

theorem State.sameLanes_startNext (s : State) : s.SameLanes s.startNext := .ite rfl (State.sameLanes_startQueued _ s)

theorem State.sameLanes_requestLabel (id : CtxId) (k : LabelKind) (s : State) : s.SameLanes (s.requestLabel id k) := by
  have queued (k : LabelKind) : s.SameLanes (s.queueComposition id k).startNext :=
    State.SameLanes.trans (t := s.queueComposition id k) rfl (State.sameLanes_startNext _)
  unfold State.requestLabel
  split
  · rfl
  · split
    · exact queued _
    · rfl
    · rfl
    · exact .ite (queued _) rfl
    · rfl

theorem State.sameLanes_tellRaise (id : CtxId) (p : Phase) (s : State) : s.SameLanes (s.tellRaise id p) := by
  cases p with
  | atHeadDecided => exact State.SameLanes.trans (t := s.stopTimer id.slot) rfl (State.sameLanes_requestLabel _ _ _)
  | moving | wrapping => exact State.sameLanes_requestLabel _ _ s
  | queuedLabel | labelling => exact (State.sameLanes_requestLabel _ _ s).trans (State.sameLanes_raiseInLine _ _)
  | _ => rfl

theorem State.sameLanes_addLater (id : CtxId) (c : Context) (v : Verdict) (r : Reason) (s : State) :
    s.SameLanes (s.addLater id c v r) := by
  unfold State.addLater
  dsimp only
  generalize verdictReport id.slot _ _ _ = report
  generalize hp : s.putCtx id.slot _ = p
  have put : s.SameLanes (p.report report) := State.SameLanes.trans (t := p) (hp ▸ rfl) (State.report_only _ p).sameLanes
  have called {q : Prop} [Decidable q] : s.SameLanes (if q then (p.report report).callArbiter else p.report report) :=
    .ite put put
  exact .ite (called.trans (State.sameLanes_tellRaise _ _ _)) called

theorem State.sameLanes_handSlot (i : Slot) (r : Reason) (s : State) : s.SameLanes (s.handSlot i r) := by
  unfold State.handSlot State.handReason
  split
  · split
    · rfl
    · refine .ite rfl ?_
      split
      · rfl
      · exact State.sameLanes_addLater _ _ _ r s
  · rfl

theorem State.sameLanes_handAll (is : List Slot) (r : Reason) (s : State) : s.SameLanes (s.handAll is r) := by
  induction is generalizing s with
  | nil => rfl
  | cons i is ih => exact (State.sameLanes_handSlot i r s).trans (ih _)

/-! ### The ring is lost (R155, R178) -/

theorem exec_ringSilenceExpiry (awake : s.ctl.inReset = false) : exec .ringSilenceExpiry s = .next s.ringSilent := by
  show Host.Outcome.next (s.awake _) = _
  rw [State.awake_of_running awake]

theorem exec_currencyWindowExpiry (awake : s.ctl.inReset = false) :
    exec .currencyWindowExpiry s = .next s.windowExpires := by
  show Host.Outcome.next (s.awake _) = _
  rw [State.awake_of_running awake]

/-- The timer stays expired. -/
def State.silenced (s : State) : State := s.onRing fun r => { r with silence := none }

theorem State.ringSilent_of_not (running : s.ring.silence ≠ some 0) : s.ringSilent = s := if_neg running

theorem State.ringSilent_of_expired (expired : s.ring.silence = some 0) :
    s.ringSilent = if s.passive then s.silenced else s.silenced.isolate := if_pos expired

/-- The line as it is taken ISOLATED, before the reasons. -/
def State.isolated (s : State) : State :=
  s.onCtl fun c =>
    { c with mode := .isolated, held := if c.mode = .isolated then c.held else some c.mode, rejectAll := true }

/-- The line taken ISOLATED, before the arbiter runs. -/
def State.ringLost (s : State) : State :=
  (s.isolated.handAll (s.slotsWhere Context.losesRing) .ringLost).modeReport .ringSilent s.ctl.mode

theorem State.isolate_eq (s : State) : s.isolate = s.ringLost.settle .ringSilence := rfl

theorem State.core_ringLost (i : Slot) (s : State) : s.ringLost.core i =
    if i ∈ s.slotsWhere Context.losesRing then (s.core i).map (Context.handed .ringLost) else s.core i := by
  unfold State.ringLost
  rw [((State.modeReport_only _ _ _).tracks (is := [])).cores i (by simp), State.core_handAll]
  rfl

theorem State.ringLost_ctl (s : State) : s.ringLost.ctl = s.isolated.ctl := by
  unfold State.ringLost
  rw [State.modeReport_ctl, (State.handAll_only _ _ _).ctl.resolve_left (by decide)]

/-! ### The ring returns (R155, R178) -/

/-- The mode is the held mode again, before the report. -/
def State.rejoined (m : LineMode) (s : State) : State := s.arrived.onCtl fun c => { c with mode := m, held := none }

theorem State.heard_of_silence {m : LineMode} (silent : s.ring.silence = none) (mode : s.ctl.mode = .isolated)
    (held : s.ctl.held = some m) : s.heard = (s.rejoined m).modeReport .ringReturn .isolated := by
  unfold State.heard
  rw [silent]
  show State.ringReturned s.arrived = _
  unfold State.ringReturned
  rw [State.arrived_ctl, mode, held]
  rfl

theorem State.arrived_of_timer (timer : s.ring.silence = some s.ctl.params.ringSilence) : s.arrived = s := by
  unfold State.arrived State.onRing State.params
  rw [← timer]

end

end Sys2Proof.Machine

namespace Sys2Proof.Proofs

open Sys2Proof Sys2Proof.Machine

section
variable {s : State}

/-- The first part of O45: the expiry of the currency window. -/
theorem currencyWindowExpires (awake : s.ctl.inReset = false) :
    (s.holds.window ≠ some 0 → exec .currencyWindowExpiry s = .next s)
    ∧ (s.holds.window = some 0 → ∃ u, exec .currencyWindowExpiry s = .next u
      ∧ u.holds = { s.holds with window := none, currency := .stale }
      ∧ (s.holds.currency = .stale → State.Only [.holds] s u)
      ∧ (s.holds.currency = .current →
          u.ctl.mode = (if s.ctl.mode = .run then .degraded else s.ctl.mode)
            ∧ u.ctl.held = s.ctl.held.map (fun m => if m = .run then .degraded else m)
            ∧ u.ctl.rejectAll = s.ctl.rejectAll ∧ State.Only [.holds, .ctl, .ring, .mgmt] s u
            ∧ ∃ v, State.Only [.holds, .ctl] s v ∧ u = v.report (.mode ⟨s.ctl.mode, u.ctl.mode,
                if u.ctl.mode = .isolated then u.ctl.held else none, .currency, .stale, s.holds.generation,
                s.holds.day, s.ctl.rejectAll⟩))) := by
  rw [exec_currencyWindowExpiry awake]
  refine ⟨fun running => congrArg _ (if_neg running), fun expired => ?_⟩
  obtain ⟨a, ha⟩ : ∃ a, a = s.onHolds fun h => { h with window := none } := ⟨_, rfl⟩
  have ends : s.windowExpires = a.setCurrency .stale := by
    rw [ha]
    exact if_pos expired
  have only : State.Only [.holds] s a := ha ▸ State.onHolds_only _ _
  rw [ends]
  refine ⟨_, rfl, by rw [State.setCurrency_holds, ha]; rfl, fun stale => ?_, fun current => ?_⟩
  · rw [State.setCurrency_of_eq (by rw [ha]; exact stale)]
    exact only
  · have ne : a.holds.currency ≠ .stale := by
      rw [ha]
      show s.holds.currency ≠ .stale
      rw [current]
      decide
    have follow (m : LineMode) : followCurrency .stale m = if m = .run then .degraded else m := by cases m <;> rfl
    have all := State.setCurrency_only .stale a
    rw [State.setCurrency_of_ne ne] at all ⊢
    generalize hv : ((a.onHolds fun h => { h with currency := .stale }).onCtl fun c =>
      { c with mode := followCurrency .stale c.mode, held := c.held.map (followCurrency .stale) }) = v at all ⊢
    have v_only : State.Only [.holds, .ctl] s v := hv ▸ (only.first.next (State.onHolds_only _ _)).next (State.onCtl_only _ _)
    have v_ctl : v.ctl = { s.ctl with
        mode := followCurrency .stale s.ctl.mode, held := s.ctl.held.map (followCurrency .stale) } := by
      rw [← hv, ha]
      rfl
    have v_holds : v.holds = { s.holds with window := none, currency := .stale } := by
      rw [← hv, ha]
      rfl
    have mode : a.ctl.mode = s.ctl.mode := by rw [ha]; rfl
    rw [State.modeReport_ctl]
    refine ⟨by rw [v_ctl, ← follow], by rw [v_ctl, funext follow], by rw [v_ctl], only.first.trans all, v, v_only, ?_⟩
    rw [State.modeReport, mode, v_holds]
    simp only [v_ctl]

/-- The loss of the ring by a part that is not passive. -/
theorem ringIsLost (awake : s.ctl.inReset = false) (expired : s.ring.silence = some 0) (active : s.passive = false) :
    ∃ u, exec .ringSilenceExpiry s = .next (State.settle .ringSilence u)
      ∧ u.ring.silence = none ∧ u.ctl.mode = .isolated ∧ u.ctl.rejectAll = true
      ∧ (s.ctl.mode ≠ .isolated → u.ctl.held = some s.ctl.mode)
      ∧ (∀ l : Lane, u.tracker.lanes[l].infeed = s.tracker.lanes[l].infeed)
      ∧ (∀ i c, s.ctx i = some c → c.phase ≠ .labelling → c.phase ≠ .exiting →
          ∃ d, u.ctx i = some d ∧ Reason.ringLost ∈ d.reasons)
      ∧ ∀ i c, s.ctx i = some c → c.phase = .labelling ∨ c.phase = .exiting →
          ∃ d, u.ctx i = some d ∧ d.reasons = c.reasons ∧ d.verdict = c.verdict := by
  rw [exec_ringSilenceExpiry awake, State.ringSilent_of_expired expired, active]
  obtain ⟨a, ha⟩ : ∃ a, a = s.silenced := ⟨_, rfl⟩
  have ctl : a.ringLost.ctl = s.isolated.ctl := by rw [State.ringLost_ctl, ha]; rfl
  have lanes : a.ringLost.tracker.lanes = s.tracker.lanes := by
    have handed := State.sameLanes_handAll (a.slotsWhere Context.losesRing) .ringLost a.isolated
    have same : s.SameLanes a.isolated := ha ▸ rfl
    exact (same.trans handed).trans (State.modeReport_only _ _ _).sameLanes
  have cores (i : Slot) (c : Context) (hc : s.ctx i = some c) :
      (c.losesRing = true → a.ringLost.core i = some (c.handed .ringLost).core)
      ∧ (c.losesRing = false → a.ringLost.core i = some c.core) := by
    have hc : a.ctx i = some c := ha ▸ hc
    have mem : i ∈ a.slotsWhere Context.losesRing ↔ c.losesRing = true := by
      rw [State.mem_slotsWhere, hc]
      simp
    rw [State.core_ringLost, State.core_of_ctx hc]
    refine ⟨fun loses => ?_, fun keeps => ?_⟩
    · rw [if_pos (mem.mpr loses), Option.map_some, Context.core_handed]
    · rw [if_neg fun h => Bool.false_ne_true (keeps.symm.trans (mem.mp h))]
  refine ⟨a.ringLost, by rw [ha]; rfl, by rw [ha]; simp [State.ringLost, State.modeReport, State.isolated, State.silenced],
    by rw [ctl]; rfl, by rw [ctl]; rfl, fun mode => by rw [ctl]; exact if_neg mode,
    fun l => by rw [lanes], fun i c hc out in_ => ?_, fun i c hc phase => ?_⟩
  · obtain ⟨d, hd, core⟩ := Option.map_eq_some_iff.mp ((cores i c hc).1 (by simp [Context.losesRing, out, in_]))
    refine ⟨d, hd, ?_⟩
    rw [show d.reasons = d.core.reasons from rfl, core]
    exact c.mem_handed .ringLost
  · obtain ⟨d, hd, core⟩ := Option.map_eq_some_iff.mp ((cores i c hc).2 (by rcases phase with h | h <;> simp [Context.losesRing, h]))
    exact ⟨d, hd, congrArg (·.reasons) core, congrArg (·.verdict) core⟩

/-- The return of the ring. -/
theorem ringReturns (m : LineMode) (awake : s.ctl.inReset = false) (active : s.passive = false)
    (silent : s.ring.silence = none) (mode : s.ctl.mode = .isolated) (held : s.ctl.held = some m) :
    ∃ u v, v.ctl = { s.ctl with mode := m, held := none }
      ∧ v.ring = { s.ring with silence := some s.ctl.params.ringSilence } ∧ State.Only [.ctl, .ring] s v
      ∧ u = v.report (.mode ⟨.isolated, m, none, .ringReturn, s.holds.currency, s.holds.generation, s.holds.day,
          s.ctl.rejectAll⟩)
      ∧ u.ring.silence = some s.ctl.params.ringSilence ∧ u.ctl = v.ctl
      ∧ (∀ t : Telegram, t.payload.length ≤ 120 →
          exec (.ringInTelegram t) s = exec (.ringInTelegram t) u ∧ s.arrive t = u.arrive t
          ∧ (t.src = s.ownAddress → exec (.ringInTelegram t) s = .next u))
      ∧ ∀ (i : Instr) (src code tag : Byte), s.request i src code tag = u.request i src code tag := by
  have heard := State.heard_of_silence silent mode held
  obtain ⟨u, hu⟩ : ∃ u, u = (s.rejoined m).modeReport .ringReturn .isolated := ⟨_, rfl⟩
  rw [← hu] at heard
  have ctl : u.ctl = (s.rejoined m).ctl := by rw [hu, State.modeReport_ctl]
  have timer : u.ring.silence = some s.ctl.params.ringSilence := by
    rw [hu, State.modeReport, State.report_silence]
    rfl
  have params : u.ctl.params = s.ctl.params := by rw [ctl]; rfl
  have again : u.heard = u := by
    rw [heard_of_timed (by rw [timer]; rfl), State.arrived_of_timer (by rw [timer, params])]
  have u_awake : u.ctl.inReset = false := by rw [ctl]; exact awake
  have address : u.ctl.address = s.ctl.address := by rw [ctl]; rfl
  have u_active : u.passive = false := by rw [State.passive, address]; exact active
  have u_own : u.ownAddress = s.ownAddress := by rw [State.ownAddress, address]; rfl
  have arrive (t : Telegram) (short : t.payload.length ≤ 120) : s.arrive t = u.arrive t := by
    rw [State.arrive_of_valid awake short, State.arrive_of_valid u_awake short, heard, again]
  refine ⟨u, s.rejoined m, rfl, rfl, (State.arrived_only s).first.next (State.onCtl_only _ _), ?_, timer, ctl,
    fun t short => ⟨by rw [exec_ringInTelegram, exec_ringInTelegram, arrive t short], arrive t short, fun own => ?_⟩,
    fun i src code tag => ?_⟩
  · rw [hu, State.modeReport]
    have none : (if (s.rejoined m).ctl.mode = .isolated then (s.rejoined m).ctl.held else none) = none := ite_self _
    rw [none]
    rfl
  · rw [exec_ringInTelegram, State.arrive_of_valid awake short, heard, State.handle_of_own u_active (own.trans u_own.symm)]
  · unfold State.request
    rw [awake, u_awake, heard, again]
    rfl

end

/-- Settles O45, from the expiries of the two timers and the return of the ring. -/
theorem currencyAndRingTimersExpire : Obligations.CurrencyAndRingTimersExpire := by
  refine ⟨fun s => currencyWindowExpires, fun s awake => ⟨fun running => ?_, fun expired passive => ?_, ringIsLost awake⟩,
    fun s m => ringReturns m⟩
  · rw [exec_ringSilenceExpiry awake, State.ringSilent_of_not running]
  · rw [exec_ringSilenceExpiry awake, State.ringSilent_of_expired expired, passive]
    rfl

end Sys2Proof.Proofs
end

