-- ==== Sys2Proof/Proofs/Slice0/RequestTelegrams.lean ====
section
/-! Request telegrams: the command their fields spell, the checks of R158, and requests in parts (R160). -/

namespace Sys2Proof.Machine

open Sys2Proof

/-! ### What the fields of a request spell -/

/-- Whatever a layout reads satisfies a predicate. -/
def Yields {α : Type} (P : α → Prop) (r : Reader α) : Prop := ∀ p a rest, r p = some (a, rest) → P a

section
variable {α β : Type} {P : β → Prop}

theorem Yields.pure {b : β} (h : P b) : Yields P (Pure.pure b) := fun _ _ _ read => by cases read; exact h

theorem Yields.bind {r : Reader α} {f : α → Reader β} (h : ∀ a, Yields P (f a)) : Yields P (r >>= f) := by
  intro p b rest read
  obtain ⟨⟨a, q⟩, -, then_⟩ := Option.bind_eq_some_iff.mp read
  exact h a q b rest then_

theorem Yields.failure : Yields P failure := fun _ _ _ read => by cases read

theorem Yields.ite {c : Prop} [Decidable c] {r q : Reader β} (h : Yields P r) (k : Yields P q) :
    Yields P (if c then r else q) := by
  split
  · exact h
  · exact k

end

/-- A command is the request of a code, from a source and with a tag; only the code of STATION_PUT claims a role. -/
structure Spelt (src code tag : Byte) (i : Instr) : Prop where
  carried : ∀ s, exec i s = .next (s.request i src code tag)
  claims  : ∀ s, State.isClaim i s = true → code = 0x10

theorem code_of_toNat {code : Byte} {n : Nat} (h : code.toNat = n) : code = BitVec.ofNat 8 n := by simp [← h]

section
variable {code src tag : Byte} {i : Instr}

theorem Yields.of_rfl {code : Byte} (carried : ∀ s, exec i s = .next (s.request i src code tag))
    (plain : ∀ s, State.isClaim i s = false) : Yields (Spelt src code tag) (Pure.pure i) :=
  .pure ⟨carried, fun s claim => absurd ((plain s).symm.trans claim) Bool.false_ne_true⟩

theorem takeRequest_yields (code src tag : Byte) : Yields (Spelt src code tag) (takeRequest code src tag) := by
  unfold takeRequest
  split
  case h_5 code | h_10 code | h_15 code | h_20 code | h_26 code | h_31 code
      | h_38 code | h_39 code | h_40 code | h_41 code | h_42 code | h_45 code =>
    obtain rfl := code_of_toNat code
    exact .of_rfl (fun _ => rfl) fun _ => rfl
  case h_1 code | h_2 code | h_3 code | h_4 code | h_6 code | h_7 code | h_8 code | h_9 code
      | h_11 code | h_12 code | h_14 code | h_18 code | h_23 code | h_24 code | h_27 code
      | h_29 code | h_33 code | h_34 code | h_35 code | h_37 code =>
    obtain rfl := code_of_toNat code
    exact .bind fun _ => .of_rfl (fun _ => rfl) fun _ => rfl
  case h_19 code | h_22 code | h_25 code | h_30 code | h_32 code | h_43 code | h_44 code =>
    obtain rfl := code_of_toNat code
    exact .bind fun _ => .bind fun _ => .of_rfl (fun _ => rfl) fun _ => rfl
  case h_13 code =>
    obtain rfl := code_of_toNat code
    exact .bind fun _ => .ite (.bind fun _ => .of_rfl (fun _ => rfl) fun _ => rfl)
      (.ite (.bind fun _ => .of_rfl (fun _ => rfl) fun _ => rfl) .failure)
  case h_16 code =>
    obtain rfl := code_of_toNat code
    exact .bind fun _ => .bind fun _ => .bind fun _ => .pure ⟨fun _ => rfl, fun _ _ => rfl⟩
  case h_17 code =>
    obtain rfl := code_of_toNat code
    exact .bind fun _ => .ite (.bind fun _ => .of_rfl (fun _ => rfl) fun _ => rfl)
      (.ite (.bind fun _ => .bind fun _ => .of_rfl (fun _ => rfl) fun _ => rfl) .failure)
  case h_21 code =>
    obtain rfl := code_of_toNat code
    exact .bind fun _ => .ite (.bind fun _ => .bind fun _ => .of_rfl (fun _ => rfl) fun _ => rfl)
      (.ite (.of_rfl (fun _ => rfl) fun _ => rfl) .failure)
  case h_28 code =>
    obtain rfl := code_of_toNat code
    exact .bind fun _ => .bind fun _ => .bind fun _ => .bind fun _ => .of_rfl (fun _ => rfl) fun _ => rfl
  case h_36 code =>
    obtain rfl := code_of_toNat code
    exact .bind fun _ => .bind fun _ => .ite (.bind fun _ => .of_rfl (fun _ => rfl) fun _ => rfl)
      (.of_rfl (fun _ => rfl) fun _ => rfl)
  case h_46 => exact .failure

theorem spelt_of_whole {fields : List Byte} (read : whole (takeRequest code src tag) fields = some i) :
    Spelt src code tag i := by
  unfold whole at read
  split at read
  next a run =>
    cases read
    exact takeRequest_yields code src tag _ _ _ run
  next => cases read

/-! ### The checks of R158 -/

theorem exec_mgmtRequestPart {part count : Byte} {share : List Byte} {s : State} (hears : s.Hears src)
    (short : share.length ≤ 116) : exec (.mgmtRequestPart src code tag part count share) s =
      .next (s.arrived.takePart src code tag part.toNat count.toNat share) := by
  have fit : (code :: tag :: part :: count :: share).length ≤ 120 := by simpa using by omega
  show Host.Outcome.next (s.arrive ⟨s.ownAddress, src, kMgmtRequest, code :: tag :: part :: count :: share⟩) = _
  rw [arrive_of_listening (t := ⟨s.ownAddress, src, kMgmtRequest, code :: tag :: part :: count :: share⟩) hears.1 fit,
    State.handle_of_request (s := s.arrived) hears.1.2.1 hears.2 rfl rfl]
  rfl

theorem exec_unknownRequestCode {p : List Byte} {s : State} (hears : s.Hears src) (short : p.length ≤ 120) :
    exec (.unknownRequestCode src p) s = .next (s.arrived.takeMgmt ⟨s.ownAddress, src, kMgmtRequest, p⟩) := by
  show Host.Outcome.next (s.arrive ⟨s.ownAddress, src, kMgmtRequest, p⟩) = _
  rw [arrive_of_listening (t := ⟨s.ownAddress, src, kMgmtRequest, p⟩) hears.1 short,
    State.handle_of_request (s := s.arrived) hears.1.2.1 hears.2 rfl rfl]

/-- A whole request telegram is checked in the state in which its owner takes it. -/
theorem exec_wholeRequest {share : List Byte} {s : State} (hears : s.Hears src) (short : share.length ≤ 116) :
    exec (.mgmtRequestPart src code tag 1 1 share) s = .next ((s.taken src).takeBytesOf src code tag share) :=
  exec_mgmtRequestPart hears short

section
variable {s : State} {share : List Byte}

theorem State.overrun_of_clear (clear : s.ring.overload = none) : s.overrun src code tag =
    (s.onRing fun r => { r with overload := some .replyOverrun }).report (.ring (.replyOverrun code tag src)) := by
  unfold State.overrun State.overload
  rw [clear]
  rfl

theorem State.overrun_of_set (set : s.ring.overload.isSome = true) : s.overrun src code tag = s := by
  unfold State.overrun State.overload
  rw [Option.isNone_eq_false_iff.mpr set, if_neg Bool.false_ne_true]

theorem State.takeBytesOf_of_full (full : 16 ≤ s.mgmt.replies.length) :
    s.takeBytesOf src code tag share = s.overrun src code tag := if_pos (decide_eq_true full)

theorem State.repliesFull_of_room (room : s.mgmt.replies.length < 16) : s.repliesFull = false :=
  decide_eq_false (Nat.not_le.mpr room)

theorem State.takeBytesOf_of_unknown (room : s.mgmt.replies.length < 16) (unknown : code ∉ knownCodes) :
    s.takeBytesOf src code tag share = s.refuseRequest src code tag .badRequest := by
  simp [State.takeBytesOf, State.repliesFull_of_room room, unknown]

theorem State.takeBytesOf_of_none (room : s.mgmt.replies.length < 16) (known : code ∈ knownCodes)
    (read : whole (takeRequest code src tag) share = none) : s.takeBytesOf src code tag share =
      s.refuseRequest src code tag (if s.permits src code false then .badRequest else .notPermitted) := by
  simp [State.takeBytesOf, State.repliesFull_of_room room, known, read]

theorem State.takeBytesOf_of_some (room : s.mgmt.replies.length < 16) (known : code ∈ knownCodes)
    (read : whole (takeRequest code src tag) share = some i) :
    s.takeBytesOf src code tag share = s.admitRequest i src code tag := by
  simp [State.takeBytesOf, State.repliesFull_of_room room, known, read]

theorem State.admitRequest_of_refused (room : s.mgmt.replies.length < 16)
    (refused : s.permits src code (s.isClaim i) = false) :
    s.admitRequest i src code tag = s.refuseRequest src code tag .notPermitted := by
  simp [State.admitRequest, State.repliesFull_of_room room, refused]

/-- A requester without permission is refused whatever its fields, but for a claim of the dispatch system role. -/
theorem State.takeBytesOf_of_refused (room : s.mgmt.replies.length < 16) (known : code ∈ knownCodes)
    (refused : s.permits src code false = false)
    (plain : ∀ i, whole (takeRequest code src tag) share = some i → s.isClaim i = false) :
    s.takeBytesOf src code tag share = s.refuseRequest src code tag .notPermitted := by
  cases read : whole (takeRequest code src tag) share with
  | none => rw [State.takeBytesOf_of_none room known read, refused]; rfl
  | some i =>
    rw [State.takeBytesOf_of_some room known read, State.admitRequest_of_refused room (by rw [plain i read, refused])]

/-! ### What a refusal carries (R23, R30, R147, R173) -/

theorem State.refusalResult_of_plain (hold : code.toNat < 0x20 ∨ 0x24 < code.toNat) (log : code.toNat ≠ 0x45)
    (mode : code.toNat < 0x60 ∨ 0x64 < code.toNat) : s.refusalResult code = .none := by
  unfold State.refusalResult
  dsimp only
  split
  any_goals omega
  rfl

theorem State.refusalResult_of_unknown (unknown : code ∉ knownCodes) : s.refusalResult code = .none := by
  have ne (k : Byte) (known : k ∈ knownCodes) : code.toNat ≠ k.toNat := fun e =>
    unknown (BitVec.eq_of_toNat_eq e ▸ known)
  have hold (k : Nat) (low : 0x20 ≤ k) (high : k ≤ 0x24) : code.toNat ≠ k := by
    interval_cases k
    exacts [ne 0x20 (by decide), ne 0x21 (by decide), ne 0x22 (by decide), ne 0x23 (by decide), ne 0x24 (by decide)]
  have mode (k : Nat) (low : 0x60 ≤ k) (high : k ≤ 0x64) : code.toNat ≠ k := by
    interval_cases k
    exacts [ne 0x60 (by decide), ne 0x61 (by decide), ne 0x62 (by decide), ne 0x63 (by decide), ne 0x64 (by decide)]
  refine State.refusalResult_of_plain ?_ (ne 0x45 (by decide)) ?_
  · by_contra out
    exact hold code.toNat (by omega) (by omega) rfl
  · by_contra out
    exact mode code.toNat (by omega) (by omega) rfl

/-! ### Requests in parts (R160) -/

theorem State.gathering_endGathering (src a : Byte) (s : State) :
    (s.endGathering src).gathering a = if a = src then none else s.gathering a := by
  unfold State.gathering State.endGathering State.onMgmt
  split
  next e =>
    subst e
    exact find?_filter_of_passes fun g h => by simpa using h
  next ne =>
    exact find?_filter_of_keeps fun g _ h => by simpa [beq_iff_eq.mp h] using ne

theorem State.endGathering_of_none (none : s.gathering src = none) : s.endGathering src = s := by
  have same : (s.mgmt.gatherings.filter fun g => g.src != src) = s.mgmt.gatherings :=
    List.filter_eq_self.mpr fun g mem => by simpa using List.find?_eq_none.mp none g mem
  unfold State.endGathering State.onMgmt
  dsimp only
  rw [same]

theorem State.gathering_src {g : Gathering} (found : s.gathering src = some g) : g.src = src :=
  beq_iff_eq.mp (List.find?_some (p := fun g : Gathering => g.src == src) found)

theorem State.gathering_putGathering (g : Gathering) (a : Byte) (s : State) :
    (s.putGathering g).gathering a = if a = g.src then some g else s.gathering a := by
  have ended := State.gathering_endGathering g.src a s
  have put : (s.putGathering g).gathering a = ((s.endGathering g.src).gathering a).or (if g.src = a then some g else none) := by
    show List.find? _ ((s.endGathering g.src).mgmt.gatherings ++ [g]) = _
    rw [List.find?_append]
    simp [State.gathering, List.find?_singleton]
  rw [put, ended]
  by_cases e : a = g.src
  · simp [e]
  · simp [e, Ne.symm e]

theorem State.endGathering_putGathering (g : Gathering) (s : State) :
    (s.putGathering g).endGathering g.src = s.endGathering g.src := by
  unfold State.putGathering State.endGathering State.onMgmt
  simp

/-- The part of a request that follows those gathered. -/
def Gathering.takes (g : Gathering) (code tag : Byte) (part count : Nat) : Prop :=
  g.code = code ∧ g.tag = tag ∧ g.count = count ∧ g.next = part ∧ part ≤ count

section
variable {g : Gathering} {part count : Nat}

theorem State.takePart_first (several : 2 ≤ count) (few : count ≤ 8) :
    s.takePart src code tag 1 count share = (s.endGathering src).putGathering ⟨src, code, tag, count, 2, share⟩ := by
  unfold State.takePart
  rw [if_pos rfl]
  dsimp only
  rw [if_neg (by omega), if_pos ⟨several, few⟩]

theorem State.takePart_more (found : s.gathering src = some g) (further : part ≠ 1) (follows : Gathering.takes g code tag part count)
    (more : part < count) : s.takePart src code tag part count share =
      s.putGathering { g with next := part + 1, bytes := g.bytes ++ share } := by
  unfold State.takePart
  rw [if_neg further, found]
  dsimp only
  rw [if_pos (show g.code = code ∧ g.tag = tag ∧ g.count = count ∧ g.next = part ∧ part ≤ count from follows),
    if_neg (Nat.ne_of_lt more)]

theorem State.takePart_last (found : s.gathering src = some g) (further : count ≠ 1) (follows : Gathering.takes g code tag count count) :
    s.takePart src code tag count count share = (s.endGathering src).takeBytesOf src code tag (g.bytes ++ share) := by
  unfold State.takePart
  rw [if_neg further, found]
  dsimp only
  rw [if_pos (show g.code = code ∧ g.tag = tag ∧ g.count = count ∧ g.next = count ∧ count ≤ count from follows),
    if_pos rfl]

/-- A part other than 1 that follows nothing ends the gathering. -/
theorem State.takePart_stray (further : part ≠ 1) (off : ∀ g, s.gathering src = some g → ¬ Gathering.takes g code tag part count) :
    s.takePart src code tag part count share = (s.endGathering src).badPart src code tag := by
  unfold State.takePart
  rw [if_neg further]
  cases found : s.gathering src with
  | none => rw [State.endGathering_of_none found]
  | some g =>
    dsimp only
    rw [if_neg (show ¬ (g.code = code ∧ g.tag = tag ∧ g.count = count ∧ g.next = part ∧ part ≤ count) from off g found)]

end

theorem State.badPart_of_room (room : s.mgmt.replies.length < 16) :
    s.badPart src code tag = s.refuseRequest src code tag .badRequest := by
  rw [State.badPart, State.repliesFull_of_room room, if_neg Bool.false_ne_true]

end

end

end Sys2Proof.Machine

namespace Sys2Proof.Proofs

open Sys2Proof Sys2Proof.Machine

section
variable {s : State} {src code tag : Byte} {share : List Byte}

/-- What keeps a STATION_PUT from being the claim of the dispatch system role (R18). -/
theorem isClaim_stationPut {a r n : Byte}
    (off : a ≠ src ∨ r ≠ 0x0B ∨ ∃ b : Fin 32, RoleInst.dispatchSystem ∈ s.refs.stations[b]) :
    s.isClaim (.stationPut src tag a r n) = false := by
  rcases off with other | other | ⟨b, holds⟩
  · simp [State.isClaim, other]
  · simp [State.isClaim, show ¬ r = 11#8 from other]
  · have held : s.dispatchHeld = true := by
      rw [State.dispatchHeld, Option.isSome_iff_ne_none]
      exact fun none => State.holderOf_eq_none.mp none b holds
    simp [State.isClaim, held]

theorem whole_stationPut {i : Instr} (read : whole (takeRequest 0x10 src tag) share = some i) :
    ∃ a r n, share = [a, r, n] ∧ i = .stationPut src tag a r n := by
  match share with
  | [] => cases read
  | [a] => cases read
  | [a, r] => cases read
  | [a, r, n] => cases read; exact ⟨a, r, n, rfl, rfl⟩
  | a :: r :: n :: b :: rest => cases read

/-- A request command of a source that the part hears is checked in the state in which its owner takes it. -/
theorem request_of_hears (hears : s.Hears src) (i : Instr) :
    s.request i src code tag = (s.taken src).admitRequest i src code tag := by
  obtain ⟨⟨awake, active, timed⟩, other⟩ := hears
  unfold State.request
  rw [awake, if_neg Bool.false_ne_true, heard_of_timed timed]
  dsimp only
  rw [show s.arrived.passive = false from active, if_neg Bool.false_ne_true, if_neg (show ¬ src = s.arrived.ownAddress from other)]
  rfl

/-- A refusal of a request telegram that the part hears. -/
theorem answered_eq (x : Status) : (s.taken src).refuseRequest src code tag x =
    (s.taken src).answered src code tag x (s.refusalResult code) := rfl

/-- The first part of O14: a whole request telegram. -/
theorem wholeRequests (hears : s.Hears src) (short : share.length ≤ 116) :
      (16 ≤ s.mgmt.replies.length → s.ring.overload = none →
        exec (.mgmtRequestPart src code tag 1 1 share) s =
          .next (((s.taken src).onRing fun r => { r with overload := some .replyOverrun }).report
            (.ring (.replyOverrun code tag src))))
      ∧ (16 ≤ s.mgmt.replies.length → s.ring.overload.isSome = true →
        exec (.mgmtRequestPart src code tag 1 1 share) s = .next (s.taken src))
      ∧ (s.mgmt.replies.length < 16 → code ∉ knownCodes →
        exec (.mgmtRequestPart src code tag 1 1 share) s =
            .next ((s.taken src).answered src code tag .badRequest .none)
          ∧ exec (.unknownRequestCode src (code :: tag :: 1 :: 1 :: share)) s =
            .next ((s.taken src).answered src code tag .badRequest .none))
      ∧ (s.mgmt.replies.length < 16 → code ∈ knownCodes → code ≠ 0x10 → s.permits src code false = false →
        exec (.mgmtRequestPart src code tag 1 1 share) s =
          .next ((s.taken src).answered src code tag .notPermitted (s.refusalResult code)))
      ∧ (s.mgmt.replies.length < 16 → code = 0x10 → s.permits src 0x10 false = false →
        (share.length ≠ 3 ∨ share[0]? ≠ some src ∨ share[1]? ≠ some 0x0B
          ∨ (∃ b : Fin 32, RoleInst.dispatchSystem ∈ s.refs.stations[b]) →
          exec (.mgmtRequestPart src code tag 1 1 share) s =
            .next ((s.taken src).answered src 0x10 tag .notPermitted .none))
        ∧ ∀ a r n, a ≠ src ∨ r ≠ 0x0B ∨ (∃ b : Fin 32, RoleInst.dispatchSystem ∈ s.refs.stations[b]) →
          exec (.stationPut src tag a r n) s =
            .next ((s.taken src).answered src 0x10 tag .notPermitted .none))
      ∧ (s.mgmt.replies.length < 16 → code ∈ knownCodes → s.permits src code false = true →
        whole (takeRequest code src tag) share = none →
        exec (.mgmtRequestPart src code tag 1 1 share) s =
          .next ((s.taken src).answered src code tag .badRequest (s.refusalResult code)))
      ∧ (∀ i, s.Takes src code → code ∈ knownCodes → whole (takeRequest code src tag) share = some i →
        exec (.mgmtRequestPart src code tag 1 1 share) s = exec i s)
      ∧ exec (.unknownRequestCode src [code]) s = .next (s.arrived.report (.ring (.badPayload 0x30 src 1))) := by
  have taken := exec_wholeRequest (code := code) (tag := tag) hears short
  rw [taken]
  refine ⟨fun full clear => ?_, fun full set => ?_, fun room unknown => ?_, fun room known other refused => ?_,
    fun room is refused => ⟨fun off => ?_, fun a r n off => ?_⟩, fun room known may read => ?_,
    fun i takes known read => ?_, ?_⟩
  · rw [State.takeBytesOf_of_full (s := s.taken src) full, State.overrun_of_clear (s := s.taken src) clear]
  · rw [State.takeBytesOf_of_full (s := s.taken src) full, State.overrun_of_set (s := s.taken src) set]
  · have refused : (s.taken src).takeBytesOf src code tag share = (s.taken src).answered src code tag .badRequest .none := by
      rw [State.takeBytesOf_of_unknown (s := s.taken src) room unknown, answered_eq, State.refusalResult_of_unknown unknown]
    rw [refused, exec_unknownRequestCode hears (by simpa using by omega)]
    exact ⟨rfl, congrArg _ refused⟩
  · rw [State.takeBytesOf_of_refused (s := s.taken src) room known refused fun i read => ?_, answered_eq]
    exact Bool.eq_false_iff.mpr fun claim => other ((spelt_of_whole read).claims _ claim)
  · subst is
    rw [State.takeBytesOf_of_refused (s := s.taken src) room (by decide) refused fun i read => ?_]
    · rfl
    · obtain ⟨a, r, n, rfl, rfl⟩ := whole_stationPut read
      exact isClaim_stationPut (s := s.taken src) (by simpa using off)
  · have carried : exec (.stationPut src tag a r n) s = .next (s.request (.stationPut src tag a r n) src 0x10 tag) := rfl
    have refused : (s.taken src).permits src 0x10 ((s.taken src).isClaim (.stationPut src tag a r n)) = false := by
      rw [isClaim_stationPut (s := s.taken src) off]
      exact refused
    rw [carried, request_of_hears hears, State.admitRequest_of_refused (s := s.taken src) room refused]
    rfl
  · rw [State.takeBytesOf_of_none (s := s.taken src) room known read, if_pos (show (s.taken src).permits src code false = true from may), answered_eq]
  · rw [State.takeBytesOf_of_some (s := s.taken src) takes.2.1 known read, (spelt_of_whole read).carried,
      request_of_hears hears]
  · rw [exec_unknownRequestCode hears (by simp)]
    rfl

/-- The second part of O14: a part of several. -/
theorem requestParts_gathered {part count : Byte} (hears : s.Hears src) (short : share.length ≤ 116)
    (room : s.mgmt.replies.length < 16) (several : 2 ≤ count.toNat) (few : count.toNat ≤ 8) :
       (part = 1 → ∃ u, exec (.mgmtRequestPart src code tag part count share) s = .next u
           ∧ u.gathering src = some ⟨src, code, tag, count.toNat, 2, share⟩
           ∧ (∀ a, a ≠ src → u.gathering a = s.gathering a) ∧ u.mgmt.replies = s.mgmt.replies
           ∧ State.Only [.ring, .mgmt] s u)
         ∧ (∀ g, s.gathering src = some g → part.toNat = g.next → code = g.code → tag = g.tag →
             count.toNat = g.count → part ≠ 1 → part.toNat < count.toNat →
             ∃ u, exec (.mgmtRequestPart src code tag part count share) s = .next u
               ∧ u.gathering src = some { g with next := part.toNat + 1, bytes := g.bytes ++ share }
               ∧ (∀ a, a ≠ src → u.gathering a = s.gathering a) ∧ u.mgmt.replies = s.mgmt.replies
               ∧ State.Only [.ring, .mgmt] s u)
         ∧ (part ≠ 1 → (∀ g, s.gathering src = some g → part.toNat ≠ g.next ∨ code ≠ g.code ∨ tag ≠ g.tag
               ∨ count.toNat ≠ g.count ∨ count.toNat < part.toNat) →
             exec (.mgmtRequestPart src code tag part count share) s =
               .next ((s.taken src).answered src code tag .badRequest (s.refusalResult code))
             ∧ (s.taken src).gathering src = none ∧ ∀ a, a ≠ src → (s.taken src).gathering a = s.gathering a) := by
  have number (ne : part ≠ 1) : part.toNat ≠ 1 := fun e => ne (BitVec.eq_of_toNat_eq e)
  have put (g : Gathering) (u : State) : State.Only [.mgmt] u (u.putGathering g) :=
    (State.onMgmt_only _ _).next (State.onMgmt_only _ _)
  rw [exec_mgmtRequestPart hears short]
  refine ⟨fun first => ?_, fun g found next sameCode sameTag sameCount ne more => ?_, fun ne off => ?_⟩
  · subst first
    rw [show (1 : Byte).toNat = 1 from rfl, State.takePart_first several few]
    refine ⟨_, rfl, ?_, fun a ne => ?_, rfl, (State.taken_only src s).next (put _ _)⟩
    · rw [State.gathering_putGathering, if_pos rfl]
    · rw [State.gathering_putGathering, if_neg ne, State.gathering_endGathering, if_neg ne]
      rfl
  · have src_eq := State.gathering_src found
    rw [State.takePart_more (s := s.arrived) found (number ne)
      ⟨sameCode.symm, sameTag.symm, sameCount.symm, next.symm, Nat.le_of_lt more⟩ more]
    refine ⟨_, rfl, ?_, fun a ne => ?_, rfl, (State.arrived_only s).first.next (put _ _)⟩
    · rw [State.gathering_putGathering, if_pos src_eq.symm]
    · rw [State.gathering_putGathering, if_neg fun e => ne (e.trans src_eq)]
      rfl
  · have stray (g : Gathering) (found : s.arrived.gathering src = some g) :
        ¬ Gathering.takes g code tag part.toNat count.toNat := by
      rintro ⟨sameCode, sameTag, sameCount, next, fits⟩
      rcases off g found with h | h | h | h | h
      · exact h next.symm
      · exact h sameCode.symm
      · exact h sameTag.symm
      · exact h sameCount.symm
      · omega
    rw [State.takePart_stray (number ne) stray]
    refine ⟨congrArg _ (State.badPart_of_room (s := s.taken src) room), ?_, fun a ne => ?_⟩
    · exact (State.gathering_endGathering src src s.arrived).trans (if_pos rfl)
    · exact (State.gathering_endGathering src a s.arrived).trans (if_neg ne)

end

/-- Settles O14, from the checks of a whole request, the gathering of parts and what a refusal carries. -/
theorem requestsAreScreened : Obligations.RequestsAreScreened := by
  refine ⟨fun s src code tag share => wholeRequests,
    fun s src code tag part count share hears short room several few => requestParts_gathered hears short room several few,
    fun s code => ⟨fun low high => ?_, fun is => ?_, fun is => ?_, fun low high => ?_, fun off => ?_⟩⟩
  · obtain h | h | h | h : code.toNat = 0x20 ∨ code.toNat = 0x21 ∨ code.toNat = 0x22 ∨ code.toNat = 0x23 := by omega
    all_goals rw [code_of_toNat h]; rfl
  · rw [is]; rfl
  · rw [is]; rfl
  · obtain h | h | h | h | h : code.toNat = 0x60 ∨ code.toNat = 0x61 ∨ code.toNat = 0x62 ∨ code.toNat = 0x63
        ∨ code.toNat = 0x64 := by omega
    all_goals rw [code_of_toNat h]; rfl
  · refine State.refusalResult_of_plain (by omega) (fun log => ?_) (by omega)
    have log : code = 0x45 := code_of_toNat log
    rcases off with low | ⟨-, -, other⟩ | high
    · rw [log] at low
      exact absurd low (by decide)
    · exact other log
    · rw [log] at high
      exact absurd high (by decide)

end Sys2Proof.Proofs
end

