-- ==== Sys2Proof/Proofs/Slice0/RequestParts.lean ====
section
/-! A request sent in parts leaves what the request, taken whole, leaves (R160). -/

namespace Sys2Proof.Machine

open Sys2Proof

section
variable {s t v : State} {src code tag : Byte} {fields : List Byte} {i : Instr} {n k : Nat}

theorem State.takeBytesOf_of_read (known : code ∈ knownCodes) (read : whole (takeRequest code src tag) fields = some i) :
    s.takeBytesOf src code tag fields = s.admitRequest i src code tag := by
  rcases Nat.lt_or_ge s.mgmt.replies.length 16 with room | full
  · exact State.takeBytesOf_of_some room known read
  · rw [State.takeBytesOf_of_full full, State.admitRequest, if_pos (show s.repliesFull = true from decide_eq_true full)]

/-- The first k of the n parts of a request have been gathered, and nothing else of the request has been taken. -/
structure State.Gathered (s : State) (src code tag : Byte) (fields : List Byte) (n k : Nat) (v : State) : Prop where
  hears     : v.Hears src
  gathering : v.gathering src = some ⟨src, code, tag, n, k + 1, fields.take (116 * k)⟩
  rest      : v.arrived.endGathering src = s.taken src

/-- The command of part k, counting from 0. -/
def partCommand (src code tag : Byte) (fields : List Byte) (n k : Nat) : Instr :=
  .mgmtRequestPart src code tag (BitVec.ofNat 8 (k + 1)) (BitVec.ofNat 8 n) (shareOf 116 k fields)

theorem length_shareOf (k : Nat) (fields : List Byte) : (shareOf 116 k fields).length ≤ 116 := List.length_take_le _ _

theorem take_append_shareOf (k : Nat) (fields : List Byte) :
    fields.take (116 * k) ++ shareOf 116 k fields = fields.take (116 * (k + 1)) := by
  rw [shareOf, Nat.mul_succ, List.take_add]

theorem toNat_part (small : k ≤ 8) : (BitVec.ofNat 8 k).toNat = k := by
  rw [BitVec.toNat_ofNat]
  exact Nat.mod_eq_of_lt (by omega)

theorem exec_partCommand (hears : v.Hears src) (small : k < 8) (few : n ≤ 8) :
    exec (partCommand src code tag fields n k) v =
      .next (v.arrived.takePart src code tag (k + 1) n (shareOf 116 k fields)) := by
  rw [partCommand, exec_mgmtRequestPart hears (length_shareOf k fields), toNat_part small, toNat_part few]

theorem State.Hears.of_same (hears : s.Hears src) (ctl : v.ctl = s.ctl) (timed : v.ring.silence.isSome = true) :
    v.Hears src := by
  obtain ⟨⟨awake, active, -⟩, other⟩ := hears
  have passive : v.passive = s.passive := by rw [State.passive, ctl]; rfl
  have own : v.ownAddress = s.ownAddress := by rw [State.ownAddress, ctl]; rfl
  exact ⟨⟨by rw [ctl, awake], by rw [passive, active], timed⟩, by rw [own]; exact other⟩

/-- The first part of several. -/
theorem State.gathered_first (hears : s.Hears src) (several : 2 ≤ n) (few : n ≤ 8) :
    ∃ v, exec (partCommand src code tag fields n 0) s = .next v ∧ s.Gathered src code tag fields n 1 v := by
  rw [exec_partCommand hears (by decide) few, State.takePart_first several few]
  have ended : (s.taken src).gathering src = none := (State.gathering_endGathering src src s.arrived).trans (if_pos rfl)
  refine ⟨_, rfl, hears.of_same rfl rfl, ?_, ?_⟩
  · rw [State.gathering_putGathering, if_pos rfl]
    rfl
  · exact (State.endGathering_putGathering ⟨src, code, tag, n, 2, shareOf 116 0 fields⟩ (s.taken src)).trans
      (State.endGathering_of_none ended)

/-- A further part that is not the last. -/
theorem State.Gathered.next (g : s.Gathered src code tag fields n k v) (more : k + 1 < n) (few : n ≤ 8) (later : 1 ≤ k) :
    ∃ w, exec (partCommand src code tag fields n k) v = .next w ∧ s.Gathered src code tag fields n (k + 1) w := by
  obtain ⟨hears, gathering, rest⟩ := g
  rw [exec_partCommand hears (by omega) few,
    State.takePart_more (s := v.arrived) (part := k + 1) gathering (by omega) ⟨rfl, rfl, rfl, rfl, Nat.le_of_lt more⟩ more]
  refine ⟨_, rfl, hears.of_same rfl rfl, ?_, ?_⟩
  · rw [State.gathering_putGathering, if_pos rfl]
    simp only [take_append_shareOf]
  · exact (State.endGathering_putGathering _ v.arrived).trans rest

/-- The last part: the whole request is taken. -/
theorem State.Gathered.last (g : s.Gathered src code tag fields (k + 1) k v) (few : k + 1 ≤ 8) (later : 1 ≤ k)
    (all : fields.length ≤ 116 * (k + 1)) : exec (partCommand src code tag fields (k + 1) k) v =
      .next ((s.taken src).takeBytesOf src code tag fields) := by
  obtain ⟨hears, gathering, rest⟩ := g
  rw [exec_partCommand hears (by omega) few,
    State.takePart_last (s := v.arrived) (count := k + 1) gathering (by omega) ⟨rfl, rfl, rfl, rfl, Nat.le_refl _⟩, rest,
    take_append_shareOf, List.take_of_length_le all]

/-- The parts from the second one on. -/
theorem State.Gathered.afterAll {m : Nat} (few : n ≤ 8) (all : fields.length ≤ 116 * n) :
    ∀ {k v}, s.Gathered src code tag fields n k v → k + (m + 1) = n → 1 ≤ k →
      Machine.afterAll ((List.range' k (m + 1)).map (partCommand src code tag fields n)) v =
        some ((s.taken src).takeBytesOf src code tag fields) := by
  induction m with
  | zero =>
    intro k v g count later
    subst count
    simp only [List.range'_succ, List.range'_zero, List.map_cons, List.map_nil, Machine.afterAll, g.last few later all]
  | succ m ih =>
    intro k v g count later
    obtain ⟨w, takes, further⟩ := g.next (by omega) few later
    rw [List.range'_succ, List.map_cons, Machine.afterAll, takes]
    exact ih further (by omega) (by omega)

end

end Sys2Proof.Machine

namespace Sys2Proof.Proofs

open Sys2Proof Sys2Proof.Machine

/-- Settles O12, by induction over the parts from the second on. -/
theorem partsMakeTheRequest : Obligations.PartsMakeTheRequest := by
  intro s t src code tag fields i hears known short read takes
  have whole : (s.taken src).takeBytesOf src code tag fields = t := by
    rw [State.takeBytesOf_of_read known read, ← request_of_hears hears]
    exact Host.Outcome.next.inj ((spelt_of_whole read).carried s ▸ takes)
  obtain ⟨n, hn⟩ : ∃ n, n = partsFor 116 fields.length := ⟨_, rfl⟩
  have parts : requestParts src code tag fields = (List.range n).map (partCommand src code tag fields n) := by
    rw [hn]
    rfl
  have size : n = max 1 ((fields.length + 115) / 116) := hn
  have all : fields.length ≤ 116 * n := by omega
  have few : n ≤ 8 := by omega
  rw [parts, ← whole, List.range_eq_range']
  obtain ⟨m, rfl⟩ : ∃ m, n = m + 1 := ⟨n - 1, by omega⟩
  rw [List.range'_succ, List.map_cons, afterAll]
  cases m with
  | zero =>
    have one : shareOf 116 0 fields = fields := List.take_of_length_le (by simpa using by omega)
    have once := exec_wholeRequest (code := code) (tag := tag) hears (length_shareOf 0 fields)
    rw [one] at once
    rw [partCommand, one, show BitVec.ofNat 8 (0 + 1) = (1 : Byte) from rfl, once]
    rfl
  | succ m =>
    obtain ⟨v, first, gathered⟩ := State.gathered_first (code := code) (tag := tag) (fields := fields) hears
      (n := m + 1 + 1) (by omega) few
    rw [first]
    exact gathered.afterAll few all (by omega) (by omega)

end Sys2Proof.Proofs
end

