-- ==== Sys2Proof/Proofs/Slice0/FieldsRead.lean ====
section
/-! The fields of a request, written out in order, are read back (section 9.1, R160). -/

namespace Sys2Proof.Machine

open Sys2Proof

/-- A layout reads some bytes, whatever follows them, as a value. -/
def Reads {α : Type} (r : Reader α) (bs : List Byte) (a : α) : Prop := ∀ rest, r (bs ++ rest) = some (a, rest)

section
variable {α β : Type} {r : Reader α} {bs cs : List Byte} {a : α}

/-! ### Joining what layouts read -/

theorem whole_of_reads (read : Reads r bs a) : whole r bs = some a := by
  have all : r.run bs = some (a, []) := (congrArg r (List.append_nil bs).symm).trans (read [])
  unfold whole
  rw [all]

theorem Reads.pure (a : α) : Reads (Pure.pure a) [] a := fun _ => rfl

theorem Reads.bind {f : α → Reader β} {b : β} (first : Reads r bs a) (then_ : Reads (f a) cs b) :
    Reads (r >>= f) (bs ++ cs) b := fun rest => by
  have run : (r >>= f) (bs ++ cs ++ rest) = (r (bs ++ cs ++ rest)).bind fun x => f x.1 x.2 := rfl
  rw [run, List.append_assoc, first]
  exact then_ rest

/-- The last of the fields. -/
theorem Reads.map {f : α → β} (read : Reads r bs a) : Reads (do return f (← r)) bs (f a) := fun rest => by
  have run : (do return f (← r) : Reader β) (bs ++ rest) = (r (bs ++ rest)).bind fun x => some (f x.1, x.2) := rfl
  rw [run, read]
  rfl

/-- The last of a list of fields, as its flattening ends. -/
theorem Reads.last (read : Reads r bs a) : Reads r (bs ++ []) a := by rwa [List.append_nil]

theorem Reads.ite_pos {p : Prop} [Decidable p] {q : Reader α} (h : p) (read : Reads r bs a) :
    Reads (if p then r else q) bs a := by rwa [if_pos h]

theorem Reads.ite_neg {p : Prop} [Decidable p] {q : Reader α} (h : ¬ p) (read : Reads r bs a) :
    Reads (if p then q else r) bs a := by rwa [if_neg h]

theorem Reads.many {f : α → List Byte} : ∀ {as : List α}, (∀ a ∈ as, Reads r (f a) a) →
    Reads (takeMany r as.length) (as.flatMap f) as
  | [], _ => Reads.pure []
  | a :: as, each => by
    have rest : Reads (takeMany r as.length) (as.flatMap f) as := Reads.many fun x mem => each x (.tail _ mem)
    exact (each a (.head _)).bind rest.map

/-! ### Bytes, numbers and texts -/

theorem reads_takeByte (b : Byte) : Reads takeByte [b] b := fun _ => rfl

theorem reads_takeBytes {n : Nat} (length : bs.length = n) : Reads (takeBytes n) bs bs := fun rest => by
  unfold takeBytes
  rw [if_pos (by simp [length]), List.take_left' length, List.drop_left' length]

theorem ofBytes_append (bs : List Byte) (b : Byte) : ofBytes (bs ++ [b]) = 256 * ofBytes bs + b.toNat := by
  simp [ofBytes, List.foldl_append]

theorem ofBytes_beBytes {k n : Nat} (fits : n < 256 ^ k) : ofBytes (beBytes k n) = n := by
  induction k generalizing n with
  | zero => exact (Nat.lt_one_iff.mp fits).symm
  | succ k ih =>
    have high : n / 256 < 256 ^ k := Nat.div_lt_of_lt_mul (by rwa [← Nat.pow_succ'])
    rw [beBytes, ofBytes_append, ih high, BitVec.toNat_ofNat]
    exact Nat.div_add_mod n 256

theorem reads_takeNat {k n : Nat} (fits : n < 256 ^ k) : Reads (takeNat k) (beBytes k n) n := by
  have read : Reads (takeNat k) (beBytes k n) (ofBytes (beBytes k n)) := (reads_takeBytes (length_beBytes k n)).map
  rwa [ofBytes_beBytes fits] at read

theorem reads_u8 {n : Nat} (fits : n < 256) : Reads (takeNat 1) (u8 n) n := reads_takeNat (k := 1) fits

theorem ofBytes_ones (k : Nat) : ofBytes (List.replicate k (0xFF : Byte)) + 1 = 256 ^ k := by
  induction k with
  | zero => rfl
  | succ k ih =>
    rw [List.replicate_succ', ofBytes_append, Nat.pow_succ', ← ih]
    show 256 * ofBytes (List.replicate k (0xFF : Byte)) + 255 + 1 = _
    omega

theorem reads_takeOpt {k : Nat} {o : Option Nat} (fits : ∀ n, o = some n → n + 1 < 256 ^ k) :
    Reads (takeOpt k) (optBytes k o) o := by
  have read {bs : List Byte} (length : bs.length = k) : Reads (takeOpt k) bs
      (if bs == List.replicate k 0xFF then none else some (ofBytes bs)) := (reads_takeBytes length).map
  cases o with
  | none => simpa [optBytes] using read (bs := List.replicate k 0xFF) (List.length_replicate ..)
  | some n =>
    have small := fits n rfl
    have number : ofBytes (beBytes k n) = n := ofBytes_beBytes (Nat.lt_of_succ_lt small)
    have ne : (beBytes k n == List.replicate k 0xFF) = false := by
      refine beq_eq_false_iff_ne.mpr fun ones => ?_
      rw [ones] at number
      have := ofBytes_ones k
      omega
    have present := read (length_beBytes k n)
    rwa [ne, if_neg Bool.false_ne_true, number] at present

theorem reads_takeText {t : Text} (fits : t.length ≤ 255) : Reads (takeText 255) (textField t) t := by
  have length : (BitVec.ofNat 8 t.length : Byte).toNat = t.length := by
    rw [BitVec.toNat_ofNat]
    exact Nat.mod_eq_of_lt (by omega)
  exact (reads_takeByte _).bind (.ite_pos (by rw [length]; exact fits) (reads_takeBytes length.symm))

theorem reads_takeLicenceText {t : Text} (fits : t.length = 0 ∨ t.length = 18) :
    Reads takeLicenceText (licenceText t) t := by
  unfold licenceText
  split
  next empty => subst empty; exact fun _ => rfl
  next present =>
    have length : t.length = 18 := fits.resolve_left fun zero => present (List.eq_nil_of_length_eq_zero zero)
    have licence : Reads takeLicence (0x12 :: t) (some t) :=
      (reads_takeByte 0x12).bind (.ite_neg (by decide) (.ite_pos (by decide) (reads_takeBytes length).map))
    exact licence.map

/-! ### The layouts of requests -/

theorem reads_takeContextKey {k : ContextKey} (fits : fitsKey k = true) :
    Reads takeContextKey (contextKeyField k).flatten k := by
  cases k with
  | slot n =>
    have read := reads_u8 (n := n) (by simpa [fitsKey, fitsBytes] using fits)
    exact (reads_takeByte 1).bind (.ite_pos rfl read.map)
  | licence t =>
    have read := reads_takeLicenceText (t := t) (by simpa [fitsKey, fitsLicence] using fits)
    exact (reads_takeByte 2).bind (.ite_neg (by decide) (.ite_pos rfl read.map.last))

theorem reads_takeItem {x : ItemFields} (fits : fitsItem x = true) : Reads takeItem (itemField x) x := by
  have kind {k : Byte} {bs : List Byte} {r : Byte → Reader ItemFields} (read : Reads (r k) bs x) :
      Reads (takeByte >>= r) (k :: bs) x := (reads_takeByte k).bind read
  cases x with
  | text t => exact kind (.ite_pos rfl (reads_takeText (by simpa [fitsItem, fitsText] using fits)).map)
  | field c w a f =>
    exact kind (.ite_neg (by decide) (.ite_pos rfl ((reads_takeByte c).bind ((reads_takeByte w).bind
      ((reads_takeByte a).bind (reads_takeByte f).map)))))
  | newline => exact kind (.ite_neg (by decide) (.ite_neg (by decide) (.ite_pos rfl (.pure _))))
  | linesBegin =>
    exact kind (.ite_neg (by decide) (.ite_neg (by decide) (.ite_neg (by decide) (.ite_pos rfl (.pure _)))))
  | linesEnd =>
    exact kind (.ite_neg (by decide) (.ite_neg (by decide) (.ite_neg (by decide) (.ite_neg (by decide)
      (.ite_pos rfl (.pure _))))))
  | ifBonded =>
    exact kind (.ite_neg (by decide) (.ite_neg (by decide) (.ite_neg (by decide) (.ite_neg (by decide)
      (.ite_neg (by decide) (.ite_pos rfl (.pure _)))))))
  | endIf =>
    exact kind (.ite_neg (by decide) (.ite_neg (by decide) (.ite_neg (by decide) (.ite_neg (by decide)
      (.ite_neg (by decide) (.ite_neg (by decide) (.ite_pos rfl (.pure _))))))))
  | barcode b =>
    exact kind (.ite_neg (by decide) (.ite_neg (by decide) (.ite_neg (by decide) (.ite_neg (by decide)
      (.ite_neg (by decide) (.ite_neg (by decide) (.ite_neg (by decide) (.ite_pos rfl (reads_takeByte b).map))))))))
  | endItem =>
    exact kind (.ite_neg (by decide) (.ite_neg (by decide) (.ite_neg (by decide) (.ite_neg (by decide)
      (.ite_neg (by decide) (.ite_neg (by decide) (.ite_neg (by decide) (.ite_neg (by decide)
      (.ite_pos rfl (.pure _))))))))))
  | unknown k =>
    have range : k = 0 ∨ 9 < k.toNat := by simpa [fitsItem] using fits
    have ne (n : Byte) (known : 0 < n.toNat ∧ n.toNat ≤ 9) : ¬ k = n := by
      rintro rfl
      rcases range with rfl | high
      · exact absurd known.1 (by decide)
      · omega
    exact kind (.ite_neg (ne 1 (by decide)) (.ite_neg (ne 2 (by decide)) (.ite_neg (ne 3 (by decide))
      (.ite_neg (ne 4 (by decide)) (.ite_neg (ne 5 (by decide)) (.ite_neg (ne 6 (by decide))
      (.ite_neg (ne 7 (by decide)) (.ite_neg (ne 8 (by decide)) (.ite_neg (ne 9 (by decide)) (.pure _))))))))))

theorem reads_takeTest {t : TestFields} (fits : fitsTest t = true) : Reads takeTest (testField t) t := by
  obtain ⟨o, w, k, lo, hi⟩ := t
  simp only [fitsTest, fitsBytes, Bool.and_eq_true, Bool.or_eq_true, decide_eq_true_eq, beq_iff_eq] at fits
  obtain ⟨⟨⟨⟨⟨offset, width⟩, low⟩, high⟩, one⟩, two⟩ := fits
  have head {bs : List Byte} {r : Nat → Nat → Byte → Reader TestFields} (read : Reads (r o w k) bs ⟨o, w, k, lo, hi⟩) :
      Reads (takeNat 1 >>= fun o => takeNat 1 >>= fun w => takeByte >>= fun k => r o w k)
        (u8 o ++ (u8 w ++ ([k] ++ bs))) ⟨o, w, k, lo, hi⟩ :=
    (reads_u8 offset).bind ((reads_u8 width).bind ((reads_takeByte k).bind read))
  refine head ?_
  dsimp only
  by_cases single : k = 1 ∨ k = 2
  · have zero : hi = 0 := one.resolve_left fun three => by rw [three] at single; exact absurd single (by decide)
    rw [if_pos single, if_pos single, zero]
    exact (reads_takeNat low).map
  · rw [if_neg single, if_neg single]
    by_cases three : k = 3
    · rw [if_pos three, if_pos three]
      exact (reads_takeNat low).bind (reads_takeNat high).map
    · have zeroHi : hi = 0 := one.resolve_left three
      have zeroLo : lo = 0 := two.resolve_left fun h => h.elim (fun h => h.elim (fun e => single (.inl e)) fun e => single (.inr e)) three
      rw [if_neg three, if_neg three, zeroHi, zeroLo]
      exact .pure _

theorem reads_takePlanLine {l : PlanLine} (article : l.article.length = 14) (count : l.count < 256) :
    Reads takePlanLine (l.article ++ u8 l.count) l := (reads_takeBytes article).bind (reads_u8 count).map

theorem reads_takePair {x : Nat × Nat} (number : x.1 < 256) (value : x.2 < 256 ^ 4) :
    Reads takePair (u8 x.1 ++ beBytes 4 x.2) x := (reads_u8 number).bind (reads_takeNat value).map

end

end Sys2Proof.Machine

namespace Sys2Proof.Proofs

open Sys2Proof Sys2Proof.Machine

section
variable {src tag : Byte}

theorem fieldsFit {i : Instr} (well : (fitsFields i && fitsParts i) = true) : fitsFields i = true :=
  ((Bool.and_eq_true _ _).mp well).1

theorem reads_articlePut {f : ArticleFields} (fits : fitsFields (.articlePut src tag f) = true) :
    Reads (takeRequest 0x01 src tag) (requestFields (.articlePut src tag f)).flatten (.articlePut src tag f) := by
  simp only [fitsFields, fitsText, fitsBytes, Bool.and_eq_true, decide_eq_true_eq, beq_iff_eq] at fits
  obtain ⟨⟨⟨⟨⟨⟨key, description⟩, caseWeight⟩, caseTol⟩, perLayer⟩, height⟩, volume⟩ := fits
  have read : Reads takeArticle (requestFields (.articlePut src tag f)).flatten f :=
    (reads_takeBytes key).bind ((reads_takeText description).bind ((reads_takeNat caseWeight).bind
      ((reads_takeNat caseTol).bind ((reads_u8 perLayer).bind ((reads_takeNat height).bind ((reads_takeNat volume).bind
      (reads_takeByte _).map.last))))))
  exact read.map

theorem reads_consignmentPut {f : ConsignmentFields} (fits : fitsFields (.consignmentPut src tag f) = true) :
    Reads (takeRequest 0x06 src tag) (requestFields (.consignmentPut src tag f)).flatten (.consignmentPut src tag f) := by
  simp only [fitsFields, fitsText, fitsBytes, Bool.and_eq_true, decide_eq_true_eq, beq_iff_eq] at fits
  obtain ⟨⟨⟨⟨⟨⟨⟨number, customer⟩, shelfLife⟩, lots⟩, sightings⟩, template⟩, bay⟩, recipe⟩ := fits
  have read : Reads takeConsignment (requestFields (.consignmentPut src tag f)).flatten f :=
    (reads_takeBytes number).bind ((reads_takeText customer).bind ((reads_takeNat shelfLife).bind
      ((reads_u8 lots).bind ((reads_u8 sightings).bind ((reads_takeByte _).bind ((reads_u8 template).bind
      ((reads_u8 bay).bind (reads_u8 recipe).map.last)))))))
  exact read.map

theorem reads_planPut {f : PlanFields} (fits : fitsFields (.planPut src tag f) = true) :
    Reads (takeRequest 0x0B src tag) (requestFields (.planPut src tag f)).flatten (.planPut src tag f) := by
  simp only [fitsFields, fitsLicence, fitsBytes, fitsCount, Bool.and_eq_true, Bool.or_eq_true, decide_eq_true_eq,
    beq_iff_eq, List.all_eq_true] at fits
  obtain ⟨⟨⟨⟨⟨⟨licence, consignment⟩, tare⟩, height⟩, recipe⟩, count⟩, lines⟩ := fits
  have recipe : ∀ n, f.recipe = some n → n + 1 < 256 ^ 1 := fun n e => by simpa [fitsOpt, e] using recipe
  have rows : Reads (takeMany takePlanLine f.lines.length) (f.lines.flatMap fun l => l.article ++ u8 l.count) f.lines :=
    .many fun l mem => reads_takePlanLine (lines l mem).1 (lines l mem).2
  have read : Reads takePlan (licenceText f.licence ++ (f.consignment ++ (beBytes 4 f.tare ++ (beBytes 2 f.baseHeight ++
      (optBytes 1 f.recipe ++ (u8 f.lines.length ++ f.lines.flatMap fun l => l.article ++ u8 l.count)))))) f :=
    (reads_takeLicenceText licence).bind ((reads_takeBytes consignment).bind ((reads_takeNat tare).bind
      ((reads_takeNat height).bind ((reads_takeOpt recipe).bind ((reads_u8 (Nat.lt_succ_of_le count)).bind rows.map)))))
  have fields : (requestFields (.planPut src tag f)).flatten = licenceText f.licence ++ (f.consignment ++ (beBytes 4 f.tare
      ++ (beBytes 2 f.baseHeight ++ (optBytes 1 f.recipe ++ (u8 f.lines.length
      ++ f.lines.flatMap fun l => l.article ++ u8 l.count))))) := by
    simp [requestFields, List.flatMap_def, List.flatten_flatten, List.map_map, Function.comp_def]
  rw [fields]
  exact read.map

theorem reads_planGet {k : PlanKey} (fits : fitsFields (.planGet src tag k) = true) :
    Reads (takeRequest 0x0D src tag) (requestFields (.planGet src tag k)).flatten (.planGet src tag k) := by
  cases k with
  | licence t =>
    have licence : t.length = 0 ∨ t.length = 18 := by simpa [fitsFields, fitsLicence] using fits
    exact (reads_takeByte 1).bind (.ite_pos rfl (reads_takeLicenceText licence).map.last)
  | slot n =>
    have small : n < 256 ^ 2 := by simpa [fitsFields, fitsBytes] using fits
    exact (reads_takeByte 2).bind (.ite_neg (by decide) (.ite_pos rfl (reads_takeNat small).map.last))

theorem reads_stationGet (k : StationKey) :
    Reads (takeRequest 0x11 src tag) (requestFields (.stationGet src tag k)).flatten (.stationGet src tag k) := by
  cases k with
  | address a => exact (reads_takeByte 1).bind (.ite_pos rfl (reads_takeByte a).map)
  | role r i => exact (reads_takeByte 2).bind (.ite_neg (by decide) (.ite_pos rfl ((reads_takeByte r).bind (reads_takeByte i).map)))

theorem reads_holdAdd {f : HoldFields} (fits : fitsFields (.holdAdd src tag f) = true) :
    Reads (takeRequest 0x20 src tag) (requestFields (.holdAdd src tag f)).flatten (.holdAdd src tag f) := by
  simp only [fitsFields, fitsText, fitsBytes, Bool.and_eq_true, decide_eq_true_eq, beq_iff_eq] at fits
  obtain ⟨⟨⟨article, lot⟩, code⟩, placed⟩ := fits
  have read : Reads takeHold (requestFields (.holdAdd src tag f)).flatten f :=
    (reads_takeBytes article).bind ((reads_takeText lot).bind ((reads_takeByte _).bind ((reads_u8 code).bind
      (reads_takeNat placed).map.last)))
  exact read.map

theorem reads_holdNext {k : Option (Text × Text)} (fits : fitsFields (.holdNext src tag k) = true) :
    Reads (takeRequest 0x23 src tag) (requestFields (.holdNext src tag k)).flatten (.holdNext src tag k) := by
  cases k with
  | none => exact (reads_takeByte 2).bind (.ite_neg (by decide) (.ite_pos rfl (.pure _)))
  | some k =>
    have both : k.1.length = 14 ∧ k.2.length ≤ 255 := by simpa [fitsFields, fitsText] using fits
    exact (reads_takeByte 1).bind (.ite_pos rfl ((reads_takeBytes both.1).bind (reads_takeText both.2).map.last))

theorem reads_wrapperConfig {w t : Nat} {rs : List Nat} (fits : fitsFields (.wrapperConfig src tag w rs t) = true) :
    Reads (takeRequest 0x35 src tag) (requestFields (.wrapperConfig src tag w rs t)).flatten (.wrapperConfig src tag w rs t) := by
  simp only [fitsFields, fitsBytes, fitsCount, Bool.and_eq_true, decide_eq_true_eq, List.all_eq_true] at fits
  obtain ⟨⟨⟨wrapper, count⟩, recipes⟩, warmUp⟩ := fits
  have list : Reads (takeMany (takeNat 1) rs.length) (rs.flatMap u8) rs := .many fun r mem => reads_u8 (recipes r mem)
  have fields : (requestFields (.wrapperConfig src tag w rs t)).flatten =
      u8 w ++ (u8 rs.length ++ (rs.flatMap u8 ++ beBytes 4 t)) := by
    simp [requestFields, List.flatMap_def]
  rw [fields]
  exact (reads_u8 wrapper).bind ((reads_u8 (Nat.lt_succ_of_le count)).bind (list.bind (reads_takeNat warmUp).map))

theorem reads_templateItems {xs : List ItemFields} (fits : fitsFields (.templateItems src tag xs) = true) :
    Reads (takeRequest 0x41 src tag) (requestFields (.templateItems src tag xs)).flatten (.templateItems src tag xs) := by
  simp only [fitsFields, fitsCount, Bool.and_eq_true, decide_eq_true_eq, List.all_eq_true] at fits
  have list : Reads (takeMany takeItem xs.length) (xs.flatMap itemField) xs := .many fun x mem => reads_takeItem (fits.2 x mem)
  rw [List.flatMap_def] at list
  exact (reads_u8 (Nat.lt_succ_of_le fits.1)).bind list.map

theorem reads_watchPut {f : WatchFields} (fits : fitsFields (.watchPut src tag f) = true) :
    Reads (takeRequest 0x50 src tag) (requestFields (.watchPut src tag f)).flatten (.watchPut src tag f) := by
  simp only [fitsFields, fitsBytes, fitsCount, Bool.and_eq_true, decide_eq_true_eq, List.all_eq_true] at fits
  obtain ⟨⟨⟨⟨screen, source⟩, kind⟩, count⟩, tests⟩ := fits
  have source : ∀ n, f.source = some n → n + 1 < 256 ^ 1 := fun n e => by simpa [fitsOpt, e] using source
  have kind : ∀ n, f.kind = some n → n + 1 < 256 ^ 2 := fun n e => by simpa [fitsOpt, e] using kind
  have list : Reads (takeMany takeTest f.tests.length) (f.tests.flatMap testField) f.tests :=
    .many fun t mem => reads_takeTest (tests t mem)
  have read : Reads takeWatch (u8 f.screen ++ ([f.enabled] ++ (optBytes 1 f.source ++ (optBytes 2 f.kind ++
      (u8 f.tests.length ++ (f.tests.flatMap testField ++ ([f.combine] ++ [f.action]))))))) f :=
    (reads_u8 screen).bind ((reads_takeByte _).bind ((reads_takeOpt source).bind ((reads_takeOpt kind).bind
      ((reads_u8 (Nat.lt_succ_of_le count)).bind (list.bind ((reads_takeByte _).bind (reads_takeByte _).map))))))
  have fields : (requestFields (.watchPut src tag f)).flatten = u8 f.screen ++ ([f.enabled] ++ (optBytes 1 f.source ++
      (optBytes 2 f.kind ++ (u8 f.tests.length ++ (f.tests.flatMap testField ++ ([f.combine] ++ [f.action])))))) := by
    simp [requestFields, List.flatMap_def]
  rw [fields]
  exact read.map

theorem reads_watchGet {n st : Nat} {p : Byte} (fits : fitsFields (.watchGet src tag n p st) = true) :
    Reads (takeRequest 0x51 src tag) (requestFields (.watchGet src tag n p st)).flatten (.watchGet src tag n p st) := by
  simp only [fitsFields, fitsBytes, Bool.and_eq_true, Bool.or_eq_true, decide_eq_true_eq, beq_iff_eq] at fits
  obtain ⟨⟨screen, start⟩, part⟩ := fits
  have fields : requestFields (.watchGet src tag n p st) = if p = 2 then [u8 n, [p], u8 st] else [u8 n, [p]] := rfl
  rw [fields]
  by_cases capture : p = 2
  · rw [if_pos capture]
    exact (reads_u8 screen).bind ((reads_takeByte p).bind (.ite_pos capture (reads_u8 start).map))
  · have zero : st = 0 := part.resolve_left capture
    rw [if_neg capture, zero]
    exact (reads_u8 screen).bind ((reads_takeByte p).bind (.ite_neg capture (.pure _)))

theorem reads_paramSet {ps : List (Nat × Nat)} (fits : fitsFields (.paramSet src tag ps) = true) :
    Reads (takeRequest 0x65 src tag) (requestFields (.paramSet src tag ps)).flatten (.paramSet src tag ps) := by
  simp only [fitsFields, fitsBytes, fitsCount, Bool.and_eq_true, decide_eq_true_eq, List.all_eq_true] at fits
  have list : Reads (takeMany takePair ps.length) (ps.flatMap fun p => u8 p.1 ++ beBytes 4 p.2) ps :=
    .many fun p mem => reads_takePair (fits.2 p mem).1 (fits.2 p mem).2
  have fields : (requestFields (.paramSet src tag ps)).flatten =
      u8 ps.length ++ ps.flatMap fun p => u8 p.1 ++ beBytes 4 p.2 := by
    simp [requestFields, List.flatMap_def, List.flatten_flatten, List.map_map, Function.comp_def]
  rw [fields]
  exact (reads_u8 (Nat.lt_succ_of_le fits.1)).bind list.map

theorem reads_paramGet {ns : List Nat} (fits : fitsFields (.paramGet src tag ns) = true) :
    Reads (takeRequest 0x66 src tag) (requestFields (.paramGet src tag ns)).flatten (.paramGet src tag ns) := by
  simp only [fitsFields, fitsBytes, fitsCount, Bool.and_eq_true, decide_eq_true_eq, List.all_eq_true] at fits
  have list : Reads (takeMany (takeNat 1) ns.length) (ns.flatMap u8) ns := .many fun n mem => reads_u8 (fits.2 n mem)
  rw [List.flatMap_def] at list
  exact (reads_u8 (Nat.lt_succ_of_le fits.1)).bind list.map

theorem reads_caseMapGet {k : ContextKey} {n : Nat} (fits : fitsFields (.caseMapGet src tag k n) = true) :
    Reads (takeRequest 0x32 src tag) (requestFields (.caseMapGet src tag k n)).flatten (.caseMapGet src tag k n) := by
  simp only [fitsFields, fitsBytes, Bool.and_eq_true, decide_eq_true_eq] at fits
  have fields : (requestFields (.caseMapGet src tag k n)).flatten = (contextKeyField k).flatten ++ u8 n := by
    simp [requestFields]
  rw [fields]
  exact (reads_takeContextKey fits.1).bind (reads_u8 fits.2).map

end

/-- A number that fits its bytes. -/
theorem numberFits {k n : Nat} (fits : fitsBytes k n = true) : n < 256 ^ k := of_decide_eq_true fits

theorem lengthIs {t : Text} {n : Nat} (fits : (t.length == n) = true) : t.length = n := beq_iff_eq.mp fits

theorem licenceFits {t : Text} (fits : fitsLicence t = true) : t.length = 0 ∨ t.length = 18 := by
  simpa [fitsLicence] using fits

/-- Settles O13, by the layout of each request. -/
theorem requestRoundTrip : Obligations.RequestRoundTrip := by
  intro i code well isCode
  cases i with
  | articlePut src tag f => cases isCode; exact ⟨src, tag, whole_of_reads (reads_articlePut (fieldsFit well))⟩
  | articleDelete src tag k =>
    cases isCode
    exact ⟨src, tag, whole_of_reads (r := takeRequest 0x02 src tag) (reads_takeBytes (lengthIs (fieldsFit well))).map.last⟩
  | articleGet src tag k =>
    cases isCode
    exact ⟨src, tag, whole_of_reads (r := takeRequest 0x03 src tag) (reads_takeBytes (lengthIs (fieldsFit well))).map.last⟩
  | articleNext src tag k =>
    cases isCode
    exact ⟨src, tag, whole_of_reads (r := takeRequest 0x04 src tag) (reads_takeBytes (lengthIs (fieldsFit well))).map.last⟩
  | consignmentPut src tag f => cases isCode; exact ⟨src, tag, whole_of_reads (reads_consignmentPut (fieldsFit well))⟩
  | consignmentDelete src tag n =>
    cases isCode
    exact ⟨src, tag, whole_of_reads (r := takeRequest 0x07 src tag) (reads_takeBytes (lengthIs (fieldsFit well))).map.last⟩
  | consignmentGet src tag n =>
    cases isCode
    exact ⟨src, tag, whole_of_reads (r := takeRequest 0x08 src tag) (reads_takeBytes (lengthIs (fieldsFit well))).map.last⟩
  | consignmentNext src tag n =>
    cases isCode
    exact ⟨src, tag, whole_of_reads (r := takeRequest 0x09 src tag) (reads_takeBytes (lengthIs (fieldsFit well))).map.last⟩
  | planPut src tag f => cases isCode; exact ⟨src, tag, whole_of_reads (reads_planPut (fieldsFit well))⟩
  | planDelete src tag t =>
    cases isCode
    exact ⟨src, tag, whole_of_reads (r := takeRequest 0x0C src tag)
      (reads_takeLicenceText (licenceFits (fieldsFit well))).map.last⟩
  | planGet src tag k => cases isCode; exact ⟨src, tag, whole_of_reads (reads_planGet (fieldsFit well))⟩
  | planNext src tag o =>
    cases isCode
    have fits : ∀ n, o = some n → n + 1 < 256 ^ 2 := by
      rintro n rfl
      exact of_decide_eq_true (fieldsFit well)
    exact ⟨src, tag, whole_of_reads (r := takeRequest 0x0E src tag) (reads_takeOpt fits).map.last⟩
  | stationPut src tag a r n =>
    cases isCode
    exact ⟨src, tag, whole_of_reads (r := takeRequest 0x10 src tag)
      ((reads_takeByte a).bind ((reads_takeByte r).bind (reads_takeByte n).map))⟩
  | stationGet src tag k => cases isCode; exact ⟨src, tag, whole_of_reads (reads_stationGet k)⟩
  | holdAdd src tag f => cases isCode; exact ⟨src, tag, whole_of_reads (reads_holdAdd (fieldsFit well))⟩
  | holdRelease src tag a l =>
    cases isCode
    have fits : a.length = 14 ∧ l.length ≤ 255 := by simpa [fitsFields, fitsText] using fieldsFit well
    exact ⟨src, tag, whole_of_reads (r := takeRequest 0x21 src tag)
      ((reads_takeBytes fits.1).bind (reads_takeText fits.2).map.last)⟩
  | holdNext src tag k => cases isCode; exact ⟨src, tag, whole_of_reads (reads_holdNext (fieldsFit well))⟩
  | currency src tag g d =>
    cases isCode
    have fits : g < 256 ^ 2 ∧ d < 256 ^ 2 := by simpa [fitsFields, fitsBytes] using fieldsFit well
    exact ⟨src, tag, whole_of_reads (r := takeRequest 0x24 src tag)
      ((reads_takeNat fits.1).bind (reads_takeNat fits.2).map.last)⟩
  | laneClear src tag n =>
    cases isCode
    exact ⟨src, tag, whole_of_reads (r := takeRequest 0x30 src tag) (reads_u8 (numberFits (fieldsFit well))).map⟩
  | contextGet src tag k =>
    cases isCode
    exact ⟨src, tag, whole_of_reads (r := takeRequest 0x31 src tag) (reads_takeContextKey (fieldsFit well)).map⟩
  | caseMapGet src tag k n => cases isCode; exact ⟨src, tag, whole_of_reads (reads_caseMapGet (fieldsFit well))⟩
  | scaleClear src tag n =>
    cases isCode
    exact ⟨src, tag, whole_of_reads (r := takeRequest 0x34 src tag) (reads_u8 (numberFits (fieldsFit well))).map⟩
  | wrapperConfig src tag w rs t => cases isCode; exact ⟨src, tag, whole_of_reads (reads_wrapperConfig (fieldsFit well))⟩
  | templateBegin src tag n =>
    cases isCode
    exact ⟨src, tag, whole_of_reads (r := takeRequest 0x40 src tag) (reads_u8 (numberFits (fieldsFit well))).map⟩
  | templateItems src tag xs => cases isCode; exact ⟨src, tag, whole_of_reads (reads_templateItems (fieldsFit well))⟩
  | templateGet src tag n p =>
    cases isCode
    have fits : n < 256 ∧ p < 256 := by simpa [fitsFields, fitsBytes] using fieldsFit well
    exact ⟨src, tag, whole_of_reads (r := takeRequest 0x43 src tag) ((reads_u8 fits.1).bind (reads_u8 fits.2).map)⟩
  | labelGet src tag k =>
    cases isCode
    exact ⟨src, tag, whole_of_reads (r := takeRequest 0x44 src tag) (reads_takeContextKey (fieldsFit well)).map⟩
  | logGet src tag n =>
    cases isCode
    exact ⟨src, tag, whole_of_reads (r := takeRequest 0x45 src tag) (reads_takeNat (numberFits (fieldsFit well))).map.last⟩
  | watchPut src tag f => cases isCode; exact ⟨src, tag, whole_of_reads (reads_watchPut (fieldsFit well))⟩
  | watchGet src tag n p st => cases isCode; exact ⟨src, tag, whole_of_reads (reads_watchGet (fieldsFit well))⟩
  | watchAck src tag n =>
    cases isCode
    exact ⟨src, tag, whole_of_reads (r := takeRequest 0x52 src tag) (reads_u8 (numberFits (fieldsFit well))).map⟩
  | paramSet src tag ps => cases isCode; exact ⟨src, tag, whole_of_reads (reads_paramSet (fieldsFit well))⟩
  | paramGet src tag ns => cases isCode; exact ⟨src, tag, whole_of_reads (reads_paramGet (fieldsFit well))⟩
  | articleClear src tag | consignmentClear src tag | planClear src tag | holdClear src tag | retryWaiting src tag
  | templateEnd src tag | go src tag | drain src tag | halt src tag | restart src tag | clearRejectAll src tag
  | statusGet src tag =>
    cases isCode
    exact ⟨src, tag, rfl⟩
  | _ => cases isCode

end Sys2Proof.Proofs
end

