-- ==== Sys2Proof/Proofs/Slice0/Wrappers.lean ====
section
/-! Changes of one wrapper's record: by its state's report (R106), and by the orders it is sent (R108, R113, R156). -/

namespace Sys2Proof.Machine

open Sys2Proof

/-- The record of a wrapper becomes x; the other wrappers, the car, the spur and the held-output orders stay, and an
arbiter that is due stays due. -/
structure State.WrapperTo (w : WrapperNo) (x : Wrapper) (s t : State) : Prop where
  self   : t.wrapper w = x
  others : ∀ v, v ≠ w → t.wrapper v = s.wrapper v
  car    : t.alloc.car = s.alloc.car
  spur   : t.alloc.spur = s.alloc.spur
  held   : t.alloc.held = s.alloc.held
  due    : s.alloc.arbiterDue = true → t.alloc.arbiterDue = true

section
variable {s t u : State} {w : WrapperNo} {x y : Wrapper} {o : Option WrapOrder} {f : Wrapper → Wrapper}

theorem State.WrapperTo.refl (w : WrapperNo) (s : State) : State.WrapperTo w (s.wrapper w) s s :=
  ⟨rfl, fun _ _ => rfl, rfl, rfl, rfl, id⟩

theorem State.WrapperTo.trans (h : State.WrapperTo w x s t) (k : State.WrapperTo w y t u) : State.WrapperTo w y s u :=
  ⟨k.self, fun v ne => (k.others v ne).trans (h.others v ne), k.car.trans h.car, k.spur.trans h.spur,
    k.held.trans h.held, k.due ∘ h.due⟩

/-- An operation that leaves the wrappers, the car, the spur and the held-output orders. -/
theorem State.WrapperTo.of_called (called : t.alloc = { s.alloc with arbiterDue := t.alloc.arbiterDue })
    (due : s.alloc.arbiterDue = true → t.alloc.arbiterDue = true) : State.WrapperTo w (s.wrapper w) s t := by
  have wrapper (v : WrapperNo) : t.wrapper v = s.wrapper v := by
    unfold State.wrapper
    rw [called]
  exact ⟨wrapper w, fun v _ => wrapper v, by rw [called], by rw [called], by rw [called], due⟩

theorem State.Only.wrapperTo {bs : List Block} (h : State.Only bs s t) (out : Block.alloc ∉ bs := by decide) :
    State.WrapperTo w (s.wrapper w) s t := by
  have alloc := h.alloc.resolve_left out
  exact .of_called (by rw [alloc]) (by rw [alloc]; exact id)

theorem State.wrapperTo_callArbiter : State.WrapperTo w (s.wrapper w) s s.callArbiter := .of_called rfl fun _ => rfl

/-- A further operation that leaves the allocator. -/
theorem State.WrapperTo.next_only {bs : List Block} (h : State.WrapperTo w x s t) (k : State.Only bs t u)
    (out : Block.alloc ∉ bs := by decide) : State.WrapperTo w x s u := by
  have same := k.wrapperTo (w := w) out
  rw [h.self] at same
  exact h.trans same

theorem State.WrapperTo.callArbiter (h : State.WrapperTo w x s t) : State.WrapperTo w x s t.callArbiter := by
  have same := State.wrapperTo_callArbiter (s := t) (w := w)
  rw [h.self] at same
  exact h.trans same

/-- A change of the record alone. -/
theorem State.wrapperTo_modWrapper (f : Wrapper → Wrapper) : State.WrapperTo w (f (s.wrapper w)) s (s.modWrapper w f) where
  self := (State.wrapper_modWrapper w w f s).trans (if_pos rfl)
  others v ne := (State.wrapper_modWrapper w v f s).trans (if_neg (Ne.symm ne))
  car := rfl
  spur := rfl
  held := rfl
  due := id

theorem State.WrapperTo.of_alloc (h : State.WrapperTo w x s t) (same : u.alloc = t.alloc) : State.WrapperTo w x s u := by
  have wrapper (v : WrapperNo) : u.wrapper v = t.wrapper v := by
    unfold State.wrapper
    rw [same]
  exact ⟨(wrapper w).trans h.self, fun v ne => (wrapper v).trans (h.others v ne), by rw [same, h.car],
    by rw [same, h.spur], by rw [same, h.held], fun due => by rw [same, h.due due]⟩

theorem State.wrapperTo_setWrapper (cause : Config.UnitCause) (f : Wrapper → Wrapper) :
    State.WrapperTo w (f (s.wrapper w)) s (s.setWrapper w cause f) := by
  refine (State.wrapperTo_modWrapper f).of_alloc ?_
  unfold State.setWrapper
  dsimp only
  split
  · rfl
  · exact (State.report_only _ _).alloc.resolve_left (by decide)

/-! ### WRAP_ORDER and WRAPPER_OUTPUT (R108, R113) -/

theorem State.take_wrapOrder {o : WrapOrder} (order : (s.wrapper w).wrapOrder = some o) :
    s.take (.wrapOrder w) = (s.toRole (.wrapper w) kWrapOrder o.payload, s.modWrapper w fun x => { x with wrapOrder := none }) := by
  unfold State.take
  simp only [order]

theorem State.take_wrapOutput {c : OutputCmd} (order : (s.wrapper w).output = some c) : s.take (.wrapOutput w) =
    match s.toRole (.wrapper w) kWrapperOutput (u8 c.code) with
    | some t => (some t, s.modWrapper w fun x => { x with output := none, lastOutput := c })
    | none => (none, s.modWrapper w fun x => { x with output := none }) := by
  unfold State.take
  simp only [order] <;> rfl

theorem State.modWrapper_modWrapper (w : WrapperNo) (f g : Wrapper → Wrapper) (s : State) :
    (s.modWrapper w f).modWrapper w g = s.modWrapper w (g ∘ f) := by
  simp [State.modWrapper, State.onAlloc, Function.comp]

theorem State.heldCount_wrapOrder : s.heldCount (.wrapOrder w) = if (s.wrapper w).wrapOrder.isSome then 1 else 0 := rfl

theorem State.heldCount_wrapOutput : s.heldCount (.wrapOutput w) = if (s.wrapper w).output.isSome then 1 else 0 := rfl

theorem State.sendWrapOrder_out (w : WrapperNo) (o : WrapOrder) (s : State) : State.OrderOut (.wrapOrder w) (.wrapper w) 0x22
    (BitVec.ofNat 8 o.recipe :: licenceField o.licence)
    (s.modWrapper w fun x => { x with wrapOrder := some o }) (s.modWrapper w fun x => { x with wrapOrder := none })
    (s.modWrapper w fun x => { x with wrapOrder := none }) (s.sendWrapOrder w o) := by
  have order : ((s.modWrapper w fun x => { x with wrapOrder := some o }).wrapper w).wrapOrder = some o :=
    congrArg Wrapper.wrapOrder (State.wrapperTo_modWrapper _).self
  have empty : ((s.modWrapper w fun x => { x with wrapOrder := none }).wrapper w).wrapOrder = none :=
    congrArg Wrapper.wrapOrder (State.wrapperTo_modWrapper _).self
  have gone : (s.modWrapper w fun x => { x with wrapOrder := none }).heldCount (.wrapOrder w) = 0 := by
    rw [State.heldCount_wrapOrder, empty]
    rfl
  refine State.orderOut_offer (by rw [State.heldCount_wrapOrder, order]; rfl) rfl (fun a holder => ?_) (fun holder => ?_)
    (fun _ => gone) gone
  · rw [State.take_wrapOrder order, State.modWrapper_modWrapper]
    simp only [State.toRole, holder, Option.map_some]
    rfl
  · rw [State.take_wrapOrder order, State.modWrapper_modWrapper]
    simp only [State.toRole, holder, Option.map_none]
    rfl

/-- A newer output order that equals the last one is dropped with the one that waits. -/
theorem State.sendOutput_of_last {c : OutputCmd} (waits : (s.wrapper w).output.isSome = true)
    (last : (s.wrapper w).lastOutput = c) : s.sendOutput w c =
      (s.modWrapper w fun x => { x with output := none }).onRing fun r => { r with
        waiting := r.waiting.erase (.wrapOutput w) } := by
  have empty : ((s.modWrapper w fun x => { x with output := none }).wrapper w).output = none :=
    congrArg Wrapper.output (State.wrapperTo_modWrapper _).self
  have gone : (s.modWrapper w fun x => { x with output := none }).hasMore (.wrapOutput w) = false := by
    unfold State.hasMore
    rw [State.heldCount_wrapOutput, empty]
    rfl
  unfold State.sendOutput
  dsimp only
  rw [waits, last, beq_self_eq_true, Bool.and_true, if_pos rfl, State.prune, gone, if_neg Bool.false_ne_true]

theorem State.sendOutput_out {c : OutputCmd} (new : (s.wrapper w).output = none ∨ (s.wrapper w).lastOutput ≠ c) :
    State.OrderOut (.wrapOutput w) (.wrapper w) 0x23 [if c = .hold then 1 else 2]
      (s.modWrapper w fun x => { x with output := some c }) (s.modWrapper w fun x => { x with output := none, lastOutput := c })
      (s.modWrapper w fun x => { x with output := none }) (s.sendOutput w c) := by
  have sent : s.sendOutput w c = (s.modWrapper w fun x => { x with output := some c }).offer (.wrapOutput w) := by
    refine if_neg fun both => ?_
    obtain ⟨some, same⟩ := (Bool.and_eq_true _ _).mp both
    rcases new with none | ne
    · rw [none] at some
      cases some
    · exact ne (beq_iff_eq.mp same)
  have order : ((s.modWrapper w fun x => { x with output := some c }).wrapper w).output = some c :=
    congrArg Wrapper.output (State.wrapperTo_modWrapper _).self
  have emptied (f : Wrapper → Wrapper) (none : ∀ x, (f x).output = none) :
      (s.modWrapper w f).heldCount (.wrapOutput w) = 0 := by
    rw [State.heldCount_wrapOutput, (State.wrapperTo_modWrapper f).self, none]
    rfl
  have payload : u8 c.code = [if c = .hold then 1 else 2] := by cases c <;> rfl
  rw [sent]
  refine State.orderOut_offer (by rw [State.heldCount_wrapOutput, order]; rfl) rfl (fun a holder => ?_) (fun holder => ?_)
    (fun _ => emptied (fun x => { x with output := none, lastOutput := c }) fun _ => rfl)
    (emptied (fun x => { x with output := none }) fun _ => rfl)
  · rw [State.take_wrapOutput order, State.modWrapper_modWrapper, payload]
    simp only [State.toRole, holder, Option.map_some]
    rfl
  · rw [State.take_wrapOutput order, State.modWrapper_modWrapper, State.modWrapper_modWrapper]
    simp only [State.toRole, holder, Option.map_none]
    rfl

/-- However an order leaves, the allocator is as it holds the order, as it placed it or as it dropped it. -/
theorem State.OrderOut.alloc {h : Holder} {r : RoleInst} {k : Byte} {p : List Byte} {held placed unsent : State}
    (out : State.OrderOut h r k p held placed unsent u) :
    u.alloc = held.alloc ∨ u.alloc = placed.alloc ∨ u.alloc = unsent.alloc := by
  by_cases waits : h ∈ held.ring.waiting
  · exact .inl (congrArg State.alloc (out.keeps waits))
  · by_cases free : held.ring.waiting = []
    · rcases Nat.lt_or_ge held.ring.origin.length 32 with room | full
      · cases holder : held.holderOf r with
        | some a => exact .inr (.inl (by rw [out.leaves free room a holder]))
        | none => exact .inr (.inr (congrArg State.alloc (out.nobody free room holder)))
      · exact .inl (by rw [out.joins waits (.inr full)])
    · exact .inl (by rw [out.joins waits (.inl free)])

theorem State.wrapperTo_sendWrapOrder (o : WrapOrder) :
    ∃ q, State.WrapperTo w { s.wrapper w with wrapOrder := q } s (s.sendWrapOrder w o) := by
  rcases (State.sendWrapOrder_out w o s).alloc with h | h | h
  · exact ⟨_, (State.wrapperTo_modWrapper _).of_alloc h⟩
  · exact ⟨_, (State.wrapperTo_modWrapper _).of_alloc h⟩
  · exact ⟨_, (State.wrapperTo_modWrapper _).of_alloc h⟩

theorem State.wrapperTo_sendOutput (c : OutputCmd) :
    ∃ q l, State.WrapperTo w { s.wrapper w with output := q, lastOutput := l } s (s.sendOutput w c) := by
  by_cases again : (s.wrapper w).output.isSome = true ∧ (s.wrapper w).lastOutput = c
  · rw [State.sendOutput_of_last again.1 again.2]
    exact ⟨none, (s.wrapper w).lastOutput, (State.wrapperTo_modWrapper fun x => { x with output := none }).of_alloc rfl⟩
  · have new : (s.wrapper w).output = none ∨ (s.wrapper w).lastOutput ≠ c := by
      rw [not_and_or, Bool.not_eq_true, Option.isSome_eq_false_iff, Option.isNone_iff_eq_none] at again
      exact again
    rcases (State.sendOutput_out new).alloc with h | h | h
    · exact ⟨some c, (s.wrapper w).lastOutput, (State.wrapperTo_modWrapper fun x => { x with output := some c }).of_alloc h⟩
    · exact ⟨none, c, (State.wrapperTo_modWrapper fun x => { x with output := none, lastOutput := c }).of_alloc h⟩
    · exact ⟨none, (s.wrapper w).lastOutput, (State.wrapperTo_modWrapper fun x => { x with output := none }).of_alloc h⟩

theorem State.wrapperTo_dropWrapOrder : State.WrapperTo w { s.wrapper w with wrapOrder := none } s (s.dropWrapOrder w) :=
  (State.wrapperTo_modWrapper fun x => { x with wrapOrder := none }).of_alloc
    ((State.prune_only _ _).alloc.resolve_left (by decide))

/-! ### Reasons (R73) leave the wrappers -/

theorem State.wrapperTo_addLater (id : CtxId) (c : Context) (v : Verdict) (r : Reason) :
    State.WrapperTo w (s.wrapper w) s (s.addLater id c v r) := by
  have reported : State.WrapperTo w (s.wrapper w) s ((s.putCtx id.slot
      (some { c with reasons := insertReason r c.reasons, verdict := some (v.max r.severity) })).report
        (verdictReport id.slot { c with reasons := insertReason r c.reasons, verdict := some (v.max r.severity) }
          (.later v r) (v.max r.severity))) :=
    ((State.putCtx_only _ _ _).first.next (State.report_only _ _) : State.Only [.tracker, .ring, .mgmt] _ _).wrapperTo
  unfold State.addLater
  dsimp only
  generalize State.report _ _ = u at reported
  have called : State.WrapperTo w (s.wrapper w) s
      (if v.max r.severity ≠ v ∧ c.phase = .atHeadDecided then u.callArbiter else u) := by
    split
    · exact reported.callArbiter
    · exact reported
  split
  · exact called.next_only (State.tellRaise_only _ _ _)
  · exact called

theorem State.wrapperTo_handReason (id : CtxId) (r : Reason) : State.WrapperTo w (s.wrapper w) s (s.handReason id r) := by
  unfold State.handReason
  split
  · exact .refl w s
  · split
    · exact .refl w s
    · split
      · exact (State.modCtx_only _ _ _).wrapperTo
      · exact State.wrapperTo_addLater _ _ _ _

end

end Sys2Proof.Machine
end

