-- ==== Sys2Proof/Proofs/Slice0/WrapsFail.lean ====
section
/-! WRAP_FAULT and the expiry of wrap_limit, by the state of the wrapper (R110). -/

namespace Sys2Proof.Machine

open Sys2Proof

section
variable {s t u : State} {i : Slot} {c : Context} {w : WrapperNo} {r : Reason} {cause : Config.UnitCause}

/-! ### A reason handed with the timer stopped -/

theorem State.stopped_of_core {d : Context} (core : s.core i = some d.core) :
    ∃ e, (s.stopTimer i).ctx i = some e ∧ e.core = { d with timer := none }.core := by
  have stopped := State.core_stopTimer i s
  rw [core] at stopped
  obtain ⟨e, he, same⟩ := Option.map_eq_some_iff.mp stopped
  exact ⟨e, he, same⟩

/-- A context for which a reason is handed and whose timer then stops. -/
theorem State.handed_stopped (hc : s.ctx i = some c) (r : Reason) :
    ∃ d, ((s.handReason ⟨i, c.adm⟩ r).stopTimer i).ctx i = some d ∧ d.core = { c.handed r with timer := none }.core :=
  State.stopped_of_core (State.core_handReason (State.named_of_ctx hc) r)

theorem Context.of_handed_stopped {d : Context} (core : d.core = { c.handed r with timer := none }.core) :
    r ∈ d.reasons ∧ d.timer = none ∧ d.phase = c.phase := by
  have reasons : d.reasons = (c.handed r).reasons := congrArg (·.reasons) core
  have phase : d.phase = (c.handed r).phase := congrArg (·.phase) core
  exact ⟨by rw [reasons]; exact c.mem_handed r, congrArg (·.timer) core, by rw [phase, Context.phase_handed]⟩

theorem State.ctx_setWrapper (f : Wrapper → Wrapper) : (s.setWrapper w cause f).tracker = s.tracker :=
  (State.setWrapper_only _ _ _ _).tracker.resolve_left (by decide)

/-! ### WRAP_FAULT by the state of the wrapper -/

theorem State.failWrap_of_wrapping (state : (s.wrapper w).state = .loaded ∨ (s.wrapper w).state = .wrapping) :
    s.failWrap w cause r = (match (s.wrapper w).pallet with
      | .context id => (s.handReason id r).stopTimer id.slot
      | _ => s).setWrapper w cause fun x => { x with state := .fault, progress := some .faulted } := by
  unfold State.failWrap
  rcases state with state | state
  · rw [state] <;> rfl
  · rw [state] <;> rfl

theorem State.failWrap_of_idle
    (state : (s.wrapper w).state = .offline ∨ (s.wrapper w).state = .warming ∨ (s.wrapper w).state = .idle) :
    s.failWrap w cause r = s.setWrapper w cause fun x => { x with state := .fault, warmTimer := none } := by
  unfold State.failWrap
  rcases state with state | state | state
  · rw [state]
  · rw [state]
  · rw [state]

theorem State.failWrap_of_doneHeld (state : (s.wrapper w).state = .doneHeld) :
    s.failWrap w cause r = s.modWrapper w fun x => { x with afterRelease := .fault } := by
  unfold State.failWrap
  rw [state]

theorem State.failWrap_of_fault (state : (s.wrapper w).state = .fault) : s.failWrap w cause r = s := by
  unfold State.failWrap
  rw [state]

/-- A wrap that fails leaves the wrapper in FAULT with the wrap FAULTED. -/
theorem State.wrapperTo_failWrap (state : (s.wrapper w).state = .loaded ∨ (s.wrapper w).state = .wrapping) :
    State.WrapperTo w { s.wrapper w with state := .fault, progress := some .faulted } s (s.failWrap w cause r) := by
  rw [State.failWrap_of_wrapping state]
  have told : State.WrapperTo w (s.wrapper w) s (match (s.wrapper w).pallet with
      | .context id => (s.handReason id r).stopTimer id.slot
      | _ => s) := by
    split
    · exact (State.wrapperTo_handReason _ r).next_only (State.stopTimer_only _ _)
    · exact .refl w s
  have set := State.wrapperTo_setWrapper (w := w) (s := match (s.wrapper w).pallet with
      | .context id => (s.handReason id r).stopTimer id.slot
      | _ => s) cause fun x => { x with state := .fault, progress := some .faulted }
  rw [told.self] at set
  exact told.trans set

/-- The context of a wrap that fails takes the reason, its timer stopped. -/
theorem State.ctx_failWrap (state : (s.wrapper w).state = .loaded ∨ (s.wrapper w).state = .wrapping)
    (pallet : (s.wrapper w).pallet = .context ⟨i, c.adm⟩) (hc : s.ctx i = some c) :
    ∃ d, (s.failWrap w cause r).ctx i = some d ∧ r ∈ d.reasons ∧ d.timer = none ∧ d.phase = c.phase := by
  obtain ⟨d, hd, core⟩ := State.handed_stopped hc r
  obtain ⟨reason, timer, phase⟩ := Context.of_handed_stopped core
  refine ⟨d, ?_, reason, timer, phase⟩
  rw [State.failWrap_of_wrapping state, pallet]
  exact (congrArg (fun x : Tracker => x.slots[i]) (State.ctx_setWrapper _)).trans hd

/-- In each state the other wrappers stay. -/
theorem State.others_failWrap (v : WrapperNo) (ne : v ≠ w) : (s.failWrap w cause r).wrapper v = s.wrapper v := by
  cases state : (s.wrapper w).state with
  | loaded => exact (State.wrapperTo_failWrap (.inl state)).others v ne
  | wrapping => exact (State.wrapperTo_failWrap (.inr state)).others v ne
  | offline | warming | idle =>
    rw [State.failWrap_of_idle (by rw [state]; simp)]
    exact (State.wrapperTo_setWrapper _ _).others v ne
  | doneHeld =>
    rw [State.failWrap_of_doneHeld state]
    exact (State.wrapperTo_modWrapper _).others v ne
  | fault => rw [State.failWrap_of_fault state]

theorem State.wrapping_state (found : s.wrapping i = some w) :
    (s.wrapper w).state = .loaded ∨ (s.wrapper w).state = .wrapping := by
  have fit := List.find?_some (p := fun w => ((s.wrapper w).state == .loaded || (s.wrapper w).state == .wrapping)
      && (match (s.wrapper w).pallet with
        | .context id => id.slot == i
        | _ => false)) found
  have running := ((Bool.and_eq_true _ _).mp fit).1
  rwa [Bool.or_eq_true, beq_iff_eq, beq_iff_eq] at running

theorem exec_wrapLimitExpiry (awake : s.ctl.inReset = false) : exec (.wrapLimitExpiry i) s = .next (s.wrapLimit i) := by
  show Host.Outcome.next (s.awake _) = _
  rw [State.awake_of_running awake]

end

end Sys2Proof.Machine

namespace Sys2Proof.Proofs

open Sys2Proof Sys2Proof.Machine

/-- Settles O36, by the state of the wrapper. -/
theorem wrapFails : Obligations.WrapFails := by
  refine fun s w => ⟨fun dst src fits => ?_, fun i c awake hc => ⟨fun off => ?_, fun phase timer found pallet => ?_⟩⟩
  · have takes : exec (.wrapFault dst src) s =
        .next (State.settle .wrapFault ((s.passed ⟨dst, src, 0x08, [5]⟩).failWrap w .wrapFault .wrapFault)) :=
      exec_wrapFault fits
    have alloc : (s.passed ⟨dst, src, 0x08, [5]⟩).alloc = s.alloc := State.passed_alloc _ s
    have tracker : (s.passed ⟨dst, src, 0x08, [5]⟩).tracker = s.tracker := State.passed_tracker _ s
    generalize s.passed ⟨dst, src, 0x08, [5]⟩ = a at takes alloc tracker
    have wrapper (v : WrapperNo) : a.wrapper v = s.wrapper v := congrArg (fun x : Allocator => x.wrappers[v]) alloc
    refine ⟨_, takes, fun state => ?_, fun state => ?_, fun state => ?_, fun state => ?_, fun v ne => ?_⟩
    · rw [State.failWrap_of_fault (by rw [wrapper, state])]
    · rw [State.failWrap_of_doneHeld (by rw [wrapper, state])]
    · rw [State.failWrap_of_idle (by rw [wrapper]; exact state), ← wrapper w]
      exact ⟨(State.wrapperTo_setWrapper _ _).self, (State.ctx_setWrapper _).trans tracker⟩
    · rw [← wrapper w] at state ⊢
      refine ⟨(State.wrapperTo_failWrap state).self, fun i c pallet hc => ?_⟩
      have hc : a.ctx i = some c := (congrArg (fun x : Tracker => x.slots[i]) tracker).trans hc
      exact State.ctx_failWrap state pallet hc
    · rw [State.others_failWrap v ne, wrapper]
  · rw [exec_wrapLimitExpiry awake, State.wrapLimit, State.onExpiry_of_not hc off]
  · have state := State.wrapping_state found
    obtain ⟨d, hd, reason, stopped, same⟩ := State.ctx_failWrap (cause := .wrapLimit) (r := .wrapTimeout) state pallet hc
    refine ⟨s.failWrap w .wrapLimit .wrapTimeout, d, ?_, (State.wrapperTo_failWrap state).self, hd, reason, stopped,
      same.trans phase, fun v ne => State.others_failWrap v ne⟩
    rw [exec_wrapLimitExpiry awake, State.wrapLimit, State.onExpiry_of_timed hc phase timer, found]

end Sys2Proof.Proofs
end

