-- ==== Sys2Proof/Proofs/Slice0/WrapperWork.lean ====
section
/-! What the work of a wrapper leaves: a warm-up and its end (R107), an output given up to a label line or held behind
it (R109), and the first start of a wrap (R108). -/

namespace Sys2Proof.Machine

open Sys2Proof

section
variable {s t u : State} {i : Slot} {c : Context} {w : WrapperNo} {k : LineNo} {cause : Config.UnitCause} {fromFault : Bool}
  {f : Wrapper → Wrapper}

/-! ### Footprints -/

theorem State.orderWrap_only (w : WrapperNo) (s : State) : State.Only [.tracker, .alloc, .ring] s (s.orderWrap w) := by
  unfold State.orderWrap
  split
  · exact (State.modCtx_only _ _ _).first.next (State.sendWrapOrder_only _ _ _)
  · exact .refl _ _

theorem State.callArbiter_only (s : State) : State.Only [.alloc] s s.callArbiter := State.onAlloc_only _ _

/-! ### The end of a warm-up (R107) -/

theorem State.endWarmUp_of_empty (pallet : (s.wrapper w).pallet = .none) : s.endWarmUp w =
    (s.setWrapper w .warmUpEnd fun x => { x with state := .idle, warmTimer := none }).callArbiter := by
  unfold State.endWarmUp
  rw [pallet]

/-- An empty wrapper becomes IDLE. -/
theorem State.wrapperTo_endWarmUp (pallet : (s.wrapper w).pallet = .none) :
    State.WrapperTo w { s.wrapper w with state := .idle, warmTimer := none } s (s.endWarmUp w)
      ∧ (s.endWarmUp w).alloc.arbiterDue = true ∧ State.Only [.alloc, .ring, .mgmt] s (s.endWarmUp w) := by
  rw [State.endWarmUp_of_empty pallet]
  have set := State.wrapperTo_setWrapper (w := w) (s := s) .warmUpEnd fun x => { x with state := .idle, warmTimer := none }
  exact ⟨set.callArbiter, rfl,
    (State.setWrapper_only _ _ _ _).next (State.callArbiter_only _)⟩

/-- The WRAP_ORDER of a context and its timer, which are all that ordering a wrap changes. -/
theorem State.orderWrap_spec (pallet : (s.wrapper w).pallet = .context ⟨i, c.adm⟩) (hc : s.ctx i = some c) :
    s.orderWrap w = (s.putCtx i (some { c with timer := some s.ctl.params.wrapLimit })).sendWrapOrder w
        ⟨(s.wrapper w).recipe.getD 0, c.licence⟩
      ∧ (s.orderWrap w).ctx i = some { c with timer := some s.ctl.params.wrapLimit }
      ∧ State.SameContexts [i] s (s.orderWrap w)
      ∧ ∃ q, State.WrapperTo w { s.wrapper w with wrapOrder := q } s (s.orderWrap w) := by
  have eq : s.orderWrap w = (s.putCtx i (some { c with timer := some s.ctl.params.wrapLimit })).sendWrapOrder w
      ⟨(s.wrapper w).recipe.getD 0, c.licence⟩ := by
    unfold State.orderWrap
    rw [pallet]
    show (s.modCtx i _).sendWrapOrder w ⟨_, (s.named ⟨i, c.adm⟩).bind (·.licence)⟩ = _
    rw [State.named_of_ctx hc, State.modCtx_of_ctx hc]
    rfl
  have sent := State.sendWrapOrder_only w ⟨(s.wrapper w).recipe.getD 0, c.licence⟩
    (s.putCtx i (some { c with timer := some s.ctl.params.wrapLimit }))
  have ctx (j : Slot) : (s.orderWrap w).ctx j = (s.putCtx i (some { c with timer := some s.ctl.params.wrapLimit })).ctx j := by
    rw [eq]
    exact congrArg (fun x : Tracker => x.slots[j]) (sent.tracker.resolve_left (by decide))
  refine ⟨eq, (ctx i).trans (State.ctx_putCtx_self _ _ _), fun j out => (ctx j).trans ?_, ?_⟩
  · exact State.ctx_putCtx_of_ne (fun e => out (by simp [e])) _ _
  · rw [eq]
    obtain ⟨q, leads⟩ := State.wrapperTo_sendWrapOrder (w := w)
      (s := s.putCtx i (some { c with timer := some s.ctl.params.wrapLimit })) ⟨(s.wrapper w).recipe.getD 0, c.licence⟩
    exact ⟨q, leads.self, leads.others, leads.car, leads.spur, leads.held, leads.due⟩

/-- A wrapper with a delivered context becomes LOADED, its wrap ordered. -/
theorem State.endWarmUp_of_delivered (pallet : (s.wrapper w).pallet = .context ⟨i, c.adm⟩)
    (progress : (s.wrapper w).progress = some .delivered) (hc : s.ctx i = some c) :
    (∃ v, State.Only [.tracker, .alloc, .ring, .mgmt] s v
        ∧ s.endWarmUp w = v.sendWrapOrder w ⟨(s.wrapper w).recipe.getD 0, c.licence⟩)
      ∧ (s.endWarmUp w).ctx i = some { c with timer := some s.ctl.params.wrapLimit }
      ∧ State.SameContexts [i] s (s.endWarmUp w)
      ∧ ∃ q, State.WrapperTo w { s.wrapper w with
          state := .loaded, progress := some .ordered, warmTimer := none, wrapOrder := q } s (s.endWarmUp w) := by
  have eq : s.endWarmUp w = (s.setWrapper w .warmUpEnd fun x =>
      { x with state := .loaded, progress := some .ordered, warmTimer := none }).orderWrap w := by
    unfold State.endWarmUp
    rw [pallet, if_pos progress]
  have set := State.wrapperTo_setWrapper (w := w) (s := s) .warmUpEnd fun x =>
      { x with state := .loaded, progress := some .ordered, warmTimer := none }
  have only := State.setWrapper_only w .warmUpEnd (fun x =>
      { x with state := .loaded, progress := some .ordered, warmTimer := none }) s
  rw [eq]
  generalize s.setWrapper w .warmUpEnd _ = v at set only
  have tracker := only.tracker.resolve_left (by decide)
  have params : v.ctl = s.ctl := only.ctl.resolve_left (by decide)
  have at_v : v.ctx i = some c := (congrArg (fun x : Tracker => x.slots[i]) tracker).trans hc
  obtain ⟨ordered, there, others, q, leads⟩ := State.orderWrap_spec (w := w) (by rw [set.self]; exact pallet) at_v
  rw [params] at there ordered
  rw [set.self] at leads ordered
  refine ⟨⟨_, only.first.next (State.putCtx_only i _ v), ordered⟩, there, fun j out => ?_, q, set.trans leads⟩
  exact (others j out).trans (congrArg (fun x : Tracker => x.slots[j]) tracker)

/-! ### A warm-up (R107, R110) -/

/-- The output left held is opened when the wrapper comes from a fault. -/
def State.opened (w : WrapperNo) (fromFault : Bool) (s : State) : State :=
  if fromFault && (s.wrapper w).lastOutput == .hold then s.sendOutput w .release else s

theorem State.opened_of_hold (last : (s.wrapper w).lastOutput = .hold) : s.opened w true = s.sendOutput w .release := by
  unfold State.opened
  rw [last]
  rfl

theorem State.opened_of_release (off : fromFault = false ∨ (s.wrapper w).lastOutput = .release) : s.opened w fromFault = s := by
  unfold State.opened
  rcases off with off | last
  · rw [off]
    rfl
  · rw [last]
    cases fromFault <;> rfl

theorem State.opened_only (w : WrapperNo) (fromFault : Bool) (s : State) : State.Only [.ring, .alloc] s (s.opened w fromFault) :=
  .ite (State.sendOutput_only _ _ _) (.refl _ _)

/-- Opening the output changes the output orders, and those only where there is one to open. -/
theorem State.wrapperTo_opened : ∃ q l, State.WrapperTo w { s.wrapper w with output := q, lastOutput := l } s (s.opened w fromFault)
    ∧ (fromFault = false ∨ (s.wrapper w).lastOutput = .release → q = (s.wrapper w).output) := by
  by_cases off : fromFault = false ∨ (s.wrapper w).lastOutput = .release
  · rw [State.opened_of_release off]
    exact ⟨_, _, .refl w s, fun _ => rfl⟩
  · rw [not_or, Bool.not_eq_false] at off
    obtain ⟨rfl, last⟩ := off
    have last : (s.wrapper w).lastOutput = .hold := by
      cases eq : (s.wrapper w).lastOutput with
      | hold => rfl
      | release => exact absurd eq last
    rw [State.opened_of_hold last]
    obtain ⟨q, l, leads⟩ := State.wrapperTo_sendOutput (s := s) (w := w) .release
    exact ⟨q, l, leads, fun off => absurd off (by rw [last]; decide)⟩

/-- The wrapper enters WARMING, its output is opened, and a warm_up of 0 ends at once. -/
theorem State.warm_spec (keeps : ∀ x, (f x).warmUp = x.warmUp) :
    ∃ v, State.WrapperTo w { f (s.wrapper w) with state := .warming, warmTimer := some (s.wrapper w).warmUp } s v
      ∧ State.Only [.alloc, .ring, .mgmt] s v
      ∧ s.warm w cause fromFault f =
          if (s.wrapper w).warmUp = 0 then State.endWarmUp w (v.opened w fromFault) else v.opened w fromFault := by
  have set := State.wrapperTo_setWrapper (w := w) (s := s) cause fun x =>
    { f x with state := .warming, warmTimer := some x.warmUp }
  refine ⟨_, set, State.setWrapper_only _ _ _ _, ?_⟩
  have warmUp : ((State.opened w fromFault (s.setWrapper w cause fun x =>
      { f x with state := .warming, warmTimer := some x.warmUp })).wrapper w).warmUp = (s.wrapper w).warmUp := by
    obtain ⟨q, l, leads, -⟩ := State.wrapperTo_opened (fromFault := fromFault) (w := w) (s := s.setWrapper w cause fun x =>
      { f x with state := .warming, warmTimer := some x.warmUp })
    rw [leads.self, set.self]
    exact keeps _
  rw [← warmUp]
  rfl

/-- The record a warm-up leaves before it ends. -/
theorem State.wrapperTo_warm (keeps : ∀ x, (f x).warmUp = x.warmUp) (outputs : ∀ x, (f x).output = x.output
      ∧ (f x).lastOutput = x.lastOutput) : ∃ v q l,
    State.WrapperTo w { f (s.wrapper w) with
        state := .warming, warmTimer := some (s.wrapper w).warmUp, output := q, lastOutput := l } s v
      ∧ State.Only [.alloc, .ring, .mgmt] s v
      ∧ (fromFault = false ∨ (s.wrapper w).lastOutput = .release → q = (s.wrapper w).output)
      ∧ s.warm w cause fromFault f = if (s.wrapper w).warmUp = 0 then State.endWarmUp w v else v := by
  obtain ⟨v, set, only, eq⟩ := State.warm_spec (s := s) (w := w) (cause := cause) (fromFault := fromFault) keeps
  obtain ⟨q, l, leads, off⟩ := State.wrapperTo_opened (s := v) (w := w) (fromFault := fromFault)
  rw [set.self] at leads off
  refine ⟨_, q, l, set.trans leads, only.next (State.opened_only _ _ _), fun h => ?_, eq⟩
  rw [off (h.imp id (outputs _).2.trans)]
  exact (outputs _).1

/-- A warm-up of a wrapper that has no pallet, or gives its pallet up. -/
theorem State.warm_of_empty (keeps : ∀ x, (f x).warmUp = x.warmUp) (outputs : ∀ x, (f x).output = x.output
      ∧ (f x).lastOutput = x.lastOutput) (empty : (f (s.wrapper w)).pallet = .none)
    (warmed : s.warm w cause fromFault f = u) : ∃ q l p x,
    State.WrapperTo w { f (s.wrapper w) with state := p, warmTimer := x, output := q, lastOutput := l } s u
      ∧ State.Only [.alloc, .ring, .mgmt] s u
      ∧ (fromFault = false ∨ (s.wrapper w).lastOutput = .release → q = (s.wrapper w).output)
      ∧ ((s.wrapper w).warmUp ≠ 0 → p = .warming ∧ x = some (s.wrapper w).warmUp)
      ∧ ((s.wrapper w).warmUp = 0 → p = .idle ∧ x = none ∧ u.alloc.arbiterDue = true) := by
  obtain ⟨v, q, l, leads, only, off, eq⟩ := State.wrapperTo_warm (s := s) (w := w) (cause := cause) (fromFault := fromFault)
    keeps outputs
  rw [← warmed, eq]
  by_cases zero : (s.wrapper w).warmUp = 0
  · rw [if_pos zero]
    obtain ⟨ended, due, after⟩ := State.wrapperTo_endWarmUp (s := v) (w := w) (by rw [leads.self]; exact empty)
    rw [leads.self] at ended
    exact ⟨q, l, _, _, leads.trans ended, only.trans after, off, fun ne => absurd zero ne, fun _ => ⟨rfl, rfl, due⟩⟩
  · rw [if_neg zero]
    exact ⟨q, l, _, _, leads, only, off, fun _ => ⟨rfl, rfl⟩, fun zero' => absurd zero' zero⟩

/-! ### An output given up (R109) -/

/-- The context joins its label line as QUEUED_LABEL, and the wrapper gives it up. -/
theorem State.joinLine_spec (pallet : (s.wrapper w).pallet = .context ⟨i, c.adm⟩) (hc : s.ctx i = some c)
    (line : lineOfWrapper w = k) : ∃ v d, s.joinLine w cause fromFault = v.giveUp w cause fromFault
      ∧ State.Only [.tracker, .labels, .ring] s v ∧ v.line k = s.line k ++ [i] ∧ v.ctx i = some d
      ∧ d.core = { c with phase := .queuedLabel, timer := none }.core
      ∧ ∀ m, m ≠ k → v.line m = s.line m := by
  have started := State.startJobs_only k ((s.modLine k fun l => l ++ [i]).enter i .queuedLabel none)
  have tracks := State.startJobs_tracks (is := []) k ((s.modLine k fun l => l ++ [i]).enter i .queuedLabel none)
  have entered : ((s.modLine k fun l => l ++ [i]).enter i .queuedLabel none).ctx i =
      some { c with phase := .queuedLabel, timer := none } := by
    rw [State.enter_of_ctx (s := s.modLine k _) hc, State.ctx_putCtx_self]
  obtain ⟨d, hd, core⟩ := State.ctx_of_core (State.core_eq_of_tracks tracks) entered
  have labels := started.labels.resolve_left (by decide)
  have line_eq (m : LineNo) : (((s.modLine k fun l => l ++ [i]).enter i .queuedLabel none).startJobs k).line m =
      if k = m then s.line k ++ [i] else s.line m := by
    rw [State.line, labels]
    show (s.labels.lines.set k (s.labels.lines[k] ++ [i]))[m] = _
    simp only [State.line, Fin.getElem_fin, Vector.getElem_set, Fin.val_inj]
  refine ⟨_, d, ?_, ?_, (line_eq k).trans (if_pos rfl), hd, core, fun m ne => (line_eq m).trans (if_neg (Ne.symm ne))⟩
  · unfold State.joinLine
    rw [pallet, ← line]
  · exact ((State.onLabels_only _ _).first.next (State.enter_only _ _ _ _)).next started

theorem State.wrapperTo_giveUp (given : s.giveUp w cause fromFault = u) : ∃ q l p x,
    State.WrapperTo w { (s.wrapper w).emptied with state := p, warmTimer := x, output := q, lastOutput := l } s u
      ∧ State.Only [.alloc, .ring, .mgmt] s u
      ∧ (fromFault = false ∨ (s.wrapper w).lastOutput = .release → q = (s.wrapper w).output)
      ∧ ((s.wrapper w).afterRelease = .idle → p = .idle ∧ u.alloc.arbiterDue = true)
      ∧ ((s.wrapper w).afterRelease = .offline → p = .offline)
      ∧ ((s.wrapper w).afterRelease = .fault → p = .fault)
      ∧ ((s.wrapper w).afterRelease = .warming →
          ((s.wrapper w).warmUp ≠ 0 → p = .warming ∧ x = some (s.wrapper w).warmUp)
          ∧ ((s.wrapper w).warmUp = 0 → p = .idle ∧ x = none ∧ u.alloc.arbiterDue = true)) := by
  subst given
  unfold State.giveUp
  cases after : (s.wrapper w).afterRelease with
  | idle =>
    exact ⟨_, _, _, _, (State.wrapperTo_setWrapper cause fun x => { x.emptied with state := .idle }).callArbiter,
      (State.setWrapper_only _ _ _ _).next (State.callArbiter_only _), fun _ => rfl, fun _ => ⟨rfl, rfl⟩, nofun, nofun, nofun⟩
  | warming =>
    obtain ⟨q, l, p, x, leads, only, off, some, zero⟩ := State.warm_of_empty (s := s) (w := w) (cause := cause)
      (fromFault := fromFault) (f := Wrapper.emptied) (fun _ => rfl) (fun _ => ⟨rfl, rfl⟩) rfl rfl
    exact ⟨q, l, p, x, leads, only, off, nofun, nofun, nofun, fun _ => ⟨some, zero⟩⟩
  | offline =>
    exact ⟨_, _, _, _, State.wrapperTo_setWrapper cause fun x => { x.emptied with state := .offline },
      State.setWrapper_only _ _ _ _, fun _ => rfl, nofun, fun _ => rfl, nofun, nofun⟩
  | fault =>
    exact ⟨_, _, _, _, State.wrapperTo_setWrapper cause fun x => { x.emptied with state := .fault },
      State.setWrapper_only _ _ _ _, fun _ => rfl, nofun, nofun, fun _ => rfl, nofun⟩

/-! ### A wrap that ends (R109) -/

theorem State.finishWrap_of_room (line : lineOfWrapper w = k) (room : (s.line k).length < 3) (unheld : s.alloc.held[k] = []) :
    s.finishWrap w cause fromFault = s.joinLine w cause fromFault := by
  subst line
  exact if_pos ⟨room, unheld⟩

/-- Behind a full line, or one for which a wrapper is held, the wrapper is DONE_HELD. -/
theorem State.finishWrap_of_full (line : lineOfWrapper w = k) (full : 3 ≤ (s.line k).length ∨ s.alloc.held[k] ≠ []) :
    ∃ v, s.finishWrap w cause fromFault = v.sendOutput w .hold
      ∧ v.wrapper w = { s.wrapper w with state := .doneHeld, progress := some .done }
      ∧ (∀ x, x ≠ w → v.wrapper x = s.wrapper x) ∧ v.alloc.held = s.alloc.held.set k (s.alloc.held[k] ++ [w])
      ∧ State.Only [.alloc, .ring, .mgmt] s v := by
  have set := State.wrapperTo_setWrapper (w := w) (s := s) cause fun x => { x with state := .doneHeld, progress := some .done }
  subst line
  refine ⟨(s.setWrapper w cause fun x => { x with state := .doneHeld, progress := some .done }).modHeld (lineOfWrapper w)
    fun l => l ++ [w], if_neg fun both => ?_, set.self, set.others, ?_, ?_⟩
  · rcases full with full | held
    · exact absurd both.1 (Nat.not_lt.mpr full)
    · exact held both.2
  · rw [← set.held]
    rfl
  · exact (State.setWrapper_only _ _ _ _).next (State.onAlloc_only _ _)

theorem State.held_setSelf (held : t.alloc.held = s.alloc.held.set k (s.alloc.held[k] ++ [w])) :
    t.alloc.held[k] = s.alloc.held[k] ++ [w] := by
  rw [held]
  simp

/-! ### The first start of a wrap (R108) -/

/-- The mark of the first start, and the dispatch label that is then asked for. -/
theorem State.firstStart_spec (hc : s.ctx i = some c) : ∃ d, (s.firstStart ⟨i, c.adm⟩).ctx i = some d
    ∧ d.core = { c with wrapStarted := true }.core
    ∧ (c.wrapStarted = false → c.verdict = some .pass → c.compStatus = .none → d.compStatus ≠ .none)
    ∧ (c.wrapStarted = true ∨ c.verdict ≠ some .pass → d.compStatus = c.compStatus) := by
  unfold State.firstStart
  simp only [State.named_of_ctx hc]
  cases again : c.wrapStarted with
  | true =>
    have same : { c with wrapStarted := true } = c := by rw [← again]
    exact ⟨c, hc, by rw [same], nofun, fun _ => rfl⟩
  | false =>
    have marked : (s.modCtx i fun c => { c with wrapStarted := true }).ctx i = some { c with wrapStarted := true } := by
      rw [State.modCtx_of_ctx hc, State.ctx_putCtx_self]
    by_cases pass : c.verdict = some .pass
    · rw [if_pos pass]
      obtain ⟨d, hd, core⟩ := State.ctx_of_core (State.core_eq_of_tracks
        (State.requestLabel_tracks (is := []) ⟨i, c.adm⟩ .dispatchLabel _)) marked
      refine ⟨d, hd, core, fun _ _ unasked => ?_, fun off => absurd pass (off.resolve_left Bool.false_ne_true)⟩
      obtain ⟨d', hd', asked⟩ := State.asked_requestLabel
        (State.named_of_ctx (c := { c with wrapStarted := true }) marked) unasked .dispatchLabel
      obtain rfl : d = d' := Option.some.inj (hd.symm.trans hd')
      exact asked
    · rw [if_neg pass]
      exact ⟨_, marked, rfl, fun _ yes => absurd yes pass, fun _ => rfl⟩

theorem State.firstStart_only (id : CtxId) (s : State) : State.Only [.tracker, .composer] s (s.firstStart id) := by
  unfold State.firstStart
  split
  · exact .refl _ _
  · split
    · exact .refl _ _
    · exact .ite ((State.modCtx_only _ _ _).first.next (State.requestLabel_only _ _ _)) (State.modCtx_only _ _ _).first

end

end Sys2Proof.Machine
end

