-- ==== Sys2Proof/Proofs/Slice0/WrapsRun.lean ====
section
/-! WRAP_STARTED and WRAP_DONE at a wrapper in each of its states (R108, R109), and the WRAPPER_OUTPUT orders (R113). -/

namespace Sys2Proof.Machine

open Sys2Proof

section
variable {s t u : State} {i : Slot} {c : Context} {w : WrapperNo} {k : LineNo} {src dst : Byte}

theorem State.passed_wrapper (x : Telegram) (s : State) (v : WrapperNo) : (s.passed x).wrapper v = s.wrapper v :=
  congrArg (fun a : Allocator => a.wrappers[v]) (State.passed_alloc x s)

/-! ### The wrapper events by the wrapper's state -/

theorem State.wrapperEvent_started (loaded : (s.wrapper w).state = .loaded) : s.wrapperEvent src w 3 = s.startWrap w := by
  simp [State.wrapperEvent, loaded]

theorem State.wrapperEvent_started_of_other (off : (s.wrapper w).state ≠ .loaded) :
    s.wrapperEvent src w 3 = s.stray 0x08 src none none .noCandidate := by
  cases state : (s.wrapper w).state with
  | loaded => exact absurd state off
  | offline | warming | idle | wrapping | doneHeld | fault => simp [State.wrapperEvent, state, kWrapperEvent]

theorem State.wrapperEvent_done (running : (s.wrapper w).state = .loaded ∨ (s.wrapper w).state = .wrapping) :
    s.wrapperEvent src w 4 = (s.endWrap w).settle .wrapDone := by
  rcases running with state | state
  · simp [State.wrapperEvent, state]
  · simp [State.wrapperEvent, state]

theorem State.wrapperEvent_done_of_other (off : (s.wrapper w).state ≠ .loaded) (off' : (s.wrapper w).state ≠ .wrapping) :
    s.wrapperEvent src w 4 = s.stray 0x08 src none none .noCandidate := by
  cases state : (s.wrapper w).state with
  | loaded => exact absurd state off
  | wrapping => exact absurd state off'
  | offline | warming | idle | doneHeld | fault => simp [State.wrapperEvent, state, kWrapperEvent]

/-! ### WRAP_STARTED in LOADED (R108) -/

theorem State.startWrap_only (w : WrapperNo) (s : State) : State.Only [.alloc, .ring, .mgmt, .tracker, .composer] s (s.startWrap w) := by
  unfold State.startWrap
  split
  · exact (State.setWrapper_only _ _ _ _).first.next (State.firstStart_only _ _)
  · exact (State.setWrapper_only _ _ _ _).first

theorem State.wrapperTo_startWrap :
    State.WrapperTo w { s.wrapper w with state := .wrapping, progress := some .started } s (s.startWrap w) := by
  have set := State.wrapperTo_setWrapper (w := w) (s := s) .wrapStarted fun x =>
    { x with state := .wrapping, progress := some .started }
  unfold State.startWrap
  split
  · exact set.next_only (State.firstStart_only _ _)
  · exact set

theorem State.startWrap_spec (pallet : (s.wrapper w).pallet = .context ⟨i, c.adm⟩) (hc : s.ctx i = some c) :
    ∃ d, (s.startWrap w).ctx i = some d ∧ d.core = { c with wrapStarted := true }.core
      ∧ (c.wrapStarted = false → c.verdict = some .pass → c.compStatus = .none → d.compStatus ≠ .none)
      ∧ (c.wrapStarted = true ∨ c.verdict ≠ some .pass → d.compStatus = c.compStatus) := by
  unfold State.startWrap
  rw [pallet]
  exact State.firstStart_spec ((congrArg (fun x : Tracker => x.slots[i]) (State.ctx_setWrapper _)).trans hc)

/-! ### WRAP_DONE in LOADED or WRAPPING (R109) -/

/-- Before it joins its line or is held behind it, the wrap is DONE and its context's timer stopped. -/
theorem State.endWrap_spec (pallet : (s.wrapper w).pallet = .context ⟨i, c.adm⟩) (hc : s.ctx i = some c) :
    ∃ v d, s.endWrap w = v.finishWrap w .wrapDone false ∧ State.Only [.tracker, .composer, .alloc] s v ∧ v.ctx i = some d
      ∧ (d.verdict, d.phase, d.timer, d.adm) = (c.verdict, c.phase, none, c.adm)
      ∧ State.WrapperTo w { s.wrapper w with progress := some .done } s v := by
  obtain ⟨a, d, eq, only, hd, core⟩ : ∃ a d, (if (s.wrapper w).state = .loaded then s.firstStart ⟨i, c.adm⟩ else s) = a
      ∧ State.Only [.tracker, .composer] s a ∧ a.ctx i = some d
      ∧ (d.verdict, d.phase, d.adm) = (c.verdict, c.phase, c.adm) := by
    by_cases loaded : (s.wrapper w).state = .loaded
    · obtain ⟨d, hd, core, -, -⟩ := State.firstStart_spec hc
      exact ⟨_, d, if_pos loaded, State.firstStart_only _ _, hd, congrArg (fun x => (x.verdict, x.phase, x.adm)) core⟩
    · exact ⟨_, c, if_neg loaded, .refl _ _, hc, rfl⟩
  refine ⟨(a.stopTimer i).modWrapper w fun x => { x with progress := some .done }, { d with timer := none }, ?_,
    (only.first.next (State.stopTimer_only _ _)).next (State.modWrapper_only _ _ _), ?_, ?_, ?_⟩
  · unfold State.endWrap
    simp only [pallet]
    rw [eq]
  · show (a.stopTimer i).ctx i = _
    rw [State.stopTimer, State.ctx_modCtx_self, hd]
    rfl
  · simp only [Prod.mk.injEq] at core
    obtain ⟨verdict, phase, adm⟩ := core
    rw [verdict, phase, adm]
  · have same : State.WrapperTo w (s.wrapper w) s (a.stopTimer i) :=
      (State.Only.wrapperTo (only.first.next (State.stopTimer_only _ _) : State.Only [.tracker, .composer] _ _))
    have set := State.wrapperTo_modWrapper (w := w) (s := a.stopTimer i) fun x => { x with progress := some .done }
    rw [same.self] at set
    exact same.trans set

/-- A wrap that ends with room on its label line. -/
theorem State.endWrap_of_room (pallet : (s.wrapper w).pallet = .context ⟨i, c.adm⟩) (hc : s.ctx i = some c)
    (line : lineOfWrapper w = k) (room : (s.line k).length < 3) (unheld : s.alloc.held[k] = []) :
    ∃ d y, (s.endWrap w).ctx i = some d ∧ (d.verdict, d.phase, d.timer) = (c.verdict, .queuedLabel, none)
      ∧ (s.endWrap w).line k = s.line k ++ [i]
      ∧ State.WrapperTo w y s (s.endWrap w) ∧ y.pallet = .none ∧ y.progress = none ∧ y.afterRelease = .idle
      ∧ y.output = (s.wrapper w).output
      ∧ ((s.wrapper w).afterRelease = .idle → y.state = .idle ∧ (s.endWrap w).alloc.arbiterDue = true)
      ∧ ((s.wrapper w).afterRelease = .offline → y.state = .offline)
      ∧ ((s.wrapper w).afterRelease = .fault → y.state = .fault)
      ∧ ((s.wrapper w).afterRelease = .warming →
          ((s.wrapper w).warmUp ≠ 0 → y.state = .warming ∧ y.warmTimer = some (s.wrapper w).warmUp)
          ∧ ((s.wrapper w).warmUp = 0 → y.state = .idle ∧ y.warmTimer = none
            ∧ (s.endWrap w).alloc.arbiterDue = true)) := by
  obtain ⟨v, d, eq, only, hd, core, leads⟩ := State.endWrap_spec pallet hc
  simp only [Prod.mk.injEq] at core
  obtain ⟨verdict, phase, timer, adm⟩ := core
  have line_v : v.line k = s.line k := congrArg (fun x : Dispatcher => x.lines[k]) (only.labels.resolve_left (by decide))
  have finish : s.endWrap w = v.joinLine w .wrapDone false := by
    rw [eq, State.finishWrap_of_room line (by rw [line_v]; exact room) (by rw [leads.held]; exact unheld)]
  obtain ⟨x, e, given, joined, line_x, he, core_e, -⟩ := State.joinLine_spec (s := v) (w := w) (c := d) (k := k)
    (cause := .wrapDone) (fromFault := false) (by rw [leads.self, adm]; exact pallet) hd line
  rw [given] at finish
  rw [finish]
  obtain ⟨q, l, p, m, gone, last, off, idle, offline, fault, warming⟩ :=
    State.wrapperTo_giveUp (s := x) (w := w) (cause := .wrapDone) (fromFault := false) rfl
  have same := leads.next_only joined
  rw [same.self] at gone off idle offline fault warming
  have verdict_e : e.verdict = d.verdict := congrArg (·.verdict) core_e
  have phase_e : e.phase = .queuedLabel := congrArg (·.phase) core_e
  have timer_e : e.timer = none := congrArg (·.timer) core_e
  refine ⟨e, _, ?_, ?_, ?_, same.trans gone, rfl, rfl, rfl, off (.inl rfl), idle, offline, fault, warming⟩
  · exact (congrArg (fun x : Tracker => x.slots[i]) (last.tracker.resolve_left (by decide))).trans he
  · rw [verdict_e, verdict, phase_e, timer_e]
  · have labels := last.labels.resolve_left (by decide)
    rw [State.line, labels]
    exact line_x.trans (by rw [line_v])

/-- A wrap that ends behind a full line, or one for which a wrapper is held. -/
theorem State.endWrap_of_full (pallet : (s.wrapper w).pallet = .context ⟨i, c.adm⟩) (hc : s.ctx i = some c)
    (line : lineOfWrapper w = k) (full : 3 ≤ (s.line k).length ∨ s.alloc.held[k] ≠ []) :
    ∃ v d, s.endWrap w = v.sendOutput w .hold ∧ v.ctx i = some d
      ∧ (d.verdict, d.phase, d.timer) = (c.verdict, c.phase, none)
      ∧ v.wrapper w = { s.wrapper w with state := .doneHeld, progress := some .done }
      ∧ (∀ x, x ≠ w → v.wrapper x = s.wrapper x) ∧ v.alloc.held[k] = s.alloc.held[k] ++ [w]
      ∧ State.Only [.tracker, .alloc, .composer, .ring, .mgmt] s v := by
  obtain ⟨v, d, eq, only, hd, core, leads⟩ := State.endWrap_spec pallet hc
  have line_v : v.line k = s.line k := congrArg (fun x : Dispatcher => x.lines[k]) (only.labels.resolve_left (by decide))
  simp only [Prod.mk.injEq] at core
  obtain ⟨verdict, phase, timer, adm⟩ := core
  obtain ⟨x, held, self, others, order, last⟩ := State.finishWrap_of_full (s := v) (w := w) (cause := .wrapDone)
    (fromFault := false) line (by rw [line_v, leads.held]; exact full)
  refine ⟨x, d, eq.trans held, ?_, by rw [verdict, phase, timer], ?_, fun y ne => ?_, ?_, only.first.next last⟩
  · exact (congrArg (fun x : Tracker => x.slots[i]) (last.tracker.resolve_left (by decide))).trans hd
  · rw [self, leads.self]
  · rw [others y ne, leads.others y ne]
  · rw [State.held_setSelf order, leads.held]

end

end Sys2Proof.Machine

namespace Sys2Proof.Proofs

open Sys2Proof Sys2Proof.Machine

/-- What WRAP_STARTED does in LOADED, for the state the telegram is taken in. -/
theorem wrapStarted_of_loaded (s : State) (w : WrapperNo) : ∃ u, s.startWrap w = u
    ∧ (u.wrapper w).state = .wrapping ∧ (u.wrapper w).progress = some .started
    ∧ (u.wrapper w).pallet = (s.wrapper w).pallet ∧ (∀ v, v ≠ w → u.wrapper v = s.wrapper v)
    ∧ ∀ i c, (s.wrapper w).pallet = .context ⟨i, c.adm⟩ → s.ctx i = some c →
        ∃ d, u.ctx i = some d ∧ d.wrapStarted = true ∧ d.phase = c.phase ∧ d.timer = c.timer
          ∧ d.verdict = c.verdict
          ∧ (c.wrapStarted = false → c.verdict = some .pass → c.compStatus = .none → d.compStatus ≠ .none)
          ∧ (c.wrapStarted = true ∨ c.verdict ≠ some .pass → d.compStatus = c.compStatus) := by
  have leads := State.wrapperTo_startWrap (s := s) (w := w)
  refine ⟨_, rfl, congrArg (·.state) leads.self, congrArg (·.progress) leads.self, congrArg (·.pallet) leads.self,
    leads.others, fun i c pallet hc => ?_⟩
  obtain ⟨d, hd, core, asked, unasked⟩ := State.startWrap_spec pallet hc
  exact ⟨d, hd, congrArg (·.wrapStarted) core, congrArg (·.phase) core, congrArg (·.timer) core,
    congrArg (·.verdict) core, asked, unasked⟩

/-- What WRAP_DONE does in LOADED and WRAPPING, for the state the telegram is taken in. -/
theorem wrapDone_of_running (s : State) (w : WrapperNo) (i : Slot) (c : Context) (k : LineNo)
    (pallet : (s.wrapper w).pallet = .context ⟨i, c.adm⟩) (hc : s.ctx i = some c) (line : k = lineOfWrapper w) :
    ∃ u d, s.endWrap w = u ∧ u.ctx i = some d
     ∧ d.timer = none ∧ d.verdict = c.verdict ∧ (∀ v, v ≠ w → u.wrapper v = s.wrapper v)
     ∧ ((s.line k).length < 3 → s.alloc.held[k] = [] →
         d.phase = .queuedLabel ∧ u.line k = s.line k ++ [i] ∧ (u.wrapper w).pallet = .none
           ∧ (u.wrapper w).progress = none
           ∧ ((s.wrapper w).afterRelease = .idle →
               (u.wrapper w).state = .idle ∧ u.alloc.arbiterDue = true)
           ∧ (u.wrapper w).output = (s.wrapper w).output
           ∧ ((s.wrapper w).afterRelease = .offline →
               (u.wrapper w).state = .offline ∧ (u.wrapper w).afterRelease = .idle)
           ∧ ((s.wrapper w).afterRelease = .fault →
               (u.wrapper w).state = .fault ∧ (u.wrapper w).afterRelease = .idle)
           ∧ ((s.wrapper w).afterRelease = .warming → (u.wrapper w).afterRelease = .idle
             ∧ ((s.wrapper w).warmUp ≠ 0 → (u.wrapper w).state = .warming
               ∧ (u.wrapper w).warmTimer = some (s.wrapper w).warmUp)
             ∧ ((s.wrapper w).warmUp = 0 → (u.wrapper w).state = .idle ∧ (u.wrapper w).warmTimer = none
               ∧ u.alloc.arbiterDue = true)))
     ∧ (3 ≤ (s.line k).length ∨ s.alloc.held[k] ≠ [] →
         d.phase = c.phase ∧ u.labels = s.labels ∧ (u.wrapper w).state = .doneHeld
           ∧ (u.wrapper w).progress = some .done
           ∧ (u.wrapper w).pallet = .context ⟨i, c.adm⟩ ∧ u.alloc.held[k] = s.alloc.held[k] ++ [w]
           ∧ ∃ v, u = v.sendOutput w .hold
             ∧ v.wrapper w = { s.wrapper w with state := .doneHeld, progress := some .done }
             ∧ State.Only [.tracker, .alloc, .composer, .ring, .mgmt] s v) := by
  by_cases free : (s.line k).length < 3 ∧ s.alloc.held[k] = []
  · obtain ⟨room, unheld⟩ := free
    obtain ⟨d, y, hd, core, joined, leads, none, gone, after, output, idle, offline, fault, warming⟩ :=
      State.endWrap_of_room pallet hc line.symm room unheld
    simp only [Prod.mk.injEq] at core
    obtain ⟨verdict, phase, timer⟩ := core
    refine ⟨_, d, rfl, hd, timer, verdict, leads.others, fun _ _ => ?_, fun full => ?_⟩
    · rw [leads.self]
      exact ⟨phase, joined, none, gone, idle, output, fun h => ⟨offline h, after⟩, fun h => ⟨fault h, after⟩,
        fun h => ⟨after, warming h⟩⟩
    · exact absurd unheld (full.resolve_left (Nat.not_le.mpr room))
  · have full : 3 ≤ (s.line k).length ∨ s.alloc.held[k] ≠ [] := by
      rw [not_and_or, Nat.not_lt] at free
      exact free
    obtain ⟨v, d, eq, hd, core, self, others, held, only⟩ := State.endWrap_of_full pallet hc line.symm full
    simp only [Prod.mk.injEq] at core
    obtain ⟨verdict, phase, timer⟩ := core
    obtain ⟨q, l, leads⟩ := State.wrapperTo_sendOutput (s := v) (w := w) .hold
    have sent := State.sendOutput_only w .hold v
    rw [eq]
    refine ⟨_, d, rfl, ?_, timer, verdict, fun x ne => (leads.others x ne).trans (others x ne), fun room unheld =>
      absurd ⟨room, unheld⟩ free, fun _ => ⟨phase, ?_, ?_, ?_, ?_, ?_, v, rfl, self, only⟩⟩
    · exact (congrArg (fun x : Tracker => x.slots[i]) (sent.tracker.resolve_left (by decide))).trans hd
    · exact (sent.labels.resolve_left (by decide)).trans (only.labels.resolve_left (by decide))
    · rw [leads.self, self]
    · rw [leads.self, self]
    · rw [leads.self, self]
      exact pallet
    · rw [leads.held, held]

/-- Settles O35, by the state of the wrapper and the room on its label line. -/
theorem wrapRuns : Obligations.WrapRuns := by
  refine ⟨fun s dst src w fits => ⟨fun off => ?_, fun loaded => ?_⟩,
    fun s dst src w fits => ⟨fun off off' => ?_, fun i c k running pallet hc line => ?_⟩,
    fun s w c => ⟨State.sendOutput_of_last, State.sendOutput_out⟩⟩
  · refine (exec_wrapStarted fits).trans (congrArg _ ?_)
    exact State.wrapperEvent_started_of_other (by rw [State.passed_wrapper]; exact off)
  · rw [exec_wrapStarted fits]
    have wrapper := State.passed_wrapper ⟨dst, src, kWrapperEvent, [3]⟩ s
    have ctx := State.passed_ctx ⟨dst, src, kWrapperEvent, [3]⟩ s
    generalize s.passed ⟨dst, src, kWrapperEvent, [3]⟩ = a at wrapper ctx
    simp only [← wrapper, ← ctx] at loaded ⊢
    rw [State.wrapperEvent_started loaded]
    obtain ⟨u, rfl, facts⟩ := wrapStarted_of_loaded a w
    exact ⟨_, rfl, facts⟩
  · refine (exec_wrapDone fits).trans (congrArg _ ?_)
    exact State.wrapperEvent_done_of_other (by rw [State.passed_wrapper]; exact off) (by rw [State.passed_wrapper]; exact off')
  · have takes : exec (.wrapDone dst src) s = .next ((s.passed ⟨dst, src, 0x08, [4]⟩).wrapperEvent src w 4) := exec_wrapDone fits
    rw [takes]
    have wrapper := State.passed_wrapper ⟨dst, src, 0x08, [4]⟩ s
    have ctx := State.passed_ctx ⟨dst, src, 0x08, [4]⟩ s
    have line_a := State.passed_line ⟨dst, src, 0x08, [4]⟩ s
    have alloc := State.passed_alloc ⟨dst, src, 0x08, [4]⟩ s
    have labels := State.passed_labels ⟨dst, src, 0x08, [4]⟩ s
    generalize s.passed ⟨dst, src, 0x08, [4]⟩ = a at wrapper ctx line_a alloc labels ⊢
    simp only [← wrapper, ← ctx, ← line_a, ← alloc, ← labels] at running pallet hc ⊢
    rw [State.wrapperEvent_done running]
    obtain ⟨u, d, rfl, facts⟩ := wrapDone_of_running a w i c k pallet hc line
    exact ⟨_, d, rfl, facts⟩

end Sys2Proof.Proofs
end

