-- ==== Sys2Proof/Proofs/Slice0/WrapperReady.lean ====
section
/-! READY, the end of a warm-up and STANDBY at a wrapper in each of its states (R107, R110). -/

namespace Sys2Proof.Machine

open Sys2Proof

section
variable {s t u : State} {i : Slot} {c : Context} {w : WrapperNo} {k : LineNo} {src dst : Byte} {cause : Config.UnitCause}
  {fromFault : Bool} {f : Wrapper → Wrapper}

/-! ### What no other wrapper sees -/

/-- Whatever the wrapper holds, the end of a warm-up stops its timer and leaves its output. -/
theorem State.wrapperTo_endWarmUp_any (w : WrapperNo) (s : State) : ∃ y, State.WrapperTo w y s (s.endWarmUp w)
    ∧ y.warmTimer = none ∧ y.output = (s.wrapper w).output := by
  unfold State.endWarmUp
  split
  · exact ⟨_, (State.wrapperTo_setWrapper (s := s) (w := w) .warmUpEnd fun x =>
      { x with state := .idle, warmTimer := none }).callArbiter, rfl, rfl⟩
  · split
    · have set := State.wrapperTo_setWrapper (s := s) (w := w) .warmUpEnd fun x =>
        { x with state := .loaded, progress := some .ordered, warmTimer := none }
      generalize s.setWrapper w .warmUpEnd _ = v at set
      unfold State.orderWrap
      split
      next id _ =>
        obtain ⟨q, leads⟩ := State.wrapperTo_sendWrapOrder (w := w)
          (s := v.modCtx id.slot fun c => { c with timer := some v.params.wrapLimit })
          ⟨(v.wrapper w).recipe.getD 0, (v.named id).bind (·.licence)⟩
        have same := set.next_only (State.modCtx_only id.slot (fun c => { c with timer := some v.params.wrapLimit }) v)
        rw [same.self] at leads
        exact ⟨_, same.trans leads, rfl, rfl⟩
      next => exact ⟨_, set, rfl, rfl⟩
    · exact ⟨_, State.wrapperTo_modWrapper fun x => { x with warmTimer := none }, rfl, rfl⟩
  · exact ⟨_, State.wrapperTo_modWrapper fun x => { x with warmTimer := none }, rfl, rfl⟩

/-- Whatever the wrapper holds, a warm-up opens the output from a fault only. -/
theorem State.wrapperTo_warm_any (keeps : ∀ x, (f x).warmUp = x.warmUp) (outputs : ∀ x, (f x).output = x.output
      ∧ (f x).lastOutput = x.lastOutput) : ∃ y, State.WrapperTo w y s (s.warm w cause fromFault f)
    ∧ (fromFault = false ∨ (s.wrapper w).lastOutput = .release → y.output = (s.wrapper w).output) := by
  obtain ⟨v, q, l, leads, -, off, eq⟩ := State.wrapperTo_warm (s := s) (w := w) (cause := cause) (fromFault := fromFault)
    keeps outputs
  rw [eq]
  split
  · obtain ⟨y, ended, -, output⟩ := State.wrapperTo_endWarmUp_any w v
    rw [leads.self] at output
    exact ⟨y, leads.trans ended, fun h => output.trans (off h)⟩
  · exact ⟨_, leads, off⟩

/-- A warm-up depends on what it makes of the wrapper's record only. -/
theorem State.warm_congr {g : Wrapper → Wrapper} (same : f (s.wrapper w) = g (s.wrapper w)) :
    s.warm w cause fromFault f = s.warm w cause fromFault g := by
  have set : (s.setWrapper w cause fun x => { f x with state := .warming, warmTimer := some x.warmUp }) =
      s.setWrapper w cause fun x => { g x with state := .warming, warmTimer := some x.warmUp } := by
    have record : (s.modWrapper w fun x => { f x with state := .warming, warmTimer := some x.warmUp }) =
        s.modWrapper w fun x => { g x with state := .warming, warmTimer := some x.warmUp } :=
      congrArg (fun y : Wrapper => s.modWrapper w fun _ =>
        { y with state := .warming, warmTimer := some (s.wrapper w).warmUp }) same
    unfold State.setWrapper
    rw [record]
  unfold State.warm
  rw [set]

theorem State.others_joinLine (v : WrapperNo) (ne : v ≠ w) : (s.joinLine w cause fromFault).wrapper v = s.wrapper v := by
  unfold State.joinLine
  split
  next id _ =>
    have joined : State.Only [.tracker, .labels, .ring] s (((s.modLine (lineOfWrapper w) fun l => l ++ [id.slot]).enter id.slot
        .queuedLabel none).startJobs (lineOfWrapper w)) :=
      ((State.onLabels_only _ _).first.next (State.enter_only _ _ _ _)).next (State.startJobs_only _ _)
    obtain ⟨q, l, p, x, leads, -⟩ := State.wrapperTo_giveUp (w := w) (cause := cause) (fromFault := fromFault)
      (s := ((s.modLine (lineOfWrapper w) fun l => l ++ [id.slot]).enter id.slot .queuedLabel none).startJobs (lineOfWrapper w)) rfl
    exact (leads.others v ne).trans (joined.wrapperTo.others v ne)
  next => rfl

theorem State.others_finishWrap (v : WrapperNo) (ne : v ≠ w) : (s.finishWrap w cause fromFault).wrapper v = s.wrapper v := by
  by_cases free : (s.line (lineOfWrapper w)).length < 3 ∧ s.alloc.held[lineOfWrapper w] = []
  · rw [State.finishWrap_of_room rfl free.1 free.2]
    exact State.others_joinLine v ne
  · rw [not_and_or, Nat.not_lt] at free
    obtain ⟨x, eq, -, others, -⟩ := State.finishWrap_of_full (cause := cause) (fromFault := fromFault) rfl free
    obtain ⟨q, l, leads⟩ := State.wrapperTo_sendOutput (s := x) (w := w) .hold
    rw [eq, leads.others v ne, others v ne]

/-! ### READY by the wrapper's state -/

theorem State.wrapperEvent_ready : s.wrapperEvent src w 1 = (s.readyWrapper w).settle .wrapperReady := by
  simp [State.wrapperEvent]

theorem State.readyWrapper_of_busy (state : (s.wrapper w).state = .warming ∨ (s.wrapper w).state = .idle
    ∨ (s.wrapper w).state = .loaded ∨ (s.wrapper w).state = .wrapping) : s.readyWrapper w = s := by
  rcases state with state | state | state | state <;> simp [State.readyWrapper, state]

theorem State.readyWrapper_of_noted (state : (s.wrapper w).state = .doneHeld)
    (after : (s.wrapper w).afterRelease = .offline ∨ (s.wrapper w).afterRelease = .fault) :
    s.readyWrapper w = s.modWrapper w fun x => { x with afterRelease := .warming } := by
  simp [State.readyWrapper, state, after]

theorem State.readyWrapper_of_held (state : (s.wrapper w).state = .doneHeld)
    (after : (s.wrapper w).afterRelease = .idle ∨ (s.wrapper w).afterRelease = .warming) : s.readyWrapper w = s := by
  rcases after with after | after <;> simp [State.readyWrapper, state, after]

theorem State.endFault_of_sound (orphan : (s.wrapper w).pallet ≠ .orphan) (faulted : (s.wrapper w).progress ≠ some .faulted) :
    s.endFault w = s.warm w .wrapperReady true id := by
  unfold State.endFault
  split
  next progress => exact absurd progress faulted
  next pallet => exact absurd ‹_› orphan
  next => rfl

/-- A wrapper without an orphan and without a faulted wrap warms up. -/
theorem State.readyWrapper_of_sound (state : (s.wrapper w).state = .offline ∨ (s.wrapper w).state = .fault)
    (orphan : (s.wrapper w).pallet ≠ .orphan) (faulted : (s.wrapper w).progress ≠ some .faulted) :
    s.readyWrapper w = s.warm w .wrapperReady ((s.wrapper w).state == .fault) id := by
  rcases state with state | state
  · have fresh : ((s.wrapper w).state == .fault) = false := by rw [state]; rfl
    rw [fresh]
    simp [State.readyWrapper, state, orphan, faulted]
  · simp [State.readyWrapper, state, State.endFault_of_sound orphan faulted]

theorem State.readyWrapper_of_orphan (state : (s.wrapper w).state = .offline ∨ (s.wrapper w).state = .fault)
    (orphan : (s.wrapper w).pallet = .orphan) :
    s.readyWrapper w = s.warm w .wrapperReady true fun x => { x with pallet := .none } := by
  have ended : s.endFault w = s.warm w .wrapperReady true fun x => { x with pallet := .none } := by
    unfold State.endFault
    rw [orphan]
  rcases state with state | state <;> simp [State.readyWrapper, state, orphan, ended]

theorem State.readyWrapper_of_faulted {id : CtxId} (state : (s.wrapper w).state = .offline ∨ (s.wrapper w).state = .fault)
    (pallet : (s.wrapper w).pallet = .context id) (faulted : (s.wrapper w).progress = some .faulted) :
    s.readyWrapper w =
      (s.modWrapper w fun x => { x with afterRelease := .warming }).finishWrap w .wrapperReady true := by
  have ended : s.endFault w =
      (s.modWrapper w fun x => { x with afterRelease := .warming }).finishWrap w .wrapperReady true := by
    unfold State.endFault
    rw [pallet, faulted]
  rcases state with state | state <;> simp [State.readyWrapper, state, faulted, ended]

theorem State.others_readyWrapper (v : WrapperNo) (ne : v ≠ w) : (s.readyWrapper w).wrapper v = s.wrapper v := by
  have warm (ff : Bool) (g : Wrapper → Wrapper) (keeps : ∀ x, (g x).warmUp = x.warmUp) (outputs : ∀ x, (g x).output = x.output
      ∧ (g x).lastOutput = x.lastOutput) : (s.warm w .wrapperReady ff g).wrapper v = s.wrapper v := by
    obtain ⟨y, leads, -⟩ := State.wrapperTo_warm_any (s := s) (w := w) (cause := .wrapperReady) (fromFault := ff) keeps outputs
    exact leads.others v ne
  have ended : (s.endFault w).wrapper v = s.wrapper v := by
    unfold State.endFault
    split
    · rw [State.others_finishWrap v ne]
      exact (State.wrapperTo_modWrapper _).others v ne
    · exact warm _ _ (fun _ => rfl) fun _ => ⟨rfl, rfl⟩
    · exact warm _ _ (fun _ => rfl) fun _ => ⟨rfl, rfl⟩
  unfold State.readyWrapper
  dsimp only
  split
  · split
    · exact ended
    · exact warm _ _ (fun _ => rfl) fun _ => ⟨rfl, rfl⟩
  · exact ended
  · split
    · exact (State.wrapperTo_modWrapper _).others v ne
    · rfl
  all_goals rfl

/-! ### STANDBY by the wrapper's state -/

theorem State.wrapperEvent_standby : s.wrapperEvent src w 2 = s.standbyWrapper w := by
  simp [State.wrapperEvent]

theorem State.standbyWrapper_of_offline (state : (s.wrapper w).state = .offline) : s.standbyWrapper w = s := by
  simp [State.standbyWrapper, state]

theorem State.standbyWrapper_of_doneHeld (state : (s.wrapper w).state = .doneHeld) :
    s.standbyWrapper w = s.modWrapper w fun x => { x with afterRelease := .offline } := by
  simp [State.standbyWrapper, state]

/-- A wrapper that does not wrap becomes OFFLINE, its warm-up stopped. -/
theorem State.standbyWrapper_of_empty (state : (s.wrapper w).state = .idle ∨ (s.wrapper w).state = .fault
    ∨ (s.wrapper w).state = .warming) : ∃ m, State.WrapperTo w { s.wrapper w with state := .offline, warmTimer := m } s
      (s.standbyWrapper w) ∧ ((s.wrapper w).state = .warming → m = none)
    ∧ State.Only [.alloc, .ring, .mgmt] s (s.standbyWrapper w) := by
  rcases state with state | state | state
  · have eq : s.standbyWrapper w = s.setWrapper w .standby fun x => { x with state := .offline } := by
      simp [State.standbyWrapper, state]
    rw [eq]
    exact ⟨_, State.wrapperTo_setWrapper _ fun x => { x with state := .offline }, by rw [state]; nofun,
      State.setWrapper_only _ _ _ _⟩
  · have eq : s.standbyWrapper w = s.setWrapper w .standby fun x => { x with state := .offline } := by
      simp [State.standbyWrapper, state]
    rw [eq]
    exact ⟨_, State.wrapperTo_setWrapper _ fun x => { x with state := .offline }, by rw [state]; nofun,
      State.setWrapper_only _ _ _ _⟩
  · have eq : s.standbyWrapper w = s.setWrapper w .standby fun x => { x with state := .offline, warmTimer := none } := by
      simp [State.standbyWrapper, state]
    rw [eq]
    exact ⟨_, State.wrapperTo_setWrapper _ fun x => { x with state := .offline, warmTimer := none }, fun _ => rfl,
      State.setWrapper_only _ _ _ _⟩

/-- A wrap that runs is DELIVERED again, its order dropped and its context's timer stopped. -/
theorem State.standbyWrapper_of_wrapping (state : (s.wrapper w).state = .loaded ∨ (s.wrapper w).state = .wrapping) :
    State.WrapperTo w { s.wrapper w with state := .offline, progress := some .delivered, wrapOrder := none } s (s.standbyWrapper w)
      ∧ ∀ i (c : Context), (s.wrapper w).pallet = .context ⟨i, c.adm⟩ → s.ctx i = some c →
        (s.standbyWrapper w).ctx i = some { c with timer := none } ∧ State.SameContexts [i] s (s.standbyWrapper w) := by
  obtain ⟨a, same, stopped, eq⟩ : ∃ a, State.Only [.tracker] s a
      ∧ (∀ i (c : Context), (s.wrapper w).pallet = .context ⟨i, c.adm⟩ → a = s.stopTimer i)
      ∧ s.standbyWrapper w = (a.setWrapper w .standby fun x =>
        { x with state := .offline, progress := some .delivered }).dropWrapOrder w := by
    cases pallet : (s.wrapper w).pallet with
    | context id =>
      refine ⟨s.stopTimer id.slot, State.stopTimer_only id.slot s,
        fun i c same => ?_, ?_⟩
      · have slot : id.slot = i := congrArg CtxId.slot (Load.context.inj same)
        rw [slot]
      · rcases state with state | state <;> simp [State.standbyWrapper, state, pallet]
    | none | orphan =>
      refine ⟨s, .refl _ s, fun _ _ same => (by cases same), ?_⟩
      rcases state with state | state <;> simp [State.standbyWrapper, state, pallet]
  have set := State.wrapperTo_setWrapper (w := w) (s := a) .standby fun x =>
    { x with state := .offline, progress := some .delivered }
  have only := State.setWrapper_only w .standby (fun x => { x with state := .offline, progress := some .delivered }) a
  rw [eq]
  generalize a.setWrapper w .standby _ = v at set only
  have dropped := State.wrapperTo_dropWrapOrder (s := v) (w := w)
  have kept : (v.dropWrapOrder w).tracker = v.tracker := (State.prune_only _ _).tracker.resolve_left (by decide)
  have tracker := kept.trans (only.tracker.resolve_left (by decide))
  rw [set.self, (same.wrapperTo (w := w)).self] at dropped
  refine ⟨(same.wrapperTo.trans set).trans dropped, fun i c pallet hc => ?_⟩
  rw [stopped i c pallet] at tracker
  refine ⟨?_, fun j out => ?_⟩
  · refine (congrArg (fun x : Tracker => x.slots[i]) tracker).trans ?_
    show (s.stopTimer i).ctx i = _
    rw [State.stopTimer, State.ctx_modCtx_self, hc]
    rfl
  · refine (congrArg (fun x : Tracker => x.slots[j]) tracker).trans ?_
    exact State.ctx_modCtx_of_ne (fun e => out (by simp [e])) _ _

theorem exec_warmUpEnd (awake : s.ctl.inReset = false) : exec (.warmUpEnd w) s = .next (s.warmUpEnds w) := by
  show Host.Outcome.next (s.awake _) = _
  rw [State.awake_of_running awake]

/-! ### What READY leaves -/

/-- A sound wrapper with no pallet or a delivered context. -/
theorem State.ready_of_sound (state : (s.wrapper w).state = .offline ∨ (s.wrapper w).state = .fault)
    (orphan : (s.wrapper w).pallet ≠ .orphan) (faulted : (s.wrapper w).progress ≠ some .faulted)
    (ready : s.readyWrapper w = u) :
    ((s.wrapper w).warmUp ≠ 0 → (u.wrapper w).state = .warming
      ∧ (u.wrapper w).warmTimer = some (s.wrapper w).warmUp ∧ (u.wrapper w).pallet = (s.wrapper w).pallet
      ∧ (u.wrapper w).progress = (s.wrapper w).progress ∧ u.tracker = s.tracker)
    ∧ ((s.wrapper w).warmUp = 0 → (s.wrapper w).pallet = .none → (u.wrapper w).state = .idle
      ∧ (u.wrapper w).warmTimer = none ∧ (u.wrapper w).pallet = .none ∧ u.alloc.arbiterDue = true
      ∧ u.tracker = s.tracker)
    ∧ (∀ i c, (s.wrapper w).warmUp = 0 → (s.wrapper w).pallet = .context ⟨i, c.adm⟩ →
      (s.wrapper w).progress = some .delivered → s.ctx i = some c → (u.wrapper w).state = .loaded
      ∧ (u.wrapper w).warmTimer = none ∧ (u.wrapper w).progress = some .ordered
      ∧ (u.wrapper w).pallet = (s.wrapper w).pallet
      ∧ u.ctx i = some { c with timer := some s.ctl.params.wrapLimit } ∧ State.SameContexts [i] s u
      ∧ ∀ r, (s.wrapper w).recipe = some r → ∃ v, u = v.sendWrapOrder w ⟨r, c.licence⟩
        ∧ State.Only [.tracker, .alloc, .ring, .mgmt] s v) := by
  rw [State.readyWrapper_of_sound state orphan faulted] at ready
  obtain ⟨v, q, l, leads, only, -, eq⟩ := State.wrapperTo_warm (s := s) (w := w) (cause := .wrapperReady)
    (fromFault := (s.wrapper w).state == .fault) (f := id) (fun _ => rfl) fun _ => ⟨rfl, rfl⟩
  rw [eq] at ready
  have tracker : v.tracker = s.tracker := only.tracker.resolve_left (by decide)
  refine ⟨fun ne => ?_, fun zero empty => ?_, fun i c zero pallet delivered hc => ?_⟩
  · rw [if_neg ne] at ready
    subst ready
    rw [leads.self]
    exact ⟨rfl, rfl, rfl, rfl, tracker⟩
  · rw [if_pos zero] at ready
    obtain ⟨ended, due, last⟩ := State.wrapperTo_endWarmUp (s := v) (w := w) (by rw [leads.self]; exact empty)
    subst ready
    rw [ended.self, leads.self]
    exact ⟨rfl, rfl, empty, due, (last.tracker.resolve_left (by decide)).trans tracker⟩
  · rw [if_pos zero] at ready
    obtain ⟨⟨x, after, sent⟩, there, others, p, ended⟩ := State.endWarmUp_of_delivered (s := v) (w := w) (c := c)
      (by rw [leads.self]; exact pallet) (by rw [leads.self]; exact delivered)
      ((congrArg (fun x : Tracker => x.slots[i]) tracker).trans hc)
    rw [ready] at sent there others ended
    rw [leads.self] at ended sent
    rw [only.ctl.resolve_left (by decide)] at there
    rw [ended.self]
    refine ⟨rfl, rfl, rfl, rfl, there, fun j out => ?_, fun r recipe => ⟨x, ?_, only.first.next after⟩⟩
    · exact (others j out).trans (congrArg (fun x : Tracker => x.slots[j]) tracker)
    · rw [sent]
      show State.sendWrapOrder w ⟨(s.wrapper w).recipe.getD 0, c.licence⟩ x = _
      rw [recipe]
      rfl

/-- The output orders of a READY from a fault, or of one that finds an orphan. -/
theorem State.ready_output (state : (s.wrapper w).state = .offline ∨ (s.wrapper w).state = .fault)
    (fault : (s.wrapper w).state = .fault ∧ (s.wrapper w).progress ≠ some .faulted ∨ (s.wrapper w).pallet = .orphan)
    (ready : s.readyWrapper w = u) :
    ((s.wrapper w).lastOutput = .release → (u.wrapper w).output = (s.wrapper w).output)
    ∧ ((s.wrapper w).lastOutput = .hold → ∃ v, v.wrapper w = { s.wrapper w with
          state := .warming, warmTimer := some (s.wrapper w).warmUp
          pallet := if (s.wrapper w).pallet = .orphan then .none else (s.wrapper w).pallet }
      ∧ State.Only [.alloc, .ring, .mgmt] s v
      ∧ u = if (s.wrapper w).warmUp = 0 then State.endWarmUp w (v.sendOutput w .release)
          else v.sendOutput w .release) := by
  have warm : u = s.warm w .wrapperReady true fun x => { x with
      pallet := if x.pallet = .orphan then .none else x.pallet } := by
    rw [← ready]
    by_cases orphan : (s.wrapper w).pallet = .orphan
    · rw [State.readyWrapper_of_orphan state orphan]
      exact State.warm_congr (by rw [orphan]; rfl)
    · obtain ⟨isFault, sound⟩ := fault.resolve_right orphan
      rw [State.readyWrapper_of_sound state orphan sound, isFault]
      exact State.warm_congr (by rw [if_neg orphan]; rfl)
  refine ⟨fun last => ?_, fun last => ?_⟩
  · obtain ⟨y, leads, output⟩ := State.wrapperTo_warm_any (s := s) (w := w) (cause := .wrapperReady) (fromFault := true)
      (f := fun x => { x with pallet := if x.pallet = .orphan then .none else x.pallet }) (fun _ => rfl) fun _ => ⟨rfl, rfl⟩
    rw [warm, leads.self]
    exact output (.inr last)
  · obtain ⟨v, leads, only, eq⟩ := State.warm_spec (s := s) (w := w) (cause := .wrapperReady) (fromFault := true)
      (f := fun x => { x with pallet := if x.pallet = .orphan then .none else x.pallet }) fun _ => rfl
    rw [State.opened_of_hold (by rw [leads.self]; exact last)] at eq
    exact ⟨v, leads.self, only, warm.trans eq⟩

/-- A READY that ends no fault opens no output. -/
theorem State.ready_output_of_offline (state : (s.wrapper w).state = .offline) (orphan : (s.wrapper w).pallet ≠ .orphan)
    (faulted : (s.wrapper w).progress ≠ some .faulted) :
    ((s.readyWrapper w).wrapper w).output = (s.wrapper w).output := by
  rw [State.readyWrapper_of_sound (.inl state) orphan faulted]
  obtain ⟨y, leads, output⟩ := State.wrapperTo_warm_any (s := s) (w := w) (cause := .wrapperReady)
    (fromFault := (s.wrapper w).state == .fault) (f := id) (fun _ => rfl) fun _ => ⟨rfl, rfl⟩
  rw [leads.self]
  exact output (.inl (by rw [state]; rfl))

/-- A wrapper with an orphan holds none afterwards. -/
theorem State.ready_of_orphan (state : (s.wrapper w).state = .offline ∨ (s.wrapper w).state = .fault)
    (orphan : (s.wrapper w).pallet = .orphan) (ready : s.readyWrapper w = u) :
    (u.wrapper w).pallet = .none ∧ u.tracker = s.tracker
      ∧ ((s.wrapper w).warmUp ≠ 0 → (u.wrapper w).state = .warming ∧ (u.wrapper w).warmTimer = some (s.wrapper w).warmUp)
      ∧ ((s.wrapper w).warmUp = 0 → (u.wrapper w).state = .idle ∧ (u.wrapper w).warmTimer = none
        ∧ u.alloc.arbiterDue = true) := by
  rw [State.readyWrapper_of_orphan state orphan] at ready
  obtain ⟨q, l, p, x, leads, only, -, run, zero⟩ := State.warm_of_empty (f := fun x => { x with pallet := .none })
    (fun _ => rfl) (fun _ => ⟨rfl, rfl⟩) rfl ready
  rw [leads.self]
  exact ⟨rfl, only.tracker.resolve_left (by decide), run, zero⟩

/-- A faulted wrap whose context finds room on its label line. -/
theorem State.ready_of_faulted_room (state : (s.wrapper w).state = .offline ∨ (s.wrapper w).state = .fault)
    (pallet : (s.wrapper w).pallet = .context ⟨i, c.adm⟩) (faulted : (s.wrapper w).progress = some .faulted)
    (hc : s.ctx i = some c) (line : k = lineOfWrapper w) (room : (s.line k).length < 3) (unheld : s.alloc.held[k] = [])
    (ready : s.readyWrapper w = u) :
    u.line k = s.line k ++ [i] ∧ (u.wrapper w).pallet = .none ∧ (u.wrapper w).progress = none
    ∧ (u.wrapper w).afterRelease = .idle
    ∧ ((s.wrapper w).warmUp ≠ 0 → (u.wrapper w).state = .warming
      ∧ (u.wrapper w).warmTimer = some (s.wrapper w).warmUp)
    ∧ ((s.wrapper w).warmUp = 0 → (u.wrapper w).state = .idle ∧ (u.wrapper w).warmTimer = none
      ∧ u.alloc.arbiterDue = true)
    ∧ ((s.wrapper w).lastOutput = .release → (u.wrapper w).output = (s.wrapper w).output)
    ∧ ((s.wrapper w).lastOutput = .hold → ∃ v, v.wrapper w = { s.wrapper w with
          state := .warming, warmTimer := some (s.wrapper w).warmUp, pallet := .none, progress := none
          recipe := none, afterRelease := .idle }
      ∧ State.Only [.tracker, .alloc, .labels, .ring, .mgmt] s v
      ∧ u = if (s.wrapper w).warmUp = 0 then State.endWarmUp w (v.sendOutput w .release)
          else v.sendOutput w .release)
    ∧ ∃ d, u.ctx i = some d ∧ d.phase = .queuedLabel ∧ d.timer = none ∧ d.verdict = c.verdict := by
  have noted := State.wrapperTo_modWrapper (s := s) (w := w) fun x => { x with afterRelease := .warming }
  obtain ⟨v, d, given, joined, line_v, hd, core, -⟩ := State.joinLine_spec (w := w) (cause := .wrapperReady) (fromFault := true)
    (s := s.modWrapper w fun x => { x with afterRelease := .warming }) (by rw [noted.self]; exact pallet) hc line.symm
  rw [State.readyWrapper_of_faulted state pallet faulted, State.finishWrap_of_room (s := s.modWrapper w _) line.symm room unheld,
    given] at ready
  have same := noted.next_only joined
  have warm : v.giveUp w .wrapperReady true = v.warm w .wrapperReady true Wrapper.emptied := by
    unfold State.giveUp
    rw [same.self]
  rw [warm] at ready
  obtain ⟨q, l, p, x, leads, only, off, run, zero⟩ := State.warm_of_empty (f := Wrapper.emptied)
    (fun _ => rfl) (fun _ => ⟨rfl, rfl⟩) rfl ready
  obtain ⟨y, set, after, eq⟩ := State.warm_spec (s := v) (w := w) (cause := .wrapperReady) (fromFault := true)
    (f := Wrapper.emptied) fun _ => rfl
  rw [same.self] at leads off run zero set eq
  have footprint : State.Only [.tracker, .alloc, .labels, .ring, .mgmt] s v := (State.modWrapper_only _ _ _).first.next joined
  refine ⟨?_, ?_, ?_, ?_, ?_, ?_, ?_, fun last => ⟨y, set.self, footprint.next after, ?_⟩, d, ?_, congrArg (·.phase) core,
    congrArg (·.timer) core, congrArg (·.verdict) core⟩
  · exact (congrArg (fun x : Dispatcher => x.lines[k]) (only.labels.resolve_left (by decide))).trans line_v
  · rw [leads.self]
    rfl
  · rw [leads.self]
    rfl
  · rw [leads.self]
    rfl
  · rw [leads.self]
    exact run
  · rw [leads.self]
    exact zero
  · rw [leads.self]
    exact fun last => off (.inr last)
  · rw [State.opened_of_hold (by rw [set.self]; exact last)] at eq
    exact ready.symm.trans eq
  · exact (congrArg (fun x : Tracker => x.slots[i]) (only.tracker.resolve_left (by decide))).trans hd

/-- A faulted wrap behind a full line, or one for which a wrapper is held. -/
theorem State.ready_of_faulted_full {id : CtxId} (state : (s.wrapper w).state = .offline ∨ (s.wrapper w).state = .fault)
    (pallet : (s.wrapper w).pallet = .context id) (faulted : (s.wrapper w).progress = some .faulted)
    (line : k = lineOfWrapper w) (full : 3 ≤ (s.line k).length ∨ s.alloc.held[k] ≠ []) (ready : s.readyWrapper w = u) :
    (u.wrapper w).state = .doneHeld ∧ (u.wrapper w).progress = some .done
    ∧ (u.wrapper w).afterRelease = .warming ∧ (u.wrapper w).pallet = (s.wrapper w).pallet
    ∧ u.alloc.held[k] = s.alloc.held[k] ++ [w] ∧ u.labels = s.labels ∧ u.tracker = s.tracker
    ∧ ∃ v, u = v.sendOutput w .hold ∧ v.wrapper w = { s.wrapper w with
          state := .doneHeld, progress := some .done, afterRelease := .warming }
      ∧ State.Only [.alloc, .ring, .mgmt] s v := by
  have noted := State.wrapperTo_modWrapper (s := s) (w := w) fun x => { x with afterRelease := .warming }
  have footprint := State.modWrapper_only w (fun x => { x with afterRelease := .warming }) s
  rw [State.readyWrapper_of_faulted state pallet faulted] at ready
  obtain ⟨v, eq, self, -, held, only⟩ := State.finishWrap_of_full (cause := .wrapperReady) (fromFault := true)
    (s := s.modWrapper w fun x => { x with afterRelease := .warming }) line.symm full
  obtain ⟨q, l, leads⟩ := State.wrapperTo_sendOutput (s := v) (w := w) .hold
  have last := State.sendOutput_only w .hold v
  rw [eq] at ready
  rw [ready] at leads last
  rw [noted.self] at self
  have reached : State.Only [.alloc, .ring, .mgmt] s v := footprint.first.next only
  rw [leads.self, self, leads.held]
  exact ⟨rfl, rfl, rfl, rfl, State.held_setSelf held,
    (last.labels.resolve_left (by decide)).trans (reached.labels.resolve_left (by decide)),
    (last.tracker.resolve_left (by decide)).trans (reached.tracker.resolve_left (by decide)), v, ready.symm, self, reached⟩

end

end Sys2Proof.Machine

namespace Sys2Proof.Proofs

open Sys2Proof Sys2Proof.Machine

/-- Settles O34, by the state of the wrapper and what it holds. -/
theorem wrapperReadyAndStandby : Obligations.WrapperReadyAndStandby := by
  refine ⟨fun s w => ⟨fun dst src fits => ?_, fun awake => ⟨fun off => ?_, fun warming timer => ?_⟩⟩,
    fun s w o => State.sendWrapOrder_out w o s, fun s dst src w fits => ?_⟩
  · have takes : exec (.wrapperReady dst src) s =
        .next (State.settle .wrapperReady ((s.passed ⟨dst, src, 0x08, [1]⟩).readyWrapper w)) :=
      (exec_wrapperReady fits).trans (congrArg _ State.wrapperEvent_ready)
    rw [takes]
    have wrapper := State.passed_wrapper ⟨dst, src, 0x08, [1]⟩ s
    have ctx := State.passed_ctx ⟨dst, src, 0x08, [1]⟩ s
    have line := State.passed_line ⟨dst, src, 0x08, [1]⟩ s
    have alloc := State.passed_alloc ⟨dst, src, 0x08, [1]⟩ s
    have labels := State.passed_labels ⟨dst, src, 0x08, [1]⟩ s
    have tracker := State.passed_tracker ⟨dst, src, 0x08, [1]⟩ s
    have ctl := State.passed_ctl ⟨dst, src, 0x08, [1]⟩ s
    have same : ∀ is u, State.SameContexts is s u ↔ State.SameContexts is (s.passed ⟨dst, src, 0x08, [1]⟩) u :=
      fun is u => forall₂_congr fun j _ => by rw [ctx]
    generalize s.passed ⟨dst, src, 0x08, [1]⟩ = a at wrapper ctx line alloc labels tracker ctl same ⊢
    simp only [same, ← wrapper, ← ctx, ← line, ← alloc, ← labels, ← tracker, ← ctl]
    exact ⟨_, rfl, State.others_readyWrapper, State.readyWrapper_of_busy, State.readyWrapper_of_noted,
      State.readyWrapper_of_held, fun state => ⟨fun orphan faulted => State.ready_of_sound state orphan faulted rfl,
        fun offline orphan faulted => State.ready_output_of_offline offline orphan faulted,
        fun fault => State.ready_output state fault rfl, fun orphan => State.ready_of_orphan state orphan rfl,
        fun i c k pallet faulted hc line =>
          ⟨fun room unheld => State.ready_of_faulted_room state pallet faulted hc line room unheld rfl,
            fun full => State.ready_of_faulted_full state pallet faulted line full rfl⟩⟩⟩
  · rw [exec_warmUpEnd awake, State.warmUpEnds, if_neg (fun both => off.elim (fun h => h both.1) fun h => h both.2)]
  · rw [exec_warmUpEnd awake, State.warmUpEnds, if_pos ⟨warming, timer⟩]
    obtain ⟨y, leads, stopped, -⟩ := State.wrapperTo_endWarmUp_any w s
    refine ⟨_, rfl, by rw [leads.self, stopped], leads.others, fun empty => ?_, fun i c pallet delivered hc => ?_⟩
    · obtain ⟨ended, due, only⟩ := State.wrapperTo_endWarmUp empty
      exact ⟨by rw [ended.self], due, only.tracker.resolve_left (by decide)⟩
    · obtain ⟨⟨v, only, sent⟩, there, others, q, ended⟩ := State.endWarmUp_of_delivered pallet delivered hc
      rw [ended.self]
      refine ⟨rfl, rfl, rfl, there, others, fun r recipe => ⟨v, ?_, only⟩⟩
      rw [sent, recipe]
      rfl
  · have takes : exec (.standby dst src) s = .next ((s.passed ⟨dst, src, 0x08, [2]⟩).standbyWrapper w) :=
      (exec_standby fits).trans (congrArg _ State.wrapperEvent_standby)
    rw [takes]
    have wrapper := State.passed_wrapper ⟨dst, src, 0x08, [2]⟩ s
    have ctx := State.passed_ctx ⟨dst, src, 0x08, [2]⟩ s
    have alloc := State.passed_alloc ⟨dst, src, 0x08, [2]⟩ s
    have tracker := State.passed_tracker ⟨dst, src, 0x08, [2]⟩ s
    have same : ∀ is u, State.SameContexts is s u ↔ State.SameContexts is (s.passed ⟨dst, src, 0x08, [2]⟩) u :=
      fun is u => forall₂_congr fun j _ => by rw [ctx]
    generalize s.passed ⟨dst, src, 0x08, [2]⟩ = a at wrapper ctx alloc tracker same ⊢
    simp only [same, ← wrapper, ← ctx, ← alloc, ← tracker]
    refine ⟨fun state => by rw [State.standbyWrapper_of_offline state],
      fun state => by rw [State.standbyWrapper_of_doneHeld state], fun off off' => ?_⟩
    by_cases wraps : (a.wrapper w).state = .loaded ∨ (a.wrapper w).state = .wrapping
    · obtain ⟨leads, stopped⟩ := State.standbyWrapper_of_wrapping wraps
      refine ⟨_, rfl, ?_⟩
      rw [leads.self]
      refine ⟨rfl, rfl, leads.others, leads.car, fun warming => ?_, fun idle => ?_, fun _ => ⟨rfl, rfl, stopped⟩⟩
      · rcases wraps with state | state <;> rw [state] at warming <;> cases warming
      · rcases wraps with state | state <;> rw [state] at idle <;> rcases idle with h | h | h <;> cases h
    · have state : (a.wrapper w).state = .idle ∨ (a.wrapper w).state = .fault ∨ (a.wrapper w).state = .warming := by
        cases state : (a.wrapper w).state <;> simp_all
      obtain ⟨m, leads, stopped, only⟩ := State.standbyWrapper_of_empty state
      refine ⟨_, rfl, ?_⟩
      rw [leads.self]
      exact ⟨rfl, rfl, leads.others, leads.car, stopped, fun _ => ⟨rfl, only.tracker.resolve_left (by decide)⟩,
        fun h => absurd h wraps⟩

end Sys2Proof.Proofs
end

