-- ==== Sys2Proof/Proofs/Slice0/CarRecovery.lean ====
section
/-! A failed move of the car, its recovery after READY and the spur account (R101, R102, R104). -/

namespace Sys2Proof.Machine

open Sys2Proof

section
variable {s t u : State} {i : Slot} {c : Context} {src : Byte} {cause : Config.UnitCause} {f : Car → Car} {r : Reason}

/-! ### The car's record -/

theorem State.setCar_alloc (cause : Config.UnitCause) (f : Car → Car) (s : State) :
    (s.setCar cause f).alloc = { s.alloc with car := f s.alloc.car } :=
  (State.reportCar_only _ _ _).alloc.resolve_left (by decide)

theorem State.setCar_tracker (cause : Config.UnitCause) (f : Car → Car) (s : State) : (s.setCar cause f).tracker = s.tracker :=
  (State.setCar_only _ _ _).tracker.resolve_left (by decide)

/-- A CAR_MOVE sent changes the car's order only. -/
theorem State.sendCarMove_car (m : CarMove) (s : State) :
    ∃ o, (s.sendCarMove m).alloc = { s.alloc with car := { s.alloc.car with order := o } } := by
  have same := State.sendCarMove_unordered m s
  generalize (s.sendCarMove m).alloc = a at same
  obtain ⟨⟨_, _, _, _, _, o, _⟩, _, _, _, _⟩ := a
  simp only [Allocator.unordered, Allocator.mk.injEq, Car.mk.injEq] at same
  exact ⟨o, by simp [same]⟩

/-! ### A move that fails (R101) -/

theorem Context.verdict_handed_of_new {v : Verdict} (out : r ∉ c.reasons) (decided : c.verdict = some v) :
    (c.handed r).verdict = some (v.max r.severity) := by
  simp [Context.handed, out, decided]

theorem State.failMove_of_context (carried : s.alloc.car.cargo = .context ⟨i, c.adm⟩) (hc : s.ctx i = some c) :
    ∃ d, (s.failMove cause).ctx i = some d ∧ d.core = { c.handed .carFault with timer := none }.core := by
  obtain ⟨d, hd, core⟩ := State.handed_stopped (s := s.modCar fun c => { c with state := .fault }) hc .carFault
  refine ⟨d, ?_, core⟩
  have failed : (s.modCar fun c => { c with state := .fault }).alloc.car.cargo = .context ⟨i, c.adm⟩ := carried
  unfold State.failMove
  simp only [failed]
  exact (congrArg (fun x : Tracker => x.slots[i]) ((State.reportCar_only _ _ _).tracker.resolve_left (by decide))).trans hd

theorem State.failMove_of_orphan (carried : s.alloc.car.cargo = .orphan) : (s.failMove cause).tracker = s.tracker := by
  have failed : (s.modCar fun c => { c with state := .fault }).alloc.car.cargo = .orphan := carried
  unfold State.failMove
  simp only [failed]
  exact (State.reportCar_only _ _ _).tracker.resolve_left (by decide)

theorem State.failMove_car (cause : Config.UnitCause) (s : State) :
    (s.failMove cause).alloc.car = { s.alloc.car with state := .fault } := by
  have told (a : State) : (State.alloc (match a.alloc.car.cargo with
      | .context id => (a.handReason id .carFault).stopTimer id.slot
      | _ => a)).car = a.alloc.car := by
    split
    next id _ =>
      exact (State.WrapperTo.next_only (State.wrapperTo_handReason (w := 0) id .carFault) (State.stopTimer_only _ _)).car
    next => rfl
  unfold State.failMove
  exact (congrArg Allocator.car ((State.reportCar_only _ _ _).alloc.resolve_left (by decide))).trans
    (told (s.modCar fun c => { c with state := .fault }))

/-! ### A recovery move (R101) -/

/-- The car takes up a recovery move. -/
def Car.recovering (x : Car) : Car := { x with state := .moving, dest := some .spur, recipe := none, recoveryDue := false }

theorem State.recover_of_off (off : s.alloc.car.recoveryDue = false ∨ 6 ≤ s.spurAccount) : s.recover cause = s := by
  refine if_neg fun both => ?_
  rcases off with off | full
  · exact absurd both.1 (by rw [off]; decide)
  · exact absurd both.2 (Nat.not_lt.mpr full)

theorem State.recover_of_orphan (due : s.alloc.car.recoveryDue = true) (room : s.spurAccount < 6)
    (carried : s.alloc.car.cargo = .orphan) :
    s.recover cause = (s.setCar cause Car.recovering).sendCarMove ⟨none, .spur, none⟩ := by
  refine (if_pos ⟨due, room⟩).trans ?_
  rw [carried]
  rfl

theorem State.recover_of_context (due : s.alloc.car.recoveryDue = true) (room : s.spurAccount < 6)
    (carried : s.alloc.car.cargo = .context ⟨i, c.adm⟩) (hc : s.ctx i = some c) :
    s.recover cause = State.putCtx i (some { c with timer := some s.ctl.params.carMoveLimit })
      ((s.setCar cause Car.recovering).sendCarMove ⟨none, .spur, c.licence⟩) := by
  have there : (s.setCar cause Car.recovering).ctx i = some c :=
    (congrArg (fun x : Tracker => x.slots[i]) (State.setCar_tracker _ _ _)).trans hc
  have sent := State.sendCarMove_only ⟨none, .spur, c.licence⟩ (s.setCar cause Car.recovering)
  have after : ((s.setCar cause Car.recovering).sendCarMove ⟨none, .spur, c.licence⟩).ctx i = some c :=
    (congrArg (fun x : Tracker => x.slots[i]) (sent.tracker.resolve_left (by decide))).trans there
  have params : ((s.setCar cause Car.recovering).sendCarMove ⟨none, .spur, c.licence⟩).params = s.ctl.params :=
    congrArg (·.params) ((sent.ctl.resolve_left (by decide)).trans ((State.setCar_only _ _ _).ctl.resolve_left (by decide)))
  calc s.recover cause
      = ((s.setCar cause Car.recovering).sendCarMove ⟨none, .spur,
            ((s.setCar cause Car.recovering).named ⟨i, c.adm⟩).bind (·.licence)⟩).modCtx i fun d =>
          { d with timer := some ((s.setCar cause Car.recovering).sendCarMove ⟨none, .spur,
            ((s.setCar cause Car.recovering).named ⟨i, c.adm⟩).bind (·.licence)⟩).params.carMoveLimit } := by
        refine (if_pos ⟨due, room⟩).trans ?_
        rw [carried]
        rfl
    _ = _ := by
        rw [State.named_of_ctx there]
        show State.modCtx i _ ((s.setCar cause Car.recovering).sendCarMove ⟨none, .spur, c.licence⟩) = _
        rw [State.modCtx_of_ctx after, show ((s.setCar cause Car.recovering).sendCarMove
          ⟨none, .spur, (some c).bind (·.licence)⟩).params = s.ctl.params from params]

/-- However the cargo is named, a recovery move leaves the allocator as it is but for the car. -/
theorem State.recover_alloc (due : s.alloc.car.recoveryDue = true) (room : s.spurAccount < 6) :
    ∃ o, (s.recover cause).alloc = { s.alloc with car := { s.alloc.car.recovering with order := o } } := by
  have set := State.setCar_alloc cause Car.recovering s
  unfold State.recover
  dsimp only
  rw [if_pos ⟨due, room⟩]
  split
  next id _ =>
    obtain ⟨o, sent⟩ := State.sendCarMove_car ⟨none, .spur, ((s.setCar cause Car.recovering).named id).bind (·.licence)⟩
      (s.setCar cause Car.recovering)
    rw [set] at sent
    exact ⟨o, sent⟩
  next =>
    obtain ⟨o, sent⟩ := State.sendCarMove_car ⟨none, .spur, none⟩ (s.setCar cause Car.recovering)
    rw [set] at sent
    exact ⟨o, sent⟩

/-! ### The car's events by its state -/

theorem State.carEvent_fault_of_idle (idle : s.alloc.car.state = .idle) :
    s.carEvent src 2 = s.stray 0x07 src none none .noCandidate := by
  simp [State.carEvent, idle, kCarEvent]

theorem State.carEvent_fault_of_fault (fault : s.alloc.car.state = .fault) : s.carEvent src 2 = s := by
  simp [State.carEvent, fault]

theorem State.carEvent_fault (moving : s.alloc.car.state = .moving) : s.carEvent src 2 = s.failMove .moveFault := by
  simp [State.carEvent, moving]

theorem State.carEvent_ready (fault : s.alloc.car.state = .fault) : s.carEvent src 3 = s.readyCar.settle .carReady := by
  simp [State.carEvent, fault]

theorem State.carEvent_ready_of_other (off : s.alloc.car.state ≠ .fault) : s.carEvent src 3 = s := by
  cases state : s.alloc.car.state with
  | fault => exact absurd state off
  | idle | moving => simp [State.carEvent, state]

/-! ### READY (R101) -/

theorem State.readyCar_of_empty (empty : s.alloc.car.cargo = .none) :
    s.readyCar = (s.setCar .carReady fun c => { c with state := .idle }).callArbiter := by
  unfold State.readyCar
  rw [empty]

theorem State.readyCar_of_cargo (cargo : s.alloc.car.cargo ≠ .none) :
    s.readyCar = (s.modCar fun c => { c with recoveryDue := true }).recover .carReady := by
  unfold State.readyCar
  split
  next empty => exact absurd empty cargo
  next => rfl

/-! ### SPUR_STATE (R104) -/

/-- The state with the reported occupancy replaced. -/
def State.spurSet (n : Nat) (s : State) : State := s.onAlloc fun a => { a with spur := n }

theorem State.setSpur_of_same {n : Nat} (same : min 6 n = s.alloc.spur) : s.setSpur n = s := by
  unfold State.setSpur Config.spurMax
  dsimp only
  rw [same, if_neg (lt_irrefl _), if_neg (lt_irrefl _)]
  rfl

theorem State.setSpur_of_rise {n : Nat} (rise : s.alloc.spur < min 6 n) :
    s.setSpur n = (s.spurSet (min 6 n)).callArbiter := by
  unfold State.setSpur Config.spurMax
  dsimp only
  rw [if_neg (by omega), if_pos rise]
  rfl

theorem State.setSpur_of_fall {n : Nat} (fall : min 6 n < s.alloc.spur) :
    s.setSpur n = (s.spurSet (min 6 n)).callArbiter.recover .spurState := by
  unfold State.setSpur Config.spurMax
  dsimp only
  rw [if_pos fall]
  rfl

theorem State.ticketing_passed (x : Telegram) (s : State) : (s.passed x).ticketing = s.ticketing := by
  unfold State.ticketing State.slotsWhere
  simp only [State.passed_ctx]

theorem State.spurAccount_passed (x : Telegram) (s : State) : (s.passed x).spurAccount = s.spurAccount := by
  unfold State.spurAccount
  rw [State.ticketing_passed, State.passed_alloc]

theorem exec_carMoveLimitExpiry (awake : s.ctl.inReset = false) : exec (.carMoveLimitExpiry i) s = .next (s.carMoveLimit i) := by
  show Host.Outcome.next (s.awake _) = _
  rw [State.awake_of_running awake]

end

end Sys2Proof.Machine

namespace Sys2Proof.Proofs

open Sys2Proof Sys2Proof.Machine

/-- What a failed move leaves, for the state it fails in. -/
theorem failMove_leaves (s : State) (cause : Config.UnitCause) :
    (s.failMove cause).alloc.car = { s.alloc.car with state := .fault }
      ∧ (∀ i c, s.alloc.car.cargo = .context ⟨i, c.adm⟩ → s.ctx i = some c → ∃ d, (s.failMove cause).ctx i = some d
          ∧ Reason.carFault ∈ d.reasons ∧ d.timer = none ∧ d.phase = c.phase
          ∧ (Reason.carFault ∉ c.reasons → ∀ v, c.verdict = some v → d.verdict = some (v.max .rework)))
      ∧ (s.alloc.car.cargo = .orphan → (s.failMove cause).tracker = s.tracker) := by
  refine ⟨State.failMove_car _ _, fun i c carried hc => ?_, State.failMove_of_orphan⟩
  obtain ⟨d, hd, core⟩ := State.failMove_of_context (cause := cause) carried hc
  obtain ⟨reason, timer, phase⟩ := Context.of_handed_stopped core
  refine ⟨d, hd, reason, timer, phase, fun out v decided => ?_⟩
  exact (congrArg (·.verdict) core).trans (Context.verdict_handed_of_new out decided)

/-- What READY leaves of a car in FAULT, for the state it is taken in. -/
theorem readyCar_leaves (s : State) : ∃ u, s.readyCar = u
    ∧ (s.alloc.car.cargo = .none →
        u.alloc.car = { s.alloc.car with state := .idle } ∧ u.alloc.arbiterDue = true ∧ u.tracker = s.tracker)
    ∧ (s.alloc.car.cargo ≠ .none → s.spurAccount < 6 →
        u.alloc.car.state = .moving ∧ u.alloc.car.dest = some .spur ∧ u.alloc.car.recipe = none
          ∧ u.alloc.car.cargo = s.alloc.car.cargo ∧ u.alloc.car.recoveryDue = false
          ∧ (s.alloc.car.cargo = .orphan → ∃ v, u = v.sendCarMove ⟨none, .spur, none⟩
              ∧ State.Only [.alloc, .ring, .mgmt] s v)
          ∧ ∀ i c, s.alloc.car.cargo = .context ⟨i, c.adm⟩ → s.ctx i = some c →
              u.ctx i = some { c with timer := some s.ctl.params.carMoveLimit }
                ∧ State.SameContexts [i] s u
                ∧ ∃ v, State.Only [.alloc, .ring, .mgmt] s v
                  ∧ u = State.putCtx i (some { c with timer := some s.ctl.params.carMoveLimit })
                      (v.sendCarMove ⟨none, .spur, c.licence⟩))
    ∧ (s.alloc.car.cargo ≠ .none → 6 ≤ s.spurAccount → u = s.modCar fun c => { c with recoveryDue := true }) := by
  refine ⟨_, rfl, fun empty => ?_, fun cargo room => ?_, fun cargo full => ?_⟩
  · rw [State.readyCar_of_empty empty]
    exact ⟨congrArg Allocator.car (State.setCar_alloc _ _ _), rfl, State.setCar_tracker _ _ _⟩
  · have footprint : State.Only [.alloc, .ring, .mgmt] s
        ((s.modCar fun c => { c with recoveryDue := true }).setCar .carReady Car.recovering) :=
      (State.modCar_only _ _).first.next (State.setCar_only _ _ _)
    have due : (s.modCar fun c => { c with recoveryDue := true }).alloc.car.recoveryDue = true := rfl
    obtain ⟨o, alloc⟩ := State.recover_alloc (cause := .carReady) due room
    rw [State.readyCar_of_cargo cargo, alloc]
    refine ⟨rfl, rfl, rfl, rfl, rfl, fun carried => ⟨_, State.recover_of_orphan due room carried, footprint⟩,
      fun i c carried hc => ?_⟩
    rw [State.recover_of_context (s := s.modCar fun c => { c with recoveryDue := true }) due room carried hc]
    refine ⟨State.ctx_putCtx_self _ _ _, fun j out => ?_, _, footprint, rfl⟩
    refine (State.ctx_putCtx_of_ne (fun e => out (by simp [e])) _ _).trans (congrArg (fun x : Tracker => x.slots[j]) ?_)
    exact ((State.sendCarMove_only _ _).tracker.resolve_left (by decide)).trans (footprint.tracker.resolve_left (by decide))
  · rw [State.readyCar_of_cargo cargo, State.recover_of_off (s := s.modCar fun c => { c with recoveryDue := true }) (.inr full)]

/-- What SPUR_STATE leaves, for the state it is taken in. -/
theorem setSpur_leaves (s : State) (n m : Nat) (least : m = min 6 n) : ∃ u, s.setSpur n = u
    ∧ u.alloc.spur = m
    ∧ (m = s.alloc.spur → u = s)
    ∧ (m ≠ s.alloc.spur → u.alloc.arbiterDue = true)
    ∧ (s.alloc.spur < m ∨ s.alloc.car.recoveryDue = false ∨ 6 ≤ m + s.ticketing →
        u.alloc.car = s.alloc.car ∧ State.Only [.alloc] s u)
    ∧ (m < s.alloc.spur → s.alloc.car.recoveryDue = true → m + s.ticketing < 6 →
        u.alloc.car.state = .moving ∧ u.alloc.car.dest = some .spur ∧ u.alloc.car.recoveryDue = false
          ∧ u.alloc.car.cargo = s.alloc.car.cargo
          ∧ (s.alloc.car.cargo = .orphan → ∃ v, u = v.sendCarMove ⟨none, .spur, none⟩
              ∧ State.Only [.alloc, .ring, .mgmt] s v)
          ∧ ∀ i c, s.alloc.car.cargo = .context ⟨i, c.adm⟩ → s.ctx i = some c →
              ∃ v, State.Only [.alloc, .ring, .mgmt] s v
                ∧ u = State.putCtx i (some { c with timer := some s.ctl.params.carMoveLimit })
                    (v.sendCarMove ⟨none, .spur, c.licence⟩)) := by
  subst least
  have called : State.Only [.alloc] s (s.spurSet (min 6 n)).callArbiter :=
    (State.onAlloc_only _ _).trans (State.onAlloc_only _ _)
  rcases Nat.lt_trichotomy (min 6 n) s.alloc.spur with fall | same | rise
  · rw [State.setSpur_of_fall fall]
    by_cases moves : s.alloc.car.recoveryDue = true ∧ min 6 n + s.ticketing < 6
    · obtain ⟨due, room⟩ := moves
      have footprint : State.Only [.alloc, .ring, .mgmt] s
          ((s.spurSet (min 6 n)).callArbiter.setCar .spurState Car.recovering) :=
        called.first.next (State.setCar_only _ _ _)
      obtain ⟨o, alloc⟩ := State.recover_alloc (s := (s.spurSet (min 6 n)).callArbiter) (cause := .spurState) due room
      refine ⟨_, rfl, by rw [alloc]; rfl, fun same => absurd same fall.ne, fun _ => by rw [alloc]; rfl, fun off => ?_,
        fun _ _ _ => ⟨by rw [alloc]; rfl, by rw [alloc]; rfl, by rw [alloc]; rfl, by rw [alloc]; rfl,
          fun carried => ⟨_, State.recover_of_orphan due room carried, footprint⟩, fun i c carried hc =>
            ⟨_, footprint, State.recover_of_context (s := (s.spurSet (min 6 n)).callArbiter) due room carried hc⟩⟩⟩
      rcases off with rise | off | full
      · omega
      · exact absurd due (by rw [off]; decide)
      · omega
    · have off : s.alloc.car.recoveryDue = false ∨ 6 ≤ min 6 n + s.ticketing := by
        rw [not_and_or, Bool.not_eq_true, Nat.not_lt] at moves
        exact moves
      rw [State.recover_of_off (s := (s.spurSet (min 6 n)).callArbiter) off]
      exact ⟨_, rfl, rfl, fun same => absurd same fall.ne, fun _ => rfl, fun _ => ⟨rfl, called⟩,
        fun _ due room => absurd ⟨due, room⟩ moves⟩
  · rw [State.setSpur_of_same same]
    exact ⟨s, rfl, same.symm, fun _ => rfl, fun ne => absurd same ne, fun _ => ⟨rfl, .refl _ _⟩,
      fun fall => absurd same fall.ne⟩
  · rw [State.setSpur_of_rise rise]
    exact ⟨_, rfl, rfl, fun same => absurd same rise.ne', fun _ => rfl, fun _ => ⟨rfl, called⟩,
      fun fall => absurd fall rise.not_gt⟩

/-- Settles O33, by the state of the car, its cargo and the spur account. -/
theorem moveFaultAndRecovery : Obligations.MoveFaultAndRecovery := by
  refine ⟨fun s dst src => ⟨fun hears role => ⟨fun idle => ?_, fun fault => ?_, fun moving => ?_⟩,
    fun i c awake hc => ⟨fun phase timer moving carried out v decided => ?_, fun off => ?_⟩⟩,
    fun s dst src hears role => ⟨fun off => ?_, fun fault => ?_⟩, fun s dst src n hears role => ?_⟩
  · refine (exec_moveFault hears role).trans (congrArg _ ?_)
    exact State.carEvent_fault_of_idle (by rw [State.passed_alloc]; exact idle)
  · refine (exec_moveFault hears role).trans (congrArg _ ?_)
    exact State.carEvent_fault_of_fault (by rw [State.passed_alloc]; exact fault)
  · have takes : exec (.moveFault dst src) s = .next ((s.passed ⟨dst, src, 0x07, [2]⟩).failMove .moveFault) :=
      (exec_moveFault hears role).trans (congrArg _ (State.carEvent_fault (by rw [State.passed_alloc]; exact moving)))
    have left := failMove_leaves (s.passed ⟨dst, src, 0x07, [2]⟩) .moveFault
    simp only [State.passed_alloc, State.passed_ctx, State.passed_tracker] at left
    exact ⟨_, takes, left⟩
  · obtain ⟨car, context, -⟩ := failMove_leaves s .carMoveLimit
    obtain ⟨d, hd, reason, stopped, same, verdict⟩ := context i c carried hc
    refine ⟨_, d, ?_, car, hd, verdict out v decided, reason, stopped, same.trans phase⟩
    rw [exec_carMoveLimitExpiry awake, State.carMoveLimit, State.onExpiry_of_timed hc phase timer,
      if_pos ⟨moving, by simp [Car.carries, carried]⟩]
  · rw [exec_carMoveLimitExpiry awake, State.carMoveLimit, State.onExpiry_of_not hc off]
  · refine (exec_carReady hears role).trans (congrArg _ ?_)
    exact State.carEvent_ready_of_other (by rw [State.passed_alloc]; exact off)
  · have takes : exec (.carReady dst src) s =
        .next ((s.passed ⟨dst, src, 0x07, [3]⟩).readyCar.settle .carReady) :=
      (exec_carReady hears role).trans (congrArg _ (State.carEvent_ready (by rw [State.passed_alloc]; exact fault)))
    obtain ⟨u, ready, left⟩ := readyCar_leaves (s.passed ⟨dst, src, 0x07, [3]⟩)
    refine ⟨u, by rw [takes, ready], ?_⟩
    have spur : (s.passed ⟨dst, src, 0x07, [3]⟩).spurAccount = s.spurAccount := State.spurAccount_passed _ s
    simpa only [spur, State.passed_alloc, State.passed_ctx, State.passed_tracker, State.passed_ctl,
      State.SameContexts] using left
  · have takes : exec (.spurState dst src n) s =
        .next (State.settle .spurState ((s.passed ⟨dst, src, 0x0B, [n]⟩).setSpur n.toNat)) := exec_spurState hears role
    obtain ⟨u, set, left⟩ := setSpur_leaves (s.passed ⟨dst, src, 0x0B, [n]⟩) n.toNat _ rfl
    refine ⟨u, _, rfl, by rw [takes, set], ?_⟩
    have ticketing : (s.passed ⟨dst, src, 0x0B, [n]⟩).ticketing = s.ticketing := State.ticketing_passed _ s
    simpa only [ticketing, State.passed_alloc, State.passed_ctx, State.passed_ctl] using left

end Sys2Proof.Proofs
end

