-- ==== Sys2Proof/Proofs/Slice0/MoveEnds.lean ====
section
/-! MOVE_DONE and what is set down: at a wrapper, at the spur, or an orphan (R100, R102). -/

namespace Sys2Proof.Machine

open Sys2Proof

section
variable {s t u : State} {i : Slot} {c : Context} {w : WrapperNo} {src : Byte} {cause : Config.UnitCause} {recipe : Option Nat}

theorem State.ctx_of_tracker (same : t.tracker = s.tracker) (i : Slot) : t.ctx i = s.ctx i :=
  congrArg (fun x : Tracker => x.slots[i]) same

theorem State.queue_of_tracker (same : t.tracker = s.tracker) (l : Lane) : t.queue l = s.queue l :=
  congrArg (fun x : Tracker => x.lanes[l].queue) same

/-! ### The car set IDLE (R100) -/

/-- The car's record once what it carried is set down. -/
def Car.unloaded (x : Car) : Car := { x with state := .idle, cargo := .none, source := none, dest := none, recipe := none }

theorem State.carIdle_alloc (s : State) :
    s.carIdle.alloc = { s.alloc with car := s.alloc.car.unloaded, arbiterDue := true } :=
  congrArg (fun a : Allocator => { a with arbiterDue := true }) (State.setCar_alloc _ _ _)

theorem State.carIdle_only (s : State) : State.Only [.alloc, .ring, .mgmt] s s.carIdle :=
  (State.setCar_only _ _ _).next (State.callArbiter_only _)

/-- What is set down stays as it is when the car becomes IDLE. -/
theorem State.carIdle_spec (s : State) : s.carIdle.alloc.car = s.alloc.car.unloaded ∧ s.carIdle.alloc.arbiterDue = true
    ∧ (∀ v, s.carIdle.wrapper v = s.wrapper v) ∧ s.carIdle.tracker = s.tracker ∧ s.carIdle.labels = s.labels := by
  have alloc := s.carIdle_alloc
  refine ⟨by rw [alloc], by rw [alloc], fun v => ?_, s.carIdle_only.tracker.resolve_left (by decide),
    s.carIdle_only.labels.resolve_left (by decide)⟩
  rw [State.wrapper, alloc]
  rfl

/-! ### A context set down at a wrapper (R100) -/

/-- The record of a wrapper at which a context is set down. -/
def Wrapper.loaded (id : CtxId) (p : Progress) (recipe : Option Nat) (x : Wrapper) : Wrapper :=
  { x with pallet := .context id, progress := some p, recipe := recipe }

theorem State.deliver_of_busy (hc : s.ctx i = some c) (busy : (s.wrapper w).state ≠ .idle) :
    s.deliver ⟨i, c.adm⟩ w recipe = ((s.putCtx i (some { c with wrapper := some w })).modWrapper w
      (Wrapper.loaded ⟨i, c.adm⟩ .delivered recipe)).putCtx i
        (some { c with wrapper := some w, phase := .wrapping, timer := none }) := by
  have state : ((s.putCtx i (some { c with wrapper := some w })).wrapper w).state ≠ .idle := busy
  have there : ((s.putCtx i (some { c with wrapper := some w })).modWrapper w
      (Wrapper.loaded ⟨i, c.adm⟩ .delivered recipe)).ctx i = some { c with wrapper := some w } := State.ctx_putCtx_self i _ s
  unfold State.deliver
  dsimp only
  rw [State.modCtx_of_ctx hc]
  split
  next idle => exact absurd idle state
  all_goals exact State.enter_of_ctx there _ _

/-- At an IDLE wrapper the wrap is ordered. -/
theorem State.deliver_of_idle (hc : s.ctx i = some c) (idle : (s.wrapper w).state = .idle) :
    ∃ v, s.deliver ⟨i, c.adm⟩ w recipe = v.sendWrapOrder w ⟨recipe.getD 0, c.licence⟩
      ∧ v.tracker = (s.putCtx i (some { c with
          wrapper := some w, phase := .wrapping, timer := some s.ctl.params.wrapLimit })).tracker
      ∧ State.WrapperTo w { s.wrapper w with
          state := .loaded, pallet := .context ⟨i, c.adm⟩, progress := some .ordered, recipe := recipe } s v
      ∧ State.Only [.tracker, .alloc, .ring, .mgmt] s v := by
  have state : ((s.putCtx i (some { c with wrapper := some w })).wrapper w).state = .idle := idle
  obtain ⟨a, set⟩ : ∃ a, State.setWrapper w .moveDone (fun x => { Wrapper.loaded ⟨i, c.adm⟩ .ordered recipe x with
      state := .loaded }) (s.putCtx i (some { c with wrapper := some w })) = a := ⟨_, rfl⟩
  have only := State.setWrapper_only w .moveDone (fun x => { Wrapper.loaded ⟨i, c.adm⟩ .ordered recipe x with
      state := .loaded }) (s.putCtx i (some { c with wrapper := some w }))
  have leads := State.wrapperTo_setWrapper (w := w) (s := s.putCtx i (some { c with wrapper := some w })) .moveDone
    fun x => { Wrapper.loaded ⟨i, c.adm⟩ .ordered recipe x with state := .loaded }
  rw [set] at only leads
  have tracker : a.tracker = (s.putCtx i (some { c with wrapper := some w })).tracker :=
    only.tracker.resolve_left (by decide)
  have there : a.ctx i = some { c with wrapper := some w } :=
    (State.ctx_of_tracker tracker i).trans (State.ctx_putCtx_self _ _ _)
  have ctl : a.ctl = s.ctl := only.ctl.resolve_left (by decide)
  have entered : a.enter i .wrapping none = a.putCtx i (some { c with wrapper := some w, phase := .wrapping, timer := none }) :=
    State.enter_of_ctx there _ _
  have eq : s.deliver ⟨i, c.adm⟩ w recipe = (a.enter i .wrapping none).orderWrap w := by
    unfold State.deliver
    dsimp only
    rw [State.modCtx_of_ctx hc, state]
    exact congrArg (fun x : State => (x.enter i .wrapping none).orderWrap w) set
  rw [entered] at eq
  obtain ⟨ordered, -, -, -⟩ := State.orderWrap_spec (w := w) (i := i)
    (c := { c with wrapper := some w, phase := .wrapping, timer := none })
    (s := a.putCtx i (some { c with wrapper := some w, phase := .wrapping, timer := none }))
    (congrArg Wrapper.pallet leads.self) (State.ctx_putCtx_self _ _ _)
  refine ⟨_, eq.trans (ordered.trans (congrArg (fun r => State.sendWrapOrder w ⟨r, c.licence⟩ _) ?_)), ?_, ?_, ?_⟩
  · show (a.wrapper w).recipe.getD 0 = _
    rw [leads.self]
    rfl
  · rw [State.putCtx_putCtx]
    show (a.putCtx i (some { c with wrapper := some w, phase := .wrapping, timer := some a.ctl.params.wrapLimit })).tracker = _
    rw [ctl]
    unfold State.putCtx State.onTracker
    rw [tracker]
    simp [State.putCtx, State.onTracker]
  · exact ⟨leads.self, leads.others, leads.car, leads.spur, leads.held, leads.due⟩
  · rw [State.putCtx_putCtx]
    exact ((State.putCtx_only _ _ _).first.next only).next (State.putCtx_only _ _ _)

/-! ### A context set down at the spur (R100) -/

theorem State.toSpur_spec (hc : s.ctx i = some c) : ∃ d, (s.toSpur ⟨i, c.adm⟩).ctx i = some d
    ∧ d.core = { c with phase := .ticketing, timer := none }.core
    ∧ (s.toSpur ⟨i, c.adm⟩).labels.tickets = s.labels.tickets ++ [i] ∧ (s.toSpur ⟨i, c.adm⟩).alloc = s.alloc
    ∧ ∀ l, (s.toSpur ⟨i, c.adm⟩).queue l = s.queue l := by
  have started := State.startTicket_only ((s.enter i .ticketing none).onLabels fun d => { d with tickets := d.tickets ++ [i] })
  have tracks := State.startTicket_tracks (is := [])
    ((s.enter i .ticketing none).onLabels fun d => { d with tickets := d.tickets ++ [i] })
  have entered : ((s.enter i .ticketing none).onLabels fun d => { d with tickets := d.tickets ++ [i] }).ctx i =
      some { c with phase := .ticketing, timer := none } := by
    rw [State.enter_of_ctx hc]
    exact State.ctx_putCtx_self i _ s
  obtain ⟨d, hd, core⟩ := State.ctx_of_core (State.core_eq_of_tracks tracks) entered
  exact ⟨d, hd, core, congrArg (·.tickets) (started.labels.resolve_left (by decide)),
    started.alloc.resolve_left (by decide), tracks.queues⟩

/-! ### An orphan set down at a wrapper (R111) -/

/-- The record of a wrapper left with an orphan. -/
def Wrapper.orphaned (x : Wrapper) : Wrapper :=
  { x.emptied with state := .fault, pallet := .orphan, warmTimer := none, wrapOrder := none }

theorem State.orphanWrapper_spec (w : WrapperNo) (cause : Config.UnitCause) (s : State) :
    (s.orphanWrapper w cause).wrapper w = (s.wrapper w).orphaned
      ∧ (∀ v, v ≠ w → (s.orphanWrapper w cause).wrapper v = s.wrapper v)
      ∧ (s.orphanWrapper w cause).alloc.car = s.alloc.car ∧ (s.orphanWrapper w cause).alloc.spur = s.alloc.spur
      ∧ (s.orphanWrapper w cause).alloc.held =
        s.alloc.held.set (lineOfWrapper w) ((s.alloc.held[lineOfWrapper w]).erase w)
      ∧ (s.alloc.arbiterDue = true → (s.orphanWrapper w cause).alloc.arbiterDue = true)
      ∧ State.Only [.alloc, .ring, .mgmt] s (s.orphanWrapper w cause) := by
  have dropped := State.wrapperTo_dropWrapOrder (s := s.modHeld (lineOfWrapper w) fun l => l.erase w) (w := w)
  have set := State.wrapperTo_setWrapper (w := w)
    (s := (s.modHeld (lineOfWrapper w) fun l => l.erase w).dropWrapOrder w) cause fun x =>
      { x.emptied with state := .fault, pallet := .orphan, warmTimer := none }
  rw [dropped.self] at set
  have leads := dropped.trans set
  refine ⟨leads.self, leads.others, leads.car, leads.spur, leads.held, leads.due, ?_⟩
  have drop : State.Only [.alloc, .ring] (s.modHeld (lineOfWrapper w) fun l => l.erase w)
      ((s.modHeld (lineOfWrapper w) fun l => l.erase w).dropWrapOrder w) :=
    (State.modWrapper_only _ _ _).first.next (State.prune_only _ _)
  exact ((State.onAlloc_only _ _).first.next drop).next (State.setWrapper_only _ _ _ _)

/-! ### MOVE_DONE (R100) -/

theorem State.carEvent_done (moving : s.alloc.car.state = .moving) : s.carEvent src 1 = s.endMove := by
  simp [State.carEvent, moving]

theorem State.carEvent_done_of_other (off : s.alloc.car.state ≠ .moving) :
    s.carEvent src 1 = s.stray 0x07 src none none .noCandidate := by
  cases state : s.alloc.car.state with
  | moving => exact absurd state off
  | idle | fault => simp [State.carEvent, state, kCarEvent]

/-- What the car sets down of a context it carries. -/
def State.setDown (id : CtxId) (s : State) : State :=
  match s.alloc.car.dest with
  | some (.wrapper w) => s.deliver id w s.alloc.car.recipe
  | _ => s.toSpur id

theorem State.endMove_of_context (carried : s.alloc.car.cargo = .context ⟨i, c.adm⟩) (hc : s.ctx i = some c) :
    s.endMove = (((s.leaveLane i c.lane).setDown ⟨i, c.adm⟩).carIdle.settle .moveDone).infeedDecision c.lane := by
  unfold State.endMove
  simp only [carried, State.named_of_ctx hc]
  rfl

theorem State.endMove_of_orphan (carried : s.alloc.car.cargo = .orphan) : s.endMove =
    (match s.alloc.car.dest with
      | some (.wrapper w) => s.orphanWrapper w .moveDone
      | _ => s).carIdle.settle .moveDone := by
  unfold State.endMove
  simp only [carried] <;> rfl

theorem State.setDown_of_wrapper {id : CtxId} (dest : s.alloc.car.dest = some (.wrapper w)) :
    s.setDown id = s.deliver id w s.alloc.car.recipe := by
  unfold State.setDown
  rw [dest]

theorem State.setDown_of_spur {id : CtxId} (dest : ∀ w, s.alloc.car.dest ≠ some (.wrapper w)) : s.setDown id = s.toSpur id := by
  unfold State.setDown
  split
  next w to_w => exact absurd to_w (dest w)
  next => rfl

theorem State.leaveLane_queue (i : Slot) (l m : Lane) (s : State) :
    (s.leaveLane i l).queue m = if l = m then (s.queue l).erase i else s.queue m := State.queue_modLane _ _ _ _

end

end Sys2Proof.Machine

namespace Sys2Proof.Proofs

open Sys2Proof Sys2Proof.Machine

section
variable {s : State} {i : Slot} {c : Context} {w : WrapperNo}

/-- A context set down at an IDLE wrapper, once it has left its lane. -/
theorem setDown_at_idle (hc : s.ctx i = some c) (dest : s.alloc.car.dest = some (.wrapper w)) (idle : (s.wrapper w).state = .idle)
    (d : Context) (after : d = { c with wrapper := some w, phase := .wrapping, timer := some s.ctl.params.wrapLimit }) :
    ∃ v u, u = (s.setDown ⟨i, c.adm⟩).carIdle
      ∧ u = (v.sendWrapOrder w ⟨s.alloc.car.recipe.getD 0, c.licence⟩).carIdle
      ∧ u.tracker = (s.putCtx i (some d)).tracker ∧ v.ctx i = some d ∧ v.alloc.car = s.alloc.car
      ∧ v.wrapper w = { s.wrapper w with
          state := .loaded, pallet := .context ⟨i, c.adm⟩, progress := some .ordered, recipe := s.alloc.car.recipe }
      ∧ (u.wrapper w).state = .loaded ∧ (u.wrapper w).pallet = .context ⟨i, c.adm⟩
      ∧ (u.wrapper w).progress = some .ordered ∧ (u.wrapper w).recipe = s.alloc.car.recipe
      ∧ (∀ v, v ≠ w → u.wrapper v = s.wrapper v) ∧ u.alloc.car = s.alloc.car.unloaded ∧ u.alloc.arbiterDue = true
      ∧ State.Only [.tracker, .alloc, .ring, .mgmt] s v := by
  subst after
  obtain ⟨v, eq, tracker, leads, only⟩ := State.deliver_of_idle (recipe := s.alloc.car.recipe) hc idle
  obtain ⟨q, sent⟩ := State.wrapperTo_sendWrapOrder (s := v) (w := w) ⟨s.alloc.car.recipe.getD 0, c.licence⟩
  have ring := State.sendWrapOrder_only w ⟨s.alloc.car.recipe.getD 0, c.licence⟩ v
  obtain ⟨car, due, wrappers, kept, -⟩ := State.carIdle_spec (v.sendWrapOrder w ⟨s.alloc.car.recipe.getD 0, c.licence⟩)
  have reached := leads.trans (by rw [leads.self] at sent; exact sent)
  have tracked := (kept.trans (ring.tracker.resolve_left (by decide))).trans tracker
  refine ⟨v, _, by rw [State.setDown_of_wrapper dest, eq], rfl, tracked, ?_, leads.car, leads.self,
    ?_, ?_, ?_, ?_, fun x ne => ?_, ?_, due, only⟩
  · exact (State.ctx_of_tracker tracker i).trans (State.ctx_putCtx_self _ _ _)
  · rw [wrappers, reached.self]
  · rw [wrappers, reached.self]
  · rw [wrappers, reached.self]
  · rw [wrappers, reached.self]
  · rw [wrappers, reached.others x ne]
  · rw [car, reached.car]

/-- A context set down at a wrapper that is not IDLE, once it has left its lane. -/
theorem setDown_at_busy (hc : s.ctx i = some c) (dest : s.alloc.car.dest = some (.wrapper w)) (busy : (s.wrapper w).state ≠ .idle)
    (d : Context) (after : d = { c with wrapper := some w, phase := .wrapping, timer := none }) :
    ∃ u, u = (s.setDown ⟨i, c.adm⟩).carIdle ∧ u.tracker = (s.putCtx i (some d)).tracker
      ∧ u.wrapper w = { s.wrapper w with
          pallet := .context ⟨i, c.adm⟩, progress := some .delivered, recipe := s.alloc.car.recipe }
      ∧ (∀ v, v ≠ w → u.wrapper v = s.wrapper v) ∧ u.alloc.car = s.alloc.car.unloaded ∧ u.alloc.arbiterDue = true := by
  subst after
  obtain ⟨car, due, wrappers, kept, -⟩ := State.carIdle_spec (s.deliver ⟨i, c.adm⟩ w s.alloc.car.recipe)
  have eq := State.deliver_of_busy (recipe := s.alloc.car.recipe) hc busy
  have leads := State.wrapperTo_modWrapper (w := w) (s := s.putCtx i (some { c with wrapper := some w }))
    (Wrapper.loaded ⟨i, c.adm⟩ .delivered s.alloc.car.recipe)
  have tracker : (s.deliver ⟨i, c.adm⟩ w s.alloc.car.recipe).tracker =
      (s.putCtx i (some { c with wrapper := some w, phase := .wrapping, timer := none })).tracker := by
    rw [eq]
    have twice := congrArg State.tracker (State.putCtx_putCtx i (some { c with wrapper := some w })
      (some { c with wrapper := some w, phase := .wrapping, timer := none }) s)
    exact twice
  rw [State.setDown_of_wrapper dest]
  refine ⟨_, rfl, kept.trans tracker, ?_, fun x ne => ?_, ?_, due⟩
  · rw [wrappers, eq]
    exact leads.self
  · rw [wrappers, eq]
    exact leads.others x ne
  · rw [car, eq]
    rfl

/-- A context set down at the spur, once it has left its lane. -/
theorem setDown_at_spur (hc : s.ctx i = some c) (dest : ∀ w, s.alloc.car.dest ≠ some (.wrapper w)) :
    ∃ u d, u = (s.setDown ⟨i, c.adm⟩).carIdle ∧ u.ctx i = some d ∧ d.phase = .ticketing ∧ d.timer = none
      ∧ d.verdict = c.verdict ∧ u.labels.tickets = s.labels.tickets ++ [i] ∧ (∀ v, u.wrapper v = s.wrapper v)
      ∧ (∀ l, u.queue l = s.queue l) ∧ u.alloc.car = s.alloc.car.unloaded ∧ u.alloc.arbiterDue = true := by
  obtain ⟨d, hd, core, tickets, alloc, queues⟩ := State.toSpur_spec hc
  obtain ⟨car, due, wrappers, kept, labels⟩ := State.carIdle_spec (s.toSpur ⟨i, c.adm⟩)
  rw [State.setDown_of_spur dest]
  refine ⟨_, d, rfl, (State.ctx_of_tracker kept i).trans hd, congrArg (·.phase) core, congrArg (·.timer) core,
    congrArg (·.verdict) core, by rw [labels, tickets], fun v => ?_, fun l => (State.queue_of_tracker kept l).trans (queues l),
    by rw [car, alloc], due⟩
  rw [wrappers, State.wrapper, alloc]
  rfl

/-- What MOVE_DONE leaves of a context carried, for the state it is taken in. -/
theorem endMove_leaves (carried : s.alloc.car.cargo = .context ⟨i, c.adm⟩) (hc : s.ctx i = some c) :
    ∃ u d, s.endMove = (State.settle .moveDone u).infeedDecision c.lane
      ∧ u.alloc.car = { s.alloc.car with
          state := .idle, cargo := .none, source := none, dest := none, recipe := none }
      ∧ u.alloc.arbiterDue = true ∧ u.queue c.lane = (s.queue c.lane).erase i
      ∧ (∀ m, m ≠ c.lane → u.queue m = s.queue m) ∧ u.ctx i = some d
      ∧ (∀ w, s.alloc.car.dest = some (.wrapper w) → (s.wrapper w).state = .idle →
          d = { c with wrapper := some w, phase := .wrapping, timer := some s.ctl.params.wrapLimit }
            ∧ (u.wrapper w).state = .loaded ∧ (u.wrapper w).pallet = .context ⟨i, c.adm⟩
            ∧ (u.wrapper w).progress = some .ordered ∧ (u.wrapper w).recipe = s.alloc.car.recipe
            ∧ (∀ v, v ≠ w → u.wrapper v = s.wrapper v) ∧ State.SameContexts [i] s u
            ∧ ∀ r, s.alloc.car.recipe = some r →
                ∃ v, u = State.carIdle (v.sendWrapOrder w ⟨r, c.licence⟩) ∧ v.ctx i = some d
                  ∧ v.alloc.car = s.alloc.car
                  ∧ v.wrapper w = { s.wrapper w with
                      state := .loaded, pallet := .context ⟨i, c.adm⟩, progress := some .ordered, recipe := some r }
                  ∧ State.Only [.tracker, .alloc, .ring, .mgmt] s v)
      ∧ (∀ w, s.alloc.car.dest = some (.wrapper w) → (s.wrapper w).state ≠ .idle →
          d = { c with wrapper := some w, phase := .wrapping, timer := none }
            ∧ u.wrapper w = { s.wrapper w with
                pallet := .context ⟨i, c.adm⟩, progress := some .delivered, recipe := s.alloc.car.recipe }
            ∧ (∀ v, v ≠ w → u.wrapper v = s.wrapper v) ∧ State.SameContexts [i] s u)
      ∧ (s.alloc.car.dest = some .spur → d.phase = .ticketing ∧ d.timer = none ∧ d.verdict = c.verdict
            ∧ u.labels.tickets = s.labels.tickets ++ [i] ∧ ∀ v, u.wrapper v = s.wrapper v) := by
  have there : (s.leaveLane i c.lane).ctx i = some c := hc
  have left (u : State) (d : Context) (tracker : u.tracker = ((s.leaveLane i c.lane).putCtx i (some d)).tracker) :
      u.ctx i = some d ∧ State.SameContexts [i] s u ∧ u.queue c.lane = (s.queue c.lane).erase i
        ∧ ∀ m, m ≠ c.lane → u.queue m = s.queue m := by
    refine ⟨(State.ctx_of_tracker tracker i).trans (State.ctx_putCtx_self _ _ _), fun j out => ?_, ?_, fun m ne => ?_⟩
    · exact (State.ctx_of_tracker tracker j).trans
        (State.ctx_putCtx_of_ne (s := s.leaveLane i c.lane) (fun e => out (by simp [e])) _)
    · exact (State.queue_of_tracker tracker _).trans ((State.leaveLane_queue i c.lane c.lane s).trans (if_pos rfl))
    · exact (State.queue_of_tracker tracker m).trans ((State.leaveLane_queue i c.lane m s).trans (if_neg (Ne.symm ne)))
  have first : State.Only [.tracker, .alloc, .ring, .mgmt] s (s.leaveLane i c.lane) := (State.modLane_only _ _ _).first
  rw [State.endMove_of_context carried hc]
  by_cases atWrapper : ∃ w, s.alloc.car.dest = some (.wrapper w)
  · obtain ⟨w, dest⟩ := atWrapper
    by_cases idle : (s.wrapper w).state = .idle
    · obtain ⟨v, u, eq, sent, tracker, at_v, carrier, loaded, state, pallet, progress, recipe, others, car, due, only⟩ :=
        setDown_at_idle (s := s.leaveLane i c.lane) there dest idle _ rfl
      obtain ⟨hd, same, gone, queues⟩ := left u _ tracker
      refine ⟨u, _, by rw [eq], car, due, gone, queues, hd, fun x dest' _ => ?_, fun x dest' busy => ?_, fun spur => ?_⟩
      · obtain rfl : w = x := by rw [dest] at dest'; cases dest'; rfl
        refine ⟨rfl, state, pallet, progress, recipe, others, same, fun r given => ⟨v, ?_, at_v, carrier, ?_, first.trans only⟩⟩
        · rw [sent]
          show (v.sendWrapOrder w ⟨s.alloc.car.recipe.getD 0, c.licence⟩).carIdle = _
          rw [given]
          rfl
        · rw [loaded]
          show ({ s.wrapper w with
            state := .loaded, pallet := .context ⟨i, c.adm⟩, progress := some .ordered, recipe := s.alloc.car.recipe } : Wrapper) = _
          rw [given]
      · obtain rfl : w = x := by rw [dest] at dest'; cases dest'; rfl
        exact absurd idle busy
      · rw [dest] at spur
        cases spur
    · obtain ⟨u, eq, tracker, loaded, others, car, due⟩ :=
        setDown_at_busy (s := s.leaveLane i c.lane) there dest idle _ rfl
      obtain ⟨hd, same, gone, queues⟩ := left u _ tracker
      refine ⟨u, _, by rw [eq], car, due, gone, queues, hd, fun x dest' idle' => ?_, fun x dest' _ => ?_, fun spur => ?_⟩
      · obtain rfl : w = x := by rw [dest] at dest'; cases dest'; rfl
        exact absurd idle' idle
      · obtain rfl : w = x := by rw [dest] at dest'; cases dest'; rfl
        exact ⟨rfl, loaded, others, same⟩
      · rw [dest] at spur
        cases spur
  · have dest (w : WrapperNo) : s.alloc.car.dest ≠ some (.wrapper w) := fun h => atWrapper ⟨w, h⟩
    obtain ⟨u, d, eq, hd, phase, timer, verdict, tickets, wrappers, queues, car, due⟩ :=
      setDown_at_spur (s := s.leaveLane i c.lane) there dest
    refine ⟨u, d, by rw [eq], car, due, ?_, fun m ne => ?_, hd, fun w at_w => absurd at_w (dest w),
      fun w at_w => absurd at_w (dest w), fun _ => ⟨phase, timer, verdict, tickets, wrappers⟩⟩
    · rw [queues, State.leaveLane_queue, if_pos rfl]
    · rw [queues, State.leaveLane_queue, if_neg (Ne.symm ne)]

/-- What MOVE_DONE leaves of an orphan, for the state it is taken in. -/
theorem endMove_leaves_orphan (carried : s.alloc.car.cargo = .orphan) :
    ∃ u, s.endMove = State.settle .moveDone u
      ∧ u.alloc.car = { s.alloc.car with
          state := .idle, cargo := .none, source := none, dest := none, recipe := none }
      ∧ u.alloc.arbiterDue = true ∧ u.tracker = s.tracker
      ∧ (s.alloc.car.dest = some .spur → ∀ v, u.wrapper v = s.wrapper v)
      ∧ ∀ w, s.alloc.car.dest = some (.wrapper w) → (u.wrapper w).state = .fault
          ∧ (u.wrapper w).pallet = .orphan ∧ (u.wrapper w).progress = none
          ∧ (u.wrapper w).warmTimer = none ∧ (u.wrapper w).afterRelease = .idle
          ∧ ∀ v, v ≠ w → u.wrapper v = s.wrapper v := by
  rw [State.endMove_of_orphan carried]
  by_cases atWrapper : ∃ w, s.alloc.car.dest = some (.wrapper w)
  · obtain ⟨w, dest⟩ := atWrapper
    obtain ⟨self, others, same, -, -, -, only⟩ := State.orphanWrapper_spec w .moveDone s
    obtain ⟨car, due, wrappers, kept, -⟩ := State.carIdle_spec (s.orphanWrapper w .moveDone)
    refine ⟨(s.orphanWrapper w .moveDone).carIdle, by rw [dest], ?_, due, kept.trans (only.tracker.resolve_left (by decide)),
      fun spur => ?_, fun x dest' => ?_⟩
    · rw [car, same]
      rfl
    · rw [dest] at spur
      cases spur
    · obtain rfl : w = x := by rw [dest] at dest'; cases dest'; rfl
      rw [wrappers, self]
      exact ⟨rfl, rfl, rfl, rfl, rfl, fun v ne => (wrappers v).trans (others v ne)⟩
  · obtain ⟨car, due, wrappers, kept, -⟩ := State.carIdle_spec s
    refine ⟨s.carIdle, ?_, car, due, kept, fun _ => wrappers, fun w at_w => absurd ⟨w, at_w⟩ atWrapper⟩
    split
    next w at_w => exact absurd ⟨w, at_w⟩ atWrapper
    next => rfl

end

/-- Settles O32, by what the car carries and where to. -/
theorem moveDone : Obligations.MoveDone := by
  refine fun s dst src hears role => ⟨fun off => ?_, fun i c moving carried hc => ?_, fun moving carried => ?_⟩
  · refine (exec_moveDone hears role).trans (congrArg _ ?_)
    exact State.carEvent_done_of_other (by rw [State.passed_alloc]; exact off)
  · have takes : exec (.moveDone dst src) s = .next (s.passed ⟨dst, src, 0x07, [1]⟩).endMove :=
      (exec_moveDone hears role).trans (congrArg _ (State.carEvent_done (by rw [State.passed_alloc]; exact moving)))
    rw [takes]
    have wrapper := State.passed_wrapper ⟨dst, src, 0x07, [1]⟩ s
    have ctx := State.passed_ctx ⟨dst, src, 0x07, [1]⟩ s
    have queue := State.passed_queue ⟨dst, src, 0x07, [1]⟩ s
    have alloc := State.passed_alloc ⟨dst, src, 0x07, [1]⟩ s
    have labels := State.passed_labels ⟨dst, src, 0x07, [1]⟩ s
    have ctl := State.passed_ctl ⟨dst, src, 0x07, [1]⟩ s
    have same : ∀ is u, State.SameContexts is s u ↔ State.SameContexts is (s.passed ⟨dst, src, 0x07, [1]⟩) u :=
      fun is u => forall₂_congr fun j _ => by rw [ctx]
    generalize s.passed ⟨dst, src, 0x07, [1]⟩ = a at wrapper ctx queue alloc labels ctl same ⊢
    rw [← alloc] at carried
    rw [← ctx] at hc
    obtain ⟨u, d, eq, facts⟩ := endMove_leaves carried hc
    rw [eq]
    simp only [same, ← wrapper, ← queue, ← alloc, ← labels, ← ctl]
    exact ⟨u, d, rfl, facts⟩
  · have takes : exec (.moveDone dst src) s = .next (s.passed ⟨dst, src, 0x07, [1]⟩).endMove :=
      (exec_moveDone hears role).trans (congrArg _ (State.carEvent_done (by rw [State.passed_alloc]; exact moving)))
    obtain ⟨u, eq, facts⟩ := endMove_leaves_orphan (s := s.passed ⟨dst, src, 0x07, [1]⟩)
      (by rw [State.passed_alloc]; exact carried)
    simp only [State.passed_alloc, State.passed_tracker, State.passed_wrapper] at facts
    exact ⟨u, by rw [takes, eq], facts⟩

end Sys2Proof.Proofs
end

