-- ==== Sys2Proof/Proofs/Slice0/InfeedCommands.lean ====
section
/-! The infeed commands of the lanes (R44, R45) and the changes of mode that send them (R174 to R176). -/

namespace Sys2Proof.Machine

open Sys2Proof

section
variable {s t u : State} {l m : Lane} {c : InfeedCmd}

/-! ### The wanted command (R44) -/

theorem State.wanted_go_iff : s.wanted l = .go ↔ (s.queue l).length < 5 ∧ (s.ctl.mode = .run ∨ s.ctl.mode = .degraded
    ∨ (s.ctl.mode = .isolated ∧ (s.ctl.held = some .run ∨ s.ctl.held = some .degraded))) := by
  have acting (x : LineMode) (ne : x ≠ .isolated) : s.actingMode = x ↔
      s.ctl.mode = x ∨ (s.ctl.mode = .isolated ∧ s.ctl.held = some x) := by
    unfold State.actingMode
    split
    next isolated =>
      cases held : s.ctl.held with
      | none => simp [isolated, Ne.symm ne]
      | some y => simp [isolated, Ne.symm ne]
    next other => exact ⟨.inl, fun h => h.resolve_right fun both => other both.1⟩
  have run := acting .run (by decide)
  have degraded := acting .degraded (by decide)
  unfold State.wanted
  split
  next h =>
    rw [run, degraded] at h
    exact ⟨fun _ => ⟨h.1, by tauto⟩, fun _ => rfl⟩
  next h =>
    rw [run, degraded] at h
    exact ⟨nofun, fun h' => absurd ⟨h'.1, by tauto⟩ h⟩

theorem State.infeedDecision_of_same (same : s.tracker.lanes[l].infeed = s.wanted l) : s.infeedDecision l = s :=
  if_neg fun ne => ne same.symm

theorem State.infeedDecision_of_other (other : s.tracker.lanes[l].infeed ≠ s.wanted l) :
    s.infeedDecision l = s.sendInfeed l (s.wanted l) := if_pos (Ne.symm other)

/-! ### One lane's record -/

theorem State.lane_modLane (l m : Lane) (f : LaneRecord → LaneRecord) (s : State) :
    (s.modLane l f).tracker.lanes[m] = if l = m then f s.tracker.lanes[l] else s.tracker.lanes[m] := by
  simp only [State.modLane, State.onTracker, Fin.getElem_fin, Vector.getElem_set, Fin.val_inj]

theorem State.modLane_modLane (l : Lane) (f g : LaneRecord → LaneRecord) (s : State) :
    (s.modLane l f).modLane l g = s.modLane l (g ∘ f) := by
  simp [State.modLane, State.onTracker, Function.comp]

theorem State.heldCount_infeed : s.heldCount (.infeed l) = if s.tracker.lanes[l].order.isSome then 1 else 0 := rfl

/-! ### How an infeed command leaves (R45, R156) -/

theorem State.take_infeed_of {d : InfeedCmd} (order : s.tracker.lanes[l].order = some d) : s.take (.infeed l) =
    match s.toRole (.infeed l) kInfeed (u8 d.code) with
    | some t => (some t, s.modLane l fun r => { r with order := none, lastPlaced := some d })
    | none => (none, s.modLane l fun r => { r with order := none }) := by
  unfold State.take
  simp only [order] <;> rfl

/-- A newer command that equals the last placed one is dropped with the one that waits. -/
theorem State.sendInfeed_of_last (waits : s.tracker.lanes[l].order.isSome = true)
    (last : s.tracker.lanes[l].lastPlaced = some c) : s.sendInfeed l c =
      (s.modLane l fun r => { r with infeed := c, order := none }).onRing fun r => { r with
        waiting := r.waiting.erase (.infeed l) } := by
  have empty : (s.modLane l fun r => { r with infeed := c, order := none }).tracker.lanes[l].order = none := by
    rw [State.lane_modLane, if_pos rfl]
  have gone : (s.modLane l fun r => { r with infeed := c, order := none }).hasMore (.infeed l) = false := by
    unfold State.hasMore
    rw [State.heldCount_infeed, empty]
    rfl
  unfold State.sendInfeed
  dsimp only
  rw [waits, last, beq_self_eq_true, Bool.and_true, if_pos rfl, State.prune, gone, if_neg Bool.false_ne_true]

theorem State.sendInfeed_out (new : s.tracker.lanes[l].order = none ∨ s.tracker.lanes[l].lastPlaced ≠ some c) :
    State.OrderOut (.infeed l) (.infeed l) 0x20 [if c = .go then 1 else 2]
      (s.modLane l fun r => { r with infeed := c, order := some c })
      (s.modLane l fun r => { r with infeed := c, order := none, lastPlaced := some c })
      (s.modLane l fun r => { r with infeed := c, order := none }) (s.sendInfeed l c) := by
  have sent : s.sendInfeed l c = (s.modLane l fun r => { r with infeed := c, order := some c }).offer (.infeed l) := by
    refine if_neg fun both => ?_
    obtain ⟨held, same⟩ := (Bool.and_eq_true _ _).mp both
    rcases new with none | ne
    · rw [none] at held
      cases held
    · exact ne (beq_iff_eq.mp same)
  have order : (s.modLane l fun r => { r with infeed := c, order := some c }).tracker.lanes[l].order = some c := by
    rw [State.lane_modLane, if_pos rfl]
  have emptied (f : LaneRecord → LaneRecord) (none : ∀ r, (f r).order = none) :
      (s.modLane l f).heldCount (.infeed l) = 0 := by
    rw [State.heldCount_infeed, State.lane_modLane, if_pos rfl, none]
    rfl
  have payload : u8 c.code = [if c = .go then 1 else 2] := by cases c <;> rfl
  rw [sent]
  refine State.orderOut_offer (by rw [State.heldCount_infeed, order]; rfl) rfl (fun a holder => ?_) (fun holder => ?_)
    (fun _ => emptied (fun r => { r with infeed := c, order := none, lastPlaced := some c }) fun _ => rfl)
    (emptied (fun r => { r with infeed := c, order := none }) fun _ => rfl)
  · rw [State.take_infeed_of order, State.modLane_modLane, payload]
    simp only [State.toRole, holder, Option.map_some]
    rfl
  · rw [State.take_infeed_of order, State.modLane_modLane, State.modLane_modLane]
    simp only [State.toRole, holder, Option.map_none]
    rfl

/-! ### The infeed state (R44) -/

theorem State.take_infeed_infeed (l m : Lane) (s : State) :
    (s.take (.infeed l)).2.tracker.lanes[m].infeed = s.tracker.lanes[m].infeed := by
  cases order : s.tracker.lanes[l].order with
  | none => simp only [State.take, order]
  | some d =>
    have kept (f : LaneRecord → LaneRecord) (keeps : ∀ r, (f r).infeed = r.infeed) :
        (s.modLane l f).tracker.lanes[m].infeed = s.tracker.lanes[m].infeed := by
      rw [State.lane_modLane]
      split
      next e => rw [keeps, e]
      next => rfl
    rw [State.take_infeed_of order]
    split
    · exact kept _ fun _ => rfl
    · exact kept _ fun _ => rfl

/-- An infeed command sets the infeed state of its lane at once. -/
theorem State.sendInfeed_infeed (l m : Lane) (c : InfeedCmd) (s : State) :
    (s.sendInfeed l c).tracker.lanes[m].infeed = if l = m then c else s.tracker.lanes[m].infeed := by
  have set (f : LaneRecord → LaneRecord) (is : ∀ r, (f r).infeed = c) :
      (s.modLane l f).tracker.lanes[m].infeed = if l = m then c else s.tracker.lanes[m].infeed := by
    rw [State.lane_modLane]
    split
    · exact is _
    · rfl
  unfold State.sendInfeed
  dsimp only
  split
  · have pruned := (State.prune_only (.infeed l) (s.modLane l fun r => { r with infeed := c, order := none })).tracker
    exact (congrArg (fun x : Tracker => x.lanes[m].infeed) (pruned.resolve_left (by decide))).trans (set _ fun _ => rfl)
  · exact (State.offer_keeps (fun u => u.tracker.lanes[m].infeed) (.infeed l) (State.take_infeed_infeed l m)
      (fun _ _ => rfl) _).trans (set _ fun _ => rfl)

theorem State.sendInfeed_slots (l : Lane) (c : InfeedCmd) (s : State) : (s.sendInfeed l c).tracker.slots = s.tracker.slots := by
  unfold State.sendInfeed
  dsimp only
  split
  · exact (congrArg Tracker.slots ((State.prune_only _ _).tracker.resolve_left (by decide))).trans rfl
  · exact State.offer_infeed_slots _ _

theorem State.wanted_sendInfeed (l m : Lane) (c : InfeedCmd) (s : State) : (s.sendInfeed l c).wanted m = s.wanted m := by
  have ctl : (s.sendInfeed l c).ctl = s.ctl := (State.sendInfeed_only l c s).ctl.resolve_left (by decide)
  have count : (s.sendInfeed l c).laneCount m = s.laneCount m :=
    congrArg List.length ((State.sendInfeed_tracks (is := []) l c s).queues m)
  unfold State.wanted State.actingMode
  rw [ctl, count]

/-- Every lane of a list takes its wanted command, the others keep theirs. -/
theorem State.infeeds_infeed (ls : List Lane) (m : Lane) (s : State) :
    (ls.foldl (fun t l => t.sendInfeed l (t.wanted l)) s).tracker.lanes[m].infeed =
      if m ∈ ls then s.wanted m else s.tracker.lanes[m].infeed := by
  induction ls generalizing s with
  | nil => rfl
  | cons l ls ih =>
    rw [List.foldl_cons, ih, State.wanted_sendInfeed, State.sendInfeed_infeed]
    by_cases e : l = m
    · simp [e]
    · simp [e, Ne.symm e]

theorem State.infeedAll_infeed (m : Lane) (s : State) : s.infeedAll.tracker.lanes[m].infeed = s.wanted m := by
  have all : m ∈ allLanes := List.mem_finRange m
  unfold State.infeedAll
  rw [State.infeeds_infeed, if_pos all]

theorem State.infeedAll_slots (s : State) : s.infeedAll.tracker.slots = s.tracker.slots := by
  unfold State.infeedAll
  generalize allLanes = ls
  induction ls generalizing s with
  | nil => rfl
  | cons l ls ih => exact (ih _).trans (State.sendInfeed_slots _ _ _)

/-- Where every lane's wanted command is one command, that is what is sent. -/
theorem State.infeedAll_of_wanted (want : ∀ l, s.wanted l = c) :
    s.infeedAll = (List.finRange 8).foldl (fun t l => t.sendInfeed l c) s := by
  have all (ls : List Lane) : ∀ s : State, (∀ l, s.wanted l = c) →
      ls.foldl (fun t l => t.sendInfeed l (t.wanted l)) s = ls.foldl (fun t l => t.sendInfeed l c) s := by
    induction ls with
    | nil => exact fun _ _ => rfl
    | cons l ls ih =>
      intro s want
      rw [List.foldl_cons, List.foldl_cons, want, ih _ fun m => (State.wanted_sendInfeed l m c s).trans (want m)]
  exact all allLanes s want

/-! ### A change of mode (R174 to R176) -/

/-- The mode and REJECT_ALL set, every lane sent its wanted command, and the report. -/
def State.enterMode (x : LineMode) (reject : Bool) (cause : ModeCause) (s : State) : State :=
  ((s.setMode x reject).infeedAll).modeReport cause s.ctl.mode

theorem State.enterRun_eq (s : State) : s.enterRun = s.enterMode s.runMode false .go := rfl

theorem State.enterDrain_eq (s : State) : s.enterDrain = s.enterMode .drain s.ctl.rejectAll .drain := rfl

theorem State.enterStopped_eq (cause : ModeCause) (s : State) : s.enterStopped cause = s.enterMode .stopped true cause := rfl

theorem State.enterMode_spec (x : LineMode) (reject : Bool) (cause : ModeCause) (s : State) (ne : x ≠ .isolated)
    (entered : s.enterMode x reject cause = u) : u.ctl = { s.ctl with mode := x, rejectAll := reject }
    ∧ (∀ l : Lane, u.tracker.lanes[l].infeed = (s.setMode x reject).wanted l)
    ∧ (∀ l, u.queue l = s.queue l) ∧ State.SameContexts [] s u ∧ State.Only [.ctl, .tracker, .ring, .mgmt] s u
    ∧ u.labels = s.labels
    ∧ u = State.report (.mode ⟨s.ctl.mode, x, none, cause, s.holds.currency, s.holds.generation, s.holds.day, reject⟩)
        (s.setMode x reject).infeedAll := by
  have sent := State.infeedAll_only (s.setMode x reject)
  have tracks := State.infeedAll_tracks (is := []) (s.setMode x reject)
  have ctl : (s.setMode x reject).infeedAll.ctl = { s.ctl with mode := x, rejectAll := reject } :=
    sent.ctl.resolve_left (by decide)
  have holds : (s.setMode x reject).infeedAll.holds = s.holds := sent.holds.resolve_left (by decide)
  have eq : u = State.report (.mode ⟨s.ctl.mode, x, none, cause, s.holds.currency, s.holds.generation, s.holds.day, reject⟩)
      (s.setMode x reject).infeedAll := by
    rw [← entered]
    unfold State.enterMode State.modeReport
    rw [ctl, holds, if_neg ne]
  have reported := State.report_only
    (.mode ⟨s.ctl.mode, x, none, cause, s.holds.currency, s.holds.generation, s.holds.day, reject⟩) (s.setMode x reject).infeedAll
  rw [← eq] at reported
  have tracker : u.tracker = (s.setMode x reject).infeedAll.tracker := reported.tracker.resolve_left (by decide)
  have footprint : State.Only [.ctl, .tracker, .ring, .mgmt] s u :=
    ((State.onCtl_only _ _).first.next sent).next reported
  refine ⟨(reported.ctl.resolve_left (by decide)).trans ctl, fun l => ?_, fun l => ?_, fun i _ => ?_, footprint,
    footprint.labels.resolve_left (by decide), eq⟩
  · rw [tracker]
    exact State.infeedAll_infeed l _
  · exact (State.queue_of_tracker tracker l).trans (tracks.queues l)
  · exact (State.ctx_of_tracker tracker i).trans
      (congrArg (fun x : Vector (Option Context) 64 => x[i]) (State.infeedAll_slots (s.setMode x reject)))

theorem State.wanted_stop_of_mode (stop : s.ctl.mode = .stopped ∨ s.ctl.mode = .drain) (l : Lane) : s.wanted l = .stop := by
  cases want : s.wanted l with
  | stop => rfl
  | go =>
    obtain ⟨-, run⟩ := State.wanted_go_iff.mp want
    rcases stop with mode | mode <;> simp [mode] at run

end

end Sys2Proof.Machine
end

