-- ==== Sys2Proof/Proofs/Slice0/ClosureFollows.lean ====
section
/-! What follows a closure: held outputs released (R109), jobs started (R136, R146), a recovery move (R104), a line that
has drained (R175) and a move of the arbiter (R103) leave the rest of the part as it is. -/

namespace Sys2Proof.Machine

open Sys2Proof

/-- What no block changes of a context when another one closes. -/
def Context.lasting (c : Context) : Option Verdict × List Reason × Nat × Option Text × Option Nat × Tally :=
  (c.verdict, c.reasons, c.adm, c.licence, c.planSlot, c.tally)

/-- What is left as it is by all that follows a closure. -/
structure State.Follows (s t : State) : Prop where
  only    : State.Only [.tracker, .alloc, .labels, .ring, .mgmt, .ctl] s t
  lasting : s.SameOf Context.lasting t
  queues  : ∀ l, t.queue l = s.queue l
  tickets : t.labels.tickets = s.labels.tickets
  log     : t.labels.log = s.labels.log ∧ t.labels.nextRelease = s.labels.nextRelease
  lines   : ∀ k j, j ∈ t.line k → j ∈ s.line k ∨ ∃ v id, (s.wrapper v).pallet = .context id ∧ id.slot = j
  cargo   : s.alloc.car.state ≠ .idle → t.alloc.car.cargo = s.alloc.car.cargo ∧ t.alloc.car.state ≠ .idle
  pallets : ∀ v, (t.wrapper v).pallet = (s.wrapper v).pallet ∨ (t.wrapper v).pallet = .none
  orphans : ∀ v, (s.wrapper v).pallet = .orphan → (s.wrapper v).state = .fault →
    (t.wrapper v).pallet = .orphan ∧ (t.wrapper v).state = .fault
  stops   : s.ctl.mode = .stopped → t.ctl = s.ctl
    ∧ ((∀ l : Lane, s.tracker.lanes[l].infeed = .stop) → ∀ l : Lane, t.tracker.lanes[l].infeed = .stop)

section
variable {s t u : State} {i : Slot} {c : Context} {w : WrapperNo} {k : LineNo} {cause : Config.UnitCause} {fromFault : Bool}

theorem State.Follows.refl (s : State) : s.Follows s where
  only := .refl _ s
  lasting := .refl s
  queues _ := rfl
  tickets := rfl
  log := ⟨rfl, rfl⟩
  lines _ _ := .inl
  cargo moving := ⟨rfl, moving⟩
  pallets _ := .inl rfl
  orphans _ pallet state := ⟨pallet, state⟩
  stops _ := ⟨rfl, id⟩

theorem State.Follows.trans (h : s.Follows t) (k : t.Follows u) : s.Follows u where
  only := h.only.trans k.only
  lasting := h.lasting.trans k.lasting
  queues l := (k.queues l).trans (h.queues l)
  tickets := k.tickets.trans h.tickets
  log := ⟨k.log.1.trans h.log.1, k.log.2.trans h.log.2⟩
  lines m j mem := by
    rcases k.lines m j mem with mem | ⟨v, id, pallet, slot⟩
    · exact h.lines m j mem
    · rcases h.pallets v with same | none
      · exact .inr ⟨v, id, same ▸ pallet, slot⟩
      · rw [none] at pallet
        cases pallet
  cargo moving := by
    obtain ⟨same, still⟩ := h.cargo moving
    obtain ⟨same', still'⟩ := k.cargo still
    exact ⟨same'.trans same, still'⟩
  pallets v := (k.pallets v).elim (fun same => (h.pallets v).imp same.trans same.trans) .inr
  orphans v pallet state := by
    obtain ⟨pallet', state'⟩ := h.orphans v pallet state
    exact k.orphans v pallet' state'
  stops mode := by
    obtain ⟨ctl, stop⟩ := h.stops mode
    obtain ⟨ctl', stop'⟩ := k.stops (by rw [ctl]; exact mode)
    exact ⟨ctl'.trans ctl, stop' ∘ stop⟩

theorem State.Follows.ite {p : Prop} [Decidable p] (h : s.Follows t) (k : s.Follows u) : s.Follows (if p then t else u) := by
  split
  · exact h
  · exact k

/-- A change of contexts, of the car and of what is sent. -/
theorem State.Follows.of_car (only : State.Only [.tracker, .alloc, .ring, .mgmt] s t) (lasting : s.SameOf Context.lasting t)
    (lanes : s.SameLanes t) (wrappers : ∀ v, t.wrapper v = s.wrapper v)
    (cargo : s.alloc.car.state ≠ .idle → t.alloc.car.cargo = s.alloc.car.cargo ∧ t.alloc.car.state ≠ .idle) : s.Follows t := by
  have labels : t.labels = s.labels := only.labels.resolve_left (by decide)
  have ctl : t.ctl = s.ctl := only.ctl.resolve_left (by decide)
  have lane (l : Lane) : t.tracker.lanes[l] = s.tracker.lanes[l] := congrArg (fun x : Vector LaneRecord 8 => x[l]) lanes
  exact {
    only := only.first
    lasting := lasting
    queues := fun l => congrArg LaneRecord.queue (lane l)
    tickets := by rw [labels]
    log := by rw [labels]; exact ⟨rfl, rfl⟩
    lines := fun k j mem => .inl (by rwa [State.line, labels] at mem)
    cargo := cargo
    pallets := fun v => .inl (by rw [wrappers])
    orphans := fun v pallet state => by rw [wrappers]; exact ⟨pallet, state⟩
    stops := fun _ => ⟨ctl, fun stop l => by rw [lane]; exact stop l⟩ }

/-- A change of contexts and of what is sent. -/
theorem State.Follows.of_jobs (only : State.Only [.tracker, .ring] s t) (lasting : s.SameOf Context.lasting t)
    (lanes : s.SameLanes t) : s.Follows t := by
  have alloc : t.alloc = s.alloc := only.alloc.resolve_left (by decide)
  exact .of_car only.first lasting lanes (fun v => by rw [State.wrapper, alloc]; rfl)
    fun moving => by rw [alloc]; exact ⟨rfl, moving⟩

theorem Context.lasting_jobless : Context.Jobless Context.lasting := fun _ _ _ => rfl

theorem State.startJobs_follows (k : LineNo) (s : State) : s.Follows (s.startJobs k) :=
  .of_jobs (State.startJobs_only _ _) (State.sameOf_startJobs Context.lasting_jobless _ _) (State.sameLanes_startJobs _ _)

theorem State.sameLanes_startTicket (s : State) : s.SameLanes s.startTicket := by
  unfold State.startTicket
  split
  · exact .ite (State.sameLanes_startJob _ _ s) rfl
  · rfl

theorem State.startTicket_follows (s : State) : s.Follows s.startTicket :=
  .of_jobs (State.startTicket_only _) (State.sameOf_startTicket Context.lasting_jobless _) (State.sameLanes_startTicket _)

/-! ### The car (R101, R103) -/

theorem State.sendCarMove_wrapper (m : CarMove) (s : State) (v : WrapperNo) : (s.sendCarMove m).wrapper v = s.wrapper v := by
  obtain ⟨o, alloc⟩ := State.sendCarMove_car m s
  rw [State.wrapper, alloc]
  rfl

theorem State.setCar_wrapper (cause : Config.UnitCause) (f : Car → Car) (s : State) (v : WrapperNo) :
    (s.setCar cause f).wrapper v = s.wrapper v := by
  rw [State.wrapper, State.setCar_alloc]
  rfl

/-- The car takes a move up and the order is sent. -/
theorem State.carSent_follows (f : Car → Car) (m : CarMove)
    (cargo : s.alloc.car.state ≠ .idle → (f s.alloc.car).cargo = s.alloc.car.cargo ∧ (f s.alloc.car).state ≠ .idle) :
    s.Follows ((s.setCar cause f).sendCarMove m) := by
  have set := State.setCar_only cause f s
  have sent := State.sendCarMove_only m (s.setCar cause f)
  have tracker : ((s.setCar cause f).sendCarMove m).tracker = s.tracker :=
    (sent.tracker.resolve_left (by decide)).trans (State.setCar_tracker _ _ _)
  obtain ⟨o, alloc⟩ := State.sendCarMove_car m (s.setCar cause f)
  refine .of_car (set.first.next sent) (.of_tracker tracker) (congrArg Tracker.lanes tracker)
    (fun v => (State.sendCarMove_wrapper _ _ v).trans (State.setCar_wrapper _ _ _ v)) fun moving => ?_
  rw [alloc, State.setCar_alloc]
  exact cargo moving

theorem State.modCtx_follows {g : Context → Context} (same : ∀ c, (g c).lasting = c.lasting) : s.Follows (s.modCtx i g) :=
  .of_jobs (State.modCtx_only _ _ _).first (State.sameOf_modCtx same) rfl

theorem State.recover_follows (cause : Config.UnitCause) (s : State) : s.Follows (s.recover cause) := by
  have sent (m : CarMove) : s.Follows ((s.setCar cause Car.recovering).sendCarMove m) :=
    State.carSent_follows _ _ fun _ => ⟨rfl, nofun⟩
  refine .ite ?_ (.refl s)
  dsimp only
  split
  · exact (sent _).trans (State.modCtx_follows fun _ => rfl)
  · exact sent _

theorem State.callArbiter_follows (s : State) : s.Follows s.callArbiter :=
  .of_car (State.callArbiter_only s).first (.refl s) rfl (fun _ => rfl) fun moving => ⟨rfl, moving⟩

theorem State.spurFell_follows (cause : Config.UnitCause) (s : State) : s.Follows (s.spurFell cause) :=
  (State.callArbiter_follows s).trans (State.recover_follows _ _)

theorem State.leftTickets_follows (cause : Config.UnitCause) (s : State) : s.Follows (s.leftTickets cause) :=
  (State.startTicket_follows s).trans (State.spurFell_follows _ _)

theorem State.startMove_follows (cause : Config.UnitCause) (x : Candidate) (idle : s.alloc.car.state = .idle) :
    s.Follows (s.startMove cause x) := by
  have set := State.setCar_only cause x.load s
  have entered := State.enter_only x.slot .moving (some (s.setCar cause x.load).params.carMoveLimit) (s.setCar cause x.load)
  have tracker : (s.setCar cause x.load).tracker = s.tracker := State.setCar_tracker _ _ _
  obtain ⟨m, eq⟩ : ∃ m, s.startMove cause x = ((s.setCar cause x.load).enter x.slot .moving
    (some (s.setCar cause x.load).params.carMoveLimit)).sendCarMove m := ⟨_, rfl⟩
  rw [eq]
  have sent := State.sendCarMove_only m ((s.setCar cause x.load).enter x.slot .moving
    (some (s.setCar cause x.load).params.carMoveLimit))
  have kept := sent.tracker.resolve_left (by decide)
  refine .of_car ((set.first.next entered).next sent) ?_ ?_ (fun v => ?_) fun moving => absurd idle moving
  · have moved : (s.setCar cause x.load).SameOf Context.lasting ((s.setCar cause x.load).enter x.slot .moving
        (some (s.setCar cause x.load).params.carMoveLimit)) := State.sameOf_modCtx fun _ => rfl
    exact ((State.SameOf.of_tracker tracker).trans moved).trans (.of_tracker kept)
  · have moved : (s.setCar cause x.load).SameLanes ((s.setCar cause x.load).enter x.slot .moving
        (some (s.setCar cause x.load).params.carMoveLimit)) := rfl
    exact (State.SameLanes.trans (t := s.setCar cause x.load) (congrArg Tracker.lanes tracker) moved).trans
      (congrArg Tracker.lanes kept)
  · exact (State.sendCarMove_wrapper _ _ v).trans (State.setCar_wrapper cause x.load s v)

theorem State.settle_follows (cause : Config.UnitCause) (s : State) : s.Follows (s.settle cause) := by
  refine .ite ?_ (.refl s)
  have settled : s.Follows s.settled :=
    .of_car (State.onAlloc_only _ _).first (.refl s) rfl (fun _ => rfl) fun moving => ⟨rfl, moving⟩
  refine settled.trans ?_
  show s.settled.Follows (s.settled.arbitrate cause)
  unfold State.arbitrate
  split
  next idle =>
    split
    · exact State.startMove_follows _ _ idle
    · exact .refl _
  next => exact .refl _

/-! ### A line that has drained (R175) -/

theorem State.quiet_follows (only : State.Only [.ctl, .ring, .mgmt] s t) (running : s.ctl.mode ≠ .stopped) : s.Follows t := by
  have labels : t.labels = s.labels := only.labels.resolve_left (by decide)
  have alloc : t.alloc = s.alloc := only.alloc.resolve_left (by decide)
  have tracker : t.tracker = s.tracker := only.tracker.resolve_left (by decide)
  exact {
    only := only.first
    lasting := .of_tracker tracker
    queues := State.queue_of_tracker tracker
    tickets := by rw [labels]
    log := by rw [labels]; exact ⟨rfl, rfl⟩
    lines := fun k j mem => .inl (by rwa [State.line, labels] at mem)
    cargo := fun moving => by rw [alloc]; exact ⟨rfl, moving⟩
    pallets := fun v => .inl (by rw [State.wrapper, alloc]; rfl)
    orphans := fun v pallet state => by rw [State.wrapper, alloc]; exact ⟨pallet, state⟩
    stops := fun mode => absurd mode running }

theorem State.enterMode_follows (x : LineMode) (reject : Bool) (cause : ModeCause) (ne : x ≠ .isolated)
    (running : s.ctl.mode ≠ .stopped) : s.Follows (s.enterMode x reject cause) := by
  obtain ⟨-, -, queues, same, only, labels, -⟩ := State.enterMode_spec x reject cause s ne rfl
  have alloc : (s.enterMode x reject cause).alloc = s.alloc := only.alloc.resolve_left (by decide)
  exact {
    only := only.first
    lasting := fun i => congrArg _ (same i (by simp))
    queues := queues
    tickets := by rw [labels]
    log := by rw [labels]; exact ⟨rfl, rfl⟩
    lines := fun k j mem => .inl (by rwa [State.line, labels] at mem)
    cargo := fun moving => by rw [alloc]; exact ⟨rfl, moving⟩
    pallets := fun v => .inl (by rw [State.wrapper, alloc]; rfl)
    orphans := fun v pallet state => by rw [State.wrapper, alloc]; exact ⟨pallet, state⟩
    stops := fun mode => absurd mode running }

theorem State.drained_follows (s : State) : s.Follows s.drained := by
  unfold State.drained
  split
  next =>
    have mode : s.ctl.mode = .drain := ‹_›
    exact State.enterMode_follows _ _ _ (by decide) (by rw [mode]; decide)
  next =>
    have mode : s.ctl.mode = .isolated := ‹_›
    exact State.quiet_follows ((State.onCtl_only _ _).first.next (State.report_only _ _)) (by rw [mode]; decide)
  next => exact .refl s

/-! ### Held outputs released (R109) -/

/-- A change of one wrapper that keeps its pallet and state, and of what is sent. -/
theorem State.Follows.of_order {x : Wrapper} (leads : State.WrapperTo w x s t)
    (only : State.Only [.alloc, .ring, .mgmt] s t) (pallet : x.pallet = (s.wrapper w).pallet)
    (state : x.state = (s.wrapper w).state) : s.Follows t := by
  have labels : t.labels = s.labels := only.labels.resolve_left (by decide)
  have ctl : t.ctl = s.ctl := only.ctl.resolve_left (by decide)
  have tracker : t.tracker = s.tracker := only.tracker.resolve_left (by decide)
  have same (v : WrapperNo) : (t.wrapper v).pallet = (s.wrapper v).pallet ∧ (t.wrapper v).state = (s.wrapper v).state := by
    by_cases e : v = w
    · rw [e, leads.self]
      exact ⟨pallet, state⟩
    · rw [leads.others v e]
      exact ⟨rfl, rfl⟩
  exact {
    only := only.first
    lasting := .of_tracker tracker
    queues := State.queue_of_tracker tracker
    tickets := by rw [labels]
    log := by rw [labels]; exact ⟨rfl, rfl⟩
    lines := fun k j mem => .inl (by rwa [State.line, labels] at mem)
    cargo := fun moving => by rw [leads.car]; exact ⟨rfl, moving⟩
    pallets := fun v => .inl (same v).1
    orphans := fun v pallet state => ⟨(same v).1.trans pallet, (same v).2.trans state⟩
    stops := fun _ => ⟨ctl, fun stop l => by rw [tracker]; exact stop l⟩ }

theorem State.sendOutput_follows (w : WrapperNo) (x : OutputCmd) (s : State) : s.Follows (s.sendOutput w x) := by
  obtain ⟨q, l, leads⟩ := State.wrapperTo_sendOutput (s := s) (w := w) x
  exact .of_order leads (State.sendOutput_only w x s).first rfl rfl

theorem State.modHeld_follows (k : LineNo) (f : List WrapperNo → List WrapperNo) (s : State) : s.Follows (s.modHeld k f) :=
  .of_car (State.onAlloc_only _ _).first (.refl s) rfl (fun _ => rfl) fun moving => ⟨rfl, moving⟩

theorem State.line_modLine (k m : LineNo) (f : List Slot → List Slot) (s : State) :
    (s.modLine k f).line m = if k = m then f (s.line k) else s.line m := by
  simp only [State.line, State.modLine, State.onLabels, Fin.getElem_fin, Vector.getElem_set, Fin.val_inj]

/-- Whatever a wrapper is thought to hold, a pallet that joins a label line leaves the rest. -/
theorem State.joinLine_follows (w : WrapperNo) (cause : Config.UnitCause) (fromFault : Bool) (s : State) :
    s.Follows (s.joinLine w cause fromFault) := by
  unfold State.joinLine
  split
  next id pallet =>
    have joined : (s.modLine (lineOfWrapper w) fun l => l ++ [id.slot]).Follows
        (((s.modLine (lineOfWrapper w) fun l => l ++ [id.slot]).enter id.slot .queuedLabel none).startJobs (lineOfWrapper w)) := by
      have entered : (s.modLine (lineOfWrapper w) fun l => l ++ [id.slot]).Follows
          ((s.modLine (lineOfWrapper w) fun l => l ++ [id.slot]).enter id.slot .queuedLabel none) :=
        State.modCtx_follows fun _ => rfl
      exact entered.trans (State.startJobs_follows _ _)
    have lanes : s.SameLanes
        (((s.modLine (lineOfWrapper w) fun l => l ++ [id.slot]).enter id.slot .queuedLabel none).startJobs (lineOfWrapper w)) :=
      State.SameLanes.trans (t := (s.modLine (lineOfWrapper w) fun l => l ++ [id.slot]).enter id.slot .queuedLabel none) rfl
        (State.sameLanes_startJobs _ _)
    have labelled : State.Only [.tracker, .labels, .ring] s
        (((s.modLine (lineOfWrapper w) fun l => l ++ [id.slot]).enter id.slot .queuedLabel none).startJobs (lineOfWrapper w)) :=
      ((State.onLabels_only _ _).first.next (State.enter_only _ _ _ _)).next (State.startJobs_only _ _)
    dsimp only
    generalize State.startJobs (lineOfWrapper w) _ = v at joined labelled lanes
    obtain ⟨q, l, p, x, leads, only, -⟩ := State.wrapperTo_giveUp (s := v) (w := w) (cause := cause) (fromFault := fromFault) rfl
    have same := labelled.wrapperTo (w := w)
    have labels : (v.giveUp w cause fromFault).labels = v.labels := only.labels.resolve_left (by decide)
    have tracker : (v.giveUp w cause fromFault).tracker = v.tracker := only.tracker.resolve_left (by decide)
    have ctl : (v.giveUp w cause fromFault).ctl = s.ctl :=
      (only.ctl.resolve_left (by decide)).trans (labelled.ctl.resolve_left (by decide))
    have others (x : WrapperNo) (ne : x ≠ w) : (v.giveUp w cause fromFault).wrapper x = s.wrapper x :=
      (leads.others x ne).trans (same.others x ne)
    have stop : (∀ l : Lane, s.tracker.lanes[l].infeed = .stop) →
        ∀ l : Lane, (v.giveUp w cause fromFault).tracker.lanes[l].infeed = .stop := by
      intro stop l
      rw [tracker]
      exact (congrArg (fun x : Vector LaneRecord 8 => x[l].infeed) lanes).trans (stop l)
    exact {
      only := labelled.first.next only
      lasting := joined.lasting.trans (.of_tracker tracker)
      queues := fun l => (State.queue_of_tracker tracker l).trans (joined.queues l)
      tickets := by rw [labels, joined.tickets]; rfl
      log := by rw [labels, joined.log.1, joined.log.2]; exact ⟨rfl, rfl⟩
      lines := fun m j mem => by
        rw [State.line, labels] at mem
        rcases joined.lines m j mem with kept | held
        · rw [State.line_modLine] at kept
          split at kept
          next e =>
            rcases List.mem_append.mp kept with before | added
            · exact .inl (e ▸ before)
            · exact .inr ⟨w, id, pallet, (List.mem_singleton.mp added).symm⟩
          next => exact .inl kept
        · exact .inr held
      cargo := fun moving => by rw [leads.car, same.car]; exact ⟨rfl, moving⟩
      pallets := fun v' => by
        by_cases e : v' = w
        · rw [e, leads.self]
          exact .inr rfl
        · exact .inl (by rw [others v' e])
      orphans := fun v' held state => by
        by_cases e : v' = w
        · rw [e, pallet] at held
          cases held
        · rw [others v' e]
          exact ⟨held, state⟩
      stops := fun _ => ⟨ctl, stop⟩ }
  next => exact .refl s

theorem State.releaseHeld_follows (n : Nat) (k : LineNo) (cause : Config.UnitCause) (s : State) :
    s.Follows (State.releaseHeld n k cause s) := by
  induction n generalizing s with
  | zero => exact .refl s
  | succ n ih =>
    unfold State.releaseHeld
    split
    · exact .refl s
    · exact .ite ((((State.modHeld_follows _ _ s).trans (State.sendOutput_follows _ _ _)).trans
        (State.joinLine_follows _ _ _ _)).trans (ih _)) (.refl s)

theorem State.leftLine_follows (k : LineNo) (cause : Config.UnitCause) (s : State) : s.Follows (s.leftLine k cause) :=
  (State.releaseHeld_follows _ _ _ _).trans (State.startJobs_follows _ _)

/-! ### All that follows (R51) -/

/-- What follows when a context has left its label line or the ticket order. -/
def State.departure (line : Option LineNo) (ticket : Bool) (cause : Config.UnitCause) (s : State) : State :=
  match line with
  | some k => s.leftLine k cause
  | none => if ticket then s.leftTickets cause else s

/-- What follows once a closed context has left every block. -/
def State.aftermath (line : Option LineNo) (ticket : Bool) (cause : Config.UnitCause) (s : State) : State :=
  let t := s.departure line ticket cause
  (if t.noneOpen then t.drained else t).settle cause

theorem State.departure_follows (line : Option LineNo) (ticket : Bool) (cause : Config.UnitCause) (s : State) :
    s.Follows (s.departure line ticket cause) := by
  unfold State.departure
  split
  · exact State.leftLine_follows _ _ _
  · exact .ite (State.leftTickets_follows _ _) (.refl s)

theorem State.aftermath_follows (line : Option LineNo) (ticket : Bool) (cause : Config.UnitCause) (s : State) :
    s.Follows (s.aftermath line ticket cause) :=
  ((State.departure_follows line ticket cause s).trans (.ite (State.drained_follows _) (.refl _))).trans
    (State.settle_follows _ _)

end

end Sys2Proof.Machine
end

