-- ==== Sys2Proof/Proofs/Slice0/Closures.lean ====
section
/-! A closure (R51): how the closed context leaves every block, and what it leaves of the others. -/

namespace Sys2Proof.Machine

open Sys2Proof

section
variable {s t u : State} {i j : Slot} {c d : Context} {w : WrapperNo} {k : LineNo} {cause : Config.UnitCause} {o : Closure}
  {id : CtxId}

/-! ### The closed context leaves its lane, its plan, its compositions and its queues -/

/-- The steps of a closure up to the freeing of the slot. -/
def State.departed (o : Closure) (i : Slot) (c : Context) (s : State) : State :=
  let s := s.withdraw (s.applicatorOf i) true i
  let s := (((s.closeLane i c).closePlan c o).report (closedReport i c o)).closeComposer ⟨i, c.adm⟩
  let s := s.closeQueues i
  (s.closeHolder ⟨i, c.adm⟩ (((s.ctx i).map (·.orders)).getD [])).putCtx i none

theorem State.closeContext_eq (hc : s.ctx i = some c) : s.closeContext o cause i =
    ((s.departed o i c).orphan ⟨i, c.adm⟩ (orphanCause o)).aftermath (s.lineOf i) (s.labels.tickets.contains i) cause := by
  unfold State.closeContext
  rw [hc]
  rfl

theorem State.closeContext_of_free (free : s.ctx i = none) : s.closeContext o cause i = s := by
  unfold State.closeContext
  rw [free]

theorem State.withdraw_same (dst : RoleInst) (keep : Bool) (ne : j ≠ i) : (s.withdraw dst keep i).ctx j = s.ctx j := by
  have taken (t : State) : (t.take (.context i)).2.ctx j = t.ctx j := by
    simp only [State.take]
    split
    · exact State.ctx_modCtx_of_ne (Ne.symm ne) _ _
    · rfl
  unfold State.withdraw
  split
  · have pruned := (State.prune_only (.context i) ((s.modCtx i (Context.withdrawn dst keep)).offer (.context i))).tracker
    exact ((State.ctx_of_tracker (pruned.resolve_left (by decide)) j).trans
      (State.offer_keeps (fun t => t.ctx j) (.context i) taken (fun _ _ => rfl) _)).trans
        (State.ctx_modCtx_of_ne (Ne.symm ne) _ _)
  · rfl

theorem State.leaveLane_infeed {l : Lane} (stop : ∀ m : Lane, s.tracker.lanes[m].infeed = .stop) (m : Lane) :
    ((s.stopTimer i).leaveLane i l).tracker.lanes[m].infeed = .stop := by
  have same := State.lane_modLane l m (fun r => { r with queue := r.queue.erase i }) (s.stopTimer i)
  refine (congrArg LaneRecord.infeed same).trans ?_
  split
  · exact stop l
  · exact stop m

/-- Leaving the lane changes no other context and no other queue. -/
theorem State.closeLane_spec (i : Slot) (c : Context) (s : State) :
    (∀ j, j ≠ i → (s.closeLane i c).ctx j = s.ctx j)
    ∧ (s.closeLane i c).queue c.lane = (s.queue c.lane).erase i
    ∧ (∀ l, l ≠ c.lane → (s.closeLane i c).queue l = s.queue l)
    ∧ State.Only [.tracker, .alloc, .ring] s (s.closeLane i c)
    ∧ (s.closeLane i c).alloc = { s.alloc with arbiterDue := (s.closeLane i c).alloc.arbiterDue }
    ∧ (s.ctl.mode = .stopped → (∀ l : Lane, s.tracker.lanes[l].infeed = .stop) →
        ∀ l : Lane, (s.closeLane i c).tracker.lanes[l].infeed = .stop) := by
  have stopped (j : Slot) (ne : j ≠ i) : (s.stopTimer i).ctx j = s.ctx j := State.ctx_modCtx_of_ne (Ne.symm ne) _ _
  by_cases queued : (s.queue c.lane).contains i = true
  · obtain ⟨t, left⟩ : ∃ t, ((s.stopTimer i).leaveLane i c.lane).infeedDecision c.lane = t := ⟨_, rfl⟩
    have only := State.infeedDecision_only c.lane ((s.stopTimer i).leaveLane i c.lane)
    have tracks := State.infeedDecision_tracks (is := []) c.lane ((s.stopTimer i).leaveLane i c.lane)
    have slots := State.infeedDecision_slots c.lane ((s.stopTimer i).leaveLane i c.lane)
    rw [left] at only tracks slots
    have footprint : State.Only [.tracker, .alloc, .ring] s t :=
      ((State.stopTimer_only _ _).first.next (State.modLane_only _ _ _)).next only
    have alloc : t.alloc = s.alloc := only.alloc.resolve_left (by decide)
    obtain ⟨b, eq⟩ : ∃ b : Bool, s.closeLane i c = if b then t.callArbiter else t := by
      refine ⟨decide ((s.stopTimer i).laneHead c.lane = some i ∧ t.queue c.lane ≠ []), ?_⟩
      unfold State.closeLane
      dsimp only
      rw [left]
      simp only [decide_eq_true_eq]
      exact if_pos queued
    have called : (s.closeLane i c).tracker = t.tracker := by
      rw [eq]
      split <;> rfl
    refine ⟨fun j ne => ?_, ?_, fun l ne => ?_, ?_, ?_, fun mode stop l => ?_⟩
    · exact (State.ctx_of_tracker called j).trans ((congrArg (fun x : Vector (Option Context) 64 => x[j]) slots).trans (stopped j ne))
    · exact ((State.queue_of_tracker called _).trans (tracks.queues _)).trans
        ((State.leaveLane_queue i c.lane c.lane (s.stopTimer i)).trans (if_pos rfl))
    · exact ((State.queue_of_tracker called _).trans (tracks.queues _)).trans
        ((State.leaveLane_queue i c.lane l (s.stopTimer i)).trans (if_neg (Ne.symm ne)))
    · rw [eq]
      exact .ite (footprint.next (State.callArbiter_only _)) footprint
    · rw [eq]
      split
      · show ({ t.alloc with arbiterDue := true } : Allocator) = _
        rw [alloc]
        rfl
      · rw [alloc]
    · rw [called, ← left]
      unfold State.infeedDecision
      split
      · rw [State.sendInfeed_infeed]
        split
        · exact State.wanted_stop_of_mode (s := (s.stopTimer i).leaveLane i c.lane) (.inl mode) _
        · exact State.leaveLane_infeed stop l
      · exact State.leaveLane_infeed stop l
  · have eq : s.closeLane i c = s.stopTimer i := if_neg queued
    have out : i ∉ s.queue c.lane := fun mem => queued (List.contains_iff_mem.mpr mem)
    rw [eq]
    exact ⟨stopped, (List.erase_of_not_mem out).symm, fun _ _ => rfl, (State.stopTimer_only _ _).first, rfl, fun _ stop => stop⟩

theorem planAfter_eq (o : Closure) (p : Plan) : planAfter o p =
    { p with bound := none, state := if o = .released ∨ o = .unconfirmed then .used else .loaded } := by
  cases o <;> rfl

theorem State.closePlan_spec (c : Context) (o : Closure) (s : State) : State.Only [.refs] s (s.closePlan c o)
    ∧ (s.closePlan c o).refs.consignments = s.refs.consignments
    ∧ (∀ m, c.planSlot = some m → (s.closePlan c o).planAt m = (s.planAt m).map (planAfter o))
    ∧ ∀ m, c.planSlot ≠ some m → (s.closePlan c o).planAt m = s.planAt m := by
  unfold State.closePlan
  split
  next n slot =>
    refine ⟨State.onRefs_only _ _, rfl, fun m same => ?_, fun m other => ?_⟩
    · obtain rfl : n = m := Option.some.inj (slot.symm.trans same)
      rw [State.planAt_modPlan (planAfter_slot o), if_pos rfl]
    · exact (State.planAt_modPlan (planAfter_slot o) n m).trans (if_neg fun e => other (by rw [slot, e]))
  next none => exact ⟨.refl _ _, rfl, fun m same => absurd (none.symm.trans same) nofun, fun _ _ => rfl⟩

/-- The closed context has left every block but the car and the wrappers, and its slot is free. -/
structure State.Departs (o : Closure) (i : Slot) (c : Context) (s t : State) : Prop where
  freed    : t.ctx i = none
  others   : ∀ j, j ≠ i → t.ctx j = s.ctx j
  queue    : t.queue c.lane = (s.queue c.lane).erase i
  queues   : ∀ l, l ≠ c.lane → t.queue l = s.queue l
  labels   : t.labels = { s.labels with lines := s.labels.lines.map fun l => l.erase i, tickets := s.labels.tickets.erase i }
  alloc    : t.alloc = { s.alloc with arbiterDue := t.alloc.arbiterDue }
  composer : t.composer.queue = s.composer.queue.filter fun r => r.ctx ≠ ⟨i, c.adm⟩
  consigns : t.refs.consignments = s.refs.consignments
  plan     : ∀ m, c.planSlot = some m → t.planAt m = (s.planAt m).map (planAfter o)
  plans    : ∀ m, c.planSlot ≠ some m → t.planAt m = s.planAt m
  only     : State.Only [.refs, .tracker, .alloc, .composer, .labels, .ring, .mgmt] s t
  stops    : s.ctl.mode = .stopped → (∀ l : Lane, s.tracker.lanes[l].infeed = .stop) →
    ∀ l : Lane, t.tracker.lanes[l].infeed = .stop

theorem State.closeHolder_only (id : CtxId) (os : List Order) (s : State) : State.Only [.ring] s (s.closeHolder id os) := by
  unfold State.closeHolder
  exact State.onRing_only _ _

theorem State.departed_departs (o : Closure) (i : Slot) (c : Context) (s : State) : s.Departs o i c (s.departed o i c) := by
  obtain ⟨a, withdrawn⟩ : ∃ a, s.withdraw (s.applicatorOf i) true i = a := ⟨_, rfl⟩
  have first := State.withdraw_only (s.applicatorOf i) true i s
  have same (j : Slot) (ne : j ≠ i) := State.withdraw_same (s := s) (s.applicatorOf i) true ne
  have lanes := State.sameLanes_withdraw (s.applicatorOf i) true i s
  rw [withdrawn] at first lanes
  simp only [withdrawn] at same
  have queue_a (l : Lane) : a.queue l = s.queue l := congrArg (fun x : Vector LaneRecord 8 => x[l].queue) lanes
  obtain ⟨left_others, left_queue, left_queues, left_only, left_alloc, left_stops⟩ := State.closeLane_spec i c a
  obtain ⟨plan_only, consigns, plan, plans⟩ := State.closePlan_spec c o (a.closeLane i c)
  obtain ⟨b, reported⟩ : ∃ b, ((a.closeLane i c).closePlan c o).report (closedReport i c o) = b := ⟨_, rfl⟩
  have report_only := State.report_only (closedReport i c o) ((a.closeLane i c).closePlan c o)
  rw [reported] at report_only
  obtain ⟨x, held⟩ : ∃ x, ((b.closeComposer ⟨i, c.adm⟩).closeQueues i).closeHolder ⟨i, c.adm⟩
      (((((b.closeComposer ⟨i, c.adm⟩).closeQueues i).ctx i).map (·.orders)).getD []) = x := ⟨_, rfl⟩
  have eq : s.departed o i c = x.putCtx i none := by
    rw [← held, ← reported, ← withdrawn]
    rfl
  have holder_only := State.closeHolder_only ⟨i, c.adm⟩
    (((((b.closeComposer ⟨i, c.adm⟩).closeQueues i).ctx i).map (·.orders)).getD [])
    ((b.closeComposer ⟨i, c.adm⟩).closeQueues i)
  rw [held] at holder_only
  have tracker : x.tracker = (a.closeLane i c).tracker := ((holder_only.tracker.resolve_left (by decide)).trans
    (report_only.tracker.resolve_left (by decide))).trans (plan_only.tracker.resolve_left (by decide))
  have refs : x.refs = ((a.closeLane i c).closePlan c o).refs :=
    (holder_only.refs.resolve_left (by decide)).trans (report_only.refs.resolve_left (by decide))
  have alloc : x.alloc = (a.closeLane i c).alloc := ((holder_only.alloc.resolve_left (by decide)).trans
    (report_only.alloc.resolve_left (by decide))).trans (plan_only.alloc.resolve_left (by decide))
  have labels_b : b.labels = s.labels := (((report_only.labels.resolve_left (by decide)).trans
    (plan_only.labels.resolve_left (by decide))).trans (left_only.labels.resolve_left (by decide))).trans
      (first.labels.resolve_left (by decide))
  have composer_b : b.composer = s.composer := (((report_only.composer.resolve_left (by decide)).trans
    (plan_only.composer.resolve_left (by decide))).trans (left_only.composer.resolve_left (by decide))).trans
      (first.composer.resolve_left (by decide))
  have planAt_a (m : Nat) : (a.closeLane i c).planAt m = s.planAt m := State.planAt_of_refs
    ((left_only.refs.resolve_left (by decide)).trans (first.refs.resolve_left (by decide))) m
  have queue_x (l : Lane) : (x.putCtx i none).queue l = (a.closeLane i c).queue l := State.queue_of_tracker tracker l
  rw [eq]
  exact {
    freed := State.ctx_putCtx_self _ _ _
    others := fun j ne => by
      rw [State.ctx_putCtx_of_ne (Ne.symm ne), State.ctx_of_tracker tracker, left_others j ne, same j ne]
    queue := by rw [queue_x, left_queue, queue_a]
    queues := fun l ne => by rw [queue_x, left_queues l ne, queue_a]
    labels := by
      show x.labels = _
      rw [holder_only.labels.resolve_left (by decide), ← labels_b]
      rfl
    alloc := by
      have alloc_a : a.alloc = s.alloc := first.alloc.resolve_left (by decide)
      show x.alloc = { s.alloc with arbiterDue := x.alloc.arbiterDue }
      rw [alloc, left_alloc, alloc_a]
    composer := by
      show x.composer.queue = _
      rw [holder_only.composer.resolve_left (by decide), ← composer_b]
      rfl
    consigns := by
      show x.refs.consignments = _
      rw [refs, consigns, left_only.refs.resolve_left (by decide), first.refs.resolve_left (by decide)]
    plan := fun m slot => by
      show x.planAt m = _
      rw [State.planAt_of_refs (s := (a.closeLane i c).closePlan c o) refs, plan m slot, planAt_a]
    plans := fun m slot => by
      show x.planAt m = _
      rw [State.planAt_of_refs (s := (a.closeLane i c).closePlan c o) refs, plans m slot, planAt_a]
    only := by
      have away : State.Only [.refs, .tracker, .alloc, .composer, .labels, .ring, .mgmt] s b :=
        ((first.first.next left_only).next plan_only).next report_only
      have queues : State.Only [.composer, .labels] b ((b.closeComposer ⟨i, c.adm⟩).closeQueues i) :=
        (State.onComposer_only _ _).first.next (State.onLabels_only _ _)
      exact ((away.next queues).next holder_only).next (State.putCtx_only _ _ _)
    stops := fun mode stop l => by
      have lane (m : Lane) : a.tracker.lanes[m] = s.tracker.lanes[m] := congrArg (fun x : Vector LaneRecord 8 => x[m]) lanes
      have ctl : a.ctl = s.ctl := first.ctl.resolve_left (by decide)
      refine (congrArg (fun x : Tracker => x.lanes[l].infeed) tracker).trans
        (left_stops (by rw [ctl]; exact mode) (fun m => ?_) l)
      rw [lane]
      exact stop m }

/-! ### What the car and the wrappers hold of it becomes an orphan (R102, R111) -/

theorem State.orphans_spec (id : CtxId) (cause : Config.UnitCause) (ws : List WrapperNo) (s : State) :
    let t := ws.foldl (fun s w => if (s.wrapper w).pallet = .context id then s.orphanWrapper w cause else s) s
    (∀ v, t.wrapper v = if v ∈ ws ∧ (s.wrapper v).pallet = .context id then (s.wrapper v).orphaned else s.wrapper v)
      ∧ t.alloc.car = s.alloc.car ∧ State.Only [.alloc, .ring, .mgmt] s t
      ∧ ((∀ v, (s.wrapper v).pallet ≠ .context id) → t = s) := by
  induction ws generalizing s with
  | nil => exact ⟨fun v => (if_neg (by simp)).symm, rfl, .refl _ _, fun _ => rfl⟩
  | cons w ws ih =>
    dsimp only at ih ⊢
    rw [List.foldl_cons]
    by_cases holds : (s.wrapper w).pallet = .context id
    · rw [if_pos holds]
      obtain ⟨self, others, car, -, -, -, only⟩ := State.orphanWrapper_spec w cause s
      obtain ⟨wrappers, cars, reached, -⟩ := ih (s.orphanWrapper w cause)
      refine ⟨fun v => ?_, cars.trans car, only.trans reached, fun none => absurd holds (none w)⟩
      rw [wrappers]
      by_cases e : v = w
      · subst e
        rw [self, if_neg (fun both => by cases both.2), if_pos ⟨.head _, holds⟩]
      · rw [others v e]
        exact if_congr (by simp [e]) rfl rfl
    · rw [if_neg holds]
      obtain ⟨wrappers, cars, reached, none⟩ := ih s
      refine ⟨fun v => ?_, cars, reached, none⟩
      rw [wrappers]
      by_cases e : v = w
      · subst e
        rw [if_neg (fun both => holds both.2), if_neg (fun both => holds both.2)]
      · exact if_congr (by simp [e]) rfl rfl

/-- The orphan's car and wrappers. -/
theorem State.orphan_spec (id : CtxId) (cause : Config.UnitCause) (s : State) :
    (∀ v, (s.orphan id cause).wrapper v =
        if (s.wrapper v).pallet = .context id then (s.wrapper v).orphaned else s.wrapper v)
      ∧ (s.orphan id cause).alloc.car =
        (if s.alloc.car.cargo = .context id then { s.alloc.car with cargo := .orphan } else s.alloc.car)
      ∧ State.Only [.alloc, .ring, .mgmt] s (s.orphan id cause)
      ∧ ((∀ v, (s.wrapper v).pallet ≠ .context id) → (s.orphan id cause).alloc.held = s.alloc.held) := by
  obtain ⟨t, carried⟩ : ∃ t, (if s.alloc.car.cargo = .context id then s.modCar fun c => { c with cargo := .orphan } else s) = t :=
    ⟨_, rfl⟩
  have wrapper (v : WrapperNo) : t.wrapper v = s.wrapper v := by
    rw [← carried]
    split <;> rfl
  have car : t.alloc.car = if s.alloc.car.cargo = .context id then { s.alloc.car with cargo := .orphan } else s.alloc.car := by
    rw [← carried]
    split <;> rfl
  have held : t.alloc.held = s.alloc.held := by
    rw [← carried]
    split <;> rfl
  have only : State.Only [.alloc] s t := by
    rw [← carried]
    exact .ite (State.modCar_only _ _) (.refl _ _)
  obtain ⟨wrappers, cars, reached, none⟩ := State.orphans_spec id cause allWrappers t
  have eq : s.orphan id cause = allWrappers.foldl
      (fun s w => if (s.wrapper w).pallet = .context id then s.orphanWrapper w cause else s) t := by
    rw [← carried]
    rfl
  rw [← eq] at wrappers cars reached none
  refine ⟨fun v => ?_, cars.trans car, only.first.next reached, fun free => ?_⟩
  · rw [wrappers, wrapper]
    exact if_congr (by simp [allWrappers]) rfl rfl
  · rw [none fun v => by rw [wrapper]; exact free v, held]

end

end Sys2Proof.Machine
end

