-- ==== Sys2Proof/Proofs/Slice0/ClosureEffects.lean ====
section
/-! What a closure leaves (R51, R52), and the release of a held output that gets room (R109). -/

namespace Sys2Proof.Machine

open Sys2Proof

section
variable {s t u : State} {i j : Slot} {c d : Context} {w : WrapperNo} {k : LineNo} {cause : Config.UnitCause} {o : Closure}
  {rest : List WrapperNo}

/-! ### A closure, step by step -/

/-- The state before what follows a closure: the context has departed, and what held it holds an orphan. -/
structure State.Gone (o : Closure) (i : Slot) (c : Context) (s t : State) : Prop where
  freed    : t.ctx i = none
  others   : ∀ j, j ≠ i → t.ctx j = s.ctx j
  queue    : t.queue c.lane = (s.queue c.lane).erase i
  labels   : t.labels = { s.labels with lines := s.labels.lines.map fun l => l.erase i, tickets := s.labels.tickets.erase i }
  wrappers : ∀ v, t.wrapper v = if (s.wrapper v).pallet = .context ⟨i, c.adm⟩ then (s.wrapper v).orphaned else s.wrapper v
  car      : t.alloc.car =
    if s.alloc.car.cargo = .context ⟨i, c.adm⟩ then { s.alloc.car with cargo := .orphan } else s.alloc.car
  held     : (∀ v, (s.wrapper v).pallet ≠ .context ⟨i, c.adm⟩) → t.alloc.held = s.alloc.held
  composer : t.composer.queue = s.composer.queue.filter fun r => r.ctx ≠ ⟨i, c.adm⟩
  consigns : t.refs.consignments = s.refs.consignments
  plan     : ∀ m, c.planSlot = some m → t.planAt m = (s.planAt m).map (planAfter o)
  plans    : ∀ m, c.planSlot ≠ some m → t.planAt m = s.planAt m
  only     : State.Only [.refs, .tracker, .alloc, .composer, .labels, .ring, .mgmt] s t
  stops    : s.ctl.mode = .stopped → (∀ l : Lane, s.tracker.lanes[l].infeed = .stop) →
    ∀ l : Lane, t.tracker.lanes[l].infeed = .stop

theorem State.Departs.gone (h : s.Departs o i c t) (cause : Config.UnitCause) :
    s.Gone o i c (t.orphan ⟨i, c.adm⟩ cause) := by
  obtain ⟨wrappers, car, only, held⟩ := State.orphan_spec ⟨i, c.adm⟩ cause t
  have tracker : (t.orphan ⟨i, c.adm⟩ cause).tracker = t.tracker := only.tracker.resolve_left (by decide)
  have refs : (t.orphan ⟨i, c.adm⟩ cause).refs = t.refs := only.refs.resolve_left (by decide)
  have wrapper (v : WrapperNo) : t.wrapper v = s.wrapper v := by
    rw [State.wrapper, h.alloc]
    rfl
  exact {
    freed := (State.ctx_of_tracker tracker i).trans h.freed
    others := fun j ne => (State.ctx_of_tracker tracker j).trans (h.others j ne)
    queue := (State.queue_of_tracker tracker _).trans h.queue
    labels := (only.labels.resolve_left (by decide)).trans h.labels
    wrappers := fun v => by rw [wrappers, wrapper]
    car := by rw [car, h.alloc]
    held := fun free => by rw [held fun v => by rw [wrapper]; exact free v, h.alloc]
    composer := by rw [only.composer.resolve_left (by decide)]; exact h.composer
    consigns := by rw [refs]; exact h.consigns
    plan := fun m slot => (State.planAt_of_refs refs m).trans (h.plan m slot)
    plans := fun m slot => (State.planAt_of_refs refs m).trans (h.plans m slot)
    only := h.only.next only
    stops := fun mode stop l => by rw [tracker]; exact h.stops mode stop l }

/-- The steps of a closure. -/
theorem State.closeContext_stages (hc : s.ctx i = some c) : ∃ a, s.Gone o i c a
    ∧ s.closeContext o cause i = a.aftermath (s.lineOf i) (s.labels.tickets.contains i) cause :=
  ⟨_, (State.departed_departs o i c s).gone (orphanCause o), State.closeContext_eq hc⟩

theorem State.Gone.line (h : s.Gone o i c t) (k : LineNo) : t.line k = (s.line k).erase i := by
  rw [State.line, h.labels]
  simp [State.line]

/-! ### What a closure leaves -/

/-- What a closure leaves of the closed context and of the rest of the part. -/
structure State.Closes (o : Closure) (i : Slot) (c : Context) (s u : State) : Prop where
  freed    : u.ctx i = none
  lasting  : ∀ j, j ≠ i → (u.ctx j).map Context.lasting = (s.ctx j).map Context.lasting
  queue    : u.queue c.lane = (s.queue c.lane).erase i
  tickets  : u.labels.tickets = s.labels.tickets.erase i
  log      : u.labels.log = s.labels.log ∧ u.labels.nextRelease = s.labels.nextRelease
  lines    : (∀ w id, (s.wrapper w).pallet = .context id → id.slot = i → id.adm = c.adm) →
    ∀ k, (s.line k).Nodup → i ∉ u.line k
  cargo    : s.alloc.car.cargo = .context ⟨i, c.adm⟩ → s.alloc.car.state ≠ .idle → u.alloc.car.cargo = .orphan
  orphans  : ∀ w, (s.wrapper w).pallet = .context ⟨i, c.adm⟩ → (u.wrapper w).pallet = .orphan ∧ (u.wrapper w).state = .fault
  composer : u.composer.queue = s.composer.queue.filter fun r => r.ctx ≠ ⟨i, c.adm⟩
  consigns : u.refs.consignments = s.refs.consignments
  plan     : ∀ m, c.planSlot = some m → u.planAt m = (s.planAt m).map (planAfter o)
  plans    : ∀ m, c.planSlot ≠ some m → u.planAt m = s.planAt m
  holds    : u.holds = s.holds
  stops    : s.ctl.mode = .stopped → u.ctl = s.ctl ∧ ((∀ l : Lane, s.tracker.lanes[l].infeed = .stop) →
    ∀ l : Lane, u.tracker.lanes[l].infeed = .stop)

theorem State.closeContext_closes (hc : s.ctx i = some c) : s.Closes o i c (s.closeContext o cause i) := by
  obtain ⟨a, gone, eq⟩ := State.closeContext_stages (o := o) (cause := cause) hc
  have follows := State.aftermath_follows (s.lineOf i) (s.labels.tickets.contains i) cause a
  rw [← eq] at follows
  generalize s.closeContext o cause i = u at follows
  have refs : u.refs = a.refs := follows.only.refs.resolve_left (by decide)
  have ctl : a.ctl = s.ctl := gone.only.ctl.resolve_left (by decide)
  exact {
    freed := by
      have none := follows.lasting i
      rw [gone.freed] at none
      exact Option.map_eq_none_iff.mp none
    lasting := fun j ne => by rw [follows.lasting j, gone.others j ne]
    queue := (follows.queues _).trans gone.queue
    tickets := by rw [follows.tickets, gone.labels]
    log := by rw [follows.log.1, follows.log.2, gone.labels]; exact ⟨rfl, rfl⟩
    lines := fun named k once mem => by
      rcases follows.lines k i mem with mem | ⟨v, id, pallet, slot⟩
      · rw [gone.line] at mem
        exact once.not_mem_erase mem
      · rw [gone.wrappers] at pallet
        split at pallet
        · cases pallet
        next other =>
          refine other (pallet.trans (congrArg Load.context ?_))
          obtain ⟨x, adm⟩ := id
          obtain rfl : x = i := slot
          exact congrArg (CtxId.mk x) (named v _ pallet rfl)
    cargo := fun carried moving => by
      have car := gone.car
      rw [if_pos carried] at car
      rw [(follows.cargo (by rw [car]; exact moving)).1, car]
    orphans := fun w pallet => by
      have orphaned := gone.wrappers w
      rw [if_pos pallet] at orphaned
      exact follows.orphans w (by rw [orphaned]; rfl) (by rw [orphaned]; rfl)
    composer := by rw [follows.only.composer.resolve_left (by decide)]; exact gone.composer
    consigns := by rw [refs]; exact gone.consigns
    plan := fun m slot => (State.planAt_of_refs refs m).trans (gone.plan m slot)
    plans := fun m slot => (State.planAt_of_refs refs m).trans (gone.plans m slot)
    holds := (follows.only.holds.resolve_left (by decide)).trans (gone.only.holds.resolve_left (by decide))
    stops := fun mode => by
      obtain ⟨same, stop⟩ := follows.stops (by rw [ctl]; exact mode)
      exact ⟨same.trans ctl, fun all => stop (gone.stops mode all)⟩ }

/-! ### Several closures (R52, R176) -/

/-- What several closures leave. -/
theorem State.closeAll_spec (o : Closure) (cause : Config.UnitCause) (is : List Slot) (s : State) :
    (∀ i, i ∈ is ∨ s.ctx i = none → (s.closeAll o cause is).ctx i = none)
      ∧ (s.closeAll o cause is).labels.log = s.labels.log
      ∧ (s.closeAll o cause is).refs.consignments = s.refs.consignments
      ∧ (s.ctl.mode = .stopped → (s.closeAll o cause is).ctl = s.ctl
        ∧ ((∀ l : Lane, s.tracker.lanes[l].infeed = .stop) →
          ∀ l : Lane, (s.closeAll o cause is).tracker.lanes[l].infeed = .stop)) := by
  induction is generalizing s with
  | nil => exact ⟨fun i h => h.resolve_left (by simp), rfl, rfl, fun _ => ⟨rfl, id⟩⟩
  | cons j is ih =>
    obtain ⟨closed, log, consigns, stops⟩ := ih (s.closeContext o cause j)
    have eq : s.closeAll o cause (j :: is) = (s.closeContext o cause j).closeAll o cause is := rfl
    rw [eq]
    cases hc : s.ctx j with
    | none =>
      rw [State.closeContext_of_free hc] at closed log consigns stops ⊢
      refine ⟨fun i h => closed i ?_, log, consigns, stops⟩
      rcases h with mem | free
      · rcases List.mem_cons.mp mem with rfl | mem
        · exact .inr hc
        · exact .inl mem
      · exact .inr free
    | some c =>
      have closes := State.closeContext_closes (o := o) (cause := cause) hc
      refine ⟨fun i h => closed i ?_, log.trans closes.log.1, consigns.trans closes.consigns, fun mode => ?_⟩
      · by_cases e : i = j
        · exact .inr (e ▸ closes.freed)
        · refine h.imp (fun mem => (List.mem_cons.mp mem).resolve_left e) fun free => ?_
          have same := closes.lasting i e
          rw [free] at same
          exact Option.map_eq_none_iff.mp same
      · obtain ⟨ctl, stop⟩ := closes.stops mode
        obtain ⟨ctl', stop'⟩ := stops (by rw [ctl]; exact mode)
        exact ⟨ctl'.trans ctl, stop' ∘ stop⟩

/-! ### A held output that gets room (R109) -/

theorem State.releaseHeld_of_off (n : Nat) (off : s.alloc.held[k] = [] ∨ 3 ≤ (s.line k).length) :
    State.releaseHeld n k cause s = s := by
  cases n with
  | zero => rfl
  | succ n =>
    unfold State.releaseHeld
    split
    · rfl
    next x xs order =>
      refine if_neg fun room => ?_
      rcases off with none | full
      · rw [none] at order
        cases order
      · exact absurd room (Nat.not_lt.mpr full)

/-- The line's order without its first wrapper, which is sent its RELEASE. -/
def State.released (k : LineNo) (w : WrapperNo) (rest : List WrapperNo) (s : State) : State :=
  (s.modHeld k fun _ => rest).sendOutput w .release

theorem State.released_spec (k : LineNo) (w : WrapperNo) (rest : List WrapperNo) (s : State) :
    (∃ q l, (s.released k w rest).wrapper w = { s.wrapper w with output := q, lastOutput := l })
      ∧ (∀ v, v ≠ w → (s.released k w rest).wrapper v = s.wrapper v) ∧ (s.released k w rest).alloc.held[k] = rest
      ∧ State.Only [.alloc, .ring] s (s.released k w rest) := by
  obtain ⟨q, l, leads⟩ := State.wrapperTo_sendOutput (s := s.modHeld k fun _ => rest) (w := w) .release
  refine ⟨⟨q, l, leads.self⟩, leads.others, ?_, (State.onAlloc_only _ _).first.next (State.sendOutput_only _ _ _)⟩
  unfold State.released
  rw [leads.held]
  simp [State.modHeld, State.onAlloc]

/-- On a line of two the first held wrapper is released, and its context fills the line. -/
theorem State.lineRoom_of_one (order : s.alloc.held[k] = w :: rest) (two : (s.line k).length = 2)
    (feeds : lineOfWrapper w = k) (hc : s.ctx i = some c) (pallet : (s.wrapper w).pallet = .context ⟨i, c.adm⟩) :
    s.lineRoom k cause = (s.released k w rest).joinLine w cause false := by
  obtain ⟨⟨q, l, self⟩, -, held, only⟩ := State.released_spec k w rest s
  have line : (s.released k w rest).line k = s.line k :=
    congrArg (fun x : Dispatcher => x.lines[k]) (only.labels.resolve_left (by decide))
  have there : (s.released k w rest).ctx i = some c :=
    (State.ctx_of_tracker (only.tracker.resolve_left (by decide)) i).trans hc
  obtain ⟨v, d, given, -, joined, -, -, -⟩ := State.joinLine_spec (cause := cause) (fromFault := false)
    (s := s.released k w rest) (by rw [self]; exact pallet) there feeds
  obtain ⟨q', l', p, x, -, last, -⟩ := State.wrapperTo_giveUp (s := v) (w := w) (cause := cause) (fromFault := false) rfl
  have full : 3 ≤ (((s.released k w rest).joinLine w cause false).line k).length := by
    rw [given, State.line, last.labels.resolve_left (by decide)]
    show 3 ≤ (v.line k).length
    rw [joined, line, List.length_append, two]
    exact le_refl _
  have room : (s.line k).length < Config.labelLineMax := by rw [two]; decide
  unfold State.lineRoom
  rw [order]
  show State.releaseHeld (rest.length + 1) k cause s = _
  unfold State.releaseHeld
  rw [order]
  exact (if_pos room).trans (State.releaseHeld_of_off _ (.inr full))

/-- What the release of the first held wrapper of a line of two leaves. -/
theorem State.lineRoom_leaves (order : s.alloc.held[k] = w :: rest) (two : (s.line k).length = 2)
    (feeds : lineOfWrapper w = k) (hc : s.ctx i = some c) (pallet : (s.wrapper w).pallet = .context ⟨i, c.adm⟩)
    (released : s.lineRoom k cause = u) : u.line k = s.line k ++ [i] ∧ u.alloc.held[k] = rest
      ∧ (u.wrapper w).pallet = .none ∧ (u.wrapper w).output = ((s.released k w rest).wrapper w).output
      ∧ (∀ v, v ≠ w → u.wrapper v = s.wrapper v)
      ∧ ∃ d, u.ctx i = some d ∧ d.core = { c with phase := .queuedLabel, timer := none }.core := by
  obtain ⟨⟨q, l, self⟩, others, held, only⟩ := State.released_spec k w rest s
  have line : (s.released k w rest).line k = s.line k :=
    congrArg (fun x : Dispatcher => x.lines[k]) (only.labels.resolve_left (by decide))
  have there : (s.released k w rest).ctx i = some c :=
    (State.ctx_of_tracker (only.tracker.resolve_left (by decide)) i).trans hc
  obtain ⟨v, d, given, first, joined, hd, core, -⟩ := State.joinLine_spec (cause := cause) (fromFault := false)
    (s := s.released k w rest) (by rw [self]; exact pallet) there feeds
  obtain ⟨q', l', p, x, leads, last, off, -⟩ :=
    State.wrapperTo_giveUp (s := v) (w := w) (cause := cause) (fromFault := false) rfl
  have same := first.wrapperTo (w := w)
  rw [State.lineRoom_of_one order two feeds hc pallet, given] at released
  rw [released] at leads last
  refine ⟨?_, ?_, ?_, ?_, fun x ne => ?_, d, ?_, core⟩
  · rw [State.line, last.labels.resolve_left (by decide)]
    exact joined.trans (by rw [line])
  · rw [leads.held, same.held, held]
  · rw [leads.self]
    rfl
  · rw [leads.self, ← same.self]
    exact off (.inl rfl)
  · rw [leads.others x ne, same.others x ne, others x ne]
  · exact (State.ctx_of_tracker (last.tracker.resolve_left (by decide)) i).trans hd

/-! ### What follows a release (R103, R175) -/

theorem State.settle_ctx (hc : s.ctx i = some c) (phase : c.phase ≠ .atHeadDecided) (cause : Config.UnitCause) :
    (s.settle cause).ctx i = some c := by
  unfold State.settle
  split
  · show (s.settled.arbitrate cause).ctx i = some c
    unfold State.arbitrate
    split
    · split
      next x chosen =>
        obtain ⟨-, -, ⟨e, he, decided, -⟩, -, -⟩ := State.candidate_spec (State.chosen_candidate chosen)
        have ne : x.slot ≠ i := fun same => phase (by
          rw [same] at he
          rw [Option.some.inj (hc.symm.trans he)]
          exact decided)
        have moved := State.ctx_modCtx_of_ne ne (fun c => { c with
          phase := .moving, timer := some (s.settled.setCar cause x.load).params.carMoveLimit }) (s.settled.setCar cause x.load)
        exact (State.ctx_of_tracker ((State.sendCarMove_only _ _).tracker.resolve_left (by decide)) i).trans
          (moved.trans ((State.ctx_of_tracker (State.setCar_tracker cause x.load s.settled) i).trans hc))
      next => exact hc
    · exact hc
  · exact hc

theorem State.settle_held (cause : Config.UnitCause) (s : State) : (s.settle cause).alloc.held = s.alloc.held := by
  unfold State.settle
  split
  · show (s.settled.arbitrate cause).alloc.held = s.alloc.held
    unfold State.arbitrate
    split
    · split
      next x _ =>
        obtain ⟨m, eq⟩ : ∃ m, s.settled.startMove cause x = ((s.settled.setCar cause x.load).enter x.slot .moving
          (some (s.settled.setCar cause x.load).params.carMoveLimit)).sendCarMove m := ⟨_, rfl⟩
        obtain ⟨o, alloc⟩ := State.sendCarMove_car m ((s.settled.setCar cause x.load).enter x.slot .moving
          (some (s.settled.setCar cause x.load).params.carMoveLimit))
        rw [eq, alloc]
        show (s.settled.setCar cause x.load).alloc.held = _
        rw [State.setCar_alloc]
        rfl
      next => rfl
    · rfl
  · rfl

theorem State.drained_only (s : State) : State.Only [.ctl, .tracker, .ring, .mgmt] s s.drained := by
  unfold State.drained
  split
  · obtain ⟨-, -, -, -, only, -⟩ := State.enterMode_spec .stopped true .drainComplete s (by decide) rfl
    exact only
  · exact (State.onCtl_only _ _).first.next (State.report_only _ _)
  · exact .refl _ _

theorem State.drained_ctx (i : Slot) (s : State) : s.drained.ctx i = s.ctx i := by
  unfold State.drained
  split
  · obtain ⟨-, -, -, same, -⟩ := State.enterMode_spec .stopped true .drainComplete s (by decide) rfl
    exact same i (by simp)
  · exact State.ctx_of_tracker ((State.report_only _ _).tracker.resolve_left (by decide)) i
  · rfl

/-- A closure on a line of three, the first held wrapper of which is released. -/
theorem State.closeContext_releases (hc : s.ctx i = some c) (line : s.lineOf i = some k) (three : (s.line k).length = 3)
    (order : s.alloc.held[k] = w :: rest) (feeds : lineOfWrapper w = k) (ne : j ≠ i) (hd : s.ctx j = some d)
    (pallet : (s.wrapper w).pallet = .context ⟨j, d.adm⟩)
    (free : ∀ v, (s.wrapper v).pallet ≠ .context ⟨i, c.adm⟩) (closed : s.closeContext o cause i = u) :
    ∃ e, u.line k = (s.line k).erase i ++ [j] ∧ u.alloc.held[k] = rest ∧ (u.wrapper w).pallet = .none
      ∧ u.ctx j = some e ∧ e.phase = .queuedLabel ∧ e.timer = none := by
  obtain ⟨a, gone, eq⟩ := State.closeContext_stages (o := o) (cause := cause) hc
  rw [closed, line] at eq
  have mem : i ∈ s.line k := by
    have contains := List.find?_some (p := fun k => (s.line k).contains i) line
    exact List.contains_iff_mem.mp contains
  have two : (a.line k).length = 2 := by rw [gone.line, List.length_erase_of_mem mem, three]
  have wrapper : a.wrapper w = s.wrapper w := (gone.wrappers w).trans (if_neg (free w))
  obtain ⟨joined, held, none, -, -, e, he, core⟩ := State.lineRoom_leaves (cause := cause) (s := a)
    (by rw [gone.held free]; exact order) two feeds ((gone.others j ne).trans hd) (by rw [wrapper]; exact pallet) rfl
  have started := State.startJobs_only k (a.lineRoom k cause)
  obtain ⟨x, hx, core_x⟩ := State.ctx_of_core
    (State.core_eq_of_tracks (State.startJobs_tracks (is := []) k (a.lineRoom k cause))) he
  obtain ⟨t, left⟩ : ∃ t, a.leftLine k cause = t := ⟨_, rfl⟩
  have drained : State.Only [.ctl, .tracker, .ring, .mgmt] t (if t.noneOpen then t.drained else t) :=
    .ite (State.drained_only t) (.refl _ _)
  have same : (if t.noneOpen then t.drained else t).ctx j = t.ctx j := by
    split
    · exact State.drained_ctx j t
    · rfl
  have follows : t.Follows u := by
    rw [eq]
    unfold State.aftermath State.departure
    dsimp only
    rw [left]
    exact (State.Follows.ite (State.drained_follows t) (.refl t)).trans (State.settle_follows _ _)
  have settled : u = (if t.noneOpen then t.drained else t).settle cause := by
    rw [eq, ← left]
    rfl
  have settling := State.settle_only cause (if t.noneOpen then t.drained else t)
  change (a.lineRoom k cause).startJobs k = t at left
  rw [left] at started hx
  have phase : x.phase = .queuedLabel := (congrArg (·.phase) core_x).trans (congrArg (·.phase) core)
  have timer : x.timer = Option.none := (congrArg (·.timer) core_x).trans (congrArg (·.timer) core)
  refine ⟨x, ?_, ?_, ?_, ?_, phase, timer⟩
  · rw [settled, State.line, settling.labels.resolve_left (by decide), drained.labels.resolve_left (by decide),
      started.labels.resolve_left (by decide)]
    exact joined.trans (by rw [gone.line])
  · rw [settled, State.settle_held, drained.alloc.resolve_left (by decide), started.alloc.resolve_left (by decide)]
    exact held
  · rcases follows.pallets w with kept | empty
    · rw [kept, State.wrapper, started.alloc.resolve_left (by decide)]
      exact none
    · exact empty
  · rw [settled]
    exact State.settle_ctx (same.trans hx) (by rw [phase]; decide) cause

end

end Sys2Proof.Machine

namespace Sys2Proof.Proofs

open Sys2Proof Sys2Proof.Machine

/-- LANE_CLEAR closes what the lane holds but for a MOVING context. -/
theorem laneClear_of_lane (s : State) (src tag : Byte) (n : Nat) (l : Lane) (takes : s.Takes src 0x30) (named : n = l.val + 1) :
    ∃ u is, is = ((s.laneContexts l).filter fun p => p.2.phase != .moving).map (·.1)
      ∧ u = is.reverse.foldl (fun t i => t.closeContext .cleared .laneClear i) (s.taken src)
      ∧ exec (.laneClear src tag n) s = .next (u.answered src 0x30 tag .ok (.laneCleared is.length
          ((s.laneHead l).any fun i => (s.ctx i).any fun c => c.phase == .moving)))
      ∧ (∀ i ∈ is, u.ctx i = none) ∧ (∀ i ∈ s.queue l, ∀ c, s.ctx i = some c → c.phase = .moving → i ∉ is)
      ∧ u.labels.log = s.labels.log ∧ u.refs.consignments = s.refs.consignments := by
  subst named
  obtain ⟨closed, log, consigns, -⟩ := State.closeAll_spec .cleared .laneClear
    (((s.laneContexts l).filter fun p => p.2.phase != .moving).map (·.1)).reverse (s.taken src)
  have taken := State.taken_only src s
  refine ⟨_, _, rfl, rfl, exec_of_serve takes rfl (fun _ => rfl) ?_, fun i mem => closed i (.inl (by simpa using mem)),
    fun i _ c hc moving mem => ?_, ?_, ?_⟩
  · show State.laneClear (l.val + 1) (s.taken src) = _
    have lane : laneOf (l.val + 1) = some l := by simp [laneOf, instIndex]
    unfold State.laneClear
    rw [lane]
    rfl
  · obtain ⟨⟨x, d⟩, kept, rfl⟩ := List.mem_map.mp mem
    obtain ⟨listed, other⟩ := List.mem_filter.mp kept
    obtain ⟨y, -, found⟩ := List.mem_filterMap.mp listed
    obtain ⟨e, he, same⟩ := Option.map_eq_some_iff.mp found
    cases same
    rw [Option.some.inj (hc.symm.trans he)] at moving
    simp [moving] at other
  · rw [← taken.labels.resolve_left (by decide)]
    exact log
  · rw [← taken.refs.resolve_left (by decide)]
    exact consigns

/-- Settles O26, from what a closure leaves and the release of the first held wrapper. -/
theorem closureFreesEverything : Obligations.ClosureFreesEverything := by
  refine ⟨fun s src tag n takes => ⟨fun off => ?_, fun l => laneClear_of_lane s src tag n l takes⟩,
    fun s i c o cause u hc closed => ?_, fun s k cause => ⟨fun off => State.releaseHeld_of_off _ off,
      fun w rest i c order two feeds hc pallet => ⟨s.modHeld k fun _ => rest, rfl, State.onAlloc_only _ _,
        State.lineRoom_of_one order two feeds hc pallet⟩, fun w rest i c order two feeds hc pallet none full => ?_⟩⟩
  · have lane : laneOf n = none := by
      unfold laneOf instIndex
      exact dif_neg (by omega)
    refine exec_of_serve takes rfl (fun _ => rfl) ?_
    show State.laneClear n (s.taken src) = _
    unfold State.laneClear
    rw [lane]
    rfl
  · subst closed
    have closes := State.closeContext_closes (o := o) (cause := cause) hc
    refine ⟨closes.freed, fun once => by rw [closes.queue]; exact once.not_mem_erase,
      fun once => by rw [closes.tickets]; exact once.not_mem_erase, closes.lines, closes.cargo, closes.orphans,
      fun m q slot at_m => ?_, closes.plans, fun r mem => ?_, fun j d ne hd => ?_,
      fun k w rest j d line three order feeds ne hd pallet free =>
        State.closeContext_releases hc line three order feeds ne hd pallet free rfl⟩
    · rw [closes.plan m slot, at_m, Option.map_some, planAfter_eq]
    · rw [closes.composer] at mem
      simpa using (List.mem_filter.mp mem).2
    · have same := closes.lasting j ne
      rw [hd] at same
      obtain ⟨e, he, lasting⟩ := Option.map_eq_some_iff.mp same
      simp only [Context.lasting, Prod.mk.injEq] at lasting
      obtain ⟨verdict, reasons, adm, licence, planSlot, tally⟩ := lasting
      exact ⟨e, he, verdict, reasons, adm, licence, planSlot, tally⟩
  · obtain ⟨joined, held, gone, output, others, -⟩ := State.lineRoom_leaves (cause := cause) order two feeds hc pallet rfl
    refine ⟨_, rfl, output.trans ?_, joined, held, gone, others⟩
    have out := State.sendOutput_out (s := s.modHeld k fun _ => rest) (w := w) (c := .release) (.inl none)
    have waits : (s.released k w rest).alloc =
        ((s.modHeld k fun _ => rest).modWrapper w fun x => { x with output := some .release }).alloc := by
      by_cases mem : Holder.wrapOutput w ∈ s.ring.waiting
      · exact congrArg State.alloc (out.keeps mem)
      · unfold State.released
        rw [out.joins mem (.inr full)]
    rw [State.wrapper, waits]
    exact congrArg Wrapper.output (State.wrapperTo_modWrapper (s := s.modHeld k fun _ => rest) (w := w) fun x =>
      { x with output := some .release }).self

end Sys2Proof.Proofs
end

