-- ==== Sys2Proof/Proofs/Slice0/ModesRequested.lean ====
section
/-! GO, DRAIN, HALT and CLEAR_REJECT_ALL in each mode (R173 to R176, R180). -/

namespace Sys2Proof.Machine

open Sys2Proof

section
variable {s t u : State} {m : LineMode} {b : Bool} {i : Slot}

/-! ### The answers by the mode -/

theorem State.goRequest_of_run (mode : s.ctl.mode = .run ∨ s.ctl.mode = .degraded) : s.goRequest = s.modeAnswer s .ok none := by
  unfold State.goRequest
  rcases mode with mode | mode <;> simp only [mode]

theorem State.goRequest_of_isolated (mode : s.ctl.mode = .isolated) : s.goRequest = s.modeAnswer s .busy none := by
  unfold State.goRequest
  simp only [mode]

theorem State.goRequest_of_stop (mode : s.ctl.mode = .start ∨ s.ctl.mode = .stopped ∨ s.ctl.mode = .drain) :
    s.goRequest = s.enterRun.modeAnswer s .ok none := by
  unfold State.goRequest
  rcases mode with mode | mode | mode <;> simp only [mode]

theorem State.drainRequest_of_other (run : s.ctl.mode ≠ .run) (degraded : s.ctl.mode ≠ .degraded) :
    s.drainRequest = s.modeAnswer s .busy none := by
  unfold State.drainRequest
  cases mode : s.ctl.mode with
  | run => exact absurd mode run
  | degraded => exact absurd mode degraded
  | start | drain | stopped | isolated => rfl

theorem State.drainRequest_of_run (mode : s.ctl.mode = .run ∨ s.ctl.mode = .degraded) : s.drainRequest =
    (if s.noneOpen then s.enterStopped .drain else s.enterDrain).modeAnswer s .ok none := by
  unfold State.drainRequest
  rcases mode with mode | mode <;> simp only [mode]

theorem State.haltRequest_of_stop (mode : s.ctl.mode = .start ∨ s.ctl.mode = .stopped ∨ s.ctl.mode = .isolated) :
    s.haltRequest = s.modeAnswer s .busy (some 0) := by
  unfold State.haltRequest
  rcases mode with mode | mode | mode <;> simp only [mode]

theorem State.haltRequest_of_run (mode : s.ctl.mode = .run ∨ s.ctl.mode = .degraded ∨ s.ctl.mode = .drain) : s.haltRequest =
    ((s.enterStopped .halt).closeAll .halted .halt s.openSlots).modeAnswer s .ok (some s.openSlots.length) := by
  unfold State.haltRequest
  rcases mode with mode | mode | mode <;> simp only [mode]

theorem State.clearRejectRequest_of_stop (mode : s.ctl.mode = .start ∨ s.ctl.mode = .stopped ∨ s.ctl.mode = .isolated) :
    s.clearRejectRequest = s.modeAnswer s .busy none := by
  unfold State.clearRejectRequest
  rcases mode with mode | mode | mode <;> simp only [mode]

theorem State.clearRejectRequest_of_run (mode : s.ctl.mode = .run ∨ s.ctl.mode = .degraded ∨ s.ctl.mode = .drain) :
    s.clearRejectRequest = (if s.ctl.rejectAll then s.clearReject else s).modeAnswer s .ok none := by
  unfold State.clearRejectRequest
  rcases mode with mode | mode | mode <;> simp only [mode]

theorem State.noneOpen_iff : s.noneOpen = true ↔ ∀ i, s.ctx i = none := by
  unfold State.noneOpen State.openSlots
  rw [List.isEmpty_iff, List.filter_eq_nil_iff]
  exact ⟨fun free i => by simpa using free i (List.mem_finRange i), fun free i _ => by simp [free i]⟩

theorem State.mem_openSlots : i ∈ s.openSlots ↔ s.ctx i ≠ none := by
  unfold State.openSlots
  rw [List.mem_filter, Option.isSome_iff_ne_none]
  exact and_iff_right (List.mem_finRange i)

end

end Sys2Proof.Machine

namespace Sys2Proof.Proofs

open Sys2Proof Sys2Proof.Machine

section
variable {s : State} {src : Byte} {m : LineMode} {b : Bool}

/-- A change of mode taken with a request. -/
theorem enterMode_of_taken (x : LineMode) (reject : Bool) (cause : ModeCause) (ne : x ≠ .isolated) :
    ∃ u, u = (s.taken src).enterMode x reject cause ∧ u.ctl = { s.ctl with mode := x, rejectAll := reject }
      ∧ (∀ l : Lane, u.tracker.lanes[l].infeed = ((s.taken src).setMode x reject).wanted l)
      ∧ (∀ l, u.queue l = s.queue l) ∧ State.SameContexts [] s u ∧ State.Only [.ctl, .tracker, .ring, .mgmt] s u
      ∧ u = State.report (.mode ⟨s.ctl.mode, x, none, cause, s.holds.currency, s.holds.generation, s.holds.day, reject⟩)
          (State.infeedAll { s.taken src with ctl := u.ctl }) := by
  have taken := State.taken_only src s
  have ctl : (s.taken src).ctl = s.ctl := taken.ctl.resolve_left (by decide)
  have holds : (s.taken src).holds = s.holds := taken.holds.resolve_left (by decide)
  have tracker : (s.taken src).tracker = s.tracker := taken.tracker.resolve_left (by decide)
  obtain ⟨set, infeeds, queues, same, only, -, eq⟩ := State.enterMode_spec x reject cause (s.taken src) ne rfl
  rw [ctl] at set
  rw [ctl, holds] at eq
  refine ⟨_, rfl, set, infeeds, fun l => (queues l).trans (State.queue_of_tracker tracker l),
    fun i out => (same i out).trans (State.ctx_of_tracker tracker i), taken.first.next only, ?_⟩
  have state : (s.taken src).setMode x reject = { s.taken src with ctl := { s.ctl with mode := x, rejectAll := reject } } := by
    rw [← ctl]
    rfl
  rw [set, ← state]
  exact eq

theorem go_of_stop (mode : s.ctl.mode = m) (level : s.ctl.rejectAll = b) (takes : s.Takes src 0x60) (tag : Byte)
    (stop : m = .start ∨ m = .stopped ∨ m = .drain) : ∃ u n, n = (if s.holds.currency = .current then .run else .degraded)
      ∧ exec (.go src tag) s = .next (u.answered src 0x60 tag .ok (.mode m n b false none))
      ∧ u.ctl = { s.ctl with mode := n, rejectAll := false }
      ∧ (∀ l : Lane, u.tracker.lanes[l].infeed = if (s.queue l).length < 5 then .go else .stop)
      ∧ (∀ l, u.queue l = s.queue l) ∧ State.SameContexts [] s u
      ∧ State.Only [.ctl, .tracker, .ring, .mgmt] s u
      ∧ u = State.report (.mode ⟨m, n, none, .go, s.holds.currency, s.holds.generation, s.holds.day, false⟩)
        ((List.finRange 8).foldl (fun t l => t.sendInfeed l (t.wanted l)) { s.taken src with ctl := u.ctl }) := by
  have taken := State.taken_only src s
  have ctl : (s.taken src).ctl = s.ctl := taken.ctl.resolve_left (by decide)
  have tracker : (s.taken src).tracker = s.tracker := taken.tracker.resolve_left (by decide)
  have runs : (s.taken src).runMode = if s.holds.currency = .current then .run else .degraded := by
    unfold State.runMode
    rw [taken.holds.resolve_left (by decide)]
  obtain ⟨n, is⟩ : ∃ n : LineMode, n = if s.holds.currency = .current then .run else .degraded := ⟨_, rfl⟩
  have run : n = .run ∨ n = .degraded := by
    rw [is]
    split
    · exact .inl rfl
    · exact .inr rfl
  obtain ⟨u, entered, set, infeeds, queues, same, only, eq⟩ := enterMode_of_taken (s := s) (src := src) n false .go
    (by rcases run with rfl | rfl <;> decide)
  rw [mode] at eq
  refine ⟨u, n, is, ?_, set, fun l => ?_, queues, same, only, eq⟩
  · refine exec_of_serve takes rfl (fun _ => rfl) ?_
    show (s.taken src).goRequest = _
    rw [State.goRequest_of_stop (by rw [ctl, mode]; exact stop), State.enterRun_eq, runs, ← is, ← entered]
    unfold State.modeAnswer
    rw [set, ctl, mode, level]
  · have iff := State.wanted_go_iff (s := (s.taken src).setMode n false) (l := l)
    have queue : ((s.taken src).setMode n false).queue l = s.queue l := State.queue_of_tracker tracker l
    rw [queue, and_iff_left (by rcases run with rfl | rfl <;> simp [State.setMode, State.onCtl])] at iff
    rw [infeeds]
    split
    next room => exact iff.mpr room
    next full =>
      cases want : ((s.taken src).setMode n false).wanted l with
      | stop => rfl
      | go => exact absurd (iff.mp want) full

/-- A change to a mode that stops every infeed, taken with a request. -/
theorem stopMode_of_taken (x : LineMode) (reject : Bool) (cause : ModeCause) (stops : x = .stopped ∨ x = .drain) :
    ∃ u, u = (s.taken src).enterMode x reject cause ∧ u.ctl = { s.ctl with mode := x, rejectAll := reject }
      ∧ (∀ l : Lane, u.tracker.lanes[l].infeed = .stop) ∧ State.SameContexts [] s u
      ∧ State.Only [.ctl, .tracker, .ring, .mgmt] s u
      ∧ u = State.report (.mode ⟨s.ctl.mode, x, none, cause, s.holds.currency, s.holds.generation, s.holds.day, reject⟩)
          ((List.finRange 8).foldl (fun t l => t.sendInfeed l .stop) { s.taken src with ctl := u.ctl }) := by
  obtain ⟨u, entered, set, infeeds, -, same, only, eq⟩ := enterMode_of_taken (s := s) (src := src) x reject cause
    (by rcases stops with rfl | rfl <;> decide)
  have want : ∀ l, State.wanted { s.taken src with ctl := u.ctl } l = .stop :=
    State.wanted_stop_of_mode (s := { s.taken src with ctl := u.ctl }) (by
      show u.ctl.mode = .stopped ∨ u.ctl.mode = .drain
      rw [set]
      exact stops)
  rw [State.infeedAll_of_wanted want] at eq
  exact ⟨u, entered, set, fun l => (infeeds l).trans (State.wanted_stop_of_mode stops l), same, only, eq⟩

theorem halt_of_run (mode : s.ctl.mode = m) (level : s.ctl.rejectAll = b) (takes : s.Takes src 0x62) (tag : Byte)
    (run : m = .run ∨ m = .degraded ∨ m = .drain) : ∃ u : State, exec (.halt src tag) s =
        .next (u.answered src 0x62 tag .ok (.mode m .stopped b true
          (some (allSlots.filter fun i => (s.ctx i).isSome).length)))
      ∧ u.ctl = { s.ctl with mode := .stopped, rejectAll := true } ∧ (∀ i, u.ctx i = none)
      ∧ u.labels.log = s.labels.log ∧ ∀ l : Lane, u.tracker.lanes[l].infeed = .stop := by
  have taken := State.taken_only src s
  have ctl : (s.taken src).ctl = s.ctl := taken.ctl.resolve_left (by decide)
  have opened : (s.taken src).openSlots = s.openSlots := by
    unfold State.openSlots
    rw [show (s.taken src).ctx = s.ctx from funext fun i => State.ctx_of_tracker (taken.tracker.resolve_left (by decide)) i]
  obtain ⟨t, entered, set, infeeds, same, only, -⟩ := stopMode_of_taken (s := s) (src := src) .stopped true .halt (.inl rfl)
  obtain ⟨closed, log, -, stops⟩ := State.closeAll_spec .halted .halt s.openSlots t
  obtain ⟨kept, stop⟩ := stops (by rw [set])
  refine ⟨_, exec_of_serve takes rfl (fun _ => rfl) ?_, kept.trans set, fun i => closed i ?_, ?_, stop infeeds⟩
  · show (s.taken src).haltRequest = _
    rw [State.haltRequest_of_run (by rw [ctl, mode]; exact run), opened, State.enterStopped_eq, ← entered]
    unfold State.modeAnswer
    rw [kept, set, ctl, mode, level]
    rfl
  · by_cases free : s.ctx i = none
    · exact .inr ((same i (by simp)).trans free)
    · exact .inl (State.mem_openSlots.mpr free)
  · rw [log, only.labels.resolve_left (by decide)]

theorem drain_of_empty (mode : s.ctl.mode = m) (level : s.ctl.rejectAll = b) (takes : s.Takes src 0x61) (tag : Byte)
    (run : m = .run ∨ m = .degraded) (empty : ∀ i, s.ctx i = none) : ∃ u, exec (.drain src tag) s =
        .next (u.answered src 0x61 tag .ok (.mode m .stopped b true none))
      ∧ u.ctl = { s.ctl with mode := .stopped, rejectAll := true }
      ∧ (∀ l : Lane, u.tracker.lanes[l].infeed = .stop) ∧ State.Only [.ctl, .tracker, .ring, .mgmt] s u
      ∧ u = State.report (.mode ⟨m, .stopped, none, .drain, s.holds.currency, s.holds.generation, s.holds.day, true⟩)
        ((List.finRange 8).foldl (fun t l => t.sendInfeed l .stop) { s.taken src with ctl := u.ctl }) := by
  have taken := State.taken_only src s
  have ctl : (s.taken src).ctl = s.ctl := taken.ctl.resolve_left (by decide)
  have none : (s.taken src).noneOpen = true := State.noneOpen_iff.mpr fun i =>
    (State.ctx_of_tracker (taken.tracker.resolve_left (by decide)) i).trans (empty i)
  obtain ⟨u, entered, set, infeeds, -, only, eq⟩ := stopMode_of_taken (s := s) (src := src) .stopped true .drain (.inl rfl)
  rw [mode] at eq
  refine ⟨u, exec_of_serve takes rfl (fun _ => rfl) ?_, set, infeeds, only, eq⟩
  show (s.taken src).drainRequest = _
  rw [State.drainRequest_of_run (by rw [ctl, mode]; exact run), if_pos none, State.enterStopped_eq, ← entered]
  unfold State.modeAnswer
  rw [set, ctl, mode, level]

theorem drain_of_open {i : Slot} (mode : s.ctl.mode = m) (level : s.ctl.rejectAll = b) (takes : s.Takes src 0x61) (tag : Byte)
    (run : m = .run ∨ m = .degraded) (isOpen : s.ctx i ≠ none) : ∃ u, exec (.drain src tag) s =
        .next (u.answered src 0x61 tag .ok (.mode m .drain b b none))
      ∧ u.ctl = { s.ctl with mode := .drain } ∧ (∀ l : Lane, u.tracker.lanes[l].infeed = .stop)
      ∧ State.SameContexts [] s u ∧ State.Only [.ctl, .tracker, .ring, .mgmt] s u
      ∧ u = State.report (.mode ⟨m, .drain, none, .drain, s.holds.currency, s.holds.generation, s.holds.day, b⟩)
        ((List.finRange 8).foldl (fun t l => t.sendInfeed l .stop) { s.taken src with ctl := u.ctl }) := by
  have taken := State.taken_only src s
  have ctl : (s.taken src).ctl = s.ctl := taken.ctl.resolve_left (by decide)
  have some : ¬ (s.taken src).noneOpen = true := fun none => isOpen
    ((State.ctx_of_tracker (taken.tracker.resolve_left (by decide)) i).symm.trans (State.noneOpen_iff.mp none i))
  obtain ⟨u, entered, set, infeeds, same, only, eq⟩ := stopMode_of_taken (s := s) (src := src) .drain b .drain (.inr rfl)
  rw [mode] at eq
  have set' : u.ctl = { s.ctl with mode := .drain } := by rw [set, ← level]
  refine ⟨u, exec_of_serve takes rfl (fun _ => rfl) ?_, set', infeeds, same, only, eq⟩
  show (s.taken src).drainRequest = _
  rw [State.drainRequest_of_run (by rw [ctl, mode]; exact run), if_neg some, State.enterDrain_eq, ctl, level, ← entered]
  unfold State.modeAnswer
  rw [set, ctl, mode, level]

theorem clearRejectAll_of_run (mode : s.ctl.mode = m) (takes : s.Takes src 0x64) (tag : Byte)
    (run : m = .run ∨ m = .degraded ∨ m = .drain) (level : s.ctl.rejectAll = true) : ∃ u, exec (.clearRejectAll src tag) s =
        .next (u.answered src 0x64 tag .ok (.mode m m true false none))
      ∧ u.ctl = { s.ctl with rejectAll := false } ∧ State.Only [.ctl, .ring, .mgmt] s u := by
  have taken := State.taken_only src s
  have ctl : (s.taken src).ctl = s.ctl := taken.ctl.resolve_left (by decide)
  have only : State.Only [.ctl, .ring, .mgmt] (s.taken src) (s.taken src).clearReject :=
    (State.onCtl_only _ _).first.next (State.report_only _ _)
  have set : (s.taken src).clearReject.ctl = { s.ctl with rejectAll := false } := by
    rw [← ctl]
    exact (State.report_only _ _).ctl.resolve_left (by decide)
  refine ⟨_, exec_of_serve takes rfl (fun _ => rfl) ?_, set, taken.first.next only⟩
  show (s.taken src).clearRejectRequest = _
  rw [State.clearRejectRequest_of_run (by rw [ctl, mode]; exact run), if_pos (by rw [ctl]; exact level)]
  unfold State.modeAnswer
  rw [set, ctl, mode, level]

end

/-- Settles O58, by the mode each request is taken in. -/
theorem modeRequests : Obligations.ModeRequests := by
  refine ⟨fun s l => ⟨State.wanted_go_iff, State.infeedDecision_of_same, State.infeedDecision_of_other,
    fun c => ⟨State.sendInfeed_of_last, State.sendInfeed_out⟩⟩, fun s src tag m b mode level => ?_⟩
  have ctl : (s.taken src).ctl = s.ctl := (State.taken_only src s).ctl.resolve_left (by decide)
  have answer (x : Status) (closed : Option Nat) :
      (s.taken src).modeAnswer (s.taken src) x closed = ⟨s.taken src, x, .mode m m b b closed⟩ := by
    unfold State.modeAnswer
    rw [ctl, mode, level]
  refine ⟨fun takes => ⟨fun run => ?_, fun isolated => ?_, go_of_stop mode level takes tag⟩,
    fun takes => ⟨fun run degraded => ?_, drain_of_empty mode level takes tag,
      fun i run isOpen => drain_of_open mode level takes tag run isOpen⟩,
    fun takes => ⟨fun stop => ?_, halt_of_run mode level takes tag⟩,
    fun takes => ⟨fun stop => ?_, fun run off => ?_, fun run on => ?_⟩⟩
  · refine exec_of_serve takes rfl (fun _ => rfl) ((State.goRequest_of_run ?_).trans (answer _ _))
    rw [ctl, mode]
    exact run
  · refine exec_of_serve takes rfl (fun _ => rfl) ((State.goRequest_of_isolated ?_).trans (answer _ _))
    rw [ctl, mode]
    exact isolated
  · refine exec_of_serve takes rfl (fun _ => rfl) ((State.drainRequest_of_other ?_ ?_).trans (answer _ _))
    · rw [ctl, mode]
      exact run
    · rw [ctl, mode]
      exact degraded
  · refine exec_of_serve takes rfl (fun _ => rfl) ((State.haltRequest_of_stop ?_).trans (answer _ _))
    rw [ctl, mode]
    exact stop
  · refine exec_of_serve takes rfl (fun _ => rfl) ((State.clearRejectRequest_of_stop ?_).trans (answer _ _))
    rw [ctl, mode]
    exact stop
  · refine exec_of_serve takes rfl (fun _ => rfl) ((State.clearRejectRequest_of_run ?_).trans ?_)
    · rw [ctl, mode]
      exact run
    · rw [if_neg (by rw [ctl, level, off]; decide), answer, off]
  · exact clearRejectAll_of_run mode takes tag run (level.trans on)

end Sys2Proof.Proofs
end

