-- ==== Sys2Proof/Proofs/Slice0/Restarts.lean ====
section
/-! RESTART (R177): what is sent after the blocks are cleared leaves what they were cleared to, and goes out behind the
reply. -/

namespace Sys2Proof.Machine

open Sys2Proof

section
variable {s t u : State} {w : WrapperNo}

/-! ### Emissions join the tail of the origin queue (R156) -/

/-- What is sent joins the tail of the origin queue, and nothing is forwarded. -/
structure State.Sends (s t : State) : Prop where
  forward  : t.ring.forward = s.ring.forward
  run      : t.ring.run = s.ring.run
  overload : t.ring.overload = s.ring.overload
  origin   : s.ring.origin <+: t.ring.origin

theorem State.Sends.refl (s : State) : s.Sends s := ⟨rfl, rfl, rfl, List.prefix_rfl⟩

theorem State.Sends.trans (h : s.Sends t) (k : t.Sends u) : s.Sends u :=
  ⟨k.forward.trans h.forward, k.run.trans h.run, k.overload.trans h.overload, h.origin.trans k.origin⟩

theorem State.Sends.of_ring (same : t.ring = s.ring) : s.Sends t := by
  refine ⟨?_, ?_, ?_, ?_⟩ <;> rw [same]

theorem State.Sends.ite {p : Prop} [Decidable p] (h : s.Sends t) (k : s.Sends u) : s.Sends (if p then t else u) := by
  split
  · exact h
  · exact k

theorem State.Only.sends {bs : List Block} (h : State.Only bs s t) (out : Block.ring ∉ bs := by decide) : s.Sends t :=
  .of_ring (h.ring.resolve_left out)

theorem State.take_sends (h : Holder) (s : State) : s.Sends (s.take h).2 := by
  cases h with
  | closure id =>
    simp only [State.take]
    split
    · exact ⟨rfl, rfl, rfl, List.prefix_rfl⟩
    · exact .refl s
  | context i =>
    simp only [State.take]
    split
    · exact .of_ring rfl
    · exact .refl s
  | infeed l =>
    simp only [State.take]
    split
    · split
      · exact .of_ring rfl
      · exact .of_ring rfl
    · exact .refl s
  | car =>
    simp only [State.take]
    split
    · exact .of_ring rfl
    · exact .refl s
  | wrapOrder w =>
    simp only [State.take]
    split
    · exact .of_ring rfl
    · exact .refl s
  | wrapOutput w =>
    simp only [State.take]
    split
    · split
      · exact .of_ring rfl
      · exact .of_ring rfl
    · exact .refl s
  | replies =>
    simp only [State.take]
    split
    · exact .of_ring rfl
    · exact .refl s
  | reports =>
    simp only [State.take]
    split
    next r rest _ =>
      exact .trans (t := s.onMgmt fun m => { m with reports := rest }) (.of_ring rfl) (State.takeReport_only _ _ _).sends
    next => exact .refl s
  | escapes =>
    simp only [State.take]
    split
    next e rest _ =>
      have taken : s.Sends ((s.onHolds fun h => { h with escapes := rest }).takeReport 3 (e.fields s.holds.escapeLost)).2 :=
        .trans (t := s.onHolds fun h => { h with escapes := rest }) (.of_ring rfl) (State.takeReport_only _ _ _).sends
      exact .ite (taken.trans (.of_ring rfl)) taken
    next => exact .refl s

theorem State.giveOne_sends (h : Holder) (s : State) : s.Sends (s.giveOne h) := by
  have taken := State.take_sends h s
  unfold State.giveOne
  split
  next e =>
    rw [e] at taken
    exact taken.trans ⟨rfl, rfl, rfl, List.prefix_append _ _⟩
  next e =>
    rw [e] at taken
    exact taken

theorem State.giveMany_sends (n : Nat) (h : Holder) (s : State) : s.Sends (State.giveMany n h s) := by
  induction n generalizing s with
  | zero => exact .refl s
  | succ n ih => exact .ite ((State.giveOne_sends h s).trans (ih _)) (.refl s)

theorem State.offer_sends (h : Holder) (s : State) : s.Sends (s.offer h) := by
  obtain ⟨n, eq | eq⟩ := State.offer_cases h s
  · rw [eq]
    exact State.giveMany_sends n h s
  · rw [eq]
    exact (State.giveMany_sends n h s).trans ⟨rfl, rfl, rfl, List.prefix_rfl⟩

theorem State.prune_sends (h : Holder) (s : State) : s.Sends (s.prune h) :=
  .ite (.refl s) ⟨rfl, rfl, rfl, List.prefix_rfl⟩

theorem State.report_sends (r : Report) (s : State) : s.Sends (s.report r) := by
  unfold State.report
  split
  · exact (State.onMgmt_only _ s).sends.trans (State.offer_sends _ _)
  · exact .of_ring rfl

theorem State.sendInfeed_sends (l : Lane) (c : InfeedCmd) (s : State) : s.Sends (s.sendInfeed l c) := by
  unfold State.sendInfeed
  dsimp only
  split
  · exact (State.modLane_only l _ s).sends.trans (State.prune_sends _ _)
  · exact (State.modLane_only l _ s).sends.trans (State.offer_sends _ _)

theorem State.infeedAll_sends (s : State) : s.Sends s.infeedAll := by
  unfold State.infeedAll
  generalize allLanes = ls
  induction ls generalizing s with
  | nil => exact .refl s
  | cons l ls ih => exact (State.sendInfeed_sends _ _ _).trans (ih _)

theorem State.setWrapper_sends (w : WrapperNo) (cause : Config.UnitCause) (f : Wrapper → Wrapper) (s : State) :
    s.Sends (s.setWrapper w cause f) :=
  .ite (State.modWrapper_only _ _ _).sends ((State.modWrapper_only _ _ _).sends.trans (State.report_sends _ _))

theorem State.orphanWrapper_sends (w : WrapperNo) (cause : Config.UnitCause) (s : State) : s.Sends (s.orphanWrapper w cause) := by
  have dropped : s.Sends ((s.modHeld (lineOfWrapper w) fun l => l.erase w).dropWrapOrder w) :=
    State.Sends.trans (t := (s.modHeld (lineOfWrapper w) fun l => l.erase w).modWrapper w fun x => { x with wrapOrder := none })
      (.of_ring rfl) (State.prune_sends _ _)
  exact dropped.trans (State.setWrapper_sends _ _ _ _)

theorem State.setCar_sends (cause : Config.UnitCause) (f : Car → Car) (s : State) : s.Sends (s.setCar cause f) :=
  .ite (State.modCar_only _ _).sends ((State.modCar_only _ _).sends.trans (State.report_sends _ _))

theorem State.sendCarMove_sends (m : CarMove) (s : State) : s.Sends (s.sendCarMove m) :=
  (State.modCar_only _ s).sends.trans (State.offer_sends _ _)

/-! ### The wrappers that held a context (R114) -/

/-- A wrapper that holds a context. -/
def Wrapper.holdsContext (x : Wrapper) : Bool :=
  match x.pallet with
  | .context _ => true
  | _ => false

theorem Wrapper.holdsContext_iff {x : Wrapper} : x.holdsContext = true ↔ ∃ id, x.pallet = .context id := by
  unfold Wrapper.holdsContext
  split
  next id pallet => exact ⟨fun _ => ⟨id, pallet⟩, fun _ => rfl⟩
  next other => exact ⟨nofun, fun ⟨id, pallet⟩ => absurd pallet (other id)⟩

/-- One wrapper takes the effects of R111 if it held a context. -/
def State.orphanHolder (s : State) (w : WrapperNo) : State :=
  if (s.wrapper w).holdsContext then s.orphanWrapper w .restart else s

theorem State.orphanWrappers_eq (s : State) : s.orphanWrappers = allWrappers.foldl State.orphanHolder s := by
  unfold State.orphanWrappers
  congr 1
  funext t w
  unfold State.orphanHolder Wrapper.holdsContext
  cases (t.wrapper w).pallet <;> rfl

theorem State.orphanHolders_spec (ws : List WrapperNo) (s : State) :
    let t := ws.foldl State.orphanHolder s
    (∀ v, t.wrapper v = if v ∈ ws ∧ (s.wrapper v).holdsContext = true then (s.wrapper v).orphaned else s.wrapper v)
      ∧ t.alloc.car = s.alloc.car ∧ t.alloc.spur = s.alloc.spur ∧ State.Only [.alloc, .ring, .mgmt] s t ∧ s.Sends t := by
  induction ws generalizing s with
  | nil => exact ⟨fun v => (if_neg (by simp)).symm, rfl, rfl, .refl _ _, .refl _⟩
  | cons w ws ih =>
    dsimp only at ih ⊢
    rw [List.foldl_cons]
    by_cases holds : (s.wrapper w).holdsContext = true
    · have eq : s.orphanHolder w = s.orphanWrapper w .restart := if_pos holds
      rw [eq]
      obtain ⟨self, others, car, spur, -, -, only⟩ := State.orphanWrapper_spec w .restart s
      obtain ⟨wrappers, cars, spurs, reached, sends⟩ := ih (s.orphanWrapper w .restart)
      refine ⟨fun v => ?_, cars.trans car, spurs.trans spur, only.trans reached,
        (State.orphanWrapper_sends _ _ _).trans sends⟩
      rw [wrappers]
      by_cases e : v = w
      · subst e
        rw [self, if_neg (fun both => by cases both.2), if_pos ⟨.head _, holds⟩]
      · rw [others v e]
        exact if_congr (by simp [e]) rfl rfl
    · have eq : s.orphanHolder w = s := if_neg holds
      rw [eq]
      obtain ⟨wrappers, cars, spurs, reached, sends⟩ := ih s
      refine ⟨fun v => ?_, cars, spurs, reached, sends⟩
      rw [wrappers]
      by_cases e : v = w
      · subst e
        rw [if_neg (fun both => holds both.2), if_neg (fun both => holds both.2)]
      · exact if_congr (by simp [e]) rfl rfl

/-! ### The recovery move (R104) -/

/-- With no context as its cargo, a recovery move leaves all but the car's record. -/
theorem State.restartRecovery_spec (n : Nat) (cargo : ∀ id, s.alloc.car.cargo ≠ .context id)
    (recovered : s.restartRecovery n = u) : State.Only [.alloc, .ring, .mgmt] s u ∧ s.Sends u
      ∧ (∀ v, u.wrapper v = s.wrapper v) ∧ u.alloc.spur = s.alloc.spur ∧ u.alloc.car.cargo = s.alloc.car.cargo := by
  have moves : u = s ∨ ∃ m, u = (s.setCar .restart Car.recovering).sendCarMove m := by
    rw [← recovered]
    unfold State.restartRecovery
    split
    · unfold State.recover
      dsimp only
      split
      · split
        next id carried => exact absurd carried (cargo id)
        next => exact .inr ⟨_, rfl⟩
      · exact .inl rfl
    · exact .inl rfl
  obtain rfl | ⟨m, rfl⟩ := moves
  · exact ⟨.refl _ _, .refl _, fun _ => rfl, rfl, rfl⟩
  · obtain ⟨o, alloc⟩ := State.sendCarMove_car m (s.setCar .restart Car.recovering)
    rw [State.setCar_alloc] at alloc
    refine ⟨(State.setCar_only _ _ _).next (State.sendCarMove_only _ _),
      (State.setCar_sends _ _ _).trans (State.sendCarMove_sends _ _),
      fun v => (State.sendCarMove_wrapper _ _ v).trans (State.setCar_wrapper _ _ _ v), by rw [alloc], by rw [alloc]; rfl⟩

/-! ### The escape queue (R37) -/

/-- The hold register but for the escape reports that wait. -/
def HoldRegister.quiet (h : HoldRegister) : HoldRegister := { h with escapes := [], escapeLost := false }

theorem State.offerEscapes_quiet (s : State) : (s.offer .escapes).holds.quiet = s.holds.quiet := by
  refine State.offer_keeps (fun u => u.holds.quiet) .escapes (fun u => ?_) (fun _ _ => rfl) s
  simp only [State.take]
  split
  next e rest _ =>
    have kept := (State.takeReport_only 3 (e.fields u.holds.escapeLost) (u.onHolds fun h => { h with escapes := rest })).holds
    have quiet : ((u.onHolds fun h => { h with escapes := rest }).takeReport 3 (e.fields u.holds.escapeLost)).2.holds.quiet =
        u.holds.quiet := (congrArg HoldRegister.quiet (kept.resolve_left (by decide))).trans rfl
    split
    · exact quiet
    · exact quiet
  next => rfl

end

end Sys2Proof.Machine

namespace Sys2Proof.Proofs

open Sys2Proof Sys2Proof.Machine

/-- What the blocks hold after RESTART, but for what is sent and reported. -/
structure Restarted (s t : State) : Prop where
  slots    : ∀ i, t.ctx i = none
  queues   : ∀ l, t.queue l = []
  nextAdm  : t.tracker.nextAdm = 1
  refs     : t.refs = s.restartBlocks.refs
  holds    : t.holds.quiet = s.restartBlocks.holds.quiet
  recon    : t.recon = s.restartBlocks.recon
  composer : t.composer = s.restartBlocks.composer
  labels   : t.labels = s.restartBlocks.labels
  watch    : t.watch = s.watch
  ctl      : t.ctl = s.restartBlocks.ctl

theorem restarted_blocks (s : State) : Restarted s s.restartBlocks where
  slots i := by simp [State.restartBlocks, State.ctx]
  queues l := by simp [State.restartBlocks, State.queue]
  nextAdm := rfl
  refs := rfl
  holds := rfl
  recon := rfl
  composer := rfl
  labels := rfl
  watch := rfl
  ctl := rfl

/-- What leaves the tracking of the pallets alone keeps the rest of RESTART too. -/
theorem Restarted.next {s t u : State} (h : Restarted s t) (only : State.Only [.tracker, .alloc, .ring, .mgmt] t u)
    (tracks : State.Tracks [] t u) : Restarted s u where
  slots i := by
    have core := tracks.cores i (by simp)
    unfold State.core at core
    rw [h.slots i] at core
    exact Option.map_eq_none_iff.mp core
  queues l := (tracks.queues l).trans (h.queues l)
  nextAdm := tracks.nextAdm.trans h.nextAdm
  refs := (only.refs.resolve_left (by decide)).trans h.refs
  holds := (congrArg HoldRegister.quiet (only.holds.resolve_left (by decide))).trans h.holds
  recon := (only.recon.resolve_left (by decide)).trans h.recon
  composer := (only.composer.resolve_left (by decide)).trans h.composer
  labels := (only.labels.resolve_left (by decide)).trans h.labels
  watch := (only.watch.resolve_left (by decide)).trans h.watch
  ctl := (only.ctl.resolve_left (by decide)).trans h.ctl

/-- The reply to a RESTART. -/
def restartReply (s : State) (src tag : Byte) : State :=
  s.restartBlocks.answered src 0x63 tag .ok (.mode s.ctl.mode .start s.ctl.rejectAll true none)

/-- The fields of a mode request's reply after which the line is in START. -/
theorem modeFields_start (m : LineMode) (level : Bool) :
    (Result.mode m .start level true none).fields.flatten = [BitVec.ofNat 8 m.code, 1, if level then 1 else 2, 1] := by
  cases level <;> simp [Result.fields, levelField, yesNo, u8, LineMode.code]

/-- A mode request's reply is of one part. -/
theorem modeReply_parts {m : LineMode} {level : Bool} {y : Reply} (mode : y.result = .mode m .start level true none) :
    y.parts = 1 := by
  have length : y.result.fields.flatten.length = 4 := by rw [mode, modeFields_start]; rfl
  unfold Reply.parts
  rw [length]
  decide

/-- The reply of RESTART as a telegram. -/
theorem restartTelegram (src tag own : Byte) (m : LineMode) (level : Bool) :
    ((⟨src, 0x63, tag, .ok, .mode m .start level true none, 0⟩ : Reply).at 0).telegram own
      = ⟨src, own, 0x31, [0x63, tag, 0, 1, 1, BitVec.ofNat 8 m.code, 1, if level then 1 else 2, 1]⟩ := by
  simp only [Reply.telegram, Reply.at, modeFields_start,
    modeReply_parts (y := ⟨src, 0x63, tag, .ok, .mode m .start level true none, 0⟩) rfl]
  rfl

theorem restartReply_origin (s : State) (src tag : Byte) : State.Only [.ring, .mgmt] s.restartBlocks (restartReply s src tag)
    ∧ (restartReply s src tag).ring.forward = [] ∧ (restartReply s src tag).ring.run = 0
    ∧ (restartReply s src tag).ring.overload = none
    ∧ (restartReply s src tag).ring.origin = [⟨src, s.ownAddress, 0x31, [0x63, tag, 0, 1, 1,
        BitVec.ofNat 8 s.ctl.mode.code, 1, if s.ctl.rejectAll then 1 else 2, 1]⟩] := by
  obtain ⟨y, formed⟩ : ∃ y : Reply, y = ⟨src, 0x63, tag, .ok, .mode s.ctl.mode .start s.ctl.rejectAll true none, 0⟩ := ⟨_, rfl⟩
  have parts : y.parts = 1 := modeReply_parts (congrArg Reply.result formed)
  have room : s.restartBlocks.ring.origin.length + y.parts ≤ 32 := by
    rw [parts]
    show (0 : Nat) + 1 ≤ 32
    decide
  obtain ⟨ring, -⟩ := (State.answered_of_free (s := s.restartBlocks) (dst := src) (code := 0x63) (tag := tag) (x := .ok)
    (r := .mode s.ctl.mode .start s.ctl.rejectAll true none) rfl rfl formed).1 room
  have eq : (restartReply s src tag).ring = _ := ring
  rw [eq, parts]
  refine ⟨State.reply_only _ _, rfl, rfl, rfl, ?_⟩
  subst formed
  exact congrArg (fun t => [t]) (restartTelegram src tag s.ownAddress s.ctl.mode s.ctl.rejectAll)

/-- What RESTART leaves of the state it is taken in. -/
theorem restart_spec (s : State) (src tag : Byte) : ∃ u, s.restart src tag = u ∧ Restarted s u
    ∧ (∀ l : Lane, u.tracker.lanes[l].infeed = .stop) ∧ (restartReply s src tag).Sends u
    ∧ u.alloc.spur = s.alloc.spur ∧ u.alloc.car.cargo = s.alloc.car.cargo.orphaned
    ∧ ∀ v, u.wrapper v = if (s.wrapper v).holdsContext = true then { (s.wrapper v).orphaned with output := none }
        else { s.wrapper v with wrapOrder := none, output := none } := by
  obtain ⟨a, replied⟩ : ∃ a, restartReply s src tag = a := ⟨_, rfl⟩
  have replying : State.Only [.ring, .mgmt] s.restartBlocks a := replied ▸ (restartReply_origin s src tag).1
  obtain ⟨b, reported⟩ : ∃ b, a.infeedAll.modeReport .restart s.ctl.mode = b := ⟨_, rfl⟩
  have reporting : State.Only [.ring, .mgmt] a.infeedAll b := reported ▸ State.report_only _ _
  have infeeding := State.infeedAll_only a
  obtain ⟨wrappers, car, spur, orphaning, orphan_sends⟩ := State.orphanHolders_spec allWrappers b
  rw [← State.orphanWrappers_eq] at wrappers car spur orphaning orphan_sends
  have eq : s.restart src tag = (b.orphanWrappers.restartRecovery s.ticketing).offer .escapes := by
    rw [← reported, ← replied]
    rfl
  have alloc_b : b.alloc = s.restartBlocks.alloc := ((reporting.alloc.resolve_left (by decide)).trans
    (infeeding.alloc.resolve_left (by decide))).trans (replying.alloc.resolve_left (by decide))
  have cargo_b : b.alloc.car.cargo = s.alloc.car.cargo.orphaned := by rw [alloc_b]; rfl
  obtain ⟨x, recovered⟩ : ∃ x, b.orphanWrappers.restartRecovery s.ticketing = x := ⟨_, rfl⟩
  obtain ⟨recovering, recover_sends, same, spur_x, cargo_x⟩ := State.restartRecovery_spec s.ticketing
    (fun id carried => by
      rw [car, cargo_b] at carried
      cases held : s.alloc.car.cargo <;> rw [held] at carried <;> cases carried) recovered
  have offering := State.offer_only .escapes x
  have alloc_u : (x.offer .escapes).alloc = x.alloc := offering.alloc.resolve_left (by decide)
  have tracker : (x.offer .escapes).tracker = b.tracker := ((offering.tracker.resolve_left (by decide)).trans
    (recovering.tracker.resolve_left (by decide))).trans (orphaning.tracker.resolve_left (by decide))
  have wrapper_b (v : WrapperNo) : b.wrapper v = { s.wrapper v with wrapOrder := none, output := none } := by
    rw [State.wrapper, alloc_b]
    simp [State.restartBlocks, State.wrapper]
  have restarted : Restarted s x :=
    ((((restarted_blocks s).next replying.first replying.tracks).next infeeding.first (State.infeedAll_tracks a)).next
      (reporting.first.next orphaning |>.next recovering)
      ((reporting.tracks.next orphaning.tracks (List.Subset.refl _)).next recovering.tracks (List.Subset.refl _)))
  rw [eq, recovered]
  refine ⟨_, rfl, ?_, fun l => ?_, ?_, ?_, ?_, fun v => ?_⟩
  · exact {
      slots := fun i => (State.ctx_of_tracker (offering.tracker.resolve_left (by decide)) i).trans (restarted.slots i)
      queues := fun l => (State.queue_of_tracker (offering.tracker.resolve_left (by decide)) l).trans (restarted.queues l)
      nextAdm := (congrArg Tracker.nextAdm (offering.tracker.resolve_left (by decide))).trans restarted.nextAdm
      refs := (offering.refs.resolve_left (by decide)).trans restarted.refs
      holds := (State.offerEscapes_quiet x).trans restarted.holds
      recon := (offering.recon.resolve_left (by decide)).trans restarted.recon
      composer := (offering.composer.resolve_left (by decide)).trans restarted.composer
      labels := (offering.labels.resolve_left (by decide)).trans restarted.labels
      watch := (offering.watch.resolve_left (by decide)).trans restarted.watch
      ctl := (offering.ctl.resolve_left (by decide)).trans restarted.ctl }
  · rw [tracker, reporting.tracker.resolve_left (by decide), State.infeedAll_infeed]
    cases want : a.wanted l with
    | stop => rfl
    | go =>
      have mode : a.ctl.mode = .start := congrArg ModeControl.mode (replying.ctl.resolve_left (by decide))
      obtain ⟨-, run⟩ := State.wanted_go_iff.mp want
      simp [mode] at run
  · have reports : a.infeedAll.Sends b := reported ▸ State.report_sends _ _
    rw [replied]
    exact ((((State.infeedAll_sends a).trans reports).trans orphan_sends).trans recover_sends).trans (State.offer_sends _ _)
  · rw [alloc_u, spur_x, spur, alloc_b]
    rfl
  · rw [alloc_u, cargo_x, car, cargo_b]
  · rw [State.wrapper, alloc_u]
    refine (same v).trans ((wrappers v).trans ?_)
    rw [wrapper_b]
    simp only [allWrappers, List.mem_finRange, true_and]
    rfl

/-- Settles O59, from the blocks as they are cleared and what is sent after it. -/
theorem restart : Obligations.Restart := by
  intro s src tag takes
  have taken := State.taken_only src s
  have takes' : exec (.restart src tag) s = .next ((s.taken src).restart src tag) :=
    congrArg Host.Outcome.next (State.request_of_takes takes (.restart src tag) tag)
  obtain ⟨u, eq, restarted, infeeds, sends, spur, cargo, wrappers⟩ := restart_spec (s.taken src) src tag
  obtain ⟨-, forward, run, overload, origin⟩ := restartReply_origin (s.taken src) src tag
  have refs : (s.taken src).refs = s.refs := taken.refs.resolve_left (by decide)
  have holds : (s.taken src).holds = s.holds := taken.holds.resolve_left (by decide)
  have recon : (s.taken src).recon = s.recon := taken.recon.resolve_left (by decide)
  have alloc : (s.taken src).alloc = s.alloc := taken.alloc.resolve_left (by decide)
  have composer : (s.taken src).composer = s.composer := taken.composer.resolve_left (by decide)
  have labels : (s.taken src).labels = s.labels := taken.labels.resolve_left (by decide)
  have watch : (s.taken src).watch = s.watch := taken.watch.resolve_left (by decide)
  have ctl : (s.taken src).ctl = s.ctl := taken.ctl.resolve_left (by decide)
  have wrapper (v : WrapperNo) : (s.taken src).wrapper v = s.wrapper v := by rw [State.wrapper, alloc]; rfl
  have quiet {α : Type} (f : HoldRegister → α) (blind : ∀ h, f h.quiet = f h) :
      f u.holds = f (s.taken src).restartBlocks.holds := by rw [← blind, restarted.holds, blind]
  have own : (s.taken src).ownAddress = s.ownAddress := by unfold State.ownAddress; rw [ctl]
  refine ⟨u, by rw [takes', eq], restarted.slots, restarted.nextAdm, fun l => ⟨restarted.queues l, infeeds l⟩, ?_, ?_, ?_, ?_,
    ?_, ?_, ?_, ?_, quiet (·.currency) fun _ => rfl, quiet (·.window) fun _ => rfl, ?_, fun l => ?_, fun carried => ?_, ?_,
    fun w id held => ?_, fun w free => ?_, ?_, ?_, ?_, ?_, ?_, fun k => ?_, ?_, ?_, ?_, ?_, ?_, ?_, ?_, ?_⟩
  · rw [restarted.ctl, ← ctl]
    rfl
  · rw [restarted.refs, ← refs]
    rfl
  · rw [restarted.refs, ← refs]
    rfl
  · rw [restarted.refs, ← refs]
    rfl
  · rw [restarted.refs, ← refs]
    rfl
  · exact (quiet (·.list) fun _ => rfl).trans (congrArg (·.list) holds)
  · exact (quiet (·.generation) fun _ => rfl).trans (congrArg (·.generation) holds)
  · exact (quiet (·.day) fun _ => rfl).trans (congrArg (·.day) holds)
  · rw [restarted.recon]
    rfl
  · rw [State.scale, restarted.recon, State.scale, ← recon]
    rfl
  · rw [cargo, alloc]
    cases held : s.alloc.car.cargo with
    | none => exact absurd held carried
    | context id => rfl
    | orphan => rfl
  · rw [spur, alloc]
  · rw [wrappers, if_pos (by rw [wrapper]; exact Wrapper.holdsContext_iff.mpr ⟨id, held⟩)]
    exact ⟨rfl, rfl⟩
  · rw [wrappers, if_neg (fun holds => by
      rw [wrapper] at holds
      obtain ⟨id, held⟩ := Wrapper.holdsContext_iff.mp holds
      exact free id held), wrapper]
  · rw [restarted.composer, ← composer]
    rfl
  · rw [restarted.composer, ← composer]
    rfl
  · rw [restarted.composer]
    rfl
  · rw [restarted.composer]
    rfl
  · rw [restarted.composer]
    rfl
  · rw [State.line, restarted.labels]
    simp [State.restartBlocks]
  · rw [restarted.labels]
    rfl
  · rw [restarted.labels, ← labels]
    rfl
  · rw [restarted.labels, ← labels]
    rfl
  · rw [sends.forward, forward]
  · rw [sends.run, run]
  · rw [sends.overload, overload]
  · rw [restarted.watch, watch]
  · obtain ⟨rest, grown⟩ := sends.origin
    rw [← grown, origin, own, ctl]
    rfl

end Sys2Proof.Proofs
end

