-- ==== Sys2Proof/Proofs/Slice0/LabelRoutes.lean ====
section
/-! The route of a labelled pallet (R142), and the withdrawal of its job before it (R138). -/

namespace Sys2Proof.Machine

open Sys2Proof

section
variable {s : State} {dst : RoleInst} {keep : Bool} {i j : Slot} {c : Context} {k : LineNo}

/-! ### The job of a context -/

/-- The kind and the serial of a context's outstanding job. -/
def Context.errand (c : Context) : Option (LabelKind × Nat) := c.job.map fun j => (j.kind, j.serial)

theorem Context.errand_eq_none {c : Context} : c.errand = none ↔ c.job = none := Option.map_eq_none_iff

theorem Context.errand_segmentPlaced (c : Context) (o : Order) : (c.segmentPlaced o).errand = c.errand := by
  unfold Context.segmentPlaced
  split
  · split
    · rfl
    · unfold Context.errand
      rw [Option.map_map]
      refine Option.map_congr fun j _ => ?_
      dsimp only [Function.comp]
      split <;> rfl
  · rfl

/-- What a holder gives may move a job on, but not make it another. -/
theorem State.sameErrand_offer (i : Slot) (s : State) : s.SameOf Context.errand (s.offer (.context i)) := fun j => by
  refine State.offer_keeps (fun t => (t.ctx j).map Context.errand) (.context i) (fun t => ?_) (fun _ _ => rfl) s
  simp only [State.take]
  split
  next o rest _ => exact State.sameOf_modCtx (fun c => Context.errand_segmentPlaced { c with orders := rest } o) j
  · rfl

theorem State.sameErrand_sendOrders (i : Slot) (os : List Order) (s : State) :
    s.SameOf Context.errand (s.sendOrders i os) := by
  have joined : s.SameOf Context.errand (s.modCtx i fun c => { c with orders := c.orders ++ os }) :=
    State.sameOf_modCtx fun _ => rfl
  exact joined.trans (State.sameErrand_offer i _)

/-- The open context of a slot in two states of which a record is read alike. -/
theorem State.SameOf.ctx {α : Type} {f : Context → α} {t : State} (h : s.SameOf f t) (hc : s.ctx i = some c) :
    ∃ d, t.ctx i = some d ∧ f d = f c :=
  Option.map_eq_some_iff.mp ((h i).trans (congrArg _ hc))

/-- A job started changes no other context. -/
theorem State.startJob_same (ne : j ≠ i) : (s.startJob dst i).ctx j = s.ctx j := by
  unfold State.startJob
  split
  · rw [State.sendOrders_ctx_of_ne ne.symm, State.ctx_modCtx_of_ne ne.symm]
  · rfl

/-- The jobs of a line change no context but those not labelled yet. -/
theorem State.startJobs_same (out : i ∉ s.unlabelled k) : (s.startJobs k).ctx i = s.ctx i := by
  unfold State.startJobs
  split
  · rfl
  next j rest waits =>
    rw [waits] at out
    have first : (if (s.ctx j).any Context.startable then s.startJob (.labelApplicator k) j else s).ctx i = s.ctx i := by
      split
      · exact State.startJob_same fun e => out (by simp [e])
      · rfl
    dsimp only
    generalize (if (s.ctx j).any Context.startable then s.startJob (.labelApplicator k) j else s) = t at first
    split
    next x _ =>
      have second : (t.startJob (.labelApplicator k) x).ctx i = t.ctx i := State.startJob_same fun e => out (by simp [e])
      split
      · exact second.trans first
      · exact first
    next => exact first

/-- A context past its labelling is not among the unlabelled ones of a line. -/
theorem State.not_mem_unlabelled (hc : s.ctx i = some c) (queued : c.phase ≠ .queuedLabel) (labelling : c.phase ≠ .labelling) :
    i ∉ s.unlabelled k := by
  simp [State.unlabelled, hc, queued, labelling]

/-! ### The withdrawal and the route -/

/-- A withdrawal leaves no job, and nothing else that the tracking shows. -/
theorem State.withdraw_spec (dst : RoleInst) (keep : Bool) (hc : s.ctx i = some c) :
    ∃ d, (s.withdraw dst keep i).ctx i = some d ∧ d.core = c.core ∧ d.job = none := by
  obtain ⟨d, hd, core⟩ := State.ctx_of_core ((State.withdraw_tracks (is := []) dst keep i s).cores i (by simp)) hc
  refine ⟨d, hd, core, ?_⟩
  cases job : c.job with
  | none =>
    have kept : s.withdraw dst keep i = s := if_neg (by simp [hc, job])
    rw [kept, hc] at hd
    cases hd
    exact job
  | some x =>
    have eq : s.withdraw dst keep i = ((s.modCtx i (Context.withdrawn dst keep)).offer (.context i)).prune (.context i) :=
      if_pos (by simp [hc, job])
    have dropped : (s.modCtx i (Context.withdrawn dst keep)).ctx i = some (c.withdrawn dst keep) := by
      rw [State.ctx_modCtx_self, hc]
      rfl
    obtain ⟨e, he, errand⟩ := State.SameOf.ctx (State.sameErrand_offer i _) dropped
    have same : e = d := Option.some.inj (he.symm.trans ((State.ctx_of_tracker
      ((State.prune_only (.context i) ((s.modCtx i (Context.withdrawn dst keep)).offer (.context i))).tracker.resolve_left
        (by decide)) i).symm.trans (eq ▸ hd)))
    subst same
    refine Context.errand_eq_none.mp (errand.trans (Context.errand_eq_none.mpr ?_))
    simp [Context.withdrawn, job]

/-- A context whose route has been formed (R142). -/
def Context.leaving (c : Context) (d : RouteDest) (limit : Nat) : Context :=
  { c with route := some d, phase := .exiting, timer := some limit }

theorem State.formRoute_eq (k : LineNo) (late : Bool) (hc : s.ctx i = some c) : s.formRoute k i late =
    ((s.putCtx i (some (c.leaving (s.routeDest c late) s.ctl.params.exitLimit))).sendOrders i
      [.route (.exitSwitch k) c.licence (s.routeDest c late)]).startJobs k := by
  unfold State.formRoute
  rw [hc]
  dsimp only
  rw [State.modCtx_of_ctx hc, State.enter_of_ctx (State.ctx_putCtx_self _ _ _), State.putCtx_putCtx]
  rfl

/-- The context of a formed route is EXITING with no job, and keeps the rest (R142). -/
theorem State.formRoute_spec (k : LineNo) (late : Bool) (hc : s.ctx i = some c) (idle : c.job = none) :
    ∃ d, (s.formRoute k i late).ctx i = some d ∧ d.job = none
      ∧ d.core = (c.leaving (s.routeDest c late) s.ctl.params.exitLimit).core := by
  rw [State.formRoute_eq k late hc]
  obtain ⟨x, left⟩ : ∃ x, c.leaving (s.routeDest c late) s.ctl.params.exitLimit = x := ⟨_, rfl⟩
  rw [left]
  obtain ⟨t, sent⟩ : ∃ t, (s.putCtx i (some x)).sendOrders i [.route (.exitSwitch k) c.licence (s.routeDest c late)] = t :=
    ⟨_, rfl⟩
  have cores : State.Tracks [] (s.putCtx i (some x)) t := sent ▸ State.sendOrders_tracks _ _ _
  have errands : (s.putCtx i (some x)).SameOf Context.errand t := sent ▸ State.sameErrand_sendOrders _ _ _
  obtain ⟨d, hd, errand⟩ := errands.ctx (State.ctx_putCtx_self i _ s)
  have core : d.core = x.core := by
    have same := cores.cores i (by simp)
    rw [State.core_of_ctx hd, State.core_of_ctx (State.ctx_putCtx_self i _ s)] at same
    exact Option.some.inj same
  have exiting : d.phase = .exiting := (congrArg Context.phase core).trans (congrArg Context.phase left.symm)
  rw [sent, State.startJobs_same (State.not_mem_unlabelled hd (by rw [exiting]; decide) (by rw [exiting]; decide))]
  refine ⟨d, hd, Context.errand_eq_none.mp (errand.trans (Context.errand_eq_none.mpr ?_)), core⟩
  rw [← left]
  exact idle

theorem State.formRoute_tracks (k : LineNo) (i : Slot) (late : Bool) (s : State) :
    State.Tracks [i] s (s.formRoute k i late) := by
  cases hc : s.ctx i with
  | none =>
    unfold State.formRoute
    rw [hc]
    exact .refl s
  | some c =>
    rw [State.formRoute_eq k late hc]
    have left : State.Tracks [i] s (s.putCtx i (some (c.leaving (s.routeDest c late) s.ctl.params.exitLimit))) :=
      State.putCtx_tracks hc rfl
    generalize s.putCtx i (some (c.leaving (s.routeDest c late) s.ctl.params.exitLimit)) = t at left
    exact (left.next (State.sendOrders_tracks (is := []) _ _ t)).next (State.startJobs_tracks (is := []) _ _)

end

end Sys2Proof.Machine
end

