-- ==== Sys2Proof/Proofs/Slice0/LabelFailures.lean ====
section
/-! A label that fails sends its pallet to LATE_REJECT (R141); the reject applicator closes the first ticket (R146). -/

namespace Sys2Proof.Machine

open Sys2Proof

section
variable {s : State} {src : Byte} {i : Slot} {c : Context} {k : LineNo} {n : Nat} {r : Option Text} {q : Job → Bool}

theorem State.routeDest_late (s : State) (c : Context) : s.routeDest c true = .lateReject := rfl

/-- A pallet whose label fails has the reason and leaves for LATE_REJECT (R141). -/
theorem State.failLabel_spec (k : LineNo) (x : Reason) (hc : s.ctx i = some c) :
    ∃ u d, s.failLabel k i x = u ∧ u.ctx i = some d ∧ d.phase = .exiting ∧ d.timer = some s.ctl.params.exitLimit
      ∧ d.job = none ∧ d.route = some .lateReject ∧ x ∈ d.reasons := by
  have handed_ctl : (s.handSlot i x).ctl = s.ctl := (State.handSlot_only i x s).ctl.resolve_left (by decide)
  have handed := State.core_handSlot i i x s
  rw [if_pos rfl, State.core_of_ctx hc, Option.map_some, ← Context.core_handed] at handed
  unfold State.failLabel
  generalize s.handSlot i x = a at handed handed_ctl
  obtain ⟨c1, hc1, core1⟩ := Option.map_eq_some_iff.mp handed
  have withdrawn_ctl := (State.withdraw_only (.labelApplicator k) true i a).ctl.resolve_left (by decide)
  obtain ⟨c2, hc2, core2, idle⟩ := State.withdraw_spec (.labelApplicator k) true hc1
  generalize a.withdraw (.labelApplicator k) true i = b at hc2 withdrawn_ctl
  obtain ⟨d, hd, job, core⟩ := State.formRoute_spec k true hc2 idle
  refine ⟨_, d, rfl, hd, congrArg Context.phase core, ?_, job, congrArg Context.route core, ?_⟩
  · rw [← handed_ctl, ← withdrawn_ctl]
    exact congrArg Context.timer core
  · have reasons : d.reasons = (c.handed x).reasons := (congrArg Context.reasons core).trans
      ((congrArg Context.reasons core2).trans (congrArg Context.reasons core1 : _))
    rw [reasons]
    exact Context.mem_handed x c

theorem State.labelling_ctx (first : s.labelling k = some i) : ∃ c, s.ctx i = some c ∧ c.phase = .labelling := by
  have found := List.find?_some first
  cases hc : s.ctx i with
  | none => simp [hc] at found
  | some c => exact ⟨c, rfl, by simpa [hc] using found⟩

theorem State.applyFault_of_labelling (first : s.labelling k = some i) :
    s.applyFault k src = s.failLabel k i .labelFault := by
  unfold State.applyFault
  rw [first]

theorem State.applyFault_of_none (first : s.labelling k = none) :
    s.applyFault k src = s.stray kLabelEvent src none none .noCandidate := by
  unfold State.applyFault
  rw [first]

theorem State.labelLimit_of_line (line : s.lineOf i = some k) (hc : s.ctx i = some c) (phase : c.phase = .labelling)
    (timer : c.timer = some 0) : s.labelLimit i = s.failLabel k i .labelTimeout := by
  unfold State.labelLimit
  rw [State.onExpiry_of_timed hc phase timer, line]

/-! ### The reject applicator -/

theorem State.ticketApplied_eq : s.ticketApplied n r src = match s.ticketWith fun j => j.serial == n with
    | some i => (s.endJob i).closeContext .rejected .ticketApplied i
    | none => s.stray kLabelEvent src none r .noCandidate := rfl

theorem State.ticketFault_eq : s.ticketFault src = match s.ticketWith fun _ => true with
    | some i => (s.handSlot i .labelFault).closeContext .rejected .ticketFault i
    | none => s.stray kLabelEvent src none none .noCandidate := rfl

/-- With no ticket waiting, or no job for the first, no ticket is served. -/
theorem State.ticketWith_of_idle {t : State} (q : Job → Bool) (labels : t.labels = s.labels) (ctx : ∀ i, t.ctx i = s.ctx i)
    (off : s.labels.tickets = [] ∨ ∃ i rest c, s.labels.tickets = i :: rest ∧ s.ctx i = some c ∧ c.job = none) :
    t.ticketWith q = none := by
  refine State.ticketWith_eq_none (off.imp (fun empty => by rw [labels, empty]) ?_)
  rintro ⟨i, rest, c, order, hc, job⟩
  exact ⟨i, rest, c, by rw [labels, order], by rw [ctx, hc], by simp [job]⟩

theorem Context.planSlot_handed (x : Reason) (c : Context) : (c.handed x).planSlot = c.planSlot := by
  unfold Context.handed
  split
  · rfl
  · split <;> rfl

/-- The closure of the first ticket context, in a state that tells of its label and changes no plan (R12, R51). -/
theorem State.closeContext_ticket {t : State} {rest : List Slot} {cause : Config.UnitCause} {d : Context}
    (order : s.labels.tickets = i :: rest)
    (hd : t.ctx i = some d) (slot : d.planSlot = c.planSlot) (labels : t.labels = s.labels) (refs : t.refs = s.refs) :
    (t.closeContext .rejected cause i).ctx i = none ∧ (t.closeContext .rejected cause i).labels.tickets = rest
      ∧ (t.closeContext .rejected cause i).labels.log = s.labels.log
      ∧ ∀ m q, c.planSlot = some m → s.planAt m = some q →
          (t.closeContext .rejected cause i).planAt m = some { q with state := .loaded, bound := none } := by
  have closes := State.closeContext_closes (o := .rejected) (cause := cause) hd
  refine ⟨closes.freed, ?_, closes.log.1.trans (congrArg _ labels), fun m q bound plan => ?_⟩
  · rw [closes.tickets, labels, order]
    simp
  · rw [closes.plan m (slot.trans bound), State.planAt_of_refs refs, plan, Option.map_some, planAfter_eq]
    rfl

end

end Sys2Proof.Machine

namespace Sys2Proof.Proofs

open Sys2Proof Sys2Proof.Machine

/-- Settles O40, by the route of a failed label and the closure of the first ticket. -/
theorem labelsFailAndTicketsEnd : Obligations.LabelsFailAndTicketsEnd := by
  refine ⟨⟨fun s dst src k hears role => ?_, fun s i c running hc => ?_⟩, ?_⟩
  · have taken := exec_labelEvent (x := .applyFault dst src) (dst := dst) (e := .applyFault) hears (by decide) rfl role rfl
    refine ⟨fun nobody => ?_, fun i first => ?_⟩
    · rw [taken]
      show Host.Outcome.next (State.applyFault _ _ _) = _
      rw [State.applyFault_of_none (by simpa using nobody)]
      rfl
    · obtain ⟨c, hc, -⟩ := State.labelling_ctx first
      obtain ⟨u, d, eq, hd, phase, timer, job, route, reason⟩ := State.failLabel_spec
        (s := s.passed ⟨dst, src, kLabelEvent, [4]⟩) k .labelFault ((State.passed_ctx _ s i).trans hc)
      refine ⟨u, d, ?_, hd, phase, by simpa using timer, job, route, reason⟩
      rw [taken, ← eq]
      show Host.Outcome.next (State.applyFault _ _ _) = _
      rw [State.applyFault_of_labelling (by simpa using first)]
  · have taken : exec (.labelLimitExpiry i) s = .next (s.labelLimit i) :=
      congrArg Host.Outcome.next (State.awake_of_running running _)
    refine ⟨fun off => ?_, fun k phase timer line => ?_⟩
    · rw [taken, State.labelLimit, State.onExpiry_of_not hc off]
    · obtain ⟨u, d, eq, rest⟩ := State.failLabel_spec k .labelTimeout hc
      refine ⟨u, d, ?_, rest⟩
      rw [taken, State.labelLimit_of_line line hc phase timer, eq]
  · rintro s dst src b n r hears short ⟨_, read, rfl⟩ role
    have fault := exec_labelEvent (x := .rejectApplicatorFault dst src) (dst := dst) (e := .applyFault) hears (by decide)
      rfl role rfl
    have applied := exec_labelEvent (x := .rejectApplicatorApplied dst src b) (dst := dst) hears (by simpa using by omega)
      rfl role read
    refine ⟨fun i rest c j order hc job => ⟨?_, fun serial => ?_, fun serial => ?_⟩, fun off => ⟨?_, ?_⟩⟩
    · obtain ⟨a, passed⟩ : ∃ a, s.passed ⟨dst, src, kLabelEvent, [4]⟩ = a := ⟨_, rfl⟩
      have labels : a.labels = s.labels := passed ▸ State.passed_labels _ s
      have refs : a.refs = s.refs := passed ▸ State.passed_refs _ s
      have ha : a.ctx i = some c := passed ▸ (State.passed_ctx _ s i).trans hc
      have handed := State.handSlot_only i .labelFault a
      obtain ⟨d, hd, core⟩ := State.ctx_of_core (t := a.handSlot i .labelFault) (s := a.putCtx i (some (c.handed .labelFault)))
        (by rw [State.core_handSlot, if_pos rfl, State.core_of_ctx ha, State.core_of_ctx (State.ctx_putCtx_self _ _ _),
          Option.map_some, Context.core_handed]) (State.ctx_putCtx_self _ _ _)
      have slot : d.planSlot = c.planSlot := (congrArg Context.planSlot core).trans (Context.planSlot_handed _ c)
      have tickets : a.labels.tickets = i :: rest := by rw [labels, order]
      refine ⟨_, ?_, State.closeContext_ticket (t := a.handSlot i .labelFault) (cause := .ticketFault) order hd slot
        ((handed.labels.resolve_left (by decide)).trans labels) ((handed.refs.resolve_left (by decide)).trans refs)⟩
      rw [fault, passed]
      show Host.Outcome.next (a.ticketFault src) = _
      rw [State.ticketFault_eq, State.ticketWith_of_job tickets ha job rfl]
    · obtain ⟨a, passed⟩ : ∃ a, s.passed ⟨dst, src, kLabelEvent, 3 :: b⟩ = a := ⟨_, rfl⟩
      have labels : a.labels = s.labels := passed ▸ State.passed_labels _ s
      have refs : a.refs = s.refs := passed ▸ State.passed_refs _ s
      have ha : a.ctx i = some c := passed ▸ (State.passed_ctx _ s i).trans hc
      have tickets : a.labels.tickets = i :: rest := by rw [labels, order]
      refine ⟨_, ?_, State.closeContext_ticket (t := a.endJob i) (cause := .ticketApplied) (d := { c with job := none }) order
        (by rw [State.endJob, State.ctx_modCtx_self, ha]; rfl) rfl labels refs⟩
      rw [applied, passed]
      show Host.Outcome.next (a.ticketApplied n r src) = _
      rw [State.ticketApplied_eq, State.ticketWith_of_job tickets ha job (by simp [serial])]
    · rw [applied]
      show Host.Outcome.next (State.ticketApplied _ _ _ _) = _
      rw [State.ticketApplied_eq, State.ticketWith_eq_none (.inr ⟨i, rest, c, by simpa using order, by simpa using hc, by
        simp [job, serial]⟩)]
      rfl
    · rw [fault]
      show Host.Outcome.next (State.ticketFault _ _) = _
      rw [State.ticketFault_eq, State.ticketWith_of_idle _ (State.passed_labels _ s) (State.passed_ctx _ s) off]
      rfl
    · rw [applied]
      show Host.Outcome.next (State.ticketApplied _ _ _ _) = _
      rw [State.ticketApplied_eq, State.ticketWith_of_idle _ (State.passed_labels _ s) (State.passed_ctx _ s) off]
      rfl

end Sys2Proof.Proofs
end

