-- ==== Sys2Proof/Proofs/Slice0/Exits.lean ====
section
/-! ROUTED and the expiry of exit_limit (R7, R12, R36, R143 to R145, R147). -/

namespace Sys2Proof.Machine

open Sys2Proof

section
variable {s : State} {src : Byte} {i : Slot} {c : Context} {k : LineNo} {b : Nat} {e : LogEntry} {q : Plan} {o : Closure}
  {cause : Config.UnitCause} {lic : Option Text}

/-! ### The entry compared with the hold list (R24, R36) -/

theorem State.escapeOfEntry_only (e : LogEntry) (s : State) :
    State.Only [.ring, .mgmt, .holds] s (s.escapeOfEntry e) := by
  unfold State.escapeOfEntry
  split
  · exact State.escape_only _ _
  · exact .refl _ _

theorem State.escapeOfEntry_of_no_match (free : ∀ p ∈ e.pairs, s.matchingHold p = none) : s.escapeOfEntry e = s := by
  have none : e.pairs.findSome? (fun p => (s.matchingHold p).map fun h => (p, h)) = none :=
    List.findSome?_eq_none_iff.mpr fun p mem => by rw [free p mem]; rfl
  unfold State.escapeOfEntry
  rw [none]

theorem State.escapeOfEntry_of_match {before after : List (Text × Option Text)} {p : Text × Option Text} {h : Hold}
    (pairs : e.pairs = before ++ p :: after) (free : ∀ x ∈ before, s.matchingHold x = none)
    (hit : s.matchingHold p = some h) : s.escapeOfEntry e = s.escape (s.escapeOf e p h) := by
  have none : before.findSome? (fun p => (s.matchingHold p).map fun h => (p, h)) = none :=
    List.findSome?_eq_none_iff.mpr fun x mem => by rw [free x mem]; rfl
  have first : e.pairs.findSome? (fun p => (s.matchingHold p).map fun h => (p, h)) = some (p, h) := by
    rw [pairs, List.findSome?_append, none, Option.none_or]
    simp [hit]
  unfold State.escapeOfEntry
  rw [first]

/-! ### The release (R7, R12, R144) -/

theorem State.slot_of_planAt {m : Nat} (plan : s.planAt m = some q) : q.slot = m := by
  simpa using List.find?_some plan

theorem State.boundPlan_slot (bound : s.boundPlan c = some q) : c.planSlot = some q.slot ∧ s.planAt q.slot = some q := by
  obtain ⟨m, slot, plan⟩ := Option.bind_eq_some_iff.mp bound
  obtain rfl := State.slot_of_planAt plan
  exact ⟨slot, plan⟩

theorem State.addRelease_only (c : Context) (s : State) : State.Only [.refs] s (s.addRelease c) := by
  unfold State.addRelease
  split
  · exact .refl _ _
  · exact (State.onRefs_only _ _).trans (State.onRefs_only _ _)

/-- The totals of the plan's consignment take the release, and the plan is USED. -/
theorem State.addRelease_spec (bound : s.boundPlan c = some q) :
    (s.addRelease c).planAt q.slot = some (planAfter .released q)
    ∧ ∀ x, s.consignment q.consignment = some x → (s.addRelease c).consignment q.consignment =
        some { x with totals := s.totalsAfter q (c.weight.getD 0) x.totals } := by
  unfold State.addRelease
  rw [bound]
  dsimp only
  refine ⟨?_, fun x found => ?_⟩
  · rw [State.planAt_modPlan (planAfter_slot .released), if_pos rfl]
    exact congrArg _ (State.boundPlan_slot bound).2
  · have number : x.number = q.consignment := by simpa using List.find?_some found
    have keeps : (fun y : Consignment => y.number == q.consignment) ∘ (fun y : Consignment => if y.number = q.consignment then
        { y with totals := s.totalsAfter q (c.weight.getD 0) y.totals } else y) = fun y => y.number == q.consignment := by
      funext y
      simp only [Function.comp_apply]
      split <;> rfl
    unfold State.consignment at found ⊢
    show (s.refs.consignments.map _).find? _ = _
    rw [List.find?_map, keeps, found]
    simp [number]

/-- The totals a release adds, written out (R7). -/
theorem State.totalsAfter_eq (s : State) (p : Plan) (w : Nat) (t : Totals) : s.totalsAfter p w t =
    { pallets := min 65535 (t.pallets + 1)
      cases := min 281474976710655 (t.cases + (p.lines.map (·.count)).sum)
      netGrams := min 281474976710655 (t.netGrams + (w - p.tare))
      dutiableCl := min 281474976710655 (t.dutiableCl + (p.lines.map fun l => match s.article l.article with
        | some a => if a.dutiable then l.count * a.caseVolume else 0
        | none => 0).sum) } := by
  have volume : dutiableVolume (p.lines.filterMap fun l => (s.article l.article).map fun a => (l, a)) =
      (p.lines.map fun l => match s.article l.article with
        | some a => if a.dutiable then l.count * a.caseVolume else 0
        | none => 0).sum := by
    unfold dutiableVolume
    induction p.lines with
    | nil => rfl
    | cons l ls ih =>
      cases article : s.article l.article with
      | none => simpa [article] using ih
      | some a => simpa [article] using ih
  rw [State.totalsAfter, volume]
  rfl

/-! ### The closure of a pallet that has left -/

/-- The entry as the log takes it (R147). -/
theorem State.writeEntry_log (e : LogEntry) (s : State) : (s.writeEntry e).labels.log =
    (if s.labels.log.length < 256 then s.labels.log else s.labels.log.drop 1) ++ [e] := rfl

/-- What the closure of a pallet that has left leaves, after its entry is compared with the holds. -/
theorem State.closeContext_logged (e : LogEntry) (hc : s.ctx i = some c) :
    ((s.escapeOfEntry e).closeContext o cause i).ctx i = none
    ∧ ((s.escapeOfEntry e).closeContext o cause i).holds = (s.escapeOfEntry e).holds
    ∧ ((s.escapeOfEntry e).closeContext o cause i).labels.log = s.labels.log
    ∧ ((s.escapeOfEntry e).closeContext o cause i).labels.nextRelease = s.labels.nextRelease
    ∧ ((s.escapeOfEntry e).closeContext o cause i).refs.consignments = s.refs.consignments
    ∧ ∀ m q, c.planSlot = some m → s.planAt m = some q →
        ((s.escapeOfEntry e).closeContext o cause i).planAt m = some (planAfter o q) := by
  have only := State.escapeOfEntry_only e s
  have labels := only.labels.resolve_left (by decide)
  have refs := only.refs.resolve_left (by decide)
  have closes := State.closeContext_closes (o := o) (cause := cause)
    ((State.ctx_of_tracker (only.tracker.resolve_left (by decide)) i).trans hc)
  refine ⟨closes.freed, closes.holds, closes.log.1.trans (congrArg _ labels), closes.log.2.trans (congrArg _ labels),
    closes.consigns.trans (congrArg _ refs), fun m q slot plan => ?_⟩
  rw [closes.plan m slot, State.planAt_of_refs refs, plan]
  rfl

/-- A closure with nothing logged (R143, R145). -/
theorem State.closeContext_rejected {d : Context} (hd : s.ctx i = some d) (same : d.planSlot = c.planSlot) (unused : o ≠ .released ∧ o ≠ .unconfirmed) :
    (s.closeContext o cause i).ctx i = none ∧ (s.closeContext o cause i).labels.log = s.labels.log
    ∧ (s.closeContext o cause i).refs.consignments = s.refs.consignments
    ∧ ∀ m q, c.planSlot = some m → s.planAt m = some q →
        (s.closeContext o cause i).planAt m = some { q with state := .loaded, bound := none } := by
  have closes := State.closeContext_closes (o := o) (cause := cause) hd
  refine ⟨closes.freed, closes.log.1, closes.consigns, fun m q slot plan => ?_⟩
  rw [closes.plan m (same.trans slot), plan, Option.map_some, planAfter_eq, if_neg (not_or.mpr unused)]

/-! ### ROUTED and the expiry -/

theorem State.routed_eq (k : LineNo) (lic : Option Text) (bay : Option Nat) (src : Byte) (s : State) :
    s.routed k lic bay src = match (s.line k).find? fun i => (s.ctx i).any fun c =>
      c.phase == .exiting && lic.isSome && c.licence == lic with
    | none => s.stray kRouted src none lic .noCandidate
    | some i =>
      match s.ctx i with
      | none => s
      | some c =>
        match bay, c.route with
        | some b, _ => s.release i c b
        | none, some (.bay _) =>
          (s.modCtx i fun c => { c with diverted := true }).closeContext .divertedByLine .routed i
        | none, _ => s.closeContext .rejected .routed i := rfl

theorem State.routed_bay (first : (s.line k).find? (fun i => (s.ctx i).any fun c =>
      c.phase == .exiting && lic.isSome && c.licence == lic) = some i) (hc : s.ctx i = some c) :
    s.routed k lic (some b) src = s.release i c b := by
  rw [State.routed_eq, first]
  dsimp only
  rw [hc]

theorem State.routed_none (bay : Option Nat) (first : (s.line k).find? (fun i => (s.ctx i).any fun c =>
      c.phase == .exiting && lic.isSome && c.licence == lic) = none) :
    s.routed k lic bay src = s.stray kRouted src none lic .noCandidate := by
  rw [State.routed_eq, first]

theorem State.routedEvent_none (first : (s.line k).find? (fun i => (s.ctx i).any fun c =>
      c.phase == .exiting && lic.isSome && c.licence == lic) = none) (d : Nat) :
    s.routedEvent src k lic d = s.stray kRouted src none lic .noCandidate := by
  unfold State.routedEvent
  split
  · exact State.routed_none none first
  · split
    · exact State.routed_none _ first
    · rfl

/-- ROUTED to REJECT (R143). -/
theorem State.routed_reject (first : (s.line k).find? (fun i => (s.ctx i).any fun c =>
      c.phase == .exiting && lic.isSome && c.licence == lic) = some i) (hc : s.ctx i = some c) :
    s.routed k lic none src = match c.route with
      | some (.bay _) => (s.putCtx i (some { c with diverted := true })).closeContext .divertedByLine .routed i
      | _ => s.closeContext .rejected .routed i := by
  rw [State.routed_eq, first]
  dsimp only
  rw [hc]
  dsimp only
  rw [State.modCtx_of_ctx hc]
  cases c.route with
  | none => rfl
  | some r => cases r <;> rfl

/-- The expiry for a pallet with a bay as its route (R145). -/
theorem State.exitExpired_of_bay {a : State} (hc : s.ctx i = some c) (route : c.route = some (.bay b))
    (marked : s.putCtx i (some { c with unconfirmed := true }) = a) : s.exitExpired i =
      ((a.writeEntry (a.entryOf c b true)).escapeOfEntry (a.entryOf c b true)).closeContext .unconfirmed .exitLimit i := by
  unfold State.exitExpired
  rw [hc]
  dsimp only
  rw [State.modCtx_of_ctx hc, marked, route]

/-- The expiry for a pallet whose route is LATE_REJECT (R145). -/
theorem State.exitExpired_of_late {a : State} (hc : s.ctx i = some c) (route : c.route = some .lateReject)
    (marked : s.putCtx i (some { c with unconfirmed := true }) = a) :
    s.exitExpired i = a.closeContext .rejected .exitLimit i := by
  unfold State.exitExpired
  rw [hc]
  dsimp only
  rw [State.modCtx_of_ctx hc, marked, route]

end

end Sys2Proof.Machine

namespace Sys2Proof.Proofs

open Sys2Proof Sys2Proof.Machine

/-- ROUTED to a bay releases the pallet (R7, R12, R144, R147). -/
theorem routed_release {s : State} {i : Slot} {c : Context} {lic : Text} {b : Nat} (hc : s.ctx i = some c)
    (licence : c.licence = some lic) : ∃ u e v, s.release i c b = u ∧ u.ctx i = none
      ∧ v = State.addRelease c (State.writeEntry e s) ∧ v.holds = s.holds
      ∧ u = (v.escapeOfEntry e).closeContext .released .routed i ∧ u.holds = (v.escapeOfEntry e).holds
      ∧ u.labels.log = (if s.labels.log.length < 256 then s.labels.log else s.labels.log.drop 1) ++ [e]
      ∧ e.sequence = s.labels.nextRelease ∧ e.licence = lic ∧ e.bay = b ∧ e.unconfirmed = false
      ∧ e.day = s.holds.day ∧ e.pairs = c.tally.pairs
      ∧ u.labels.nextRelease = (if s.labels.nextRelease < 4294967295 then s.labels.nextRelease + 1 else 1)
      ∧ ∀ q, s.boundPlan c = some q → e.consignment = q.consignment
          ∧ u.planAt q.slot = some { q with state := .used, bound := none }
          ∧ ∀ x w, s.consignment q.consignment = some x → c.weight = some w →
              u.consignment q.consignment = some { x with totals := s.totalsAfter q w x.totals } := by
  obtain ⟨e, entry⟩ : ∃ e, s.entryOf c b false = e := ⟨_, rfl⟩
  obtain ⟨v, released⟩ : ∃ v, State.addRelease c (State.writeEntry e s) = v := ⟨_, rfl⟩
  have only : State.Only [.refs] (State.writeEntry e s) v := released ▸ State.addRelease_only c _
  have labels : v.labels = (State.writeEntry e s).labels := only.labels.resolve_left (by decide)
  have ctx : v.ctx i = some c := (State.ctx_of_tracker (only.tracker.resolve_left (by decide)) i).trans hc
  obtain ⟨freed, holds, log, sequence, consigns, plans⟩ := State.closeContext_logged (o := .released) (cause := .routed) e ctx
  refine ⟨_, e, v, ?_, freed, released.symm, only.holds.resolve_left (by decide), rfl, holds, ?_, ?_, ?_, ?_, ?_, ?_, ?_, ?_,
    fun q bound => ⟨?_, ?_, fun x w found weight => ?_⟩⟩
  · rw [← released, ← entry]
    rfl
  · rw [log, labels, State.writeEntry_log]
  · rw [← entry]
    rfl
  · rw [← entry]
    show c.licence.getD [] = lic
    rw [licence]
    rfl
  · rw [← entry]
    rfl
  · rw [← entry]
    rfl
  · rw [← entry]
    rfl
  · rw [← entry]
    rfl
  · rw [sequence, labels]
    rfl
  · rw [← entry]
    show ((s.boundPlan c).map (·.consignment)).getD [] = _
    rw [bound]
    rfl
  · obtain ⟨slot, -⟩ := State.boundPlan_slot bound
    obtain ⟨plan, -⟩ := State.addRelease_spec (s := State.writeEntry e s) (c := c) (q := q) bound
    rw [plans q.slot (planAfter .released q) slot (released ▸ plan)]
    rfl
  · obtain ⟨-, totals⟩ := State.addRelease_spec (s := State.writeEntry e s) (c := c) (q := q) bound
    have added := totals x found
    rw [released, weight] at added
    have same : ∀ t : State, t.refs.consignments = v.refs.consignments →
        t.consignment q.consignment = v.consignment q.consignment := fun t e => by
      unfold State.consignment
      rw [e]
    rw [same _ consigns, added]
    rfl

/-- Settles O41, by the closure of a pallet that has left and the entry logged before it. -/
theorem exitsReleaseOrReject : Obligations.ExitsReleaseOrReject := by
  refine ⟨fun s dst src p k lic b i c fits short read low high first hc => ?_, ⟨fun s dst src p k lic b fits short read => ?_,
    fun s i c running hc => ?_⟩, fun s e => ⟨State.escapeOfEntry_of_no_match, fun before p after h pairs free hit =>
      ⟨_, State.escapeOfEntry_of_match pairs free hit, rfl, rfl, rfl, rfl, rfl, rfl, rfl, rfl, rfl, rfl, rfl⟩,
      fun _ => rfl, fun _ _ => rfl⟩⟩
  · have takes := exec_routed (dst := dst) fits short read
    have ha := (State.passed_ctx ⟨dst, src, kRouted, p⟩ s i).trans hc
    have found : ((s.passed ⟨dst, src, kRouted, p⟩).line k).find? (fun i => ((s.passed ⟨dst, src, kRouted, p⟩).ctx i).any
        fun c => c.phase == .exiting && (some lic).isSome && c.licence == some lic) = some i := by simpa using first
    have licence : c.licence = some lic := by
      have fit := List.find?_some first
      simp only [hc, Option.any_some, Bool.and_eq_true, beq_iff_eq] at fit
      exact fit.2
    have refs := State.passed_refs ⟨dst, src, kRouted, p⟩ s
    have holds := State.passed_holds ⟨dst, src, kRouted, p⟩ s
    have labels := State.passed_labels ⟨dst, src, kRouted, p⟩ s
    obtain ⟨a, passed⟩ : ∃ a, s.passed ⟨dst, src, kRouted, p⟩ = a := ⟨_, rfl⟩
    rw [passed] at takes ha found refs holds labels
    have plan (x : Context) : a.boundPlan x = s.boundPlan x := by
      unfold State.boundPlan State.planAt
      rw [refs]
    have consignment (x : Text) : a.consignment x = s.consignment x := by
      unfold State.consignment
      rw [refs]
    have article (x : Text) : a.article x = s.article x := by
      unfold State.article
      rw [refs]
    obtain ⟨u, e, v, eq, freed, written, kept, closed, held, log, sequence, lic', bay, conf, day, pairs, next, bound⟩ :=
      routed_release (b := b) ha licence
    rw [labels] at log sequence next
    rw [holds] at kept day
    refine ⟨u, e, v, ?_, freed, (by rw [written, ← passed]; rfl), kept, closed, held, log, sequence, lic', bay, conf, day, pairs, next,
      fun q hq => ?_⟩
    · rw [takes, State.routedEvent, if_neg (by omega), if_pos high, State.routed_bay found ha, eq]
    · obtain ⟨number, used, totals⟩ := bound q ((plan c).trans hq)
      refine ⟨number, used, fun x w found weight => ?_⟩
      rw [totals x w ((consignment _).trans found) weight, State.totalsAfter_eq]
      simp only [article] <;> rfl
  · have takes := exec_routed (dst := dst) fits short read
    refine ⟨fun none => ?_, fun i c zero hc first => ?_⟩
    · rw [takes, State.routedEvent_none (by simpa using none)]
      rfl
    · have ha := (State.passed_ctx ⟨dst, src, kRouted, p⟩ s i).trans hc
      have found : ((s.passed ⟨dst, src, kRouted, p⟩).line k).find? (fun i => ((s.passed ⟨dst, src, kRouted, p⟩).ctx i).any
          fun c => c.phase == .exiting && lic.isSome && c.licence == lic) = some i := by simpa using first
      have refs := State.passed_refs ⟨dst, src, kRouted, p⟩ s
      have labels := State.passed_labels ⟨dst, src, kRouted, p⟩ s
      obtain ⟨a, passed⟩ : ∃ a, s.passed ⟨dst, src, kRouted, p⟩ = a := ⟨_, rfl⟩
      rw [passed] at takes ha found refs labels
      have reject : a.routedEvent src k lic b = a.routed k lic none src := if_pos zero
      rw [takes, reject, State.routed_reject found ha, ← labels, ← refs]
      simp only [← State.planAt_of_refs refs]
      split
      · exact ⟨_, rfl, State.closeContext_rejected (s := a.putCtx i (some { c with diverted := true }))
          (State.ctx_putCtx_self _ _ _) rfl (by decide)⟩
      · exact ⟨_, rfl, State.closeContext_rejected ha rfl (by decide)⟩
  · have taken : exec (.exitLimitExpiry i) s = .next (s.exitLimit i) :=
      congrArg Host.Outcome.next (State.awake_of_running running _)
    have expired (phase : c.phase = .exiting) (timer : c.timer = some 0) : s.exitLimit i = s.exitExpired i :=
      State.onExpiry_of_timed hc phase timer _
    refine ⟨fun off => ?_, fun b phase timer route => ?_, fun phase timer route => ?_⟩
    · rw [taken, State.exitLimit, State.onExpiry_of_not hc off]
    · obtain ⟨a, marked⟩ : ∃ a, s.putCtx i (some { c with unconfirmed := true }) = a := ⟨_, rfl⟩
      have ha : a.ctx i = some { c with unconfirmed := true } := marked ▸ State.ctx_putCtx_self _ _ _
      obtain ⟨e, entry⟩ : ∃ e, a.entryOf c b true = e := ⟨_, rfl⟩
      obtain ⟨freed, holds, log, -, consigns, plans⟩ := State.closeContext_logged (s := a.writeEntry e) (o := .unconfirmed)
        (cause := .exitLimit) e ha
      refine ⟨_, e, a.writeEntry e, ?_, freed, by rw [marked], ?_, rfl, holds, ?_, ?_, ?_, ?_, ?_, ?_, fun m q slot plan => ?_⟩
      · rw [taken, expired phase timer, State.exitExpired_of_bay hc route marked, entry]
      · rw [← marked]
        rfl
      · rw [log, State.writeEntry_log, ← marked]
        rfl
      · rw [← entry, ← marked]
        rfl
      · rw [← entry]
        rfl
      · rw [← entry]
        rfl
      · rw [← entry]
        rfl
      · rw [consigns, ← marked]
        rfl
      · rw [plans m q slot (by rw [← marked]; exact plan)]
        rfl
    · refine ⟨_, ?_, State.closeContext_rejected (s := s.putCtx i (some { c with unconfirmed := true })) (o := .rejected)
        (cause := .exitLimit) (State.ctx_putCtx_self _ _ _) rfl (by decide)⟩
      rw [taken, expired phase timer, State.exitExpired_of_late hc route rfl]

end Sys2Proof.Proofs
end

