-- ==== Sys2Proof/Proofs/Slice0/Applications.lean ====
section
/-! APPLIED at a label line: against the job, the voided serial or another pallet's job (R140, R142). -/

namespace Sys2Proof.Machine

open Sys2Proof

section
variable {s t : State} {src : Byte} {i j : Slot} {c o : Context} {k : LineNo} {n : Nat} {r : Option Text} {x : Job}

/-! ### A reason handed for a pallet without a job starts none (R92, R93, R138) -/

theorem State.sameJob_startQueued (rs : List CompRequest) (s : State) : s.SameOf Context.job (s.startQueued rs) := by
  induction rs with
  | nil => exact .of_tracker rfl
  | cons y rs ih =>
    unfold State.startQueued
    split
    · exact State.SameOf.trans (State.SameOf.of_tracker rfl) (State.sameOf_modCtx fun _ => rfl)
    · exact ih

theorem State.sameJob_startNext (s : State) : s.SameOf Context.job s.startNext :=
  .ite (.refl s) (State.sameJob_startQueued _ s)

theorem State.sameJob_queueComposition (id : CtxId) (k : LabelKind) (s : State) :
    s.SameOf Context.job (s.queueComposition id k) :=
  State.SameOf.trans (State.SameOf.of_tracker rfl) (State.sameOf_modCtx fun _ => rfl)

theorem State.sameJob_requestLabel (id : CtxId) (k : LabelKind) (s : State) : s.SameOf Context.job (s.requestLabel id k) := by
  have queued (k : LabelKind) : s.SameOf Context.job (s.queueComposition id k).startNext :=
    (State.sameJob_queueComposition id k s).trans (State.sameJob_startNext _)
  unfold State.requestLabel
  split
  · exact .refl s
  · split
    · exact queued _
    · exact .of_tracker rfl
    · exact .of_tracker rfl
    · exact .ite (queued _) (.refl s)
    · exact .refl s

/-- The open context of a slot has no job. -/
def State.Idle (s : State) (i : Slot) : Prop := (s.ctx i).map Context.job = some none

theorem State.idle_of_ctx (hc : s.ctx i = some c) (idle : c.job = none) : s.Idle i := by
  rw [State.Idle, hc, Option.map_some, idle]

theorem State.Idle.ctx (h : s.Idle i) : ∃ c, s.ctx i = some c ∧ c.job = none := Option.map_eq_some_iff.mp h

theorem State.Idle.next (h : s.Idle i) (same : s.SameOf Context.job t) : t.Idle i := (same i).trans h

theorem State.Idle.raiseInLine (h : s.Idle i) : (s.raiseInLine i).Idle i := by
  obtain ⟨c, hc, idle⟩ := h.ctx
  unfold State.raiseInLine
  split
  · exact h
  · simp only [hc, Option.any_some, idle, Option.any_none, Bool.false_eq_true, if_false]
    exact h

theorem State.Idle.tellRaise {id : CtxId} (h : s.Idle id.slot) (p : Phase) : (s.tellRaise id p).Idle id.slot := by
  have asked := h.next (State.sameJob_requestLabel id .rejectTicket s)
  cases p with
  | atHeadDecided =>
    have stopped : s.SameOf Context.job (s.stopTimer id.slot) := State.sameOf_modCtx fun _ => rfl
    exact (h.next stopped).next (State.sameJob_requestLabel _ _ _)
  | moving => exact asked
  | wrapping => exact asked
  | queuedLabel => exact asked.raiseInLine
  | labelling => exact asked.raiseInLine
  | _ => exact h

theorem State.Idle.handSlot (h : s.Idle i) (y : Reason) : (s.handSlot i y).Idle i := by
  obtain ⟨c, hc, idle⟩ := h.ctx
  rw [State.handSlot_of_ctx hc]
  unfold State.handReason
  rw [State.named_of_ctx hc]
  dsimp only
  split
  · exact h
  · split
    · exact h.next (State.sameOf_modCtx fun _ => rfl)
    next v _ =>
      obtain ⟨w, -, at_w, eq⟩ := State.addLater_spec (id := ⟨i, c.adm⟩) hc v y
      have idle_w : w.Idle i := State.idle_of_ctx at_w idle
      rw [eq]
      split
      · exact idle_w.tellRaise _
      · exact idle_w

/-! ### The cases of APPLIED (R140) -/

theorem State.applied_of_none (nobody : s.labelling k = none) :
    s.applied k n r src = s.stray kLabelEvent src none r .noCandidate := by
  unfold State.applied
  rw [nobody]

/-- The case of APPLIED for a LABELLING context. -/
theorem State.applied_of_labelling (first : s.labelling k = some i) (hc : s.ctx i = some c) : s.applied k n r src =
    if c.hasJob n then
      if c.job.any fun j => j.kind == .rejectTicket then (s.endJob i).formRoute k i false
      else if r.isSome && r == c.licence then (s.endJob i).formRoute k i false
      else ((s.endJob i).handSlot i .labelReadback).formRoute k i true
    else if c.voided = some n then
      ((s.modCtx i fun c => { c with labelVoid := true }).withdraw (.labelApplicator k) true i).formRoute k i true
    else
      match s.otherJob k i n with
      | some j => s.swapped k i j
      | none => s.stray kLabelEvent src none r .noCandidate := by
  unfold State.applied
  rw [first]
  dsimp only
  rw [hc] <;> rfl

theorem State.hasJob_of_serial (job : c.job = some x) (serial : x.serial = n) : c.hasJob n = true := by
  simp [Context.hasJob, job, serial]

/-- The label of the pallet's own job: it leaves by the route of the verdict, or for LATE_REJECT. -/
theorem State.formRoute_endJob (k : LineNo) (late : Bool) (hc : s.ctx i = some c) :
    ∃ d, ((s.endJob i).formRoute k i late).ctx i = some d ∧ d.job = none
      ∧ d.core = (c.leaving (s.routeDest c late) s.ctl.params.exitLimit).core := by
  have ended : (s.endJob i).ctx i = some { c with job := none } := by rw [State.endJob, State.ctx_modCtx_self, hc]; rfl
  exact State.formRoute_spec (c := { c with job := none }) k late ended rfl

/-- A dispatch label that reads back otherwise (R140). -/
theorem State.formRoute_misread (k : LineNo) (hc : s.ctx i = some c) :
    ∃ d, (((s.endJob i).handSlot i .labelReadback).formRoute k i true).ctx i = some d ∧ d.job = none
      ∧ d.core = ((c.handed .labelReadback).leaving .lateReject s.ctl.params.exitLimit).core := by
  have ended : (s.endJob i).ctx i = some { c with job := none } := by rw [State.endJob, State.ctx_modCtx_self, hc]; rfl
  have ctl : (s.endJob i).ctl = s.ctl := rfl
  generalize s.endJob i = a at ended ctl
  have handed := State.core_handSlot i i .labelReadback a
  rw [if_pos rfl, State.core_of_ctx ended, Option.map_some] at handed
  have ctl' := (State.handSlot_only i .labelReadback a).ctl.resolve_left (by decide)
  obtain ⟨d, hd, idle⟩ := ((State.idle_of_ctx ended rfl).handSlot .labelReadback).ctx
  generalize a.handSlot i .labelReadback = b at handed ctl' hd
  have core : d.core = c.core.handed .labelReadback := Option.some.inj ((State.core_of_ctx hd).symm.trans handed)
  obtain ⟨e, he, job, left⟩ := State.formRoute_spec k true hd idle
  refine ⟨e, he, job, left.trans ?_⟩
  rw [ctl', ctl]
  show { d.core with route := some .lateReject, phase := .exiting, timer := some s.ctl.params.exitLimit } =
    { (c.handed .labelReadback).core with route := some .lateReject, phase := .exiting, timer := some s.ctl.params.exitLimit }
  rw [core, Context.core_handed]

/-- A pallet with a voided label leaves for LATE_REJECT (R140). -/
theorem State.formRoute_voided (k : LineNo) (hc : s.ctx i = some c) :
    ∃ d, (((s.modCtx i fun c => { c with labelVoid := true }).withdraw (.labelApplicator k) true i).formRoute k i true).ctx i
        = some d ∧ d.job = none
      ∧ d.core = ({ c with labelVoid := true }.leaving .lateReject s.ctl.params.exitLimit).core := by
  have marked : (s.modCtx i fun c => { c with labelVoid := true }).ctx i = some { c with labelVoid := true } := by
    rw [State.ctx_modCtx_self, hc]; rfl
  have ctl : (s.modCtx i fun c => { c with labelVoid := true }).ctl = s.ctl := rfl
  generalize (s.modCtx i fun c => { c with labelVoid := true }) = a at marked ctl
  have ctl' := (State.withdraw_only (.labelApplicator k) true i a).ctl.resolve_left (by decide)
  obtain ⟨d, hd, core, idle⟩ := State.withdraw_spec (.labelApplicator k) true marked
  generalize a.withdraw (.labelApplicator k) true i = b at hd ctl'
  obtain ⟨e, he, job, left⟩ := State.formRoute_spec k true hd idle
  refine ⟨e, he, job, left.trans ?_⟩
  rw [ctl', ctl]
  show { d.core with route := some .lateReject, phase := .exiting, timer := some s.ctl.params.exitLimit } = _
  rw [core]
  rfl

/-- The label of another pallet of the line (R140). -/
theorem State.swapped_spec (k : LineNo) (ne : j ≠ i) (hc : s.ctx i = some c) (ho : s.ctx j = some o) :
    ∃ d e, (s.swapped k i j).ctx i = some d ∧ (s.swapped k i j).ctx j = some e ∧ d.job = none
      ∧ d.core = ((c.handed .labelReadback).leaving .lateReject s.ctl.params.exitLimit).core
      ∧ e.core = (o.handed .labelReadback).core := by
  have ended : State.Tracks [] s (s.endJob j) := State.modCtx_tracks
  have ctl : (s.endJob j).ctl = s.ctl := rfl
  unfold State.swapped
  generalize s.endJob j = a at ended ctl
  have first := State.core_handSlot i (r := .labelReadback) (s := a)
  have ctl_b := (State.handSlot_only i .labelReadback a).ctl.resolve_left (by decide)
  generalize a.handSlot i .labelReadback = b at first ctl_b
  have second := State.core_handSlot j (r := .labelReadback) (s := b)
  have ctl_d := (State.handSlot_only j .labelReadback b).ctl.resolve_left (by decide)
  generalize b.handSlot j .labelReadback = d at second ctl_d
  have core_i : d.core i = some (c.handed .labelReadback).core := by
    rw [second, if_neg ne, first, if_pos rfl, ended.cores i (by simp), State.core_of_ctx hc, Option.map_some,
      Context.core_handed]
  have core_j : d.core j = some (o.handed .labelReadback).core := by
    rw [second, if_pos rfl, first, if_neg ne.symm, ended.cores j (by simp), State.core_of_ctx ho, Option.map_some,
      Context.core_handed]
  obtain ⟨x, hx, core_x⟩ := Option.map_eq_some_iff.mp core_i
  have withdrawn := State.withdraw_tracks (is := []) (.labelApplicator k) true i d
  have ctl_w := (State.withdraw_only (.labelApplicator k) true i d).ctl.resolve_left (by decide)
  obtain ⟨y, hy, core_y, idle⟩ := State.withdraw_spec (.labelApplicator k) true hx
  generalize d.withdraw (.labelApplicator k) true i = w at withdrawn ctl_w hy
  obtain ⟨z, hz, job, left⟩ := State.formRoute_spec k true hy idle
  have other : (w.formRoute k i true).core j = some (o.handed .labelReadback).core := by
    rw [(State.formRoute_tracks k i true w).cores j (by simpa using ne), withdrawn.cores j (by simp), core_j]
  obtain ⟨e, he, core_e⟩ := Option.map_eq_some_iff.mp other
  refine ⟨z, e, hz, he, job, left.trans ?_, core_e⟩
  rw [ctl_w, ctl_d, ctl_b, ctl]
  show { y.core with route := some .lateReject, phase := .exiting, timer := some s.ctl.params.exitLimit } =
    { (c.handed .labelReadback).core with route := some .lateReject, phase := .exiting, timer := some s.ctl.params.exitLimit }
  rw [core_y, core_x]

end

end Sys2Proof.Machine
end

