-- ==== Sys2Proof/Proofs/Slice0/LabelJobs.lean ====
section
/-! Label jobs: their orders, their start and their withdrawal (R136, R138). -/

namespace Sys2Proof.Machine

open Sys2Proof

section
variable {s t : State} {i j : Slot} {c d : Context} {k : LineNo} {n : Nat} {dst : RoleInst} {r : LabelRecord} {keep : Bool}
  {a : Fin 32}

/-! ### The orders of a job (R136) -/

theorem pairRows_length (rows : List Text) : (pairRows rows).length = (rows.length + 1) / 2 := by
  induction rows using pairRows.induct with
  | case1 => rfl
  | case2 => simp [pairRows]
  | case3 x y rest ih => simp [pairRows, ih]; omega

theorem getElem?_pairRows (rows : List Text) (n : Nat) (low : n < (rows.length + 1) / 2) :
    (pairRows rows)[n]? = some ((rows.drop (2 * n)).take 2) := by
  induction rows using pairRows.induct generalizing n with
  | case1 => simp at low
  | case2 x =>
    obtain rfl : n = 0 := by simp at low; omega
    rfl
  | case3 x y rest ih =>
    cases n with
    | zero => rfl
    | succ n =>
      have low' : n < (rest.length + 1) / 2 := by simp at low; omega
      simpa [pairRows, Nat.mul_succ] using ih n low'

theorem segmentsOf_length (r : LabelRecord) : (segmentsOf r).length = (r.rows.length + 1) / 2 + 1 := by
  simp [segmentsOf, pairRows_length]

theorem jobOrders_length (dst : RoleInst) (r : LabelRecord) : (jobOrders dst r).length = (r.rows.length + 1) / 2 + 1 := by
  simp [jobOrders, segmentsOf_length]

theorem getElem?_jobOrders (dst : RoleInst) (r : LabelRecord) (n : Nat) : (jobOrders dst r)[n]? =
    ((segmentsOf r)[n]?).map fun x => .segment dst r.serial r.kind (n + 1) (segmentsOf r).length x := by
  unfold jobOrders
  dsimp only
  rw [List.getElem?_map]
  by_cases low : n < (segmentsOf r).length
  · rw [List.getElem?_eq_getElem (by simpa using low), List.getElem?_eq_getElem low]
    simp
  · rw [List.getElem?_eq_none (by simpa using low), List.getElem?_eq_none (by simpa using low)]
    rfl

/-- An order of a job is one of its segments for the applicator. -/
theorem of_mem_jobOrders {o : Order} (mem : o ∈ jobOrders dst r) :
    ∃ m, ∃ x : Segment, o = .segment dst r.serial r.kind (m + 1) (segmentsOf r).length x ∧ (jobOrders dst r)[m]? = some o := by
  obtain ⟨m, at_m⟩ := List.mem_iff_getElem?.mp mem
  obtain ⟨x, -, eq⟩ := Option.map_eq_some_iff.mp ((getElem?_jobOrders dst r m).symm.trans at_m)
  exact ⟨m, x, eq.symm, at_m⟩

theorem isSegmentOf_jobOrders {o : Order} (mem : o ∈ jobOrders dst r) : o.isSegmentOf r.serial = true ∧ o.dst = dst := by
  obtain ⟨m, x, rfl, -⟩ := of_mem_jobOrders mem
  exact ⟨beq_self_eq_true _, rfl⟩

/-- Segment 1 stands first. -/
theorem isFirstOf_jobOrders (m : Nat) (o : Order) (at_m : (jobOrders dst r)[m]? = some o) :
    o.isFirstOf r.serial = true ↔ m = 0 := by
  obtain ⟨x, -, rfl⟩ := Option.map_eq_some_iff.mp ((getElem?_jobOrders dst r m).symm.trans at_m)
  simp [Order.isFirstOf]

/-! ### The withdrawal (R138) -/

/-- What waits of a job is dropped, and the orders before it stay. -/
theorem dropJob_jobOrders {os : List Order} (others : ∀ o ∈ os, o.isSegmentOf r.serial = false) (n : Nat) :
    dropJob r.serial (os ++ (jobOrders dst r).drop n) = os := by
  rw [dropJob_append _ others, dropJob_of_segments (fun o mem => (isSegmentOf_jobOrders (List.mem_of_mem_drop mem)).1)
    (fun o mem => ?_), List.append_nil]
  rw [List.tail_drop] at mem
  obtain ⟨m, at_m⟩ := List.mem_iff_getElem?.mp mem
  rw [List.getElem?_drop] at at_m
  exact Bool.eq_false_iff.mpr fun first => by
    have zero := (isFirstOf_jobOrders _ o at_m).mp first
    omega

/-- No segment has been placed exactly when the first still waits. -/
theorem nonePlaced_jobOrders {os : List Order} (others : ∀ o ∈ os, o.isSegmentOf r.serial = false) (n : Nat) :
    nonePlaced r.serial (os ++ (jobOrders dst r).drop n) = true ↔ n = 0 := by
  have before : os.any (Order.isFirstOf r.serial) = false := List.any_eq_false.mpr fun o mem first => by
    have none := others o mem
    cases o <;> simp_all [Order.isFirstOf, Order.isSegmentOf]
  rw [nonePlaced, List.any_append, before, Bool.false_or, List.any_eq_true]
  constructor
  · rintro ⟨o, mem, first⟩
    obtain ⟨m, at_m⟩ := List.mem_iff_getElem?.mp mem
    rw [List.getElem?_drop] at at_m
    have zero := (isFirstOf_jobOrders _ o at_m).mp first
    omega
  · rintro rfl
    have some : (jobOrders dst r)[0]? = _ := List.getElem?_eq_getElem (by rw [jobOrders_length]; omega)
    exact ⟨_, List.mem_of_getElem? some, (isFirstOf_jobOrders 0 _ some).mpr rfl⟩

/-- With no room an offer changes no record. -/
theorem State.offer_tracker_of_full (h : Holder) (full : 32 ≤ s.ring.origin.length) : (s.offer h).tracker = s.tracker := by
  obtain ⟨n, eq | eq⟩ := State.offer_cases h s
  · rw [eq, State.giveMany_of_full n h full]
  · rw [eq, State.giveMany_of_full n h full]
    rfl

theorem State.withdraw_of_none (hc : s.ctx i = some c) (idle : c.job = none) : s.withdraw dst keep i = s :=
  if_neg (by simp [hc, idle])

/-- A withdrawal while the origin queue is full. -/
theorem State.withdraw_of_full {x : Job} (hc : s.ctx i = some c) (job : c.job = some x) (full : 32 ≤ s.ring.origin.length) :
    (s.withdraw dst keep i).ctx i = some (c.withdrawn dst keep) := by
  have eq : s.withdraw dst keep i = ((s.modCtx i (Context.withdrawn dst keep)).offer (.context i)).prune (.context i) :=
    if_pos (by simp [hc, job])
  have offered := State.offer_tracker_of_full (s := s.modCtx i (Context.withdrawn dst keep)) (.context i) full
  have pruned := (State.prune_only (.context i) ((s.modCtx i (Context.withdrawn dst keep)).offer (.context i))).tracker
  rw [eq, State.ctx_of_tracker (pruned.resolve_left (by decide)), State.ctx_of_tracker offered, State.ctx_modCtx_self, hc]
  rfl

/-- A job withdrawn with its orders from the n-th on still waiting. -/
theorem Context.withdrawn_eq {x : Job} {os : List Order} (job : c.job = some x) (serial : r.serial = x.serial)
    (others : ∀ o ∈ os, o.isSegmentOf x.serial = false) (n : Nat) (orders : c.orders = os ++ (jobOrders dst r).drop n) :
    c.withdrawn dst keep = { c with
      job := none
      voided := if keep = true ∧ x.kind = .dispatchLabel then some x.serial else c.voided
      orders := if x.stage = .placing ∧ n = 0 then os else os ++ [.cancel dst x.serial] } := by
  rw [← serial] at others
  unfold Context.withdrawn
  rw [job]
  dsimp only
  rw [orders, ← serial, dropJob_jobOrders others]
  simp only [nonePlaced_jobOrders others]

/-! ### The start (R136, R156) -/

theorem State.startJob_of_label (dst : RoleInst) (hc : s.ctx i = some c) (label : c.label = some r) : s.startJob dst i =
    (s.putCtx i (some { c with
      job := some ⟨.placing, r.kind, r.serial⟩, orders := c.orders ++ jobOrders dst r })).offer (.context i) := by
  have record : (s.ctx i).bind (·.label) = some r := by rw [hc]; exact label
  unfold State.startJob
  rw [record]
  dsimp only
  rw [State.modCtx_of_ctx hc, State.sendOrders, State.modCtx_of_ctx (State.ctx_putCtx_self _ _ _), State.putCtx_putCtx]

/-- A job once one of its segments has been placed, the given ones still waiting. -/
def Job.placed (x : Job) (rest : List Order) : Job := if rest = [] then { x with stage := .sent } else x

theorem Context.segmentPlaced_of_segments {x : Job} {o : Order} {os : List Order} (stage : x.stage = .placing)
    (segment : o.isSegmentOf x.serial = true) (segments : ∀ o ∈ os, o.isSegmentOf x.serial = true) :
    ({ c with job := some x, orders := os } : Context).segmentPlaced o = { c with job := some (x.placed os), orders := os } := by
  cases o with
  | cancel => cases segment
  | route => cases segment
  | segment _ n =>
    obtain rfl : n = x.serial := by simpa [Order.isSegmentOf] using segment
    unfold Context.segmentPlaced Job.placed
    cases os with
    | nil => simp [stage]
    | cons o os => simp [segments o (by simp)]

/-- A segment placed: the telegram joins the origin queue. -/
theorem State.giveOne_segment {x : Job} {o : Order} {os : List Order} (stage : x.stage = .placing)
    (segment : o.isSegmentOf x.serial = true) (segments : ∀ o ∈ os, o.isSegmentOf x.serial = true)
    (holder : s.holderOf o.dst = some a) (hc : s.ctx i = some { c with job := some x, orders := o :: os }) :
    s.giveOne (.context i) = (s.putCtx i (some { c with job := some (x.placed os), orders := os })).place
      ⟨addressByte a, s.ownAddress, o.kind, o.payload⟩ := by
  refine State.giveOne_of_some ?_
  have order : (s.ctx i).map (·.orders) = some (o :: os) := by rw [hc]; rfl
  have sent : s.toRole o.dst o.kind o.payload = some ⟨addressByte a, s.ownAddress, o.kind, o.payload⟩ := by
    rw [State.toRole, holder]
    rfl
  have kept : (s.modCtx i fun c => { c with orders := os }.segmentPlaced o) =
      s.putCtx i (some { c with job := some (x.placed os), orders := os }) := by
    rw [State.modCtx_of_ctx hc]
    exact congrArg (fun y => s.putCtx i (some y)) (Context.segmentPlaced_of_segments stage segment segments)
  simp only [State.take, order, sent, kept]

/-- The context's orders, all segments of its job, leave one after another while there is room. -/
theorem State.giveMany_segments {x : Job} (stage : x.stage = .placing) (o : Order) (os : List Order)
    (segments : ∀ y ∈ o :: os, y.isSegmentOf x.serial = true ∧ y.dst = dst) (holder : s.holderOf dst = some a)
    (hc : s.ctx i = some { c with job := some x, orders := o :: os }) (room : s.ring.origin.length + os.length < 32) :
    State.giveMany (os.length + 1) (.context i) s =
      (s.putCtx i (some { c with job := some { x with stage := .sent }, orders := [] })).onRing fun y => { y with
        origin := y.origin ++ (o :: os).map fun o => ⟨addressByte a, s.ownAddress, o.kind, o.payload⟩ } := by
  have turn (n : Nat) (o : Order) (os : List Order) (s : State) (segments : ∀ y ∈ o :: os, y.isSegmentOf x.serial = true ∧ y.dst = dst)
      (holder : s.holderOf dst = some a) (hc : s.ctx i = some { c with job := some x, orders := o :: os })
      (free : s.ring.origin.length < 32) : State.giveMany (n + 1) (.context i) s = State.giveMany n (.context i)
        ((s.putCtx i (some { c with job := some (x.placed os), orders := os })).place
          ⟨addressByte a, s.ownAddress, o.kind, o.payload⟩) := by
    have more : s.hasMore (.context i) = true := by simp [State.hasMore, State.heldCount, hc]
    have room : s.room = true := decide_eq_true free
    rw [State.giveMany, if_pos (by rw [room, more]; rfl), State.giveOne_segment (a := a) stage (segments o (by simp)).1
      (fun y mem => (segments y (by simp [mem])).1) ((segments o (by simp)).2.symm ▸ holder) hc]
  induction os generalizing s o with
  | nil => exact turn 0 o [] s segments holder hc (by simpa using room)
  | cons y os ih =>
    simp only [List.length_cons] at room
    rw [turn _ o (y :: os) s segments holder hc (by omega)]
    obtain ⟨t, given⟩ : ∃ t, (s.putCtx i (some { c with job := some x, orders := y :: os })).place
      ⟨addressByte a, s.ownAddress, o.kind, o.payload⟩ = t := ⟨_, rfl⟩
    have origin : t.ring.origin.length = s.ring.origin.length + 1 := by
      rw [← given]
      exact List.length_append
    have rest := ih (s := t) y (fun z mem => segments z (by simp [mem])) (by rw [← given]; exact holder)
      (by rw [← given]; exact State.ctx_putCtx_self i _ s) (by omega)
    refine (congrArg (State.giveMany _ _) given).trans (rest.trans ?_)
    rw [← given]
    simp [State.putCtx, State.place, State.onTracker, State.onRing, State.ownAddress]

theorem State.hasMore_of_empty (hc : s.ctx i = some c) (none : c.orders = []) : s.hasMore (.context i) = false := by
  simp [State.hasMore, State.heldCount, hc, none]

/-- With nothing waiting, a holder that can give all it has gives it (R156). -/
theorem State.offer_of_given {h : Holder} (free : s.ring.waiting = []) (given : State.giveMany (s.heldCount h) h s = t)
    (emptied : t.hasMore h = false) : s.offer h = t := by
  unfold State.offer
  simp [free, given, emptied]

/-- A job started while the origin queue is full (R136). -/
theorem State.startJob_of_full (dst : RoleInst) (hc : s.ctx i = some c) (label : c.label = some r)
    (full : 32 ≤ s.ring.origin.length) : (s.startJob dst i).ctx i = some { c with
      job := some ⟨.placing, r.kind, r.serial⟩, orders := c.orders ++ jobOrders dst r } := by
  rw [State.startJob_of_label dst hc label]
  obtain ⟨t, put⟩ : ∃ t, s.putCtx i (some { c with
    job := some ⟨.placing, r.kind, r.serial⟩, orders := c.orders ++ jobOrders dst r }) = t := ⟨_, rfl⟩
  have offered := State.offer_tracker_of_full (s := t) (.context i) (by rw [← put]; exact full)
  rw [put, State.ctx_of_tracker offered, ← put, State.ctx_putCtx_self]

/-- A job started with room for all its segments, and nothing waiting (R136, R156). -/
theorem State.startJob_of_room (hc : s.ctx i = some c) (label : c.label = some r) (free : s.ring.waiting = [])
    (none : c.orders = []) (holder : s.holderOf dst = some a)
    (room : s.ring.origin.length + (jobOrders dst r).length ≤ 32) : s.startJob dst i =
      (s.putCtx i (some { c with job := some ⟨.sent, r.kind, r.serial⟩, orders := [] })).onRing fun y => { y with
        origin := y.origin ++ (jobOrders dst r).map fun o => ⟨addressByte a, s.ownAddress, o.kind, o.payload⟩ } := by
  rw [State.startJob_of_label dst hc label, none, List.nil_append]
  obtain ⟨t, put⟩ : ∃ t, s.putCtx i (some { c with job := some ⟨.placing, r.kind, r.serial⟩, orders := jobOrders dst r }) = t :=
    ⟨_, rfl⟩
  have ctx : t.ctx i = some { c with job := some ⟨.placing, r.kind, r.serial⟩, orders := jobOrders dst r } :=
    put ▸ State.ctx_putCtx_self _ _ _
  have ring : t.ring = s.ring := by rw [← put]; rfl
  have segments : ∀ o ∈ jobOrders dst r, o.isSegmentOf r.serial = true ∧ o.dst = dst := fun o => isSegmentOf_jobOrders
  have length := jobOrders_length dst r
  cases orders : jobOrders dst r with
  | nil =>
    rw [orders] at length
    cases length
  | cons o os =>
    rw [orders] at ctx segments room put
    have held : t.heldCount (.context i) = os.length + 1 := by simp [State.heldCount, ctx]
    have given := State.giveMany_segments (s := t) (dst := dst) (a := a) (x := ⟨.placing, r.kind, r.serial⟩) rfl o os segments
      (by rw [← put]; exact holder) ctx (by
        rw [ring]
        simp only [List.length_cons] at room
        omega)
    obtain ⟨u, sent⟩ : ∃ u, State.giveMany (os.length + 1) (.context i) t = u := ⟨_, rfl⟩
    have emptied : u.hasMore (.context i) = false := by
      rw [← sent, given]
      exact State.hasMore_of_empty (c := { c with job := some ⟨.sent, r.kind, r.serial⟩, orders := [] })
        (State.ctx_putCtx_self i _ t) rfl
    have offered : t.offer (.context i) = u := State.offer_of_given (by rw [ring, free]) (by rw [held, sent]) emptied
    rw [put, offered, ← sent, given, ← put, State.putCtx_putCtx]
    rfl

/-! ### The jobs of a line -/

theorem State.startJobs_of_one (alone : s.unlabelled k = [i]) :
    s.startJobs k = if (s.ctx i).any Context.startable then s.startJob (.labelApplicator k) i else s := by
  unfold State.startJobs
  rw [alone]

theorem State.startJobs_of_two {rest : List Slot} (waits : s.unlabelled k = i :: j :: rest)
    (off : (s.ctx i).any Context.startable = false) : s.startJobs k =
      if (s.ctx i).any (fun c => c.job.isSome) && (s.ctx j).any Context.startable then s.startJob (.labelApplicator k) j
      else s := by
  unfold State.startJobs
  rw [waits]
  dsimp only
  rw [off]
  rfl

theorem Context.labelVoid_handed (y : Reason) (c : Context) : (c.handed y).labelVoid = c.labelVoid := by
  unfold Context.handed
  split
  · rfl
  · split <;> rfl

theorem Context.startable_of_job {x : Job} (job : c.job = some x) : c.startable = false := by
  simp [Context.startable, job]

end

end Sys2Proof.Machine

namespace Sys2Proof.Proofs

open Sys2Proof Sys2Proof.Machine

/-- The cases of APPLIED for the LABELLING context of a line (R140, R142). -/
theorem applied_cases {s : State} {src : Byte} {n : Nat} {r : Option Text} {k : LineNo} {i : Slot} {c : Context}
    (first : s.labelling k = some i) (hc : s.ctx i = some c) :
    (∀ x, c.job = some x → x.serial = n → ∃ d, (s.applied k n r src).ctx i = some d
      ∧ d.phase = .exiting ∧ d.timer = some s.ctl.params.exitLimit ∧ d.job = none ∧ d.labelVoid = c.labelVoid
      ∧ (x.kind = .rejectTicket ∨ (r.isSome = true ∧ r = c.licence) →
          d.verdict = c.verdict ∧ d.reasons = c.reasons ∧ d.route = some (s.routeDest c false))
      ∧ (x.kind = .dispatchLabel → r = none ∨ r ≠ c.licence →
          Reason.labelReadback ∈ d.reasons ∧ d.route = some .lateReject))
    ∧ (c.hasJob n = false → c.voided = some n → ∃ d, (s.applied k n r src).ctx i = some d ∧ d.phase = .exiting
      ∧ d.timer = some s.ctl.params.exitLimit ∧ d.labelVoid = true ∧ d.job = none ∧ d.route = some .lateReject
      ∧ d.verdict = c.verdict)
    ∧ (c.hasJob n = false → c.voided ≠ some n → s.otherJob k i n = none →
      s.applied k n r src = s.stray kLabelEvent src none r .noCandidate)
    ∧ (∀ j o, c.hasJob n = false → c.voided ≠ some n → s.otherJob k i n = some j → s.ctx j = some o →
      ∃ d e, (s.applied k n r src).ctx i = some d ∧ (s.applied k n r src).ctx j = some e
        ∧ d.phase = .exiting ∧ d.timer = some s.ctl.params.exitLimit ∧ d.route = some .lateReject ∧ d.job = none
        ∧ Reason.labelReadback ∈ d.reasons ∧ Reason.labelReadback ∈ e.reasons) := by
  rw [State.applied_of_labelling first hc]
  refine ⟨fun x job serial => ?_, fun other voided => ?_, fun other unvoided nobody => ?_, fun j o other unvoided found ho => ?_⟩
  · rw [if_pos (State.hasJob_of_serial job serial), job]
    by_cases own : x.kind = .rejectTicket ∨ (r.isSome = true ∧ r = c.licence)
    · have left : (if (some x).any fun j => j.kind == .rejectTicket then (s.endJob i).formRoute k i false
          else if r.isSome && r == c.licence then (s.endJob i).formRoute k i false
          else ((s.endJob i).handSlot i .labelReadback).formRoute k i true) = (s.endJob i).formRoute k i false := by
        rcases own with ticket | ⟨present, same⟩
        · simp [ticket]
        · simp [← same, present]
      obtain ⟨d, hd, idle, core⟩ := State.formRoute_endJob k false hc
      rw [left]
      refine ⟨d, hd, (congrArg Context.phase core :), (congrArg Context.timer core :), idle, (congrArg Context.labelVoid core :),
        fun _ => ⟨(congrArg Context.verdict core :), (congrArg Context.reasons core :), (congrArg Context.route core :)⟩,
        fun label misread => ?_⟩
      rcases own with ticket | ⟨present, same⟩
      · rw [label] at ticket
        cases ticket
      · rcases misread with absent | differs
        · rw [absent] at present
          cases present
        · exact absurd same differs
    · obtain ⟨ticket, misread⟩ := not_or.mp own
      have left : (if (some x).any fun j => j.kind == .rejectTicket then (s.endJob i).formRoute k i false
          else if r.isSome && r == c.licence then (s.endJob i).formRoute k i false
          else ((s.endJob i).handSlot i .labelReadback).formRoute k i true) =
            ((s.endJob i).handSlot i .labelReadback).formRoute k i true := by
        rw [if_neg (by simpa using ticket), if_neg (by simpa using misread)]
      obtain ⟨d, hd, idle, core⟩ := State.formRoute_misread k hc
      rw [left]
      have reasons : d.reasons = (c.handed .labelReadback).reasons := (congrArg Context.reasons core :)
      refine ⟨d, hd, (congrArg Context.phase core :), (congrArg Context.timer core :), idle,
        (congrArg Context.labelVoid core :).trans (Context.labelVoid_handed _ c), fun fit => absurd fit own,
        fun _ _ => ⟨reasons ▸ Context.mem_handed _ c, (congrArg Context.route core :)⟩⟩
  · obtain ⟨d, hd, idle, core⟩ := State.formRoute_voided k hc
    rw [if_neg (by simp [other]), if_pos voided]
    exact ⟨d, hd, (congrArg Context.phase core :), (congrArg Context.timer core :), (congrArg Context.labelVoid core :), idle,
      (congrArg Context.route core :), (congrArg Context.verdict core :)⟩
  · rw [if_neg (by simp [other]), if_neg unvoided, nobody]
  · rw [if_neg (by simp [other]), if_neg unvoided, found]
    have ne : j ≠ i := by
      have fit := List.find?_some found
      simp only [Bool.and_eq_true, decide_eq_true_eq] at fit
      exact fit.1
    obtain ⟨d, e, hd, he, idle, core, core_e⟩ := State.swapped_spec k ne hc ho
    have reasons : d.reasons = (c.handed .labelReadback).reasons := (congrArg Context.reasons core :)
    have reasons_e : e.reasons = (o.handed .labelReadback).reasons := (congrArg Context.reasons core_e :)
    exact ⟨d, e, hd, he, (congrArg Context.phase core :), (congrArg Context.timer core :), (congrArg Context.route core :), idle,
      reasons ▸ Context.mem_handed _ c, reasons_e ▸ Context.mem_handed _ o⟩

/-- Settles O39, by the cases of APPLIED, the orders of a job and what its start and its withdrawal leave. -/
theorem labelJobsAndApplied : Obligations.LabelJobsAndApplied := by
  refine ⟨?_, fun dst r m length => ⟨fun n low => ?_, ?_, ?_⟩, fun s dst i c r hc label => ⟨fun full => ?_, fun a free none holder room => ?_⟩,
    fun s k i c hc => ⟨fun alone => ⟨fun idle sendable => ?_, fun off => ?_⟩, fun j rest d waits hd => ⟨fun busy idle sendable => ?_,
      fun idle off => ?_⟩⟩, fun s dst keep i c hc => ⟨fun idle => ?_, fun x r n os job full serial others orders => ?_⟩⟩
  · rintro s dst src b n r k hears short ⟨_, read, rfl⟩ role
    have takes := exec_labelEvent (x := .applied dst src b) (dst := dst) hears (by simpa using by omega) rfl role read
    obtain ⟨a, passed⟩ : ∃ a, s.passed ⟨dst, src, kLabelEvent, 3 :: b⟩ = a := ⟨_, rfl⟩
    have taken : exec (.applied dst src b) s = .next (a.applied k n r src) := by rw [takes, passed]; rfl
    have stray : (s.passed ⟨dst, src, 0x09, 3 :: b⟩).stray 0x09 src none r .noCandidate =
      a.stray kLabelEvent src none r .noCandidate := by rw [← passed]; rfl
    have ctx (i : Slot) : a.ctx i = s.ctx i := passed ▸ State.passed_ctx _ s i
    have labelling : a.labelling k = s.labelling k := passed ▸ State.passed_labelling _ s k
    have line : a.line k = s.line k := passed ▸ State.passed_line _ s k
    have ctl : a.ctl = s.ctl := passed ▸ State.passed_ctl _ s
    have refs : a.refs = s.refs := passed ▸ State.passed_refs _ s
    have other (i : Slot) : a.otherJob k i n = s.otherJob k i n := by simp only [State.otherJob, line, ctx]
    rw [taken, stray]
    refine ⟨fun nobody => by rw [State.applied_of_none (labelling.trans nobody)], fun i c first hc => ?_⟩
    obtain ⟨own, voided, nobody, swapped⟩ := applied_cases (r := r) (src := src) (n := n) (labelling.trans first)
      ((ctx i).trans hc)
    rw [ctl] at own voided swapped
    refine ⟨fun j job serial => ?_, fun free kept => ?_, fun free kept none => ?_, fun j o free kept found ho => ?_⟩
    · obtain ⟨d, hd, phase, timer, idle, void, fits, misread⟩ := own j job serial
      refine ⟨_, d, rfl, hd, phase, timer, idle, void, fun fit => ?_, misread⟩
      obtain ⟨verdict, reasons, route⟩ := fits fit
      refine ⟨verdict, reasons, fun x pass bound => ?_, fun other => ?_⟩
      · have bound' : a.boundConsignment c = some x := by
          have plans : a.planAt = s.planAt := funext fun m => State.planAt_of_refs refs m
          rw [← bound]
          simp only [State.boundConsignment, State.boundPlan, plans, State.consignment, refs]
        rw [route]
        simp [State.routeDest, pass, bound']
      · rw [route]
        simp [State.routeDest, other]
    · obtain ⟨d, rest⟩ := voided free kept
      exact ⟨_, d, rfl, rest⟩
    · rw [nobody free kept ((other i).trans none)]
    · obtain ⟨d, e, rest⟩ := swapped j o free kept ((other i).trans found) ((ctx j).trans ho)
      exact ⟨_, d, e, rfl, rest⟩
  · rw [getElem?_jobOrders, segmentsOf_length, ← length]
    have at_n : (segmentsOf r)[n]? = some (.rows ((r.rows.drop (2 * n)).take 2)) := by
      rw [segmentsOf, List.getElem?_append_left (by simpa [pairRows_length] using length ▸ low), List.getElem?_map,
        getElem?_pairRows _ _ (length ▸ low)]
      rfl
    rw [at_n]
    rfl
  · have last : (segmentsOf r)[m]? = some (.barcodes r.barcodes) := by
      rw [segmentsOf, List.getElem?_append_right (by simp [pairRows_length, length])]
      simp [pairRows_length, length]
    rw [getElem?_jobOrders, last, segmentsOf_length, ← length]
    rfl
  · rw [jobOrders_length, length]
  · exact ⟨_, rfl, State.startJob_of_full dst hc label full, fun j ne => State.startJob_same (by simpa using ne),
      State.startJob_only _ _ _⟩
  · have eq := State.startJob_of_room hc label free none holder room
    refine ⟨_, rfl, ?_, ?_, ?_, fun j ne => State.startJob_same (by simpa using ne), State.startJob_only _ _ _⟩
    · rw [eq]
      exact (State.ctx_putCtx_self _ _ _).trans (by rw [none])
    · rw [eq]
      rfl
    · rw [eq]
      exact free
  · rw [State.startJobs_of_one alone, if_pos (by simp [hc, Context.startable, idle, sendable])]
  · rw [State.startJobs_of_one alone, if_neg]
    rcases off with busy | off
    · simp [hc, Context.startable, Option.isSome_iff_ne_none.mp busy]
    · simp [hc, Context.startable, off]
  · obtain ⟨x, job⟩ := Option.isSome_iff_exists.mp busy
    rw [State.startJobs_of_two waits (by rw [hc]; exact Context.startable_of_job job), if_pos]
    simp [hc, hd, Context.startable, job, idle, sendable]
  · rw [State.startJobs_of_two waits (by simp [hc, Context.startable, off]), if_neg]
    simp [hc, idle]
  · exact State.withdraw_of_none hc idle
  · refine ⟨_, rfl, fun j ne => State.withdraw_same _ _ (by simpa using ne), State.withdraw_only _ _ _ _, ?_⟩
    rw [State.withdraw_of_full hc job full, Context.withdrawn_eq job serial others n orders]

end Sys2Proof.Proofs
end

