-- ==== Sys2Proof/Proofs/Slice0/Tallies.lean ====
section
/-! The tally: what a read changes in the case map and the lines, and that it stays consistent (R55 to R69). -/

namespace Sys2Proof.Machine

open Sys2Proof

section
variable {t u : Tally} {i j : Nat} {e : CaseEntry} {c m n : Content} {ps : List (Nat × CaseEntry)} {ls : List TallyLine}
  {l : TallyLine}

/-! ### Equal contents (R22, R55) -/

theorem sameLot_iff {a b : Option Text} : sameLot a b = true ↔ a.map padLot = b.map padLot := by
  cases a <;> cases b <;> simp [sameLot, lotEq]

/-- What equal contents agree in. -/
def Content.sign (c : Content) : Text × Option Text × Option Nat := (c.article, c.lot.map padLot, c.best)

/-- Contents are equal where they agree in the article, the padded lot and the best-before. -/
theorem sameContent_iff {a b : Content} : sameContent a b = true ↔ a.sign = b.sign := by
  simp [sameContent, Content.sign, sameLot_iff, and_assoc]

theorem sameContent_false {a b : Content} : sameContent a b = false ↔ a.sign ≠ b.sign := by
  rw [Bool.eq_false_iff, ne_eq, sameContent_iff]

/-- A fill that adds something gives another content (R66). -/
theorem sameContent_filled {c r : Content} (ne : filled c r ≠ c) : sameContent c (filled c r) = false := by
  refine sameContent_false.mpr fun same => ne ?_
  have lots : c.lot.map padLot = (filled c r).lot.map padLot := congrArg (fun x => x.2.1) same
  have bests : c.best = (filled c r).best := congrArg (fun x => x.2.2) same
  have lot : (filled c r).lot = c.lot := by
    cases old : c.lot with
    | some x => simp [filled, old]
    | none =>
      rw [old] at lots
      exact Option.map_eq_none_iff.mp lots.symm
  exact Content.mk.injEq .. |>.mpr ⟨rfl, lot, bests.symm⟩

/-! ### The case map -/

/-- The entry of an index in a case map. -/
def caseAt (i : Nat) (ps : List (Nat × CaseEntry)) : Option CaseEntry := (ps.find? fun p => p.1 == i).map (·.2)

theorem Tally.entry_eq (t : Tally) (i : Nat) : t.entry i = caseAt i t.cases := rfl

/-- The cases of the other indices. -/
def otherCases (i : Nat) (g : CaseEntry → Bool) (ps : List (Nat × CaseEntry)) : Nat := ps.countP fun p => p.1 != i && g p.2

theorem caseAt_cons (j : Nat) (p : Nat × CaseEntry) (ps : List (Nat × CaseEntry)) :
    caseAt j (p :: ps) = if p.1 = j then some p.2 else caseAt j ps := by
  unfold caseAt
  by_cases h : p.1 = j <;> simp [h]

theorem caseAt_eq_none : caseAt j ps = none ↔ ∀ p ∈ ps, p.1 ≠ j := by
  simp [caseAt]

theorem caseAt_mem (found : caseAt j ps = some e) : (j, e) ∈ ps := by
  obtain ⟨p, hp, rfl⟩ := Option.map_eq_some_iff.mp found
  obtain rfl : p.1 = j := by simpa using List.find?_some hp
  exact List.mem_of_find?_eq_some hp

theorem caseAt_setCase (e : CaseEntry) (order : ps.Pairwise fun a b => a.1 < b.1) (i j : Nat) :
    caseAt j (setCase i e ps) = if j = i then some e else caseAt j ps := by
  induction ps with
  | nil =>
    rw [setCase, caseAt_cons]
    simp [eq_comm]
  | cons p ps ih =>
    unfold setCase
    split
    next => simp only [caseAt_cons, eq_comm]
    next =>
      split
      next same =>
        subst same
        simp only [caseAt_cons, eq_comm]
        split <;> rfl
      next =>
        rw [caseAt_cons, ih order.of_cons, caseAt_cons]
        split
        next here =>
          rw [if_neg]
          omega
        next => rfl

theorem mem_setCase (order : ps.Pairwise fun a b => a.1 < b.1) {p : Nat × CaseEntry} :
    p ∈ setCase i e ps ↔ p = (i, e) ∨ p ∈ ps ∧ p.1 ≠ i := by
  induction ps with
  | nil => simp [setCase]
  | cons q ps ih =>
    obtain ⟨least, rest⟩ := List.pairwise_cons.mp order
    have later : i ≤ q.1 → p ∈ ps → p.1 ≠ i := fun low mem => by
      have := least p mem
      omega
    unfold setCase
    split
    next low =>
      simp only [List.mem_cons]
      constructor
      · rintro (rfl | rfl | mem)
        · exact .inl rfl
        · exact .inr ⟨.inl rfl, low.ne'⟩
        · exact .inr ⟨.inr mem, later low.le mem⟩
      · rintro (rfl | ⟨mem, -⟩)
        · exact .inl rfl
        · exact .inr mem
    next =>
      split
      next same =>
        simp only [List.mem_cons]
        constructor
        · rintro (rfl | mem)
          · exact .inl rfl
          · exact .inr ⟨.inr mem, later same.le mem⟩
        · rintro (rfl | ⟨rfl | mem, ne⟩)
          · exact .inl rfl
          · exact absurd same.symm ne
          · exact .inr mem
      next other =>
        simp only [List.mem_cons, ih rest]
        constructor
        · rintro (rfl | rfl | ⟨mem, ne⟩)
          · exact .inr ⟨.inl rfl, Ne.symm other⟩
          · exact .inl rfl
          · exact .inr ⟨.inr mem, ne⟩
        · rintro (rfl | ⟨rfl | mem, ne⟩)
          · exact .inr (.inl rfl)
          · exact .inl rfl
          · exact .inr (.inr ⟨mem, ne⟩)

theorem setCase_order (order : ps.Pairwise fun a b => a.1 < b.1) : (setCase i e ps).Pairwise fun a b => a.1 < b.1 := by
  induction ps with
  | nil => simp [setCase]
  | cons p ps ih =>
    obtain ⟨least, rest⟩ := List.pairwise_cons.mp order
    unfold setCase
    split
    next low => exact List.pairwise_cons.mpr ⟨fun q mem => by
      rcases List.mem_cons.mp mem with rfl | mem
      · exact low
      · exact low.trans (least q mem), order⟩
    next =>
      split
      next same =>
        subst same
        exact List.pairwise_cons.mpr ⟨least, rest⟩
      next =>
        refine List.pairwise_cons.mpr ⟨fun q mem => ?_, ih rest⟩
        rcases (mem_setCase rest).mp mem with rfl | ⟨mem, -⟩
        · show p.1 < i
          omega
        · exact least q mem

theorem otherCases_setCase (i : Nat) (e : CaseEntry) (g : CaseEntry → Bool) (ps : List (Nat × CaseEntry)) :
    otherCases i g (setCase i e ps) = otherCases i g ps := by
  unfold otherCases
  induction ps with
  | nil => simp [setCase]
  | cons p ps ih =>
    unfold setCase
    split
    next => simp
    next =>
      split
      next same =>
        subst same
        simp
      next => simp [List.countP_cons, ih]

/-- The cases of a kind are those of the other indices and, where it is of that kind, that of the index. -/
theorem countP_eq_otherCases (order : ps.Pairwise fun a b => a.1 < b.1) (i : Nat) (g : CaseEntry → Bool) :
    (ps.countP fun p => g p.2) = otherCases i g ps + if (caseAt i ps).any g then 1 else 0 := by
  induction ps with
  | nil => rfl
  | cons p ps ih =>
    obtain ⟨least, rest⟩ := List.pairwise_cons.mp order
    have rest := ih rest
    unfold otherCases at rest ⊢
    rw [List.countP_cons, List.countP_cons, caseAt_cons, rest]
    by_cases same : p.1 = i
    · subst same
      have gone : caseAt p.1 ps = none := caseAt_eq_none.mpr fun q mem => (least q mem).ne'
      simp [gone]
    · simp [same]
      omega

/-! ### A tally without one of its cases -/

/-- The tally is consistent but for the case of one index, which no line and no number counts. -/
structure Tally.OkBut (i : Nat) (t : Tally) : Prop where
  order      : t.cases.Pairwise (fun a b => a.1 < b.1)
  indices    : ∀ p ∈ t.cases, 1 ≤ p.1 ∧ p.1 ≤ 255
  few        : t.lines.length ≤ 8
  distinct   : t.lines.Pairwise (fun a b => sameContent a.content b.content = false)
  counts     : ∀ l ∈ t.lines, 1 ≤ l.count ∧ l.count = otherCases i (· == .counted l.content) t.cases
  lined      : ∀ p ∈ t.cases, p.1 ≠ i → ∀ c, p.2 = .counted c → ∃ l ∈ t.lines, l.content = c
  unknowns   : t.unknowns = otherCases i (· == .unknown) t.cases
  unindexed  : t.unindexed ≤ 255
  duplicates : t.duplicates ≤ 255

theorem Tally.Ok.countP (h : t.Ok) (i : Nat) (g : CaseEntry → Bool) :
    (t.cases.countP fun p => g p.2) = otherCases i g t.cases + if (t.entry i).any g then 1 else 0 :=
  countP_eq_otherCases h.order i g

/-- A new index is counted nowhere. -/
theorem Tally.Ok.but (h : t.Ok) (unseen : t.entry i = none) : t.OkBut i where
  order := h.order
  indices := h.indices
  few := h.few
  distinct := h.distinct
  counts := fun l mem => by
    refine ⟨(h.counts l mem).1, (h.counts l mem).2.trans ((h.countP i (· == .counted l.content)).trans ?_)⟩
    simp [unseen]
  lined := fun p mem _ => h.lined p mem
  unknowns := h.unknowns.trans ((h.countP i (· == .unknown)).trans (by simp [unseen]))
  unindexed := h.unindexed
  duplicates := h.duplicates

/-- An UNKNOWN index is counted among the unknown ones only. -/
theorem Tally.Ok.but_unknown (h : t.Ok) (unknown : t.entry i = some .unknown) :
    Tally.OkBut i { t with unknowns := t.unknowns - 1 } where
  order := h.order
  indices := h.indices
  few := h.few
  distinct := h.distinct
  counts := fun l mem => by
    refine ⟨(h.counts l mem).1, (h.counts l mem).2.trans ((h.countP i (· == .counted l.content)).trans ?_)⟩
    simp [unknown]
  lined := fun p mem _ => h.lined p mem
  unknowns := by
    have all := h.unknowns.trans (h.countP i (· == .unknown))
    simp only [unknown, Option.any_some, beq_self_eq_true, if_true] at all
    show t.unknowns - 1 = otherCases i (· == .unknown) t.cases
    omega
  unindexed := h.unindexed
  duplicates := h.duplicates

theorem mem_lowerLine {x : TallyLine} : x ∈ lowerLine c ls ↔
    (x ∈ ls ∧ x.content ≠ c) ∨ ∃ l ∈ ls, l.content = c ∧ 1 < l.count ∧ x = { l with count := l.count - 1 } := by
  unfold lowerLine
  rw [List.mem_filterMap]
  constructor
  · rintro ⟨l, mem, eq⟩
    split at eq
    next same =>
      split at eq
      · cases eq
      next high => exact .inr ⟨l, mem, same, by omega, (Option.some.inj eq).symm⟩
    next other =>
      cases eq
      exact .inl ⟨mem, other⟩
  · rintro (⟨mem, other⟩ | ⟨l, mem, same, high, rfl⟩)
    · exact ⟨x, mem, if_neg other⟩
    · exact ⟨l, mem, by rw [if_pos same, if_neg (by omega)]⟩

/-- A line lowered is one of the lines by its content. -/
theorem exists_of_mem_lowerLine {x : TallyLine} (mem : x ∈ lowerLine c ls) : ∃ l ∈ ls, l.content = x.content := by
  rcases mem_lowerLine.mp mem with ⟨old, -⟩ | ⟨l, old, -, -, rfl⟩
  · exact ⟨x, old, rfl⟩
  · exact ⟨l, old, rfl⟩

theorem lowerLine_distinct (distinct : ls.Pairwise fun a b => sameContent a.content b.content = false) (c : Content) :
    (lowerLine c ls).Pairwise fun a b => sameContent a.content b.content = false := by
  refine List.Pairwise.filterMap _ (fun a b differ x hx y hy => ?_) distinct
  have content : ∀ {l x : TallyLine}, (if l.content = c then if l.count ≤ 1 then none else some { l with count := l.count - 1 }
      else some l) = some x → x.content = l.content := fun {l x} eq => by
    split at eq
    · split at eq
      · cases eq
      · cases eq
        rfl
    · cases eq
      rfl
  rw [content hx, content hy]
  exact differ

theorem lowerLine_length (c : Content) (ls : List TallyLine) : (lowerLine c ls).length ≤ ls.length :=
  List.length_filterMap_le _ _

/-- A counted index is counted in its line only. -/
theorem Tally.Ok.but_counted (h : t.Ok) (counted : t.entry i = some (.counted c)) :
    Tally.OkBut i { t with lines := lowerLine c t.lines } := by
  have count (l : TallyLine) (mem : l ∈ t.lines) :
      l.count = otherCases i (· == .counted l.content) t.cases + if l.content = c then 1 else 0 := by
    refine (h.counts l mem).2.trans ((h.countP i (· == .counted l.content)).trans ?_)
    rw [counted, Option.any_some]
    by_cases same : l.content = c
    · simp [same]
    · simp [same, Ne.symm same]
  exact {
    order := h.order
    indices := h.indices
    few := (lowerLine_length c t.lines).trans h.few
    distinct := lowerLine_distinct h.distinct c
    counts := fun x mem => by
      rcases mem_lowerLine.mp mem with ⟨old, other⟩ | ⟨l, old, same, high, rfl⟩
      · have all := count x old
        rw [if_neg other] at all
        exact ⟨(h.counts x old).1, all⟩
      · have all := count l old
        rw [if_pos same] at all
        refine ⟨?_, ?_⟩
        · show 1 ≤ l.count - 1
          omega
        · show l.count - 1 = otherCases i (· == .counted l.content) t.cases
          omega
    lined := fun p mem other d kind => by
      obtain ⟨l, hl, rfl⟩ := h.lined p mem d kind
      by_cases same : l.content = c
      · have some : 1 ≤ otherCases i (· == .counted l.content) t.cases :=
          List.countP_pos_iff.mpr ⟨p, mem, by simp [other, kind]⟩
        have all := count l hl
        rw [if_pos same] at all
        exact ⟨_, mem_lowerLine.mpr (.inr ⟨l, hl, same, by omega, rfl⟩), rfl⟩
      · exact ⟨l, mem_lowerLine.mpr (.inl ⟨hl, same⟩), rfl⟩
    unknowns := h.unknowns.trans ((h.countP i (· == .unknown)).trans (by simp [counted]))
    unindexed := h.unindexed
    duplicates := h.duplicates }

/-! ### A case counted in (R61) -/

theorem mem_raiseLine {x : TallyLine} : x ∈ raiseLine m ls ↔
    (x ∈ ls ∧ x.content ≠ m) ∨ ∃ l ∈ ls, l.content = m ∧ x = { l with count := l.count + 1 } := by
  unfold raiseLine
  rw [List.mem_map]
  constructor
  · rintro ⟨l, mem, rfl⟩
    by_cases same : l.content = m
    · exact .inr ⟨l, mem, same, if_pos same⟩
    · rw [if_neg same]
      exact .inl ⟨mem, same⟩
  · rintro (⟨mem, other⟩ | ⟨l, mem, same, rfl⟩)
    · exact ⟨x, mem, if_neg other⟩
    · exact ⟨l, mem, if_pos same⟩

theorem raiseLine_distinct (distinct : ls.Pairwise fun a b => sameContent a.content b.content = false) (m : Content) :
    (raiseLine m ls).Pairwise fun a b => sameContent a.content b.content = false := by
  have content (l : TallyLine) : (if l.content = m then { l with count := l.count + 1 } else l).content = l.content := by
    split <;> rfl
  unfold raiseLine
  rw [List.pairwise_map]
  simpa only [content] using distinct

theorem Tally.matching_eq_some : t.matching c = some m → ∃ l ∈ t.lines, l.content = m ∧ sameContent m c = true := by
  intro found
  obtain ⟨l, hl, rfl⟩ := Option.map_eq_some_iff.mp found
  exact ⟨l, List.mem_of_find?_eq_some hl, rfl, by simpa using List.find?_some hl⟩

theorem Tally.matching_eq_none : t.matching c = none ↔ ∀ l ∈ t.lines, sameContent l.content c = false := by
  simp [Tally.matching]

/-- The case of an index counted in the line of a content. -/
def Tally.withCase (i : Nat) (m : Content) (lines : List TallyLine) (t : Tally) : Tally :=
  { t with cases := setCase i (.counted m) t.cases, lines := lines }

theorem Tally.countIn_of_some (found : t.matching c = some m) :
    t.countIn i c = some (t.withCase i m (raiseLine m t.lines)) := by
  unfold Tally.countIn
  rw [found]
  rfl

theorem Tally.countIn_of_room (unmatched : t.matching c = none) (room : t.lines.length < 8) :
    t.countIn i c = some (t.withCase i c (t.lines ++ [⟨c, 1⟩])) := by
  unfold Tally.countIn
  rw [unmatched]
  exact if_pos room

theorem Tally.countIn_of_full (unmatched : t.matching c = none) (full : 8 ≤ t.lines.length) : t.countIn i c = none := by
  unfold Tally.countIn
  rw [unmatched]
  exact if_neg (Nat.not_lt.mpr full)

/-- The three outcomes of counting a case in. -/
theorem Tally.countIn_cases (i : Nat) (c : Content) (t : Tally) :
    (∃ m, t.matching c = some m ∧ t.countIn i c = some (t.withCase i m (raiseLine m t.lines)))
    ∨ (t.matching c = none ∧ t.lines.length < 8 ∧ t.countIn i c = some (t.withCase i c (t.lines ++ [⟨c, 1⟩])))
    ∨ (t.matching c = none ∧ 8 ≤ t.lines.length ∧ t.countIn i c = none) := by
  cases found : t.matching c with
  | some m => exact .inl ⟨m, rfl, Tally.countIn_of_some found⟩
  | none =>
    rcases Nat.lt_or_ge t.lines.length 8 with room | full
    · exact .inr (.inl ⟨rfl, room, Tally.countIn_of_room found room⟩)
    · exact .inr (.inr ⟨rfl, full, Tally.countIn_of_full found full⟩)

theorem countP_setCase (order : ps.Pairwise fun a b => a.1 < b.1) (i : Nat) (e : CaseEntry) (g : CaseEntry → Bool) :
    ((setCase i e ps).countP fun p => g p.2) = otherCases i g ps + if g e then 1 else 0 := by
  rw [countP_eq_otherCases (setCase_order order) i g, otherCases_setCase, caseAt_setCase e order, if_pos rfl, Option.any_some]

/-- A case set as counted, with the lines that then stand, is consistent with the rest. -/
theorem Tally.OkBut.withCase {lines : List TallyLine} (h : t.OkBut i) (low : 1 ≤ i) (high : i ≤ 255) (few : lines.length ≤ 8)
    (distinct : lines.Pairwise fun a b => sameContent a.content b.content = false)
    (counts : ∀ l ∈ lines, l.count = otherCases i (· == .counted l.content) t.cases + if l.content = m then 1 else 0)
    (positive : ∀ l ∈ lines, 1 ≤ l.count)
    (kept : ∀ l ∈ t.lines, ∃ x ∈ lines, x.content = l.content) (lined : ∃ x ∈ lines, x.content = m) :
    (t.withCase i m lines).Ok where
  order := setCase_order h.order
  indices := fun p mem => by
    rcases (mem_setCase h.order).mp mem with rfl | ⟨mem, -⟩
    · exact ⟨low, high⟩
    · exact h.indices p mem
  few := few
  distinct := distinct
  counts := fun l mem => by
    refine ⟨positive l mem, (counts l mem).trans (Eq.symm ?_)⟩
    refine (countP_setCase h.order i (.counted m) (· == .counted l.content)).trans ?_
    by_cases same : l.content = m
    · simp [same]
    · simp [same, Ne.symm same]
  lined := fun p mem d kind => by
    rcases (mem_setCase h.order).mp mem with rfl | ⟨mem, other⟩
    · obtain rfl : m = d := by simpa using kind
      exact lined
    · obtain ⟨l, hl, rfl⟩ := h.lined p mem other d kind
      exact kept l hl
  unknowns := h.unknowns.trans ((countP_setCase h.order i (.counted m) (· == .unknown)).trans (by simp)).symm
  unindexed := h.unindexed
  duplicates := h.duplicates

theorem Tally.OkBut.countIn (h : t.OkBut i) (low : 1 ≤ i) (high : i ≤ 255) (counted : t.countIn i c = some u) : u.Ok := by
  rcases Tally.countIn_cases i c t with ⟨m, found, eq⟩ | ⟨unmatched, room, eq⟩ | ⟨-, -, eq⟩
  · obtain rfl : _ = u := Option.some.inj (eq.symm.trans counted)
    obtain ⟨x, hx, content, -⟩ := Tally.matching_eq_some found
    refine h.withCase low high (by simpa [raiseLine] using h.few) (raiseLine_distinct h.distinct m) (fun l mem => ?_)
      (fun l mem => ?_) (fun l mem => ?_) ⟨_, mem_raiseLine.mpr (.inr ⟨x, hx, content, rfl⟩), content⟩
    · rcases mem_raiseLine.mp mem with ⟨old, other⟩ | ⟨y, old, same, rfl⟩
      · rw [if_neg other]
        exact (h.counts l old).2
      · rw [if_pos same]
        exact congrArg (· + 1) (h.counts y old).2
    · rcases mem_raiseLine.mp mem with ⟨old, other⟩ | ⟨y, old, same, rfl⟩
      · exact (h.counts l old).1
      · exact Nat.le_add_left 1 _
    · by_cases same : l.content = m
      · exact ⟨_, mem_raiseLine.mpr (.inr ⟨l, mem, same, rfl⟩), rfl⟩
      · exact ⟨l, mem_raiseLine.mpr (.inl ⟨mem, same⟩), rfl⟩
  · obtain rfl : _ = u := Option.some.inj (eq.symm.trans counted)
    have differ := Tally.matching_eq_none.mp unmatched
    have other (l : TallyLine) (mem : l ∈ t.lines) : l.content ≠ c := fun same => by
      have differs := differ l mem
      rw [same, sameContent_false] at differs
      exact differs rfl
    have alone : otherCases i (· == .counted c) t.cases = 0 := List.countP_eq_zero.mpr fun p mem fits => by
      simp only [Bool.and_eq_true, bne_iff_ne, ne_eq, beq_iff_eq] at fits
      obtain ⟨l, hl, content⟩ := h.lined p mem fits.1 c fits.2
      exact other l hl content
    refine h.withCase low high (by simpa using room) ?_ (fun l mem => ?_) (fun l mem => ?_)
      (fun l mem => ⟨l, by simp [mem], rfl⟩) ⟨⟨c, 1⟩, by simp, rfl⟩
    · exact List.pairwise_append.mpr ⟨h.distinct, List.pairwise_singleton _ _, fun l mem x hx => by
        rw [List.mem_singleton.mp hx]
        exact differ l mem⟩
    · rcases List.mem_append.mp mem with old | new
      · rw [if_neg (other l old)]
        exact (h.counts l old).2
      · rw [List.mem_singleton.mp new, if_pos rfl, alone]
    · rcases List.mem_append.mp mem with old | new
      · exact (h.counts l old).1
      · rw [List.mem_singleton.mp new]
  · cases eq.symm.trans counted

theorem Tally.OkBut.makeUnknown (h : t.OkBut i) (low : 1 ≤ i) (high : i ≤ 255) : (t.makeUnknown i).Ok where
  order := setCase_order h.order
  indices := fun p mem => by
    rcases (mem_setCase h.order).mp mem with rfl | ⟨mem, -⟩
    · exact ⟨low, high⟩
    · exact h.indices p mem
  few := h.few
  distinct := h.distinct
  counts := fun l mem => by
    refine ⟨(h.counts l mem).1, (h.counts l mem).2.trans (Eq.symm ?_)⟩
    exact (countP_setCase h.order i .unknown (· == .counted l.content)).trans (by simp)
  lined := fun p mem d kind => by
    rcases (mem_setCase h.order).mp mem with rfl | ⟨mem, other⟩
    · cases kind
    · exact h.lined p mem other d kind
  unknowns := by
    refine (congrArg (· + 1) h.unknowns).trans (Eq.symm ?_)
    exact (countP_setCase h.order i .unknown (· == .unknown)).trans (by simp)
  unindexed := h.unindexed
  duplicates := h.duplicates

end

end Sys2Proof.Machine
end

