-- ==== Sys2Proof/Proofs/Slice0/CaseReads.lean ====
section
/-! CASE_READ: what one read does to a tally (R60 to R68). -/

namespace Sys2Proof.Machine

open Sys2Proof

section
variable {t u : Tally} {r : CaseRead} {i j : Nat} {e : CaseEntry} {c m n : Content} {ls : List TallyLine} {l x : TallyLine}
  {a : Text}

/-! ### The kinds of read -/

/-- The content a readable read gives. -/
def CaseRead.content (r : CaseRead) (a : Text) : Content := ⟨a, r.lot, r.best⟩

theorem Tally.read_of_zero (zero : r.index = 0) : t.read r = (t.unindexedRead, none) := if_pos zero

theorem Tally.read_unreadable_new (indexed : r.index ≠ 0) (unreadable : r.article = none) (new : t.entry r.index = none) :
    t.read r = (t.makeUnknown r.index, none) := by
  unfold Tally.read
  rw [if_neg indexed, unreadable, new]

theorem Tally.read_unreadable_seen (indexed : r.index ≠ 0) (unreadable : r.article = none)
    (seen : t.entry r.index = some e) : t.read r = (t.duplicate, none) := by
  unfold Tally.read
  rw [if_neg indexed, unreadable, seen]

theorem Tally.read_new (indexed : r.index ≠ 0) (readable : r.article = some a) (new : t.entry r.index = none) :
    t.read r = ((t.countIn r.index (r.content a)).getD (t.makeUnknown r.index),
      if (t.countIn r.index (r.content a)).isSome then none else some .tallyOverflow) := by
  unfold Tally.read
  rw [if_neg indexed, readable, new]
  dsimp only
  show (match t.countIn r.index (r.content a) with | some t' => _ | none => _) = _
  cases t.countIn r.index (r.content a) <;> rfl

theorem Tally.read_unknown (indexed : r.index ≠ 0) (readable : r.article = some a)
    (unknown : t.entry r.index = some .unknown) :
    t.read r = (((t.countIn r.index (r.content a)).map fun u => { u with unknowns := u.unknowns - 1 }).getD t,
      if (t.countIn r.index (r.content a)).isSome then none else some .tallyOverflow) := by
  unfold Tally.read
  rw [if_neg indexed, readable, unknown]
  dsimp only
  show (match t.countIn r.index (r.content a) with | some t' => _ | none => _) = _
  cases t.countIn r.index (r.content a) <;> rfl

theorem Tally.read_counted (indexed : r.index ≠ 0) (readable : r.article = some a)
    (counted : t.entry r.index = some (.counted c)) : t.read r = t.repeated r.index c (r.content a) := by
  unfold Tally.read
  rw [if_neg indexed, readable, counted]
  rfl

theorem Tally.repeated_of_conflict (conflict : contradicts c n = true) : t.repeated i c n = (t, some .caseConflict) :=
  if_pos conflict

theorem Tally.repeated_of_same (agree : contradicts c n = false) (same : filled c n = c) :
    t.repeated i c n = (t.duplicate, none) := by
  unfold Tally.repeated
  rw [if_neg (by simp [agree])]
  exact if_pos same

theorem Tally.repeated_of_fill (agree : contradicts c n = false) (ne : filled c n ≠ c) :
    t.repeated i c n = t.fill i c (filled c n) := by
  unfold Tally.repeated
  rw [if_neg (by simp [agree])]
  exact if_neg ne

/-- The tally with the case of a content taken out of its line. -/
def Tally.without (c : Content) (t : Tally) : Tally := { t with lines := lowerLine c t.lines }

theorem Tally.fill_eq (i : Nat) (c n : Content) (t : Tally) : t.fill i c n =
    (((t.without c).countIn i n).getD t, if ((t.without c).countIn i n).isSome then none else some .tallyOverflow) := by
  unfold Tally.fill
  show (match (t.without c).countIn i n with | some t' => _ | none => _) = _
  cases (t.without c).countIn i n <;> rfl

/-! ### A read keeps the tally consistent -/

theorem Tally.Ok.duplicate (h : t.Ok) : t.duplicate.Ok :=
  ⟨h.order, h.indices, h.few, h.distinct, h.counts, h.lined, h.unknowns, h.unindexed, Nat.min_le_left _ _⟩

theorem Tally.Ok.unindexedRead (h : t.Ok) : t.unindexedRead.Ok :=
  ⟨h.order, h.indices, h.few, h.distinct, h.counts, h.lined, h.unknowns, Nat.min_le_left _ _, h.duplicates⟩

/-- The number of unknown indices has no part in counting a case in. -/
theorem Tally.countIn_unknowns (i : Nat) (c : Content) (t : Tally) : (t.countIn i c).map (fun u => { u with unknowns := u.unknowns - 1 })
    = ({ t with unknowns := t.unknowns - 1 } : Tally).countIn i c := by
  rcases Tally.countIn_cases i c t with ⟨m, found, eq⟩ | ⟨unmatched, room, eq⟩ | ⟨unmatched, full, eq⟩
  · rw [eq, Tally.countIn_of_some (t := { t with unknowns := t.unknowns - 1 }) found]
    rfl
  · rw [eq, Tally.countIn_of_room (t := { t with unknowns := t.unknowns - 1 }) unmatched room]
    rfl
  · rw [eq, Tally.countIn_of_full (t := { t with unknowns := t.unknowns - 1 }) unmatched full]
    rfl

theorem Tally.Ok.read (h : t.Ok) (high : r.index ≤ 255) : (t.read r).1.Ok := by
  by_cases indexed : r.index = 0
  · rw [Tally.read_of_zero indexed]
    exact h.unindexedRead
  have low : 1 ≤ r.index := Nat.one_le_iff_ne_zero.mpr indexed
  cases readable : r.article with
  | none =>
    cases entry : t.entry r.index with
    | none =>
      rw [Tally.read_unreadable_new indexed readable entry]
      exact (h.but entry).makeUnknown low high
    | some e =>
      rw [Tally.read_unreadable_seen indexed readable entry]
      exact h.duplicate
  | some a =>
    cases entry : t.entry r.index with
    | none =>
      rw [Tally.read_new indexed readable entry]
      cases counted : t.countIn r.index (r.content a) with
      | none => exact (h.but entry).makeUnknown low high
      | some u => exact (h.but entry).countIn low high counted
    | some e =>
      cases e with
      | unknown =>
        rw [Tally.read_unknown indexed readable entry, Tally.countIn_unknowns]
        cases counted : ({ t with unknowns := t.unknowns - 1 } : Tally).countIn r.index (r.content a) with
        | none => exact h
        | some u => exact (h.but_unknown entry).countIn low high counted
      | counted c =>
        rw [Tally.read_counted indexed readable entry]
        cases conflict : contradicts c (r.content a) with
        | true =>
          rw [Tally.repeated_of_conflict conflict]
          exact h
        | false =>
          by_cases same : filled c (r.content a) = c
          · rw [Tally.repeated_of_same conflict same]
            exact h.duplicate
          · rw [Tally.repeated_of_fill conflict same, Tally.fill_eq]
            cases counted : (t.without c).countIn r.index (filled c (r.content a)) with
            | none => exact h
            | some u => exact (h.but_counted entry).countIn low high counted

/-! ### The other indices -/

theorem Tally.entry_withCase {lines : List TallyLine} (order : t.cases.Pairwise fun a b => a.1 < b.1) (j : Nat) :
    (t.withCase i m lines).entry j = if j = i then some (.counted m) else t.entry j :=
  caseAt_setCase _ order i j

theorem Tally.entry_makeUnknown (order : t.cases.Pairwise fun a b => a.1 < b.1) (j : Nat) :
    (t.makeUnknown i).entry j = if j = i then some .unknown else t.entry j :=
  caseAt_setCase _ order i j

/-- Counting a case in: the entry of its index, and the others as they were. -/
theorem Tally.entry_countIn (order : t.cases.Pairwise fun a b => a.1 < b.1) (counted : t.countIn i c = some u) :
    (∀ j, j ≠ i → u.entry j = t.entry j) ∧ ((∃ l ∈ t.lines, sameContent l.content c = true) ∨ t.lines.length < 8)
      ∧ ∃ m, u.entry i = some (.counted m) ∧ sameContent m c = true := by
  rcases Tally.countIn_cases i c t with ⟨m, found, eq⟩ | ⟨unmatched, room, eq⟩ | ⟨-, -, eq⟩
  · obtain rfl : _ = u := Option.some.inj (eq.symm.trans counted)
    obtain ⟨l, hl, rfl, same⟩ := Tally.matching_eq_some found
    exact ⟨fun j ne => by rw [Tally.entry_withCase order, if_neg ne], .inl ⟨l, hl, same⟩, l.content,
      by rw [Tally.entry_withCase order, if_pos rfl], same⟩
  · obtain rfl : _ = u := Option.some.inj (eq.symm.trans counted)
    exact ⟨fun j ne => by rw [Tally.entry_withCase order, if_neg ne], .inr room, c,
      by rw [Tally.entry_withCase order, if_pos rfl], sameContent_iff.mpr rfl⟩
  · cases eq.symm.trans counted

/-- A case is counted in exactly where a line matches or there is room. -/
theorem Tally.countIn_eq_none : t.countIn i c = none ↔ (∀ l ∈ t.lines, sameContent l.content c = false) ∧ 8 ≤ t.lines.length := by
  rcases Tally.countIn_cases i c t with ⟨m, found, eq⟩ | ⟨unmatched, room, eq⟩ | ⟨unmatched, full, eq⟩
  · obtain ⟨l, hl, rfl, same⟩ := Tally.matching_eq_some found
    simp only [eq, false_iff, reduceCtorEq]
    intro ⟨differ, _⟩
    rw [differ l hl] at same
    cases same
  · simp only [eq, false_iff, reduceCtorEq]
    omega
  · simp only [eq, true_iff]
    exact ⟨Tally.matching_eq_none.mp unmatched, full⟩

theorem Tally.entry_read (h : t.Ok) (r : CaseRead) (ne : j ≠ r.index) : (t.read r).1.entry j = t.entry j := by
  by_cases indexed : r.index = 0
  · rw [Tally.read_of_zero indexed]
    rfl
  cases readable : r.article with
  | none =>
    cases entry : t.entry r.index with
    | none =>
      rw [Tally.read_unreadable_new indexed readable entry]
      exact (Tally.entry_makeUnknown h.order j).trans (if_neg ne)
    | some e =>
      rw [Tally.read_unreadable_seen indexed readable entry]
      rfl
  | some a =>
    cases entry : t.entry r.index with
    | none =>
      rw [Tally.read_new indexed readable entry]
      cases counted : t.countIn r.index (r.content a) with
      | none => exact (Tally.entry_makeUnknown h.order j).trans (if_neg ne)
      | some u => exact (Tally.entry_countIn h.order counted).1 j ne
    | some e =>
      cases e with
      | unknown =>
        rw [Tally.read_unknown indexed readable entry]
        cases counted : t.countIn r.index (r.content a) with
        | none => rfl
        | some u => exact (Tally.entry_countIn h.order counted).1 j ne
      | counted c =>
        rw [Tally.read_counted indexed readable entry]
        cases conflict : contradicts c (r.content a) with
        | true => rw [Tally.repeated_of_conflict conflict]
        | false =>
          by_cases same : filled c (r.content a) = c
          · rw [Tally.repeated_of_same conflict same]
            rfl
          · rw [Tally.repeated_of_fill conflict same, Tally.fill_eq]
            cases counted : (t.without c).countIn r.index (filled c (r.content a)) with
            | none => rfl
            | some u => exact (Tally.entry_countIn (t := t.without c) h.order counted).1 j ne

/-! ### The fill (R66) -/

/-- Two lines of equal contents are one. -/
theorem eq_of_sameContent (distinct : ls.Pairwise fun a b => sameContent a.content b.content = false) (hl : l ∈ ls)
    (hx : x ∈ ls) (same : sameContent l.content x.content = true) : l = x := by
  by_contra ne
  have symmetric : Std.Symm fun a b : TallyLine => sameContent a.content b.content = false :=
    ⟨fun a b differ => sameContent_false.mpr (sameContent_false.mp differ).symm⟩
  rw [distinct.forall hl hx ne] at same
  cases same

theorem lowerLine_length_of_many (many : ∀ l ∈ ls, l.content = c → 1 < l.count) : (lowerLine c ls).length = ls.length := by
  induction ls with
  | nil => rfl
  | cons l ls ih =>
    have rest := ih fun y mem => many y (by simp [mem])
    unfold lowerLine at rest ⊢
    by_cases same : l.content = c
    · have high : ¬l.count ≤ 1 := Nat.not_le.mpr (many l (by simp) same)
      simp [same, high, rest]
    · simp [same, rest]

theorem lowerLine_length_lt (hl : l ∈ ls) (same : l.content = c) (last : l.count = 1) :
    (lowerLine c ls).length < ls.length := by
  induction ls with
  | nil => cases hl
  | cons y ls ih =>
    rcases List.mem_cons.mp hl with rfl | mem
    · have shorter := lowerLine_length c ls
      unfold lowerLine at shorter ⊢
      simp only [List.filterMap_cons, same, last, if_true, le_refl, List.length_cons]
      omega
    · have rest := ih mem
      unfold lowerLine at rest ⊢
      rw [List.filterMap_cons]
      split
      · exact rest.trans (Nat.lt_succ_self _)
      · exact Nat.succ_lt_succ rest

/-- A fill without a line for the new content (R66). -/
theorem Tally.fill_of_full (unmatched : ∀ l ∈ t.lines, sameContent l.content n = false) (full : 8 ≤ t.lines.length)
    (many : ∀ l ∈ t.lines, l.content = c → 1 < l.count) : t.fill i c n = (t, some .tallyOverflow) := by
  have none : (t.without c).countIn i n = none := Tally.countIn_eq_none.mpr ⟨fun x mem => by
    obtain ⟨l, hl, content⟩ := exists_of_mem_lowerLine mem
    rw [← content]
    exact unmatched l hl, full.trans (lowerLine_length_of_many many).ge⟩
  rw [Tally.fill_eq, none]
  rfl

/-- A fill with a line for the new content, or one to be made (R66). -/
theorem Tally.fill_of_fits (h : t.Ok) (differ : sameContent c n = false)
    (fits : (∃ l ∈ t.lines, sameContent l.content n = true) ∨ t.lines.length < 8
      ∨ ∃ l ∈ t.lines, l.content = c ∧ l.count = 1) : ∃ u m, t.fill i c n = (u, none)
    ∧ u.entry i = some (.counted m) ∧ m ≠ c
    ∧ ((∀ l ∈ t.lines, sameContent l.content n = false) → m = n ∧ u.lines.getLast? = some ⟨n, 1⟩)
    ∧ (∀ l ∈ t.lines, sameContent l.content n = true → m = l.content ∧ { l with count := l.count + 1 } ∈ u.lines)
    ∧ (∀ l ∈ t.lines, l.content = c → 1 < l.count → { l with count := l.count - 1 } ∈ u.lines)
    ∧ (∀ l ∈ t.lines, l.content = c → l.count = 1 → ∀ x ∈ u.lines, x.content ≠ c)
    ∧ (∀ l ∈ t.lines, l.content ≠ c → l.content ≠ m → l ∈ u.lines)
    ∧ u.unknowns = t.unknowns ∧ u.unindexed = t.unindexed ∧ u.duplicates = t.duplicates := by
  have not_c {d : Content} (same : sameContent d n = true) : d ≠ c := fun e => by
    rw [e, differ] at same
    cases same
  have stays {l : TallyLine} (hl : l ∈ t.lines) (other : l.content ≠ c) : l ∈ lowerLine c t.lines :=
    mem_lowerLine.mpr (.inl ⟨hl, other⟩)
  have lowers {l : TallyLine} (hl : l ∈ t.lines) (same : l.content = c) (many : 1 < l.count) :
      { l with count := l.count - 1 } ∈ lowerLine c t.lines := mem_lowerLine.mpr (.inr ⟨l, hl, same, many, rfl⟩)
  have goes {l : TallyLine} (hl : l ∈ t.lines) (same : l.content = c) (last : l.count = 1) :
      ∀ x ∈ lowerLine c t.lines, x.content ≠ c := fun x mem => by
    rcases mem_lowerLine.mp mem with ⟨-, other⟩ | ⟨y, hy, content, many, -⟩
    · exact other
    · have one : l = y := eq_of_sameContent h.distinct hl hy (sameContent_iff.mpr (by rw [same, content]))
      rw [one] at last
      omega
  rcases Tally.countIn_cases i n (t.without c) with ⟨m, found, eq⟩ | ⟨unmatched, room, eq⟩ | ⟨unmatched, full, eq⟩
  · obtain ⟨x, hx, content, same⟩ := Tally.matching_eq_some found
    obtain ⟨y, hy, content'⟩ := exists_of_mem_lowerLine hx
    have at_m : y.content = m := content'.trans content
    have ne : m ≠ c := not_c same
    refine ⟨_, m, by rw [Tally.fill_eq, eq]; rfl, (Tally.entry_withCase h.order i).trans (if_pos rfl), ne, fun none => ?_,
      fun l hl hit => ?_, fun l hl at_c many => ?_, fun l hl at_c last z hz => ?_, fun l hl other other' => ?_, rfl, rfl, rfl⟩
    · have miss := none y hy
      rw [at_m, same] at miss
      cases miss
    · have one : l = y := eq_of_sameContent h.distinct hl hy (sameContent_iff.mpr
        ((sameContent_iff.mp hit).trans (by rw [at_m]; exact (sameContent_iff.mp same).symm)))
      subst one
      exact ⟨at_m.symm, mem_raiseLine.mpr (.inr ⟨l, stays hl (not_c hit), at_m, rfl⟩)⟩
    · exact mem_raiseLine.mpr (.inl ⟨lowers hl at_c many, fun e => ne (e.symm.trans at_c)⟩)
    · rcases mem_raiseLine.mp hz with ⟨old, -⟩ | ⟨w, -, at_w, rfl⟩
      · exact goes hl at_c last z old
      · exact fun e => ne (at_w.symm.trans e)
    · exact mem_raiseLine.mpr (.inl ⟨stays hl other, other'⟩)
  · have miss := Tally.matching_eq_none.mp unmatched
    have ne : n ≠ c := not_c (sameContent_iff.mpr rfl)
    refine ⟨_, n, by rw [Tally.fill_eq, eq]; rfl, (Tally.entry_withCase h.order i).trans (if_pos rfl), ne,
      fun _ => ⟨rfl, List.getLast?_concat ..⟩, fun l hl hit => ?_, fun l hl at_c many => ?_, fun l hl at_c last z hz => ?_,
      fun l hl other _ => ?_, rfl, rfl, rfl⟩
    · have none := miss l (stays hl (not_c hit))
      rw [hit] at none
      cases none
    · exact List.mem_append_left _ (lowers hl at_c many)
    · rcases List.mem_append.mp hz with old | new
      · exact goes hl at_c last z old
      · rw [List.mem_singleton.mp new]
        exact ne
    · exact List.mem_append_left _ (stays hl other)
  · have miss := Tally.matching_eq_none.mp unmatched
    have long : 8 ≤ (lowerLine c t.lines).length := full
    have shorter := lowerLine_length c t.lines
    have few : t.lines.length ≤ 8 := h.few
    rcases fits with ⟨l, hl, hit⟩ | room | ⟨l, hl, same, last⟩
    · have none := miss l (stays hl (not_c hit))
      rw [hit] at none
      cases none
    · omega
    · have less := lowerLine_length_lt hl same last
      omega

end

end Sys2Proof.Machine

namespace Sys2Proof.Proofs

open Sys2Proof Sys2Proof.Machine

/-- Settles O22, by the kinds of read and the fill of a counted case. -/
theorem caseReadsAreTallied : Obligations.CaseReadsAreTallied := by
  refine ⟨fun t r h high => h.read high, fun t r h => ⟨fun zero => Tally.read_of_zero zero, fun j ne => Tally.entry_read h r ne,
    fun indexed unreadable new => ?_, fun indexed unreadable seen => ?_, fun a indexed readable entry => ⟨fun fits => ?_,
      fun unmatched full => ?_⟩, fun a c indexed readable counted => ?_⟩⟩
  · rw [Tally.read_unreadable_new indexed unreadable new]
    exact ⟨(Tally.entry_makeUnknown h.order r.index).trans (if_pos rfl), rfl, rfl, rfl⟩
  · obtain ⟨e, entry⟩ := Option.isSome_iff_exists.mp seen
    exact Tally.read_unreadable_seen indexed unreadable entry
  · obtain ⟨u, counts⟩ : ∃ u, t.countIn r.index (r.content a) = some u := Option.ne_none_iff_exists'.mp fun none => by
      obtain ⟨unmatched, full⟩ := Tally.countIn_eq_none.mp none
      rcases fits with ⟨l, hl, hit⟩ | room
      · rw [show sameContent l.content ⟨a, r.lot, r.best⟩ = false from unmatched l hl] at hit
        cases hit
      · omega
    obtain ⟨-, -, at_i⟩ := Tally.entry_countIn h.order counts
    rcases entry with new | unknown
    · rw [Tally.read_new indexed readable new, counts]
      exact ⟨rfl, at_i⟩
    · rw [Tally.read_unknown indexed readable unknown, counts]
      exact ⟨rfl, at_i⟩
  · have none : t.countIn r.index (r.content a) = none := Tally.countIn_eq_none.mpr ⟨unmatched, full⟩
    rcases entry with new | unknown
    · rw [Tally.read_new indexed readable new, none]
      exact ⟨rfl, (Tally.entry_makeUnknown h.order r.index).trans (if_pos rfl), rfl⟩
    · rw [Tally.read_unknown indexed readable unknown, none]
      exact ⟨rfl, unknown, rfl⟩
  · rw [Tally.read_counted indexed readable counted]
    refine ⟨Tally.repeated_of_conflict, Tally.repeated_of_same, fun n fill ne agree => ?_⟩
    have filling : t.repeated r.index c (r.content a) = t.fill r.index c n := by
      rw [fill] at ne ⊢
      exact Tally.repeated_of_fill agree ne
    rw [filling]
    refine ⟨fun unmatched full many => Tally.fill_of_full unmatched full many, Tally.fill_of_fits h ?_⟩
    rw [fill] at ne ⊢
    exact sameContent_filled ne

end Sys2Proof.Proofs
end
